-- ==== Sys2Proof/Word.lean ====
section
/-! DEFINITION. The word types of the machine. Bit 0 is the least significant bit of every
field, register and word (R2). -/

namespace Sys2Proof

/-- One byte of any store (R2: memory is little-endian). -/
abbrev Byte := BitVec 8

/-- One 32-bit register, instruction word or lane-register. -/
abbrev Word := BitVec 32

/-- One 64-bit value: an even register pair, a generic address, a Datum time. -/
abbrev DWord := BitVec 64

/-- A mask over the 64 lane positions of a wave, bit `l` for lane `l`. -/
abbrev LaneMask := BitVec 64

/-- A mask over the 16 slice positions of a wave, bit `s` for slice `s`. -/
abbrev SliceMask := BitVec 16

end Sys2Proof
end

