-- ==== Sys2Proof/Config.lean ====
section
/-! DEFINITION. What the spec leaves open, as constants without a body: nothing can evaluate them, so a
statement about the machine holds whatever they are. Each is applied to a draw number of
`State.free`, or to the data it depends on. The assumption log names each. -/

namespace Sys2Proof.Config

/-- Which of the events that can happen happens next (R90, R91, R247: timing; assumption 6). -/
opaque choose : Nat → Nat

/-- Whether the host's IOMMU maps an address for a function at a tick (R429 code 3: the mapping is the host's;
assumption 60). -/
opaque hostMapped : Nat → Nat → Nat → Bool

/-- The verdict on a firmware image (R433: the key and the form of the signature are not given;
assumption 8): 0 authentic, 1 bad signature, 2 version below the floor. -/
opaque verdict : List Byte → Nat

/-- The Traverse port that leads to a device (R400: routes are firmware's; assumption 9). -/
opaque portOf : BitVec 16 → Nat

/-- Whether the main clock has locked its frequency to the reference at a tick (R238, R409: how long the lock takes is not
given; assumption 146). -/
opaque freqLocked : Nat → Bool

/-- What the power controller's sensors read at a tick: the module's power in watts (0), and the junction temperatures of
the compute dies (1), the memory dies (2) and the control die (3) in degrees Celsius (R440, R441: the power drawn is no
function of the state; assumption 152). -/
opaque sensor : Nat → Nat → Nat

/-- The bytes of a log entry on the argument page, of which R431 and R432 give no layout, by a draw number (assumption
153). -/
opaque logByte : Nat → Nat → BitVec 8

/-- Whether a die passes the bring-up step that its re-admission repeats, by a draw number (R437, R435 step 4: whether the
links train is no function of the state; assumption 159). -/
opaque dieTrains : Nat → Bool

end Sys2Proof.Config
end

