-- ==== Sys2Proof/Syntax.lean ====
section
/-! DEFINITION. The operand codes of R36 and R39, the payloads that events carry, and the ONE
inductive of the table's rows: 202 encoded instructions, RESERVED_OPCODE, and 103 events. -/

namespace Sys2Proof

/-- The vector-class operand codes of R36; `bad` stands for 0xF8 to 0xFF. -/
inductive VCode where
  | v (n : Fin 192)
  | s (n : Fin 32)
  | lit (k : Fin 8)
  | zero | one | mone | half
  | laneid | sliceid | waveid | timelo
  | p (n : Fin 8)
  | bad (n : Fin 8)
  deriving DecidableEq, Repr

/-- The scalar-class operand codes of R39; `bad` holds the raw code of every other value:
0x80 to 0xDF (`gap`), 0xEC and 0xED (`special`), 0xF0 to 0xFF (`top`). -/
inductive SCode where
  | s (n : Fin 128)
  | gap (n : Fin 96)
  | lit (k : Fin 8)
  | zero | one | mone | half
  | special (n : Fin 2)
  | waveid | timelo
  | top (n : Fin 16)
  deriving DecidableEq, Repr

/-- One fabric packet (R398 to R401, R412): class, stamp, carried watermark, key, source and
destination, sequence number and payload. `func` and `inject` are the sending function and the
injection time that R410 tests. -/
structure Packet where
  ordered : Bool
  stamp   : DWord
  wmark   : DWord
  key     : BitVec 16
  sdev    : BitVec 16
  sep     : Nat
  ddev    : BitVec 16
  dep     : Nat
  seq     : Word
  payload : List Byte
  func    : Nat
  inject  : Nat
  deriving DecidableEq, Repr

/-- What a retire beacon carries (R410): the key, the device, the function and its retire time. -/
structure Retire where
  key  : BitVec 16
  sdev : BitVec 16
  func : Nat
  upTo : Nat
  deriving DecidableEq, Repr

/-- A beacon (R402) with the function reset that it tells of, where it is a retire beacon (R410). -/
structure Beacon where
  wmark  : DWord
  retire : Option Retire
  deriving DecidableEq, Repr

/-- A replica member's digest message (R395), in the order of its fields. -/
structure ReplicaMsg where
  sdev   : BitVec 16
  key    : BitVec 16
  plat   : DWord
  gen    : Word
  node   : Nat
  digest : List Byte
  deriving DecidableEq, Repr

/-- What a full/empty wait belongs to (R285, R197, R300). -/
inductive FeWaiter where
  | load (wave op unit : Nat)
  | tile (block half op : Nat)
  | transfer (id : Nat)
  deriving DecidableEq, Repr

/-- The masters that a violation freezes and that FREEZE_END names (R429, R431): `freeChannel` is a physical channel of a
core that a chain of a queue or a plat held (R325). -/
inductive Master where
  | wave (key : Nat)
  | core (core : Nat)
  | channel (id : Nat)
  | freeChannel (core ch : Nat)
  | func (f : Nat)
  deriving DecidableEq, Repr

/-- The argument of PART_SET (R421, R431): what the firmware gives a partition. -/
structure PartArg where
  part      : Nat
  cores     : List Nat
  grants    : List (Nat × Nat)
  dieScratch : List Nat
  cairnBase : Nat
  cairnSize : Nat
  slotBase  : Nat
  privBase  : Nat
  aliasBase : Nat
  deriving DecidableEq, Repr

/-- The argument of FUNC_SET (R418, R431). -/
structure FuncArg where
  func     : Nat
  part     : Option Nat
  root     : DWord
  qspace   : Nat
  prioceil : Nat
  retry    : Bool
  key      : BitVec 16
  deriving DecidableEq, Repr

/-- The argument of TIME_SET (R406, R409, R431). -/
structure TimeArg where
  devid    : BitVec 16
  stalllim : Nat
  tsrc     : BitVec 16
  pps      : Bool
  deriving DecidableEq, Repr

/-- The host-visible registers that REGISTER_WRITE reaches (R5, R315, R408, R418, R431, R434). -/
inductive HostReg where
  | qbase (f q : Nat)
  | qctrl (f q : Nat)
  | qstatus (f q : Nat)
  | qro (f q : Nat)
  | evbase (f : Nat)
  | evsz (f : Nat)
  | evcons (f : Nat)
  | evirq (f : Nat)
  | funcRO (f : Nat)
  | msix (f n : Nat)
  | mbarg
  | tvstat (port : Nat)
  | wmark (port : Nat)
  | uplen
  | imageByte (off : Nat)
  | recoveryRO
  | unused
  deriving DecidableEq, Repr

/-- What an ECC error strikes (R139, R163, R191, R429, R438). -/
inductive SoftUnit where
  | laneReg (wave reg lane : Nat)
  | scalarReg (wave reg : Nat)
  | tile (block half elem : Nat)
  | scratchLine (block half line : Nat)
  | regionLine (region line : Nat)
  | dieStoreLine (region line : Nat)
  | hbmLine (line : Nat)
  | cacheLine (core line : Nat)
  | codeLine (level place line : Nat)
  | coreControl (core : Nat)
  | dieControl (die : Nat)
  | controlDie
  deriving DecidableEq, Repr

/-- One power and temperature sample (R440), in watts and degrees Celsius. -/
structure PowerSample where
  watts    : Nat
  compTemp : Nat
  memTemp  : Nat
  ctrlTemp : Nat
  deriving DecidableEq, Repr

/-- The dies a thermal trip may name (R441). -/
inductive DieKind where
  | compute | memory | control
  deriving DecidableEq, Repr

/-- Every row of spec/opcode_table.json, one constructor each. Encoded instructions carry their
operand codes (R36, R39) and their direct fields; events carry the unit they happen to. -/
inductive Instr where
  -- control 0x00 to 0x1E
  | nop
  | mode (a b : VCode)
  | br (a : VCode)
  | brx (a : VCode)
  | brs (cond : BitVec 2) (a b : VCode)
  | brv (cond : BitVec 4) (a b : VCode)
  | join
  | regang (a : VCode)
  | meld (a b : VCode)
  | melde
  | call (d a : VCode)
  | calli (d a : VCode)
  | ret (a : VCode)
  | exit (a : VCode)
  | yield
  | waitf (flags : BitVec 12)
  | mon (a : VCode)
  | mwait (a : VCode)
  | trap (a : VCode)
  | tret
  | phint (k : BitVec 2)
  | idemb
  | ideme
  | ipf (level : BitVec 2) (a : VCode) (count : BitVec 5)
  | spawn (a b : VCode)
  | launch (d a : VCode)
  | gfire (a b : VCode)
  | barb (id : BitVec 4)
  | barc (id : BitVec 2)
  | quant
  | digest (a : VCode) (count : BitVec 3)
  | reservedOpcode (word : Word)
  -- vector general 0x20 to 0x3F
  | add (d a b : VCode)
  | sub (d a b : VCode)
  | mul (d a b : VCode)
  | fma (d a b : VCode)
  | fms (d a b : VCode)
  | fnma (d a b : VCode)
  | min (d a b : VCode)
  | max (d a b : VCode)
  | abs (d a : VCode)
  | neg (d a : VCode)
  | rcp (d a : VCode)
  | rsq (d a : VCode)
  | sqrt (d a : VCode)
  | exp2 (d a : VCode)
  | log2 (d a : VCode)
  | tanh (d a : VCode)
  | cmpeq (d a b : VCode)
  | cmpne (d a b : VCode)
  | cmplt (d a b : VCode)
  | cmple (d a b : VCode)
  | cmpun (d a b : VCode)
  | classify (d a b : VCode)
  | sel (d a b : VCode)
  | cvt (d a : VCode) (part : BitVec 3)
  | scale (d a b : VCode)
  | rint (d a : VCode)
  | frxp (d a : VCode) (part : BitVec 1)
  | div (d a b : VCode)
  | enct (d a b : VCode)
  | dect (d a : VCode) (byte : BitVec 2)
  | mov (d a : VCode)
  | fxr (d a : VCode)
  -- integer, bit and lane 0x40 to 0x5F
  | addc (d a b : VCode)
  | subb (d a b : VCode)
  | mulhi (d a b : VCode)
  | mulw (d a b : VCode)
  | and (d a b : VCode)
  | or (d a b : VCode)
  | xor (d a b : VCode)
  | not (d a : VCode)
  | shl (d a b : VCode)
  | shr (d a b : VCode)
  | sha (d a b : VCode)
  | rot (d a b : VCode)
  | clz (d a : VCode)
  | popc (d a : VCode)
  | brev (d a : VCode)
  | bfe (d a b : VCode)
  | bfi (d a b : VCode)
  | clmul (d a b : VCode)
  | clmulh (d a b : VCode)
  | dot4 (d a b : VCode)
  | dot2 (d a b : VCode)
  | shfl (d a b : VCode)
  | shflx (d a b : VCode)
  | bcast (d a b : VCode)
  | wred (d a : VCode) (op : BitVec 3)
  | wscan (d a : VCode) (op : BitVec 3)
  | ballot (d a : VCode)
  | pand (d a b : VCode)
  | por (d a b : VCode)
  | pxor (d a b : VCode)
  | spsel (d a : VCode) (part : BitVec 2)
  | spcmp (d a b : VCode)
  -- scalar 0x60 to 0x7E
  | sadd (d a b : SCode)
  | ssub (d a b : SCode)
  | smul (d a b : SCode)
  | smulh (d a b : SCode)
  | sand (d a b : SCode)
  | sor (d a b : SCode)
  | sxor (d a b : SCode)
  | sshl (d a b : SCode)
  | sshr (d a b : SCode)
  | ssha (d a b : SCode)
  | smin (d a b : SCode)
  | smax (d a b : SCode)
  | scmplt (d a b : SCode)
  | scmpeq (d a b : SCode)
  | ssel (d a b : SCode)
  | smov (d a : SCode)
  | sadd64 (d a b : SCode)
  | ssub64 (d a b : SCode)
  | smul64 (d a b : SCode)
  | sshl64 (d a b : SCode)
  | sshr64 (d a b : SCode)
  | sclz (d a : SCode)
  | spopc (d a : SCode)
  | v2s (d : SCode) (a : VCode) (b : SCode)
  | sysrd (d : SCode) (index : BitVec 16)
  | syswr (index : BitVec 16) (b : SCode)
  | scmpltn (d a b : SCode)
  | pack (d a b : SCode)
  | unpack (d a : SCode) (mode : BitVec 2)
  | pset (d : VCode) (a : SCode)
  | sbfe (d a b : SCode)
  -- memory 0x80 to 0xAB
  | ld (d a : VCode) (sx : Bool) (w : BitVec 3)
  | lda (d a : VCode) (sx : Bool) (w : BitVec 3)
  | ldx (d a : VCode) (sx : Bool) (w : BitVec 3)
  | st (d a : VCode) (w : BitVec 3)
  | stl (d a : VCode) (w : BitVec 3)
  | stx (d a : VCode) (w : BitVec 3)
  | sti (d a : VCode) (w : BitVec 3)
  | ldsp (d a : VCode) (sx : Bool) (w : BitVec 3)
  | stsp (d a : VCode) (w : BitVec 3)
  | ldcl (d a : VCode) (sx strong : Bool) (w : BitVec 3)
  | stcl (d a : VCode) (strong : Bool) (w : BitVec 3)
  | ldds (d a : VCode) (sx : Bool) (w : BitVec 3)
  | stds (d a : VCode) (w : BitVec 3)
  | gath (d a b : VCode)
  | scat (d a b : VCode)
  | pfd (level : BitVec 1) (a : VCode)
  | aadd (d a b : VCode)
  | amin (d a b : VCode)
  | amax (d a b : VCode)
  | aand (d a b : VCode)
  | aor (d a b : VCode)
  | axor (d a b : VCode)
  | axchg (d a b : VCode)
  | acas (d a b : VCode)
  | ainc (d a b : VCode)
  | adec (d a b : VCode)
  | afadd (d a b : VCode)
  | aaddn (d a b : VCode)
  | spaadd (d a b : VCode)
  | spacas (d a b : VCode)
  | fence
  | fencel (scope : BitVec 3)
  | invl1
  | lease (a : VCode)
  | barinit (a b : VCode)
  | barexp (a b : VCode)
  | bararr (a b : VCode)
  | bartry (d a b : VCode)
  | barwt (phase : BitVec 1) (a b : VCode)
  | feempty (a : VCode)
  | fefull (a : VCode)
  | fetest (d a : VCode)
  -- copy engines and fabric 0xB0 to 0xBB
  | xcpy (a : VCode)
  | xtile (a : VCode)
  | xgath (a : VCode)
  | xscat (a : VCode)
  | xred (a : VCode)
  | xchain (ch : BitVec 4) (a : VCode)
  | xcancel (ch : BitVec 4)
  | xstat (d : VCode) (ch : BitVec 4)
  | esnd (a : VCode)
  | ercv (a : VCode)
  | estamp (d : VCode)
  | ewmark (d : VCode) (sel : BitVec 5)
  -- matrix and accumulator 0xC0 to 0xCD
  | mma (d a b : VCode)
  | mmar (d a b : VCode)
  | mmak (d a b : VCode)
  | mmas (d a b : VCode)
  | acq (d : VCode)
  | rel (d : VCode)
  | acld (d a : VCode)
  | acst (d a : VCode)
  | acz (d : VCode)
  | acsp (d a : VCode)
  | acwin (d a b : VCode)
  | bmark (d a : VCode)
  | acadd (d a : VCode)
  | acscl (d a : VCode)
  -- privileged 0xD0 to 0xD7
  | ctxsv (d a : VCode)
  | ctxrs (d a : VCode)
  | tlbinv (a : VCode) (size : BitVec 8)
  | wfreeze (d a : VCode)
  | wkill (fatal : BitVec 1)
  | easeq (d a : VCode)
  | cntrd (d : VCode) (ctr : BitVec 3)
  | cntsel (ctr : BitVec 3) (a : VCode)
  -- events of the cores
  | issuePick (core quad : Nat)
  | clauseBegin (wave slice : Nat)
  | fetchFill (wave slice : Nat)
  | regangRelease (wave : Nat)
  | rejoinDeadlock (wave : Nat)
  | barrierComplete (block : Nat) (cluster : Bool) (id : Nat)
  | specialComplete (wave op : Nat)
  | loadComplete (wave op unit : Nat)
  | homeArrival (wave op unit : Nat)
  | storeAck (wave op unit : Nat)
  | fillArrival (fill : Nat)
  | leaseExpiry (l2 : Bool) (owner line : Nat)
  | monRegistration (wave : Nat)
  | feWaitTimeout (who : FeWaiter)
  | mwaitLimitExpiry (wave slice : Nat)
  | barwtLimitExpiry (wave slice : Nat)
  | pageWalkComplete (func page : Nat)
  | tileAccept (core : Nat)
  | kstepComplete (block half op : Nat)
  | tileOpComplete (block half op : Nat)
  | trapDelivery (wave : Nat)
  -- events of placement, preemption and deterministic launches
  | blockPlace (part : Nat)
  | taskWaveEmit (die grid entry : Nat)
  | gridComplete (grid : Nat)
  | preempt (grid : Nat)
  | cairnPublish (unit : Nat)
  | cairnResume (unit : Nat)
  | roundEnd (grid : Nat)
  -- events of the engines
  | bucketRefill (engine func : Nat)
  | segmentPerform (id : Nat)
  | chainRecordFetch (id : Nat)
  | esndInject (id : Nat)
  | ercvAccept (id : Nat)
  -- queues and commands
  | qnotifyWrite (f q : Nat) (v : DWord)
  | recordStart (f q : Nat)
  | launchGrid (f q n : Nat)
  | runPlat (f q n : Nat)
  | bundle (f q n : Nat)
  | copyChain (f q n : Nat)
  | modload (f q n : Nat)
  | modunload (f q n : Nat)
  | moduleRelease (part handle : Nat)
  | signal (f q n : Nat)
  | waitValue (f q n : Nat)
  | waitValuePoll (f q n : Nat)
  | waitValueTimeout (f q n : Nat)
  | ctxSave (f q n : Nat)
  | ctxRestore (f q n : Nat)
  | ctxAbort (f q n : Nat)
  -- plats
  | nodeIssue (inst : Nat)
  | nodeComplete (inst node : Nat)
  | nodeFault (inst node : Nat)
  | nodeRearm (inst node : Nat)
  | platToken (id : Nat)
  | replicaMessage (m : ReplicaMsg)
  | replicaTimeout (inst node : Nat)
  -- management mailbox
  | partSet (arg : PartArg)
  | funcSet (arg : FuncArg)
  | bktcfgSet (f : Nat) (v : DWord)
  | epcfgSet (ep : Nat) (v : DWord)
  | replicaSet (f : Nat) (devids : List (BitVec 16)) (limit : Nat)
  | freezeEnd (m : Master) (endBlock : Bool)
  | dieReset (die : Nat)
  | logRead (count : Nat)
  | fwStage (image : List Byte)
  | timeSet (arg : TimeArg)
  | pwrSet (v : DWord)
  | mailboxUnknownCode (code : BitVec 16)
  -- recovery window, events, registers, bring-up
  | uploadGo (slot : Bool)
  | uploadComplete
  | rsnClear
  | evackWrite (f : Nat) (seq : Word)
  | eventRecordWrite (f : Nat)
  | registerWrite (r : HostReg) (v : DWord)
  | start (powerOn : Bool)
  | readyTimeout
  | firmwareReady (memOk : Bool) (dies : BitVec 4)
  | configRequest (func : Nat)
  | linkTrained (port : Nat)
  | dieErrorReset (die : Nat)
  | dieReadmit (die : Nat)
  | softError (unit : SoftUnit) (corrected : Bool)
  | hbmScrub (mem : Nat)
  | powerSample (p : PowerSample)
  | thermalTrip (die : DieKind)
  -- functions
  | flr (f : Nat)
  | lockInterface (f stream : Nat)
  | startInterface (f : Nat)
  | stopInterface (f : Nat)
  | tdispError (f : Nat)
  | switchOut (f : Nat)
  | switchIn (f : Nat)
  | pluginUnload (part : Nat)
  -- fabric
  | packetArrival (input : Nat) (pkt : Packet)
  | beaconSend (link : Nat)
  | beaconArrival (input : Nat) (w : Beacon)
  | watermarkStall (input : Nat)
  | portFence (input : Nat)
  | portUnfence (input : Nat)
  | timeBeacon (port : Nat)
  | timeBeaconArrival (port : Nat) (t1 t2 t3 t4 : Nat)
  | ppsPulse
  | ercvComplete (id : Nat)
  deriving DecidableEq, Repr

end Sys2Proof
end

