-- ==== Sys2Proof/Decode.lean ====
section
/-! DEFINITION. Decoding of the 32-bit instruction word (R35, R36, R39, R48, R49), total on every word,
and the encoder of every encoded instruction, both written from the encodings of spec/. -/

namespace Sys2Proof

/-! ## Operand codes -/

/-- The vector-class operand code of a byte (R36). -/
def VCode.ofByte (c : BitVec 8) : VCode :=
  if h : c.toNat < 192 then .v ⟨c.toNat, h⟩
  else if h : c.toNat - 192 < 32 then .s ⟨c.toNat - 192, h⟩
  else if h : c.toNat - 224 < 8 then .lit ⟨c.toNat - 224, h⟩
  else if c.toNat = 232 then .zero
  else if c.toNat = 233 then .one
  else if c.toNat = 234 then .mone
  else if c.toNat = 235 then .half
  else if c.toNat = 236 then .laneid
  else if c.toNat = 237 then .sliceid
  else if c.toNat = 238 then .waveid
  else if c.toNat = 239 then .timelo
  else if h : c.toNat - 240 < 8 then .p ⟨c.toNat - 240, h⟩
  else .bad ⟨(c.toNat - 248) % 8, by omega⟩

/-- The byte of a vector-class operand code (R36). -/
def VCode.toByte : VCode → BitVec 8
  | .v n => BitVec.ofNat 8 n
  | .s n => BitVec.ofNat 8 (192 + n)
  | .lit n => BitVec.ofNat 8 (224 + n)
  | .zero => 0xE8
  | .one => 0xE9
  | .mone => 0xEA
  | .half => 0xEB
  | .laneid => 0xEC
  | .sliceid => 0xED
  | .waveid => 0xEE
  | .timelo => 0xEF
  | .p n => BitVec.ofNat 8 (240 + n)
  | .bad n => BitVec.ofNat 8 (248 + n)

/-- The scalar-class operand code of a byte (R39). -/
def SCode.ofByte (c : BitVec 8) : SCode :=
  if h : c.toNat < 128 then .s ⟨c.toNat, h⟩
  else if h : c.toNat - 128 < 96 then .gap ⟨c.toNat - 128, h⟩
  else if h : c.toNat - 224 < 8 then .lit ⟨c.toNat - 224, h⟩
  else if c.toNat = 232 then .zero
  else if c.toNat = 233 then .one
  else if c.toNat = 234 then .mone
  else if c.toNat = 235 then .half
  else if h : c.toNat - 236 < 2 then .special ⟨c.toNat - 236, h⟩
  else if c.toNat = 238 then .waveid
  else if c.toNat = 239 then .timelo
  else .top ⟨(c.toNat - 240) % 16, by omega⟩

/-- The byte of a scalar-class operand code (R39). -/
def SCode.toByte : SCode → BitVec 8
  | .s n => BitVec.ofNat 8 n
  | .gap n => BitVec.ofNat 8 (128 + n)
  | .lit n => BitVec.ofNat 8 (224 + n)
  | .zero => 0xE8
  | .one => 0xE9
  | .mone => 0xEA
  | .half => 0xEB
  | .special n => BitVec.ofNat 8 (236 + n)
  | .waveid => 0xEE
  | .timelo => 0xEF
  | .top n => BitVec.ofNat 8 (240 + n)

/-! ## Words -/

/-- Why a word is no instruction: a bit that its opcode leaves unused is not zero (R35), in field d,
a or b. The machine answers with ILLEGAL_OPERAND. -/
inductive DecodeError where
  | fieldD (mnemonic : String)
  | fieldA (mnemonic : String)
  | fieldB (mnemonic : String)
  deriving DecidableEq, Repr

/-- The opcodes that R49 reserves. -/
def opcodeReserved (op : BitVec 8) : Bool :=
  op == 0x1F || op == 0x7F || op == 0x9E || op == 0x9F ||
  (0xAC ≤ op.toNat && op.toNat ≤ 0xAF) || (0xBC ≤ op.toNat && op.toNat ≤ 0xBF) ||
  op == 0xCE || op == 0xCF || 0xD8 ≤ op.toNat

/-- Bits [31:24], [23:16], [15:8] and [7:0] of a word (R35). -/
def fieldOp (w : Word) : BitVec 8 := w.extractLsb' 24 8
def fieldD (w : Word) : BitVec 8 := w.extractLsb' 16 8
def fieldA (w : Word) : BitVec 8 := w.extractLsb' 8 8
def fieldB (w : Word) : BitVec 8 := w.extractLsb' 0 8

/-- A word from its four fields (R35). -/
def wordOf (op d a b : BitVec 8) : Word := op ++ d ++ a ++ b

/-- A direct field that must fit its low `n` bits; the bits above must be zero (R35). -/
def fits (n : Nat) (c : BitVec 8) : Bool := c >>> n == 0

/-- The checks of the three fields of a word, in the order d, a, b. -/
def checkFields (m : String) (d a b : Bool) (i : Instr) : Except DecodeError Instr :=
  if !d then .error (.fieldD m) else if !a then .error (.fieldA m)
  else if !b then .error (.fieldB m) else .ok i

/-- Opcodes 0x00 to 0x0F by their low digit (R48, R49). -/
def decodeRow0 (lo : Nat) (d a b : BitVec 8) (w : Word) : Except DecodeError Instr :=
  match lo with
  | 0 => checkFields "NOP" (fits 0 d) (fits 0 a) (fits 0 b) (.nop)
  | 1 => checkFields "MODE" (fits 0 d) true true (.mode (VCode.ofByte a) (VCode.ofByte b))
  | 2 => checkFields "BR" (fits 0 d) true (fits 0 b) (.br (VCode.ofByte a))
  | 3 => checkFields "BRX" (fits 0 d) true (fits 0 b) (.brx (VCode.ofByte a))
  | 4 => checkFields "BRS" (fits 2 d) true true (.brs (d.extractLsb' 0 2) (VCode.ofByte a) (VCode.ofByte b))
  | 5 => checkFields "BRV" (fits 4 d) true true (.brv (d.extractLsb' 0 4) (VCode.ofByte a) (VCode.ofByte b))
  | 6 => checkFields "JOIN" (fits 0 d) (fits 0 a) (fits 0 b) (.join)
  | 7 => checkFields "REGANG" (fits 0 d) true (fits 0 b) (.regang (VCode.ofByte a))
  | 8 => checkFields "MELD" (fits 0 d) true true (.meld (VCode.ofByte a) (VCode.ofByte b))
  | 9 => checkFields "MELDE" (fits 0 d) (fits 0 a) (fits 0 b) (.melde)
  | 10 => checkFields "CALL" true true (fits 0 b) (.call (VCode.ofByte d) (VCode.ofByte a))
  | 11 => checkFields "CALLI" true true (fits 0 b) (.calli (VCode.ofByte d) (VCode.ofByte a))
  | 12 => checkFields "RET" (fits 0 d) true (fits 0 b) (.ret (VCode.ofByte a))
  | 13 => checkFields "EXIT" (fits 0 d) true (fits 0 b) (.exit (VCode.ofByte a))
  | 14 => checkFields "YIELD" (fits 0 d) (fits 0 a) (fits 0 b) (.yield)
  | 15 => checkFields "WAITF" true (fits 4 a) (fits 0 b) (.waitf (a.extractLsb' 0 4 ++ d))
  | _ => .ok (.reservedOpcode w)

/-- Opcodes 0x10 to 0x1F by their low digit (R48, R49). -/
def decodeRow1 (lo : Nat) (d a b : BitVec 8) (w : Word) : Except DecodeError Instr :=
  match lo with
  | 0 => checkFields "MON" (fits 0 d) true (fits 0 b) (.mon (VCode.ofByte a))
  | 1 => checkFields "MWAIT" (fits 0 d) true (fits 0 b) (.mwait (VCode.ofByte a))
  | 2 => checkFields "TRAP" (fits 0 d) true (fits 0 b) (.trap (VCode.ofByte a))
  | 3 => checkFields "TRET" (fits 0 d) (fits 0 a) (fits 0 b) (.tret)
  | 4 => checkFields "PHINT" (fits 0 d) ((a.extractLsb' 2 6 == 0x38#6)) (fits 0 b) (.phint (a.extractLsb' 0 2))
  | 5 => checkFields "IDEMB" (fits 0 d) (fits 0 a) (fits 0 b) (.idemb)
  | 6 => checkFields "IDEME" (fits 0 d) (fits 0 a) (fits 0 b) (.ideme)
  | 7 => checkFields "IPF" (fits 2 d) true (fits 5 b) (.ipf (d.extractLsb' 0 2) (VCode.ofByte a) (b.extractLsb' 0 5))
  | 8 => checkFields "SPAWN" (fits 0 d) true true (.spawn (VCode.ofByte a) (VCode.ofByte b))
  | 9 => checkFields "LAUNCH" true true (fits 0 b) (.launch (VCode.ofByte d) (VCode.ofByte a))
  | 10 => checkFields "GFIRE" (fits 0 d) true true (.gfire (VCode.ofByte a) (VCode.ofByte b))
  | 11 => checkFields "BARB" (fits 4 d) (fits 0 a) (fits 0 b) (.barb (d.extractLsb' 0 4))
  | 12 => checkFields "BARC" (fits 2 d) (fits 0 a) (fits 0 b) (.barc (d.extractLsb' 0 2))
  | 13 => checkFields "QUANT" (fits 0 d) (fits 0 a) (fits 0 b) (.quant)
  | 14 => checkFields "DIGEST" (fits 0 d) true (fits 3 b) (.digest (VCode.ofByte a) (b.extractLsb' 0 3))
  | _ => .ok (.reservedOpcode w)

/-- Opcodes 0x20 to 0x2F by their low digit (R48, R49). -/
def decodeRow2 (lo : Nat) (d a b : BitVec 8) (w : Word) : Except DecodeError Instr :=
  match lo with
  | 0 => .ok (.add (VCode.ofByte d) (VCode.ofByte a) (VCode.ofByte b))
  | 1 => .ok (.sub (VCode.ofByte d) (VCode.ofByte a) (VCode.ofByte b))
  | 2 => .ok (.mul (VCode.ofByte d) (VCode.ofByte a) (VCode.ofByte b))
  | 3 => .ok (.fma (VCode.ofByte d) (VCode.ofByte a) (VCode.ofByte b))
  | 4 => .ok (.fms (VCode.ofByte d) (VCode.ofByte a) (VCode.ofByte b))
  | 5 => .ok (.fnma (VCode.ofByte d) (VCode.ofByte a) (VCode.ofByte b))
  | 6 => .ok (.min (VCode.ofByte d) (VCode.ofByte a) (VCode.ofByte b))
  | 7 => .ok (.max (VCode.ofByte d) (VCode.ofByte a) (VCode.ofByte b))
  | 8 => checkFields "ABS" true true (fits 0 b) (.abs (VCode.ofByte d) (VCode.ofByte a))
  | 9 => checkFields "NEG" true true (fits 0 b) (.neg (VCode.ofByte d) (VCode.ofByte a))
  | 10 => checkFields "RCP" true true (fits 0 b) (.rcp (VCode.ofByte d) (VCode.ofByte a))
  | 11 => checkFields "RSQ" true true (fits 0 b) (.rsq (VCode.ofByte d) (VCode.ofByte a))
  | 12 => checkFields "SQRT" true true (fits 0 b) (.sqrt (VCode.ofByte d) (VCode.ofByte a))
  | 13 => checkFields "EXP2" true true (fits 0 b) (.exp2 (VCode.ofByte d) (VCode.ofByte a))
  | 14 => checkFields "LOG2" true true (fits 0 b) (.log2 (VCode.ofByte d) (VCode.ofByte a))
  | 15 => checkFields "TANH" true true (fits 0 b) (.tanh (VCode.ofByte d) (VCode.ofByte a))
  | _ => .ok (.reservedOpcode w)

/-- Opcodes 0x30 to 0x3F by their low digit (R48, R49). -/
def decodeRow3 (lo : Nat) (d a b : BitVec 8) (w : Word) : Except DecodeError Instr :=
  match lo with
  | 0 => .ok (.cmpeq (VCode.ofByte d) (VCode.ofByte a) (VCode.ofByte b))
  | 1 => .ok (.cmpne (VCode.ofByte d) (VCode.ofByte a) (VCode.ofByte b))
  | 2 => .ok (.cmplt (VCode.ofByte d) (VCode.ofByte a) (VCode.ofByte b))
  | 3 => .ok (.cmple (VCode.ofByte d) (VCode.ofByte a) (VCode.ofByte b))
  | 4 => .ok (.cmpun (VCode.ofByte d) (VCode.ofByte a) (VCode.ofByte b))
  | 5 => .ok (.classify (VCode.ofByte d) (VCode.ofByte a) (VCode.ofByte b))
  | 6 => .ok (.sel (VCode.ofByte d) (VCode.ofByte a) (VCode.ofByte b))
  | 7 => checkFields "CVT" true true (fits 3 b) (.cvt (VCode.ofByte d) (VCode.ofByte a) (b.extractLsb' 0 3))
  | 8 => .ok (.scale (VCode.ofByte d) (VCode.ofByte a) (VCode.ofByte b))
  | 9 => checkFields "RINT" true true (fits 0 b) (.rint (VCode.ofByte d) (VCode.ofByte a))
  | 10 => checkFields "FRXP" true true (fits 1 b) (.frxp (VCode.ofByte d) (VCode.ofByte a) (b.extractLsb' 0 1))
  | 11 => .ok (.div (VCode.ofByte d) (VCode.ofByte a) (VCode.ofByte b))
  | 12 => .ok (.enct (VCode.ofByte d) (VCode.ofByte a) (VCode.ofByte b))
  | 13 => checkFields "DECT" true true (fits 2 b) (.dect (VCode.ofByte d) (VCode.ofByte a) (b.extractLsb' 0 2))
  | 14 => checkFields "MOV" true true (fits 0 b) (.mov (VCode.ofByte d) (VCode.ofByte a))
  | 15 => checkFields "FXR" true true (fits 0 b) (.fxr (VCode.ofByte d) (VCode.ofByte a))
  | _ => .ok (.reservedOpcode w)

/-- Opcodes 0x40 to 0x4F by their low digit (R48, R49). -/
def decodeRow4 (lo : Nat) (d a b : BitVec 8) (w : Word) : Except DecodeError Instr :=
  match lo with
  | 0 => .ok (.addc (VCode.ofByte d) (VCode.ofByte a) (VCode.ofByte b))
  | 1 => .ok (.subb (VCode.ofByte d) (VCode.ofByte a) (VCode.ofByte b))
  | 2 => .ok (.mulhi (VCode.ofByte d) (VCode.ofByte a) (VCode.ofByte b))
  | 3 => .ok (.mulw (VCode.ofByte d) (VCode.ofByte a) (VCode.ofByte b))
  | 4 => .ok (.and (VCode.ofByte d) (VCode.ofByte a) (VCode.ofByte b))
  | 5 => .ok (.or (VCode.ofByte d) (VCode.ofByte a) (VCode.ofByte b))
  | 6 => .ok (.xor (VCode.ofByte d) (VCode.ofByte a) (VCode.ofByte b))
  | 7 => checkFields "NOT" true true (fits 0 b) (.not (VCode.ofByte d) (VCode.ofByte a))
  | 8 => .ok (.shl (VCode.ofByte d) (VCode.ofByte a) (VCode.ofByte b))
  | 9 => .ok (.shr (VCode.ofByte d) (VCode.ofByte a) (VCode.ofByte b))
  | 10 => .ok (.sha (VCode.ofByte d) (VCode.ofByte a) (VCode.ofByte b))
  | 11 => .ok (.rot (VCode.ofByte d) (VCode.ofByte a) (VCode.ofByte b))
  | 12 => checkFields "CLZ" true true (fits 0 b) (.clz (VCode.ofByte d) (VCode.ofByte a))
  | 13 => checkFields "POPC" true true (fits 0 b) (.popc (VCode.ofByte d) (VCode.ofByte a))
  | 14 => checkFields "BREV" true true (fits 0 b) (.brev (VCode.ofByte d) (VCode.ofByte a))
  | 15 => .ok (.bfe (VCode.ofByte d) (VCode.ofByte a) (VCode.ofByte b))
  | _ => .ok (.reservedOpcode w)

/-- Opcodes 0x50 to 0x5F by their low digit (R48, R49). -/
def decodeRow5 (lo : Nat) (d a b : BitVec 8) (w : Word) : Except DecodeError Instr :=
  match lo with
  | 0 => .ok (.bfi (VCode.ofByte d) (VCode.ofByte a) (VCode.ofByte b))
  | 1 => .ok (.clmul (VCode.ofByte d) (VCode.ofByte a) (VCode.ofByte b))
  | 2 => .ok (.clmulh (VCode.ofByte d) (VCode.ofByte a) (VCode.ofByte b))
  | 3 => .ok (.dot4 (VCode.ofByte d) (VCode.ofByte a) (VCode.ofByte b))
  | 4 => .ok (.dot2 (VCode.ofByte d) (VCode.ofByte a) (VCode.ofByte b))
  | 5 => .ok (.shfl (VCode.ofByte d) (VCode.ofByte a) (VCode.ofByte b))
  | 6 => .ok (.shflx (VCode.ofByte d) (VCode.ofByte a) (VCode.ofByte b))
  | 7 => .ok (.bcast (VCode.ofByte d) (VCode.ofByte a) (VCode.ofByte b))
  | 8 => checkFields "WRED" true true (fits 3 b) (.wred (VCode.ofByte d) (VCode.ofByte a) (b.extractLsb' 0 3))
  | 9 => checkFields "WSCAN" true true (fits 3 b) (.wscan (VCode.ofByte d) (VCode.ofByte a) (b.extractLsb' 0 3))
  | 10 => checkFields "BALLOT" true true (fits 0 b) (.ballot (VCode.ofByte d) (VCode.ofByte a))
  | 11 => .ok (.pand (VCode.ofByte d) (VCode.ofByte a) (VCode.ofByte b))
  | 12 => .ok (.por (VCode.ofByte d) (VCode.ofByte a) (VCode.ofByte b))
  | 13 => .ok (.pxor (VCode.ofByte d) (VCode.ofByte a) (VCode.ofByte b))
  | 14 => checkFields "SPSEL" true true (fits 2 b) (.spsel (VCode.ofByte d) (VCode.ofByte a) (b.extractLsb' 0 2))
  | 15 => .ok (.spcmp (VCode.ofByte d) (VCode.ofByte a) (VCode.ofByte b))
  | _ => .ok (.reservedOpcode w)

/-- Opcodes 0x60 to 0x6F by their low digit (R48, R49). -/
def decodeRow6 (lo : Nat) (d a b : BitVec 8) (w : Word) : Except DecodeError Instr :=
  match lo with
  | 0 => .ok (.sadd (SCode.ofByte d) (SCode.ofByte a) (SCode.ofByte b))
  | 1 => .ok (.ssub (SCode.ofByte d) (SCode.ofByte a) (SCode.ofByte b))
  | 2 => .ok (.smul (SCode.ofByte d) (SCode.ofByte a) (SCode.ofByte b))
  | 3 => .ok (.smulh (SCode.ofByte d) (SCode.ofByte a) (SCode.ofByte b))
  | 4 => .ok (.sand (SCode.ofByte d) (SCode.ofByte a) (SCode.ofByte b))
  | 5 => .ok (.sor (SCode.ofByte d) (SCode.ofByte a) (SCode.ofByte b))
  | 6 => .ok (.sxor (SCode.ofByte d) (SCode.ofByte a) (SCode.ofByte b))
  | 7 => .ok (.sshl (SCode.ofByte d) (SCode.ofByte a) (SCode.ofByte b))
  | 8 => .ok (.sshr (SCode.ofByte d) (SCode.ofByte a) (SCode.ofByte b))
  | 9 => .ok (.ssha (SCode.ofByte d) (SCode.ofByte a) (SCode.ofByte b))
  | 10 => .ok (.smin (SCode.ofByte d) (SCode.ofByte a) (SCode.ofByte b))
  | 11 => .ok (.smax (SCode.ofByte d) (SCode.ofByte a) (SCode.ofByte b))
  | 12 => .ok (.scmplt (SCode.ofByte d) (SCode.ofByte a) (SCode.ofByte b))
  | 13 => .ok (.scmpeq (SCode.ofByte d) (SCode.ofByte a) (SCode.ofByte b))
  | 14 => .ok (.ssel (SCode.ofByte d) (SCode.ofByte a) (SCode.ofByte b))
  | 15 => checkFields "SMOV" true true (fits 0 b) (.smov (SCode.ofByte d) (SCode.ofByte a))
  | _ => .ok (.reservedOpcode w)

/-- Opcodes 0x70 to 0x7F by their low digit (R48, R49). -/
def decodeRow7 (lo : Nat) (d a b : BitVec 8) (w : Word) : Except DecodeError Instr :=
  match lo with
  | 0 => .ok (.sadd64 (SCode.ofByte d) (SCode.ofByte a) (SCode.ofByte b))
  | 1 => .ok (.ssub64 (SCode.ofByte d) (SCode.ofByte a) (SCode.ofByte b))
  | 2 => .ok (.smul64 (SCode.ofByte d) (SCode.ofByte a) (SCode.ofByte b))
  | 3 => .ok (.sshl64 (SCode.ofByte d) (SCode.ofByte a) (SCode.ofByte b))
  | 4 => .ok (.sshr64 (SCode.ofByte d) (SCode.ofByte a) (SCode.ofByte b))
  | 5 => checkFields "SCLZ" true true (fits 0 b) (.sclz (SCode.ofByte d) (SCode.ofByte a))
  | 6 => checkFields "SPOPC" true true (fits 0 b) (.spopc (SCode.ofByte d) (SCode.ofByte a))
  | 7 => .ok (.v2s (SCode.ofByte d) (VCode.ofByte a) (SCode.ofByte b))
  | 8 => .ok (.sysrd (SCode.ofByte d) (a ++ b))
  | 9 => .ok (.syswr (d ++ a) (SCode.ofByte b))
  | 10 => .ok (.scmpltn (SCode.ofByte d) (SCode.ofByte a) (SCode.ofByte b))
  | 11 => .ok (.pack (SCode.ofByte d) (SCode.ofByte a) (SCode.ofByte b))
  | 12 => checkFields "UNPACK" true true (fits 2 b) (.unpack (SCode.ofByte d) (SCode.ofByte a) (b.extractLsb' 0 2))
  | 13 => checkFields "PSET" true true (fits 0 b) (.pset (VCode.ofByte d) (SCode.ofByte a))
  | 14 => .ok (.sbfe (SCode.ofByte d) (SCode.ofByte a) (SCode.ofByte b))
  | _ => .ok (.reservedOpcode w)

/-- Opcodes 0x80 to 0x8F by their low digit (R48, R49). -/
def decodeRow8 (lo : Nat) (d a b : BitVec 8) (w : Word) : Except DecodeError Instr :=
  match lo with
  | 0 => checkFields "LD" true true ((b.extractLsb' 3 4 == 0)) (.ld (VCode.ofByte d) (VCode.ofByte a) (b.getLsbD 7) (b.extractLsb' 0 3))
  | 1 => checkFields "LDA" true true ((b.extractLsb' 3 4 == 0)) (.lda (VCode.ofByte d) (VCode.ofByte a) (b.getLsbD 7) (b.extractLsb' 0 3))
  | 2 => checkFields "LDX" true true ((b.extractLsb' 3 4 == 0)) (.ldx (VCode.ofByte d) (VCode.ofByte a) (b.getLsbD 7) (b.extractLsb' 0 3))
  | 3 => checkFields "ST" true true (fits 3 b) (.st (VCode.ofByte d) (VCode.ofByte a) (b.extractLsb' 0 3))
  | 4 => checkFields "STL" true true (fits 3 b) (.stl (VCode.ofByte d) (VCode.ofByte a) (b.extractLsb' 0 3))
  | 5 => checkFields "STX" true true (fits 3 b) (.stx (VCode.ofByte d) (VCode.ofByte a) (b.extractLsb' 0 3))
  | 6 => checkFields "STI" true true (fits 3 b) (.sti (VCode.ofByte d) (VCode.ofByte a) (b.extractLsb' 0 3))
  | 7 => checkFields "LDSP" true true ((b.extractLsb' 3 4 == 0)) (.ldsp (VCode.ofByte d) (VCode.ofByte a) (b.getLsbD 7) (b.extractLsb' 0 3))
  | 8 => checkFields "STSP" true true (fits 3 b) (.stsp (VCode.ofByte d) (VCode.ofByte a) (b.extractLsb' 0 3))
  | 9 => checkFields "LDCL" true true ((b.extractLsb' 3 3 == 0)) (.ldcl (VCode.ofByte d) (VCode.ofByte a) (b.getLsbD 7) (b.getLsbD 6) (b.extractLsb' 0 3))
  | 10 => checkFields "STCL" true true ((b.extractLsb' 7 1 == 0 && b.extractLsb' 3 3 == 0)) (.stcl (VCode.ofByte d) (VCode.ofByte a) (b.getLsbD 6) (b.extractLsb' 0 3))
  | 11 => checkFields "LDDS" true true ((b.extractLsb' 3 4 == 0)) (.ldds (VCode.ofByte d) (VCode.ofByte a) (b.getLsbD 7) (b.extractLsb' 0 3))
  | 12 => checkFields "STDS" true true (fits 3 b) (.stds (VCode.ofByte d) (VCode.ofByte a) (b.extractLsb' 0 3))
  | 13 => .ok (.gath (VCode.ofByte d) (VCode.ofByte a) (VCode.ofByte b))
  | 14 => .ok (.scat (VCode.ofByte d) (VCode.ofByte a) (VCode.ofByte b))
  | 15 => checkFields "PFD" (fits 1 d) true (fits 0 b) (.pfd (d.extractLsb' 0 1) (VCode.ofByte a))
  | _ => .ok (.reservedOpcode w)

/-- Opcodes 0x90 to 0x9F by their low digit (R48, R49). -/
def decodeRow9 (lo : Nat) (d a b : BitVec 8) (w : Word) : Except DecodeError Instr :=
  match lo with
  | 0 => .ok (.aadd (VCode.ofByte d) (VCode.ofByte a) (VCode.ofByte b))
  | 1 => .ok (.amin (VCode.ofByte d) (VCode.ofByte a) (VCode.ofByte b))
  | 2 => .ok (.amax (VCode.ofByte d) (VCode.ofByte a) (VCode.ofByte b))
  | 3 => .ok (.aand (VCode.ofByte d) (VCode.ofByte a) (VCode.ofByte b))
  | 4 => .ok (.aor (VCode.ofByte d) (VCode.ofByte a) (VCode.ofByte b))
  | 5 => .ok (.axor (VCode.ofByte d) (VCode.ofByte a) (VCode.ofByte b))
  | 6 => .ok (.axchg (VCode.ofByte d) (VCode.ofByte a) (VCode.ofByte b))
  | 7 => .ok (.acas (VCode.ofByte d) (VCode.ofByte a) (VCode.ofByte b))
  | 8 => .ok (.ainc (VCode.ofByte d) (VCode.ofByte a) (VCode.ofByte b))
  | 9 => .ok (.adec (VCode.ofByte d) (VCode.ofByte a) (VCode.ofByte b))
  | 10 => .ok (.afadd (VCode.ofByte d) (VCode.ofByte a) (VCode.ofByte b))
  | 11 => .ok (.aaddn (VCode.ofByte d) (VCode.ofByte a) (VCode.ofByte b))
  | 12 => .ok (.spaadd (VCode.ofByte d) (VCode.ofByte a) (VCode.ofByte b))
  | 13 => .ok (.spacas (VCode.ofByte d) (VCode.ofByte a) (VCode.ofByte b))
  | _ => .ok (.reservedOpcode w)

/-- Opcodes 0xA0 to 0xAF by their low digit (R48, R49). -/
def decodeRowA (lo : Nat) (d a b : BitVec 8) (w : Word) : Except DecodeError Instr :=
  match lo with
  | 0 => checkFields "FENCE" (fits 0 d) (fits 0 a) (fits 0 b) (.fence)
  | 1 => checkFields "FENCEL" (fits 3 d) (fits 0 a) (fits 0 b) (.fencel (d.extractLsb' 0 3))
  | 2 => checkFields "INVL1" (fits 0 d) (fits 0 a) (fits 0 b) (.invl1)
  | 3 => checkFields "LEASE" (fits 0 d) true (fits 0 b) (.lease (VCode.ofByte a))
  | 4 => checkFields "BARINIT" (fits 0 d) true true (.barinit (VCode.ofByte a) (VCode.ofByte b))
  | 5 => checkFields "BAREXP" (fits 0 d) true true (.barexp (VCode.ofByte a) (VCode.ofByte b))
  | 6 => checkFields "BARARR" (fits 0 d) true true (.bararr (VCode.ofByte a) (VCode.ofByte b))
  | 7 => .ok (.bartry (VCode.ofByte d) (VCode.ofByte a) (VCode.ofByte b))
  | 8 => checkFields "BARWT" (fits 1 d) true true (.barwt (d.extractLsb' 0 1) (VCode.ofByte a) (VCode.ofByte b))
  | 9 => checkFields "FEEMPTY" (fits 0 d) true (fits 0 b) (.feempty (VCode.ofByte a))
  | 10 => checkFields "FEFULL" (fits 0 d) true (fits 0 b) (.fefull (VCode.ofByte a))
  | 11 => checkFields "FETEST" true true (fits 0 b) (.fetest (VCode.ofByte d) (VCode.ofByte a))
  | _ => .ok (.reservedOpcode w)

/-- Opcodes 0xB0 to 0xBF by their low digit (R48, R49). -/
def decodeRowB (lo : Nat) (d a b : BitVec 8) (w : Word) : Except DecodeError Instr :=
  match lo with
  | 0 => checkFields "XCPY" (fits 0 d) true (fits 0 b) (.xcpy (VCode.ofByte a))
  | 1 => checkFields "XTILE" (fits 0 d) true (fits 0 b) (.xtile (VCode.ofByte a))
  | 2 => checkFields "XGATH" (fits 0 d) true (fits 0 b) (.xgath (VCode.ofByte a))
  | 3 => checkFields "XSCAT" (fits 0 d) true (fits 0 b) (.xscat (VCode.ofByte a))
  | 4 => checkFields "XRED" (fits 0 d) true (fits 0 b) (.xred (VCode.ofByte a))
  | 5 => checkFields "XCHAIN" (fits 4 d) true (fits 0 b) (.xchain (d.extractLsb' 0 4) (VCode.ofByte a))
  | 6 => checkFields "XCANCEL" (fits 4 d) (fits 0 a) (fits 0 b) (.xcancel (d.extractLsb' 0 4))
  | 7 => checkFields "XSTAT" true (fits 4 a) (fits 0 b) (.xstat (VCode.ofByte d) (a.extractLsb' 0 4))
  | 8 => checkFields "ESND" (fits 0 d) true (fits 0 b) (.esnd (VCode.ofByte a))
  | 9 => checkFields "ERCV" (fits 0 d) true (fits 0 b) (.ercv (VCode.ofByte a))
  | 10 => checkFields "ESTAMP" true (fits 0 a) (fits 0 b) (.estamp (VCode.ofByte d))
  | 11 => checkFields "EWMARK" true (fits 5 a) (fits 0 b) (.ewmark (VCode.ofByte d) (a.extractLsb' 0 5))
  | _ => .ok (.reservedOpcode w)

/-- Opcodes 0xC0 to 0xCF by their low digit (R48, R49). -/
def decodeRowC (lo : Nat) (d a b : BitVec 8) (w : Word) : Except DecodeError Instr :=
  match lo with
  | 0 => .ok (.mma (VCode.ofByte d) (VCode.ofByte a) (VCode.ofByte b))
  | 1 => .ok (.mmar (VCode.ofByte d) (VCode.ofByte a) (VCode.ofByte b))
  | 2 => .ok (.mmak (VCode.ofByte d) (VCode.ofByte a) (VCode.ofByte b))
  | 3 => .ok (.mmas (VCode.ofByte d) (VCode.ofByte a) (VCode.ofByte b))
  | 4 => checkFields "ACQ" true (fits 0 a) (fits 0 b) (.acq (VCode.ofByte d))
  | 5 => checkFields "REL" true (fits 0 a) (fits 0 b) (.rel (VCode.ofByte d))
  | 6 => checkFields "ACLD" true true (fits 0 b) (.acld (VCode.ofByte d) (VCode.ofByte a))
  | 7 => checkFields "ACST" true true (fits 0 b) (.acst (VCode.ofByte d) (VCode.ofByte a))
  | 8 => checkFields "ACZ" true (fits 0 a) (fits 0 b) (.acz (VCode.ofByte d))
  | 9 => checkFields "ACSP" true true (fits 0 b) (.acsp (VCode.ofByte d) (VCode.ofByte a))
  | 10 => .ok (.acwin (VCode.ofByte d) (VCode.ofByte a) (VCode.ofByte b))
  | 11 => checkFields "BMARK" true true (fits 0 b) (.bmark (VCode.ofByte d) (VCode.ofByte a))
  | 12 => checkFields "ACADD" true true (fits 0 b) (.acadd (VCode.ofByte d) (VCode.ofByte a))
  | 13 => checkFields "ACSCL" true true (fits 0 b) (.acscl (VCode.ofByte d) (VCode.ofByte a))
  | _ => .ok (.reservedOpcode w)

/-- Opcodes 0xD0 to 0xDF by their low digit (R48, R49). -/
def decodeRowD (lo : Nat) (d a b : BitVec 8) (w : Word) : Except DecodeError Instr :=
  match lo with
  | 0 => checkFields "CTXSV" true true (fits 0 b) (.ctxsv (VCode.ofByte d) (VCode.ofByte a))
  | 1 => checkFields "CTXRS" true true (fits 0 b) (.ctxrs (VCode.ofByte d) (VCode.ofByte a))
  | 2 => checkFields "TLBINV" (fits 0 d) true true (.tlbinv (VCode.ofByte a) b)
  | 3 => checkFields "WFREEZE" true true (fits 0 b) (.wfreeze (VCode.ofByte d) (VCode.ofByte a))
  | 4 => checkFields "WKILL" (fits 1 d) (fits 0 a) (fits 0 b) (.wkill (d.extractLsb' 0 1))
  | 5 => checkFields "EASEQ" true true (fits 0 b) (.easeq (VCode.ofByte d) (VCode.ofByte a))
  | 6 => checkFields "CNTRD" true (fits 3 a) (fits 0 b) (.cntrd (VCode.ofByte d) (a.extractLsb' 0 3))
  | 7 => checkFields "CNTSEL" (fits 3 d) true (fits 0 b) (.cntsel (d.extractLsb' 0 3) (VCode.ofByte a))
  | _ => .ok (.reservedOpcode w)

/-- The instruction of four fields (R48): by the opcode's high digit, then its low digit. -/
def decodeFields (op d a b : BitVec 8) (w : Word) : Except DecodeError Instr :=
  match op.toNat / 16 with
  | 0 => decodeRow0 (op.toNat % 16) d a b w
  | 1 => decodeRow1 (op.toNat % 16) d a b w
  | 2 => decodeRow2 (op.toNat % 16) d a b w
  | 3 => decodeRow3 (op.toNat % 16) d a b w
  | 4 => decodeRow4 (op.toNat % 16) d a b w
  | 5 => decodeRow5 (op.toNat % 16) d a b w
  | 6 => decodeRow6 (op.toNat % 16) d a b w
  | 7 => decodeRow7 (op.toNat % 16) d a b w
  | 8 => decodeRow8 (op.toNat % 16) d a b w
  | 9 => decodeRow9 (op.toNat % 16) d a b w
  | 10 => decodeRowA (op.toNat % 16) d a b w
  | 11 => decodeRowB (op.toNat % 16) d a b w
  | 12 => decodeRowC (op.toNat % 16) d a b w
  | 13 => decodeRowD (op.toNat % 16) d a b w
  | _ => .ok (.reservedOpcode w)

/-- The instruction of a word; the words that are no instruction are rejected by name. -/
def decode (w : Word) : Except DecodeError Instr :=
  decodeFields (fieldOp w) (fieldD w) (fieldA w) (fieldB w) w

/-- The instruction read from a table row's word (`nbits` is 32: every instruction is one word). -/
def decodeTableWord (nbits w : Nat) : Option Instr :=
  if nbits = 32 then
    match decode (BitVec.ofNat 32 w) with
    | .ok i => some i
    | .error _ => none
  else none

/-! ## Encoding -/

/-- The word of an encoded instruction; an event has none and reads as zero. -/
def encode : Instr → Word
  | .nop => wordOf 0x00 0 0 0
  | .mode a b => wordOf 0x01 0 a.toByte b.toByte
  | .br a => wordOf 0x02 0 a.toByte 0
  | .brx a => wordOf 0x03 0 a.toByte 0
  | .brs cond a b => wordOf 0x04 (cond.setWidth 8) a.toByte b.toByte
  | .brv cond a b => wordOf 0x05 (cond.setWidth 8) a.toByte b.toByte
  | .join => wordOf 0x06 0 0 0
  | .regang a => wordOf 0x07 0 a.toByte 0
  | .meld a b => wordOf 0x08 0 a.toByte b.toByte
  | .melde => wordOf 0x09 0 0 0
  | .call d a => wordOf 0x0A d.toByte a.toByte 0
  | .calli d a => wordOf 0x0B d.toByte a.toByte 0
  | .ret a => wordOf 0x0C 0 a.toByte 0
  | .exit a => wordOf 0x0D 0 a.toByte 0
  | .yield => wordOf 0x0E 0 0 0
  | .waitf flags => wordOf 0x0F (flags.extractLsb' 0 8) ((flags.extractLsb' 8 4).setWidth 8) 0
  | .mon a => wordOf 0x10 0 a.toByte 0
  | .mwait a => wordOf 0x11 0 a.toByte 0
  | .trap a => wordOf 0x12 0 a.toByte 0
  | .tret => wordOf 0x13 0 0 0
  | .phint k => wordOf 0x14 0 (0x38#6 ++ k) 0
  | .idemb => wordOf 0x15 0 0 0
  | .ideme => wordOf 0x16 0 0 0
  | .ipf level a count => wordOf 0x17 (level.setWidth 8) a.toByte (count.setWidth 8)
  | .spawn a b => wordOf 0x18 0 a.toByte b.toByte
  | .launch d a => wordOf 0x19 d.toByte a.toByte 0
  | .gfire a b => wordOf 0x1A 0 a.toByte b.toByte
  | .barb id => wordOf 0x1B (id.setWidth 8) 0 0
  | .barc id => wordOf 0x1C (id.setWidth 8) 0 0
  | .quant => wordOf 0x1D 0 0 0
  | .digest a count => wordOf 0x1E 0 a.toByte (count.setWidth 8)
  | .reservedOpcode w => w
  | .add d a b => wordOf 0x20 d.toByte a.toByte b.toByte
  | .sub d a b => wordOf 0x21 d.toByte a.toByte b.toByte
  | .mul d a b => wordOf 0x22 d.toByte a.toByte b.toByte
  | .fma d a b => wordOf 0x23 d.toByte a.toByte b.toByte
  | .fms d a b => wordOf 0x24 d.toByte a.toByte b.toByte
  | .fnma d a b => wordOf 0x25 d.toByte a.toByte b.toByte
  | .min d a b => wordOf 0x26 d.toByte a.toByte b.toByte
  | .max d a b => wordOf 0x27 d.toByte a.toByte b.toByte
  | .abs d a => wordOf 0x28 d.toByte a.toByte 0
  | .neg d a => wordOf 0x29 d.toByte a.toByte 0
  | .rcp d a => wordOf 0x2A d.toByte a.toByte 0
  | .rsq d a => wordOf 0x2B d.toByte a.toByte 0
  | .sqrt d a => wordOf 0x2C d.toByte a.toByte 0
  | .exp2 d a => wordOf 0x2D d.toByte a.toByte 0
  | .log2 d a => wordOf 0x2E d.toByte a.toByte 0
  | .tanh d a => wordOf 0x2F d.toByte a.toByte 0
  | .cmpeq d a b => wordOf 0x30 d.toByte a.toByte b.toByte
  | .cmpne d a b => wordOf 0x31 d.toByte a.toByte b.toByte
  | .cmplt d a b => wordOf 0x32 d.toByte a.toByte b.toByte
  | .cmple d a b => wordOf 0x33 d.toByte a.toByte b.toByte
  | .cmpun d a b => wordOf 0x34 d.toByte a.toByte b.toByte
  | .classify d a b => wordOf 0x35 d.toByte a.toByte b.toByte
  | .sel d a b => wordOf 0x36 d.toByte a.toByte b.toByte
  | .cvt d a part => wordOf 0x37 d.toByte a.toByte (part.setWidth 8)
  | .scale d a b => wordOf 0x38 d.toByte a.toByte b.toByte
  | .rint d a => wordOf 0x39 d.toByte a.toByte 0
  | .frxp d a part => wordOf 0x3A d.toByte a.toByte (part.setWidth 8)
  | .div d a b => wordOf 0x3B d.toByte a.toByte b.toByte
  | .enct d a b => wordOf 0x3C d.toByte a.toByte b.toByte
  | .dect d a byte => wordOf 0x3D d.toByte a.toByte (byte.setWidth 8)
  | .mov d a => wordOf 0x3E d.toByte a.toByte 0
  | .fxr d a => wordOf 0x3F d.toByte a.toByte 0
  | .addc d a b => wordOf 0x40 d.toByte a.toByte b.toByte
  | .subb d a b => wordOf 0x41 d.toByte a.toByte b.toByte
  | .mulhi d a b => wordOf 0x42 d.toByte a.toByte b.toByte
  | .mulw d a b => wordOf 0x43 d.toByte a.toByte b.toByte
  | .and d a b => wordOf 0x44 d.toByte a.toByte b.toByte
  | .or d a b => wordOf 0x45 d.toByte a.toByte b.toByte
  | .xor d a b => wordOf 0x46 d.toByte a.toByte b.toByte
  | .not d a => wordOf 0x47 d.toByte a.toByte 0
  | .shl d a b => wordOf 0x48 d.toByte a.toByte b.toByte
  | .shr d a b => wordOf 0x49 d.toByte a.toByte b.toByte
  | .sha d a b => wordOf 0x4A d.toByte a.toByte b.toByte
  | .rot d a b => wordOf 0x4B d.toByte a.toByte b.toByte
  | .clz d a => wordOf 0x4C d.toByte a.toByte 0
  | .popc d a => wordOf 0x4D d.toByte a.toByte 0
  | .brev d a => wordOf 0x4E d.toByte a.toByte 0
  | .bfe d a b => wordOf 0x4F d.toByte a.toByte b.toByte
  | .bfi d a b => wordOf 0x50 d.toByte a.toByte b.toByte
  | .clmul d a b => wordOf 0x51 d.toByte a.toByte b.toByte
  | .clmulh d a b => wordOf 0x52 d.toByte a.toByte b.toByte
  | .dot4 d a b => wordOf 0x53 d.toByte a.toByte b.toByte
  | .dot2 d a b => wordOf 0x54 d.toByte a.toByte b.toByte
  | .shfl d a b => wordOf 0x55 d.toByte a.toByte b.toByte
  | .shflx d a b => wordOf 0x56 d.toByte a.toByte b.toByte
  | .bcast d a b => wordOf 0x57 d.toByte a.toByte b.toByte
  | .wred d a op => wordOf 0x58 d.toByte a.toByte (op.setWidth 8)
  | .wscan d a op => wordOf 0x59 d.toByte a.toByte (op.setWidth 8)
  | .ballot d a => wordOf 0x5A d.toByte a.toByte 0
  | .pand d a b => wordOf 0x5B d.toByte a.toByte b.toByte
  | .por d a b => wordOf 0x5C d.toByte a.toByte b.toByte
  | .pxor d a b => wordOf 0x5D d.toByte a.toByte b.toByte
  | .spsel d a part => wordOf 0x5E d.toByte a.toByte (part.setWidth 8)
  | .spcmp d a b => wordOf 0x5F d.toByte a.toByte b.toByte
  | .sadd d a b => wordOf 0x60 d.toByte a.toByte b.toByte
  | .ssub d a b => wordOf 0x61 d.toByte a.toByte b.toByte
  | .smul d a b => wordOf 0x62 d.toByte a.toByte b.toByte
  | .smulh d a b => wordOf 0x63 d.toByte a.toByte b.toByte
  | .sand d a b => wordOf 0x64 d.toByte a.toByte b.toByte
  | .sor d a b => wordOf 0x65 d.toByte a.toByte b.toByte
  | .sxor d a b => wordOf 0x66 d.toByte a.toByte b.toByte
  | .sshl d a b => wordOf 0x67 d.toByte a.toByte b.toByte
  | .sshr d a b => wordOf 0x68 d.toByte a.toByte b.toByte
  | .ssha d a b => wordOf 0x69 d.toByte a.toByte b.toByte
  | .smin d a b => wordOf 0x6A d.toByte a.toByte b.toByte
  | .smax d a b => wordOf 0x6B d.toByte a.toByte b.toByte
  | .scmplt d a b => wordOf 0x6C d.toByte a.toByte b.toByte
  | .scmpeq d a b => wordOf 0x6D d.toByte a.toByte b.toByte
  | .ssel d a b => wordOf 0x6E d.toByte a.toByte b.toByte
  | .smov d a => wordOf 0x6F d.toByte a.toByte 0
  | .sadd64 d a b => wordOf 0x70 d.toByte a.toByte b.toByte
  | .ssub64 d a b => wordOf 0x71 d.toByte a.toByte b.toByte
  | .smul64 d a b => wordOf 0x72 d.toByte a.toByte b.toByte
  | .sshl64 d a b => wordOf 0x73 d.toByte a.toByte b.toByte
  | .sshr64 d a b => wordOf 0x74 d.toByte a.toByte b.toByte
  | .sclz d a => wordOf 0x75 d.toByte a.toByte 0
  | .spopc d a => wordOf 0x76 d.toByte a.toByte 0
  | .v2s d a b => wordOf 0x77 d.toByte a.toByte b.toByte
  | .sysrd d index => wordOf 0x78 d.toByte (index.extractLsb' 8 8) (index.extractLsb' 0 8)
  | .syswr index b => wordOf 0x79 (index.extractLsb' 8 8) (index.extractLsb' 0 8) b.toByte
  | .scmpltn d a b => wordOf 0x7A d.toByte a.toByte b.toByte
  | .pack d a b => wordOf 0x7B d.toByte a.toByte b.toByte
  | .unpack d a mode => wordOf 0x7C d.toByte a.toByte (mode.setWidth 8)
  | .pset d a => wordOf 0x7D d.toByte a.toByte 0
  | .sbfe d a b => wordOf 0x7E d.toByte a.toByte b.toByte
  | .ld d a sx w => wordOf 0x80 d.toByte a.toByte (BitVec.ofBool sx ++ 0#4 ++ w)
  | .lda d a sx w => wordOf 0x81 d.toByte a.toByte (BitVec.ofBool sx ++ 0#4 ++ w)
  | .ldx d a sx w => wordOf 0x82 d.toByte a.toByte (BitVec.ofBool sx ++ 0#4 ++ w)
  | .st d a w => wordOf 0x83 d.toByte a.toByte (w.setWidth 8)
  | .stl d a w => wordOf 0x84 d.toByte a.toByte (w.setWidth 8)
  | .stx d a w => wordOf 0x85 d.toByte a.toByte (w.setWidth 8)
  | .sti d a w => wordOf 0x86 d.toByte a.toByte (w.setWidth 8)
  | .ldsp d a sx w => wordOf 0x87 d.toByte a.toByte (BitVec.ofBool sx ++ 0#4 ++ w)
  | .stsp d a w => wordOf 0x88 d.toByte a.toByte (w.setWidth 8)
  | .ldcl d a sx strong w => wordOf 0x89 d.toByte a.toByte (BitVec.ofBool sx ++ BitVec.ofBool strong ++ 0#3 ++ w)
  | .stcl d a strong w => wordOf 0x8A d.toByte a.toByte (0#1 ++ BitVec.ofBool strong ++ 0#3 ++ w)
  | .ldds d a sx w => wordOf 0x8B d.toByte a.toByte (BitVec.ofBool sx ++ 0#4 ++ w)
  | .stds d a w => wordOf 0x8C d.toByte a.toByte (w.setWidth 8)
  | .gath d a b => wordOf 0x8D d.toByte a.toByte b.toByte
  | .scat d a b => wordOf 0x8E d.toByte a.toByte b.toByte
  | .pfd level a => wordOf 0x8F (level.setWidth 8) a.toByte 0
  | .aadd d a b => wordOf 0x90 d.toByte a.toByte b.toByte
  | .amin d a b => wordOf 0x91 d.toByte a.toByte b.toByte
  | .amax d a b => wordOf 0x92 d.toByte a.toByte b.toByte
  | .aand d a b => wordOf 0x93 d.toByte a.toByte b.toByte
  | .aor d a b => wordOf 0x94 d.toByte a.toByte b.toByte
  | .axor d a b => wordOf 0x95 d.toByte a.toByte b.toByte
  | .axchg d a b => wordOf 0x96 d.toByte a.toByte b.toByte
  | .acas d a b => wordOf 0x97 d.toByte a.toByte b.toByte
  | .ainc d a b => wordOf 0x98 d.toByte a.toByte b.toByte
  | .adec d a b => wordOf 0x99 d.toByte a.toByte b.toByte
  | .afadd d a b => wordOf 0x9A d.toByte a.toByte b.toByte
  | .aaddn d a b => wordOf 0x9B d.toByte a.toByte b.toByte
  | .spaadd d a b => wordOf 0x9C d.toByte a.toByte b.toByte
  | .spacas d a b => wordOf 0x9D d.toByte a.toByte b.toByte
  | .fence => wordOf 0xA0 0 0 0
  | .fencel scope => wordOf 0xA1 (scope.setWidth 8) 0 0
  | .invl1 => wordOf 0xA2 0 0 0
  | .lease a => wordOf 0xA3 0 a.toByte 0
  | .barinit a b => wordOf 0xA4 0 a.toByte b.toByte
  | .barexp a b => wordOf 0xA5 0 a.toByte b.toByte
  | .bararr a b => wordOf 0xA6 0 a.toByte b.toByte
  | .bartry d a b => wordOf 0xA7 d.toByte a.toByte b.toByte
  | .barwt phase a b => wordOf 0xA8 (phase.setWidth 8) a.toByte b.toByte
  | .feempty a => wordOf 0xA9 0 a.toByte 0
  | .fefull a => wordOf 0xAA 0 a.toByte 0
  | .fetest d a => wordOf 0xAB d.toByte a.toByte 0
  | .xcpy a => wordOf 0xB0 0 a.toByte 0
  | .xtile a => wordOf 0xB1 0 a.toByte 0
  | .xgath a => wordOf 0xB2 0 a.toByte 0
  | .xscat a => wordOf 0xB3 0 a.toByte 0
  | .xred a => wordOf 0xB4 0 a.toByte 0
  | .xchain ch a => wordOf 0xB5 (ch.setWidth 8) a.toByte 0
  | .xcancel ch => wordOf 0xB6 (ch.setWidth 8) 0 0
  | .xstat d ch => wordOf 0xB7 d.toByte (ch.setWidth 8) 0
  | .esnd a => wordOf 0xB8 0 a.toByte 0
  | .ercv a => wordOf 0xB9 0 a.toByte 0
  | .estamp d => wordOf 0xBA d.toByte 0 0
  | .ewmark d sel => wordOf 0xBB d.toByte (sel.setWidth 8) 0
  | .mma d a b => wordOf 0xC0 d.toByte a.toByte b.toByte
  | .mmar d a b => wordOf 0xC1 d.toByte a.toByte b.toByte
  | .mmak d a b => wordOf 0xC2 d.toByte a.toByte b.toByte
  | .mmas d a b => wordOf 0xC3 d.toByte a.toByte b.toByte
  | .acq d => wordOf 0xC4 d.toByte 0 0
  | .rel d => wordOf 0xC5 d.toByte 0 0
  | .acld d a => wordOf 0xC6 d.toByte a.toByte 0
  | .acst d a => wordOf 0xC7 d.toByte a.toByte 0
  | .acz d => wordOf 0xC8 d.toByte 0 0
  | .acsp d a => wordOf 0xC9 d.toByte a.toByte 0
  | .acwin d a b => wordOf 0xCA d.toByte a.toByte b.toByte
  | .bmark d a => wordOf 0xCB d.toByte a.toByte 0
  | .acadd d a => wordOf 0xCC d.toByte a.toByte 0
  | .acscl d a => wordOf 0xCD d.toByte a.toByte 0
  | .ctxsv d a => wordOf 0xD0 d.toByte a.toByte 0
  | .ctxrs d a => wordOf 0xD1 d.toByte a.toByte 0
  | .tlbinv a size => wordOf 0xD2 0 a.toByte size
  | .wfreeze d a => wordOf 0xD3 d.toByte a.toByte 0
  | .wkill fatal => wordOf 0xD4 (fatal.setWidth 8) 0 0
  | .easeq d a => wordOf 0xD5 d.toByte a.toByte 0
  | .cntrd d ctr => wordOf 0xD6 d.toByte (ctr.setWidth 8) 0
  | .cntsel ctr a => wordOf 0xD7 (ctr.setWidth 8) a.toByte 0
  | .issuePick _ _ => 0
  | .clauseBegin _ _ => 0
  | .fetchFill _ _ => 0
  | .regangRelease _ => 0
  | .rejoinDeadlock _ => 0
  | .barrierComplete _ _ _ => 0
  | .specialComplete _ _ => 0
  | .loadComplete _ _ _ => 0
  | .homeArrival _ _ _ => 0
  | .storeAck _ _ _ => 0
  | .fillArrival _ => 0
  | .leaseExpiry _ _ _ => 0
  | .monRegistration _ => 0
  | .feWaitTimeout _ => 0
  | .mwaitLimitExpiry _ _ => 0
  | .barwtLimitExpiry _ _ => 0
  | .pageWalkComplete _ _ => 0
  | .tileAccept _ => 0
  | .kstepComplete _ _ _ => 0
  | .tileOpComplete _ _ _ => 0
  | .trapDelivery _ => 0
  | .blockPlace _ => 0
  | .taskWaveEmit _ _ _ => 0
  | .gridComplete _ => 0
  | .preempt _ => 0
  | .cairnPublish _ => 0
  | .cairnResume _ => 0
  | .roundEnd _ => 0
  | .bucketRefill _ _ => 0
  | .segmentPerform _ => 0
  | .chainRecordFetch _ => 0
  | .esndInject _ => 0
  | .ercvAccept _ => 0
  | .qnotifyWrite _ _ _ => 0
  | .recordStart _ _ => 0
  | .launchGrid _ _ _ => 0
  | .runPlat _ _ _ => 0
  | .bundle _ _ _ => 0
  | .copyChain _ _ _ => 0
  | .modload _ _ _ => 0
  | .modunload _ _ _ => 0
  | .moduleRelease _ _ => 0
  | .signal _ _ _ => 0
  | .waitValue _ _ _ => 0
  | .waitValuePoll _ _ _ => 0
  | .waitValueTimeout _ _ _ => 0
  | .ctxSave _ _ _ => 0
  | .ctxRestore _ _ _ => 0
  | .ctxAbort _ _ _ => 0
  | .nodeIssue _ => 0
  | .nodeComplete _ _ => 0
  | .nodeFault _ _ => 0
  | .nodeRearm _ _ => 0
  | .platToken _ => 0
  | .replicaMessage _ => 0
  | .replicaTimeout _ _ => 0
  | .partSet _ => 0
  | .funcSet _ => 0
  | .bktcfgSet _ _ => 0
  | .epcfgSet _ _ => 0
  | .replicaSet _ _ _ => 0
  | .freezeEnd _ _ => 0
  | .dieReset _ => 0
  | .logRead _ => 0
  | .fwStage _ => 0
  | .timeSet _ => 0
  | .pwrSet _ => 0
  | .mailboxUnknownCode _ => 0
  | .uploadGo _ => 0
  | .uploadComplete => 0
  | .rsnClear => 0
  | .evackWrite _ _ => 0
  | .eventRecordWrite _ => 0
  | .registerWrite _ _ => 0
  | .start _ => 0
  | .readyTimeout => 0
  | .firmwareReady _ _ => 0
  | .configRequest _ => 0
  | .linkTrained _ => 0
  | .dieErrorReset _ => 0
  | .dieReadmit _ => 0
  | .softError _ _ => 0
  | .hbmScrub _ => 0
  | .powerSample _ => 0
  | .thermalTrip _ => 0
  | .flr _ => 0
  | .lockInterface _ _ => 0
  | .startInterface _ => 0
  | .stopInterface _ => 0
  | .tdispError _ => 0
  | .switchOut _ => 0
  | .switchIn _ => 0
  | .pluginUnload _ => 0
  | .packetArrival _ _ => 0
  | .beaconSend _ => 0
  | .beaconArrival _ _ => 0
  | .watermarkStall _ => 0
  | .portFence _ => 0
  | .portUnfence _ => 0
  | .timeBeacon _ => 0
  | .timeBeaconArrival _ _ _ _ _ => 0
  | .ppsPulse => 0
  | .ercvComplete _ => 0

end Sys2Proof
end

