-- ==== Sys2Proof/Machine/State.lean ====
section
/-! DEFINITION. The state of the whole package as plain data, the reasons a step can stop, and the
state after power-on reset. Every field cites the rule of spec/ that gives it. -/

namespace Sys2Proof.Machine

/-! ## Sparse stores -/

/-- A store of `n`-bit cells keyed by Nat: keys strictly rising, no cell equal to zero, and an
unlisted key reads zero. Registers (R137, R92), tiles (R191), scratchpads (R222) and HBM (R435) all
read zero until written, so one form serves them all. -/
abbrev ZMap (n : Nat) := List (Nat × BitVec n)

/-- Byte-addressed memory in the same canonical form (R2, R435). -/
abbrev Memory := List Host.Cell

/-- A table keyed by Nat, keys strictly rising. -/
abbrev Table (α : Type) := List (Nat × α)

/-- The canonical form of a sparse store: keys strictly rising. -/
def keysRise {α : Type} : List (Nat × α) → Bool
  | [] => true
  | [_] => true
  | (a, _) :: (b, y) :: rest => decide (a < b) && keysRise ((b, y) :: rest)

/-- The canonical form of `ZMap`: keys strictly rising and no entry equal to zero. -/
def ZMap.wf {n : Nat} (m : ZMap n) : Bool := keysRise m && m.all (fun e => e.2 != 0)

/-- The canonical form of a byte memory. -/
def Memory.wf (m : Memory) : Bool := ZMap.wf (n := 8) m

/-! ## Causes -/

/-- The trap causes of R346, in code order. -/
inductive Cause where
  | hwErr | illegalClause | illegalInstr | illegalOperand | privilege | regRange | misaligned
  | window | pageNotPresent | permission | easement | accToken | accWindow | peerLost
  | feTimeout | mwaitTimeout | rejoinDeadlock | detOrder | illegalMeld | illegalMode | software
  deriving DecidableEq, Repr

/-- The word that an operation came from: its place in the wave's order of issue, its clause, header,
word and index, and the clause's literals (R25, R348, R353). -/
structure WordRef where
  ord    : Nat
  claddr : DWord
  hdr    : Word
  word   : Word
  widx   : Nat
  lits   : List Word
  deriving DecidableEq, Repr

/-- One lane's recorded cause (R346, R351): the cause, MALF, what XINFO takes from it, the faulting
address and the word that gave it; `tvec` is the handler's address when TVEC was written after it was
recorded (R169). -/
structure LaneCause where
  lane  : Nat
  cause : Cause
  malf  : Bool
  xinfo : Nat
  faddr : DWord
  src   : WordRef
  engine : Bool
  tvec  : Option DWord := none
  deriving DecidableEq, Repr

/-- A trap of one gang (R347, R348): its slices, whether it is precise, its trapping word, the causes
of its lanes, whether RPLY is written 0 (TRAP, and the timeouts of R464), and whether it is an
instruction-fetch fault (R27). -/
structure TrapDue where
  slices  : SliceMask
  precise : Bool
  src     : WordRef
  causes  : List LaneCause
  norply  : Bool
  fetch   : Bool
  deriving DecidableEq, Repr

/-! ## Waves -/

/-- One entry of a slice's reconvergence stack (R111). -/
structure StackEntry where
  ft   : DWord
  mg   : DWord
  pend : BitVec 4
  out  : BitVec 4
  deriving DecidableEq, Repr

/-- Completion times, one per scope (R244). -/
structure Times where
  wave    : Nat
  block   : Nat
  cluster : Nat
  device  : Nat
  system  : Nat
  deriving DecidableEq, Repr

/-- Where a slice is parked (R111, R351 SPARK, R353), with the word that parked it and, for the waits
of R287 and R280, the limit (0 for none) and the tick at which it passes. -/
inductive Park where
  | none
  | regang
  | barb (id : Nat)
  | barc (id : Nat)
  | mwait (src : WordRef) (limit deadline : Nat)
  | barwt (src : WordRef) (addr : DWord) (phase : Bool) (limit : Nat) (deadline : Option Nat)
  | tile (src : WordRef) (half op : Nat)
  | tret
  deriving DecidableEq, Repr

/-- The control state of one slice (R111) with the clause it is inside: `cl` holds the fetched words
of the clause at `pc` (header, body, literals; empty when not fetched, R24) and `word` the next body
word (0 while the clause has not begun). `age` is the ageing count (R90), `quiet` the pick cycles
for which a YIELD keeps the gang from being ready (R121), `stalled` the tick from which its next word
could not issue (R23, R90), `stood` the ticks for which it has stood at a clause start and `redirect`
whether a taken transfer brought it there (R61, R63), `woken` the tick at which the object of its BARWT changed phase
in another core's scratchpad, while that news is on its way (R237). -/
structure Slice where
  pc       : DWord
  lm       : BitVec 4
  ex       : BitVec 4
  rs       : List StackEntry
  rsd      : Nat
  rjc      : BitVec 48
  rjt      : SliceMask
  park     : Park
  rgm      : SliceMask
  age      : Nat
  quiet    : Nat
  stalled  : Option Nat
  stood    : Nat
  redirect : Bool
  word     : Nat
  cl       : List Word
  held     : Bool
  heldPark : Park
  times    : Times
  woken    : Option Nat := none
  deriving DecidableEq, Repr

/-- A counted special function in flight (R148, R31): the destination writes and FX bits that take
effect at completion; `at_` is the tick of its issue. -/
structure SpecialOp where
  id     : Nat
  at_    : Nat
  flag   : Option Nat
  writes : List (Nat × Word)
  fx     : BitVec 7
  gang   : SliceMask
  deriving DecidableEq, Repr

/-- Where the bytes of one access stand after the window decode of R218 and, for the global window,
translation (R229). Global locations are named physical addresses (R226). -/
inductive Loc where
  | untranslated
  | global (pa : Nat) (uncached : Bool)
  | scratch (block half off : Nat)
  | region (id off : Nat)
  | dieStore (id off : Nat)
  | priv (addr : Nat)
  deriving DecidableEq, Repr

/-- How far one unit of an access has come. -/
inductive UnitPhase where
  | issued | arrived | done | failed
  deriving DecidableEq, Repr

/-- One single-copy atomic unit of one lane's access (R246): its lane, byte offset within the lane's
data, length, address, place, phase, data (store data, or the value obtained), the compare value of
a compare-and-swap, the destination register, the tick it reached the home or bank (R243, R285; 0 before),
its GWCT (R243) and the lowest easement entry it met while its translation was still to come (R304). `sent`
is the tick at which it left the core (R237, R250), `rank` its place in the home order; `noL2` and `noL1` tell
that an acknowledgement or INVL1 has passed those caches since it was requested, so that its fill is not
installed there (R245, R275). -/
structure MemUnit where
  lane  : Nat
  off   : Nat
  len   : Nat
  va    : DWord
  loc   : Loc
  phase : UnitPhase
  data  : DWord
  cmp   : DWord
  reg   : Nat
  since : Nat
  gwct  : Nat
  ease  : Option Nat
  sent  : Option Nat
  rank  : Nat
  noL2  : Bool
  noL1  : Bool
  deriving DecidableEq, Repr

/-- The atomic operations of R269 to R271. -/
inductive AtomicOp where
  | add | min | max | and | or | xor | xchg | cas | inc | dec | fadd | addn
  deriving DecidableEq, Repr

/-- What a memory operation does at its home or bank (R246, R269, R280, R282). -/
inductive MemKind where
  | load (strong acquire : Bool)
  | store (strong release : Bool)
  | atomic (op : AtomicOp)
  | barInit
  | barExp
  | barArr
  | fe (full : Bool)
  | token (plat : DWord) (node count gen : Nat)
  | task (entry : Word)
  | prefetch (l1 : Bool)
  | probe (fe : Bool)
  deriving DecidableEq, Repr

/-- One memory operation of a wave, in program order (R240). `md` and `lease` are read at issue, at tick
`at_`. -/
structure MemOp where
  id      : Nat
  at_     : Nat
  kind    : MemKind
  md      : Word
  size    : Nat
  sx      : Bool
  returns : Bool
  flag    : Option Nat
  atEnd   : Bool
  counted : Bool
  gang    : SliceMask
  src     : WordRef
  lease   : Nat
  units   : List MemUnit
  deriving DecidableEq, Repr

/-- The wave's monitor (R286, R287): none armed; a registration under way since a tick, or in its table; fired at its
home at a tick, with the news on its way (R237); or fired. -/
inductive Monitor where
  | off
  | sent (loc : Loc) (at_ : Nat)
  | armed (loc : Loc)
  | firing (loc : Loc) (at_ : Nat)
  | fired
  deriving DecidableEq, Repr

/-- A word that is issued again before any other word of its wave: a deferred trap's after TRET or a retried
fault (R353, R359), or a withdrawn load or tile instruction after a resume (R208, R285, R373). `flag` is the
flag that stayed counted for a withdrawn word; it falls when the word issues. `exits` marks an EXIT that waits
for the trap of an earlier word of its clause (R347; assumption 31); it stands behind the handler. -/
structure Replay where
  slices : SliceMask
  src    : WordRef
  lanes  : LaneMask
  flag   : Option Nat
  exits  : Bool
  deriving DecidableEq, Repr

/-- One buffered effect of a deterministic wave (R385): an access, or an operation of R390. -/
inductive Buffered where
  | mem (op : MemOp)
  | transfer (id : Nat)
  | cancel (ch : Nat)
  | stat (dst ch : Nat)
  | digest (mask : LaneMask) (words : List Word)
  deriving DecidableEq, Repr

/-- The quantum state of a deterministic wave (R383 to R388); `skips` holds the slices of gangs that the canonical
order passes over in this quantum, since they wait at an empty line (R388). -/
structure DetWave where
  dwid    : Nat
  blk     : Nat
  count   : Nat
  ended   : Bool
  turn    : Nat
  past    : Option SliceMask
  skips   : SliceMask
  buffer  : List Buffered
  deriving DecidableEq, Repr

/-- The reuse latch of MMAR (R203): field a and the format words it was filled with. -/
structure Latch where
  field : Nat
  fb0   : Word
  deriving DecidableEq, Repr

/-- One wave: its identity and shape (R38, R54, R86), its registers (R92, R111, R135, R163, R164),
and its operations in flight. `begins` is, for each flag, the first tick at which a clause that waits for it
may begin (R31), `exitScope` the largest scope that an EXIT of the wave has named (R120), `heldMonitor` the
monitor that stood when the wave entered its handler (R464), `invals` the TLBINVs that wait, each by its gang's first
slice, with the identity below which walks began before it (R235), `ownFreeze` that the wave itself was frozen, beside
its core and its function (R429), `frameAt` the tick by which the stores of its trap frame have performed (R348). -/
structure Wave where
  block     : Nat
  index     : Nat
  half      : Nat
  func      : Nat
  part      : Nat
  core      : Nat
  quad      : Nat
  slot      : Nat
  waveid    : DWord
  slices    : List Slice
  present   : LaneMask
  vgran     : Nat
  v         : ZMap 32
  vpoison   : List Nat
  s         : ZMap 32
  spoison   : List Nat
  p         : ZMap 64
  md        : Word
  fx        : BitVec 7
  flags     : List Nat
  begins    : List Nat
  ot0       : BitVec 18
  ot1       : BitVec 18
  mp        : LaneMask
  mr        : Bool
  mrs       : SliceMask
  ab        : Word
  al        : Word
  lease     : Nat
  monitor   : Monitor
  heldMonitor : Option Monitor
  exitScope : Nat
  times     : Times
  idem      : Bool
  side      : Bool
  priv      : Bool
  inHandler : Bool
  hintValid : Bool
  hint      : BitVec 192
  trapped   : Bool
  frameAt   : Nat := 0
  saveSlot  : Nat
  due       : List TrapDue
  causes    : List LaneCause
  handling  : Option TrapDue
  replay    : List Replay
  specials  : List SpecialOp
  memOps    : List MemOp
  seq       : Nat
  fencing   : Option SliceMask
  invals    : Table Nat
  latch     : Option Latch
  frozen    : Bool
  ownFreeze : Bool
  stopped   : Bool
  ended     : Bool
  det       : Option DetWave
  deriving DecidableEq, Repr

/-! ## Blocks, grids and the stores they own -/

/-- A benchmark record (R206). -/
structure Bench where
  run   : Bool
  val   : Bool
  done  : Nat
  sat   : Bool
  sgnb  : Bool
  sgna  : Bool
  nkm   : Nat
  widx  : Nat
  rows  : SliceMask
  anext : DWord
  bnext : DWord
  fb0   : Word
  fb1   : Word
  deriving DecidableEq, Repr

/-- What a tile operation does (R202 to R215). `a` holds the A values of an MMA, MMAR or MMAS read at
issue: for each row, the pairs of element index and element code. -/
inductive TileKind where
  | mma (a : List (Nat × List (Nat × Nat)))
  | mmas (a : List (Nat × List (Nat × Nat)))
  | mmak
  | acld (dst : Nat)
  | acst (vals : List (Nat × Word))
  | acz
  | acsp (addr : DWord)
  | acadd (src : Nat)
  | acscl (x : Word)
  deriving DecidableEq, Repr

/-- A tile operation, in acceptance order (R194). `lanes` are the lanes that record a cause found later
(R200), `nk` and `done` its k-steps, `accepted` that the engine has taken it, `since` the tick at which a
read began to wait at an empty line (R197), `at_` the tick of issue (R194). -/
structure TileOp where
  id       : Nat
  kind     : TileKind
  tile     : Nat
  wave     : Nat
  md       : Word
  rows     : SliceMask
  lanes    : LaneMask
  act      : LaneMask
  baddr    : DWord
  aaddr    : DWord
  fb0      : Word
  fb1      : Word
  nk       : Nat
  done     : Nat
  accepted : Bool
  flag     : Option Nat
  atEnd    : Bool
  gang     : SliceMask
  src      : WordRef
  since    : Option Nat
  at_      : Nat
  deriving DecidableEq, Repr

/-- A channel's status (R310): CHSTAT, the records finished and the current record. -/
structure Channel where
  run   : Bool
  can   : Bool
  err   : Bool
  cause : Nat
  dones : Nat
  recs  : Nat
  cur   : DWord
  frozen : Bool
  deriving DecidableEq, Repr

/-- One core's share of a block (a paired block has two, R96): tiles (R190, R191), tokens (a listed
tile is owned by the wave index it maps to, an unlisted one by the engine, R192), benchmark records
(R206), scratchpad lines with their full/empty and touched bits (R222, R281), and the tile
operations in acceptance order (R194). -/
structure Half where
  core    : Nat
  acct    : Nat
  scrl    : Nat
  tiles   : ZMap 32
  tpoison : List Nat
  tokens  : Table Nat
  bench   : Table Bench
  scratch : Memory
  spoison : List Nat
  empty   : List Nat
  touched : List Nat
  tops    : List TileOp
  lost    : Bool := false
  deriving DecidableEq, Repr

/-- The arrival mask and phase of one barrier (R123, R125, R372), and the tick of its last arrival. -/
structure Barrier where
  arrived : LaneMask
  phase   : Bool
  last    : Nat
  deriving DecidableEq, Repr

/-- Where a block stands (R95, R356, R364): resident, ended, ended by a fatal fault, or flushed, after
which it is placed again (`again`) or, in a cancelled grid, counts as ended. -/
inductive BlockStatus where
  | resident | ended | faulted (cause : Cause) | flushed (again : Bool)
  deriving DecidableEq, Repr

/-- One placed block (R86, R95, R361, R372). Progress counters are R361's; `charge` counts R330's
charge in 1/384 cycle; `far` is the latency class of its set (R98). -/
structure Block where
  grid     : Nat
  index    : Nat
  setPos   : Nat
  nw       : Nat
  waves    : List Nat
  halves   : List Half
  barb     : List Barrier
  barc     : List Barrier
  chans    : List Channel
  runt     : Nat
  reti     : Nat
  kstep    : Nat
  xbytes   : Nat
  charge   : Nat
  endCount : Nat
  status   : BlockStatus
  placedAt : Nat
  task     : Bool
  far      : Bool
  parkedInPlace : Option Nat
  deriving DecidableEq, Repr

/-- What started a grid, a chain or a plat instance, and is told when it ends. -/
inductive Origin where
  | record (f q n : Nat)
  | bundleEntry (f q n entry : Nat)
  | node (inst node : Nat)
  | nodeEntry (inst node entry : Nat)
  | device
  deriving DecidableEq, Repr

/-- The launch fields of R100, R219, R321. -/
structure Launch where
  arg    : DWord
  modh   : Nat
  kidx   : Nat
  gx     : Nat
  gy     : Nat
  gz     : Nat
  waves  : Nat
  pair   : Bool
  setsz  : Nat
  setcls : Bool
  prog   : Nat
  det    : Bool
  prio   : Nat
  qnt    : Nat
  bound  : Nat
  privsz : Nat
  clsz   : Nat
  dssz   : Nat
  ctok   : DWord
  deriving DecidableEq, Repr

/-- The SHAKE256 state of a deterministic launch (R394): the absorbed message. -/
abbrev DigestState := List Byte

/-- The round state of a deterministic launch (R384, R385, R389). -/
structure DetGrid where
  round   : Nat
  nres    : Nat
  started : Bool
  notBefore : Nat
  digest  : DigestState
  tags    : Table Nat
  joinAt  : Table Nat
  taskCount : Nat
  deriving DecidableEq, Repr

/-- One kernel entry (R54). -/
structure Kernel where
  entry : Nat
  width : Nat
  vgran : Nat
  acct  : Nat
  scrl  : Nat
  lfirst : Nat
  lcount : Nat
  deriving DecidableEq, Repr

/-- What a task wave's grid adds (R105, R106, R383): its gatherer's die, the argument addresses of its
lanes, the block index of the wave that spawned its first task, and its number in its launch. -/
structure TaskWave where
  die  : Nat
  args : List DWord
  blk  : Nat
  k    : Nat
  deriving DecidableEq, Repr

/-- One grid that has not completed (R86, R100, R101, R323). `next` is the next linear index to place,
`returned` the flushed blocks that go back to the front (R364), `fault` the cause of its first fatal fault,
`parent` the grid that a task wave belongs to, `releaseAt` the latest system completion time of its ended waves
(R256). -/
structure Grid where
  func     : Nat
  part     : Nat
  launch   : Launch
  kernel   : Kernel
  wgt      : Nat
  origin   : Origin
  seqno    : Nat
  arrived  : Nat
  next     : Nat
  returned : List Nat
  endedBlocks : Nat
  placed   : Bool
  fault    : Option Nat
  cutting  : Bool
  parent   : Option Nat
  task     : Option TaskWave
  det      : Option DetGrid
  releaseAt : Nat
  deriving DecidableEq, Repr

/-- A cluster region (R223) or a die-scratchpad region (R225): its owner, its core, slot and bytes,
with the full/empty and touched bits of its lines. -/
structure Region where
  grid    : Nat
  setId   : Nat
  die     : Nat
  cluster : Nat
  slot    : Nat
  core    : Nat
  size    : Nat
  bytes   : Memory
  empty   : List Nat
  touched : List Nat
  spoison : List Nat
  lost    : Bool
  deriving DecidableEq, Repr

/-- A grid's region of a die scratchpad (R225). -/
structure DieRegion where
  grid  : Nat
  die   : Nat
  size  : Nat
  bytes : Memory
  spoison : List Nat
  deriving DecidableEq, Repr

/-! ## Caches, translation and engines -/

/-- A cached copy of one 128-byte line with its expiry tick E and its home's reading G at the grant (R241,
R242), and whether it is poisoned (R438). -/
structure Copy where
  line   : Nat
  expiry : Nat
  granted : Nat
  bytes  : List Byte
  poison : Bool
  deriving DecidableEq, Repr

/-- A fill on its way, with the marks of R245: overtaken at the L2, overtaken at the L1. -/
structure Fill where
  id     : Nat
  core   : Nat
  line   : Nat
  granted : Nat
  expiry : Nat
  bytes  : List Byte
  poison : Bool
  intoL1 : Bool
  overL2 : Bool
  overL1 : Bool
  deriving DecidableEq, Repr

/-- One TLB entry (R233): address space, page base, page size (log2), leaf PTE. -/
structure TlbEntry where
  func : Nat
  base : Nat
  bits : Nat
  pte  : DWord
  deriving DecidableEq, Repr

/-- How a walk ends (R231): a leaf with its entry, the named place of that entry, its page and its size, or a
fault. -/
inductive Walk where
  | leaf (pte : Nat) (place base bits : Nat)
  | notPresent (malformed : Bool)
  | outside (pa : Nat)
  deriving DecidableEq, Repr

/-- A walk that one of the 1,024 walkers makes (R233, R235): the function and 64 KiB page it serves, the level
it reads next and that level's table, the tick of its last read, its outcome once it has one, and whether a
TLBINV has made its result void. -/
structure PageWalk where
  id    : Nat
  func  : Nat
  page  : Nat
  level : Nat
  table : Nat
  at_   : Nat
  found : Option Walk
  void  : Bool
  deriving DecidableEq, Repr

/-- Who asks for a translation (R233): the fetches of a wave, its lanes' accesses and MON (waves by WAVEID), or an event of
an engine or the control die, by its kind and its operands. -/
inductive Asker where
  | fetch (wave : Nat)
  | lanes (wave : Nat)
  | event (kind a b c : Nat)
  deriving DecidableEq, Repr

/-- An asker with the core whose TLBs serve it, if any (R233). -/
structure Client where
  who  : Asker
  core : Option Nat
  deriving DecidableEq, Repr

/-- A miss that waits for a walk (R233): who asks, its function, its 64 KiB page, what it needs of the page (R232), and
the tick at which it was sent. -/
structure Miss where
  client : Client
  func   : Nat
  page   : Nat
  write  : Bool
  fetch  : Bool
  priv   : Bool
  at_    : Nat
  deriving DecidableEq, Repr

/-- One cached instruction line (R60): level 0 to 2, the quadrant, core or die it sits in, the
partition tag, the line address, its 64 bytes, whether IPF brought it and no clause has used it yet (R63), and the
tick of its arrival (R61). -/
structure ILine where
  level : Nat
  place : Nat
  part  : Nat
  line  : Nat
  bytes : List Byte
  ahead : Bool
  at_   : Nat
  poison : Bool := false
  deriving DecidableEq, Repr

/-- One easement (R303): its owner, whether it is a destination entry, the function whose address space
its global lines lie in, the generic address of its first line, and its lines as runs (store, first
line, last line). -/
structure Ease where
  owner : Nat
  dst   : Bool
  func  : Nat
  base  : DWord
  runs  : List (Loc × Nat × Nat)
  deriving DecidableEq, Repr

/-- One event counter (R381). -/
structure Counter where
  event : Nat
  qmask : BitVec 4
  count : Nat
  deriving DecidableEq, Repr

/-- One core's own state (R15, R90, R233, R241, R303, R381); `reads` is its cluster read buffer: a line
of another slot, the tick it was read and its bytes (R253). Per quadrant, `last` and `lastTick` are the gang of
the last pick and its tick, `extraTick` the tick of the last gang that issued in the second cycle of a two-cycle
gang (R89), and `ready` the gangs that were ready at the last pick and not picked. `accepted` is the tick in which
the matrix engine last took an instruction (R194). `frozenChans` are the physical channels that a violation of a chain
outside a block froze, with the chain's function (R325, R429). -/
structure CoreState where
  eases    : Table Ease
  counters : List Counter
  tlb      : List TlbEntry
  l1       : List Copy
  reads    : List (Loc × Nat × List Byte)
  frozen   : Bool
  frozenChans : List (Nat × Nat)
  last     : List (Option (Nat × SliceMask))
  lastTick : List Nat
  extraTick : List Nat
  ready    : List (List (Nat × SliceMask))
  accepted : Option Nat
  deriving DecidableEq, Repr

/-- What a transfer is (R296, R306). -/
inductive XOp where
  | cpy | tile | gath | scat | red
  deriving DecidableEq, Repr

/-- A direct transfer or a running channel (R296, R307, R313, R465). `row`, `off` and `ridx` say where the
next segment begins and the index read for its row (R295, R296), `perf` the GWCT of a segment that is
written and not yet counted (R255), `cancel` that XCANCEL or a cut stops it before its next segment, `want` the
tick since which its record waits for easement entries (R23, R307), `turn` the tick of its last step and `got` the bytes
of a segment that is read and not yet written (R237). -/
structure Transfer where
  id      : Nat
  block   : Option Nat
  half    : Nat
  wave    : Option Nat
  core    : Nat
  func    : Nat
  lane    : Nat
  op      : XOp
  desc    : List Word
  segs    : Nat
  row     : Nat
  off     : Nat
  ridx    : Option Nat
  perf    : Option Nat
  priv    : Bool
  cancel  : Bool
  flag    : Option Nat
  atEnd   : Bool
  gang    : SliceMask
  chain   : Bool
  ch      : Nat
  cur     : DWord
  loaded  : Bool
  recs    : Nat
  anyErr  : Bool
  scope   : Nat
  after   : Nat
  since   : Option Nat
  paid    : Bool
  buffered : Bool
  eased   : Bool
  want    : Option Nat
  origin  : Origin
  src     : WordRef
  turn    : Nat := 0
  got     : Option (List Byte) := none
  deriving DecidableEq, Repr

/-- An ESND or ERCV in flight (R412, R413), issued at tick `at_`. -/
structure FabricOp where
  id      : Nat
  at_     : Nat
  send    : Bool
  wave    : Nat
  lane    : Nat
  desc    : List Word
  scope   : Nat
  after   : Nat
  flag    : Option Nat
  atEnd   : Bool
  gang    : SliceMask
  taken   : Option Packet
  took    : Bool
  drops   : Nat
  dwv     : Nat
  since   : Option Nat
  buffered : Bool
  injected : Bool
  src     : WordRef
  deriving DecidableEq, Repr

/-- The loan states of a bucket (R311). -/
inductive Loan where
  | none | opened | repay
  deriving DecidableEq, Repr

/-- A function's bucket at one engine, in 1/256 byte (R311, R312), with the ticks of its last refill and of its last
payment. -/
structure Bucket where
  tokens : Nat
  debt   : Nat
  loan   : Loan
  last   : Nat
  paidAt : Option Nat
  deriving DecidableEq, Repr

/-- A pending task of the gatherer (R105, R345); `seq` is its place in the order of commits (R383). -/
structure Task where
  grid  : Nat
  entry : Word
  arg   : DWord
  at_   : Nat
  blk   : Nat
  seq   : Nat := 0
  deriving DecidableEq, Repr

/-- One kernel-history entry (R361). -/
structure History where
  part : Nat
  modh : Nat
  kidx : Nat
  h    : Nat
  deriving DecidableEq, Repr

/-- One compute die (R9, R107, R105, R233, R241, R361, R401). -/
structure Die where
  ok      : Bool
  map     : BitVec 36
  l2      : List Copy
  l2tlb   : List TlbEntry
  tasks   : List Task
  history : List History
  resetting : Bool
  deriving DecidableEq, Repr

/-- What one core has free: for each quadrant its free wave slots and lane-registers; accumulator tiles,
scratchpad lines, lines that cluster regions may take (R23), easement entries (R313) and physical channels (R293). -/
structure Room where
  quads   : List (List Nat × Nat)
  tiles   : Nat
  lines   : Nat
  cluster : Nat
  eases   : Nat
  chans   : Nat
  deriving DecidableEq, Repr

/-! ## Cuts and cairns -/

/-- The methods of R364. -/
inductive Method where
  | drain | flush | save
  deriving DecidableEq, Repr

/-- The states of a cairn (R370). -/
inductive CairnState where
  | free | writing | published | held | resuming
  deriving DecidableEq, Repr

/-- A cut unit under way or saved (R360, R364, R369, R370): its blocks, its method, its descriptor
numbers, REASON, and the waves, blocks, regions, transfers and trap frames that its image holds; `loose` are
the descriptors that a CTX_RESTORE has made PUBLISHED while the unit's others are still HELD (R423). -/
structure CutUnit where
  id      : Nat
  part    : Nat
  func    : Nat
  grid    : Nat
  blocks  : List Nat
  method  : Method
  reason  : Nat
  hold    : Bool
  state   : CairnState
  descs   : List Nat
  bodies  : List (Nat × Nat)
  bound   : Nat
  prio    : Nat
  fltseq  : Nat
  listOf  : Option (Nat × Nat × Nat)
  waves   : Table Wave
  saved   : Table Block
  regions : Table Region
  xfers   : List Transfer
  frames  : Table (List Byte)
  loose   : List Nat
  deriving DecidableEq, Repr

/-! ## Functions, queues and partitions -/

/-- The stage of a started command record (R319, R320, R327, R423). -/
inductive RecStage where
  | started | running | waiting (deadline : Option Nat) | retired
  deriving DecidableEq, Repr

/-- A started command record (R318, R319) with its body words and what it waits for. -/
structure Rec where
  seq    : Nat
  hdr    : Word
  tag    : Word
  caddr  : DWord
  body   : List Word
  stage  : RecStage
  poke   : Bool
  since  : Nat
  parts  : List (Nat × Option (Nat × Nat))
  units  : List Nat
  abortAt : Option Nat
  deriving DecidableEq, Repr

/-- One host queue's registers (R315, R316) and its started records. -/
structure Queue where
  base   : DWord
  size   : Nat
  loc    : Bool
  en     : Bool
  nerr   : Bool
  wgt    : Nat
  notify : Nat
  start  : Nat
  done   : Nat
  recs   : List Rec
  deriving DecidableEq, Repr

/-- An event record waiting to be written (R419): TYPE and the bytes that follow the shared part. -/
structure EventRec where
  type : Nat
  at_  : Nat
  body : List (Nat × Byte)
  deriving DecidableEq, Repr

/-- A fault record that the host has not acknowledged (R359, R420): its SEQ, the cut unit it holds or
the block held in place. -/
structure FaultRec where
  seq   : Nat
  unit  : Option Nat
  block : Option Nat
  deriving DecidableEq, Repr

/-- The TDISP states (R427). -/
inductive Tdisp where
  | configUnlocked | configLocked | run | error
  deriving DecidableEq, Repr

/-- One virtual function (R315, R417, R418, R419, R421, R422, R427). -/
structure Func where
  part     : Option Nat
  root     : DWord
  qspace   : Nat
  prioceil : Nat
  retry    : Bool
  frozen   : Bool
  tdst     : Tdisp
  stream   : Nat
  key      : BitVec 16
  bktcfg   : DWord
  replica  : List (BitVec 16)
  rlimit   : Nat
  evbase   : DWord
  evsz     : Nat
  even     : Bool
  evprod   : Nat
  evcons   : Nat
  evvec    : Nat
  evirq    : Bool
  evwait   : List EventRec
  evseq    : Nat
  faults   : List FaultRec
  queues   : Table Queue
  msix     : ZMap 64
  msixPend : List Nat
  active   : Bool
  saving   : Bool
  switching : Option Nat
  retire   : Option Nat
  activeAt : Nat := 0
  deriving DecidableEq, Repr

/-- One loaded module (R56, R58). -/
structure Module where
  base    : Nat
  size    : Nat
  code    : Nat
  codesz  : Nat
  ltab    : Nat
  kernels : List Kernel
  func    : Nat
  unloading : Option (List (Nat × Nat × Nat))
  deriving DecidableEq, Repr

/-- One partition (R108, R110, R225, R227, R329, R348, R369, R421). -/
structure Partition where
  cores    : List Nat
  grants   : List (Nat × Nat)
  dieScratch : List Nat
  cairnBase : Nat
  cairnSize : Nat
  heap     : List (Nat × Nat)
  descs    : List Nat
  slotBase : Nat
  slots    : List Nat
  privBase : Nat
  aliasBase : Nat
  tvec     : DWord
  pointer  : Nat
  deficit  : List (Nat × Int)
  ring     : List (Nat × Nat)
  modules  : Table Module
  nextWave : Nat
  plugin   : Bool
  pools    : Table Nat
  lastFunc : Nat := 0
  deriving DecidableEq, Repr

/-! ## Plats -/

/-- A running payload of a node (R333, R336): its node, what it runs, the launch digest of a grid that has
completed (R394), and whether it is being cut. -/
structure Payload where
  node    : Nat
  kind    : Nat
  digest  : Option (List Byte)
  parts   : List (Nat × Option (Nat × Nat))
  cut     : Bool
  ended   : Option (Nat × Nat)
  outcome : Bool
  endedAt : Nat := 0
  deriving DecidableEq, Repr

/-- A replica comparison under way for a node (R395, R396). -/
structure ReplicaWait where
  node    : Nat
  digest  : List Byte
  since   : Nat
  got     : List (BitVec 16 × List Byte)
  deriving DecidableEq, Repr

/-- A running plat instance (R331, R335, R339, R340). Node states and counts stand in the plat's
table in memory (R332). `ready` are the READY nodes in the order of R335, `cones` the cone recorded with each
RETRY node (R337), `outcomes` the condition nodes whose outcome was 1, `halted` the node whose digests
differed (R396), `dead` the cause and the node of an access to the table that faulted (R463), `waitFrom` the tick since
which the first READY node waits for a resource (R23). -/
structure PlatInst where
  func    : Nat
  plat    : DWord
  gen     : Word
  nnode   : Nat
  wgt     : Nat
  origin  : Origin
  depth   : Nat
  ready   : List Nat
  payloads : List Payload
  cones   : Table (List Nat)
  waits   : List ReplicaWait
  outcomes : List Nat
  halted   : Option Nat
  dead     : Option (Nat × Nat)
  waitFrom : Option Nat := none
  deriving DecidableEq, Repr

/-- What waits for a place among the 512 running plats (R23, R340): the RUN_PLAT at a queue's head, or the sub-plat node
that an instance would issue next. -/
inductive PlatAsker where
  | record (f q : Nat)
  | node (inst : Nat)
  deriving DecidableEq, Repr

/-- A GFIRE token on its way to the plat engine (R343): the tick of its arrival there and its place in the order
of ties (R249, R335). -/
structure Token where
  func : Nat
  plat : DWord
  node : Nat
  gen  : Nat
  at_  : Nat
  key  : Nat
  deriving DecidableEq, Repr

/-! ## Fabric and the control die -/

/-- One input of the package switch (R400, R402, R406 to R409): 0 to 15 Traverse ports, 16 to 19
compute-die ports, 20 the control-die port. `sentMark` is the last W that the switch has sent out of the port, which never
decreases; `lastTime` the reading at the departure of its last timing beacon, `heard` that at the arrival of the peer's
last one, `delay` the path delay of the last round trip. -/
structure SwitchInput where
  wmark   : Nat
  fenced  : Bool
  rejoin  : Bool
  stall   : Bool
  linkup  : Bool
  tsrc    : Bool
  tsync   : Bool
  lastOff : Option Nat
  odrop   : Nat
  lastSent : Nat
  lastTime : Nat
  sentMark : Nat := 0
  delay  : Option Int := none
  heard  : Option Nat := none
  deriving DecidableEq, Repr

/-- One endpoint (R398, R399, R404, R405). -/
structure Endpoint where
  cfg    : DWord
  oq     : List Packet
  uq     : List Packet
  odrops : Nat
  udrops : Nat
  deriving DecidableEq, Repr

/-- A packet, a beacon or a retire beacon on a link toward the switch; `wmark` is the tick at which it left, which is
the W that it carries (R402). -/
structure LinkItem where
  input : Nat
  pkt   : Option Packet
  wmark : Nat
  retire : Option Retire := none
  deriving DecidableEq, Repr

/-- The fabric (R398 to R410); `toDie` holds, for each compute die, the tick and the W of the switch's last beacon toward
it, `retires` what the retire beacons that have come in name. -/
structure Fabric where
  inputs   : List SwitchInput
  links    : List LinkItem
  eps      : Table Endpoint
  seqs     : Table Nat
  stallLim : Nat
  devid    : BitVec 16
  devidSet : Bool
  lastStamp : List Nat
  ppsOn    : Bool
  toDie    : List (Nat × Nat) := [(0, 0), (0, 0), (0, 0), (0, 0)]
  retires  : List Retire := []
  deriving DecidableEq, Repr

/-- An entry of the firmware event log (R432). -/
inductive LogKind where
  | boundMissed (grid : Nat)
  | watermarkStall (input : Nat)
  | fence (input : Nat)
  | unfence (input : Nat)
  | dieReset (die : Nat)
  | dieAdmit (die : Nat)
  | dieOut (die : Nat)
  | pluginUnload (part : Nat)
  | thermal (die : DieKind)
  | power (steps : Nat)
  | correctedErrors (die count : Nat)
  deriving DecidableEq, Repr

/-- What the package shows the outside besides memory: interrupts, egress packets, configuration
replies, the THERMTRIP output and mailbox pages. -/
inductive Signal where
  | msi (f vec : Nat)
  | egress (port : Nat) (pkt : Packet)
  | beacon (output : Nat) (w : Nat)
  | retire (output : Nat) (r : Retire) (w : Nat)
  | timeBeacon (port : Nat) (t : Nat) (heard : Option Nat)
  | configReply (func : Nat) (retryStatus : Bool) (totalVFs : Nat)
  | thermtrip
  | logPage (entries : List (Nat × LogKind))
  deriving DecidableEq, Repr

/-- The states of a start (R433 to R435). -/
inductive BootPhase where
  | off | authenticating (slot : Bool) | training (slot : Bool) | ready (slot : Bool) | minimal
  deriving DecidableEq, Repr

/-- The privilege modes of a management hart (R430). -/
inductive HartMode where
  | machine | supervisor | user
  deriving DecidableEq, Repr

/-- One RV64IMAC management hart (R430): its pc, its registers x0 to x31, its mode, and its 16 PMP entries, each a
configuration and an address. The spec gives no program of theirs: what they do is the events of R430 to R441. -/
structure Hart where
  pc   : DWord
  x    : List DWord
  mode : HartMode
  pmp  : List (BitVec 8 × DWord)
  deriving DecidableEq, Repr

/-- A hart at reset: M mode, and no PMP entry set, as the RISC-V privileged specification has it (assumption 151). -/
def Hart.reset : Hart := { pc := 0, x := List.replicate 32 0, mode := .machine, pmp := List.replicate 16 (0, 0) }

/-- One firmware slot's verdict (R434 SLOTA, SLOTB). -/
inductive SlotState where
  | unchecked | authentic | badSignature | belowVersion
  deriving DecidableEq, Repr

/-- Boot, recovery window, mailbox and power state (R431, R433, R434, R440, R441); `began` is the tick at which the
start under way began, `sampledAt` that of the last power sample, `corrected` the corrected errors of each die: compute
dies 0 to 3, memory dies 4 to 11, the control die 12 (R438). -/
structure Control where
  phase    : BootPhase
  slotA    : List Byte
  slotB    : List Byte
  stA      : SlotState
  stB      : SlotState
  tryFirst : Bool
  failcnt  : Nat
  rsn      : Nat
  upstat   : Nat
  upslot   : Bool
  uplen    : Nat
  upbuf    : Memory
  mbarg    : DWord
  result   : Nat
  busy     : Bool
  pwrcfg   : DWord
  steps    : Nat
  overSince : Option Nat
  maxed    : Bool
  sampledAt : Option Nat
  corrected : List Nat
  scrubs   : List Nat
  log      : List (Nat × LogKind)
  tripped  : Bool
  began    : Nat
  trips    : List (Nat × DieKind)
  temps    : List Nat
  recent   : List Nat
  dieErrors : List Nat
  harts    : List Hart
  deriving DecidableEq, Repr

/-! ## The state -/

/-- The gang that issues next (R90): its wave and its slices, inside a begun clause. -/
structure Issue where
  wave : Nat
  gang : SliceMask
  deriving DecidableEq, Repr

/-- The whole package. `time` is Datum time (R236); `free` counts the free values drawn (the model's
own field). `inputs` holds what the outside world does next, oldest first, and `outbox` what the
package has shown it. `landed` holds, for each home, bank or endpoint that an access or an ERCV has reached in this
tick, the place of the last one in the order of ties (R249, R413). `misses` are the misses of fetches, engines and the
control die that wait for a walk, `answers` the outcomes that have come back for them and are still to be used, `asker`
the one whose accesses are being made (R233). `mail` holds the replica messages that have arrived before
their node's own digest (R395), `platWait` what waits for a place among the running plats (R340), `rooms` what the cores
in use had free when this tick began, less what it has placed (R94). -/
structure State where
  time    : Nat
  free    : Nat
  cur     : Option Issue
  inputs  : List Instr
  outbox  : List Signal
  hbm     : Memory
  hpoison : List Nat
  host    : Memory
  privMem : Memory
  leases  : Table Nat
  landed  : Table Nat
  walks   : List PageWalk
  misses  : List Miss
  answers : List (Miss × Walk)
  asker   : Option Client
  fills   : List Fill
  icache  : List ILine
  waves   : Table Wave
  blocks  : Table Block
  grids   : Table Grid
  regions : Table Region
  dregions : Table DieRegion
  cores   : Table CoreState
  dies    : List Die
  xfers   : List Transfer
  fabops  : List FabricOp
  buckets : Table Bucket
  cuts    : List CutUnit
  parts   : Table Partition
  funcs   : Table Func
  plats   : Table PlatInst
  tokens  : List Token
  mail    : List ReplicaMsg
  platWait : List PlatAsker
  rooms   : Table Room
  fabric  : Fabric
  control : Control
  nextId  : Nat
  deriving DecidableEq, Repr

/-! ## Why a step can stop -/

/-- The faults of the machine. -/
inductive Fault where
  /-- An instruction is executed while no gang has been picked (`State.cur` is none) or the wave or
  block it names is gone; raised by the shared issue operations. Safe: no step of the machine asks
  for it, since a step executes an instruction only for a picked gang. -/
  | noGang
  deriving DecidableEq, Repr

/-- The refusals of the machine. -/
inductive Refusal where
  /-- An instruction that has no meaning yet. Safe. -/
  | notModelled (mnemonic : String)
  deriving DecidableEq, Repr

/-! ## Reset -/

/-- All completion times zero (R236, R244). -/
def Times.zero : Times := ⟨0, 0, 0, 0, 0⟩

/-- A switch input after reset: watermark 0 (R408), not fenced, not trained. -/
def SwitchInput.reset : SwitchInput :=
  { wmark := 0, fenced := false, rejoin := false, stall := false, linkup := false, tsrc := false,
    tsync := false, lastOff := none, odrop := 0, lastSent := 0, lastTime := 0 }

/-- A compute die after reset: not admitted (R107 DIEOK 0), every core's fuse taken as enabled
(DESIGN CHOICE, assumption 2: the fuses are not stated). -/
def Die.reset : Die :=
  { ok := false, map := BitVec.allOnes 36, l2 := [], l2tlb := [], tasks := [], history := [],
    resetting := false }

/-- The fabric after reset (R398, R406, R408). -/
def Fabric.reset : Fabric :=
  { inputs := List.replicate 21 SwitchInput.reset, links := [], eps := [], seqs := [],
    stallLim := 65536, devid := 0, devidSet := false, lastStamp := [0, 0, 0, 0], ppsOn := false }

/-- The control die after power-on reset (R431, R433, R434, R440): nothing started, slots unchecked. -/
def Control.reset : Control :=
  { phase := .off, slotA := [], slotB := [], stA := .unchecked, stB := .unchecked,
    tryFirst := false, failcnt := 0, rsn := 0, upstat := 0, upslot := false, uplen := 0,
    upbuf := [], mbarg := 0, result := 0, busy := false, pwrcfg := 0x09600A000898#64, steps := 0,
    overSince := none, maxed := false, sampledAt := none, corrected := List.replicate 13 0, scrubs := [], log := [], tripped := false, began := 0,
    trips := [], temps := [0, 0, 0], recent := [], dieErrors := [], harts := List.replicate 8 Hart.reset }

/-- The package right after power-on reset (R236: Datum time 0; R435: nothing is admitted and no
byte of memory has been written; R315, R418: every register block at its reset value). -/
def State.reset : State :=
  { time := 0, free := 0, cur := none, inputs := [], outbox := [], hbm := [], hpoison := [],
    host := [], privMem := [], leases := [], landed := [], walks := [], misses := [], answers := [], asker := none, fills := [], icache := [], waves := [], blocks := [],
    grids := [], regions := [], dregions := [], cores := [],
    dies := List.replicate 4 Die.reset, xfers := [], fabops := [], buckets := [], cuts := [],
    parts := [], funcs := [], plats := [], tokens := [], mail := [], platWait := [], rooms := [], fabric := Fabric.reset,
    control := Control.reset, nextId := 1 }

end Sys2Proof.Machine
end

