-- ==== Sys2Proof/Machine/Store.lean ====
section
/-! DEFINITION. Reading and writing of the sparse stores, tables and lists that State is made of, and
the little-endian byte accesses of memory (R2). -/

namespace Sys2Proof.Machine

/-! ## Sparse stores -/

/-- The value at a key; an unlisted key reads zero. -/
def ZMap.get {n : Nat} : ZMap n → Nat → BitVec n
  | [], _ => 0
  | (k, v) :: rest, a => if k = a then v else ZMap.get rest a

/-- The store with an entry put in its place, keys rising. -/
def ZMap.put {n : Nat} : ZMap n → Nat → BitVec n → ZMap n
  | [], a, x => [(a, x)]
  | (k, v) :: rest, a, x =>
    if k = a then (k, x) :: rest
    else if a < k then (a, x) :: (k, v) :: rest
    else (k, v) :: ZMap.put rest a x

/-- The store with a key set, in canonical form: a zero leaves no entry. -/
def ZMap.set {n : Nat} (m : ZMap n) (a : Nat) (x : BitVec n) : ZMap n :=
  if x = 0 then m.filter (fun e => e.1 != a) else m.put a x

/-- Writes of several keys, the last one prevailing. -/
def ZMap.setAll {n : Nat} (m : ZMap n) : List (Nat × BitVec n) → ZMap n
  | [] => m
  | (a, x) :: rest => ZMap.setAll (m.set a x) rest

/-- The store without the keys from `a` up to but not including `a + len`. -/
def ZMap.clear {n : Nat} (m : ZMap n) (a len : Nat) : ZMap n :=
  m.filter (fun e => decide (e.1 < a) || decide (a + len ≤ e.1))

/-! ## Byte memory -/

/-- One byte of a memory. -/
def Memory.byte (m : Memory) (a : Nat) : Byte := ZMap.get (n := 8) m a

/-- One byte written. -/
def Memory.setByte (m : Memory) (a : Nat) (x : Byte) : Memory := ZMap.set (n := 8) m a x

/-- The `n` bytes from `a`, lowest address first. -/
def Memory.bytes (m : Memory) (a : Nat) : Nat → List Byte
  | 0 => []
  | n + 1 => m.byte a :: Memory.bytes m (a + 1) n

/-- Bytes stored from `a` upward. -/
def Memory.setBytes (m : Memory) (a : Nat) : List Byte → Memory
  | [] => m
  | x :: rest => Memory.setBytes (m.setByte a x) (a + 1) rest

/-- The little-endian value of bytes (R2). -/
def leNat : List Byte → Nat
  | [] => 0
  | b :: rest => b.toNat + 256 * leNat rest

/-- The `n` little-endian bytes of a value (R2). -/
def leBytes : Nat → Nat → List Byte
  | 0, _ => []
  | n + 1, x => BitVec.ofNat 8 x :: leBytes n (x / 256)

/-- The little-endian value of the `n` bytes at `a`. -/
def Memory.load (m : Memory) (a n : Nat) : Nat := leNat (m.bytes a n)

/-- A little-endian value of `n` bytes stored at `a`. -/
def Memory.store (m : Memory) (a n x : Nat) : Memory := m.setBytes a (leBytes n x)

/-! ## Tables -/

/-- The entry at a key. -/
def Table.get? {α : Type} : Table α → Nat → Option α
  | [], _ => none
  | (k, v) :: rest, a => if k = a then some v else Table.get? rest a

/-- The table with an entry set, keys strictly rising. -/
def Table.set {α : Type} : Table α → Nat → α → Table α
  | [], a, x => [(a, x)]
  | (k, v) :: rest, a, x =>
    if k = a then (k, x) :: rest
    else if a < k then (a, x) :: (k, v) :: rest
    else (k, v) :: Table.set rest a x

/-- The table without an entry. -/
def Table.erase {α : Type} (t : Table α) (a : Nat) : Table α := t.filter (fun e => e.1 != a)

/-- The entry at a key, or a default. -/
def Table.getD {α : Type} (t : Table α) (a : Nat) (d : α) : α := (t.get? a).getD d

/-- An entry changed where it stands; an absent one stays absent. -/
def Table.update {α : Type} (t : Table α) (a : Nat) (f : α → α) : Table α :=
  t.map (fun e => if e.1 = a then (e.1, f e.2) else e)

/-- Every entry changed. -/
def Table.mapVals {α : Type} (t : Table α) (f : Nat → α → α) : Table α :=
  t.map (fun e => (e.1, f e.1 e.2))

/-- The least key from 0 upward that a table does not hold, among its first `fuel` keys. -/
def firstFree (used : List Nat) : Nat → Nat → Nat
  | 0, k => k
  | fuel + 1, k => if used.contains k then firstFree used fuel (k + 1) else k

/-! ## Lists and masks -/

/-- The list with the element at `i` changed. -/
def listUpdate {α : Type} (l : List α) (i : Nat) (f : α → α) : List α :=
  l.mapIdx (fun j x => if j = i then f x else x)

/-- The numbers whose bits are set in a mask. -/
def bitsOf {n : Nat} (m : BitVec n) : List Nat := (List.range n).filter (fun i => m.getLsbD i)

/-- The mask of a list of bit numbers. -/
def maskOf (n : Nat) (l : List Nat) : BitVec n :=
  l.foldl (fun m i => m ||| (BitVec.ofNat n 1 <<< i)) 0

/-- The mask of the numbers below `n` that satisfy a test. -/
def maskWhere (n : Nat) (f : Nat → Bool) : BitVec n := BitVec.ofFnLE (fun i : Fin n => f i)

/-- One bit of a mask. -/
def bitMask (n i : Nat) : BitVec n := BitVec.ofNat n 1 <<< i

/-- Bits [hi:lo] of a natural number. -/
def natBits (x lo width : Nat) : Nat := x / 2 ^ lo % 2 ^ width

/-- The signed value of the low `w` bits of a number. -/
def signedOf (w x : Nat) : Int :=
  let y := x % 2 ^ w
  if w ≠ 0 ∧ 2 ^ (w - 1) ≤ y then (y : Int) - 2 ^ w else y

/-- The low `w` bits of an integer. -/
def intBits (w : Nat) (x : Int) : Nat := (x % (2 ^ w : Nat)).toNat

/-- The smallest element of a nonempty list of numbers, if any. -/
def listMin : List Nat → Option Nat
  | [] => none
  | a :: rest => match listMin rest with
    | none => some a
    | some b => some (Nat.min a b)

/-- An element put into a list that rises in a key, after the elements of the same key. -/
def insertOn {α : Type} (f : α → Nat) (x : α) : List α → List α
  | [] => [x]
  | y :: rest => if f x < f y then x :: y :: rest else y :: insertOn f x rest

/-- A list in rising order of a key, elements of one key in their old order. -/
def sortOn {α : Type} (f : α → Nat) (l : List α) : List α := l.foldl (fun acc x => insertOn f x acc) []

/-- The number of list elements that satisfy a test. -/
def countIf {α : Type} (f : α → Bool) (l : List α) : Nat := (l.filter f).length

end Sys2Proof.Machine
end

