-- ==== Sys2Proof/Machine/Num.lean ====
section
/-! DEFINITION. Number formats, exact values and their one rounding (R64 to R78): the element types of
MD, the binary and tapered formats, integers, and the flags of FX (R68). -/

namespace Sys2Proof.Machine

/-! ## Element types -/

/-- The element types of MD.TYPE (R44). -/
inductive Ty where
  | f32 | f16 | bf16 | t8 | t6 | s8 | n8 | s16 | n16 | s32 | n32 | s64 | n64 | f64 | s4 | n4
  deriving DecidableEq, Repr

/-- The type of a four-bit code (R44). -/
def Ty.ofCode (c : Nat) : Ty :=
  match c with
  | 0 => .f32 | 1 => .f16 | 2 => .bf16 | 3 => .t8 | 4 => .t6 | 5 => .s8 | 6 => .n8 | 7 => .s16
  | 8 => .n16 | 9 => .s32 | 10 => .n32 | 11 => .s64 | 12 => .n64 | 13 => .f64 | 14 => .s4
  | _ => .n4

/-- F64, F32, F16 and BF16 (R64). -/
def Ty.isFloat : Ty → Bool
  | .f32 | .f16 | .bf16 | .f64 => true
  | _ => false

/-- T8 and T6 (R70). -/
def Ty.isTapered : Ty → Bool
  | .t8 | .t6 => true
  | _ => false

/-- The integer types (R76). -/
def Ty.isInt (t : Ty) : Bool := !t.isFloat && !t.isTapered

/-- The signed integer types (R76). -/
def Ty.isSigned : Ty → Bool
  | .s8 | .s16 | .s32 | .s64 | .s4 => true
  | _ => false

/-- The width of an element's place in its unit (R140). -/
def Ty.slot : Ty → Nat
  | .s4 | .n4 => 4
  | .t8 | .t6 | .s8 | .n8 => 8
  | .f16 | .bf16 | .s16 | .n16 => 16
  | .f32 | .s32 | .n32 => 32
  | .s64 | .n64 | .f64 => 64

/-- A 64-bit type: its unit is an even pair (R140). -/
def Ty.is64 (t : Ty) : Bool := t.slot == 64

/-- The number of elements in a unit (R140). -/
def Ty.count (t : Ty) : Nat := if t.slot = 64 then 1 else 32 / t.slot

/-- The width of an element's code: 6 for T6, whose container is 8 (R140). -/
def Ty.bits (t : Ty) : Nat := if t = .t6 then 6 else t.slot

/-- Element `j` of a unit (R140). -/
def elemAt (t : Ty) (u : Nat) (j : Nat) : Nat := natBits u (t.slot * j) t.bits

/-- The unit that holds the elements of a list, element 0 lowest (R140). -/
def unitOf (t : Ty) : List Nat → Nat
  | [] => 0
  | x :: rest => x % 2 ^ t.bits + 2 ^ t.slot * unitOf t rest

/-- The elements of a unit (R140). -/
def elemsOf (t : Ty) (u : Nat) : List Nat := (List.range t.count).map (elemAt t u)

/-! ## Flags of FX (R68) -/

/-- Invalid operation. -/
def fxNV : BitVec 7 := 1#7
/-- Division by zero. -/
def fxDZ : BitVec 7 := 2#7
/-- Overflow. -/
def fxOF : BitVec 7 := 4#7
/-- Underflow. -/
def fxUF : BitVec 7 := 8#7
/-- Inexact. -/
def fxNX : BitVec 7 := 16#7
/-- Saturated. -/
def fxSA : BitVec 7 := 32#7
/-- Input subnormal read as zero. -/
def fxID : BitVec 7 := 64#7

/-- A flag when a condition holds. -/
def fxIf (c : Bool) (f : BitVec 7) : BitVec 7 := if c then f else 0

/-! ## Exact values -/

/-- An exact value. `fin neg m e more` is ±m × 2^e, or, when `more` is set, a value strictly between
±m × 2^e and ±(m + 1) × 2^e: enough to round once, since `m` then carries more bits than any format. -/
inductive Num where
  | nan (signalling : Bool)
  | inf (neg : Bool)
  | fin (neg : Bool) (m : Nat) (e : Int) (more : Bool)
  deriving DecidableEq, Repr

/-- How one result is delivered: rounding mode, MD.FSUB and MD.SAT (R44). -/
structure Round where
  rnd  : Nat
  fsub : Bool
  sat  : Bool
  deriving DecidableEq, Repr

/-- Exponent and fraction widths of a binary format (R64). -/
def Ty.expBits : Ty → Nat
  | .f64 => 11
  | .f16 => 5
  | _ => 8

/-- Fraction width of a binary format (R64). -/
def Ty.fracBits : Ty → Nat
  | .f64 => 52
  | .f16 => 10
  | .bf16 => 7
  | _ => 23

/-- The exponent bias (R64). -/
def Ty.bias (t : Ty) : Nat := 2 ^ (t.expBits - 1) - 1

/-- The exponent of the smallest normal (R64). -/
def Ty.eMin (t : Ty) : Int := 1 - (t.bias : Int)

/-- The code of infinity without its sign. -/
def Ty.infCode (t : Ty) : Nat := (2 ^ t.expBits - 1) * 2 ^ t.fracBits

/-- The canonical NaN (R64). -/
def Ty.nanCode (t : Ty) : Nat := t.infCode + 2 ^ (t.fracBits - 1)

/-- A sign bit of a binary format. -/
def Ty.signBit (t : Ty) (neg : Bool) : Nat := if neg then 2 ^ (t.slot - 1) else 0

/-- The exact value of a binary code, with no flush (R64). -/
def decodeFloat (t : Ty) (c : Nat) : Num :=
  let neg := natBits c (t.slot - 1) 1 == 1
  let ex := natBits c t.fracBits t.expBits
  let fr := c % 2 ^ t.fracBits
  if ex = 2 ^ t.expBits - 1 then
    (if fr = 0 then .inf neg else .nan (decide (fr < 2 ^ (t.fracBits - 1))))
  else if ex = 0 then .fin neg fr (t.eMin - t.fracBits) false
  else .fin neg (fr + 2 ^ t.fracBits) ((ex : Int) - 1 + t.eMin - t.fracBits) false

/-- A binary code is a non-zero subnormal. -/
def isSubnormal (t : Ty) (c : Nat) : Bool :=
  natBits c t.fracBits t.expBits == 0 && c % 2 ^ t.fracBits != 0

/-- A binary operand as read under MD.FSUB, with ID when a subnormal reads as zero (R67). -/
def readFloat (t : Ty) (fsub : Bool) (c : Nat) : Num × BitVec 7 :=
  if fsub && isSubnormal t c then
    (.fin (natBits c (t.slot - 1) 1 == 1) 0 0 false, fxID)
  else (decodeFloat t c, 0)

/-! ## Rounding to a binary format -/

/-- `floor(m × 2^e / 2^q)` and what is left below it: (quotient, remainder at least half, remainder
exactly half, remainder not zero). -/
def quantize (m : Nat) (e : Int) (more : Bool) (q : Int) : Nat × Bool × Bool × Bool :=
  if q ≤ e then (m * 2 ^ (e - q).toNat, false, false, more)
  else
    let k := (q - e).toNat
    let n := m / 2 ^ k
    let r := m % 2 ^ k
    let h := 2 ^ (k - 1)
    (n, decide (h ≤ r), r == h && !more, r != 0 || more)

/-- Whether the magnitude is rounded up, in one of the modes of R66; `odd` is the parity of the
quotient. -/
def roundsUp (rnd : Nat) (neg odd atLeastHalf half inexact : Bool) : Bool :=
  match rnd with
  | 0 => atLeastHalf && (!half || odd)
  | 1 => false
  | 2 => inexact && neg
  | 3 => inexact && !neg
  | 4 => atLeastHalf
  | _ => inexact && !odd

/-- Whether a finite result beyond the largest finite becomes an infinity (R66). -/
def overflowsToInf (rnd : Nat) (neg : Bool) : Bool :=
  match rnd with
  | 0 => true
  | 1 => false
  | 2 => neg
  | 3 => !neg
  | 4 => true
  | _ => false

/-- A finite non-zero exact value rounded once to a binary format (R66, R67): its code and flags. An
exponent far outside the format is first brought near it, which changes neither result nor flags. -/
def roundFinite (t : Ty) (r : Round) (neg : Bool) (m0 : Nat) (e0 : Int) (more0 : Bool) :
    Nat × BitVec 7 :=
  let fb := t.fracBits
  let len : Int := (m0.log2 : Int)
  let top := e0 + len
  let eMax : Int := t.bias
  let low := t.eMin - fb
  let tiny := decide (top < low - 2)
  let m := if tiny then 1 else m0
  let more := if tiny then true else more0
  let e := if tiny then low - 3 else if eMax + 2 < top then eMax + 2 - len else e0
  let q := max (e + (m.log2 : Int) - fb) low
  let (n, atLeast, half, inexact) := quantize m e more q
  let n' := if roundsUp r.rnd neg (n % 2 == 1) atLeast half inexact then n + 1 else n
  let beyond := decide ((eMax + 1 : Int) - q ≤ 0) ||
    decide (2 ^ ((eMax + 1 : Int) - q).toNat ≤ n')
  if beyond then
    if overflowsToInf r.rnd neg && !r.sat then (t.signBit neg + t.infCode, fxOF ||| fxNX)
    else (t.signBit neg + t.infCode - 1,
      fxOF ||| fxNX ||| fxIf (overflowsToInf r.rnd neg && r.sat) fxSA)
  else
    let sub := q == low && decide (n' < 2 ^ fb) && n' != 0
    if sub && r.fsub then (t.signBit neg, fxUF ||| fxNX)
    else (t.signBit neg + ((q - low).toNat * 2 ^ fb + n'),
      fxIf inexact fxNX ||| fxIf (sub && inexact) fxUF)

/-- An exact value delivered in a binary format (R65, R66, R67). -/
def roundFloat (t : Ty) (r : Round) : Num → Nat × BitVec 7
  | .nan _ => (t.nanCode, 0)
  | .inf neg => (t.signBit neg + t.infCode, 0)
  | .fin neg m e more =>
    if m = 0 ∧ more = false then (t.signBit neg, 0) else roundFinite t r neg m e more

/-! ## Tapered types -/

/-- The width of the magnitude code (R70). -/
def Ty.tapW (t : Ty) : Nat := if t = .t6 then 5 else 7

/-- The number of leading bits of `g`, from bit `n - 1` down, that equal `b` (R70). -/
def regimeRun (g : Nat) (b : Bool) : Nat → Nat
  | 0 => 0
  | n + 1 => if (natBits g n 1 == 1) = b then regimeRun g b n + 1 else 0

/-- The value of a magnitude code times 2^12, a natural number for both types (R70 to R72). -/
def tapMag (t : Ty) (g : Nat) : Nat :=
  let w := t.tapW
  if g = 0 then 0
  else
    let b := natBits g (w - 1) 1 == 1
    let k := regimeRun g b w
    let m : Int := if b then (k : Int) - 1 else -(k : Int)
    let q := if k = w then 0 else w - k - 1
    let e : Int := if 1 ≤ q then natBits g (q - 1) 1 else 0
    let nf := if 2 ≤ q then q - 1 else 0
    let f := g % 2 ^ nf
    let x := (12 : Int) + 2 * m + e - nf
    if 0 ≤ x then (2 ^ nf + f) * 2 ^ x.toNat else (2 ^ nf + f) / 2 ^ (-x).toNat

/-- The exact value of a tapered code (R70, R73): NaR is a quiet NaN. -/
def decodeTapered (t : Ty) (c : Nat) : Num :=
  let g := c % 2 ^ t.tapW
  let neg := natBits c t.tapW 1 == 1
  if g = 0 then (if neg then .nan false else .fin false 0 0 false)
  else .fin neg (tapMag t g) (-12) false

/-- NaR (R70). -/
def Ty.narCode (t : Ty) : Nat := 2 ^ t.tapW

/-- The largest magnitude code (R70). -/
def Ty.tapMax (t : Ty) : Nat := 2 ^ t.tapW - 1

/-- The sign joined to a magnitude code (R74). -/
def tapCode (t : Ty) (neg : Bool) (g : Nat) : Nat := (if neg then 2 ^ t.tapW else 0) + g

/-- The largest magnitude code below `n + 1` whose value times 2^12 is at most `x`. -/
def tapFloor (t : Ty) (x : Nat) : Nat → Nat
  | 0 => 0
  | n + 1 => if tapMag t (n + 1) ≤ x then n + 1 else tapFloor t x n

/-- The tapered encode of R74. `x` is 2^13 times the magnitude, rounded down, with `more` set when
something is left. -/
def encodeTapMag (t : Ty) (rnd : Nat) (neg : Bool) (x : Nat) (more : Bool) : Nat × BitVec 7 :=
  let top := 2 * tapMag t t.tapMax
  if top < x ∨ (x = top ∧ more) then (tapCode t neg t.tapMax, fxSA ||| fxNX)
  else if x < tapMag t 1 then (0, fxUF ||| fxNX)
  else
    let lo := tapFloor t (x / 2) t.tapMax
    if x = 2 * tapMag t lo ∧ more = false then (tapCode t neg lo, 0)
    else
      let mid := tapMag t lo + tapMag t (lo + 1)
      let atMid := x == mid && !more
      let above := decide (mid < x) || (x == mid && more)
      let up := match rnd with
        | 0 => above || (atMid && lo % 2 == 1)
        | 1 => false
        | 2 => neg
        | 3 => !neg
        | 4 => above || atMid
        | _ => lo % 2 == 0
      let g := if up then lo + 1 else lo
      if g = 0 then (0, fxUF ||| fxNX) else (tapCode t neg g, fxNX)

/-- An exact value encoded as T8 or T6 (R74). An exponent far outside the type is first brought
near it, which changes neither result nor flags. -/
def encodeTapered (t : Ty) (rnd : Nat) : Num → Nat × BitVec 7
  | .nan _ => (t.narCode, fxNV)
  | .inf neg => (tapCode t neg t.tapMax, fxSA)
  | .fin neg m e more =>
    if m = 0 ∧ more = false then (0, 0)
    else
      let top := e + (m.log2 : Int)
      if 20 < top then encodeTapMag t rnd neg (2 ^ 33) more
      else if top < -20 then encodeTapMag t rnd neg 0 true
      else
        let (n, _, _, left) := quantize m e more (-13)
        encodeTapMag t rnd neg n left

/-! ## Integers -/

/-- The integer value of an element code (R76). -/
def intOf (t : Ty) (c : Nat) : Int := if t.isSigned then signedOf t.bits c else c % 2 ^ t.bits

/-- The least and largest values of an integer type (R76). -/
def Ty.intMin (t : Ty) : Int := if t.isSigned then -(2 ^ (t.bits - 1) : Nat) else 0
def Ty.intMax (t : Ty) : Int := if t.isSigned then (2 ^ (t.bits - 1) : Nat) - 1 else (2 ^ t.bits : Nat) - 1

/-- An exact integer clamped to a type, with SA when clamped (R76). -/
def clampInt (t : Ty) (x : Int) : Nat × BitVec 7 :=
  if x < t.intMin then (intBits t.bits t.intMin, fxSA)
  else if t.intMax < x then (intBits t.bits t.intMax, fxSA)
  else (intBits t.bits x, 0)

/-- An exact integer reduced once to a type: modulo 2^bits, or clamped under MD.SAT (R76). -/
def reduceInt (t : Ty) (sat : Bool) (x : Int) : Nat × BitVec 7 :=
  if sat then clampInt t x else (intBits t.bits x, 0)

/-! ## Exact arithmetic -/

/-- A NaN is signalling. -/
def Num.isSig : Num → Bool
  | .nan s => s
  | _ => false

/-- A value is a NaN. -/
def Num.isNan : Num → Bool
  | .nan _ => true
  | _ => false

/-- A value is a zero. -/
def Num.isZero : Num → Bool
  | .fin _ 0 _ false => true
  | _ => false

/-- A value with its sign inverted. -/
def Num.negate : Num → Num
  | .nan s => .nan s
  | .inf n => .inf (!n)
  | .fin n m e more => .fin (!n) m e more

/-- A value with its sign cleared. -/
def Num.absolute : Num → Num
  | .nan s => .nan s
  | .inf _ => .inf false
  | .fin _ m e more => .fin false m e more

/-- The signed integer m × 2^(e - q) of an exact finite value, for q no greater than e. -/
def scaledInt (neg : Bool) (m : Nat) (e q : Int) : Int :=
  let n : Int := (m * 2 ^ (e - q).toNat : Nat)
  if neg then -n else n

/-- NV when any of the values is a signalling NaN (R65). -/
def sigFlag (l : List Num) : BitVec 7 := fxIf (l.any Num.isSig) fxNV

/-- The exact sum, with the sign of an exact zero by R66. -/
def addNum (rnd : Nat) (x y : Num) : Num × BitVec 7 :=
  match x, y with
  | .nan _, _ => (.nan false, sigFlag [x, y])
  | _, .nan _ => (.nan false, sigFlag [x, y])
  | .inf a, .inf b => if a = b then (.inf a, 0) else (.nan false, fxNV)
  | .inf a, _ => (.inf a, 0)
  | _, .inf b => (.inf b, 0)
  | .fin a m e _, .fin b n f _ =>
    if m = 0 ∧ n = 0 then (.fin (if a = b then a else rnd == 2) 0 0 false, 0)
    else if m = 0 then (.fin b n f false, 0)
    else if n = 0 then (.fin a m e false, 0)
    else
      let q := min e f
      let s := scaledInt a m e q + scaledInt b n f q
      if s = 0 then (.fin (rnd == 2) 0 0 false, 0)
      else (.fin (decide (s < 0)) s.natAbs q false, 0)

/-- The exact product (R66, R68). -/
def mulNum (x y : Num) : Num × BitVec 7 :=
  match x, y with
  | .nan _, _ => (.nan false, sigFlag [x, y])
  | _, .nan _ => (.nan false, sigFlag [x, y])
  | .inf a, .inf b => (.inf (a != b), 0)
  | .inf a, .fin b n _ _ => if n = 0 then (.nan false, fxNV) else (.inf (a != b), 0)
  | .fin a m _ _, .inf b => if m = 0 then (.nan false, fxNV) else (.inf (a != b), 0)
  | .fin a m e _, .fin b n f _ => (.fin (a != b) (m * n) (e + f) false, 0)

/-- The exact fused product and sum (R146). -/
def fmaNum (rnd : Nat) (x y z : Num) : Num × BitVec 7 :=
  let (p, f) := mulNum x y
  let (s, g) := addNum rnd p z
  (s, f ||| g)

/-- The order of two values that are no NaN: less, equal or greater; −0 equals +0. -/
def cmpNum (x y : Num) : Ordering :=
  match x, y with
  | .nan _, _ => .eq
  | _, .nan _ => .eq
  | .inf a, .inf b => if a = b then .eq else if a then .lt else .gt
  | .inf a, _ => if a then .lt else .gt
  | _, .inf b => if b then .gt else .lt
  | .fin a m e _, .fin b n f _ => compare (scaledInt a m e (min e f)) (scaledInt b n f (min e f))

/-- A value has its sign bit set. -/
def Num.isNeg : Num → Bool
  | .nan _ => false
  | .inf n => n
  | .fin n _ _ _ => n

/-- −0 ordered below +0, as MIN and MAX order them (R147). -/
def lessMinMax (x y : Num) : Bool :=
  match cmpNum x y with
  | .lt => true
  | .gt => false
  | .eq => x.isNeg && !y.isNeg

/-- The lesser or the greater of two binary values (R147). -/
def minMaxNum (wantMax : Bool) (x y : Num) : Num × BitVec 7 :=
  let f := sigFlag [x, y]
  if x.isNan && y.isNan then (.nan false, f)
  else if x.isNan then (y, f)
  else if y.isNan then (x, f)
  else if lessMinMax x y = wantMax then (y, f) else (x, f)

/-- An exact value rounded to an integer in a mode (R155, R159): the signed integer, and whether it
differs. -/
def roundToInt (rnd : Nat) (neg : Bool) (m : Nat) (e : Int) : Int × Bool :=
  let top := e + (m.log2 : Int)
  let (m, e, more) := if m ≠ 0 ∧ top < -4 then (1, (-4 : Int), true) else (m, e, false)
  let (n, atLeast, half, inexact) := quantize m e more 0
  let n' : Nat := if roundsUp rnd neg (n % 2 == 1) atLeast half inexact then n + 1 else n
  (if neg then -(n' : Int) else n', inexact)

end Sys2Proof.Machine
end

