-- ==== Sys2Proof/Machine/Special.lean ====
section
/-! DEFINITION. Division, roots and the transcendental functions of R148 as exact values ready for one
rounding (R145). The quotients and roots are exact up to their last bit and a remainder. EXP2, LOG2
and TANH of a value whose result is no exact case are irrational; they are computed here in fixed
point far beyond any format, so that the one rounding is the correct one (assumption 20). -/

namespace Sys2Proof.Machine

/-- The floor of a square root, bit by bit from `r`. -/
def isqrtFrom (n : Nat) : Nat → Nat → Nat
  | 0, r => r
  | k + 1, r => isqrtFrom n k (if (r + 2 ^ k) * (r + 2 ^ k) ≤ n then r + 2 ^ k else r)

/-- The floor of a square root. -/
def isqrt (n : Nat) : Nat := isqrtFrom n (n.log2 / 2 + 1) 0

/-- The exact quotient (R148, R149). -/
def divNum (x y : Num) : Num × BitVec 7 :=
  match x, y with
  | .nan _, _ => (.nan false, sigFlag [x, y])
  | _, .nan _ => (.nan false, sigFlag [x, y])
  | .inf _, .inf _ => (.nan false, fxNV)
  | .inf a, .fin b _ _ _ => (.inf (a != b), 0)
  | .fin a _ _ _, .inf b => (.fin (a != b) 0 0 false, 0)
  | .fin a m e _, .fin b n f _ =>
    if m = 0 ∧ n = 0 then (.nan false, fxNV)
    else if n = 0 then (.inf (a != b), fxDZ)
    else if m = 0 then (.fin (a != b) 0 0 false, 0)
    else (.fin (a != b) (m * 2 ^ 160 / n) (e - f - 160) (m * 2 ^ 160 % n != 0), 0)

/-- One, as an exact value. -/
def oneNum : Num := .fin false 1 0 false

/-- The exact reciprocal (R149). -/
def rcpNum (x : Num) : Num × BitVec 7 := divNum oneNum x

/-- A positive value with an even exponent. -/
def evenExp (m : Nat) (e : Int) : Nat × Int := if e % 2 = 0 then (m, e) else (2 * m, e - 1)

/-- The exact square root (R149). -/
def sqrtNum (x : Num) : Num × BitVec 7 :=
  match x with
  | .nan _ => (.nan false, sigFlag [x])
  | .inf true => (.nan false, fxNV)
  | .inf false => (.inf false, 0)
  | .fin neg m e _ =>
    if m = 0 then (x, 0)
    else if neg then (.nan false, fxNV)
    else
      let (m, e) := evenExp m e
      let y := m * 2 ^ 160
      let r := isqrt y
      (.fin false r (e / 2 - 80) (r * r != y), 0)

/-- The exact reciprocal square root (R149). -/
def rsqNum (x : Num) : Num × BitVec 7 :=
  match x with
  | .nan _ => (.nan false, sigFlag [x])
  | .inf true => (.nan false, fxNV)
  | .inf false => (.fin false 0 0 false, 0)
  | .fin neg m e _ =>
    if m = 0 then (.inf neg, fxDZ)
    else if neg then (.nan false, fxNV)
    else
      let (m, e) := evenExp m e
      let r := isqrt (2 ^ 320 / m)
      (.fin false r (-(e / 2) - 160) (r * r * m != 2 ^ 320), 0)

/-! ## Fixed point with `2 ^ fixBits` to the unit -/

/-- The fraction bits of the fixed-point values below. -/
def fixBits : Nat := 448

/-- The fixed-point one. -/
def fixOne : Nat := 2 ^ fixBits

/-- The fixed-point product, rounded down. -/
def fixMul (a b : Nat) : Nat := a * b / 2 ^ fixBits

/-- The terms t / d, t z² / (d + 2), … of the inverse hyperbolic tangent's series. -/
def atanhTerms (z2 : Nat) : Nat → Nat → Nat → Nat → Nat
  | 0, _, _, acc => acc
  | k + 1, t, d, acc => if t = 0 then acc else atanhTerms z2 k (fixMul t z2) (d + 2) (acc + t / d)

/-- The inverse hyperbolic tangent of a fixed-point value of at most 1/3. -/
def fixAtanh (z : Nat) : Nat := atanhTerms (fixMul z z) fixBits z 1 0

/-- The natural logarithm of 2. -/
def fixLn2 : Nat := 2 * fixAtanh (fixOne / 3)

/-- The natural logarithm of a fixed-point value from 1 to 2. -/
def fixLn (y : Nat) : Nat := 2 * fixAtanh ((y - fixOne) * fixOne / (y + fixOne))

/-- The terms of the exponential series. -/
def expTerms (x : Nat) : Nat → Nat → Nat → Nat → Nat
  | 0, _, _, acc => acc
  | k + 1, t, n, acc =>
    if t = 0 then acc else expTerms x k (fixMul t x / n) (n + 1) (acc + t)

/-- e to a fixed-point power from 0 to 1. -/
def fixExp (x : Nat) : Nat := expTerms x fixBits fixOne 1 0

/-- 2 to a fixed-point power from 0 to 1. -/
def fixExp2 (f : Nat) : Nat := fixExp (fixMul f fixLn2)

/-! ## The functions -/

/-- The exact value of 2^x (R149). For |x| below 2^-200 the result lies next to 1. -/
def exp2Num (x : Num) : Num × BitVec 7 :=
  match x with
  | .nan _ => (.nan false, sigFlag [x])
  | .inf true => (.fin false 0 0 false, 0)
  | .inf false => (.inf false, 0)
  | .fin neg m e _ =>
    if m = 0 then (oneNum, 0)
    else
      let top := e + (m.log2 : Int)
      if top < -200 then
        (.fin false (if neg then fixOne - 1 else fixOne) (-(fixBits : Int)) true, 0)
      else if 20 < top then
        (if neg then .fin false 1 (-(2 ^ 20 : Nat)) false else .fin false 1 (2 ^ 20 : Nat) false, 0)
      else
        let v : Int := scaledInt neg (m * 2 ^ fixBits) e (min e 0) / (2 ^ (-(min e 0)).toNat : Nat)
        let n : Int := v / (fixOne : Int)
        let f := (v % (fixOne : Int)).toNat
        if f = 0 then (.fin false 1 n false, 0)
        else (.fin false (fixExp2 f) (n - fixBits) true, 0)

/-- The exact value of log2 x (R149). -/
def log2Num (x : Num) : Num × BitVec 7 :=
  match x with
  | .nan _ => (.nan false, sigFlag [x])
  | .inf true => (.nan false, fxNV)
  | .inf false => (.inf false, 0)
  | .fin neg m e _ =>
    if m = 0 then (.inf true, fxDZ)
    else if neg then (.nan false, fxNV)
    else
      let n : Int := e + (m.log2 : Int)
      if m = 2 ^ m.log2 then (.fin (decide (n < 0)) n.natAbs 0 false, 0)
      else
        let y := m * fixOne / 2 ^ m.log2
        let v : Int := n * (fixOne : Int) + (fixLn y * fixOne / fixLn2 : Nat)
        (.fin (decide (v < 0)) v.natAbs (-(fixBits : Int)) true, 0)

/-- The exact value of tanh x (R149). For |x| below 2^-120 the result lies just below x in magnitude,
and for an |x| whose distance from 1 has no digit left just below 1. -/
def tanhNum (x : Num) : Num × BitVec 7 :=
  match x with
  | .nan _ => (.nan false, sigFlag [x])
  | .inf neg => (.fin neg 1 0 false, 0)
  | .fin neg m e _ =>
    if m = 0 then (x, 0)
    else
      let top := e + (m.log2 : Int)
      if top < -120 then (.fin neg (m * 2 ^ 160 - 1) (e - 160) true, 0)
      else if 8 ≤ top then (.fin neg (fixOne - 1) (-(fixBits : Int)) true, 0)
      else
        let y := (quantize m e false (-(fixBits : Int) - 1)).1
        let n := y / fixLn2
        let t := fixOne * fixOne / fixExp (y % fixLn2) / 2 ^ n
        (.fin neg (if t = 0 then fixOne - 1 else (fixOne - t) * fixOne / (fixOne + t)) (-(fixBits : Int)) true, 0)

end Sys2Proof.Machine
end

