-- ==== Sys2Proof/Machine/Flags.lean ====
section
/-! DEFINITION. The element operations: for every element-wise instruction, the code an element of a
type receives and the flags of FX that it sets (R68, R69, R145 to R160, R171, R174 to R176, R178,
R181). -/

namespace Sys2Proof.Machine

/-! ## The mode register (R44) -/

/-- MD.TYPE. -/
def mdType (md : Word) : Ty := Ty.ofCode (md.extractLsb' 4 4).toNat
/-- MD.TYPE2. -/
def mdType2 (md : Word) : Ty := Ty.ofCode (md.extractLsb' 8 4).toNat
/-- MD.RND. -/
def mdRnd (md : Word) : Nat := (md.extractLsb' 12 3).toNat
/-- MD.SAT. -/
def mdSat (md : Word) : Bool := md.getLsbD 15
/-- MD.FSUB. -/
def mdFsub (md : Word) : Bool := md.getLsbD 16
/-- MD.SGNA. -/
def mdSgnA (md : Word) : Bool := md.getLsbD 17
/-- MD.SGNB. -/
def mdSgnB (md : Word) : Bool := md.getLsbD 18
/-- MD.SCOPE. -/
def mdScope (md : Word) : Nat := (md.extractLsb' 19 3).toNat
/-- MD.GUARD. -/
def mdGuard (md : Word) : Nat := (md.extractLsb' 0 4).toNat
/-- How MD delivers results. -/
def mdRound (md : Word) : Round := ⟨mdRnd md, mdFsub md, mdSat md⟩

/-! ## Reading and delivering -/

/-- An element of a floating or tapered type as read by an arithmetic instruction (R67, R73). -/
def readElem (t : Ty) (r : Round) (c : Nat) : Num × BitVec 7 :=
  if t.isTapered then (decodeTapered t c, 0) else readFloat t r.fsub c

/-- An exact value delivered in a floating or tapered type (R145). -/
def deliver (t : Ty) (r : Round) (x : Num) : Nat × BitVec 7 :=
  if t.isTapered then encodeTapered t r.rnd x else roundFloat t r x

/-- A value computed with flags, delivered. -/
def deliverWith (t : Ty) (r : Round) (f : BitVec 7) (x : Num × BitVec 7) : Nat × BitVec 7 :=
  let (c, g) := deliver t r x.1
  (c, f ||| x.2 ||| g)

/-! ## Arithmetic (R146, R147) -/

/-- The ten element-wise operations of R146. -/
inductive ArithOp where
  | add | sub | mul | fma | fms | fnma | min | max | abs | neg
  deriving DecidableEq, Repr

/-- The operation on integers, exact (R146, R147). -/
def intArith (op : ArithOp) (a b d : Int) : Int :=
  match op with
  | .add => a + b
  | .sub => a - b
  | .mul => a * b
  | .fma => a * b + d
  | .fms => a * b - d
  | .fnma => -(a * b) + d
  | .min => if a ≤ b then a else b
  | .max => if a ≤ b then b else a
  | .abs => (a.natAbs : Int)
  | .neg => -a

/-- The operation on values of a floating or tapered type, exact (R146, R147). -/
def numArith (op : ArithOp) (rnd : Nat) (a b d : Num) : Num × BitVec 7 :=
  match op with
  | .add => addNum rnd a b
  | .sub => addNum rnd a b.negate
  | .mul => mulNum a b
  | .fma => fmaNum rnd a b d
  | .fms => fmaNum rnd a b d.negate
  | .fnma => fmaNum rnd a.negate b d
  | .min => minMaxNum false a b
  | .max => minMaxNum true a b
  | .abs => (a.absolute, sigFlag [a])
  | .neg => (a.negate, sigFlag [a])

/-- How many of a, b and d an operation reads, so that an operand it does not read sets no flag. -/
def ArithOp.reads : ArithOp → Bool × Bool
  | .abs | .neg => (false, false)
  | .fma | .fms | .fnma => (true, true)
  | _ => (true, false)

/-- MIN, MAX, ABS and NEG of tapered codes: a code chosen, or its sign bit changed (R146, R147). -/
def taperedPick (op : ArithOp) (t : Ty) (a b : Nat) : Option Nat :=
  let nar := t.narCode
  let real := fun c : Nat => c % 2 ^ t.tapW != 0
  match op with
  | .abs => some (if real a then a % 2 ^ t.tapW else a)
  | .neg => some (if real a then (a + 2 ^ t.tapW) % 2 ^ (t.tapW + 1) else a)
  | .min | .max =>
    some (if a = nar then b else if b = nar then a
      else if lessMinMax (decodeTapered t a) (decodeTapered t b) = (op == .max) then b else a)
  | _ => none

/-- One element of R146: its code and flags. -/
def elemArith (op : ArithOp) (t : Ty) (r : Round) (a b d : Nat) : Nat × BitVec 7 :=
  if t.isInt then reduceInt t r.sat (intArith op (intOf t a) (intOf t b) (intOf t d))
  else
    match (if t.isTapered then taperedPick op t a b else none) with
    | some c => (c, 0)
    | none =>
      let (x, f) := readElem t r a
      let (y, g) := readElem t r b
      let (z, h) := readElem t r d
      let g := if op.reads.1 then g else 0
      let h := if op.reads.2 then h else 0
      deliverWith t r (f ||| g ||| h) (numArith op r.rnd x y z)

/-! ## Special functions (R148, R149) -/

/-- The seven special functions. -/
inductive SpecialFn where
  | rcp | rsq | sqrt | exp2 | log2 | tanh | div
  deriving DecidableEq, Repr

/-- The exact value of a special function. -/
def specialNum (fn : SpecialFn) (x y : Num) : Num × BitVec 7 :=
  match fn with
  | .rcp => rcpNum x
  | .rsq => rsqNum x
  | .sqrt => sqrtNum x
  | .exp2 => exp2Num x
  | .log2 => log2Num x
  | .tanh => tanhNum x
  | .div => divNum x y

/-- One element of R148. -/
def elemSpecial (fn : SpecialFn) (t : Ty) (r : Round) (a b : Nat) : Nat × BitVec 7 :=
  let (x, f) := readElem t r a
  let (y, g) := readElem t r b
  deliverWith t r (if fn = .div then f ||| g else f) (specialNum fn x y)

/-! ## Compares and classes (R150, R151) -/

/-- The five relations. -/
inductive CmpOp where
  | eq | ne | lt | le | un
  deriving DecidableEq, Repr

/-- One element of a compare: whether the relation holds, and its flags. -/
def elemCompare (op : CmpOp) (t : Ty) (r : Round) (a b : Nat) : Bool × BitVec 7 :=
  if t.isInt then
    let x := intOf t a
    let y := intOf t b
    (match op with
      | .eq => decide (x = y)
      | .ne => decide (x ≠ y)
      | .lt => decide (x < y)
      | .le => decide (x ≤ y)
      | .un => false, 0)
  else
    let (x, f) := readElem t r a
    let (y, g) := readElem t r b
    let un := x.isNan || y.isNan
    let nv := match op with
      | .lt | .le => fxIf un fxNV
      | _ => sigFlag [x, y]
    let o := cmpNum x y
    (match op with
      | .eq => !un && o == .eq
      | .ne => un || o != .eq
      | .lt => !un && o == .lt
      | .le => !un && o != .gt
      | .un => un, f ||| g ||| nv)

/-- The class of an element, as its bit number in the mask of R151. -/
def elemClass (t : Ty) (c : Nat) : Nat :=
  if t.isTapered then
    match decodeTapered t c with
    | .nan _ => 9
    | .inf _ => 7
    | .fin neg m _ _ => if m = 0 then 4 else if neg then 1 else 6
  else
    match decodeFloat t c with
    | .nan true => 8
    | .nan false => 9
    | .inf neg => if neg then 0 else 7
    | .fin neg m _ _ =>
      if m = 0 then (if neg then 3 else 4)
      else if isSubnormal t c then (if neg then 2 else 5)
      else (if neg then 1 else 6)

/-! ## Conversions (R155 to R157) -/

/-- An exact value converted to an integer type (R155). -/
def numToInt (t : Ty) (rnd : Nat) : Num → Nat × BitVec 7
  | .nan _ => (0, fxNV)
  | .inf neg => (intBits t.bits (if neg then t.intMin else t.intMax), fxSA)
  | .fin neg m e _ =>
    if m ≠ 0 ∧ 80 < e + (m.log2 : Int) then
      (intBits t.bits (if neg then t.intMin else t.intMax), fxSA)
    else
      let (n, inexact) := roundToInt rnd neg m e
      let (c, f) := clampInt t n
      (c, f ||| fxIf inexact fxNX)

/-- One element converted from a type to another (R155). -/
def elemConvert (t u : Ty) (r : Round) (c : Nat) : Nat × BitVec 7 :=
  if t.isInt && u.isInt then reduceInt u r.sat (intOf t c)
  else
    let (x, f) :=
      if t.isInt then
        let n := intOf t c
        (Num.fin (decide (n < 0)) n.natAbs 0 false, (0 : BitVec 7))
      else readElem t r c
    let (d, g) := if u.isInt then numToInt u r.rnd x else
      let (d, g) := deliver u r x
      (d, g ||| (if u.isTapered then 0 else sigFlag [x]))
    (d, f ||| g)

/-- The code that ENCT computes from two F32 patterns (R156). -/
def enctCode (t : Ty) (r : Round) (a b : Nat) : Nat × BitVec 7 :=
  let (x, f) := readFloat .f32 r.fsub a
  let (y, g) := readFloat .f32 r.fsub b
  let (p, h) := mulNum x y
  let (c, k) := encodeTapered t r.rnd p
  (c, f ||| g ||| h ||| k)

/-- The F32 pattern of a tapered code (R73, R157). -/
def dectCode (t : Ty) (c : Nat) : Nat := (roundFloat .f32 ⟨0, false, false⟩ (decodeTapered t c)).1

/-! ## Scaling and integral parts (R158 to R160) -/

/-- One element times 2^n (R158). -/
def elemScale (t : Ty) (r : Round) (a : Nat) (n : Int) : Nat × BitVec 7 :=
  let (x, f) := readElem t r a
  let y : Num := match x with
    | .fin neg m e more => if m = 0 then .fin neg 0 0 false else .fin neg m (e + n) more
    | y => y
  deliverWith t r f (y, sigFlag [x])

/-- One element rounded to an integral value (R159). -/
def elemRint (t : Ty) (r : Round) (a : Nat) : Nat × BitVec 7 :=
  let (x, f) := readElem t r a
  match x with
  | .fin neg m e _ =>
    if m ≠ 0 ∧ 0 ≤ e then deliverWith t r f (x, 0)
    else
      let (n, inexact) := roundToInt r.rnd neg m e
      deliverWith t r f (.fin neg n.natAbs 0 false, fxIf inexact fxNX)
  | _ => deliverWith t r f (x, sigFlag [x])

/-- The signed integer type of an element's width (R160). -/
def Ty.exponentTy (t : Ty) : Ty :=
  match t.slot with
  | 8 => .s8
  | 16 => .s16
  | 32 => .s32
  | _ => .s64

/-- The significand of one element (R160). -/
def elemSignificand (t : Ty) (r : Round) (a : Nat) : Nat × BitVec 7 :=
  let (x, f) := readElem t r a
  let y : Num := match x with
    | .fin neg m _ _ => if m = 0 then x else .fin neg m (-(m.log2 : Int)) false
    | y => y
  deliverWith t r f (y, sigFlag [x])

/-- The exponent of one element (R160). -/
def elemExponent (t : Ty) (r : Round) (a : Nat) : Nat × BitVec 7 :=
  let u := t.exponentTy
  let (x, f) := readElem t r a
  match x with
  | .nan _ => (intBits u.bits u.intMin, f ||| fxNV)
  | .inf _ => (intBits u.bits u.intMax, f ||| fxNV)
  | .fin _ m e _ =>
    if m = 0 then (intBits u.bits u.intMin, f ||| fxNV)
    else (intBits u.bits (e + (m.log2 : Int)), f)

/-! ## Integer and bit elements (R171, R173 to R176) -/

/-- The element-wise bit operations of R171. -/
inductive BitOp where
  | and | or | xor | not | shl | shr | sha | rot | clz | popc | brev
  deriving DecidableEq, Repr

/-- The number of set bits among the low `w`. -/
def popCount (x : Nat) : Nat → Nat
  | 0 => 0
  | w + 1 => popCount x w + natBits x w 1

/-- The low `w` bits in reverse order. -/
def bitReverse (x : Nat) : Nat → Nat
  | 0 => 0
  | w + 1 => 2 * bitReverse x w + natBits x w 1

/-- The number of leading zero bits of a `w`-bit value. -/
def leadingZeros (w x : Nat) : Nat := if x % 2 ^ w = 0 then w else w - 1 - (x % 2 ^ w).log2

/-- One element of width `w` (R171); `n` is the amount. -/
def elemBit (op : BitOp) (w a n : Nat) : Nat :=
  match op with
  | .and => a &&& n
  | .or => a ||| n
  | .xor => a ^^^ n
  | .not => 2 ^ w - 1 - a % 2 ^ w
  | .shl => if w ≤ n then 0 else a * 2 ^ n % 2 ^ w
  | .shr => if w ≤ n then 0 else a % 2 ^ w / 2 ^ n
  | .sha => intBits w (signedOf w a / (2 ^ (if w ≤ n then w - 1 else n) : Nat))
  | .rot =>
    let k := n % w
    (a * 2 ^ k % 2 ^ w) + (a % 2 ^ w) / 2 ^ (w - k)
  | .clz => leadingZeros w a
  | .popc => popCount a w
  | .brev => bitReverse a w

/-- The field of R174: the low `W` bits from offset `O` of a 32-bit value, under a control operand. -/
def bitFieldExtract (a ctl : Nat) : Nat :=
  let width := min (natBits ctl 8 6) 32
  let x := a % 2 ^ 32 / 2 ^ natBits ctl 0 5 % 2 ^ width
  if natBits ctl 16 1 = 1 then intBits 32 (signedOf width x) else x

/-- The field of R174 replaced by the low bits of `a`. -/
def bitFieldInsert (d a ctl : Nat) : Nat :=
  let width := min (natBits ctl 8 6) 32
  let o := natBits ctl 0 5
  let m := (2 ^ width - 1) * 2 ^ o % 2 ^ 32
  (d % 2 ^ 32 &&& (2 ^ 32 - 1 - m)) ||| (a % 2 ^ width * 2 ^ o % 2 ^ 32)

/-- The carry-less product of two 32-bit values (R175). -/
def clmulNat (a b : Nat) : Nat :=
  (List.range 32).foldl (fun acc i => if natBits b i 1 = 1 then acc ^^^ (a * 2 ^ i) else acc) 0

/-- The exact dot product of the elements of width `w` of two units (R77, R176). -/
def dotExact (w a b : Nat) (sa sb : Bool) : Int :=
  (List.range (32 / w)).foldl (fun acc j =>
    let x := natBits a (w * j) w
    let y := natBits b (w * j) w
    let xi : Int := if sa then signedOf w x else x
    let yi : Int := if sb then signedOf w y else y
    acc + xi * yi) 0

/-! ## Wave reductions (R85, R178) -/

/-- The operations of WRED and WSCAN. -/
inductive RedOp where
  | add | min | max | and | or | xor
  deriving DecidableEq, Repr

/-- The operation of a direct field (R178); the values above 5 are illegal. -/
def RedOp.ofCode (c : Nat) : RedOp :=
  match c with
  | 0 => .add
  | 1 => .min
  | 2 => .max
  | 3 => .and
  | 4 => .or
  | _ => .xor

/-- Two whole units combined, element by element (R178). -/
def redUnits (op : RedOp) (t : Ty) (r : Round) (x y : Nat) : Nat × BitVec 7 :=
  match op with
  | .and => (x &&& y, 0)
  | .or => (x ||| y, 0)
  | .xor => (x ^^^ y, 0)
  | _ =>
    let f : ArithOp := match op with
      | .add => .add
      | .min => .min
      | _ => .max
    let l := (List.range t.count).map (fun j => elemArith f t r (elemAt t x j) (elemAt t y j) 0)
    (unitOf t (l.map (·.1)), l.foldl (fun acc e => acc ||| e.2) 0)

/-- One level of the tree: adjacent members are combined, an absent one passes its neighbour up. -/
def redLevel (op : RedOp) (t : Ty) (r : Round) :
    List (Option Nat) → List (Option Nat) × BitVec 7
  | a :: b :: rest =>
    let (l, f) := redLevel op t r rest
    match a, b with
    | some x, some y =>
      let (z, g) := redUnits op t r x y
      (some z :: l, f ||| g)
    | some x, none => (some x :: l, f)
    | none, y => (y :: l, f)
  | l => (l, 0)

/-- The whole tree of R85 over a list of a power of two members, in at most `levels` levels. -/
def redTree (op : RedOp) (t : Ty) (r : Round) : Nat → List (Option Nat) → Option Nat × BitVec 7
  | 0, l => (l.headD none, 0)
  | n + 1, l =>
    let (l', f) := redLevel op t r l
    let (v, g) := redTree op t r n l'
    (v, f ||| g)

/-- The identity that an empty reduction leaves in a scalar destination (R178). -/
def redIdentity (op : RedOp) (t : Ty) : Nat :=
  let all := fun c : Nat => unitOf t (List.replicate t.count c)
  match op with
  | .add | .or | .xor => 0
  | .and => 2 ^ (if t.is64 then 64 else 32) - 1
  | .min => all (if t.isInt then intBits t.bits t.intMax else if t.isTapered then t.narCode
      else t.nanCode)
  | .max => all (if t.isInt then intBits t.bits t.intMin else if t.isTapered then t.narCode
      else t.nanCode)

/-! ## Sparsity selection (R181) -/

/-- The rank key of an element: a larger key is a larger magnitude. -/
def magnitudeKey (t : Ty) (c : Nat) : Nat :=
  if t.isInt then (intOf t c).natAbs
  else if t.isTapered then
    match decodeTapered t c with
    | .nan _ => 2 ^ 40
    | .inf _ => 2 ^ 39
    | .fin _ m _ _ => m
  else
    match decodeFloat t c with
    | .nan _ => t.infCode + 1
    | _ => c % 2 ^ (t.slot - 1)

/-- The two indices kept from a group of elements, lower first (R181). -/
def keptPair (t : Ty) (g : List Nat) : Nat × Nat :=
  let keys := g.map (magnitudeKey t)
  let beats := fun i j : Nat =>
    decide (keys.getD j 0 < keys.getD i 0) || (keys.getD j 0 == keys.getD i 0 && decide (i < j))
  let rank := fun i : Nat => countIf (fun j => beats j i) (List.range 4)
  match (List.range 4).filter (fun i => decide (rank i < 2)) with
  | i :: j :: _ => (i, j)
  | _ => (0, 1)

/-- The groups of four elements of a source unit: 32 bits, or 64 for F16 and BF16 (R181). -/
def sparseGroups (t : Ty) (u : Nat) : List (List Nat) :=
  (List.range (if t.slot = 4 then 2 else 1)).map (fun g =>
    (List.range 4).map (fun i => natBits u (t.slot * (4 * g + i)) t.bits))

/-- Part 1 of SPSEL: the metadata of every group (R181). -/
def sparseMeta (t : Ty) (u : Nat) : Nat :=
  (sparseGroups t u).reverse.foldl (fun acc g =>
    let (i, j) := keptPair t g
    acc * 16 + (j * 4 + i)) 0

/-- Part 0 of SPSEL: the source with the dropped elements zero (R181). -/
def sparseKept (t : Ty) (u : Nat) : Nat :=
  ((sparseGroups t u).flatMap (fun g =>
    let (i, j) := keptPair t g
    (List.range 4).map (fun k => if k = i ∨ k = j then g.getD k 0 else 0))).foldr
    (fun x acc => x + 2 ^ t.slot * acc) 0

/-- Part 2 of SPSEL: the kept elements packed (R181). -/
def sparsePacked (t : Ty) (u : Nat) : Nat :=
  ((sparseGroups t u).flatMap (fun g =>
    let (i, j) := keptPair t g
    [g.getD i 0, g.getD j 0])).foldr (fun x acc => x + 2 ^ t.slot * acc) 0

end Sys2Proof.Machine
end

