-- ==== Sys2Proof/Machine/Gang.lean ====
section
/-! DEFINITION. The issuing gang (R88, R112), the registers of its wave, the causes it records (R43,
R346 to R348), and what becomes of the gang when one of its words has issued (R24, R31, R32). -/

namespace Sys2Proof.Machine

/-! ## Clause headers (R25) -/

/-- BODYCNT. -/
def hdrBody (h : Word) : Nat := (h.extractLsb' 0 4).toNat
/-- LX. -/
def hdrLx (h : Word) : Bool := h.getLsbD 4
/-- NLIT. -/
def hdrNlit (h : Word) : Nat := if hdrLx h then 8 else (h.extractLsb' 5 3).toNat
/-- WAIT, as flag numbers. -/
def hdrWait (h : Word) : List Nat := bitsOf (h.extractLsb' 8 12)
/-- SETA, or none for 15. -/
def hdrSetA (h : Word) : Option Nat :=
  let n := (h.extractLsb' 20 4).toNat
  if n = 15 then none else some n
/-- SETB, or none for 15. -/
def hdrSetB (h : Word) : Option Nat :=
  let n := (h.extractLsb' 24 4).toNat
  if n = 15 then none else some n
/-- PP. -/
def hdrPP (h : Word) : Bool := h.getLsbD 30
/-- MELDC. -/
def hdrMeldc (h : Word) : Bool := h.getLsbD 31
/-- The words of a clause, its header included (R24). -/
def hdrLen (h : Word) : Nat := 1 + hdrBody h + hdrNlit h
/-- A header that raises ILLEGAL_CLAUSE (R25). -/
def hdrIllegal (h : Word) : Bool :=
  hdrBody h == 0 || h.extractLsb' 28 2 != 0 || (hdrLx h && (h.extractLsb' 5 3).toNat != 7) ||
  [12, 13, 14].contains (h.extractLsb' 20 4).toNat || [12, 13, 14].contains (h.extractLsb' 24 4).toNat

/-- The literal words of a fetched clause, in slot order (R24). -/
def clauseLits (cl : List Word) : List Word :=
  let h := cl.headD 0
  (cl.drop (1 + hdrBody h)).take (hdrNlit h)

/-! ## Slices and gangs -/

/-- A slice has ended: none of its lanes is left (R87, R120; assumption 21). -/
def Slice.ended (x : Slice) : Bool := x.ex == 0xF#4

/-- The executing lanes of a slice (R112). -/
def Slice.executing (x : Slice) : BitVec 4 := x.lm &&& ~~~x.ex

/-- A slice that can belong to a gang: live, not parked and not held (R88, R348). -/
def Slice.free (x : Slice) : Bool := !x.ended && x.park == .none && !x.held

/-- Two slices stand at one place with equal rejoin counters (R88). -/
def Slice.together (x y : Slice) : Bool :=
  x.pc == y.pc && x.rjc == y.rjc && x.rjt == y.rjt && x.word == y.word

/-- The number of lanes of a wave (R87). -/
def Wave.width (w : Wave) : Nat := 4 * w.slices.length

/-- The slices of a wave that satisfy a test. -/
def Wave.sliceMask (w : Wave) (f : Slice → Bool) : SliceMask :=
  maskWhere 16 (fun i => match w.slices[i]? with
    | some x => f x
    | none => false)

/-- The gang of a slice (R88); zero when the slice can belong to none. -/
def Wave.gangOf (w : Wave) (i : Nat) : SliceMask :=
  match w.slices[i]? with
  | some x => if x.free then w.sliceMask (fun y => y.free && x.together y) else 0
  | none => 0

/-- The lanes of a wave picked out slice by slice. -/
def Wave.lanes (w : Wave) (g : SliceMask) (f : Slice → BitVec 4) : LaneMask :=
  maskWhere 64 (fun l => g.getLsbD (l / 4) && (match w.slices[l / 4]? with
    | some x => (f x).getLsbD (l % 4)
    | none => false))

/-- The lanes whose slices stand in a mask. -/
def sliceLanes (g : SliceMask) : LaneMask := maskWhere 64 (fun l => g.getLsbD (l / 4))

/-- The lanes of a wave's width (R164). -/
def Wave.widthMask (w : Wave) : LaneMask := maskWhere 64 (fun l => decide (l < w.width))

/-- The slices of a gang changed. -/
def Wave.mapGang (w : Wave) (g : SliceMask) (f : Nat → Slice → Slice) : Wave :=
  { w with slices := w.slices.mapIdx (fun i x => if g.getLsbD i then f i x else x) }

/-- The first slice of a gang. -/
def firstSlice (g : SliceMask) : Nat := (bitsOf g).headD 0

/-- The gang is in a melded region (R128, R130). -/
def Wave.melds (w : Wave) (g : SliceMask) : Bool := w.mr && (w.mrs &&& g) != 0

/-- The lanes whose guard predicate is set (R44, R112). -/
def Wave.guardMask (w : Wave) : LaneMask :=
  let g := mdGuard w.md
  if g < 8 then w.p.get g else ~~~(w.p.get (g - 8))

/-- The wave belongs to a deterministic launch. -/
def Wave.isDet (w : Wave) : Bool := w.det.isSome

/-! ## The issuing gang -/

/-- A block's share on one core when the block has none (never placed). -/
def Half.none : Half :=
  { core := 0, acct := 0, scrl := 0, tiles := [], tpoison := [], tokens := [], bench := [],
    scratch := [], spoison := [], empty := [], touched := [], tops := [] }

/-- What a word is executed with: the wave `w` (its key in the table), the gang, the word's reference,
the executing lanes, the guard and `act` (R112), the gang's block and half, and the tick of issue.
`replay` tells that a deferred trap's word is reissued (R353). -/
structure Ctx where
  key    : Nat
  w      : Wave
  gang   : SliceMask
  src    : WordRef
  next   : DWord
  body   : Nat
  exec   : LaneMask
  guard  : LaneMask
  act    : LaneMask
  melded : Bool
  blk    : Block
  half   : Half
  now    : Nat
  replay : Bool
  deriving Repr

/-- The lanes of a trap (R348 TMASK). -/
def TrapDue.lanes (t : TrapDue) : LaneMask := maskOf 64 (t.causes.map (·.lane))

/-- The words of a wave that are issued again; an EXIT waits for the wave to leave its handler. -/
def Wave.waiting (w : Wave) : List Replay := w.replay.filter (fun r => !(r.exits && w.inHandler))

/-- The replays of a wave that stand before its other words: none while a slice of the first is held (R348,
R353). -/
def Wave.replays (w : Wave) : List Replay :=
  match w.waiting with
  | r :: rest =>
    if (bitsOf r.slices).all (fun i => match w.slices[i]? with
      | some x => !x.held
      | none => true) then r :: rest else []
  | [] => []

/-- The word that the gang issues: the replayed word, or the next body word of its clause. -/
def Wave.wordRef (w : Wave) (g : SliceMask) : WordRef × Bool :=
  match w.replays with
  | r :: _ => ({ r.src with ord := w.seq }, true)
  | [] =>
    match w.slices[firstSlice g]? with
    | some x => (⟨w.seq, x.pc, x.cl.headD 0, x.cl.getD x.word 0, x.word, clauseLits x.cl⟩, false)
    | none => (⟨w.seq, 0, 0, 0, 0, []⟩, false)

/-- The context of a gang of a wave. -/
def mkCtx (s : State) (key : Nat) (w : Wave) (g : SliceMask) (blk : Block) : Ctx :=
  let (src, replay) := w.wordRef g
  let tm := match w.replays with
    | r :: _ => r.lanes
    | [] => BitVec.allOnes 64
  let exec := w.lanes g Slice.executing &&& tm
  { key, w, gang := g, src,
    next := src.claddr + 4#64 * BitVec.ofNat 64 (hdrLen src.hdr), body := hdrBody src.hdr,
    exec, guard := w.guardMask, act := if replay then exec else exec &&& w.guardMask,
    melded := w.melds g, blk, half := blk.halves.getD w.half Half.none, now := s.time, replay }

/-- The gang that has been picked, if its wave and block are there (R90). -/
def State.ctx? (s : State) : Option Ctx :=
  match s.cur with
  | none => none
  | some i =>
    match s.waves.get? i.wave with
    | none => none
    | some w =>
      match s.blocks.get? w.block with
      | none => none
      | some b => some (mkCtx s i.wave w i.gang b)

/-! ## Literals (R29, R42) -/

/-- Path 1 of the gang reads l0 to l3 as l4 to l7 (R29). -/
def Ctx.swaps (c : Ctx) : Bool := c.melded && hdrMeldc c.src.hdr

/-- The slots k to k + n - 1 exist, on both paths of a melded gang (R42). -/
def Ctx.litOk (c : Ctx) (k n : Nat) : Bool :=
  decide (k + n ≤ hdrNlit c.src.hdr) &&
  (!(c.swaps && decide (k < 4)) || decide (k + 4 + n ≤ hdrNlit c.src.hdr))

/-- The slot that a lane reads for l(k) (R29, R129). -/
def Ctx.litSlot (c : Ctx) (k l : Nat) : Nat := if c.swaps && decide (k < 4) && c.w.mp.getLsbD l then k + 4 else k

/-- `n` literal words from slot k as one number, as lane `l` reads them. -/
def Ctx.lit (c : Ctx) (k n l : Nat) : Nat :=
  let j := c.litSlot k l
  (List.range n).foldr (fun i acc => (c.src.lits.getD (j + i) 0).toNat + 2 ^ 32 * acc) 0

/-! ## Registers -/

/-- The physical register that a lane's field names (R127, R129). -/
def Ctx.phys (c : Ctx) (n l : Nat) : Nat :=
  if c.melded then
    let ot := if c.w.mp.getLsbD l then c.w.ot1 else c.w.ot0
    natBits ot.toNat (3 * (n / 32)) 3 * 32 + n % 32
  else n

/-- The key of a lane-register. -/
def vKey (n l : Nat) : Nat := 64 * n + l

/-- `k` consecutive v registers of a lane as one number, the first lowest (R2). -/
def Ctx.vread (c : Ctx) (n k l : Nat) : Nat :=
  (List.range k).foldr (fun i acc => (c.w.v.get (vKey (c.phys (n + i) l) l)).toNat + 2 ^ 32 * acc) 0

/-- `k` consecutive s registers as one number (R2). -/
def Wave.sread (w : Wave) (n k : Nat) : Nat :=
  (List.range k).foldr (fun i acc => (w.s.get (n + i)).toNat + 2 ^ 32 * acc) 0

/-- `k` consecutive s registers written; a written register holds no poison (R139, R163). -/
def Wave.swrite (w : Wave) (n k x : Nat) : Wave :=
  { w with
    s := ZMap.setAll w.s ((List.range k).map (fun i => (n + i, BitVec.ofNat 32 (x / 2 ^ (32 * i)))))
    spoison := w.spoison.filter (fun r => !(decide (n ≤ r) && decide (r < n + k))) }

/-- The lane-registers that a write of `k` registers from vn reaches, with their values. -/
def Ctx.vcells (c : Ctx) (n k : Nat) (mask : LaneMask) (f : Nat → Nat) : List (Nat × Word) :=
  (bitsOf mask).flatMap (fun l =>
    (List.range k).map (fun i => (vKey (c.phys (n + i) l) l, BitVec.ofNat 32 (f l / 2 ^ (32 * i)))))

/-- The registers whose values a reuse latch holds: four for T6, else two (R195, R203). -/
def Latch.holds (l : Latch) (reg : Nat) : Bool :=
  decide (l.field ≤ reg) && decide (reg < l.field + (if natBits l.fb0.toNat 28 4 = 4 then 4 else 2))

/-- Lane-registers written; a written one holds no poison (R139), and the reuse latch loses a register that
it holds (R203). -/
def Wave.vput (w : Wave) (cells : List (Nat × Word)) : Wave :=
  { w with
    v := ZMap.setAll w.v cells
    vpoison := w.vpoison.filter (fun k => !(cells.map (·.1)).contains k)
    latch := w.latch.filter (fun l => !cells.any (fun e => l.holds (e.1 / 64))) }

/-- `k` consecutive v registers written in the lanes of a mask. -/
def Ctx.vwrite (c : Ctx) (w : Wave) (n k : Nat) (mask : LaneMask) (f : Nat → Nat) : Wave :=
  w.vput (c.vcells n k mask f)

/-- The bits of a predicate in the lanes of a mask written; bits above the width stay 0 (R164). -/
def Wave.pwrite (w : Wave) (n : Nat) (mask bits : LaneMask) : Wave :=
  let m := mask &&& w.widthMask
  { w with p := w.p.set n ((w.p.get n &&& ~~~m) ||| (bits &&& m)) }

/-- Flags raised in FX (R69). -/
def Wave.raise (w : Wave) (f : BitVec 7) : Wave := { w with fx := w.fx ||| f }

/-- A completion flag's count (R31). -/
def Wave.flag (w : Wave) (n : Nat) : Nat := w.flags.getD n 0

/-- A completion flag one higher, for an operation that names one (R31). -/
def Wave.flagUp (w : Wave) : Option Nat → Wave
  | some n => { w with flags := listUpdate w.flags n (· + 1) }
  | none => w

/-- A completion flag one lower at a tick; a clause that waits for it begins no earlier than the tick after it
reaches zero (R31). -/
def Wave.flagDown (w : Wave) (now : Nat) : Option Nat → Wave
  | some n => { w with
      flags := listUpdate w.flags n (· - 1)
      begins := listUpdate w.begins n (fun t => if w.flag n ≤ 1 then now + 1 else t) }
  | none => w

/-! ## Causes -/

/-- One lane's cause with no address, given by a word. -/
def laneCause (src : WordRef) (cause : Cause) (l : Nat) : LaneCause :=
  ⟨l, cause, false, 0, 0, src, false, .none⟩

/-- A cause recorded in a lane: the cause of the earliest word stays (R348). -/
def addCause (l : List LaneCause) (x : LaneCause) : List LaneCause :=
  match l.find? (fun y => y.lane == x.lane) with
  | some y => if x.src.ord < y.src.ord then x :: l.filter (fun y => y.lane != x.lane) else l
  | none => x :: l

/-- Deferred causes recorded in the wave (R347). -/
def Wave.record (w : Wave) (l : List LaneCause) : Wave := { w with causes := l.foldl addCause w.causes }

/-- One cause in every lane of a mask. -/
def causesIn (src : WordRef) (cause : Cause) (m : LaneMask) : List LaneCause :=
  (bitsOf m).map (laneCause src cause)

/-! ## How a word ends -/

/-- How the issue of one word ends: it traps, precisely and with no effect (R347); it does not issue
yet and the gang waits (R90), which may note the wait itself (`hold`); it has its effect and the gang
goes on to its next word; or it has its effect and has placed the gang's slices itself. -/
inductive Res where
  | trap (causes : List LaneCause) (norply : Bool)
  | stall
  | hold (s : State)
  | next (s : State)
  | jump (s : State)

/-- A wave written back. -/
def State.setWave (s : State) (k : Nat) (w : Wave) : State := { s with waves := s.waves.set k w }

/-- A wave changed where it stands. -/
def State.modWave (s : State) (k : Nat) (f : Wave → Wave) : State :=
  { s with waves := s.waves.update k f }

/-- A block written back. -/
def State.setBlock (s : State) (k : Nat) (b : Block) : State := { s with blocks := s.blocks.set k b }

/-- A block changed where it stands. -/
def State.modBlock (s : State) (k : Nat) (f : Block → Block) : State :=
  { s with blocks := s.blocks.update k f }

/-- A grid changed where it stands. -/
def State.modGrid (s : State) (k : Nat) (f : Grid → Grid) : State :=
  { s with grids := s.grids.update k f }

/-- A partition changed where it stands. -/
def State.modPart (s : State) (k : Nat) (f : Partition → Partition) : State :=
  { s with parts := s.parts.update k f }

/-- A block's half changed. -/
def Block.modHalf (b : Block) (h : Nat) (f : Half → Half) : Block :=
  { b with halves := listUpdate b.halves h f }

/-- A slice at the start of the next clause at `pc`, which is yet to be fetched (R24). -/
def Slice.goto (x : Slice) (pc : DWord) : Slice := { x with pc, word := 0, cl := [], stood := 0, redirect := false }

/-- A slice that a taken transfer sends to the clause at `pc` (R61). -/
def Slice.redirected (x : Slice) (pc : DWord) : Slice := { x.goto pc with redirect := true }

/-- The first replay of a wave has issued: it is due no longer, and a flag that stayed counted for it falls
(R208, R353). -/
def Wave.dropReplay (w : Wave) (now : Nat) : Wave :=
  match w.waiting with
  | r :: _ => { (w.flagDown now r.flag) with replay := w.replay.erase r }
  | [] => w

/-- The next body word of a gang, or the next sequential clause after the last (R24). Its ageing count returns
to 0 (R90). -/
def Ctx.advance (c : Ctx) (w : Wave) : Wave :=
  if c.replay then w.dropReplay c.now
  else if c.src.widx + 1 ≤ c.body then
    w.mapGang c.gang (fun _ x => { x with word := c.src.widx + 1, age := 0, stalled := none })
  else w.mapGang c.gang (fun _ x => { x.goto c.next with age := 0, stalled := none })

/-- One issue counted: the wave's order of issue, the quantum of a deterministic wave (R386). -/
def Wave.counted (w : Wave) (qnt : Nat) : Wave :=
  { w with
    seq := w.seq + 1
    det := w.det.map (fun d =>
      { d with count := d.count + 1, past := none, ended := d.ended || decide (qnt ≤ d.count + 1) }) }

/-- The launch of a block's grid. -/
def State.launchOf (s : State) (b : Block) : Option Launch := (s.grids.get? b.grid).map (·.launch)

/-- The quantum length Q of a block's launch (R321 QNT; R386). -/
def State.quantum (s : State) (b : Block) : Nat :=
  match s.launchOf b with
  | some l => l.qnt
  | none => 0

/-- A counter that names an event counts it, when its quadrant is selected or it is one of the core's (R381). -/
def Counter.bump (quad : Option Nat) (ev n : Nat) (k : Counter) : Counter :=
  let mine := match quad with
    | none => true
    | some q => k.qmask == 0 || k.qmask.getLsbD q
  if mine && k.event == ev then { k with count := (k.count + n) % 2 ^ 64 } else k

/-- An event counted by a core's counters. -/
def CoreState.bump (c : CoreState) (quad : Option Nat) (ev n : Nat) : CoreState :=
  { c with counters := c.counters.map (Counter.bump quad ev n) }

/-- An event of a core counted (R381). -/
def State.count (s : State) (core : Nat) (quad : Option Nat) (ev n : Nat) : State :=
  { s with cores := s.cores.update core (fun c => c.bump quad ev n) }

/-- A cut unit, or a BOUND_MISSED report of it, counted once at each core of some of its blocks (R381). -/
def State.countUnit (s : State) (l : List Block) (ev : Nat) : State :=
  ((l.flatMap (fun x => x.halves.map (·.core))).eraseDups).foldl (fun s k => s.count k none ev 1) s

/-- The blocks of some keys. -/
def State.blockList (s : State) (bs : List Nat) : List Block := bs.filterMap (fun b => s.blocks.get? b)

/-- The issue cycles of a gang: two for more than eight slices (R89). -/
def issueCycles (g : SliceMask) : Nat := if 8 < (bitsOf g).length then 2 else 1

/-- A melded word other than MELDE in which both paths execute (R132 and its example). -/
def Ctx.savesSlot (c : Ctx) : Bool :=
  c.melded && c.src.word.extractLsb' 24 8 != 0x09#8 && (c.exec &&& c.w.mp) != 0 && (c.exec &&& ~~~c.w.mp) != 0

/-- A tick is the second cycle of a quadrant's two-cycle gang (R89). -/
def CoreState.secondCycle (k : CoreState) (quad now : Nat) : Bool :=
  match k.last.getD quad none with
  | some (_, g) => issueCycles g == 2 && k.lastTick.getD quad 0 + 1 == now
  | none => false

/-- The quadrant's slot is used in this tick by the gang; one that issues beside the second half of a two-cycle gang
is no pick of its own, and takes no further cycle when it is itself of more than eight slices (R89, R91; DESIGN CHOICE,
assumption 136: R89 does not say). -/
def Ctx.usesSlot (c : Ctx) (k : CoreState) : CoreState :=
  if k.secondCycle c.w.quad c.now then { k with extraTick := listUpdate k.extraTick c.w.quad (fun _ => c.now) }
  else
    { k with last := listUpdate k.last c.w.quad (fun _ => some (c.key, c.gang))
             lastTick := listUpdate k.lastTick c.w.quad (fun _ => c.now) }

/-- The slots of a picked gang's cycles used and counted as such (R381). -/
def Ctx.takesSlot (c : Ctx) (k : CoreState) : CoreState :=
  (c.usesSlot k).bump (some c.w.quad) 0x03 (issueCycles c.gang)

/-- The slots used, the word retired and the slot saved that an issue counts (R132, R381). -/
def Ctx.tally (c : Ctx) (k : CoreState) : CoreState :=
  ((c.takesSlot k).bump (some c.w.quad) 0x30 1).bump (some c.w.quad) 0x18 (if c.savesSlot then 1 else 0)

/-- The state after a word has issued: the wave's order and quantum, the block's RETI (R361) and charge
(R330), the core's counters, and no gang picked. -/
def Ctx.retire (c : Ctx) (s : State) (f : Wave → Wave) : State :=
  { s with
    cur := none
    waves := s.waves.update c.key (fun w => f (w.counted (s.quantum c.blk)))
    blocks := s.blocks.update c.w.block (fun b =>
      { b with reti := b.reti + 1, charge := b.charge + 384 * issueCycles c.gang })
    cores := s.cores.update c.w.core c.tally }

/-- A gang that could not issue is stalled; it notes the tick since which it is (R23, R90). -/
def Ctx.wait (c : Ctx) (s : State) : State :=
  { s with
    cur := none
    waves := s.waves.update c.key (fun w => w.mapGang c.gang (fun _ x => { x with stalled := some (x.stalled.getD c.now) })) }

/-- The causes that a gang's lanes hold as its trap becomes due: those of the trap, and those of earlier words in
its other lanes (R348). -/
def Wave.joinCauses (w : Wave) (g : SliceMask) (causes : List LaneCause) : List LaneCause :=
  (w.causes.filter (fun c => g.getLsbD (c.lane / 4))).foldl addCause causes

/-- A precise trap becomes due; the lanes of its slices that hold a deferred cause of an earlier word join it (R348). -/
def Wave.fallDue (w : Wave) (t : TrapDue) : Wave :=
  { w with
    due := w.due ++ [{ t with causes := w.joinCauses t.slices t.causes }]
    causes := w.causes.filter (fun x => !t.slices.getLsbD (x.lane / 4)) }

/-- A precise trap of the picked gang becomes due in its wave (R347). The gang of a reissued word stands elsewhere, so
that its trap is returned from as a deferred one (R353). -/
def Ctx.owesTrap (c : Ctx) (causes : List LaneCause) (norply : Bool) (w : Wave) : Wave :=
  (if c.replay then w.dropReplay c.now else w).fallDue ⟨c.gang, !c.replay, c.src, causes, norply, false⟩

/-- A precise trap of the picked gang (R347): TRAP, whose RPLY is written 0, has issued and retires; any other trapping
word has taken no effect and does not retire, and its gang has occupied the quadrant's slot, which is counted and charged
as an issue cycle (R330, R381; DESIGN CHOICE, assumption 134: R63 and R381 do not name the cycle of a word that traps). -/
def Ctx.trapped (c : Ctx) (s : State) (causes : List LaneCause) (norply : Bool) : State :=
  if norply then c.retire s (c.owesTrap causes norply)
  else
    { s with
      cur := none
      waves := s.waves.update c.key (c.owesTrap causes norply)
      blocks := s.blocks.update c.w.block (fun b => { b with charge := b.charge + 384 * issueCycles c.gang })
      cores := s.cores.update c.w.core c.takesSlot }

/-- The state that a word's issue leaves. A cause is recorded per lane (R346), so a trap that no lane
records is none, and the gang goes on. -/
def Ctx.finish (c : Ctx) (s : State) : Res → State
  | .trap [] _ => c.retire s c.advance
  | .trap (x :: rest) norply => c.trapped s (x :: rest) norply
  | .stall => c.wait s
  | .hold s' => c.wait s'
  | .next s' => c.retire s' c.advance
  | .jump s' => c.retire s' (fun w => if c.replay then w.dropReplay c.now else w)

/-- One word issued by the picked gang. -/
def issue (s : State) (f : Ctx → Res) : Host.Outcome State Fault Refusal :=
  match s.ctx? with
  | none => .fault .noGang
  | some c => .next (c.finish s (f c))

/-! ## Decode checks (R43) and poisoned reads (R139, R163) -/

/-- The checks of one word: whether its operands are legal, whether it needs privilege, the v
registers that its fields use (first register and count), those that it reads, the s registers that
it reads, whether every executing lane reads and not only those in `act`, the v and s registers that every
executing lane reads in any case, whether it may stand in a melded region, and the cause that a value gives
before any other effect (R347: the format block of R80, the privilege of R166). -/
structure Checks where
  ok    : Bool
  priv  : Bool := false
  regs  : List (Nat × Nat) := []
  reads : List (Nat × Nat) := []
  sregs : List (Nat × Nat) := []
  every : Bool := false
  laneAll : List (Nat × Nat) := []
  gangAll : List (Nat × Nat) := []
  meld  : Bool := false
  value : Option Cause := none
  deriving Repr

/-- The lanes of a mask in which some register of a list satisfies a test, after renaming. -/
def Ctx.lanesWith (c : Ctx) (m : LaneMask) (l : List (Nat × Nat)) (f : Nat → Nat → Bool) : LaneMask :=
  if l.isEmpty then 0
  else maskWhere 64 (fun i => m.getLsbD i &&
    l.any (fun e => (List.range e.2).any (fun j => f (c.phys (e.1 + j) i) i)))

/-- The first decode cause of a word in code order, then ILLEGAL_MELD, then a cause that R347 lists after it (R43,
R347). -/
def Ctx.decodeFault (c : Ctx) (k : Checks) : Option (List LaneCause) :=
  if !k.ok then some (causesIn c.src .illegalOperand c.exec)
  else if k.priv && !c.w.priv then some (causesIn c.src .privilege c.exec)
  else
    let bad := c.lanesWith c.exec k.regs (fun r _ => decide (8 * c.w.vgran ≤ r))
    if bad != 0 then some (causesIn c.src .regRange bad)
    else if c.melded && !k.meld then some (causesIn c.src .illegalMeld c.exec)
    else k.value.map (fun x => causesIn c.src x c.exec)

/-- A poisoned scalar register stands among some. -/
def Wave.spoisoned (w : Wave) (l : List (Nat × Nat)) : Bool :=
  l.any (fun e => (List.range e.2).any (fun j => w.spoison.contains (e.1 + j)))

/-- The lanes that read a poisoned register: every executing lane for a scalar register, unless the
instruction is guarded and `act` is empty (R139, R141, R163). -/
def Ctx.poisoned (c : Ctx) (k : Checks) : LaneMask :=
  let readers := if k.every then c.exec else c.act
  let hit := fun r l => c.w.vpoison.contains (vKey r l)
  if (readers != 0 && c.w.spoisoned k.sregs) || c.w.spoisoned k.gangAll then c.exec
  else if c.w.vpoison.isEmpty then 0
  else c.lanesWith readers k.reads hit ||| c.lanesWith c.exec k.laneAll hit

/-- The context without some lanes. -/
def Ctx.without (c : Ctx) (m : LaneMask) : Ctx :=
  { c with exec := c.exec &&& ~~~m, act := c.act &&& ~~~m }

/-- A result with deferred causes recorded in the issuing wave. -/
def Ctx.withCauses (c : Ctx) (l : List LaneCause) : Res → Res
  | .next s => .next (s.modWave c.key (fun w => w.record l))
  | .jump s => .jump (s.modWave c.key (fun w => w.record l))
  | r => r

/-- The lane-registers that one unit writes (R262, R269). -/
def unitKeys (u : MemUnit) : List Nat := (List.range (max 1 (u.len / 4))).map (fun i => vKey (u.reg + i) u.lane)

/-- The accesses that a wave's commit buffer holds. -/
def DetWave.ops (d : DetWave) : List MemOp :=
  d.buffer.filterMap (fun b => match b with
    | .mem o => some o
    | _ => none)

/-- An operation that writes nothing in memory. -/
def MemKind.isLoad : MemKind → Bool
  | .load _ _ | .prefetch _ | .probe _ => true
  | _ => false

/-- What a word reads at another core's slot, until the word uses it (R237). -/
def MemKind.isProbe : MemKind → Bool
  | .probe _ => true
  | _ => false

/-- The lane-registers that operations of a wave have yet to write at a commit (R34, R272). -/
def Wave.commitKeys (w : Wave) : List Nat :=
  let ops := w.memOps ++ w.det.toList.flatMap DetWave.ops
  (ops.filter (fun o => o.returns && !o.kind.isLoad)).flatMap (fun o => o.units.flatMap unitKeys)

/-- The registers of ACLD's destination (R211). -/
def acldRegs (u : Ty) : Nat := if u.slot = 32 then 4 else if u.slot = 16 then 2 else 1

/-- The lane-registers that tile operations of a wave have yet to write (R34, R211, R212). -/
def Ctx.tileKeys (c : Ctx) : List Nat :=
  c.half.tops.flatMap (fun t => match t.kind with
    | .acld dst => if t.wave = c.key then (bitsOf t.act).flatMap (fun l =>
        (List.range (acldRegs (mdType2 t.md))).map (fun i => vKey (dst + i) l)) else []
    | _ => [])

/-- The lane-registers that a deterministic wave's loads at empty lines, and what waits behind its tile operations, have
yet to write. -/
def Ctx.emptyKeys (c : Ctx) : List Nat :=
  (c.w.memOps.filter (·.kind.isLoad)).flatMap (fun o => (o.units.filter (fun u => u.phase == .issued)).flatMap unitKeys) ++
    c.tileKeys

/-- The lane-registers that loads and special functions of a deterministic wave write in a later tick. -/
def Wave.laterKeys (w : Wave) : List Nat :=
  (w.memOps.filter (·.kind.isLoad)).flatMap (fun o => (o.units.filter (fun u => u.phase == .arrived)).flatMap unitKeys) ++
    w.specials.flatMap (fun o => o.writes.map (·.1))

/-- The wait of a deterministic wave for a register that only a commit writes: it ends its quantum (R386;
assumption 24). -/
def Ctx.awaitCommit (c : Ctx) (s : State) : Res :=
  .hold (s.modWave c.key (fun w => { w with det := w.det.map (fun d => { d with ended := true }) }))

/-- The gang of a deterministic wave stalls at an empty line: the canonical order passes over it until the next round
(R388). -/
def Wave.skip (w : Wave) (g : SliceMask) : Wave :=
  { w with det := w.det.map (fun d => { d with skips := d.skips ||| g }) }

/-- A word of a deterministic wave that waits for an access at an empty line. -/
def Ctx.awaitLine (c : Ctx) (s : State) : Res := .hold (s.modWave c.key (fun w => w.skip c.gang))

/-- A word reads or writes a lane-register of a list. -/
def Ctx.touches (c : Ctx) (k : Checks) (keys : List Nat) : Bool :=
  let f := fun r l => keys.contains (vKey r l)
  !keys.isEmpty && (c.lanesWith (if k.every then c.exec else c.act) k.regs f != 0 || c.lanesWith c.exec k.laneAll f != 0)

/-- What a word of a deterministic wave does that touches registers that an operation has yet to write (R34, R388): by what
the operation waits for. -/
def Ctx.waitOn (c : Ctx) (s : State) (touches : List Nat → Bool) : Option Res :=
  if !c.w.isDet then none
  else if touches c.w.commitKeys then some (c.awaitCommit s)
  else if touches c.emptyKeys then some (c.awaitLine s)
  else if touches c.w.laterKeys then some .stall
  else none

/-- A deterministic wave's interlock (R34): a word that reads or writes a register that an operation has
yet to write waits. -/
def Ctx.interlock (c : Ctx) (s : State) (k : Checks) : Option Res := c.waitOn s (c.touches k)

/-- One word: its decode checks, then its effect in the lanes that read no poisoned register. -/
def issueChecked (s : State) (k : Ctx → Checks) (f : Ctx → Res) : Host.Outcome State Fault Refusal :=
  issue s (fun c =>
    match c.decodeFault (k c), c.interlock s (k c) with
    | some l, _ => .trap l false
    | none, some r => r
    | none, none =>
      let hw := c.poisoned (k c)
      if hw = 0 then f c
      else if hw = c.exec then .next (s.modWave c.key (fun w => w.record (causesIn c.src .hwErr hw)))
      else c.withCauses (causesIn c.src .hwErr hw) (f (c.without hw)))

/-- A counted operation that no lane performs: it completes no earlier than the next tick (R31). -/
def Ctx.idleOp (c : Ctx) (flag : Option Nat) (w : Wave) : Wave :=
  { w.flagUp flag with specials := w.specials ++ [⟨c.src.ord, c.now, flag, [], 0, c.gang⟩] }

/-- A SETB operation that no lane performs (R31, R296, R298, R308, R411). -/
def Ctx.idleSetB (c : Ctx) (w : Wave) : Wave := c.idleOp (hdrSetB c.src.hdr) w

/-- An effect on the issuing wave alone. -/
def Ctx.onWave (c : Ctx) (s : State) (w : Wave) : Res := .next (s.setWave c.key w)

/-- A word that R43 or R49 makes illegal whatever the state. -/
def illegalWord (s : State) (cause : Cause) : Host.Outcome State Fault Refusal :=
  issue s (fun c => .trap (causesIn c.src cause c.exec) false)

end Sys2Proof.Machine
end

