-- ==== Sys2Proof/WellFormed.lean ====
section
/-! DEFINITION. Well-formed instructions: every operand field holds a code of a class that its
instruction accepts (R36, R39, R41) and every direct field a value in its range. -/

namespace Sys2Proof

/-! ## Classes of vector-class codes -/

/-- Any code but 0xF8 to 0xFF (R36). -/
def VCode.legal : VCode → Bool
  | .bad _ => false
  | _ => true

/-- A v register. -/
def VCode.isV : VCode → Bool
  | .v _ => true
  | _ => false

/-- A predicate. -/
def VCode.isP : VCode → Bool
  | .p _ => true
  | _ => false

/-- A scalar register s0 to s31. -/
def VCode.isS : VCode → Bool
  | .s _ => true
  | _ => false

/-- An even scalar register (R40). -/
def VCode.isEvenS : VCode → Bool
  | .s n => n.val % 2 == 0
  | _ => false

/-- A scalar register whose number is a multiple of four. -/
def VCode.isQuadS : VCode → Bool
  | .s n => n.val % 4 == 0
  | _ => false

/-- The base of a descriptor of twelve scalar registers (R296). -/
def VCode.isDescS : VCode → Bool
  | .s n => n.val % 4 == 0 && decide (n.val ≤ 20)
  | _ => false

/-- An even v register. -/
def VCode.isEvenV : VCode → Bool
  | .v n => n.val % 2 == 0
  | _ => false

/-- The base of a B address and format block: an even s0 to s28 (R201). -/
def VCode.isFmtS : VCode → Bool
  | .s n => n.val % 2 == 0 && decide (n.val ≤ 28)
  | _ => false

/-- The base of a benchmark record: an even s0 to s24 (R201). -/
def VCode.isRecordS : VCode → Bool
  | .s n => n.val % 2 == 0 && decide (n.val ≤ 24)
  | _ => false

/-- A literal. -/
def VCode.isLit : VCode → Bool
  | .lit _ => true
  | _ => false

/-- An even literal (R40). -/
def VCode.isEvenLit : VCode → Bool
  | .lit k => k.val % 2 == 0
  | _ => false

/-- A scalar register or a literal. -/
def VCode.isSLit (c : VCode) : Bool := c.isS || c.isLit

/-- A scalar register, a literal, ZERO, ONE or MONE (R46). -/
def VCode.isConst (c : VCode) : Bool := c.isSLit || c == .zero || c == .one || c == .mone

/-- A predicate, ZERO or ONE (R180). -/
def VCode.isPConst (c : VCode) : Bool := c.isP || c == .zero || c == .one

/-- A uniform address: an even scalar pair or literal pair (R258). -/
def VCode.isBase (c : VCode) : Bool := c.isEvenS || c.isEvenLit

/-- An address operand (R258). -/
def VCode.isAddr : VCode → Bool
  | .v n => n.val % 2 == 0
  | c => c.isBase

/-! ## Classes of scalar-class codes -/

/-- A code that R39 gives an operand. -/
def SCode.legal : SCode → Bool
  | .gap _ => false
  | .special _ => false
  | .top _ => false
  | _ => true

/-- A scalar register. -/
def SCode.isS : SCode → Bool
  | .s _ => true
  | _ => false

/-- An even scalar register (R40). -/
def SCode.isEvenS : SCode → Bool
  | .s n => n.val % 2 == 0
  | _ => false

/-- The opcode of a word is one that R49 reserves. -/
def opcodeIsReserved (w : Word) : Bool := opcodeReserved (fieldOp w)

/-- The well-formed instructions. An event is well formed when it names a unit the package has. -/
def Instr.wellFormed : Instr → Bool
  | .nop => true
  | .mode a b => a.isConst && b.isConst
  | .br a => a.isLit
  | .brx a => a.isEvenLit
  | .brs _ a b => a.isS && b.isLit
  | .brv _ a b => a.isLit && b.isLit
  | .join => true
  | .regang a => a.isS
  | .meld a b => a.isP && (b.isS && b != .s 31)
  | .melde => true
  | .call d a => d.isEvenS && a.isLit
  | .calli d a => d.isEvenS && a.isEvenS
  | .ret a => a.isEvenS
  | .exit a => a.isLit
  | .yield => true
  | .waitf _ => true
  | .mon a => a.isBase
  | .mwait a => a.isLit
  | .trap a => (a.isSLit || a == .zero)
  | .tret => true
  | .phint k => (k.toNat < 3)
  | .idemb => true
  | .ideme => true
  | .ipf level a count => (level.toNat < 3) && a.isSLit && (0 < count.toNat) && (count.toNat ≤ 16)
  | .spawn a b => a.legal && b.isAddr
  | .launch d a => d.isS && a.isBase
  | .gfire a b => a.isBase && b.isEvenS
  | .barb _ => true
  | .barc _ => true
  | .quant => true
  | .digest a count => a.isV && (0 < count.toNat) && (count.toNat < 5)
  | .reservedOpcode word => opcodeIsReserved word
  | .add d a b => d.isV && a.legal && b.legal
  | .sub d a b => d.isV && a.legal && b.legal
  | .mul d a b => d.isV && a.legal && b.legal
  | .fma d a b => d.isV && a.legal && b.legal
  | .fms d a b => d.isV && a.legal && b.legal
  | .fnma d a b => d.isV && a.legal && b.legal
  | .min d a b => d.isV && a.legal && b.legal
  | .max d a b => d.isV && a.legal && b.legal
  | .abs d a => d.isV && a.legal
  | .neg d a => d.isV && a.legal
  | .rcp d a => d.isV && a.legal
  | .rsq d a => d.isV && a.legal
  | .sqrt d a => d.isV && a.legal
  | .exp2 d a => d.isV && a.legal
  | .log2 d a => d.isV && a.legal
  | .tanh d a => d.isV && a.legal
  | .cmpeq d a b => (d.isV || d.isP) && a.legal && b.legal
  | .cmpne d a b => (d.isV || d.isP) && a.legal && b.legal
  | .cmplt d a b => (d.isV || d.isP) && a.legal && b.legal
  | .cmple d a b => (d.isV || d.isP) && a.legal && b.legal
  | .cmpun d a b => (d.isV || d.isP) && a.legal && b.legal
  | .classify d a b => (d.isV || d.isP) && a.legal && b.legal
  | .sel d a b => d.isV && a.legal && b.legal
  | .cvt d a _ => d.isV && a.legal
  | .scale d a b => d.isV && a.legal && b.legal
  | .rint d a => d.isV && a.legal
  | .frxp d a _ => d.isV && a.legal
  | .div d a b => d.isV && a.legal && b.legal
  | .enct d a b => d.isV && a.legal && b.legal
  | .dect d a _ => d.isV && a.legal
  | .mov d a => d.isV && a.legal
  | .fxr d a => (d.isV || d.isS) && (a.isSLit || a == .zero || a == .one || a == .mone)
  | .addc d a b => d.isV && a.legal && b.legal
  | .subb d a b => d.isV && a.legal && b.legal
  | .mulhi d a b => d.isV && a.legal && b.legal
  | .mulw d a b => d.isV && a.legal && b.legal
  | .and d a b => d.isV && a.legal && b.legal
  | .or d a b => d.isV && a.legal && b.legal
  | .xor d a b => d.isV && a.legal && b.legal
  | .not d a => d.isV && a.legal
  | .shl d a b => d.isV && a.legal && b.legal
  | .shr d a b => d.isV && a.legal && b.legal
  | .sha d a b => d.isV && a.legal && b.legal
  | .rot d a b => d.isV && a.legal && b.legal
  | .clz d a => d.isV && a.legal
  | .popc d a => d.isV && a.legal
  | .brev d a => d.isV && a.legal
  | .bfe d a b => d.isV && a.legal && b.legal
  | .bfi d a b => d.isV && a.legal && b.legal
  | .clmul d a b => d.isV && a.legal && b.legal
  | .clmulh d a b => d.isV && a.legal && b.legal
  | .dot4 d a b => d.isV && a.legal && b.legal
  | .dot2 d a b => d.isV && a.legal && b.legal
  | .shfl d a b => d.isV && a.legal && b.legal
  | .shflx d a b => d.isV && a.legal && b.legal
  | .bcast d a b => d.isV && a.legal && (b.isSLit || b == .zero || b == .one || b == .mone)
  | .wred d a op => (d.isV || d.isS) && a.legal && (op.toNat < 6)
  | .wscan d a op => d.isV && a.legal && (op.toNat < 6)
  | .ballot d a => d.isEvenS && a.legal
  | .pand d a b => d.isP && a.isPConst && b.isPConst
  | .por d a b => d.isP && a.isPConst && b.isPConst
  | .pxor d a b => d.isP && a.isPConst && b.isPConst
  | .spsel d a part => d.isV && a.legal && (part.toNat < 3)
  | .spcmp d a b => d.isP && a.legal && b.legal
  | .sadd d a b => d.isS && a.legal && b.legal
  | .ssub d a b => d.isS && a.legal && b.legal
  | .smul d a b => d.isS && a.legal && b.legal
  | .smulh d a b => d.isS && a.legal && b.legal
  | .sand d a b => d.isS && a.legal && b.legal
  | .sor d a b => d.isS && a.legal && b.legal
  | .sxor d a b => d.isS && a.legal && b.legal
  | .sshl d a b => d.isS && a.legal && b.legal
  | .sshr d a b => d.isS && a.legal && b.legal
  | .ssha d a b => d.isS && a.legal && b.legal
  | .smin d a b => d.isS && a.legal && b.legal
  | .smax d a b => d.isS && a.legal && b.legal
  | .scmplt d a b => d.isS && a.legal && b.legal
  | .scmpeq d a b => d.isS && a.legal && b.legal
  | .ssel d a b => d.isS && a.legal && b.legal
  | .smov d a => d.isS && a.legal
  | .sadd64 d a b => d.isEvenS && a.legal && b.legal
  | .ssub64 d a b => d.isEvenS && a.legal && b.legal
  | .smul64 d a b => d.isEvenS && a.legal && b.legal
  | .sshl64 d a b => d.isEvenS && a.legal && b.legal
  | .sshr64 d a b => d.isEvenS && a.legal && b.legal
  | .sclz d a => d.isS && a.legal
  | .spopc d a => d.isS && a.legal
  | .v2s d a b => d.isS && a.isV && b.legal
  | .sysrd d _ => d.isS
  | .syswr _ b => b.legal
  | .scmpltn d a b => d.isS && a.legal && b.legal
  | .pack d a b => d.isS && a.legal && b.legal
  | .unpack d a _ => d.isS && a.legal
  | .pset d a => d.isP && a.legal
  | .sbfe d a b => d.isS && a.legal && b.legal
  | .ld d a _ w => d.isV && a.isAddr && (w.toNat < 5)
  | .lda d a _ w => d.isV && a.isAddr && (w.toNat < 4)
  | .ldx d a _ w => d.isV && a.isAddr && (w.toNat < 4)
  | .st d a w => d.legal && a.isAddr && (w.toNat < 5)
  | .stl d a w => d.legal && a.isAddr && (w.toNat < 4)
  | .stx d a w => d.legal && a.isAddr && (w.toNat < 4)
  | .sti d a w => d.legal && a.isAddr && (w.toNat < 5)
  | .ldsp d a _ w => d.isV && a.legal && (w.toNat < 5)
  | .stsp d a w => d.legal && a.legal && (w.toNat < 5)
  | .ldcl d a _ _ w => d.isV && a.legal && (w.toNat < 5)
  | .stcl d a _ w => d.legal && a.legal && (w.toNat < 5)
  | .ldds d a _ w => d.isV && a.legal && (w.toNat < 5)
  | .stds d a w => d.legal && a.legal && (w.toNat < 5)
  | .gath d a b => d.isV && a.isBase && b.legal
  | .scat d a b => d.legal && a.isBase && b.legal
  | .pfd _ a => a.isAddr
  | .aadd d a b => (d.isV || d == .zero) && a.isAddr && b.legal
  | .amin d a b => (d.isV || d == .zero) && a.isAddr && b.legal
  | .amax d a b => (d.isV || d == .zero) && a.isAddr && b.legal
  | .aand d a b => (d.isV || d == .zero) && a.isAddr && b.legal
  | .aor d a b => (d.isV || d == .zero) && a.isAddr && b.legal
  | .axor d a b => (d.isV || d == .zero) && a.isAddr && b.legal
  | .axchg d a b => (d.isV || d == .zero) && a.isAddr && b.legal
  | .acas d a b => (d.isV || d == .zero) && a.isAddr && b.legal
  | .ainc d a b => (d.isV || d == .zero) && a.isAddr && b.legal
  | .adec d a b => (d.isV || d == .zero) && a.isAddr && b.legal
  | .afadd d a b => (d.isV || d == .zero) && a.isAddr && b.legal
  | .aaddn d a b => (d.isV || d == .zero) && a.isAddr && b.legal
  | .spaadd d a b => (d.isV || d == .zero) && a.isAddr && b.legal
  | .spacas d a b => (d.isV || d == .zero) && a.isAddr && b.legal
  | .fence => true
  | .fencel scope => (scope.toNat < 5)
  | .invl1 => true
  | .lease a => (a.isSLit || a == .zero)
  | .barinit a b => a.isBase && (b.isSLit || b == .one)
  | .barexp a b => a.isBase && b.isSLit
  | .bararr a b => a.isBase && (b.isSLit || b == .one)
  | .bartry d a b => d.isP && a.isBase && (b.isSLit || b == .zero || b == .one)
  | .barwt _ a b => a.isBase && (b.isSLit || b == .zero)
  | .feempty a => a.isAddr
  | .fefull a => a.isAddr
  | .fetest d a => d.isP && a.isAddr
  | .xcpy a => a.isDescS
  | .xtile a => a.isDescS
  | .xgath a => a.isDescS
  | .xscat a => a.isDescS
  | .xred a => a.isDescS
  | .xchain _ a => a.isBase
  | .xcancel _ => true
  | .xstat d _ => d.isQuadS
  | .esnd a => a.isQuadS
  | .ercv a => a.isQuadS
  | .estamp d => d.isEvenS
  | .ewmark d which => d.isEvenS && (which.toNat < 17)
  | .mma d a b => d.isS && a.isEvenV && b.isFmtS
  | .mmar d a b => d.isS && a.isEvenV && b.isFmtS
  | .mmak d a b => d.isS && a.isEvenS && b.isFmtS
  | .mmas d a b => d.isS && a.isEvenV && b.isFmtS
  | .acq d => d.isS
  | .rel d => d.isS
  | .acld d a => d.isV && a.isS
  | .acst d a => d.isS && a.isV
  | .acz d => d.isS
  | .acsp d a => d.isS && a.isEvenS
  | .acwin d a b => d.isS && a.isConst && b.isConst
  | .bmark d a => d.isRecordS && a.isS
  | .acadd d a => d.isS && a.isS
  | .acscl d a => d.isS && (a.isConst || a == .half)
  | .ctxsv d a => d.isEvenS && (a.isSLit || a == .zero || a == .one)
  | .ctxrs d a => d.isS && a.isBase
  | .tlbinv a size => a.isBase && ((16 ≤ size.toNat && size.toNat ≤ 56) || size == 255)
  | .wfreeze d a => d.isS && a.isEvenS
  | .wkill _ => true
  | .easeq d a => d.isQuadS && a.isBase
  | .cntrd d _ => d.isEvenS
  | .cntsel _ a => a.isSLit
  | .issuePick core quad => (core < 144) && (quad < 4)
  | .clauseBegin _ _ => true
  | .fetchFill _ _ => true
  | .regangRelease _ => true
  | .rejoinDeadlock _ => true
  | .barrierComplete _ _ _ => true
  | .specialComplete _ _ => true
  | .loadComplete _ _ _ => true
  | .homeArrival _ _ _ => true
  | .storeAck _ _ _ => true
  | .fillArrival _ => true
  | .leaseExpiry _ _ _ => true
  | .monRegistration _ => true
  | .feWaitTimeout _ => true
  | .mwaitLimitExpiry _ _ => true
  | .barwtLimitExpiry _ _ => true
  | .pageWalkComplete _ _ => true
  | .tileAccept core => (core < 144)
  | .kstepComplete _ _ _ => true
  | .tileOpComplete _ _ _ => true
  | .trapDelivery _ => true
  | .blockPlace _ => true
  | .taskWaveEmit _ _ _ => true
  | .gridComplete _ => true
  | .preempt _ => true
  | .cairnPublish _ => true
  | .cairnResume _ => true
  | .roundEnd _ => true
  | .bucketRefill _ _ => true
  | .segmentPerform _ => true
  | .chainRecordFetch _ => true
  | .esndInject _ => true
  | .ercvAccept _ => true
  | .qnotifyWrite _ _ _ => true
  | .recordStart _ _ => true
  | .launchGrid _ _ _ => true
  | .runPlat _ _ _ => true
  | .bundle _ _ _ => true
  | .copyChain _ _ _ => true
  | .modload _ _ _ => true
  | .modunload _ _ _ => true
  | .moduleRelease _ _ => true
  | .signal _ _ _ => true
  | .waitValue _ _ _ => true
  | .waitValuePoll _ _ _ => true
  | .waitValueTimeout _ _ _ => true
  | .ctxSave _ _ _ => true
  | .ctxRestore _ _ _ => true
  | .ctxAbort _ _ _ => true
  | .nodeIssue _ => true
  | .nodeComplete _ _ => true
  | .nodeFault _ _ => true
  | .nodeRearm _ _ => true
  | .platToken _ => true
  | .replicaMessage _ => true
  | .replicaTimeout _ _ => true
  | .partSet _ => true
  | .funcSet _ => true
  | .bktcfgSet _ _ => true
  | .epcfgSet ep _ => (ep < 4096)
  | .replicaSet _ _ _ => true
  | .freezeEnd _ _ => true
  | .dieReset die => (die < 4)
  | .logRead _ => true
  | .fwStage _ => true
  | .timeSet _ => true
  | .pwrSet _ => true
  | .mailboxUnknownCode _ => true
  | .uploadGo _ => true
  | .uploadComplete => true
  | .rsnClear => true
  | .evackWrite _ _ => true
  | .eventRecordWrite _ => true
  | .registerWrite _ _ => true
  | .start _ => true
  | .readyTimeout => true
  | .firmwareReady _ _ => true
  | .configRequest _ => true
  | .linkTrained port => (port < 16)
  | .dieErrorReset die => (die < 4)
  | .dieReadmit die => (die < 4)
  | .softError _ _ => true
  | .hbmScrub mem => (mem < 8)
  | .powerSample _ => true
  | .thermalTrip _ => true
  | .flr _ => true
  | .lockInterface _ _ => true
  | .startInterface _ => true
  | .stopInterface _ => true
  | .tdispError _ => true
  | .switchOut _ => true
  | .switchIn _ => true
  | .pluginUnload _ => true
  | .packetArrival input _ => (input < 21)
  | .beaconSend link => (link < 25)
  | .beaconArrival input _ => (input < 21)
  | .watermarkStall input => (input < 21)
  | .portFence input => (input < 21)
  | .portUnfence input => (input < 21)
  | .timeBeacon port => (port < 16)
  | .timeBeaconArrival port _ _ _ _ => (port < 16)
  | .ppsPulse => true
  | .ercvComplete _ => true

/-- The instructions that have a word: all but the events. -/
def Instr.encoded : Instr → Bool
  | .nop => true
  | .mode _ _ => true
  | .br _ => true
  | .brx _ => true
  | .brs _ _ _ => true
  | .brv _ _ _ => true
  | .join => true
  | .regang _ => true
  | .meld _ _ => true
  | .melde => true
  | .call _ _ => true
  | .calli _ _ => true
  | .ret _ => true
  | .exit _ => true
  | .yield => true
  | .waitf _ => true
  | .mon _ => true
  | .mwait _ => true
  | .trap _ => true
  | .tret => true
  | .phint _ => true
  | .idemb => true
  | .ideme => true
  | .ipf _ _ _ => true
  | .spawn _ _ => true
  | .launch _ _ => true
  | .gfire _ _ => true
  | .barb _ => true
  | .barc _ => true
  | .quant => true
  | .digest _ _ => true
  | .reservedOpcode _ => true
  | .add _ _ _ => true
  | .sub _ _ _ => true
  | .mul _ _ _ => true
  | .fma _ _ _ => true
  | .fms _ _ _ => true
  | .fnma _ _ _ => true
  | .min _ _ _ => true
  | .max _ _ _ => true
  | .abs _ _ => true
  | .neg _ _ => true
  | .rcp _ _ => true
  | .rsq _ _ => true
  | .sqrt _ _ => true
  | .exp2 _ _ => true
  | .log2 _ _ => true
  | .tanh _ _ => true
  | .cmpeq _ _ _ => true
  | .cmpne _ _ _ => true
  | .cmplt _ _ _ => true
  | .cmple _ _ _ => true
  | .cmpun _ _ _ => true
  | .classify _ _ _ => true
  | .sel _ _ _ => true
  | .cvt _ _ _ => true
  | .scale _ _ _ => true
  | .rint _ _ => true
  | .frxp _ _ _ => true
  | .div _ _ _ => true
  | .enct _ _ _ => true
  | .dect _ _ _ => true
  | .mov _ _ => true
  | .fxr _ _ => true
  | .addc _ _ _ => true
  | .subb _ _ _ => true
  | .mulhi _ _ _ => true
  | .mulw _ _ _ => true
  | .and _ _ _ => true
  | .or _ _ _ => true
  | .xor _ _ _ => true
  | .not _ _ => true
  | .shl _ _ _ => true
  | .shr _ _ _ => true
  | .sha _ _ _ => true
  | .rot _ _ _ => true
  | .clz _ _ => true
  | .popc _ _ => true
  | .brev _ _ => true
  | .bfe _ _ _ => true
  | .bfi _ _ _ => true
  | .clmul _ _ _ => true
  | .clmulh _ _ _ => true
  | .dot4 _ _ _ => true
  | .dot2 _ _ _ => true
  | .shfl _ _ _ => true
  | .shflx _ _ _ => true
  | .bcast _ _ _ => true
  | .wred _ _ _ => true
  | .wscan _ _ _ => true
  | .ballot _ _ => true
  | .pand _ _ _ => true
  | .por _ _ _ => true
  | .pxor _ _ _ => true
  | .spsel _ _ _ => true
  | .spcmp _ _ _ => true
  | .sadd _ _ _ => true
  | .ssub _ _ _ => true
  | .smul _ _ _ => true
  | .smulh _ _ _ => true
  | .sand _ _ _ => true
  | .sor _ _ _ => true
  | .sxor _ _ _ => true
  | .sshl _ _ _ => true
  | .sshr _ _ _ => true
  | .ssha _ _ _ => true
  | .smin _ _ _ => true
  | .smax _ _ _ => true
  | .scmplt _ _ _ => true
  | .scmpeq _ _ _ => true
  | .ssel _ _ _ => true
  | .smov _ _ => true
  | .sadd64 _ _ _ => true
  | .ssub64 _ _ _ => true
  | .smul64 _ _ _ => true
  | .sshl64 _ _ _ => true
  | .sshr64 _ _ _ => true
  | .sclz _ _ => true
  | .spopc _ _ => true
  | .v2s _ _ _ => true
  | .sysrd _ _ => true
  | .syswr _ _ => true
  | .scmpltn _ _ _ => true
  | .pack _ _ _ => true
  | .unpack _ _ _ => true
  | .pset _ _ => true
  | .sbfe _ _ _ => true
  | .ld _ _ _ _ => true
  | .lda _ _ _ _ => true
  | .ldx _ _ _ _ => true
  | .st _ _ _ => true
  | .stl _ _ _ => true
  | .stx _ _ _ => true
  | .sti _ _ _ => true
  | .ldsp _ _ _ _ => true
  | .stsp _ _ _ => true
  | .ldcl _ _ _ _ _ => true
  | .stcl _ _ _ _ => true
  | .ldds _ _ _ _ => true
  | .stds _ _ _ => true
  | .gath _ _ _ => true
  | .scat _ _ _ => true
  | .pfd _ _ => true
  | .aadd _ _ _ => true
  | .amin _ _ _ => true
  | .amax _ _ _ => true
  | .aand _ _ _ => true
  | .aor _ _ _ => true
  | .axor _ _ _ => true
  | .axchg _ _ _ => true
  | .acas _ _ _ => true
  | .ainc _ _ _ => true
  | .adec _ _ _ => true
  | .afadd _ _ _ => true
  | .aaddn _ _ _ => true
  | .spaadd _ _ _ => true
  | .spacas _ _ _ => true
  | .fence => true
  | .fencel _ => true
  | .invl1 => true
  | .lease _ => true
  | .barinit _ _ => true
  | .barexp _ _ => true
  | .bararr _ _ => true
  | .bartry _ _ _ => true
  | .barwt _ _ _ => true
  | .feempty _ => true
  | .fefull _ => true
  | .fetest _ _ => true
  | .xcpy _ => true
  | .xtile _ => true
  | .xgath _ => true
  | .xscat _ => true
  | .xred _ => true
  | .xchain _ _ => true
  | .xcancel _ => true
  | .xstat _ _ => true
  | .esnd _ => true
  | .ercv _ => true
  | .estamp _ => true
  | .ewmark _ _ => true
  | .mma _ _ _ => true
  | .mmar _ _ _ => true
  | .mmak _ _ _ => true
  | .mmas _ _ _ => true
  | .acq _ => true
  | .rel _ => true
  | .acld _ _ => true
  | .acst _ _ => true
  | .acz _ => true
  | .acsp _ _ => true
  | .acwin _ _ _ => true
  | .bmark _ _ => true
  | .acadd _ _ => true
  | .acscl _ _ => true
  | .ctxsv _ _ => true
  | .ctxrs _ _ => true
  | .tlbinv _ _ => true
  | .wfreeze _ _ => true
  | .wkill _ => true
  | .easeq _ _ => true
  | .cntrd _ _ => true
  | .cntsel _ _ => true
  | .issuePick _ _ => false
  | .clauseBegin _ _ => false
  | .fetchFill _ _ => false
  | .regangRelease _ => false
  | .rejoinDeadlock _ => false
  | .barrierComplete _ _ _ => false
  | .specialComplete _ _ => false
  | .loadComplete _ _ _ => false
  | .homeArrival _ _ _ => false
  | .storeAck _ _ _ => false
  | .fillArrival _ => false
  | .leaseExpiry _ _ _ => false
  | .monRegistration _ => false
  | .feWaitTimeout _ => false
  | .mwaitLimitExpiry _ _ => false
  | .barwtLimitExpiry _ _ => false
  | .pageWalkComplete _ _ => false
  | .tileAccept _ => false
  | .kstepComplete _ _ _ => false
  | .tileOpComplete _ _ _ => false
  | .trapDelivery _ => false
  | .blockPlace _ => false
  | .taskWaveEmit _ _ _ => false
  | .gridComplete _ => false
  | .preempt _ => false
  | .cairnPublish _ => false
  | .cairnResume _ => false
  | .roundEnd _ => false
  | .bucketRefill _ _ => false
  | .segmentPerform _ => false
  | .chainRecordFetch _ => false
  | .esndInject _ => false
  | .ercvAccept _ => false
  | .qnotifyWrite _ _ _ => false
  | .recordStart _ _ => false
  | .launchGrid _ _ _ => false
  | .runPlat _ _ _ => false
  | .bundle _ _ _ => false
  | .copyChain _ _ _ => false
  | .modload _ _ _ => false
  | .modunload _ _ _ => false
  | .moduleRelease _ _ => false
  | .signal _ _ _ => false
  | .waitValue _ _ _ => false
  | .waitValuePoll _ _ _ => false
  | .waitValueTimeout _ _ _ => false
  | .ctxSave _ _ _ => false
  | .ctxRestore _ _ _ => false
  | .ctxAbort _ _ _ => false
  | .nodeIssue _ => false
  | .nodeComplete _ _ => false
  | .nodeFault _ _ => false
  | .nodeRearm _ _ => false
  | .platToken _ => false
  | .replicaMessage _ => false
  | .replicaTimeout _ _ => false
  | .partSet _ => false
  | .funcSet _ => false
  | .bktcfgSet _ _ => false
  | .epcfgSet _ _ => false
  | .replicaSet _ _ _ => false
  | .freezeEnd _ _ => false
  | .dieReset _ => false
  | .logRead _ => false
  | .fwStage _ => false
  | .timeSet _ => false
  | .pwrSet _ => false
  | .mailboxUnknownCode _ => false
  | .uploadGo _ => false
  | .uploadComplete => false
  | .rsnClear => false
  | .evackWrite _ _ => false
  | .eventRecordWrite _ => false
  | .registerWrite _ _ => false
  | .start _ => false
  | .readyTimeout => false
  | .firmwareReady _ _ => false
  | .configRequest _ => false
  | .linkTrained _ => false
  | .dieErrorReset _ => false
  | .dieReadmit _ => false
  | .softError _ _ => false
  | .hbmScrub _ => false
  | .powerSample _ => false
  | .thermalTrip _ => false
  | .flr _ => false
  | .lockInterface _ _ => false
  | .startInterface _ => false
  | .stopInterface _ => false
  | .tdispError _ => false
  | .switchOut _ => false
  | .switchIn _ => false
  | .pluginUnload _ => false
  | .packetArrival _ _ => false
  | .beaconSend _ => false
  | .beaconArrival _ _ => false
  | .watermarkStall _ => false
  | .portFence _ => false
  | .portUnfence _ => false
  | .timeBeacon _ => false
  | .timeBeaconArrival _ _ _ _ _ => false
  | .ppsPulse => false
  | .ercvComplete _ => false

end Sys2Proof
end

