-- ==== Sys2Proof/Machine/Operands.lean ====
section
/-! DEFINITION. Every operand form: vector-class sources (R36 to R38, R40, R42, R462), scalar-class
sources (R39), destinations (R41), addresses (R258), and the decode checks that each form needs. -/

namespace Sys2Proof

/-- The register number of a v code. -/
def VCode.vNum : VCode → Nat
  | .v n => n
  | _ => 0

/-- The register number of an s code. -/
def VCode.sNum : VCode → Nat
  | .s n => n
  | _ => 0

/-- The number of a p code. -/
def VCode.pNum : VCode → Nat
  | .p n => n
  | _ => 0

/-- The slot number of a literal code. -/
def VCode.litNum : VCode → Nat
  | .lit n => n
  | _ => 0

/-- The register number of a scalar-class s code. -/
def SCode.sNum : SCode → Nat
  | .s n => n
  | _ => 0

end Sys2Proof

namespace Sys2Proof.Machine

/-! ## Checks of several fields -/

/-- No check to make; the word may stand in a melded region. -/
def Checks.none : Checks := { ok := true, meld := true }

/-- The checks of two fields of one word. -/
def Checks.and (x y : Checks) : Checks :=
  { ok := x.ok && y.ok, priv := x.priv || y.priv, regs := x.regs ++ y.regs,
    reads := x.reads ++ y.reads, sregs := x.sregs ++ y.sregs, every := x.every || y.every,
    laneAll := x.laneAll ++ y.laneAll, gangAll := x.gangAll ++ y.gangAll, meld := x.meld && y.meld, value := x.value.or y.value }

/-- Every executing lane reads the registers of these fields, whatever the guard. -/
def Checks.readByAll (x : Checks) : Checks := { x with reads := [], sregs := [], laneAll := x.reads, gangAll := x.sregs }

/-- A condition that raises ILLEGAL_OPERAND when it fails. -/
def Checks.when (b : Bool) : Checks := { ok := b, meld := true }

/-- Every executing lane reads, whatever the guard. -/
def Checks.unguarded : Checks := { ok := true, every := true, meld := true }

/-- The word may not stand in a melded region (R130). -/
def Checks.unmelded : Checks := { ok := true, meld := false }

/-- The word needs privilege and may not stand in a melded region (R49, R130). -/
def Checks.privileged : Checks := { ok := true, priv := true, every := true, meld := false }

/-- The checks of a list of fields. -/
def Checks.all (l : List Checks) : Checks := l.foldr Checks.and Checks.none

/-! ## Vector-class sources -/

/-- How an operand is read: as a value of a type, as a raw 32-bit pattern (R462), or as raw data of a
number of 32-bit words (R259, R262). -/
inductive SrcKind where
  | typed (t : Ty)
  | raw
  | data (words : Nat)
  deriving DecidableEq, Repr

/-- The 32-bit words that an operand reads. -/
def SrcKind.words : SrcKind → Nat
  | .typed t => if t.is64 then 2 else 1
  | .raw => 1
  | .data n => n

/-- A register or slot number that an operand of some words may name (R40, R259). -/
def evenFor (words n : Nat) : Bool := n % words == 0

/-- A constant code as an element of a type (R37); `e` is 0, 1, 2 or 3 for ZERO, ONE, MONE, HALF. -/
def constElem (t : Ty) (e : Nat) : Nat :=
  if e = 0 then 0
  else if t.isInt then (if e = 1 then 1 else 2 ^ t.bits - 1)
  else
    match t with
    | .t8 => if e = 1 then 0x40 else if e = 2 then 0xC0 else 0x30
    | .t6 => if e = 1 then 0x10 else if e = 2 then 0x30 else 0x0C
    | _ =>
      if e = 1 then t.bias * 2 ^ t.fracBits
      else if e = 2 then t.signBit true + t.bias * 2 ^ t.fracBits
      else (t.bias - 1) * 2 ^ t.fracBits

/-- A constant code's pattern: typed and replicated (R37), or that of R39. -/
def constUnit (k : SrcKind) (e : Nat) : Nat :=
  match k with
  | .typed t => unitOf t (List.replicate t.count (constElem t e))
  | .raw => if e = 2 then 0xFFFFFFFF else if e = 3 then 0x3F000000 else e
  | .data n =>
    if n = 2 then (if e = 2 then 0xFFFFFFFFFFFFFFFF else if e = 3 then 0x3FE0000000000000 else e)
    else if e = 2 then 0xFFFFFFFF else if e = 3 then 0x3F000000 else e

/-- A source code that the operand accepts (R36, R37, R40, R42, R259). -/
def Ctx.srcOk (c : Ctx) (k : SrcKind) : VCode → Bool
  | .v n => evenFor k.words n
  | .s n => evenFor k.words n && decide (n.val + k.words ≤ 32)
  | .lit j => evenFor k.words j && c.litOk j k.words
  | .half => match k with
    | .typed t => !t.isInt
    | .data n => decide (n ≤ 2)
    | .raw => true
  | .bad _ => false
  | _ => match k with
    | .data n => decide (n ≤ 2)
    | _ => true

/-- The value of a source operand in a lane (R36 to R38, R42). A 32-bit special or p code read as a
64-bit operand is extended with zeros (assumption 22). -/
def Ctx.operand (c : Ctx) (k : SrcKind) (code : VCode) (l : Nat) : Nat :=
  match code with
  | .v n => c.vread n k.words l
  | .s n => c.w.sread n k.words
  | .lit j => c.lit j k.words l
  | .zero => constUnit k 0
  | .one => constUnit k 1
  | .mone => constUnit k 2
  | .half => constUnit k 3
  | .laneid => l
  | .sliceid => l / 4
  | .waveid => c.w.waveid.toNat % 2 ^ 32
  | .timelo => c.now % 2 ^ 32
  | .p n => if (c.w.p.get n).getLsbD l then 1 else 0
  | .bad _ => 0

/-- The v registers that a code names. -/
def vRegs (words : Nat) : VCode → List (Nat × Nat)
  | .v n => [(n.val, words)]
  | _ => []

/-- The s registers that a code names. -/
def sRegs (words : Nat) : VCode → List (Nat × Nat)
  | .s n => [(n.val, words)]
  | _ => []

/-- The checks of a source field. -/
def Ctx.source (c : Ctx) (k : SrcKind) (code : VCode) : Checks :=
  { ok := c.srcOk k code, regs := vRegs k.words code, reads := vRegs k.words code,
    sregs := sRegs k.words code, meld := true }

/-- The checks of a source field that accepts only some codes. -/
def Ctx.sourceOf (c : Ctx) (f : VCode → Bool) (k : SrcKind) (code : VCode) : Checks :=
  (Checks.when (f code)).and (c.source k code)

/-! ## Destinations (R41) -/

/-- The checks of a v destination of some registers. -/
def dstV (words : Nat) (code : VCode) : Checks :=
  { ok := code.isV && evenFor words code.vNum, regs := vRegs words code, meld := true }

/-- The checks of a v destination that is also a source. -/
def dstVRead (words : Nat) (code : VCode) : Checks :=
  { ok := code.isV && evenFor words code.vNum, regs := vRegs words code, reads := vRegs words code,
    meld := true }

/-- The checks of an s destination of some registers (s0 to s31). -/
def dstS (words : Nat) (code : VCode) : Checks :=
  { ok := code.isS && evenFor words code.sNum, meld := true }

/-- The checks of a p destination. -/
def dstP (code : VCode) : Checks := Checks.when code.isP

/-! ## Addresses (R258) -/

/-- The checks of an address operand. -/
def Ctx.address (c : Ctx) (code : VCode) : Checks := c.sourceOf VCode.isAddr (.data 2) code

/-- The checks of an address that is an even s or literal code. -/
def Ctx.baseAddress (c : Ctx) (code : VCode) : Checks := c.sourceOf VCode.isBase (.data 2) code

/-- The 64-bit address of a lane. -/
def Ctx.addressOf (c : Ctx) (code : VCode) (l : Nat) : Nat := c.operand (.data 2) code l

/-! ## Scalar-class operands (R39) -/

/-- A scalar-class source code that is accepted, as 32 or 64 bits. -/
def Ctx.scalarOk (c : Ctx) (wide : Bool) : SCode → Bool
  | .s n => !wide || n.val % 2 == 0
  | .lit j => (!wide || j.val % 2 == 0) && c.litOk j (if wide then 2 else 1)
  | .zero | .one | .mone | .half | .waveid | .timelo => true
  | _ => false

/-- The value of a scalar-class source (R39). -/
def Ctx.scalar (c : Ctx) (wide : Bool) : SCode → Nat
  | .s n => c.w.sread n (if wide then 2 else 1)
  | .lit j => c.lit j (if wide then 2 else 1) 0
  | .one => 1
  | .mone => if wide then 0xFFFFFFFFFFFFFFFF else 0xFFFFFFFF
  | .half => if wide then 0x3FE0000000000000 else 0x3F000000
  | .waveid => c.w.waveid.toNat % 2 ^ 32
  | .timelo => c.now % 2 ^ 32
  | _ => 0

/-- The s registers that a scalar-class code names. -/
def scalarRegs (wide : Bool) : SCode → List (Nat × Nat)
  | .s n => [(n.val, if wide then 2 else 1)]
  | _ => []

/-- The checks of a scalar-class source. -/
def Ctx.scalarSource (c : Ctx) (wide : Bool) (code : SCode) : Checks :=
  { ok := c.scalarOk wide code, sregs := scalarRegs wide code, meld := true }

/-- The checks of a scalar-class destination. -/
def scalarDst (wide : Bool) (code : SCode) : Checks :=
  Checks.when (code.isS && (!wide || code.sNum % 2 == 0))

end Sys2Proof.Machine
end

