-- ==== Sys2Proof/Machine/Translate.lean ====
section
/-! DEFINITION. Addresses: the windows of R218 to R225, physical addresses (R226, R227), the page walk
and its outcomes (R229 to R233), and accesses that the control die and the engines make for a
function (R463). -/

namespace Sys2Proof.Machine

/-! ## Cores, clusters, quadrants -/

/-- The die of a core: cores are numbered 36 × die position + physical core (R108). -/
def dieOf (core : Nat) : Nat := core / 36

/-- The cluster of a core, numbered 9 × die position + cluster (R9). -/
def clusterOf (core : Nat) : Nat := core / 4

/-- A core that has held no state yet (R15, R381). -/
def CoreState.empty : CoreState :=
  { eases := [], counters := List.replicate 8 ⟨0, 0, 0⟩, tlb := [], l1 := [], reads := [], frozen := false, frozenChans := [],
    last := [none, none, none, none], lastTick := [0, 0, 0, 0], extraTick := [0, 0, 0, 0], ready := [[], [], [], []]
    accepted := none }

/-- A core's own state. -/
def State.core (s : State) (k : Nat) : CoreState := s.cores.getD k CoreState.empty

/-- A core's own state changed. -/
def State.modCore (s : State) (k : Nat) (f : CoreState → CoreState) : State :=
  { s with cores := s.cores.set k (f (s.core k)) }

/-- A die changed. -/
def State.modDie (s : State) (d : Nat) (f : Die → Die) : State := { s with dies := listUpdate s.dies d f }

/-- A function's registers at reset (R418, R311: BKTCFG 0x0000_0010_0000_0800; R315). -/
def Func.reset : Func :=
  { part := none, root := 0, qspace := 0, prioceil := 0, retry := false, frozen := true,
    tdst := .configUnlocked, stream := 0, key := 0, bktcfg := 0x0000001000000800#64, replica := [],
    rlimit := 0, evbase := 0, evsz := 4, even := false, evprod := 0, evcons := 0, evvec := 0,
    evirq := false, evwait := [], evseq := 0, faults := [], queues := [], msix := [], msixPend := [],
    active := false, saving := false, switching := none, retire := none }

/-- A function. -/
def State.func (s : State) (f : Nat) : Func := s.funcs.getD f Func.reset

/-- A function changed. -/
def State.modFunc (s : State) (f : Nat) (g : Func → Func) : State :=
  { s with funcs := s.funcs.set f (g (s.func f)) }

/-! ## Physical addresses (R226, R227) -/

/-- The named place of a physical address: memory die × 2^36 + byte within the die, or none when a bit
that must be zero is set (R226). -/
def namedOf (pa : Nat) : Option Nat :=
  if natBits pa 47 5 ≠ 0 ∨ natBits pa 39 7 ≠ 0 then none
  else if natBits pa 46 1 = 0 then some (pa % 2 ^ 39)
  else
    let die := natBits pa 11 3 ^^^ natBits pa 14 3 ^^^ natBits pa 20 3 ^^^ natBits pa 29 3
    some (die * 2 ^ 36 + natBits pa 14 25 * 2048 + pa % 2048)

/-- A physical address lies in a grant; the grants are ranges of physical address (R227). -/
def granted (p : Partition) (pa : Nat) : Bool :=
  p.grants.any (fun g => decide (g.1 ≤ pa) && decide (pa < g.1 + g.2))

/-- Bytes of HBM at a named place (R2). -/
def State.hbmLoad (s : State) (a n : Nat) : Nat := s.hbm.load a n

/-! ## Waves changed together, and what a store wakes (R286, R287, R327) -/

/-- The waves that satisfy a test changed. -/
def State.mapWaves (s : State) (sel : Nat → Wave → Bool) (f : Wave → Wave) : State :=
  { s with waves := s.waves.mapVals (fun k w => if sel k w then f w else w) }

/-- Two runs of bytes at locations share a byte. -/
def Loc.overlaps (x : Loc) (n : Nat) (y : Loc) (m : Nat) : Bool :=
  let hit := fun a b : Nat => decide (a < b + m) && decide (b < a + n)
  match x, y with
  | .global a _, .global b _ => hit a b
  | .scratch b h o, .scratch b' h' o' => b == b' && h == h' && hit o o'
  | .region i o, .region i' o' => i == i' && hit o o'
  | .dieStore i o, .dieStore i' o' => i == i' && hit o o'
  | .priv a, .priv b => hit a b
  | _, _ => false

/-- The clause after the one a slice stands in; its words are kept while it is parked. -/
def Slice.nextClause (x : Slice) : DWord := x.pc + 4#64 * BitVec.ofNat 64 (hdrLen (x.cl.headD 0))

/-- A slice that is parked no longer: at its next word, or at the next clause after the last. A held slice stays where
it stands until TRET (R464). -/
def Slice.goOn (x : Slice) : Slice :=
  let y := { x with park := .none, woken := none }
  if !x.held && !x.cl.isEmpty && decide (hdrBody (x.cl.headD 0) < x.word) then y.goto x.nextClause else y

/-- The slices of a wave that satisfy a test parked no longer. -/
def Wave.unparkIf (w : Wave) (f : Slice → Bool) : Wave :=
  { w with slices := w.slices.map (fun x => if f x then x.goOn else x) }

/-- The slices of a wave whose park satisfies a test parked no longer. -/
def Wave.unpark (w : Wave) (f : Park → Bool) : Wave := w.unparkIf (fun x => f x.park)

/-- Parked at MWAIT. -/
def Park.isMwait : Park → Bool
  | .mwait _ _ _ => true
  | _ => false

/-- Parked at BARWT. -/
def Park.isBarwt : Park → Bool
  | .barwt _ _ _ _ _ => true
  | _ => false

/-- Parked at an MWAIT whose limit has not passed (R287). -/
def Park.mwaitOpen (now : Nat) : Park → Bool
  | .mwait _ _ deadline => decide (now < deadline)
  | _ => false

/-- A slice waits at MWAIT for the wave's own monitor, or, held by a handler, for the one kept for it; a limit does not
run while the slice is held (R464). -/
def Slice.awaits (x : Slice) (held : Bool) (now : Nat) : Bool :=
  x.held == held && (if held then x.park.isMwait else x.park.mwaitOpen now)

/-- A monitor that fires: a gang parked at MWAIT goes on and the monitor is disarmed; a deterministic
wave goes on only after a commit (R390). A limit that has passed comes first (R287). -/
def Wave.fireMonitor (w : Wave) (now : Nat) : Wave :=
  if w.slices.any (fun x => x.awaits false now) && !w.isDet
  then { w.unparkIf (fun x => x.awaits false now) with monitor := .off }
  else { w with monitor := .fired }

/-- The monitor kept while the wave is in its handler fires (R464). -/
def Wave.fireHeld (w : Wave) (now : Nat) : Wave :=
  if w.slices.any (fun x => x.awaits true now) && !w.isDet
  then { w.unparkIf (fun x => x.awaits true now) with heldMonitor := some .off }
  else { w with heldMonitor := some .fired }

/-- A monitor is armed on a line that a store of `n` bytes reaches. -/
def Monitor.hit (m : Monitor) (l : Loc) (n : Nat) : Bool :=
  match m with
  | .armed k => l.overlaps n k 128
  | _ => false

/-- A block's half. -/
def State.half (s : State) (b h : Nat) : Half :=
  match s.blocks.get? b with
  | some x => x.halves.getD h Half.none
  | none => Half.none

/-- A location in the core's own scratchpad or its die's, which no message between agents reaches (R252). -/
def State.nearLoc (s : State) (core : Nat) (l : Loc) : Bool :=
  match l with
  | .scratch b h _ => (s.half b h).core == core
  | .region k _ => match s.regions.get? k with
    | some r => r.core == core
    | none => true
  | .dieStore _ _ => true
  | _ => false

/-- A message sent to or from a location at a tick has arrived: after more than 8 ticks, or, on chip, after one
(R237, R252). -/
def State.reached (s : State) (core : Nat) (l : Loc) (t : Nat) : Bool :=
  if s.nearLoc core l then decide (t < s.time) else decide (t + 8 < s.time)

/-- The monitors that a store of `n` bytes at a location fires: at once in the core's own scratchpad, and elsewhere with
news that is on its way to the core (R237). -/
def State.fireMonitors (s : State) (l : Loc) (n : Nat) : State :=
  (s.mapWaves (fun _ w => w.monitor.hit l n) (fun w =>
      if s.nearLoc w.core l then w.fireMonitor s.time else { w with monitor := .firing l s.time })).mapWaves
    (fun _ w => w.heldMonitor.any (fun m => m.hit l n)) (fun w =>
      if s.nearLoc w.core l then w.fireHeld s.time else { w with heldMonitor := some (.firing l s.time) })

/-- What follows a store of `n` bytes of global memory: monitors fire, and a WAIT_VALUE that watches device memory is
told to read again (R327). -/
def State.wakeGlobal (s : State) (l : Loc) (n : Nat) : State :=
  let s := s.fireMonitors l n
  { s with funcs := s.funcs.mapVals (fun _ f =>
      { f with queues := f.queues.mapVals (fun _ q =>
          if q.loc then { q with recs := q.recs.map (fun r =>
            match r.stage with
            | .waiting _ => { r with poke := true }
            | _ => r) } else q) }) }

/-! ## The page walk (R229 to R232) -/

/-- What one access needs of its page. -/
structure Need where
  write : Bool
  fetch : Bool
  priv  : Bool
  deriving DecidableEq, Repr


/-- The page size of a level, as a power of two (R229). -/
def levelBits (level : Nat) : Nat := 16 + 9 * level

/-- An entry that is valid but malformed at its level (R230, R231). -/
def pteMalformed (level pte : Nat) : Bool :=
  let leaf := natBits pte 1 1 == 1
  natBits pte 63 1 != 0 || natBits pte 10 2 != 0 || natBits pte 5 1 != 0 ||
  (leaf && (decide (3 ≤ level) || decide (2 ≤ natBits pte 8 2) ||
    natBits pte 12 4 != 0 || natBits pte 12 (levelBits level - 12) != 0)) ||
  (!leaf && (level == 0 || natBits pte 2 8 != 0))

/-- The read of one level's entry (R229): the walk's outcome, or the physical address of the next table. -/
def walkEntry (s : State) (p : Partition) (va level table : Nat) : Walk ⊕ Nat :=
  let index := natBits va (levelBits level) (if level = 4 then 4 else 9)
  match namedOf (table + 8 * index) with
  | none => .inl (.outside (table + 8 * index))
  | some place =>
    let pte := s.hbmLoad place 8
    if natBits pte 0 1 = 0 then .inl (.notPresent false)
    else if pteMalformed level pte then .inl (.notPresent true)
    else if natBits pte 1 1 = 0 then
      let next := natBits pte 12 40 * 4096
      if (namedOf next).isSome && granted p next then .inr next else .inl (.outside next)
    else
      let bits := levelBits level
      let pa := natBits pte bits (52 - bits) * 2 ^ bits
      .inl (if (namedOf pa).isSome && granted p pa then .leaf pte place (va / 2 ^ bits * 2 ^ bits) bits else .outside pa)

/-- The walk from the entry of one level down (R229); `table` is the physical address of its table. -/
def walkFrom (s : State) (p : Partition) (va : Nat) : Nat → Nat → Walk
  | 0, table => match walkEntry s p va 0 table with
    | .inl w => w
    | .inr _ => .notPresent true
  | level + 1, table => match walkEntry s p va (level + 1) table with
    | .inl w => w
    | .inr next => walkFrom s p va level next

/-- The partition whose grants a function's accesses use. -/
def State.partOf (s : State) (f : Nat) : Option Partition := (s.func f).part.bind (fun k => s.parts.get? k)

/-- The walk of a global virtual address in a function's address space (R229), all its levels read at once. -/
def State.walk (s : State) (f : Nat) (va : Nat) : Walk :=
  match s.partOf f with
  | none => .notPresent false
  | some p => walkFrom s p (va % 2 ^ 56) 4 (s.func f).root.toNat

/-- A leaf allows an access (R232). -/
def leafAllows (pte : Nat) (n : Need) : Bool :=
  (n.priv || natBits pte 4 1 == 1) && (!n.write || natBits pte 2 1 == 1) &&
  (!n.fetch || natBits pte 3 1 == 1)

/-- The physical address that a leaf gives a virtual address (R229). -/
def leafAddress (pte bits va : Nat) : Nat :=
  natBits pte bits (52 - bits) * 2 ^ bits + va % 2 ^ bits

/-- A and, for a write, D set in a page-table entry by an atomic OR at its home, when they are clear (R232). The OR
takes its place in its line's order as any atomic does (R286). -/
def State.markPage (s : State) (place : Nat) (write : Bool) : State :=
  let pte := s.hbmLoad place 8
  let new := pte ||| 0x40 ||| (if write then 0x80 else 0)
  if new = pte then s else ({ s with hbm := s.hbm.store place 8 new }).wakeGlobal (.global place false) 8

/-- A translation that is done: the named place and whether the page is uncached, or a cause with
MALF and whether it is a violation of the grant (R227, R231). -/
inductive Translated where
  | ok (place : Nat) (uncached : Bool)
  | fault (cause : Cause) (malf outside : Bool)
  deriving DecidableEq, Repr

/-- What a walk's outcome gives one access (R231, R232). -/
def Walk.result (w : Walk) (va : Nat) (n : Need) : Translated :=
  match w with
  | .notPresent malf => .fault .pageNotPresent malf false
  | .outside _ => .fault .permission false true
  | .leaf pte _ _ bits =>
    if leafAllows pte n then
      match namedOf (leafAddress pte bits va) with
      | some a => .ok a (natBits pte 8 2 == 1)
      | none => .fault .permission false true
    else .fault .permission false false

/-! ## TLBs (R233, R235) -/

/-- The entry of a TLB that maps an address of a function. -/
def tlbFind (l : List TlbEntry) (f va : Nat) : Option TlbEntry :=
  l.find? (fun e => e.func == f && e.base == va / 2 ^ e.bits * 2 ^ e.bits)

/-- A TLB with an entry added, the oldest dropped beyond its size. -/
def tlbAdd (size : Nat) (l : List TlbEntry) (e : TlbEntry) : List TlbEntry :=
  (e :: l.filter (fun x => !(x.func == e.func && x.base == e.base && x.bits == e.bits))).take size

/-- The function's partition is granted the page of a TLB entry (R8, R22, R227): an entry of an earlier grant serves
no access, which walks again and finds its violation. -/
def State.tlbGranted (s : State) (e : TlbEntry) : Bool :=
  match s.partOf e.func with
  | some p => granted p (natBits e.pte.toNat e.bits (52 - e.bits) * 2 ^ e.bits)
  | none => false

/-- A hit in the core's L1 TLB or its die's L2 TLB. A write through an entry whose D bit is still clear
walks again, so that the walker sets D first (R232). -/
def State.tlbHit (s : State) (core f va : Nat) (write : Bool) : Option TlbEntry :=
  let e := match tlbFind (s.core core).tlb f va with
    | some e => some e
    | none => tlbFind (s.dies.getD (dieOf core) Die.reset).l2tlb f va
  e.filter (fun e => (!write || e.pte.getLsbD 7) && s.tlbGranted e)

/-- An entry put into a core's L1 TLB and its die's L2 TLB (R233). -/
def State.tlbEnter (s : State) (core : Nat) (e : TlbEntry) : State :=
  (s.modCore core (fun c => { c with tlb := tlbAdd 512 c.tlb e })).modDie (dieOf core) (fun d =>
    { d with l2tlb := tlbAdd 32768 d.l2tlb e })

/-- What a TLB entry gives one access. -/
def TlbEntry.result (e : TlbEntry) (va : Nat) (n : Need) : Translated :=
  Walk.result (.leaf e.pte.toNat 0 e.base e.bits) va n

/-! ## Translations for fetches, engines and the control die (R233) -/

/-- A walk's leaf maps an address. -/
def Walk.covers (w : Walk) (va : Nat) : Bool :=
  match w with
  | .leaf _ _ base bits => base == va % 2 ^ 56 / 2 ^ bits * 2 ^ bits
  | _ => false

/-- A walk answers a miss: its leaf maps the miss's page, or it walked for that page (R233). -/
def PageWalk.answersMiss (p : PageWalk) (m : Miss) : Bool :=
  m.func == p.func && (match p.found with
    | some (.leaf a b c d) => (Walk.leaf a b c d).covers (m.page * 2 ^ 16)
    | _ => m.page == p.page)

/-- The outcome that has come back for an asker's access to an address. -/
def State.answerFor (s : State) (who : Asker) (f va : Nat) : Option Walk :=
  (s.answers.find? (fun e => e.1.client.who == who && e.1.func == f &&
    (e.1.page == va % 2 ^ 56 / 2 ^ 16 || e.2.covers va))).map (·.2)

/-- The outcomes that have come back for an asker used up. -/
def State.useAnswers (s : State) (who : Asker) : State :=
  { s with answers := s.answers.filter (fun e => e.1.client.who != who), misses := s.misses.filter (fun m => m.client.who != who) }

/-- A miss sent to the walkers, unless the asker has sent it before (R233). -/
def State.sendMiss (s : State) (c : Client) (f va : Nat) (n : Need) : State :=
  let page := va % 2 ^ 56 / 2 ^ 16
  if s.misses.any (fun m => m.client == c && m.func == f && m.page == page) then s
  else { s with misses := s.misses ++ [⟨c, f, page, n.write, n.fetch, n.priv, s.time⟩] }

/-- The entry or outcome that an asker's access meets: a TLB's, one that has come back for it, or none yet. Accesses that
no asker makes walk at once (assumption 46). -/
def State.walkNow (s : State) (f va : Nat) (write : Bool) : Option Walk :=
  match s.asker with
  | none => some (s.walk f va)
  | some c =>
    match c.core.bind (fun k => s.tlbHit k f (va % 2 ^ 56) write) with
    | some e => some (.leaf e.pte.toNat 0 e.base e.bits)
    | none => s.answerFor c.who f va

/-- A whole translation for an engine or the control die: its outcome, with A and D set for it (R232, R331, R463). One
that must wait for a walk sends its miss; what it answers meanwhile is not used (`State.asking`). -/
def State.translate (s : State) (f va : Nat) (n : Need) : State × Translated :=
  match s.walkNow f va n.write with
  | none =>
    ((match s.asker with
      | some c => s.sendMiss c f va n
      | none => s), (s.walk f va).result va n)
  | some w =>
    match w, w.result va n with
    | .leaf _ place _ _, .ok a u => (if s.asker.isNone then s.markPage place n.write else s, .ok a u)
    | _, r => (s, r)

/-- A miss of an asker is with the walkers. -/
def State.asks (s : State) (who : Asker) : Bool := s.misses.any (fun m => m.client.who == who)

/-- What an asker does when each translation that it needs is there: until then only its misses are sent, and afterwards
the outcomes that came back for it are used up (R233). -/
def State.asking (s : State) (c : Client) (f : State → State) : State :=
  if s.asks c.who then s
  else
    let t := f { s with asker := some c }
    if t.misses.length ≠ s.misses.length then { s with misses := t.misses }
    else { t.useAnswers c.who with asker := s.asker }

/-! ## Windows (R218 to R225) -/

/-- The grid whose launch a block's windows come from: a task block takes its spawner's (R219). -/
def State.rootGrid (s : State) (g : Nat) : Nat :=
  match s.grids.get? g with
  | some x => x.parent.getD g
  | none => g

/-- The launch fields that a block's windows use (R219). -/
def State.windowSizes (s : State) (b : Block) : Nat × Nat × Nat :=
  match s.grids.get? (s.rootGrid b.grid) with
  | some g => (g.launch.privsz, if b.task then 0 else g.launch.clsz, g.launch.dssz)
  | none => (0, 0, 0)

/-- The private cell of a byte of a lane: arena space keyed by WAVEID and lane (R220). -/
def privCell (waveid : DWord) (lane off : Nat) : Nat := (waveid.toNat * 64 + lane) * 2 ^ 18 + off

/-- The cluster region of a slot that a block reaches from a core (R223, R224). -/
def State.regionOf (s : State) (b : Block) (core slot : Nat) : Option (Nat × Region) :=
  let setsz := match s.launchOf b with
    | some l => l.setsz
    | none => 1
  s.regions.find? (fun e => e.2.grid == b.grid && e.2.setId == b.index / setsz &&
    e.2.cluster == clusterOf core && e.2.slot == slot)

/-- The window decode of an access of `n` bytes by a lane of a wave (R218), and, in a handler, the
alias window of R352. Global addresses are left for translation. -/
def State.window (s : State) (w : Wave) (b : Block) (lane a n : Nat) : Except Cause Loc :=
  let (privsz, clsz, dssz) := s.windowSizes b
  let off := a % 2 ^ 56
  match a / 2 ^ 56 with
  | 0x00 =>
    let aliasAt := match s.parts.get? w.part with
      | some p => p.aliasBase
      | none => 0
    if w.inHandler && decide (aliasAt ≤ off) && decide (off < aliasAt + 2 ^ 24) then
      let o := off - aliasAt
      let tm := match w.handling with
        | some t => t.lanes
        | none => 0
      if tm.getLsbD (o / 2 ^ 18) && decide (o % 2 ^ 18 + n ≤ privsz)
      then .ok (.priv (privCell w.waveid (o / 2 ^ 18) (o % 2 ^ 18)))
      else .error .permission
    else .ok .untranslated
  | 0xF0 =>
    let scrl := (b.halves.getD w.half Half.none).scrl
    if off + n ≤ scrl * 128 ∧ off < 2 ^ 20 then .ok (.scratch w.block w.half off) else .error .window
  | 0xF1 =>
    let slot := natBits off 20 2
    let o := off % 2 ^ 19
    if 2 ^ 22 ≤ off ∨ natBits off 19 1 = 1 then .error .window
    else if 2 ≤ b.halves.length then
      (if slot < 2 ∧ o + n ≤ (b.halves.getD slot Half.none).scrl * 128
        then .ok (.scratch w.block slot o) else .error .window)
    else if clsz = 0 then .error .window
    else
      match s.regionOf b w.core slot with
      | some (id, r) =>
        if o + n ≤ r.size then .ok (.region id o) else .error .window
      | none => .error .window
  | 0xF2 =>
    if 2 ^ 26 ≤ off ∨ dssz < off + n then .error .window
    else
      match s.dregions.find? (fun e => e.2.grid == s.rootGrid b.grid && e.2.die == dieOf w.core) with
      | some (id, _) => .ok (.dieStore id off)
      | none => .error .window
  | 0xF3 =>
    if 2 ^ 18 ≤ off ∨ privsz < off + n then .error .window
    else .ok (.priv (privCell w.waveid lane off))
  | _ => .error .window

/-- The wave's translation needs (R232). -/
def Wave.need (w : Wave) (write : Bool) : Need := ⟨write, false, w.priv⟩

/-! ## Bytes at a location -/

/-- The lines of 128 bytes that a run of bytes touches. -/
def linesOf (a n : Nat) : List Nat :=
  (List.range ((a + n - 1) / 128 + 1 - a / 128)).map (fun i => a / 128 + i)

/-- A number added to a list of numbers kept rising and without repeats. -/
def insertNat (x : Nat) : List Nat → List Nat
  | [] => [x]
  | y :: rest => if x = y then y :: rest else if x < y then x :: y :: rest else y :: insertNat x rest

/-- The bytes at a location, as a number (R2). -/
def State.readLoc (s : State) (l : Loc) (n : Nat) : Nat :=
  match l with
  | .untranslated => 0
  | .global pa _ => s.hbm.load pa n
  | .scratch b h off => (s.half b h).scratch.load off n
  | .region id off => match s.regions.get? id with
    | some r => Memory.load r.bytes off n
    | none => 0
  | .dieStore id off => match s.dregions.get? id with
    | some r => Memory.load r.bytes off n
    | none => 0
  | .priv a => s.privMem.load a n

/-- The lines that stay poisoned after a store: a store of a whole line clears its poison (R438). -/
def unpoison (l : List Nat) (a n : Nat) : List Nat :=
  l.filter (fun k => !(decide (a ≤ 128 * k) && decide (128 * k + 128 ≤ a + n)))

/-- Lines touched by a store of some bytes (R222). -/
def touch (l : List Nat) (a n : Nat) : List Nat := (linesOf a n).foldl (fun t k => insertNat k t) l

/-- Bytes stored at a location; on-chip lines become touched (R222). -/
def State.writeLoc (s : State) (l : Loc) (n x : Nat) : State :=
  match l with
  | .untranslated => s
  | .global pa _ => { s with hbm := s.hbm.store pa n x, hpoison := unpoison s.hpoison pa n }
  | .scratch b h off =>
    s.modBlock b (fun x' => x'.modHalf h (fun y =>
      { y with scratch := y.scratch.store off n x, touched := touch y.touched off n
               spoison := unpoison y.spoison off n }))
  | .region id off =>
    { s with regions := s.regions.update id (fun r =>
        { r with bytes := Memory.store r.bytes off n x, touched := touch r.touched off n
                 spoison := unpoison r.spoison off n }) }
  | .dieStore id off =>
    { s with dregions := s.dregions.update id (fun r =>
        { r with bytes := Memory.store r.bytes off n x, spoison := unpoison r.spoison off n }) }
  | .priv a => { s with
      privMem := s.privMem.store a n x
      hpoison := s.hpoison.filter (fun k => !(decide (2 ^ 44 ≤ k) && (unpoison [k - 2 ^ 44] a n).isEmpty)) }

/-- Bytes stored in HBM from a named place on; lines that they cover whole are poisoned no longer (R438). -/
def State.hbmPut (s : State) (a : Nat) (l : List Byte) : State :=
  { s with hbm := s.hbm.setBytes a l, hpoison := unpoison s.hpoison a l.length }

/-- The line of a location is poisoned (R438); private lines follow the named ones in the list. -/
def State.poisoned (s : State) (l : Loc) : Bool :=
  match l with
  | .untranslated => false
  | .global pa _ => s.hpoison.contains (pa / 128)
  | .scratch b h off => (s.half b h).spoison.contains (off / 128)
  | .region id off => match s.regions.get? id with
    | some r => r.spoison.contains (off / 128)
    | none => false
  | .dieStore id off => match s.dregions.get? id with
    | some r => r.spoison.contains (off / 128)
    | none => false
  | .priv a => s.hpoison.contains (2 ^ 44 + a / 128)

/-- The line of a location is empty: only core scratchpad and cluster lines can be (R281). -/
def State.lineEmpty (s : State) (l : Loc) : Bool :=
  match l with
  | .scratch b h off => (s.half b h).empty.contains (off / 128)
  | .region id off => match s.regions.get? id with
    | some r => r.empty.contains (off / 128)
    | none => false
  | _ => false

/-- The full/empty bit of the line of a location set (R282). -/
def State.setLine (s : State) (l : Loc) (full : Bool) : State :=
  let upd := fun (e : List Nat) (k : Nat) => if full then e.filter (· != k) else insertNat k e
  match l with
  | .scratch b h off =>
    s.modBlock b (fun x => x.modHalf h (fun y => { y with empty := upd y.empty (off / 128) }))
  | .region id off =>
    { s with regions := s.regions.update id (fun r => { r with empty := upd r.empty (off / 128) }) }
  | _ => s

/-- A location moved by some bytes. -/
def Loc.plus (l : Loc) (k : Nat) : Loc :=
  match l with
  | .untranslated => .untranslated
  | .global pa u => .global (pa + k) u
  | .scratch b h off => .scratch b h (off + k)
  | .region id off => .region id (off + k)
  | .dieStore id off => .dieStore id (off + k)
  | .priv a => .priv (a + k)

/-- The 128-byte line of a location, as a location. -/
def Loc.line (l : Loc) : Loc :=
  match l with
  | .untranslated => .untranslated
  | .global pa u => .global (pa / 128 * 128) u
  | .scratch b h off => .scratch b h (off / 128 * 128)
  | .region id off => .region id (off / 128 * 128)
  | .dieStore id off => .dieStore id (off / 128 * 128)
  | .priv a => .priv (a / 128 * 128)

/-! ## Accesses for a function (R331, R463) -/

/-- A little-endian value of at most 8 bytes read for a function at a global virtual address, or the
cause that stops the access. -/
def State.funcLoad (s : State) (f va n : Nat) : State × Except (Cause × Bool) Nat :=
  match s.translate f va ⟨false, false, true⟩ with
  | (s, .ok a _) => (s, .ok (s.hbm.load a n))
  | (s, .fault c _ o) => (s, .error (c, o))

/-- A value stored for a function at a global virtual address. -/
def State.funcStore (s : State) (f va n x : Nat) : State × Except (Cause × Bool) Unit :=
  match s.translate f va ⟨true, false, true⟩ with
  | (s, .ok a _) => (s.writeLoc (.global a false) n x, .ok ())
  | (s, .fault c _ o) => (s, .error (c, o))

end Sys2Proof.Machine
end

