-- ==== Sys2Proof/Machine/Ops.lean ====
section
/-! DEFINITION. Operations shared by many rows: records to the host and violations (R419, R429), what a
store wakes (R278, R286), the end of waves, blocks and grids (R94, R323, R356), and taking a trap and
returning from it (R348 to R353, R464). -/

namespace Sys2Proof.Machine

/-! ## Causes as codes (R346) -/

/-- The code of a cause. -/
def Cause.code : Cause → Nat
  | .hwErr => 1
  | .illegalClause => 2
  | .illegalInstr => 3
  | .illegalOperand => 4
  | .privilege => 5
  | .regRange => 6
  | .misaligned => 7
  | .window => 8
  | .pageNotPresent => 9
  | .permission => 10
  | .easement => 11
  | .accToken => 12
  | .accWindow => 13
  | .peerLost => 14
  | .feTimeout => 15
  | .mwaitTimeout => 16
  | .rejoinDeadlock => 17
  | .detOrder => 18
  | .illegalMeld => 19
  | .illegalMode => 20
  | .software => 21

/-- The lower-coded of two causes. -/
def Cause.lower (x y : Cause) : Cause := if y.code < x.code then y else x

/-- The summary cause of a trap (R348); HW_ERR for an empty list, which no trap has. -/
def TrapDue.summary (t : TrapDue) : Cause :=
  match t.causes with
  | [] => .hwErr
  | x :: rest => rest.foldl (fun c y => c.lower y.cause) x.cause

/-! ## Records and violations -/

/-- Something shown to the outside. -/
def State.emit (s : State) (x : Signal) : State := { s with outbox := s.outbox ++ [x] }

/-- A field of a record: its offset and its little-endian bytes. -/
def fieldBytes (off n x : Nat) : List (Nat × Byte) := (leBytes n x).mapIdx (fun i b => (off + i, b))

/-- The device is usable: bring-up has reached step 5 (R434, R435). -/
def State.usable (s : State) : Bool :=
  match s.control.phase with
  | .ready _ => true
  | _ => false

/-- An entry of the firmware event log, the oldest of 4,096 overwritten (R432). -/
def State.log (s : State) (e : LogKind) : State :=
  { s with control := { s.control with log := (s.control.log ++ [(s.time, e)]).drop (s.control.log.length - 4095) } }

/-- An event record posted to a function; it waits to be written in SEQ order (R419). -/
def State.postEvent (s : State) (f type : Nat) (body : List (Nat × Byte)) : State :=
  s.modFunc f (fun g =>
    { g with evwait := g.evwait ++ [⟨type, s.time, body⟩], evseq := (g.evseq + 1) % 2 ^ 32 })

/-- The TYPE 3 record of a violation (R419, R429): its code, the kind of master frozen, that master's
identity and the address. -/
def State.postViolation (s : State) (f code kind ident addr : Nat) : State :=
  s.postEvent f 3 (fieldBytes 0x10 1 code ++ fieldBytes 0x14 1 kind ++ fieldBytes 0x18 8 ident ++
    fieldBytes 0x20 8 addr)

/-- A wave frozen (R378, R429). -/
def State.freezeWave (s : State) (k : Nat) : State := s.modWave k (fun w => { w with frozen := true, ownFreeze := true })

/-- A core frozen: it places no block, and its resident waves are frozen (R429). -/
def State.freezeCore (s : State) (k : Nat) : State :=
  (s.modCore k (fun c => { c with frozen := true })).mapWaves (fun _ w => w.core == k && !w.ended)
    (fun w => { w with frozen := true })

/-- A function frozen: it behaves as an idle one, and its resident waves are frozen (R429). -/
def State.freezeFunc (s : State) (f : Nat) : State :=
  (s.modFunc f (fun g => { g with frozen := true })).mapWaves (fun _ w => w.func == f && !w.ended)
    (fun w => { w with frozen := true })

/-- A wave is frozen as its own freeze, its core's and its function's have it (R429). -/
def State.thaw (s : State) (w : Wave) : Wave :=
  { w with frozen := w.ownFreeze || (s.core w.core).frozen || (s.func w.func).frozen }

/-- A wave's access outside its partition's grant: violation code 1 (R227, R429). -/
def State.waveViolation (s : State) (k addr : Nat) : State :=
  match s.waves.get? k with
  | some w => (s.freezeWave k).postViolation w.func 1 0 w.waveid.toNat addr
  | none => s

/-- An access that the control die made for a function failed (R463). -/
def State.funcViolation (s : State) (f addr : Nat) : State := s.postViolation f 5 3 0 addr

/-! ## Byte-counting barriers (R277, R278) -/

/-- The fields of a barrier object. -/
structure BarObj where
  ph   : Bool
  acnt : Nat
  ecnt : Nat
  arrb : Nat
  expb : Nat
  deriving DecidableEq, Repr

/-- The object as it stands in its 16 bytes. -/
def BarObj.ofNat (x : Nat) : BarObj :=
  ⟨natBits x 96 1 == 1, natBits x 80 16, natBits x 64 16, natBits x 32 32, natBits x 0 32⟩

/-- The 16 bytes of an object. -/
def BarObj.toNat (b : BarObj) : Nat :=
  b.expb + b.arrb * 2 ^ 32 + b.ecnt * 2 ^ 64 + b.acnt * 2 ^ 80 + (if b.ph then 2 ^ 96 else 0)

/-- The completion test after each update (R278). -/
def BarObj.test (b : BarObj) : BarObj :=
  if b.acnt = b.ecnt ∧ b.arrb = b.expb then { b with ph := !b.ph, acnt := 0, arrb := 0, expb := 0 } else b

/-- BAREXP's update. -/
def BarObj.expect (n : Nat) (b : BarObj) : BarObj := BarObj.test { b with expb := (b.expb + n) % 2 ^ 32 }

/-- BARARR's update: ACNT saturates at ECNT. -/
def BarObj.arrive (n : Nat) (b : BarObj) : BarObj := BarObj.test { b with acnt := min b.ecnt (b.acnt + n) }

/-- The count of an engine's bytes. -/
def BarObj.bytes (n : Nat) (b : BarObj) : BarObj := BarObj.test { b with arrb := (b.arrb + n) % 2 ^ 32 }

/-- The object at a location. -/
def State.barObj (s : State) (l : Loc) : BarObj := BarObj.ofNat (s.readLoc l 16)

/-- A slice parked at BARWT finds its phase changed before its limit has passed, and has not found it so before; the limit
does not run while a handler holds the slice (R464). -/
def State.barwtDone (s : State) (w : Wave) (x : Slice) : Bool :=
  match x.park with
  | .barwt _ addr phase _ deadline =>
    x.woken.isNone && (x.held || deadline.all (fun t => decide (s.time < t))) &&
    (match s.blocks.get? w.block with
      | some b =>
        (match s.window w b 0 addr.toNat 16 with
          | .ok l => (s.barObj l).ph != phase
          | .error _ => false)
      | none => false)
  | _ => false

/-- An acquire, a fence or a barrier empties the cluster read buffer of a core (R125, R250, R251, R255). -/
def State.dropReads (s : State) (core : Nat) : State := s.modCore core (fun c => { c with reads := [] })

/-- The object of a slice's BARWT lies in its own core's scratchpad. -/
def State.barwtNear (s : State) (w : Wave) (x : Slice) : Bool :=
  match x.park, s.blocks.get? w.block with
  | .barwt _ addr _ _ _, some b =>
    (match s.window w b 0 addr.toNat 16 with
      | .ok l => s.nearLoc w.core l
      | .error _ => true)
  | _, _ => true

/-- Some BARWT waiters whose phase has changed released: each acquires what the phase counted (R255, R280). To a waiter
of another core the news is on its way (R237); those of deterministic launches learn it at a round end. -/
def State.releaseWaiters (s : State) (ws : List (Nat × Wave)) : State :=
  ws.foldl (fun s e =>
    if e.2.slices.any (s.barwtDone e.2) then
      (s.modWave e.1 (fun w => { w with slices := w.slices.map (fun x =>
          if !s.barwtDone w x then x
          else if w.isDet || s.barwtNear w x then x.goOn else { x with woken := some s.time }) })).dropReads e.2.core
    else s) s

/-- News that was on its way to a wave has come after more than 8 ticks: of a monitor that fired, or of a barrier
object's phase (R237, R280, R287). -/
def State.wakeWave (s : State) (k : Nat) : State :=
  match s.waves.get? k with
  | none => s
  | some w =>
    let come := fun (m : Monitor) => match m with
      | .firing l t => s.reached w.core l t
      | _ => false
    let s := if come w.monitor then s.modWave k (fun w => w.fireMonitor s.time) else s
    let s := if w.heldMonitor.any come then s.modWave k (fun w => w.fireHeld s.time) else s
    let woken := fun (x : Slice) => x.park.isBarwt && x.woken.any (fun t => decide (t + 8 < s.time))
    if w.slices.any woken then (s.modWave k (fun w => w.unparkIf woken)).dropReads w.core else s

/-- The BARWT waiters whose phase has changed released; those of deterministic launches wait for a
commit (R390). -/
def State.releaseBarwt (s : State) : State :=
  s.releaseWaiters (s.waves.filter (fun e => !e.2.isDet && e.2.slices.any (fun x => x.park.isBarwt)))

/-- What follows a store of `n` bytes: monitors fire, waiters look again, and a WAIT_VALUE that watches
device memory is told to read again (R327). -/
def State.wake (s : State) (l : Loc) (n : Nat) : State :=
  match l with
  | .global _ _ => s.wakeGlobal l n
  | _ => (s.fireMonitors l n).releaseBarwt

/-- A store at a location and what it wakes. -/
def State.storeAt (s : State) (l : Loc) (n x : Nat) : State := (s.writeLoc l n x).wake l n

/-- One update of a barrier object (R278), after which its waiters look again. -/
def State.updateBarrier (s : State) (l : Loc) (f : BarObj → BarObj) : State :=
  (s.writeLoc l 16 (f (s.barObj l)).toNat).releaseBarwt

/-! ## Memory written by the control die and the trap hardware -/

/-- The global write completion time of a store that arrives at a line now (R243). -/
def State.gwctOf (s : State) (line : Nat) : Nat := max s.time (s.leases.getD line 0)

/-- The latest global write completion time of a store of some bytes at a named place. -/
def State.gwctRun (s : State) (a n : Nat) : Nat := (linesOf a n).foldl (fun t k => max t (s.gwctOf k)) s.time

/-- Bytes written for a function within one page (R463), with the tick by which they have performed (R243), or the cause
that stops them and whether they lie outside the grant. -/
def State.funcBytes (s : State) (f va : Nat) (l : List Byte) : State × Except (Cause × Bool) Nat :=
  match s.translate f va ⟨true, false, true⟩ with
  | (s, .ok a _) => ((s.hbmPut a l).wake (.global a false) l.length, .ok (s.gwctRun a l.length))
  | (s, .fault c _ o) => (s, .error (c, o))

/-- Bytes read for a function from one page, or the cause that stops the read. -/
def State.funcRead (s : State) (f va n : Nat) : State × Except (Cause × Bool) (List Byte) :=
  match s.translate f va ⟨false, false, true⟩ with
  | (s, .ok a _) => (s, .ok (s.hbm.bytes a n))
  | (s, .fault c _ o) => (s, .error (c, o))

/-- Bytes read for a function into an image, zeros where they do not translate. -/
def State.funcImage (s : State) (f va n : Nat) : List Byte :=
  match (s.funcRead f va n).2 with
  | .ok l => l
  | .error _ => List.replicate n 0

/-! ## The trap frame (R351) -/

/-- The park kind of SPARK. -/
def Park.kind : Park → Nat
  | .none | .tret => 0
  | .regang => 1
  | .barb _ => 2
  | .barc _ => 3
  | .mwait _ _ _ => 4
  | .barwt _ _ _ _ _ => 5
  | .tile _ _ _ => 6

/-- The RJ of a slice: RJC in [63:16], RJT in [15:0] (R111). -/
def Slice.rj (x : Slice) : Nat := x.rjc.toNat * 2 ^ 16 + x.rjt.toNat

/-- The fields of a trap frame as offset, size and value. `mr` tells that the trapping gang was in a
melded region. -/
def frameFields (w : Wave) (t : TrapDue) (alias_ now : Nat) : List (Nat × Nat × Nat) :=
  let lead := t.causes.find? (fun c => c.cause == t.summary)
  let info := t.summary.code + (if t.precise then 0 else 2 ^ 5) + (if t.norply then 0 else 2 ^ 8) +
    (if w.melds t.slices then 2 ^ 9 else 0) + t.src.widx * 2 ^ 10
  t.causes.map (fun c => (8 * c.lane, 8, c.faddr.toNat)) ++
  t.causes.map (fun c => (0x200 + c.lane, 1, c.cause.code +
    (if c.src.ord = t.src.ord then 0x40 else 0) + (if c.malf then 0x80 else 0))) ++
  (w.slices.mapIdx (fun i x =>
    [(0x240 + 8 * i, 8, x.pc.toNat), (0x2C0 + 8 * i, 8, x.rj), (0x340 + 2 * i, 2, x.rgm.toNat),
     (0x360 + i, 1, x.ex.toNat * 16 + x.lm.toNat), (0x370 + i, 1, x.park.kind * 32 + x.rsd)])).flatten ++
  [(0x380, 8, t.lanes.toNat), (0x388, 8, t.src.claddr.toNat), (0x390, 4, t.src.hdr.toNat),
   (0x394, 4, t.src.word.toNat), (0x398, 4, info), (0x39C, 4, w.md.toNat), (0x3A0, 8, (w.p.get 0).toNat),
   (0x3A8, 4, (w.s.get 127).toNat), (0x3AC, 4, w.fx.toNat), (0x3B0, 4, w.ot0.toNat), (0x3B4, 4, w.ot1.toNat),
   (0x3B8, 2, w.mrs.toNat), (0x3C0, 8, w.mp.toNat), (0x3C8, 8, alias_), (0x3D0, 8, w.waveid.toNat),
   (0x3D8, 8, now), (0x3E0, 2, match lead with
     | some c => c.xinfo
     | none => 0)]

/-- `n` bytes that hold some fields, each an offset, a size and a value; the others are zero. -/
def layout (n : Nat) (l : List (Nat × Nat × Nat)) : List Byte :=
  Memory.bytes (l.foldl (fun m e => Memory.store m e.1 e.2.1 e.2.2) []) 0 n

/-- The 1,024 bytes of a frame. -/
def frameBytes (l : List (Nat × Nat × Nat)) : List Byte := layout 1024 l

/-- The address of a wave's save slot. -/
def State.slotAddress (s : State) (w : Wave) : Nat :=
  match s.parts.get? w.part with
  | some p => p.slotBase + 1024 * w.saveSlot
  | none => 0

/-- The frame of a trap written to the wave's save slot with strong stores, and the tick by which they perform (R348).
An address outside the grant freezes the wave and is reported (R227, R429); the cause of a frame that does not translate
is answered. -/
def State.writeFrame (s : State) (k : Nat) (t : TrapDue) : State × Option Cause :=
  match s.waves.get? k with
  | none => (s, none)
  | some w =>
    let alias_ := match s.parts.get? w.part with
      | some p => p.aliasBase
      | none => 0
    match s.funcBytes w.func (s.slotAddress w) (frameBytes (frameFields w t alias_ s.time)) with
    | (s, .ok g) => (s.modWave k (fun w => { w with trapped := true, frameAt := g }), none)
    | (s, .error (c, out)) => (if out then s.waveViolation k (s.slotAddress w) else s, some c)

/-- The lanes of a gang that hold a deferred cause. -/
def Wave.causesOf (w : Wave) (g : SliceMask) : List LaneCause := w.causes.filter (fun c => g.getLsbD (c.lane / 4))

/-- A deferred trap of some causes: the earliest word that gave one is its trapping word (R347, R348). -/
def deferredTrap (g : SliceMask) : List LaneCause → Option TrapDue
  | [] => none
  | x :: rest =>
    let src := (rest.foldl (fun (a : LaneCause) y => if y.src.ord < a.src.ord then y else a) x).src
    some ⟨g, false, src, x :: rest, false, false⟩

/-- The deferred trap of a gang. -/
def Wave.deferredOf (w : Wave) (g : SliceMask) : Option TrapDue := deferredTrap g (w.causesOf g)

/-- The PEER_LOST causes that a stopped wave has recorded, due or deferred, stand in its frame and in no handler (R357);
the frame of a trap that it is handling stays (R349). -/
def State.lostFrame (s : State) (k : Nat) : State :=
  match s.waves.get? k with
  | none => s
  | some w =>
    let lost := (w.causes ++ w.due.flatMap (·.causes)).filter (fun c => c.cause == .peerLost)
    if !w.stopped || w.inHandler then s
    else match deferredTrap (maskOf 16 (lost.map (fun c => c.lane / 4))) lost with
      | some t => (s.writeFrame k t).1.modWave k (fun w => { w with causes := [], due := [] })
      | none => s

/-! ## Ends of waves, blocks and grids -/

/-- A unit that is still to be performed or acknowledged. -/
def MemUnit.out (u : MemUnit) : Bool := u.phase == .issued || u.phase == .arrived

/-- Stores, atomics and updates of a wave that are not acknowledged (R244). -/
def Wave.storesOut (w : Wave) : Bool :=
  w.memOps.any (fun o => !o.kind.isLoad && o.units.any MemUnit.out)

/-- The completion time of a scope (R244). -/
def Times.at_ (t : Times) (scope : Nat) : Nat :=
  match scope with
  | 0 => t.wave
  | 1 => t.block
  | 2 => t.cluster
  | 3 => t.device
  | _ => t.system

/-- The tile operations of a wave that access its scratchpad, as accesses of the wave (R256): ACSP writes, MMAK and
MMAS read. -/
def State.tileAccesses (s : State) (k : Nat) (w : Wave) : List TileOp :=
  (s.half w.block w.half).tops.filter (fun t => t.wave == k && (match t.kind with
    | .acsp _ | .mmak | .mmas _ | .mma _ => true
    | _ => false))

/-- Scratchpad writes of a wave's tile operations that have not performed (R211, R256). -/
def State.tileStores (s : State) (k : Nat) (w : Wave) : Bool :=
  (s.tileAccesses k w).any (fun t => match t.kind with
    | .acsp _ => true
    | _ => false)

/-- Operations of a wave that are still counted or outstanding (R94). -/
def State.busyWave (s : State) (k : Nat) (w : Wave) : Bool :=
  w.memOps.any (fun o => !o.kind.isProbe) || !w.specials.isEmpty ||
  s.xfers.any (fun x => x.wave == some k) || s.fabops.any (fun x => x.wave == k) ||
  (s.half w.block w.half).tops.any (fun t => t.wave == k)

/-- Operations of a block that are still outstanding. -/
def State.busyBlock (s : State) (b : Nat) (x : Block) : Bool :=
  x.waves.any (fun k => match s.waves.get? k with
    | some w => !w.ended || s.busyWave k w
    | none => false) || s.xfers.any (fun t => t.block == some b)

/-- The private bytes of a wave zeroed (R221). -/
def State.clearPrivate (s : State) (w : Wave) : State :=
  { s with privMem := ZMap.clear (n := 8) s.privMem (privCell w.waveid 0 0) (2 ^ 24) }

/-- The size of the sets of a grid. -/
def State.setSize (s : State) (grid : Nat) : Nat :=
  match s.grids.get? grid with
  | some g => g.launch.setsz
  | none => 1

/-- A block that has not ended: a wave of it has not (R94). -/
def Block.goesOn (b : Block) : Bool := decide (b.endCount < b.waves.length)

/-- A block of a region's set on its core goes on, so that the region holds its cluster memory (R94, R223). -/
def State.regionHeld (s : State) (r : Region) : Bool :=
  s.blocks.any (fun e => e.2.grid == r.grid && e.2.index / s.setSize r.grid == r.setId && e.2.goesOn &&
    e.2.halves.any (fun h => h.core == r.core))

/-- The cluster regions that a block's end frees (R94, R223): those of its set on its cores where no block of the set
goes on. A lost region stays as long as a block of its set may still meet it (R357). -/
def State.freeRegions (s : State) (x : Block) : State :=
  let mates := s.blocks.filter (fun e => e.2.grid == x.grid && e.2.index / s.setSize x.grid == x.index / s.setSize x.grid)
  { s with regions := s.regions.filter (fun e =>
      !(e.2.grid == x.grid && e.2.setId == x.index / s.setSize x.grid && (if e.2.lost then mates.isEmpty else !s.regionHeld e.2))) }

/-- The descriptors and space of a cut unit returned to its partition's heap, its descriptors FREE. -/
def State.freeUnit (s : State) (id : Nat) : State :=
  match s.cuts.find? (fun u => u.id == id) with
  | none => s
  | some u =>
    let s := s.modPart u.part (fun p =>
      { p with descs := p.descs.filter (fun d => !u.descs.contains d)
               heap := p.heap.filter (fun e => !u.bodies.any (fun b => b.1 == e.1)) })
    let base := match s.parts.get? u.part with
      | some p => p.cairnBase
      | none => 0
    let s := u.descs.foldl (fun s d => match namedOf (base + 64 * d + 0x0C) with
      | some a => s.writeLoc (.global a false) 4 (natBits (s.hbm.load a 4) 0 28)
      | none => s) s
    { s with cuts := s.cuts.filter (fun u => u.id != id) }

/-- The cut under way that a block belongs to (R364). -/
def State.cutOf (s : State) (b : Nat) : Option CutUnit :=
  s.cuts.find? (fun u => u.state == .writing && u.blocks.contains b)

/-- A cut later than its bound is reported (R363). -/
def State.checkBound (s : State) (u : CutUnit) (l : List Block) : State :=
  if u.bound ≠ 0 ∧ u.bound < s.time then (s.log (.boundMissed u.grid)).countUnit l 0x35 else s

/-- A block that has left leaves its cut unit; a drain or a flush is complete when its last block has left. A
save of no block is given up, unless a CTX_SAVE still counts it. -/
def State.leaveCut (s : State) (b : Nat) : State :=
  match s.cutOf b with
  | none => s
  | some u =>
    let v := { u with blocks := u.blocks.filter (· != b) }
    if !v.blocks.isEmpty || u.listOf.isSome then { s with cuts := s.cuts.map (fun x => if x.id = u.id then v else x) }
    else if u.method = .save then s.freeUnit u.id
    else ({ s with cuts := s.cuts.filter (fun x => x.id != u.id) }).checkBound u (s.blockList [b])

/-- A block that has ended and has nothing outstanding leaves the machine, and its private bytes are zeroed (R221);
its tiles, lines and regions were free from its end on, and each wave's slot and registers from its last operation on
(R94). -/
def State.reap (s : State) (b : Nat) : State :=
  match s.blocks.get? b with
  | none => s
  | some x =>
    let done := match x.status with
      | .resident => false
      | _ => true
    if done && !s.busyBlock b x then
      let s := x.waves.foldl (fun s k => match s.waves.get? k with
        | some w => { (s.clearPrivate w) with waves := s.waves.erase k }
        | none => s) s
      let s := s.leaveCut b
      let s := { s with blocks := s.blocks.erase b }.freeRegions x
      { s with grids := if x.task && x.status != BlockStatus.flushed true then s.grids.erase x.grid else s.grids }
    else s

/-- A block's charge in whole cycles, rounded up (R330). -/
def Block.cycles (x : Block) : Nat := (x.charge + 383) / 384

/-- A charge posted to a function at a priority level of a partition (R329, R330). -/
def Partition.post (p : Partition) (level f c : Nat) : Partition :=
  let key := level * 512 + f
  let old := match p.deficit.find? (fun e => e.1 == key) with
    | some e => e.2
    | none => 0
  { p with deficit := (key, old - c) :: p.deficit.filter (fun e => e.1 != key) }

/-- The kernel history of a die after a block of run time `t` (R361). The list is kept most recently
used first. -/
def historyUpdate (l : List History) (part modh kidx t : Nat) : List History :=
  match l.find? (fun e => e.part == part && e.modh == modh && e.kidx == kidx) with
  | some e =>
    { e with h := ((e.h : Int) + Int.tdiv ((t : Int) - e.h) 8).toNat } ::
      l.filter (fun e => !(e.part == part && e.modh == modh && e.kidx == kidx))
  | none => (⟨part, modh, kidx, t⟩ :: l).take 64

/-- The ticks of residence of a block by now (R361). -/
def State.runTime (s : State) (x : Block) : Nat := x.runt + (s.time - x.placedAt)

/-- The block of a key has ended or been flushed: its charge is posted, the kernel history learns its run time
when it ended without a fatal fault, and its grid counts it or takes it back (R94, R323, R330, R361,
R364). -/
def State.endBlock (s : State) (b : Nat) (how : BlockStatus) : State :=
  match s.blocks.get? b with
  | none => s
  | some x =>
    let s := (s.modBlock b (fun y => { y with status := how })).freeRegions x
    match s.grids.get? x.grid with
    | none => s.reap b
    | some g =>
      let s := s.modPart g.part (fun p => p.post g.launch.prio g.func x.cycles)
      let core := match x.halves with
        | h :: _ => h.core
        | [] => 0
      let s := if how = .ended then s.modDie (dieOf core) (fun d =>
        { d with history := historyUpdate d.history g.part g.launch.modh g.launch.kidx (s.runTime x) }) else s
      let s := s.modGrid x.grid (fun g => if how = .flushed true then { g with returned := insertNat x.index g.returned } else
        { g with
          endedBlocks := g.endedBlocks + 1
          det := g.det.map (fun d => { d with joinAt := d.joinAt.set (x.index + d.nres) (d.round + 1) }) })
      s.reap b

/-- Every slice of a wave has ended and all that its EXITs and its end wait for has performed: its stores, its commit
buffer, and its completion time at the largest scope that an EXIT has named (R94, R120, R256, R257). -/
def State.waveOver (s : State) (k : Nat) (w : Wave) : Bool :=
  w.slices.all Slice.ended && !w.storesOut && !s.tileStores k w && decide (w.times.at_ w.exitScope ≤ s.time) &&
  (match w.det with
    | some d => d.buffer.isEmpty
    | none => true)

/-- A wave ends: its save slot and its monitor are released, its block counts it, and its grid's completion is ordered
after all that it did (R94, R120, R256, R348). -/
def State.settle (s : State) (k : Nat) : State :=
  match s.waves.get? k with
  | none => s
  | some w =>
    if w.ended then s.reap w.block
    else if s.waveOver k w then
      let s := s.lostFrame k
      let s := s.modWave k (fun w =>
        { w with ended := true, monitor := .off, heldMonitor := none, inHandler := false, handling := none, due := [], causes := [] })
      let s := s.modPart w.part (fun p => { p with slots := p.slots.filter (· != w.saveSlot) })
      let s := match s.blocks.get? w.block with
        | some b => s.modGrid (s.rootGrid b.grid) (fun g => { g with releaseAt := max g.releaseAt w.times.system })
        | none => s
      let s := s.modBlock w.block (fun b => { b with endCount := b.endCount + 1 })
      match s.blocks.get? w.block with
      | some b =>
        if b.endCount = b.waves.length ∧ b.status = .resident then s.endBlock w.block .ended
        else if b.endCount = b.waves.length then s.endBlock w.block b.status
        else s
      | none => s
    else s

/-- The easements of a transfer taken out of its core's table (R305). -/
def State.endEasements (s : State) (core owner : Nat) : State :=
  s.modCore core (fun c => { c with eases := c.eases.filter (fun e => e.2.owner != owner) })

/-- A slice that a stop ends now: it stands at a clause boundary, or is parked, held or trapped. -/
def Wave.stopsNow (w : Wave) (i : Nat) (x : Slice) : Bool :=
  x.word == 0 || x.park != .none || x.held || w.due.any (fun t => t.slices.getLsbD i)

/-- A wave stopped under R356 or flushed: the slices at a boundary end at once, the others at their next
boundary; counted loads, special functions and the block's engine and tile operations are abandoned, and the flags count
what is left. -/
def Wave.stop (w : Wave) (now : Bool) : Wave :=
  let kept := w.memOps.filter (fun o => !o.kind.isLoad)
  { w with
    stopped := true
    flags := w.flags.mapIdx (fun n _ => countIf (fun (o : MemOp) => o.flag == some n) kept)
    slices := w.slices.mapIdx (fun i x =>
      if now || w.stopsNow i x then { x with ex := 0xF#4, park := .none, held := false } else x)
    memOps := kept
    specials := [], due := [], causes := [], handling := none, replay := [], fencing := none, invals := [], monitor := .off
    heldMonitor := none
    det := w.det.map (fun d => { d with buffer := [] }) }

/-- The engine, tile and fabric operations of a block stopped, their easements ended (R299, R356). -/
def State.stopEngines (s : State) (b : Nat) : State :=
  match s.blocks.get? b with
  | none => s
  | some x =>
    let mine := s.xfers.filter (fun t => t.block == some b)
    let s := mine.foldl (fun s t => s.endEasements t.core t.id) s
    let fabs := s.fabops.filter (fun f => x.waves.contains f.wave)
    let s := fabs.foldl (fun s f => match s.waves.get? f.wave with
      | some w => s.endEasements w.core f.id
      | none => s) s
    let s := { s with
      xfers := s.xfers.filter (fun t => t.block != some b)
      fabops := s.fabops.filter (fun f => !x.waves.contains f.wave) }
    s.modBlock b (fun x =>
      { x with halves := x.halves.map (fun h => { h with tops := [] })
               chans := x.chans.map (fun c => { c with run := false }) })

/-- A block stopped: its waves, and its engine operations. `at_` names a wave that ends at once. -/
def State.stopBlock (s : State) (b : Nat) (at_ : Option Nat) : State :=
  match s.blocks.get? b with
  | none => s
  | some x =>
    let s := x.waves.foldl (fun s k => s.modWave k (fun w => if w.ended then w else w.stop (at_ == some k))) s
    let s := s.stopEngines b
    x.waves.foldl (fun s k => s.settle k) s

/-- A block may be flushed (R366): every live wave has IDEM, no wave has SIDE, nothing of the engines is
outstanding, no wave is frozen, and its launch is not deterministic (R392). -/
def State.mayFlush (s : State) (b : Nat) : Bool :=
  match s.blocks.get? b with
  | none => false
  | some x =>
    x.waves.all (fun k => match s.waves.get? k with
      | some w => !w.side && !w.frozen && !w.isDet && (w.ended || w.idem)
      | none => true) &&
    !s.xfers.any (fun t => t.block == some b)

/-- A saved unit freed unresumed: its blocks count as ended, and its waves' save slots and private bytes are released
(R221, R348, R364). -/
def State.dropUnit (s : State) (u : CutUnit) : State :=
  let s := s.freeUnit u.id
  let live := (u.waves.map (·.2)).filter (fun w => !w.ended)
  let s := s.modPart u.part (fun p => { p with slots := p.slots.filter (fun i => !live.any (fun w => w.saveSlot == i)) })
  let s := u.waves.foldl (fun s e => s.clearPrivate e.2) s
  let s := s.modGrid (s.rootGrid u.grid) (fun g => { g with releaseAt := live.foldl (fun t w => max t w.times.system) g.releaseAt })
  let isTask := match s.grids.get? u.grid with
    | some g => g.task.isSome
    | none => false
  if isTask then { s with grids := s.grids.erase u.grid }
  else s.modGrid u.grid (fun x => { x with endedBlocks := x.endedBlocks + u.saved.length })

/-- The saved units of a faulting or cancelled grid, and those of its task waves, freed unresumed once their
cairns are published (R364). -/
def State.dropSaved (s : State) (g : Nat) : State :=
  (s.cuts.filter (fun u => s.rootGrid u.grid == g && (u.state == .published || u.state == .held))).foldl
    (fun s u => s.dropUnit u) s

/-- The cut of a faulting or cancelled grid (R323, R337): no further block or task wave is placed; each resident
block is flushed when it may be, and drained otherwise, unless it is under a cut already (R364). -/
def State.cutGrid (s : State) (g : Nat) : State :=
  let s := s.modGrid g (fun x => { x with cutting := true, returned := [] })
  let s := s.dropSaved g
  let s : State := { s with dies := s.dies.map (fun d => { d with tasks := d.tasks.filter (fun t => t.grid != g) }) }
  let s : State := { s with grids := Table.mapVals (s.grids.filter (fun e => e.2.parent != some g || e.2.placed)) (fun _ x =>
      if x.parent == some g then { x with cutting := true } else x) }
  let blocks := (s.blocks.filter (fun e => s.rootGrid e.2.grid == g && e.2.status == .resident && (s.cutOf e.1).isNone)).map (·.1)
  blocks.foldl (fun s b =>
    if s.mayFlush b then
      let s := s.modBlock b (fun x => { x with status := .flushed false })
      s.stopBlock b none
    else s) s

/-- Two entries of one bundle (R324). -/
def Origin.sibling (x y : Origin) : Bool :=
  match x, y with
  | .bundleEntry f q n _, .bundleEntry f' q' n' _ => f == f' && q == q' && n == n'
  | .nodeEntry i m _, .nodeEntry i' m' _ => i == i' && m == m'
  | _, _ => false

/-- Grids that have not completed and whose origin satisfies a test are cut, and chains stop as under
XCANCEL (R323, R337). -/
def State.cutOrigins (s : State) (f : Origin → Bool) : State :=
  let gs := (s.grids.filter (fun e => e.2.parent.isNone && f e.2.origin)).map (·.1)
  let s := gs.foldl (fun s g => s.cutGrid g) s
  { s with xfers := s.xfers.map (fun x => if x.chain && x.block.isNone && f x.origin then { x with cancel := true } else x) }

/-- The first fault of a grid, which faults the bundle that started it (R323, R324). -/
def State.faultGrid (s : State) (g : Nat) (c : Cause) : State :=
  let r := s.rootGrid g
  let s := s.modGrid r (fun x =>
    match x.fault with
    | some _ => x
    | none => { x with fault := some c.code })
  let s := s.cutGrid r
  match s.grids.get? r with
  | some x => s.cutOrigins x.origin.sibling
  | none => s

/-! ## Fatal faults (R356, R357) -/

/-- The blocks that end together with a block: those of its cluster set (R99). -/
def State.setPeers (s : State) (x : Block) : List Nat :=
  let setsz := match s.launchOf x with
    | some l => l.setsz
    | none => 1
  if setsz ≤ 1 then []
  else (s.blocks.filter (fun e => e.2.grid == x.grid && e.2.index / setsz == x.index / setsz &&
    e.2.status == .resident)).map (·.1)

/-- Parked at BARC. -/
def Park.isBarc : Park → Bool
  | .barc _ => true
  | _ => false

/-- The word that parked a slice. -/
def Wave.parkedWord (w : Wave) (i : Nat) : WordRef :=
  match w.slices[i]? with
  | some y => ⟨w.seq, y.pc, y.cl.headD 0, y.cl.getD (y.word - 1) 0, y.word - 1, clauseLits y.cl⟩
  | none => ⟨w.seq, 0, 0, 0, 0, []⟩

/-- The slices of a wave that wait at BARC record PEER_LOST in its frame, with the slot that was lost (R357). -/
def State.peerFrame (s : State) (slot k : Nat) (w : Wave) : State :=
  let g := w.sliceMask (fun x => !x.ended && x.park.isBarc)
  let src := w.parkedWord (firstSlice g)
  let causes := (causesIn src .peerLost (w.lanes g Slice.executing)).map (fun c => { c with xinfo := slot })
  if g = 0 ∨ w.inHandler then s else (s.writeFrame k ⟨g, true, src, w.joinCauses g causes, false, false⟩).1

/-- The slot that a block's fatal fault loses: that of its core's region, or, in a paired block, the half. -/
def State.lostSlot (s : State) (x : Block) (half : Nat) : Nat :=
  if 2 ≤ x.halves.length then half
  else
    match s.regions.find? (fun e => e.2.grid == x.grid && e.2.setId == x.index / s.setSize x.grid &&
        x.halves.any (fun h => h.core == e.2.core)) with
    | some (_, r) => r.slot
    | none => 0

/-- The frames that a fatal fault of a block writes: of the waves of its peers and of its other half that wait at BARC
(R357). `half` is the half of the faulting wave. -/
def State.peerFrames (s : State) (b half : Nat) (x : Block) (peers : List Nat) : State :=
  let waiting := s.waves.filter (fun e => !e.2.ended &&
    (peers.contains e.2.block || (e.2.block == b && 2 ≤ x.halves.length && e.2.half != half)))
  waiting.foldl (fun t e => t.peerFrame (s.lostSlot x half) e.1 e.2) s

/-- The cluster region that a faulting block's cores hold is lost (R357). -/
def State.loseRegion (s : State) (x : Block) : State :=
  { s with regions := s.regions.mapVals (fun _ (r : Region) =>
      if r.grid == x.grid && r.setId == x.index / s.setSize x.grid && x.halves.any (fun h => h.core == r.core)
      then { r with lost := true } else r) }

/-- The half of a paired block that has taken a fatal fault is lost to the other one (R357). -/
def Block.loseHalf (x : Block) (half : Nat) : Block :=
  if x.halves.length < 2 then x else x.modHalf half (fun h => { h with lost := true })

/-- A block ends by a fatal fault (R356): its waves and engines stop and its grid faults; the blocks of its set end with
the same cause, and its cluster region is lost (R357). A cause that an engine finds when the block's waves have all ended
is a fault of the block too (R299). -/
def State.fatalBlock (s : State) (b : Nat) (at_ : Option Nat) (c : Cause) : State :=
  match s.blocks.get? b with
  | none => s
  | some x =>
    let root := s.rootGrid x.grid
    if x.status = .resident ∨ x.status = .ended then
      let half := match at_.bind (fun k => s.waves.get? k) with
        | some w => w.half
        | none => 0
      let peers := (s.setPeers x).filter (· != b)
      let s := (s.modBlock b (fun x => { x.loseHalf half with status := .faulted c })).loseRegion x
      let s := s.peerFrames b half x peers
      let s := peers.foldl (fun s p =>
        (s.modBlock p (fun x => { x with status := .faulted c })).stopBlock p none) s
      if x.status = .resident then (s.stopBlock b at_).faultGrid root c
      else ((s.stopEngines b).faultGrid root c).reap b
    else s

/-- A wave takes a fatal fault. -/
def State.fatal (s : State) (k : Nat) (c : Cause) : State :=
  match s.waves.get? k with
  | some w => s.fatalBlock w.block (some k) c
  | none => s

/-! ## Taking a trap (R348) -/

/-- The slices of a wave with a lane in a trap's mask. -/
def TrapDue.handlers (t : TrapDue) : SliceMask := maskOf 16 (t.causes.map (fun c => c.lane / 4))

/-- A wave entering its handler: the slices with a lane in TMASK go to TVEC, every other slice is held,
and the wave becomes privileged. -/
def Wave.enterHandler (w : Wave) (t : TrapDue) (tvec : DWord) (frame : Nat) : Wave :=
  let hs := t.handlers
  { w with
    slices := w.slices.mapIdx (fun i x =>
      if hs.getLsbD i then
        { x.goto tvec with
          lm := BitVec.ofNat 4 (natBits t.lanes.toNat (4 * i) 4), rjt := hs, park := .none, held := false
          heldPark := x.park, age := 0, quiet := 0, stalled := none }
      else if x.ended then x
      else { x with held := true, heldPark := x.park })
    md := 0, fencing := none, invals := [], heldMonitor := some w.monitor, monitor := .off
    p := w.p.set 0 (t.lanes)
    s := w.s.set 127 (BitVec.ofNat 32 (frame / 1024))
    spoison := w.spoison.filter (· != 127)
    mr := false, priv := true, inHandler := true, handling := some t, latch := none }

/-- A trap taken by a wave: a fatal fault when there is no handler or the wave is in it, else the frame
and the entry (R348, R349). The handler is that of the partition's TVEC when the trap was raised (R169). A frame that its
page does not let through is a fatal fault with that cause (DESIGN CHOICE, assumption 138). -/
def State.takeTrap (s : State) (k : Nat) (t : TrapDue) : State :=
  match s.waves.get? k with
  | none => s
  | some w =>
    let now := match s.parts.get? w.part with
      | some p => p.tvec
      | none => 0
    let tvec := (t.causes.findSome? (·.tvec)).getD now
    if tvec = 0 ∨ w.inHandler = true then s.fatal k t.summary
    else
      match s.writeFrame k t with
      | (s, some c) => s.fatal k c
      | (s, none) => (((s.useAnswers (.fetch w.waveid.toNat)).useAnswers (.lanes w.waveid.toNat)).count w.core (some w.quad)
          0x33 1).modWave k (fun w =>
          { w.enterHandler t tvec (s.slotAddress w) with det := w.det.map (fun d => { d with ended := true }) })

/-! ## Returning from a trap (R353, R464) -/

/-- A field of a frame that TRET reads. -/
def frameField (m : List Byte) (off n : Nat) : Nat := leNat ((m.drop off).take n)

/-- A mode register that MODE would refuse (R46). -/
def mdIllegal (md : Word) : Bool :=
  md.extractLsb' 22 10 != 0 || decide (4 < (mdScope md)) || decide (5 < (md.extractLsb' 12 3).toNat)

/-- An offset table with an entry above 5 (R127, R128). -/
def otIllegal (ot : BitVec 18) : Bool :=
  (List.range 6).any (fun i => decide (5 < natBits ot.toNat (3 * i) 3))

/-- The cause of the fatal fault that TRET takes on an invalid frame. -/
def Wave.frameFault (w : Wave) (m : List Byte) : Option Cause :=
  if mdIllegal (BitVec.ofNat 32 (frameField m 0x39C 4)) then some .illegalMode
  else if otIllegal (BitVec.ofNat 18 (frameField m 0x3B0 4)) || otIllegal (BitVec.ofNat 18 (frameField m 0x3B4 4)) ||
    (w.slices.mapIdx (fun i x => frameField m (0x240 + 8 * i) 8 % 4 != 0 ||
      !(frameField m (0x370 + i) 1 / 32 == 0 || frameField m (0x370 + i) 1 / 32 == x.heldPark.kind))).any id
  then some .illegalOperand
  else none

/-- A park re-entered by TRET: a wait starts a new limit (R464). -/
def Park.restart (p : Park) (now : Nat) : Park :=
  match p with
  | .mwait src limit _ => .mwait src limit (now + limit)
  | .barwt src addr ph limit _ => .barwt src addr ph limit (if limit = 0 then Option.none else some (now + limit))
  | p => p

/-- A slice as the frame restores it (R353): a slice still parked when it is re-parked starts a new limit;
one whose wait ended meanwhile, or whose park the handler has cleared, goes on after its word (R464); a handler slice
parks again where it was parked. -/
def Slice.restore (x : Slice) (i : Nat) (hs : SliceMask) (m : List Byte) (now : Nat) : Slice :=
  let pc := BitVec.ofNat 64 (frameField m (0x240 + 8 * i) 8)
  let rj := frameField m (0x2C0 + 8 * i) 8
  let lm := frameField m (0x360 + i) 1
  let sp := frameField m (0x370 + i) 1
  let park : Park := if sp / 32 = 0 then .none
    else if hs.getLsbD i then x.heldPark.restart now
    else x.park.restart now
  let x' := if x.pc ≠ pc then x.goto pc
    else if park = .none ∧ x.heldPark ≠ .none then Slice.goOn { x with held := false }
    else x
  if x.ended then { x with held := false, heldPark := .none }
  else
    { x' with
      lm := BitVec.ofNat 4 lm, rjc := BitVec.ofNat 48 (rj / 2 ^ 16), rjt := BitVec.ofNat 16 rj
      rgm := BitVec.ofNat 16 (frameField m (0x340 + 2 * i) 2), rsd := min (sp % 32) 16
      park, held := false, heldPark := .none, age := 0, stalled := none }

/-- The trapping gang after a precise trap: the slices that are not parked resume at a word of the clause
at CLADDR, or at the next sequential clause; the words are fetched again. A fetch fault and a clause
that could not begin start the clause again. -/
def Slice.resumePrecise (x : Slice) (t : TrapDue) (rply : Bool) : Slice :=
  let k := t.src.widx + 1 - (if rply then 1 else 0)
  if x.ended || x.park != .none then x
  else if hdrBody t.src.hdr < k then x.goto (t.src.claddr + 4#64 * BitVec.ofNat 64 (hdrLen t.src.hdr))
  else { x.goto t.src.claddr with word := if t.src.widx = 0 then 0 else k }

/-- The reissue of a deferred trap's word over the lanes that it gave a cause (R353). -/
def TrapDue.replayed (t : TrapDue) : Replay :=
  ⟨t.slices, t.src, TrapDue.lanes { t with causes := t.causes.filter (fun c => c.src.ord == t.src.ord) }, .none, false⟩

/-- A monitor that has fired while MWAIT waited for it under a handler lets it go on after TRET (R464). -/
def Wave.wakeMwait (w : Wave) : Wave :=
  if w.monitor = .fired ∧ w.slices.any (fun x => x.park.isMwait) ∧ w.isDet = false
  then { w.unpark Park.isMwait with monitor := .off } else w

/-- A wave as TRET leaves it (R353), with the monitor that stood at delivery. `again` is false when every handler slice
ended without TRET: then no word is replayed, and the gang of a precise trap goes on after its word. -/
def Wave.leaveHandler (w : Wave) (t : TrapDue) (m : List Byte) (again : Bool) (now : Nat) : Wave :=
  let rply := natBits (frameField m 0x398 4) 8 1 = 1
  let mr := natBits (frameField m 0x398 4) 9 1 = 1
  let slices := w.slices.mapIdx (fun i x => x.restore i t.handlers m now)
  let slices := if t.precise then
      slices.mapIdx (fun i x => if t.slices.getLsbD i then x.resumePrecise t (rply && again) else x)
    else slices
  let w := { w with
    slices
    md := BitVec.ofNat 32 (frameField m 0x39C 4)
    p := w.p.set 0 (BitVec.ofNat 64 (frameField m 0x3A0 8) &&& w.widthMask)
    s := w.s.set 127 (BitVec.ofNat 32 (frameField m 0x3A8 4))
    fx := BitVec.ofNat 7 (frameField m 0x3AC 4)
    priv := false, inHandler := false, handling := none, fencing := none, invals := []
    monitor := w.heldMonitor.getD .off, heldMonitor := none
    replay := if !t.precise && rply && again then t.replayed :: w.replay else w.replay }
  let w := w.wakeMwait
  if mr then { w with
    mr := true, ot0 := BitVec.ofNat 18 (frameField m 0x3B0 4), ot1 := BitVec.ofNat 18 (frameField m 0x3B4 4)
    mrs := BitVec.ofNat 16 (frameField m 0x3B8 2)
    mp := BitVec.ofNat 64 (frameField m 0x3C0 8) &&& w.widthMask }
  else w

/-- A dropped MMAK's benchmark record stops running (R206). -/
def Half.benchStop (h : Half) (o : TileOp) : Half :=
  match o.kind with
  | .mmak => { h with bench := Table.update h.bench o.tile (fun b => { b with run := false }) }
  | _ => h

/-- A slice of the wave is parked at a tile operation. -/
def Wave.parkedAt (w : Wave) (h op : Nat) : Bool :=
  w.slices.any (fun x => match x.park with
    | .tile _ i j => i == h && j == op
    | _ => false)

/-- The tile waits of a wave that TRET re-enters start new limits; one that the handler ended is given up
(R464). -/
def State.resumeTiles (s : State) (k : Nat) (before : Wave) : State :=
  match s.waves.get? k with
  | none => s
  | some w =>
    let tops := (s.half w.block w.half).tops
    let lost := tops.filter (fun t => t.wave == k && before.parkedAt w.half t.id && !w.parkedAt w.half t.id)
    let s := s.modBlock w.block (fun b => b.modHalf w.half (fun h => lost.foldl Half.benchStop { h with
      tops := (h.tops.filter (fun t => !lost.any (fun u => u.id == t.id))).map (fun t =>
        if t.wave == k && w.parkedAt w.half t.id then { t with since := some s.time } else t) }))
    lost.foldl (fun s t => s.modWave k (fun w => w.flagDown s.time t.flag)) s

/-- A frame read by TRET takes effect: it is checked, and the wave restored or its block ended. -/
def State.takeFrame (s : State) (k : Nat) (w : Wave) (t : TrapDue) (m : List Byte) (again : Bool) : State :=
  match w.frameFault m with
  | some c => s.fatal k c
  | none => ((s.modWave k (fun w => w.leaveHandler t m again s.time)).resumeTiles k
      { w with slices := w.slices.map (fun x => if x.held then x else { x with park := x.heldPark }) }).settle k

/-- TRET applied to a wave: the frame is read with strong loads (R353). A frame that its page does not let through is a
fatal fault with that cause, and outside the grant a violation (R227; DESIGN CHOICE, assumption 138). -/
def State.applyTret (s : State) (k : Nat) (again : Bool) : State :=
  match s.waves.get? k with
  | none => s
  | some w =>
    match w.handling with
    | none => s
    | some t =>
      match s.funcRead w.func (s.slotAddress w) 1024 with
      | (s, .ok m) => s.takeFrame k w t m again
      | (s, .error (c, out)) => (if out then s.waveViolation k (s.slotAddress w) else s).fatal k c

/-- The handler slices that are live. -/
def Wave.handlersLive (w : Wave) (t : TrapDue) : SliceMask :=
  t.handlers &&& w.sliceMask (fun x => !x.ended)

/-- What follows when handler slices park at TRET or end: TRET takes effect when every live one has
parked, and a wave whose handler slices all ended leaves its handler (R353). -/
def State.checkTret (s : State) (k : Nat) : State :=
  match s.waves.get? k with
  | none => s
  | some w =>
    match w.handling with
    | none => s
    | some t =>
      let live := w.handlersLive t
      if live = 0 then s.applyTret k false
      else if live = w.sliceMask (fun x => x.park == .tret) &&& t.handlers then s.applyTret k true
      else s

end Sys2Proof.Machine
end

