-- ==== Sys2Proof/Machine/Fetch.lean ====
section
/-! DEFINITION. Instruction fetch and clauses (R24 to R32, R60 to R62), and the events CLAUSE_BEGIN and
FETCH_FILL. -/

namespace Sys2Proof.Machine

/-! ## Instruction caches (R60) -/

/-- The place of a core's line at a level: its quadrant, its core or its die. -/
def iplace (level core quad : Nat) : Nat :=
  if level = 0 then core * 4 + quad else if level = 1 then core else dieOf core

/-- A cached instruction line that has arrived: `line` is a named place over 64. -/
def State.iline (s : State) (level place part line : Nat) : Option ILine :=
  s.icache.find? (fun e => e.level == level && e.place == place && e.part == part && e.line == line && decide (e.at_ ≤ s.time))

/-- The lines that a level holds: 32 KiB, 512 KiB and 16 MiB (R60). -/
def icapacity (level : Nat) : Nat := if level = 0 then 512 else if level = 1 then 8192 else 262144

/-- A line put into one level, the oldest of that place dropped beyond its capacity. -/
def icacheAdd (l : List ILine) (e : ILine) : List ILine :=
  let mine := l.filter (fun x => x.level == e.level && x.place == e.place && !(x.part == e.part && x.line == e.line))
  let rest := l.filter (fun x => !(x.level == e.level && x.place == e.place))
  e :: mine.take (icapacity e.level - 1) ++ rest

/-- I1 holds every line present in its core's I0s: an I0 line that its I1 has dropped leaves too (R60). -/
def icacheInclusive (l : List ILine) (core : Nat) : List ILine :=
  l.filter (fun x => !(x.level == 0 && x.place / 4 == core) ||
    l.any (fun y => y.level == 1 && y.place == core && y.part == x.part && y.line == x.line))

/-- The level that answers a demand for a line: 1, 2, or 3 for memory; 0 for an I0 hit. -/
def State.ilevel (s : State) (core quad part line : Nat) : Nat :=
  match (List.range 3).find? (fun k => (s.iline k (iplace k core quad) part line).isSome) with
  | some k => k
  | none => 3

/-- The line with which a level answers a demand is poisoned (R438). -/
def State.ipoisoned (s : State) (level core quad part line : Nat) : Bool :=
  match s.iline level (iplace level core quad) part line with
  | some e => e.poison
  | none => s.hpoison.contains (line / 2)

/-- The ticks after which the level that answers a fetch delivers a line (R61). -/
def fetchTicks (level : Nat) : Nat := if level = 0 then 0 else if level = 1 then 8 else if level = 2 then 36 else 200

/-- A line filled into some levels, where it arrives at a tick; its bytes come from the nearest level that holds it, or
from memory. -/
def State.ifillLevels (s : State) (levels : List Nat) (core quad part line : Nat) (ahead : Bool) (at_ : Nat) : State :=
  let (bytes, poison) := match (List.range 3).findSome? (fun k => s.iline k (iplace k core quad) part line) with
    | some e => (e.bytes, e.poison)
    | none => (s.hbm.bytes (64 * line) 64, s.hpoison.contains (line / 2))
  let l := levels.foldr (fun k l => icacheAdd l ⟨k, iplace k core quad, part, line, bytes, ahead, at_, poison⟩) s.icache
  { s with icache := icacheInclusive l core }

/-- A demand fill (R60): the line goes into every level inside the one that answers. -/
def State.ifill (s : State) (core quad part line : Nat) : State :=
  s.ifillLevels (List.range (s.ilevel core quad part line)) core quad part line false s.time

/-- IPF's fill (R62): the line goes into a level and every outer level on its path that lacks it, after the latency of
the level that answers (R61). -/
def State.ipfFill (s : State) (level core quad part line : Nat) : State :=
  s.ifillLevels ((List.range 3).filter (fun k => decide (level ≤ k) && (s.iline k (iplace k core quad) part line).isNone))
    core quad part line true (s.time + fetchTicks (s.ilevel core quad part line))

/-- A line that IPF brought before the demand fetch of a tick turns it into a hit, which counts once (R63); one that
arrived after that tick counts no more. -/
def State.countAhead (s : State) (core quad part line start : Nat) : State :=
  let mine := fun (e : ILine) => e.ahead && e.part == part && e.line == line && e.place == iplace e.level core quad &&
    decide (e.at_ ≤ s.time)
  let t : State := { s with icache := s.icache.map (fun e => if mine e then { e with ahead := false } else e) }
  if s.icache.any (fun e => mine e && decide (e.at_ ≤ start)) then t.count core (some quad) 0x14 1 else t

/-- The wave as an asker for its fetches (R233). -/
def Wave.fetcher (w : Wave) : Client := ⟨.fetch w.waveid.toNat, some w.core⟩

/-- What a fetch needs of its page (R232). -/
def Wave.fetchNeed (w : Wave) : Need := ⟨false, true, w.priv⟩

/-- The named line of 64 bytes that a fetch address lies in, by a TLB's entry or by the walk that has come back for the
wave's fetches; the fault that the fetch finds; or none while its translation is still to come (R27, R231, R233). -/
def State.fetchPlace (s : State) (w : Wave) (va : Nat) : Except (Option (Cause × Bool × Bool)) Nat :=
  if 2 ^ 56 ≤ va then .error (some (.window, false, false))
  else
    let found : Option Walk := match s.tlbHit w.core w.func va false with
      | some e => some (.leaf e.pte.toNat 0 e.base e.bits)
      | none => s.answerFor w.fetcher.who w.func va
    match found.map (fun x => x.result va w.fetchNeed) with
    | none => .error none
    | some (Translated.ok a _) => .ok (a / 64)
    | some (Translated.fault c malf out) => .error (some (c, malf, out))

/-- The named line of a code address with a walk made at once where no TLB holds its page: for IPF's lines, and for the
words of a parked clause (assumption 46). The leaf's A bit is set and its entry kept. -/
def State.codeLine (s : State) (w : Wave) (va : Nat) : Option (State × Nat) :=
  match s.fetchPlace w va with
  | .ok line => some (s, line)
  | .error (some _) => none
  | .error none =>
    let walk := s.walk w.func va
    match walk, walk.result va w.fetchNeed with
    | .leaf _ place base bits, .ok a _ =>
      let s := s.markPage place false
      some (s.tlbEnter w.core ⟨w.func, base, bits, BitVec.ofNat 64 (s.hbmLoad place 8)⟩, a / 64)
    | _, _ => none

/-- A word of code in the wave's I0, if its line is there unpoisoned. -/
def State.fetchWord (s : State) (w : Wave) (va : Nat) : Option Word :=
  match s.fetchPlace w va with
  | .error _ => none
  | .ok line =>
    ((s.iline 0 (iplace 0 w.core w.quad) w.part line).filter (fun e => !e.poison)).map (fun e =>
      BitVec.ofNat 32 (leNat ((e.bytes.drop (va % 64)).take 4)))

/-- The `n` words from an address, or the address of the first that is not there. -/
def State.fetchWords (s : State) (w : Wave) (va : Nat) : Nat → Except Nat (List Word)
  | 0 => .ok []
  | n + 1 =>
    match s.fetchWord w va with
    | none => .error va
    | some x =>
      match State.fetchWords s w (va + 4) n with
      | .ok l => .ok (x :: l)
      | .error a => .error a

/-- The words of the clause at an address (R24), or the address of the first missing one. -/
def State.clauseAt (s : State) (w : Wave) (pc : Nat) : Except Nat (List Word) :=
  match s.fetchWord w pc with
  | none => .error pc
  | some h =>
    match s.fetchWords w (pc + 4) (hdrBody h + hdrNlit h) with
    | .ok l => .ok (h :: l)
    | .error a => .error a

/-! ## Clause rules -/

/-- The opcodes that end a clause (R26). -/
def endsClause (op : Nat) : Bool :=
  [0x02, 0x03, 0x04, 0x05, 0x06, 0x07, 0x0A, 0x0B, 0x0C, 0x0D, 0x0E, 0x13].contains op

/-- The opcode of a word (R35). -/
def opcodeOf (w : Word) : Nat := (w.extractLsb' 24 8).toNat

/-- An operation of class SETA (R30). -/
def isSetA (w : Word) : Bool :=
  [0x80, 0x81, 0x82, 0x87, 0x89, 0x8B, 0x8D, 0x2A, 0x2B, 0x2C, 0x2D, 0x2E, 0x2F, 0x3B].contains (opcodeOf w) ||
  (decide (0x90 ≤ opcodeOf w) && decide (opcodeOf w ≤ 0x9D) && w.extractLsb' 16 8 != 0xE8#8)

/-- An operation of class SETB (R30). -/
def isSetB (w : Word) : Bool :=
  [0xC0, 0xC1, 0xC2, 0xC3, 0xC6, 0xC7, 0xC9, 0xCC, 0xCD, 0xB0, 0xB1, 0xB2, 0xB3, 0xB4, 0xB5, 0xB8, 0xB9].contains
    (opcodeOf w)

/-- The body words of a fetched clause. -/
def clauseBody (cl : List Word) : List Word := (cl.drop 1).take (hdrBody (cl.headD 0))

/-- A clause that raises ILLEGAL_CLAUSE before its first body word issues (R25, R26). -/
def clauseIllegal (cl : List Word) : Bool :=
  hdrIllegal (cl.headD 0) || ((clauseBody cl).dropLast).any (fun w => endsClause (opcodeOf w))

/-- The flag conditions of R31: every WAIT flag reached zero before this tick, and each SET flag has room. -/
def Wave.flagsReady (w : Wave) (cl : List Word) (now : Nat) : Bool :=
  let h := cl.headD 0
  let room := fun (set : Option Nat) (f : Word → Bool) => match set with
    | some n => decide (w.flag n + countIf f (clauseBody cl) ≤ 63)
    | none => true
  (hdrWait h).all (fun n => w.flag n == 0 && decide (w.begins.getD n 0 ≤ now)) && room (hdrSetA h) isSetA &&
  room (hdrSetB h) isSetB

/-- Slices of two masks meet. -/
def meets (x y : SliceMask) : Bool := (x &&& y) != 0

/-- An operation with no flag of a gang is still outstanding, so that the gang stalls at the end of its
clause (R32). -/
def State.untracked (s : State) (k : Nat) (w : Wave) (g : SliceMask) : Bool :=
  w.memOps.any (fun o => o.atEnd && meets o.gang g) ||
  w.specials.any (fun o => o.flag.isNone && meets o.gang g) ||
  (s.half w.block w.half).tops.any (fun t => t.wave == k && t.atEnd && meets t.gang g) ||
  s.xfers.any (fun x => x.wave == some k && x.atEnd && meets x.gang g) ||
  s.fabops.any (fun x => x.wave == k && x.atEnd && meets x.gang g)

/-- A translation of the gang is outstanding: the gang is not ready (R234). -/
def Wave.translating (w : Wave) (g : SliceMask) : Bool :=
  w.memOps.any (fun o => meets o.gang g && o.units.any (fun u => u.loc == .untranslated && u.phase == .issued))

/-- Nothing of the gang's traps stands in the way of its next word. -/
def Wave.clear (w : Wave) (g : SliceMask) : Bool :=
  !w.due.any (fun t => meets t.slices g) && !w.translating g

/-! ## Deterministic waves (R388) -/

/-- The gangs of a wave that are neither parked nor held, by first slice. -/
def Wave.gangs (w : Wave) : List SliceMask :=
  ((List.range w.slices.length).map w.gangOf).foldl (fun l g => if g = 0 ∨ l.contains g then l else l ++ [g]) []

/-- The gangs of a wave that the canonical order of its quantum does not pass over (R388). -/
def Wave.openGangs (w : Wave) : List SliceMask :=
  w.gangs.filter (fun g => !w.det.any (fun d => meets g d.skips))

/-- The gang that R388 lets issue: the one inside a clause, or else the next in turn. A gang that is parked, or that
stalls at an empty line, is passed over. One that stalls for a result on its way keeps its turn (DEDUCED, assumption 137:
the order would otherwise depend on timing, which R388 and R391 exclude). -/
def Wave.inTurn (w : Wave) (d : DetWave) : Option SliceMask :=
  let gs := w.openGangs
  match gs.find? (fun g => match w.slices[firstSlice g]? with
    | some x => x.word != 0
    | none => false) with
  | some g => some g
  | none =>
    match gs.find? (fun g => decide (d.turn < firstSlice g)) with
    | some g => some g
    | none => gs.head?

/-- A completion flag of a deterministic wave counts an operation that completes only at a commit (R272,
R386, R390): a returning atomic, an engine operation, an ESND, or an ACSP that is buffered. -/
def State.commitPending (s : State) (k : Nat) (w : Wave) (n : Nat) : Bool :=
  match w.det with
  | none => false
  | some d =>
    w.memOps.any (fun o => !o.kind.isLoad && o.flag == some n) || d.ops.any (fun o => o.flag == some n) ||
    s.xfers.any (fun x => x.wave == some k && x.flag == some n) ||
    s.fabops.any (fun x => x.wave == k && x.flag == some n)

/-- What a gang waits for is an access at an empty line: an untracked load or tile operation of its own, or one that a
flag counts which it waits for (R285, R388). -/
def State.waitsAtLine (s : State) (k : Nat) (w : Wave) (g : SliceMask) (flags : List Nat) : Bool :=
  let mine := fun (flag : Option Nat) (atEnd : Bool) (og : SliceMask) =>
    (atEnd && meets og g) || flag.any (fun n => flags.contains n)
  w.memOps.any (fun o => o.units.any (fun u => u.phase == .issued && u.since != 0) && mine o.flag o.atEnd o.gang) ||
  (s.half w.block w.half).tops.any (fun t => t.wave == k && t.since.isSome && mine t.flag t.atEnd t.gang)

/-- The flags that hold a clause back: those that it waits for and that are not zero, and those that lack room (R31). -/
def Wave.holdingFlags (w : Wave) (cl : List Word) : List Nat :=
  let h := cl.headD 0
  let full := fun (set : Option Nat) (f : Word → Bool) => set.toList.filter (fun n =>
    decide (63 < w.flag n + countIf f (clauseBody cl)))
  (hdrWait h).filter (fun n => w.flag n != 0) ++ full (hdrSetA h) isSetA ++ full (hdrSetB h) isSetB

/-- The gang of a deterministic wave whose turn it is stands at a clause start behind an access at an empty line (R388). -/
def State.passesTurn (s : State) (k : Nat) (w : Wave) (g : SliceMask) (x : Slice) : Bool :=
  w.isDet && g != 0 && x.word == 0 && w.det.any (fun d => !d.ended && w.inTurn d == some g) &&
  s.waitsAtLine k w g (match s.clauseAt w x.pc.toNat with
    | .ok cl => w.holdingFlags cl
    | .error _ => [])

/-- A gang that the order of a deterministic wave allows. -/
def Wave.orderAllows (w : Wave) (g : SliceMask) : Bool :=
  match w.det with
  | none => true
  | some d => !d.ended && w.inTurn d == some g

/-! ## Beginning a clause (R31) -/

/-- The block of a wave is being saved, and a clause start is a cut point for it (R28, R364, R376). A deterministic unit
is cut at a round end, and its quanta go on until then (R392). -/
def State.cutHere (s : State) (w : Wave) (pp : Bool) : Bool :=
  !w.isDet && s.cuts.any (fun u => u.state == .writing && u.method == .save && u.blocks.contains w.block && (pp || u.reason == 2))

/-- A precise cause at the start of a clause. -/
def clauseTrap (w : Wave) (g : SliceMask) (pc : DWord) (cl : List Word) (c : Cause) (malf fetch : Bool)
    (faddr : Nat) : TrapDue :=
  let src : WordRef := ⟨w.seq, pc, cl.headD 0, 0, 0, clauseLits cl⟩
  ⟨g, true, src, (bitsOf (w.lanes g Slice.executing)).map (fun l =>
    ⟨l, c, malf, 0, BitVec.ofNat 64 faddr, src, false, none⟩), false, fetch⟩

/-- A wave's block is held in place by a retried fault (R359). -/
def State.heldInPlace (s : State) (w : Wave) : Bool :=
  match s.blocks.get? w.block with
  | some b => b.parkedInPlace.isSome
  | none => false

/-- The ticks for which a gang has stood at its clause start: those of its latest slice. -/
def Wave.stoodOf (w : Wave) (g : SliceMask) : Nat :=
  (bitsOf g).foldl (fun a i => match w.slices[i]? with
    | some x => min a x.stood
    | none => a) (2 ^ 64)

/-- Nothing but its fetch, its flags or a redirect stands in the way of a gang's next clause: it stands at a clause
start, or resumes inside a clause whose words are fetched again. -/
def State.wouldBegin (s : State) (k : Nat) (w : Wave) (g : SliceMask) (x : Slice) : Bool :=
  g != 0 && !w.ended && w.clear g && w.orderAllows g && !s.heldInPlace w &&
  w.replays.isEmpty && decide (w.frameAt ≤ s.time) &&
  (x.cl.isEmpty || x.word == 0) &&
  (x.word != 0 || (!w.frozen && (w.causesOf g).isEmpty && !s.untracked k w g))

/-- A gang may begin its next clause; after a taken transfer two ticks pass first (R61). -/
def State.mayBegin (s : State) (k : Nat) (w : Wave) (g : SliceMask) (x : Slice) : Bool :=
  s.wouldBegin k w g x && (!x.redirect || decide (2 ≤ w.stoodOf g))

/-- The quantum of a deterministic wave ended before a clause that waits for a commit (R386). -/
def Wave.endQuantum (w : Wave) : Wave := { w with det := w.det.map (fun d => { d with ended := true }) }

/-- The lines of a clause that IPF brought before a gang came to it count as hits (R63). -/
def State.countClause (s : State) (w : Wave) (pc n start : Nat) : State :=
  let lines := ((List.range n).filterMap (fun i => (s.fetchPlace w (pc + 4 * i)).toOption)).eraseDups
  lines.foldl (fun s line => s.countAhead w.core w.quad w.part line start) s

/-- A gang that resumes inside a clause goes on at its next word, or at the next clause after the last (R353). -/
def Slice.resumed (x : Slice) (cl : List Word) : Slice :=
  if hdrBody (cl.headD 0) < x.word then x.goto (x.pc + 4#64 * BitVec.ofNat 64 (hdrLen (cl.headD 0))) else { x with cl }

/-- The flags that hold a deterministic wave's clause back count operations that complete only at a commit (R386). -/
def State.commitHolds (s : State) (k : Nat) (w : Wave) (cl : List Word) : Bool :=
  (w.holdingFlags cl).any (s.commitPending k w)

/-- The gang of a slice begins its next clause when its words are fetched and its flag conditions hold (R31); a
clause that R25 or R26 forbids traps; a slice whose wave was stopped ends at its boundary or at its park (R356). -/
def State.beginClause (s : State) (k slice : Nat) : State :=
  match s.waves.get? k with
  | none => s
  | some w =>
    let g := w.gangOf slice
    match w.slices[slice]? with
    | none => s
    | some x =>
      if w.stopped && !x.ended && w.stopsNow slice x then
        (s.modWave k (fun w => { w with slices := w.slices.mapIdx (fun i y =>
          if w.stopsNow i y then { y with ex := 0xF#4, park := .none, held := false } else y) })).settle k
      else if s.passesTurn k w g x then s.modWave k (fun w => w.skip g)
      else if !s.mayBegin k w g x then s
      else
        match s.clauseAt w x.pc.toNat with
        | .error _ => s
        | .ok cl =>
          if x.word ≠ 0 then s.modWave k (fun w => w.mapGang g (fun _ x => x.resumed cl))
          else if clauseIllegal cl then
            s.modWave k (fun w => w.fallDue (clauseTrap w g x.pc cl .illegalClause false false 0))
          else if s.cutHere w (hdrPP (cl.headD 0)) then s
          else if w.flagsReady cl s.time then
            (s.countClause w x.pc.toNat cl.length (s.time - w.stoodOf g)).modWave k (fun w =>
              { w.mapGang g (fun _ x => { x with cl, word := 1 }) with
                det := w.det.map (fun d => { d with turn := firstSlice g }) })
          else if w.isDet && s.commitHolds k w cl then s.modWave k Wave.endQuantum
          else s

/-- CLAUSE_BEGIN (R31). -/
def execClauseBegin (k slice : Nat) (s : State) : Host.Outcome State Fault Refusal := .next (s.beginClause k slice)

/-- The first address whose line a gang's next clause still misses. -/
def State.missing (s : State) (k slice : Nat) : Option (Wave × SliceMask × Slice × Nat) :=
  match s.waves.get? k with
  | none => none
  | some w =>
    match w.slices[slice]? with
    | none => none
    | some x =>
      let g := w.gangOf slice
      if g = 0 ∨ w.ended ∨ w.stopped ∨ s.heldInPlace w ∨ !(x.cl.isEmpty || x.word == 0) ∨ !w.clear g then none
      else
        match s.clauseAt w x.pc.toNat with
        | .ok _ => none
        | .error va => some (w, g, x, va)

/-- FETCH_FILL (R61): the line that a gang waits for arrives once the latency of the level that answers has passed,
or its fetch finds a fault, which is precise and comes before the clause begins (R27). A page that no TLB holds is walked
for first (R233). -/
def execFetchFill (k slice : Nat) (s : State) : Host.Outcome State Fault Refusal :=
  .next (match s.missing k slice with
    | none => s
    | some (w, g, x, va) =>
      let cl := match s.fetchWord w x.pc.toNat with
        | some h => [h]
        | none => []
      let fault := fun (t : State) (c : Cause) (malf : Bool) =>
        if (x.word = 0 ∧ !(w.causesOf g).isEmpty) || !w.orderAllows g then s
        else t.modWave k (fun w => w.fallDue (clauseTrap w g x.pc cl c malf true va))
      let done := s.useAnswers w.fetcher.who
      match s.fetchPlace w va with
      | .ok line =>
        let level := s.ilevel w.core w.quad w.part line
        if w.stoodOf g < fetchTicks level then s
        else if s.ipoisoned level w.core w.quad w.part line then fault done .hwErr false
        else (done.countAhead w.core w.quad w.part line (s.time - w.stoodOf g)).ifill w.core w.quad w.part line
      | .error (some (c, malf, out)) => fault (if out then done.waveViolation k va else done) c malf
      | .error none => s.sendMiss w.fetcher w.func va w.fetchNeed)

end Sys2Proof.Machine
end

