-- ==== Sys2Proof/Machine/Control.lean ====
section
/-! DEFINITION. The meanings of the control instructions 0x00 to 0x1E that act on the wave itself, and
the events REGANG_RELEASE, REJOIN_DEADLOCK, BARRIER_COMPLETE, MWAIT_LIMIT_EXPIRY, BARWT_LIMIT_EXPIRY
and TRAP_DELIVERY's due traps (R44 to R49, R111 to R134, R287, R353 to R368, R393). -/

namespace Sys2Proof.Machine

/-! ## Splitting a gang (R113) -/

/-- The slices of a mask that stand at one program counter. -/
def Wave.samePc (w : Wave) (g : SliceMask) (pc : DWord) : SliceMask :=
  g &&& w.sliceMask (fun x => x.pc == pc)

/-- A gang whose slices went on to more than one target: each group's tag becomes the mask of the group. -/
def Wave.split (w : Wave) (g : SliceMask) : Wave :=
  let live := g &&& w.sliceMask (fun x => !x.ended)
  match w.slices[firstSlice live]? with
  | none => w
  | some x =>
    if w.samePc live x.pc = live then w
    else w.mapGang live (fun _ y => { y with rjt := w.samePc live y.pc })

/-- The gang moved slice by slice; a control transfer ends a PHINT (R368). A slice that goes elsewhere than to the next
clause is redirected (R61). -/
def Ctx.moved (c : Ctx) (f : Nat → Slice → Slice) : Wave :=
  let w := c.w.mapGang c.gang (fun i x =>
    let y := f i x
    { y with age := 0, stalled := none, redirect := y.pc != c.next })
  { w.split c.gang with hintValid := false }

/-- The whole gang sent to one target. -/
def Ctx.sent (c : Ctx) (pc : DWord) : Wave := c.moved (fun _ x => x.goto pc)

/-- A signed word offset from the clause header (R114). -/
def Ctx.wordTarget (c : Ctx) (a : VCode) : DWord :=
  c.src.claddr + BitVec.ofInt 64 (4 * signedOf 32 (c.operand (.data 1) a 0))

/-- A cause with an address in every executing lane. -/
def Ctx.causeAt (c : Ctx) (cause : Cause) (addr : DWord) : List LaneCause :=
  (bitsOf c.exec).map (fun l => { laneCause c.src cause l with faddr := addr })

/-- The checks of a transfer's target (R114), then the transfer. -/
def Ctx.transfer (c : Ctx) (t : DWord) (r : Res) : Res :=
  if t.extractLsb' 0 2 != 0 then .trap (c.causeAt .misaligned t) false
  else if t.extractLsb' 56 8 != 0 then .trap (c.causeAt .window t) false
  else r

/-- The checks of an s operand s0 to s31 of an unguarded control instruction. -/
def Ctx.sreg (c : Ctx) (words : Nat) (a : VCode) : Checks := c.sourceOf VCode.isS (.data words) a

/-- Unguarded, and not in a melded region (R112, R130). -/
def Checks.control : Checks := { ok := true, every := true, meld := false }

/-! ## NOP, MODE, RESERVED -/

/-- NOP (R47). -/
def execNop (s : State) : Host.Outcome State Fault Refusal :=
  issueChecked s (fun _ => Checks.none) (fun _ => .next s)

/-- The decode checks of MODE. -/
def modeChecks (a b : VCode) (c : Ctx) : Checks :=
  Checks.all [Checks.control, c.sourceOf VCode.isConst .raw a, c.sourceOf VCode.isConst .raw b]

/-- MODE (R46): selected bits of MD, unless the new value is illegal. -/
def execMode (a b : VCode) (s : State) : Host.Outcome State Fault Refusal :=
  issueChecked s (modeChecks a b)
    (fun c =>
      let v := BitVec.ofNat 32 (c.operand .raw a 0)
      let m := BitVec.ofNat 32 (c.operand .raw b 0)
      let new := (c.w.md &&& ~~~m) ||| (v &&& m)
      if mdIllegal new then .trap (causesIn c.src .illegalMode c.exec) false
      else c.onWave s { c.w with md := new })

/-- A reserved opcode (R49). -/
def execReservedOpcode (_word : Word) (s : State) : Host.Outcome State Fault Refusal :=
  illegalWord s .illegalInstr

/-! ## Uniform transfers (R114, R115) -/

/-- The decode checks of BR. -/
def brChecks (a : VCode) (c : Ctx) : Checks :=
  Checks.all [Checks.control, c.sourceOf VCode.isLit (.data 1) a]

/-- BR (R114). -/
def execBr (a : VCode) (s : State) : Host.Outcome State Fault Refusal :=
  issueChecked s (brChecks a)
    (fun c => c.transfer (c.wordTarget a) (.jump (s.setWave c.key (c.sent (c.wordTarget a)))))

/-- The decode checks of BRX. -/
def brxChecks (a : VCode) (c : Ctx) : Checks :=
  Checks.all [Checks.control, c.sourceOf VCode.isEvenLit (.data 2) a]

/-- BRX (R114): a 64-bit byte offset. -/
def execBrx (a : VCode) (s : State) : Host.Outcome State Fault Refusal :=
  issueChecked s (brxChecks a)
    (fun c =>
      let t := c.src.claddr + BitVec.ofNat 64 (c.operand (.data 2) a 0)
      c.transfer t (.jump (s.setWave c.key (c.sent t))))

/-- BRS's condition: NZ, Z, LTZ, GEZ. -/
def scalarCond (cond : BitVec 2) (x : Nat) : Bool :=
  match cond.toNat with
  | 0 => x != 0
  | 1 => x == 0
  | 2 => decide (signedOf 32 x < 0)
  | _ => decide (0 ≤ signedOf 32 x)

/-- The decode checks of BRS. -/
def brsChecks (a b : VCode) (c : Ctx) : Checks :=
  Checks.all [Checks.control, c.sreg 1 a, c.sourceOf VCode.isLit (.data 1) b]

/-- BRS (R114). -/
def execBrs (cond : BitVec 2) (a b : VCode) (s : State) : Host.Outcome State Fault Refusal :=
  issueChecked s (brsChecks a b)
    (fun c =>
      let t := if scalarCond cond (c.w.sread a.sNum 1) then c.wordTarget b else c.next
      c.transfer t (.jump (s.setWave c.key (c.sent t))))

/-- The decode checks of CALL. -/
def callChecks (d a : VCode) (c : Ctx) : Checks :=
  Checks.all [Checks.control, dstS 2 d, c.sourceOf VCode.isLit (.data 1) a]

/-- CALL (R115): the link, then the transfer. -/
def execCall (d a : VCode) (s : State) : Host.Outcome State Fault Refusal :=
  issueChecked s (callChecks d a)
    (fun c =>
      let t := c.wordTarget a
      c.transfer t (.jump (s.setWave c.key ((c.sent t).swrite d.sNum 2 c.next.toNat))))

/-- The decode checks of CALLI. -/
def calliChecks (d a : VCode) (c : Ctx) : Checks :=
  Checks.all [Checks.control, dstS 2 d, c.sreg 2 a]

/-- CALLI (R115): the target is read before the link is written. -/
def execCalli (d a : VCode) (s : State) : Host.Outcome State Fault Refusal :=
  issueChecked s (calliChecks d a)
    (fun c =>
      let t := BitVec.ofNat 64 (c.w.sread a.sNum 2)
      c.transfer t (.jump (s.setWave c.key ((c.sent t).swrite d.sNum 2 c.next.toNat))))

/-- The decode checks of RET. -/
def retChecks (a : VCode) (c : Ctx) : Checks :=
  Checks.all [Checks.control, c.sreg 2 a]

/-- RET (R115). -/
def execRet (a : VCode) (s : State) : Host.Outcome State Fault Refusal :=
  issueChecked s (retChecks a)
    (fun c =>
      let t := BitVec.ofNat 64 (c.w.sread a.sNum 2)
      c.transfer t (.jump (s.setWave c.key (c.sent t))))

/-! ## Vector branches (R116, R117) -/

/-- The four bits of a slice in a lane mask. -/
def sliceBits (m : LaneMask) (i : Nat) : BitVec 4 := m.extractLsb' (4 * i) 4

/-- A reconvergence-stack entry that pends on no lanes. -/
def StackEntry.zero : StackEntry := ⟨0, 0, 0, 0⟩

/-- One slice at a BRV: an entry is pushed in every case; the taken path first when any lane takes it,
and a slice that no lane takes goes to the fall-through path with nothing pending (R116; assumption 23). -/
def Slice.branch (x : Slice) (taken : BitVec 4) (tt ft mg : DWord) : Slice :=
  let e := x.executing
  let t := e &&& taken
  let pend := if t = 0 then 0 else e &&& ~~~t
  let y := { x with rs := listUpdate x.rs x.rsd (fun _ => ⟨ft, mg, pend, x.lm⟩), rsd := x.rsd + 1 }
  if t = 0 then y.goto ft else { y.goto tt with lm := t }

/-- The decode checks of BRV. -/
def brvChecks (a b : VCode) (c : Ctx) : Checks :=
  Checks.all [Checks.control, c.sourceOf VCode.isLit (.data 1) a, c.sourceOf VCode.isLit (.data 1) b]

/-- BRV (R116). -/
def execBrv (cond : BitVec 4) (a b : VCode) (s : State) : Host.Outcome State Fault Refusal :=
  issueChecked s (brvChecks a b)
    (fun c =>
      let tt := c.wordTarget a
      let mg := c.wordTarget b
      let full := c.w.sliceMask (fun x => x.rsd == 16) &&& c.gang
      let p := c.w.p.get (cond.toNat % 8)
      let taken := if cond.toNat < 8 then p else ~~~p
      if tt.extractLsb' 56 8 != 0 then .trap (c.causeAt .window tt) false
      else if mg.extractLsb' 56 8 != 0 then .trap (c.causeAt .window mg) false
      else if full != 0 then .trap (causesIn c.src .regRange (c.exec &&& sliceLanes full)) false
      else .jump (s.setWave c.key (c.moved (fun i x => x.branch (sliceBits taken i) tt c.next mg))))

/-- The top entry of a slice's stack. -/
def Slice.top (x : Slice) : StackEntry := x.rs.getD (x.rsd - 1) StackEntry.zero

/-- The pending path of the top entry taken. -/
def Slice.takePending (x : Slice) : Slice :=
  let e := x.top
  { x.goto e.ft with lm := e.pend, rs := listUpdate x.rs (x.rsd - 1) (fun e => { e with pend := 0 }) }

/-- The top entry popped, the slice at its merge clause. -/
def Slice.popMerge (x : Slice) : Slice :=
  { x.goto x.top.mg with lm := x.top.out, rsd := x.rsd - 1 }

/-- JOIN (R117). -/
def execJoin (s : State) : Host.Outcome State Fault Refusal :=
  issueChecked s (fun _ => Checks.control)
    (fun c => .jump (s.setWave c.key (c.moved (fun _ x =>
      if x.rsd = 0 then x.goto c.next
      else if x.top.pend != 0 then x.takePending
      else x.popMerge))))

/-! ## Parking -/

/-- A gang parked at its word; it goes on at the word after it. -/
def Ctx.parked (c : Ctx) (p : Park) : Wave :=
  { c.w with
    slices := c.w.slices.mapIdx (fun i x =>
      if c.gang.getLsbD i then
        { x with park := p, word := if c.replay then x.word else c.src.widx + 1, age := 0, stalled := none }
      else x) }

/-! ## Rejoining (R118, R119) -/

/-- The decode checks of REGANG. -/
def regangChecks (a : VCode) (c : Ctx) : Checks :=
  Checks.all [Checks.control, c.sreg 1 a]

/-- REGANG (R118): the gang parks at the instance (H, RJC) with the mask it names. -/
def execRegang (a : VCode) (s : State) : Host.Outcome State Fault Refusal :=
  issueChecked s (regangChecks a)
    (fun c =>
      let m := BitVec.ofNat 16 (c.w.sread a.sNum 1) &&& c.w.sliceMask (fun _ => true)
      .jump (s.setWave c.key { { c with w := c.w.mapGang c.gang (fun _ x => { x with rgm := m }) }.parked .regang with
        hintValid := false }))

/-- The live slices of a wave. -/
def Wave.live (w : Wave) : SliceMask := w.sliceMask (fun x => !x.ended)

/-- The slices parked at a slice's REGANG instance (H, RJC). -/
def Wave.instance_ (w : Wave) (x : Slice) : SliceMask :=
  w.sliceMask (fun y => !y.ended && y.park == .regang && y.pc == x.pc && y.rjc == x.rjc)

/-- The slices of a slice's instance that are released now (R118). A held slice waits for TRET. -/
def Wave.released (w : Wave) (x : Slice) : SliceMask :=
  let p := w.instance_ x
  maskWhere 16 (fun i => p.getLsbD i && (match w.slices[i]? with
    | some y => !y.held && ((y.rgm ||| bitMask 16 i) &&& w.live &&& ~~~p) == 0
    | none => false))

/-- The first instance of a wave that releases a slice, with the slices released. -/
def Wave.regangRelease (w : Wave) : Option (Slice × SliceMask) :=
  (w.slices.filter (fun x => !x.ended && x.park == .regang)).findSome? (fun x =>
    if w.released x != 0 then some (x, w.released x) else none)

/-- A word of code as memory holds it. -/
def State.codeWord (s : State) (w : Wave) (va : Nat) : Word :=
  match s.codeLine w va with
  | some (_, line) => BitVec.ofNat 32 (s.hbm.load (64 * line + va % 64) 4)
  | none => 0

/-- The clause that a slice stands in: its own words, or, after TRET re-parked it, those in memory. -/
def State.parkedClause (s : State) (w : Wave) (x : Slice) : List Word :=
  if x.cl.isEmpty then
    let h := s.codeWord w x.pc.toNat
    h :: (List.range (hdrLen h - 1)).map (fun i => s.codeWord w (x.pc.toNat + 4 * i + 4))
  else x.cl

/-- The header of the clause that a slice stands in. -/
def State.headerOf (s : State) (w : Wave) (x : Slice) : Word := (s.parkedClause w x).headD 0

/-- REGANG_RELEASE (R118): every slice of an instance whose condition holds goes on, as one gang. -/
def execRegangRelease (k : Nat) (s : State) : Host.Outcome State Fault Refusal :=
  .next (s.modWave k (fun w =>
    match w.regangRelease with
    | none => w
    | some (x, m) => w.mapGang m (fun _ y =>
        { y.goto (x.pc + 4#64 * BitVec.ofNat 64 (hdrLen (s.headerOf w x))) with
          park := .none, rjc := y.rjc + 1, rjt := m, age := 0 })))

/-- A wave in which every live slice waits at REGANG and none is released (R119). A wave with a trap due raises nothing
more. -/
def Wave.deadlocked (w : Wave) : Bool :=
  !w.ended && w.live != 0 && w.due.isEmpty && !w.frozen && !w.stopped &&
  w.slices.all (fun x => x.ended || x.park == .regang) && w.regangRelease.isNone

/-- The REGANG at which a slice is parked: the last word of its clause (R26). -/
def State.regangWord (s : State) (w : Wave) (x : Slice) : WordRef :=
  let cl := s.parkedClause w x
  let n := hdrBody (cl.headD 0)
  ⟨w.seq, x.pc, cl.headD 0, cl.getD n 0, n, clauseLits cl⟩

/-- REJOIN_DEADLOCK (R119, R464): a precise trap in every executing lane; the slices stay parked. In its handler the wave
takes it as a fatal fault (R349). -/
def execRejoinDeadlock (k : Nat) (s : State) : Host.Outcome State Fault Refusal :=
  .next (match s.waves.get? k with
    | none => s
    | some w =>
      if !w.deadlocked then s
      else if w.inHandler then s.fatal k .rejoinDeadlock
      else match w.slices[firstSlice w.live]? with
        | none => s
        | some x =>
          let src := s.regangWord w x
          s.modWave k (fun w => w.fallDue
            ⟨w.live, true, src, causesIn src .rejoinDeadlock (w.lanes w.live Slice.executing), false, false⟩))

/-! ## Melded regions (R128, R131) -/

/-- The decode checks of MELD. -/
def meldChecks (a b : VCode) : Checks :=
  Checks.all [Checks.control, Checks.when (a.isP && b.isS && b != .s 31),
    { ok := true, meld := true, sregs := [(b.sNum, 2)] }]

/-- MELD (R128). -/
def execMeld (a b : VCode) (s : State) : Host.Outcome State Fault Refusal :=
  issueChecked s (fun _ => meldChecks a b)
    (fun c =>
      let x := c.w.sread b.sNum 1
      let y := c.w.sread (b.sNum + 1) 1
      if c.w.mr then .trap (causesIn c.src .illegalMeld c.exec) false
      else if 2 ^ 18 ≤ x ∨ 2 ^ 18 ≤ y ∨ otIllegal (BitVec.ofNat 18 x) ∨ otIllegal (BitVec.ofNat 18 y) then
        .trap (causesIn c.src .illegalOperand c.exec) false
      else c.onWave s { c.w with
        ot0 := BitVec.ofNat 18 x, ot1 := BitVec.ofNat 18 y, mr := true, mrs := c.gang
        mp := (c.w.mp &&& ~~~c.exec) ||| (c.w.p.get a.pNum &&& c.exec) })

/-- The decode checks of MELDE. -/
def meldeChecks  : Checks :=
  { Checks.control with meld := true }

/-- MELDE (R131). -/
def execMelde (s : State) : Host.Outcome State Fault Refusal :=
  issueChecked s (fun _ => meldeChecks)
    (fun c =>
      if c.melded then c.onWave s { c.w with mr := false, mrs := 0, mp := c.w.mp &&& ~~~(sliceLanes c.gang) }
      else .trap (causesIn c.src .illegalMeld c.exec) false)

/-! ## Ending lanes, yielding, waiting (R120 to R122) -/


/-- No store or atomic of some lanes is outstanding. -/
def Wave.lanesQuiet (w : Wave) (m : LaneMask) : Bool :=
  w.memOps.all (fun o => o.kind.isLoad || o.units.all (fun u => !(m.getLsbD u.lane && u.out)))

/-- The stores of a gang's lanes are performed at a scope (R120, R244). -/
def Ctx.performedAt (c : Ctx) (m : LaneMask) (scope : Nat) : Bool :=
  c.w.lanesQuiet m && (bitsOf c.gang).all (fun i => match c.w.slices[i]? with
    | some x => decide (x.times.at_ scope ≤ c.now)
    | none => true)

/-- The pending and merge lanes of a stack without the lanes that exit. -/
def Slice.dropLanes (x : Slice) (m : BitVec 4) : Slice :=
  { x with ex := x.ex ||| m, rs := x.rs.map (fun e => { e with pend := e.pend &&& ~~~m, out := e.out &&& ~~~m }) }

/-- Where a slice goes when its executing lanes have exited (R120). -/
def Slice.afterExit : Nat → Slice → Slice
  | 0, x => { x with ex := 0xF#4 }
  | n + 1, x =>
    if x.rsd = 0 then { x with ex := 0xF#4 }
    else if x.top.pend != 0 then x.takePending
    else if x.top.out != 0 then x.popMerge
    else Slice.afterExit n { x with rsd := x.rsd - 1 }


/-- A deferred trap made due, its causes recorded no longer. -/
def Wave.owe (w : Wave) (t : TrapDue) : Wave :=
  { w with due := w.due ++ [t], causes := w.causes.filter (fun c => !t.slices.getLsbD (c.lane / 4)) }

/-! ### Arrivals at barriers (R123, R126) -/

/-- The quantum of a deterministic wave ended (R386). -/
def State.endQuantum (s : State) (k : Nat) : State := s.modWave k Wave.endQuantum

/-- The live slices of a wave are all parked at one place: the wave has arrived (R123). -/
def Wave.arrivedAt (w : Wave) (p : Park) : Bool := w.live != 0 && w.slices.all (fun x => x.ended || x.park == p)

/-- The place of a barrier. -/
def barrierPark (cluster : Bool) (id : Nat) : Park := if cluster then .barc id else .barb id

/-- The barriers of a block of one kind. -/
def Block.barriers (b : Block) (cluster : Bool) : List Barrier := if cluster then b.barc else b.barb

/-- The barriers of a block of one kind changed. -/
def Block.mapBarriers (b : Block) (cluster : Bool) (f : List Barrier → List Barrier) : Block :=
  if cluster then { b with barc := f b.barc } else { b with barb := f b.barb }

/-- A wave's arrival noted in its block's barrier with its tick; it ends the quantum of a deterministic wave (R126). -/
def State.noteArrival (s : State) (k : Nat) (cluster : Bool) (id : Nat) : State :=
  match s.waves.get? k with
  | none => s
  | some w =>
    if w.arrivedAt (barrierPark cluster id) then
      (s.endQuantum k).modBlock w.block (fun b => b.mapBarriers cluster (fun l => listUpdate l id (fun b =>
        { b with arrived := b.arrived ||| bitMask 64 w.index, last := s.time })))
    else s

/-- The blocks over which a barrier completes: the block, or every block of its set (R124). -/
def State.barrierBlocks (s : State) (b : Nat) (cluster : Bool) : List Nat :=
  match s.blocks.get? b with
  | none => []
  | some x => if cluster && !(s.setPeers x).isEmpty then s.setPeers x else [b]

/-- What an EXIT means to the barriers of its wave (R120, R123): the slices that it leaves parked may be all that the wave
has, and a wave that has ended has arrived everywhere, in its block and at the BARC of its set (R125). -/
def State.noteEnd (s : State) (k : Nat) : State :=
  match s.waves.get? k with
  | none => s
  | some w =>
    if w.live = 0 then
      let note := fun (l : List Barrier) => l.map (fun x => if x.arrived = 0 then x else { x with last := s.time })
      (s.barrierBlocks w.block true).foldl (fun s b => s.modBlock b (fun x => x.mapBarriers true note))
        (s.modBlock w.block (fun b => b.mapBarriers false note))
    else
      let s := (List.range 16).foldl (fun s i => s.noteArrival k false i) s
      (List.range 4).foldl (fun s i => s.noteArrival k true i) s

/-- The decode checks of EXIT. -/
def exitChecks (a : VCode) (c : Ctx) : Checks :=
  Checks.all [Checks.control, c.sourceOf VCode.isLit (.data 1) a]

/-- EXIT (R120): it issues once the stores of its lanes have performed at its scope; in a deterministic
launch they are buffered and perform at the round's end, before the wave's end (R257, R385). The wave keeps the largest
scope that its EXITs have named. A trap of an earlier word of the clause comes first, and the lanes end after it (R347). -/
def execExit (a : VCode) (s : State) : Host.Outcome State Fault Refusal :=
  issueChecked s (exitChecks a)
    (fun c =>
      let scope := c.operand (.data 1) a 0
      if 4 < scope then .trap (causesIn c.src .illegalOperand c.exec) false
      else match c.w.deferredOf c.gang with
      | some t => .next (s.modWave c.key (fun w =>
          { w.owe t with replay := w.replay ++ [⟨c.gang, c.src, c.exec, .none, true⟩] }))
      | none =>
      if !c.w.isDet && !c.performedAt c.exec scope then .stall
      else
        let w := { c.moved (fun _ x => Slice.afterExit 17 (x.dropLanes x.executing)) with exitScope := max c.w.exitScope scope }
        .jump ((((s.setWave c.key w).noteEnd c.key).checkTret c.key).settle c.key))

/-- YIELD (R121). -/
def execYield (s : State) : Host.Outcome State Fault Refusal :=
  issueChecked s (fun _ => Checks.control)
    (fun c => .jump (s.setWave c.key (c.moved (fun _ x => { x.goto c.next with quiet := 32 }))))

/-! ## Resources granted in the order of arrival (R23) -/

/-- The tick since which a gang has waited to issue its next word; none for one that waits for something else. -/
def Wave.stalledSince (w : Wave) (g : SliceMask) : Option Nat :=
  if w.clear g && !w.frozen then (w.slices[firstSlice g]?).bind (·.stalled) else none

/-- The place of a gang that has waited since a tick among those that wait: the tick, its core, its wave slot, its first
slice. -/
def Wave.queuePlace (w : Wave) (g : SliceMask) (t : Nat) : Nat :=
  ((t * 256 + w.core) * 128 + (32 * w.quad + w.slot)) * 16 + firstSlice g

/-- A gang of some waves came earlier than the gang of the context and still waits with a word of some kind. -/
def Ctx.behind (c : Ctx) (s : State) (wants : Wave → Word → Bool) : Bool :=
  let mine := c.w.queuePlace c.gang ((c.w.stalledSince c.gang).getD c.now)
  s.waves.any (fun e => !e.2.ended && !s.heldInPlace e.2 && e.2.gangs.any (fun g =>
    wants e.2 (e.2.wordRef g).1.word && (e.2.stalledSince g).any (fun t => decide (e.2.queuePlace g t < mine))))

/-- A load of the wave has its value and is on its way back. -/
def Wave.loadsReturning (w : Wave) : Bool :=
  w.memOps.any (fun o => o.kind.isLoad && o.units.any (fun u => u.phase == .arrived))

/-- A word that waits for something that only a commit brings, once each load of its wave that is on its way has come
back: the quantum of a deterministic wave ends before it (R386; assumption 24). -/
def Ctx.stallForCommit (c : Ctx) (s : State) : Res :=
  if c.w.isDet && !c.w.loadsReturning then .hold (s.modWave c.key Wave.endQuantum) else .stall

/-- WAITF (R122): the gang stalls until every named flag reads zero. -/
def execWaitf (flags : BitVec 12) (s : State) : Host.Outcome State Fault Refusal :=
  issueChecked s (fun _ => Checks.control)
    (fun c =>
      if (bitsOf flags).all (fun n => c.w.flag n == 0) then .next s
      else if (bitsOf flags).any (fun n => s.commitPending c.key c.w n) then c.stallForCommit s
      else if c.w.isDet && s.waitsAtLine c.key c.w 0 (bitsOf flags) then c.awaitLine s
      else .stall)

/-! ## Deterministic gates (R386) -/

/-- An instruction before which a quantum ends: a deterministic wave ends its quantum and issues the word
in a later one. -/
def Ctx.afterQuantum (c : Ctx) (s : State) (r : Res) : Res :=
  match c.w.det with
  | none => r
  | some d =>
    if d.past = some c.gang then r
    else .hold (s.modWave c.key (fun w =>
      { w with det := w.det.map (fun d => { d with ended := true, past := some c.gang }) }))

/-- QUANT (R393): in a deterministic launch the quantum ends after it. -/
def execQuant (s : State) : Host.Outcome State Fault Refusal :=
  issueChecked s (fun _ => Checks.control) (fun c => c.onWave s c.w.endQuantum)

/-- The decode checks of DIGEST. -/
def digestChecks (a : VCode) (count : BitVec 3) : Checks :=
  Checks.all [Checks.unmelded, { ok := a.isV, regs := vRegs count.toNat a, reads := vRegs count.toNat a },
    Checks.when (decide (1 ≤ count.toNat) && decide (count.toNat ≤ 4))]

/-- DIGEST (R394): in a deterministic launch the record is buffered; else only the issue slot. -/
def execDigest (a : VCode) (count : BitVec 3) (s : State) : Host.Outcome State Fault Refusal :=
  issueChecked s (fun _ => digestChecks a count)
    (fun c =>
      let words := (bitsOf c.act).flatMap (fun l =>
        (List.range count.toNat).map (fun i => BitVec.ofNat 32 (c.vread (a.vNum + i) 1 l)))
      c.onWave s { c.w with det := c.w.det.map (fun d =>
        { d with buffer := d.buffer ++ [.digest c.act words] }) })

/-! ## Barriers -/

/-- BARB (R123). -/
def execBarb (id : BitVec 4) (s : State) : Host.Outcome State Fault Refusal :=
  issueChecked s (fun _ => Checks.control)
    (fun c => .jump ((s.setWave c.key { c.parked (.barb id.toNat) with hintValid := false }).noteArrival c.key false id.toNat))

/-- BARC (R124). -/
def execBarc (id : BitVec 2) (s : State) : Host.Outcome State Fault Refusal :=
  issueChecked s (fun _ => Checks.control)
    (fun c => .jump ((s.setWave c.key { c.parked (.barc id.toNat) with hintValid := false }).noteArrival c.key true id.toNat))

/-- The scope at which a barrier orders, and the ticks by which its release follows the last arrival (R98, R125). -/
def State.barrierLevel (s : State) (b : Nat) (cluster : Bool) : Nat × Nat :=
  match s.blocks.get? b with
  | none => (1, 8)
  | some x =>
    if !cluster then (if 2 ≤ x.halves.length then (2, 24) else (1, 8))
    else if (s.setPeers x).isEmpty then (1, 8)
    else if !x.far then (2, 32)
    else
      let dies := (s.setPeers x).flatMap (fun p => match s.blocks.get? p with
        | some y => y.halves.map (fun h => dieOf h.core)
        | none => [])
      (3, if dies.all (fun i => i == dies.headD 0) then 96 else 240)

/-- The live waves of some blocks. -/
def State.liveWaves (s : State) (bs : List Nat) : List (Nat × Wave) :=
  s.waves.filter (fun e => bs.contains e.2.block && e.2.live != 0)

/-- What the lanes of a wave have issued has performed at a scope: its accesses, those of its tile operations (R256), and
its commit buffer. -/
def State.performed (s : State) (k : Nat) (w : Wave) (scope : Nat) : Bool :=
  w.memOps.all (fun o => o.units.all (fun u => !u.out)) && (s.tileAccesses k w).isEmpty &&
  decide (w.times.at_ scope ≤ s.time) &&
  (match w.det with
    | some d => d.buffer.isEmpty
    | none => true)

/-- The tick of the last arrival at a barrier of some blocks. -/
def State.lastArrival (s : State) (bs : List Nat) (cluster : Bool) (id : Nat) : Nat :=
  (s.blockList bs).foldl (fun t b => match (b.barriers cluster)[id]? with
    | some x => max t x.last
    | none => t) 0

/-- Every live wave has arrived, and what they did before is performed at the barrier's scope (R123, R124). -/
def State.barrierArrived (s : State) (b : Nat) (cluster : Bool) (id : Nat) : Bool :=
  let ws := s.liveWaves (s.barrierBlocks b cluster)
  !ws.isEmpty && ws.all (fun e => e.2.arrivedAt (barrierPark cluster id) &&
    s.performed e.1 e.2 (s.barrierLevel b cluster).1)

/-- The tick at which a barrier releases: its ticks after the last arrival (R98, R125). -/
def State.barrierTick (s : State) (b : Nat) (cluster : Bool) (id : Nat) : Nat :=
  s.lastArrival (s.barrierBlocks b cluster) cluster id + (s.barrierLevel b cluster).2

/-- A barrier whose waves have all arrived releases them: all the parked slices go on, and the barrier turns to its next
phase. -/
def State.completeBarrier (s : State) (b : Nat) (cluster : Bool) (id : Nat) : State :=
  let bs := s.barrierBlocks b cluster
  let s := s.mapWaves (fun _ w => bs.contains w.block) (fun w => w.unpark (fun p => p == barrierPark cluster id))
  let s := (s.blockList bs).foldl (fun s x => x.halves.foldl (fun s h => s.dropReads h.core) s) s
  bs.foldl (fun s b => s.modBlock b (fun x =>
    x.mapBarriers cluster (fun l => listUpdate l id (fun y => ⟨0, !y.phase, y.last⟩)))) s

/-- A block is of a deterministic launch. -/
def State.detBlock (s : State) (b : Nat) : Bool :=
  match s.blocks.get? b with
  | some x => x.waves.any (fun k => match s.waves.get? k with
    | some w => w.isDet
    | none => false)
  | none => false

/-- A barrier releases now (R123 to R125); those of deterministic launches do at a round end (R390). -/
def State.barrierReady (s : State) (b : Nat) (cluster : Bool) (id : Nat) : Bool :=
  !s.detBlock b && s.barrierArrived b cluster id && decide (s.barrierTick b cluster id ≤ s.time)

/-- BARRIER_COMPLETE (R123 to R125). -/
def execBarrierComplete (b : Nat) (cluster : Bool) (id : Nat) (s : State) : Host.Outcome State Fault Refusal :=
  .next (if s.barrierReady b cluster id then s.completeBarrier b cluster id else s)

/-! ## MWAIT's and BARWT's limits (R280, R287, R464) -/

/-- A parked gang's wait ended by its limit: a precise trap with RPLY 0 in every executing lane, the
slices no longer parked (R464). In a handler that trap is fatal (R349); a held slice's limit starts anew at TRET. -/
def Wave.timeout (w : Wave) (i : Nat) (src : WordRef) (cause : Cause) : Wave :=
  match w.slices[i]? with
  | none => w
  | some x =>
    let g := w.sliceMask (fun y => !y.ended && y.park == x.park && x.together y)
    (w.mapGang g (fun _ y => { y with park := .none })).fallDue
      ⟨g, true, src, causesIn src cause (w.lanes g Slice.executing), true, false⟩

/-- MWAIT_LIMIT_EXPIRY (R287). -/
def execMwaitLimitExpiry (k slice : Nat) (s : State) : Host.Outcome State Fault Refusal :=
  .next (s.modWave k (fun w =>
    match w.slices[slice]? with
    | some x => (match x.park with
      | .mwait src _ deadline =>
        if deadline ≤ s.time ∧ x.held = false ∧ w.isDet = false then
          { w.timeout slice src .mwaitTimeout with monitor := .off }
        else w
      | _ => w)
    | none => w))

/-- BARWT_LIMIT_EXPIRY (R280). -/
def execBarwtLimitExpiry (k slice : Nat) (s : State) : Host.Outcome State Fault Refusal :=
  .next (s.modWave k (fun w =>
    match w.slices[slice]? with
    | some x => (match x.park with
      | .barwt src _ _ _ (some deadline) =>
        if deadline ≤ s.time ∧ x.held = false ∧ x.woken = none ∧ w.isDet = false then w.timeout slice src .feTimeout else w
      | _ => w)
    | none => w))

/-! ## Traps and hints (R353, R354, R365, R368) -/

/-- The decode checks of TRAP. -/
def trapChecks (a : VCode) (c : Ctx) : Checks :=
  Checks.all [Checks.unmelded, c.sourceOf (fun x => x.isSLit || x == .zero) (.data 1) a]

/-- TRAP (R354): SOFTWARE in the lanes in `act`, with RPLY 0. -/
def execTrap (a : VCode) (s : State) : Host.Outcome State Fault Refusal :=
  issueChecked s (trapChecks a)
    (fun c =>
      let code := c.operand (.data 1) a 0 % 2 ^ 16
      .trap ((bitsOf c.act).map (fun l => { laneCause c.src .software l with xinfo := code })) true)

/-- TRET (R353): the gang parks, and the wave leaves its handler when every live handler slice has. A trap of an
earlier word of the clause arose in the handler, so it is fatal (R349). -/
def execTret (s : State) : Host.Outcome State Fault Refusal :=
  issueChecked s (fun _ => Checks.control)
    (fun c =>
      if !c.w.inHandler then .trap (causesIn c.src .privilege c.exec) false
      else match c.w.deferredOf c.gang with
      | some t => .jump (s.fatal c.key t.summary)
      | none => .jump ((s.setWave c.key (c.parked .tret)).checkTret c.key))

/-- The decode checks of PHINT. -/
def phintChecks (k : BitVec 2) (c : Ctx) : Checks :=
  Checks.all [Checks.control, Checks.when (decide (k.toNat < 3) && c.litOk k.toNat 6)]

/-- PHINT (R368): the live map of l(k) to l(k + 5). -/
def execPhint (k : BitVec 2) (s : State) : Host.Outcome State Fault Refusal :=
  issueChecked s (phintChecks k)
    (fun c => c.onWave s { c.w with hint := BitVec.ofNat 192 (c.lit k.toNat 6 0), hintValid := true })

/-- IDEMB (R365). -/
def execIdemb (s : State) : Host.Outcome State Fault Refusal :=
  issueChecked s (fun _ => Checks.control) (fun c => c.onWave s { c.w with idem := !c.w.side })

/-- IDEME (R365). -/
def execIdeme (s : State) : Host.Outcome State Fault Refusal :=
  issueChecked s (fun _ => Checks.control) (fun c => c.onWave s { c.w with idem := false })

/-- The decode checks of IPF. -/
def ipfChecks (level : BitVec 2) (a : VCode) (count : BitVec 5) (c : Ctx) : Checks :=
  Checks.all [Checks.control, c.sourceOf VCode.isSLit (.data 1) a,
    Checks.when (decide (level.toNat < 3) && decide (1 ≤ count.toNat) && decide (count.toNat ≤ 16))]

/-- IPF (R62): code lines filled into a level and those outside it that lack them; a line that faults is dropped. -/
def execIpf (level : BitVec 2) (a : VCode) (count : BitVec 5) (s : State) : Host.Outcome State Fault Refusal :=
  issueChecked s (ipfChecks level a count)
    (fun c =>
      let base := (c.wordTarget a).toNat / 64
      .next ((List.range count.toNat).foldl (fun s i =>
        match s.codeLine c.w (64 * (base + i)) with
        | some (t, line) =>
          if t.hpoison.contains (line / 2) then t else t.ipfFill level.toNat c.w.core c.w.quad c.w.part line
        | none => s) s))

/-! ## TRAP_DELIVERY's choice (R348, R349) -/

/-- The traps that can be delivered now, those of the lowest first slice first. -/
def State.dueTraps (s : State) (k : Nat) (w : Wave) : List TrapDue :=
  let free := fun (g : SliceMask) => !(w.slices.mapIdx (fun i x => g.getLsbD i && x.held)).any id
  let ready := w.gangs.filter (fun g => match w.slices[firstSlice g]? with
    | some x => x.word == 0 && !w.translating g && !s.untracked k w g && w.replays.isEmpty
    | none => false)
  let precise := w.due.filter (fun t => free t.slices)
  sortOn (fun t => firstSlice t.slices)
    (precise ++ ((ready.filter (fun g => !precise.any (fun t => meets t.slices g))).filterMap w.deferredOf))

/-- The trap of a wave that is delivered next. -/
def State.nextTrap (s : State) (k : Nat) : Option (Wave × TrapDue) :=
  match s.waves.get? k with
  | none => none
  | some w => if w.ended || w.stopped then none else (s.dueTraps k w).head?.map (fun t => (w, t))

/-- A delivered trap is due no longer, and its causes are recorded no longer. -/
def Wave.undue (w : Wave) (t : TrapDue) : Wave :=
  { w with
    due := w.due.filter (fun x => x != t)
    causes := if t.precise then w.causes else w.causes.filter (fun c => !t.slices.getLsbD (c.lane / 4)) }

end Sys2Proof.Machine
end

