-- ==== Sys2Proof/Machine/Access.lean ====
section
/-! DEFINITION. One access from its checks to its place in the order of its home or bank: checks per lane (R260, R304),
the atomic units of an access (R246), request slots (R288), leases and copies (R241 to R245), arrival at
the home or bank (R243, R249, R252, R261), and what a deterministic wave sees (R387, R389). -/

namespace Sys2Proof.Machine

/-! ## Checks of one lane's access (R218, R260, R304) -/

/-- How an access meets easements (R304). -/
inductive EaseClass where
  | load | store | unchecked
  deriving DecidableEq, Repr

/-- What one lane asks for: its lane, generic address, bytes, the alignment it needs, the windows it may
use, whether it writes, and how easements bind it. -/
structure Ask where
  lane    : Nat
  addr    : Nat
  len     : Nat
  align   : Nat
  windows : List Nat
  write   : Bool
  ease    : EaseClass
  deriving DecidableEq, Repr

/-- A lane's access that passed its checks: its place and the easement it met before its translation was
known. -/
structure Granted where
  ask  : Ask
  loc  : Loc
  ease : Option Nat
  deriving DecidableEq, Repr

/-- The start of the store that a location lies in, by which easements are compared (R303). -/
def Loc.space (l : Loc) : Loc :=
  match l with
  | .untranslated | .global _ _ => .untranslated
  | .scratch b h _ => .scratch b h 0
  | .region k _ => .region k 0
  | .dieStore k _ => .dieStore k 0
  | .priv _ => .priv 0

/-- The byte offset within that store; a global address is compared by virtual address. -/
def Loc.offset (l : Loc) (va : Nat) : Nat :=
  match l with
  | .untranslated | .global _ _ => va % 2 ^ 56
  | .scratch _ _ o | .region _ o | .dieStore _ o => o
  | .priv a => a

/-- The entries of a core's table that meet an access, lowest index first (R303, R304). -/
def State.easesMet (s : State) (core func : Nat) (l : Loc) (va n : Nat) : List (Nat × Ease) :=
  let first := l.offset va / 128
  let last := (l.offset va + n - 1) / 128
  (s.core core).eases.filter (fun e => (l.space != .untranslated || e.2.func == func) &&
    e.2.runs.any (fun r => r.1 == l.space && decide (r.2.1 ≤ last) && decide (first ≤ r.2.2)))

/-- The cores whose tables an access is checked against: the issuing wave's core, and the core whose
scratchpad it reaches (R304). -/
def State.easeCores (s : State) (w : Wave) (l : Loc) : List Nat :=
  match l with
  | .scratch b h _ => [w.core, (s.half b h).core].eraseDups
  | .region k _ => match s.regions.get? k with
    | some r => [w.core, r.core].eraseDups
    | none => [w.core]
  | _ => [w.core]

/-- The lowest easement entry that stops an access (R304). -/
def State.easeStop (s : State) (w : Wave) (l : Loc) (a : Ask) : Option Nat :=
  match a.ease with
  | .unchecked => none
  | kind =>
    let met := (s.easeCores w l).flatMap (fun k => s.easesMet k w.func l a.addr a.len)
    let stops := if kind = .store then met
      else if s.lineEmpty l then [] else met.filter (fun e => e.2.dst)
    listMin (stops.map (·.1))

/-- The cluster region that an access reaches has been lost (R357). -/
def State.regionLost (s : State) (l : Loc) : Bool :=
  match l with
  | .region k _ => match s.regions.get? k with
    | some r => r.lost
    | none => false
  | _ => false

/-- The slot number of a cluster region, or the half of a paired block, for XINFO (R351). -/
def State.regionSlot (s : State) (l : Loc) : Nat :=
  match l with
  | .region k _ => match s.regions.get? k with
    | some r => r.slot
    | none => 0
  | .scratch _ h _ => h
  | _ => 0

/-- What a wave's access reaches through a cluster window has been lost: a region, or the other half of its paired block
(R99, R357). -/
def State.lostTo (s : State) (w : Wave) (l : Loc) : Bool :=
  s.regionLost l || (match l with
    | .scratch b h _ => h != w.half && (s.half b h).lost
    | _ => false)

/-- A lane's recorded cause with its address. -/
def faultAt (src : WordRef) (a : Ask) (c : Cause) (malf : Bool) (xinfo : Nat) : LaneCause :=
  ⟨a.lane, c, malf, xinfo, BitVec.ofNat 64 a.addr, src, false, none⟩

/-- The place of a generic address for a lane, before translation, and the address's window check. -/
def State.place (s : State) (w : Wave) (b : Block) (a : Ask) : Except Cause Loc :=
  if !a.windows.contains (a.addr / 2 ^ 56) then .error .window else s.window w b a.lane a.addr a.len

/-- The checks of one lane's access in code order; a global address whose page is in no TLB is answered
with its translation still to come (R233, R234, R260). -/
def State.check (s : State) (w : Wave) (b : Block) (src : WordRef) (a : Ask) : Except LaneCause Granted :=
  if a.addr % a.align ≠ 0 then .error (faultAt src a .misaligned false 0)
  else
    match s.place w b a with
    | .error c => .error (faultAt src a c false 0)
    | .ok .untranslated =>
      let ease := s.easeStop w .untranslated a
      (match s.tlbHit w.core w.func a.addr a.write with
        | none => .ok ⟨a, .untranslated, ease⟩
        | some e => match e.result a.addr (w.need a.write) with
          | .fault c malf _ => .error (faultAt src a c malf 0)
          | .ok pa u => match ease with
            | some k => .error (faultAt src a .easement false k)
            | none => .ok ⟨a, .global pa u, none⟩)
    | .ok l =>
      match s.easeStop w l a with
      | some k => .error (faultAt src a .easement false k)
      | none => if s.regionLost l then .error (faultAt src a .peerLost false (s.regionSlot l)) else .ok ⟨a, l, none⟩

/-- The accesses that passed and the causes of the others. -/
def State.checkAll (s : State) (w : Wave) (b : Block) (src : WordRef) (l : List Ask) :
    List Granted × List LaneCause :=
  l.foldr (fun a acc => match s.check w b src a with
    | .ok g => (g :: acc.1, acc.2)
    | .error c => (acc.1, c :: acc.2)) ([], [])

/-- The wave as an asker for its lanes' accesses and MON (R233). -/
def Wave.asker (w : Wave) : Client := ⟨.lanes w.waveid.toNat, some w.core⟩

/-- Some accesses whose translation is still to come send their misses (R233); none when each is there. -/
def State.awaitWalks (s : State) (w : Wave) (l : List Granted) : Option State :=
  let out := l.filter (fun g => g.loc == .untranslated && (s.answerFor w.asker.who w.func g.ask.addr).isNone)
  if out.isEmpty then none
  else some (out.foldl (fun s g => s.sendMiss w.asker w.func g.ask.addr (w.need g.ask.write)) s)

/-- The translation of an access by the walk that has come back for it, whose A, and D for a write, are set where the leaf
allows the access, although an easement may stop it then (R231, R232; DESIGN CHOICE, assumption 140: R232 sets them before
the access performs). A page outside the grant freezes the wave (R429). -/
def State.resolve (s : State) (k : Nat) (w : Wave) (src : WordRef) (g : Granted) : State × Except LaneCause Granted :=
  if g.loc ≠ .untranslated then (s, .ok g)
  else
    let walk := (s.answerFor w.asker.who w.func g.ask.addr).getD (.notPresent false)
    match walk.result g.ask.addr (w.need g.ask.write) with
    | .ok pa u =>
      (match g.ease with
        | some e => (s, .error (faultAt src g.ask .easement false e))
        | none => (s, .ok { g with loc := .global pa u }))
    | .fault c malf out =>
      (if out then s.waveViolation k g.ask.addr else s, .error (faultAt src g.ask c malf 0))

/-- Several accesses resolved at once. -/
def State.resolveAll (s : State) (k : Nat) (w : Wave) (src : WordRef) :
    List Granted → State × List Granted × List LaneCause
  | [] => (s, [], [])
  | g :: rest =>
    let (s, r) := s.resolve k w src g
    let (s, ok, bad) := State.resolveAll s k w src rest
    match r with
    | .ok g => (s, g :: ok, bad)
    | .error c => (s, ok, c :: bad)

/-! ## Units (R246, R266) -/

/-- A location in global or private memory, whose stores travel to a home (R220). -/
def Loc.offChip (l : Loc) : Bool :=
  match l with
  | .untranslated | .global _ _ | .priv _ => true
  | _ => false

/-- The length of the single-copy atomic units of an access (R246, R266). -/
def unitLen (l : Loc) (strong : Bool) (n : Nat) : Nat := if l.offChip then (if strong then n else min n 4) else min n 8

/-- The units of one lane's access: `data` is its whole data, `reg` its first data register. -/
def unitsOf (g : Granted) (strong : Bool) (n data cmp reg : Nat) : List MemUnit :=
  let k := max 1 (unitLen g.loc strong n)
  (List.range (n / k)).map (fun i =>
    { lane := g.ask.lane, off := i * k, len := k, va := BitVec.ofNat 64 (g.ask.addr + i * k),
      loc := g.loc.plus (i * k), phase := .issued, data := BitVec.ofNat 64 (data / 2 ^ (8 * (i * k)) % 2 ^ (8 * k)),
      cmp := BitVec.ofNat 64 cmp, reg := reg + i * k / 4, since := 0, gwct := 0, ease := g.ease
      sent := none, rank := 0, noL2 := false, noL1 := false })

/-! ## Request slots (R288, R289) -/

/-- The line that a unit holds a request slot for, if its place takes slots. -/
def State.slotLine (s : State) (w : Wave) (u : MemUnit) : Option (Nat × Nat) :=
  match u.loc with
  | .untranslated => some (0, u.va.toNat % 2 ^ 56 / 128)
  | .global _ _ => some (0, u.va.toNat % 2 ^ 56 / 128)
  | .priv a => some (1, a / 128)
  | .scratch b h off => if h = w.half then none else some (2 + 2 * b + h, off / 128)
  | .region k off => match s.regions.get? k with
    | some r => if r.core = w.core then none else some (2 ^ 40 + k, off / 128)
    | none => none
  | .dieStore _ _ => none

/-- The slots of an operation. -/
def State.slotsOf (s : State) (w : Wave) (o : MemOp) : Nat :=
  match o.kind with
  | .token _ _ _ _ | .task _ => 0
  | _ => ((o.units.filter MemUnit.out).filterMap (s.slotLine w)).eraseDups.length

/-- The slots that a wave holds. -/
def State.waveSlots (s : State) (w : Wave) : Nat := (w.memOps.map (s.slotsOf w)).foldl (· + ·) 0

/-- The slots in use on a core. -/
def State.coreSlots (s : State) (core : Nat) : Nat :=
  ((s.waves.filter (fun e => e.2.core == core)).map (fun e => s.waveSlots e.2)).foldl (· + ·) 0

/-- An operation's slots are free (R289). -/
def State.slotsFree (s : State) (w : Wave) (o : MemOp) : Bool :=
  decide (s.coreSlots w.core + s.slotsOf w o ≤ 2048) && decide (s.waveSlots w + s.slotsOf w o ≤ 512)

/-! ## Leases and copies (R241 to R245) -/

/-- The line of a location that has copies: global pages that are cached, and private lines (R220). -/
def Loc.cacheLine (l : Loc) : Option Nat :=
  match l with
  | .global a false => some (a / 128)
  | .priv a => some (2 ^ 44 + a / 128)
  | _ => none

/-- The line of a location that a home orders and leases. -/
def Loc.homeLine (l : Loc) : Option Nat :=
  match l with
  | .global a _ => some (a / 128)
  | .priv a => some (2 ^ 44 + a / 128)
  | _ => none

/-- The bytes of a line at its home. -/
def State.lineBytes (s : State) (line : Nat) : List Byte :=
  if line < 2 ^ 44 then s.hbm.bytes (128 * line) 128 else s.privMem.bytes (128 * (line - 2 ^ 44)) 128

/-- The memory die of a line: its home (R226); private lines are spread by the arena, one table here. -/
def homeDie (line : Nat) : Nat := line / 2 ^ 29

/-- The unexpired leases of a home. -/
def State.leaseCount (s : State) (die : Nat) : Nat :=
  countIf (fun e => homeDie e.1 == die && decide (s.time < e.2)) s.leases

/-- The lease that a home grants a fill now (R241): none to keep when its table is full. -/
def State.grantLease (s : State) (line len : Nat) : State × Nat :=
  let full := decide (1048576 ≤ s.leaseCount (homeDie line)) && decide (s.leases.getD line 0 ≤ s.time)
  if full then (s, s.time)
  else
    let e := s.time + len
    ({ s with leases := s.leases.set line (max e (s.leases.getD line 0)) }, e)

/-- A copy is valid while the local time is below E − 8 (R242). -/
def Copy.valid (e : Copy) (now : Nat) : Bool := decide (now + 8 < e.expiry)

/-- The valid copy of a line in a cache. -/
def copyOf (l : List Copy) (now line : Nat) : Option Copy := l.find? (fun e => e.line == line && e.valid now)

/-- The copy that may serve a core, and whether it is the L1's. -/
def State.copyFor (s : State) (core line : Nat) : Option (Copy × Bool) :=
  match copyOf (s.core core).l1 s.time line with
  | some e => some (e, true)
  | none => (copyOf (s.dies.getD (dieOf core) Die.reset).l2 s.time line).map (fun e => (e, false))

/-- A copy put in a cache of some lines in place of the line's older one; the oldest copy leaves a full cache. -/
def copyPut (size : Nat) (l : List Copy) (e : Copy) : List Copy := (e :: l.filter (fun x => x.line != e.line)).take size

/-- The lines that an L1 of 256 KiB and an L2 of 96 MiB hold (R15, R18). -/
def l1Lines : Nat := 2048
/-- The lines of an L2. -/
def l2Lines : Nat := 786432

/-- A fill requested by a unit's access: the home's bytes and lease, on their way (R241), not to be installed where an
acknowledgement of the line or INVL1 has passed since the request (R245, R275). -/
def State.startFill (s : State) (core line len : Nat) (l1 noL2 noL1 : Bool) : State :=
  let (s, e) := s.grantLease line len
  { s with
    fills := s.fills ++ [⟨s.nextId, core, line, s.time, e, s.lineBytes line, s.hpoison.contains line, l1, noL2, noL1⟩]
    nextId := s.nextId + 1 }

/-- Bytes of a line replaced. -/
def patchLine (bytes : List Byte) (off n x : Nat) : List Byte :=
  bytes.take off ++ leBytes n x ++ bytes.drop (off + n)

/-- A load that has not reached its home is overtaken by an acknowledgement of its line at its die's L2, and at its core's
L1 when it is of that core (R245). -/
def MemUnit.overtaken (u : MemUnit) (line : Nat) (sameCore : Bool) : MemUnit :=
  if u.phase == .issued && u.loc.cacheLine == some line then { u with noL2 := true, noL1 := u.noL1 || sameCore } else u

/-- What an acknowledged store, through a cached mapping or not, does to the copies of the issuing die and core, and to
requests and fills under way that it overtakes (R240, R245). -/
def State.patchCopies (s : State) (core : Nat) (l : Loc) (n x : Nat) : State :=
  match l.homeLine with
  | none => s
  | some line =>
    let off := (match l with
      | .global a _ => a
      | .priv a => a
      | _ => 0) % 128
    let patch := fun (c : List Copy) =>
      c.map (fun e => if e.line == line then { e with bytes := patchLine e.bytes off n x } else e)
    let s := s.modCore core (fun c => { c with l1 := patch c.l1 })
    let s := s.modDie (dieOf core) (fun d => { d with l2 := patch d.l2 })
    let s := s.mapWaves (fun _ w => dieOf w.core == dieOf core) (fun w =>
      { w with memOps := w.memOps.map (fun o => if o.kind.isLoad then
          { o with units := o.units.map (fun u => u.overtaken line (w.core == core)) } else o) })
    { s with fills := s.fills.map (fun f =>
        if f.line == line && dieOf f.core == dieOf core then
          { f with overL2 := true, overL1 := f.overL1 || f.core == core }
        else f) }

/-! ## Atomics (R269, R270, R297) -/

/-- An element type's value in an atomic's width. -/
def atomicInt (t : Ty) (x : Nat) : Int := if t.isSigned then signedOf t.bits x else (x % 2 ^ t.bits : Nat)

/-- The new value of an atomic: `m` the old value, `x` the operand (the compare value of ACAS), `v` the
new value of ACAS. -/
def atomicNew (op : AtomicOp) (t : Ty) (r : Round) (m x v : Nat) : Nat :=
  let w := 2 ^ t.bits
  match op with
  | .add => (m + x) % w
  | .min => if atomicInt t x < atomicInt t m then x else m
  | .max => if atomicInt t m < atomicInt t x then x else m
  | .and => m &&& x
  | .or => m ||| x
  | .xor => m ^^^ x
  | .xchg => x
  | .cas => if m = x then v else m
  | .inc => if x ≤ m then 0 else m + 1
  | .dec => if m = 0 ∨ x < m then x else m - 1
  | .fadd => (elemArith .add t r m x 0).1
  | .addn =>
    let sum := atomicInt t m + atomicInt t x
    let lo : Int := if t.isSigned then -(2 ^ (t.bits - 1)) else 0
    let hi : Int := if t.isSigned then 2 ^ (t.bits - 1) - 1 else 2 ^ t.bits - 1
    intBits t.bits (max lo (min hi sum))

/-! ## Arrival at a home or bank -/

/-- Operations that read or update barrier objects (R280). -/
def MemKind.isBarrier : MemKind → Bool
  | .barInit | .barExp | .barArr | .probe false => true
  | _ => false

/-- A line requested by PFD, which no access waits for (R268). -/
def MemKind.isPrefetch : MemKind → Bool
  | .prefetch _ => true
  | _ => false

/-- Operations that reach a location after every earlier load of the lane has its value (R240). -/
def MemKind.isStore : MemKind → Bool
  | .store _ _ | .atomic _ => true
  | _ => false

/-- An operation that writes a line's bytes at its bank or home: a store, an atomic, or an update of a barrier object. -/
def MemKind.writes (k : MemKind) : Bool :=
  k.isStore || (match k with
    | .barInit | .barExp | .barArr => true
    | _ => false)

/-- A load's or an atomic's read (R389). -/
def MemKind.reads : MemKind → Bool
  | .load _ _ | .atomic _ => true
  | _ => false

/-- An access that has a place and reads or writes it. -/
def MemKind.isAccess : MemKind → Bool
  | .prefetch _ | .token _ _ _ _ | .task _ => false
  | _ => true

/-- A strong access (R246). -/
def MemKind.isStrong : MemKind → Bool
  | .load st _ => st
  | .store st _ => st
  | .atomic _ => true
  | _ => false

/-- An access that waits on an empty line: loads and on-chip atomics (R285). -/
def MemKind.waitsEmpty : MemKind → Bool
  | .load _ _ | .atomic _ => true
  | _ => false

/-- The bytes of a unit's place that it orders: a full/empty update covers its line. -/
def unitSpan (k : MemKind) (u : MemUnit) : Loc × Nat :=
  match k with
  | .fe _ | .probe true => (u.loc.line, 128)
  | _ => (u.loc, u.len)

/-- Two units are of one agent, so that program order relates them (R240, R280). -/
def sameAgent (o : MemOp) (v : MemUnit) (p : MemOp) (u : MemUnit) : Bool :=
  v.lane == u.lane || ((o.kind.isBarrier || p.kind.isBarrier) && meets o.gang p.gang)

/-- In cluster memory. -/
def Loc.inCluster (l : Loc) : Bool :=
  match l with
  | .region _ _ | .scratch _ _ _ => true
  | _ => false

/-- FEFULL orders the earlier accesses of every lane of its wave to its line, but for those that wait at the bank for
the line to become full (R255, R282, R285). -/
def fullHolds (o : MemOp) (v : MemUnit) (p : MemOp) (u : MemUnit) : Bool :=
  match p.kind with
  | .fe true => o.kind.isAccess && v.phase == .issued && v.since == 0 && v.loc.line == u.loc.line
  | _ => false

/-- A unit waits at its bank and a later one is the FEFULL that it may wait for (R285). -/
def awaitsFull (v : MemUnit) (p : MemOp) : Bool :=
  match p.kind with
  | .fe true => v.since != 0
  | _ => false

/-- Two units' bytes meet, as their operations order them. -/
def spansMeet (o : MemOp) (v : MemUnit) (p : MemOp) (u : MemUnit) : Bool :=
  (unitSpan o.kind v).1.overlaps (unitSpan o.kind v).2 (unitSpan p.kind u).1 (unitSpan p.kind u).2

/-- An earlier unit holds back a later one of the same agent (R240, R266, R282). -/
def holdsBack (o : MemOp) (v : MemUnit) (p : MemOp) (u : MemUnit) : Bool :=
  fullHolds o v p u ||
  (o.kind.isAccess && v.phase == .issued && sameAgent o v p u && !awaitsFull v p &&
    ((p.kind.isStore && (match o.kind with
      | .load _ _ | .atomic _ => v.lane == u.lane
      | _ => false)) ||
     spansMeet o v p u ||
     (o.kind.isStrong && p.kind.isStrong && o.kind.isStore && v.loc.inCluster && u.loc.inCluster)))

/-- The operations of a list before the one of an id. -/
def opsBefore (l : List MemOp) (ident : Nat) : List MemOp := l.takeWhile (fun o => o.id != ident)

/-- The scope that a releasing operation names: MD.SCOPE, and device scope or wider for GFIRE, SPAWN
(R250, R343, R345). -/
def releaseScope (o : MemOp) : Option Nat :=
  match o.kind with
  | .store _ true => some (mdScope o.md)
  | .token _ _ _ _ => some (max 3 (mdScope o.md))
  | .task _ => some 3
  | _ => none

/-- The release conditions of R250 hold for one lane's operation: every earlier access of the lane has performed, those of
its gang's tile operations among them (R256), and the wave's completion time for the scope has been reached. -/
def State.releaseReady (s : State) (k : Nat) (w : Wave) (o : MemOp) (u : MemUnit) : Bool :=
  match releaseScope o with
  | none => true
  | some sc =>
    (opsBefore w.memOps o.id).all (fun p => !p.kind.isAccess || p.kind.isProbe || p.units.all (fun v => !(v.out && sameAgent p v o u))) &&
    (s.tileAccesses k w).all (fun t => !(t.gang.getLsbD (u.lane / 4) && decide (t.src.ord < o.src.ord))) &&
    decide (w.times.at_ sc ≤ s.time)

/-- The units of a wave that may leave the core do: those with a place and, of a release, those whose conditions hold
(R237, R250); a GFIRE's tokens and a SPAWN's tasks leave together (R343, R345). -/
def State.depart (s : State) (k : Nat) : State :=
  match s.waves.get? k with
  | none => s
  | some w =>
    let go := fun (o : MemOp) (u : MemUnit) =>
      if u.sent.isNone && u.phase == .issued && u.loc != .untranslated &&
        (match o.kind with
          | .token _ _ _ _ | .task _ => o.units.all (s.releaseReady k w o)
          | _ => s.releaseReady k w o u)
      then { u with sent := some s.time } else u
    if w.memOps.all (fun o => o.units.all (fun u => u.sent.isSome)) then s
    else s.setWave k { w with memOps := w.memOps.map (fun o => { o with units := o.units.map (go o) }) }

/-- A unit that waits at its bank for its line to become full (R285). -/
def State.waitsHere (s : State) (o : MemOp) (u : MemUnit) : Bool := o.kind.waitsEmpty && s.lineEmpty u.loc

/-! ### Times and ties of arrivals (R237, R249, R252) -/

/-- The home or bank of a location: a memory die, the private arena, a die's scratchpad, a core's (R249, R253). -/
def State.bankOf (s : State) (l : Loc) : Option Nat :=
  match l with
  | .untranslated => none
  | .global a _ => some (a / 2 ^ 36)
  | .priv _ => some 8
  | .dieStore k _ => (s.dregions.get? k).map (fun r => 12 + r.die)
  | .scratch b h _ => some (16 + (s.half b h).core)
  | .region k _ => (s.regions.get? k).map (fun r => 16 + r.core)

/-- The place of a wave's accesses in the order of ties: compute die, core, WAVEID (R249). -/
def tieKey (core : Nat) (waveid : DWord) : Nat := (dieOf core * 64 + core % 36) * 2 ^ 64 + waveid.toNat

/-- The place of a copy engine's accesses: after every core of its die; of two engines of a die, that of the lower cluster
first (DESIGN CHOICE, assumption 139: R249 does not order them). -/
def engineKey (core : Nat) : Nat := (dieOf core * 64 + 36 + clusterOf core % 9) * 2 ^ 64

/-- The place of the host port's accesses and the control die's: after every core and engine (R249; DEDUCED, assumption 158:
the control die holds the host port, and R249 names no place of its own for the accesses of R463). -/
def hostKey : Nat := 256 * 2 ^ 64

/-- No access that comes later in the order of ties has reached a location's home or bank in this tick. -/
def State.mayLand (s : State) (l : Loc) (key : Nat) : Bool :=
  match s.bankOf l with
  | some b => decide (s.landed.getD b 0 ≤ key)
  | none => true

/-- An access has reached a location's home or bank in this tick. -/
def State.land (s : State) (l : Loc) (key : Nat) : State :=
  match s.bankOf l with
  | some b => { s with landed := s.landed.set b (max key (s.landed.getD b 0)) }
  | none => s

/-- A unit may take its place in its location's order now: it has left the core and has arrived, nothing of its own
agent holds it back, and no later one in the order of ties has come first in this tick. Those of deterministic waves take
theirs at a commit (R385). -/
def State.mayArrive (s : State) (w : Wave) (o : MemOp) (u : MemUnit) : Bool :=
  !w.isDet && u.phase == .issued && u.loc != .untranslated && u.sent.any (s.reached w.core u.loc) &&
  (!o.kind.isAccess || s.mayLand u.loc (tieKey w.core w.waveid)) &&
  !(opsBefore w.memOps o.id).any (fun p => p.units.any (fun v => holdsBack p v o u))

/-- The core whose scratchpad a location of cluster memory lies in, when it is another than this one
(R253). -/
def State.remote (s : State) (core : Nat) (l : Loc) : Bool :=
  match l with
  | .scratch b h _ => (s.half b h).core != core
  | .region k _ => match s.regions.get? k with
    | some r => r.core != core
    | none => false
  | _ => false

/-- The 128 bytes of a location's line. -/
def State.lineAt (s : State) (l : Loc) : List Byte := leBytes 128 (s.readLoc l.line 128)

/-- A weak load of another core's slot leaves its line in the cluster read buffer, where it arrives after more than 8
ticks (R237, R253). -/
def State.bufferRead (s : State) (core : Nat) (l : Loc) : State :=
  if s.remote core l then
    let e := (l.line, s.time, s.lineAt l)
    s.modCore core (fun c => { c with reads := e :: c.reads.filter (fun x => x.1 != l.line && decide (s.time ≤ x.2.1 + 64)) })
  else s

/-- A core's own store drops its buffered line (R240, R253). -/
def State.dropRead (s : State) (core : Nat) (l : Loc) : State :=
  if l.inCluster then s.modCore core (fun c => { c with reads := c.reads.filter (fun x => x.1 != l.line) }) else s

/-- The memory effect of one unit at its place, and the unit after it: its phase, the value that it
obtained, and for atomics the value that it left. -/
def State.performUnit (s : State) (core : Nat) (o : MemOp) (u : MemUnit) : State × MemUnit :=
  let after : UnitPhase := if u.loc.offChip || s.remote core u.loc then .arrived else .done
  let posted := { u with phase := after, since := s.time }
  let g := match u.loc.homeLine with
    | some line => s.gwctOf line
    | none => 0
  match o.kind with
  | .load strong _ =>
    let u' := { u with phase := .arrived, data := BitVec.ofNat 64 (s.readLoc u.loc u.len), since := s.time }
    (match strong, u.loc.cacheLine with
      | false, some line => (s.startFill core line o.lease true u.noL2 u.noL1, u')
      | false, none => (s.bufferRead core u.loc, u')
      | _, _ => (s, u'))
  | .store _ _ =>
    let s' := (s.storeAt u.loc u.len u.data.toNat).dropRead core u.loc
    ({ s' with nextId := s.nextId + 1 }, { u with phase := after, since := s.time, gwct := g, rank := s.nextId })
  | .atomic op =>
    let m := s.readLoc u.loc u.len
    let t := mdType o.md
    let new := atomicNew op t (mdRound o.md) m (if op = .cas then u.cmp.toNat else u.data.toNat) u.data.toNat
    let s' := (s.storeAt u.loc u.len new).dropRead core u.loc
    ({ s' with nextId := s.nextId + 1 },
      { u with phase := if o.returns then .arrived else after, data := BitVec.ofNat 64 m
               cmp := BitVec.ofNat 64 new, since := s.time, gwct := g, rank := s.nextId })
  | .barInit => (s.updateBarrier u.loc (fun _ => ⟨false, 0, u.data.toNat, 0, 0⟩), posted)
  | .barExp => (s.updateBarrier u.loc (BarObj.expect u.data.toNat), posted)
  | .barArr => (s.updateBarrier u.loc (BarObj.arrive u.data.toNat), posted)
  | .fe full => (s.setLine u.loc full, posted)
  | .probe fe =>
    let hit := if fe then !s.lineEmpty u.loc else (s.barObj u.loc).ph
    (s, { u with phase := .arrived, data := if hit then 1 else 0, since := s.time })
  | .prefetch l1 =>
    ((match u.loc.cacheLine with
      | some line => s.startFill core line o.lease l1 u.noL2 u.noL1
      | none => s), { u with phase := .arrived, since := s.time })
  | .token _ _ _ _ | .task _ => (s, { u with phase := .done })

/-! ## What a deterministic wave sees (R387, R389) -/

/-- The distinct lines that a deterministic wave's buffer holds (R386). -/
def DetWave.lines (d : DetWave) : List Loc :=
  ((d.ops.filter (·.kind.isAccess)).flatMap (fun o => o.units.map (fun u => u.loc.line))).eraseDups

/-- Buffered accesses of some units would need a 257th line in the commit buffer (R386). -/
def DetWave.overflows (d : DetWave) (units : List MemUnit) : Bool :=
  decide (256 < ((d.lines ++ units.map (fun u => u.loc.line)).eraseDups).length) && !d.buffer.isEmpty

/-- The state as a deterministic wave sees it: what rounds have committed, and over it the wave's own
buffered accesses (R387). -/
def State.detView (s : State) (core : Nat) (d : DetWave) : State :=
  d.buffer.foldl (fun s b => match b with
    | .mem o => o.units.foldl (fun s u => (s.performUnit core o u).1) s
    | _ => s) s

/-- The tag line of a location: global memory, die scratchpad and cluster memory are tagged (R389). -/
def Loc.tagLine (l : Loc) : Option Nat :=
  match l with
  | .global a _ => some (a / 128)
  | .dieStore k o => some (2 ^ 45 + k * 2 ^ 20 + o / 128)
  | .region k o => some (2 ^ 46 + k * 2 ^ 20 + o / 128)
  | _ => none

/-- A line that a higher block of the launch than the wave's has written (R389). -/
def State.detOrder (s : State) (w : Wave) (l : Loc) : Bool :=
  match s.blocks.get? w.block, w.det, l.tagLine with
  | some b, some d, some line =>
    (match s.grids.get? (s.rootGrid b.grid) with
      | some g => match g.det with
        | some x => (match x.tags.get? line with
          | some i => decide (d.blk < i)
          | none => false)
        | none => false
      | none => false)
  | _, _, _ => false

/-- A line tagged with the block index of a deterministic wave whose commit wrote it (R389). -/
def State.tagWrite (s : State) (w : Wave) (l : Loc) : State :=
  match s.blocks.get? w.block, w.det, l.tagLine with
  | some b, some d, some line => s.modGrid (s.rootGrid b.grid) (fun g =>
      { g with det := g.det.map (fun x => { x with tags := x.tags.set line (max d.blk (x.tags.getD line 0)) }) })
  | _, _, _ => s

end Sys2Proof.Machine
end

