-- ==== Sys2Proof/Machine/Tile.lean ====
section
/-! DEFINITION. Tile operations after their issue: the format block and operand layout (R79, R80, R195, R196, R204), one
element of a k-step with its order of sums (R77 to R84), what an operation reads and touches, and its steps and effects
(R200 to R215). -/

namespace Sys2Proof.Machine

/-! ## The format block (R79, R80) -/

/-- TYPE of a format word. -/
def fmtType (fb : Word) : Nat := natBits fb.toNat 28 4
/-- The block length of a format word; none when it is unscaled. -/
def fmtBlock (fb : Word) : Option Nat :=
  let b := natBits fb.toNat 26 2
  if b = 3 then none else some (16 * 2 ^ b)
/-- SCALE of a format word. -/
def fmtScale (fb : Word) : Nat := natBits fb.toNat 0 20

/-- The pair group of an element type (R80): 16-bit floats, T8, 8-bit integers, T6, 4-bit integers. -/
def fmtGroup : Ty → Option Nat
  | .f16 | .bf16 => some 0
  | .t8 => some 1
  | .s8 | .n8 => some 2
  | .t6 => some 3
  | .s4 | .n4 => some 4
  | _ => none

/-- The elements of one k-step (R80). -/
def stepLength (t : Ty) : Nat :=
  match fmtGroup t with
  | some 0 => 16
  | some 1 => 32
  | some 2 => 32
  | _ => 64

/-- The registers that hold one lane's A elements of a k-step (R195). -/
def aRegs (t : Ty) : Nat := if t = .t6 then 4 else 2

/-- The checks of R80. -/
def fmtLegal (fb0 fb1 : Word) : Bool :=
  let g := fmtGroup (Ty.ofCode (fmtType fb0))
  g.isSome && g == fmtGroup (Ty.ofCode (fmtType fb1)) &&
  natBits fb0.toNat 20 6 == 0 && natBits fb1.toNat 20 6 == 0 &&
  (!(g == some 2 || g == some 4) || ((fmtBlock fb0).isNone && (fmtBlock fb1).isNone))

/-- The charge of a k-step of `m` rows in 1/384 cycle (R216, R330). -/
def stepCharge (t : Ty) (m : Nat) : Nat := if fmtGroup t = some 0 then 32 * m else 16 * m

/-! ## Operand layout (R195, R196, R204) -/

/-- A lane's A element in its registers. -/
def Ctx.aElem (c : Ctx) (t : Ty) (a lane q : Nat) : Nat :=
  elemAt t (c.vread (a + q / t.count) 1 lane) (q % t.count)

/-- The A elements of a row of a dense k-step, with their reduction indices (R195, R198). -/
def Ctx.denseRow (c : Ctx) (t : Ty) (a row : Nat) : List (Nat × Nat) :=
  let e := stepLength t / 4
  (List.range (stepLength t)).filterMap (fun x =>
    let l := 4 * row + x / e
    if c.act.getLsbD l then some (x, c.aElem t a l (x % e)) else none)

/-- The kept A elements of a row of a sparse k-step, with their reduction indices (R204). -/
def Ctx.sparseRow (c : Ctx) (t : Ty) (a row : Nat) : List (Nat × Nat) :=
  let e := stepLength t / 4
  (List.range 4).flatMap (fun j =>
    let l := 4 * row + j
    if c.act.getLsbD l then
      let m := c.vread (a + aRegs t) 1 l
      (List.range e).map (fun q =>
        (j * (2 * e) + 4 * (q / 2) + natBits m (4 * (q / 2) + 2 * (q % 2)) 2, c.aElem t a l q))
    else [])

/-- The bytes of one k-step of B: twice as many under 2:4 sparsity (R196, R204). -/
def TileOp.stepB (o : TileOp) : Nat :=
  let t := Ty.ofCode (fmtType o.fb1)
  2 * stepLength t * t.bits * (match o.kind with
    | .mmas _ => 2
    | _ => 1)

/-! ## One element of a k-step (R77, R78, R82, R83) -/

/-- The exact value of an operand element. -/
def elemNum (t : Ty) (c : Nat) : Num := if t.isTapered then decodeTapered t c else decodeFloat t c

/-- The exact sum of some values; none when there is none. -/
def numSum : List Num → Option Num
  | [] => none
  | x :: rest => some (rest.foldl (fun s y => (addNum 0 s y).1) x)

/-- A scale: the T8 byte of a block's array, or 1.0 when the operand is unscaled (R79, R81). -/
def scaleNum (byte : Nat → Nat) (fb : Word) (x i : Nat) : Num :=
  match fmtBlock fb with
  | none => .fin false 1 0 false
  | some l => decodeTapered .t8 (byte (fmtScale fb + 16 * (x / l) + i))

/-- A number that says which blocks of A and B an element lies in (DESIGN CHOICE, assumption 40: where FB0 and FB1 give
different block lengths, R82's block j is the intersection of a block of A and one of B). -/
def blockKey (fb0 fb1 : Word) (x : Nat) : Nat :=
  let k := fun fb => match fmtBlock fb with
    | none => 0
    | some l => x / l
  k fb0 * 2 ^ 20 + k fb1

/-- The exact value of one accumulator element's k-step: for each block the sum of its products times the
two scales, and the sum of these (R82). `terms` holds (reduction index, A code, B code). -/
def stepSum (byte : Nat → Nat) (fb0 fb1 : Word) (row col : Nat) (terms : List (Nat × Nat × Nat)) : Option Num :=
  let ta := Ty.ofCode (fmtType fb0)
  let tb := Ty.ofCode (fmtType fb1)
  let keys := (terms.map (fun e => blockKey fb0 fb1 e.1)).eraseDups
  numSum (keys.filterMap (fun k =>
    let mine := terms.filter (fun e => blockKey fb0 fb1 e.1 == k)
    (numSum (mine.map (fun e => (mulNum (elemNum ta e.2.1) (elemNum tb e.2.2)).1))).map (fun bs =>
      let x := (mine.headD (0, 0, 0)).1
      (mulNum (mulNum bs (scaleNum byte fb0 x row)).1 (scaleNum byte fb1 x col)).1)))

/-- The F32 rounding of the engine: RNE, with no flush and no saturation (R82). -/
def tileRound (x : Num) : Nat := (roundFloat .f32 ⟨0, false, false⟩ x).1

/-- A sum as the engine holds it in fixed point: its zero has no sign (R82; assumption 27). -/
def Num.unsigned : Num → Num
  | .fin neg m e more => if m = 0 then .fin false 0 0 false else .fin neg m e more
  | x => x

/-- The new F32 element after a k-step (R82, R83). -/
def stepFloat (c : Nat) (sum : Option Num) : Nat :=
  match sum with
  | none => c
  | some t => tileRound (addNum 0 (decodeFloat .f32 c) (decodeFloat .f32 (tileRound t.unsigned))).1

/-- The new S32 element after a k-step (R77, R78). -/
def stepInt (bits : Nat) (sa sb sat : Bool) (c : Nat) (terms : List (Nat × Nat × Nat)) : Nat :=
  let val := fun (signed : Bool) (x : Nat) => if signed then signedOf bits x else (x : Int)
  let sum := terms.foldl (fun a e => a + val sa e.2.1 * val sb e.2.2) (0 : Int)
  (reduceInt .s32 sat (intOf .s32 c + sum)).1

/-! ## Scratchpad ranges (R197) -/

/-- The byte ranges of the scale arrays that the steps from `t` read (R81). -/
def scaleRanges (fb0 fb1 : Word) (rows t0 count width : Nat) : List (Nat × Nat) :=
  let one := fun (fb : Word) (w : Nat) => match fmtBlock fb with
    | none => []
    | some l =>
      let first := t0 * width / l
      let last := ((t0 + count) * width - 1) / l
      [(0xF0 * 2 ^ 56 + fmtScale fb + 16 * first, 16 * (last - first) + w)]
  one fb0 rows ++ one fb1 16

/-! ## What a tile operation reads and touches -/

/-- The operation applies k-steps. -/
def TileOp.steps (o : TileOp) : Bool :=
  match o.kind with
  | .mma _ | .mmas _ | .mmak => true
  | _ => false

/-- The operation has had its whole effect on its tiles. -/
def TileOp.settled (o : TileOp) : Bool := o.steps && decide (o.nk ≤ o.done)

/-- The tiles whose effects the operation orders (R194). -/
def TileOp.tiles (o : TileOp) : List Nat :=
  match o.kind with
  | .acadd src => [o.tile, src]
  | _ => [o.tile]

/-- A half's operation by its number. -/
def Half.top? (h : Half) (op : Nat) : Option TileOp := h.tops.find? (fun t => t.id == op)

/-- An earlier operation on one of its tiles is still to take effect (R194). -/
def Half.blocked (h : Half) (o : TileOp) : Bool :=
  (h.tops.takeWhile (fun t => t.id != o.id)).any (fun t => !t.settled && t.tiles.any (fun i => o.tiles.contains i))

/-- The rows of the operation's wave (R195). -/
def Wave.rowCount (w : Wave) : Nat := w.slices.length

/-- The reduction length of a step: doubled by 2:4 sparsity (R204). -/
def TileOp.width (o : TileOp) : Nat :=
  let t := Ty.ofCode (fmtType o.fb1)
  o.stepB / (2 * t.bits)

/-- The bytes of one k-step of an A operand in scratchpad (R196). -/
def TileOp.stepA (o : TileOp) (m : Nat) : Nat :=
  let t := Ty.ofCode (fmtType o.fb0)
  m * stepLength t * t.bits / 8

/-- The scratchpad ranges that the next step reads, as offsets: the whole A step of an MMAK and the scale bytes of every
row of the wave, although a row that is not updated contributes nothing (R197, R198; DESIGN CHOICE, assumption 128). -/
def TileOp.stepRanges (o : TileOp) (m : Nat) : List (Nat × Nat) :=
  let a := match o.kind with
    | .mmak => [(o.aaddr.toNat % 2 ^ 56 + o.done * o.stepA m, o.stepA m)]
    | _ => []
  (a ++ [(o.baddr.toNat % 2 ^ 56 + o.done * o.stepB, o.stepB)] ++
    (scaleRanges o.fb0 o.fb1 m o.done 1 o.width).map (fun r => (r.1 % 2 ^ 56, r.2)))

/-- Every scratchpad range that the operation is still to read or write, as offsets. -/
def TileOp.ranges (o : TileOp) (m : Nat) : List (Nat × Nat) :=
  match o.kind with
  | .acsp addr => [(addr.toNat % 2 ^ 56, 32 * (mdType2 o.md).bits)]
  | _ => if o.steps then (List.range (o.nk - o.done)).flatMap (fun i => TileOp.stepRanges { o with done := o.done + i } m) else []

/-- The lines of some ranges. -/
def rangeLines (l : List (Nat × Nat)) : List Nat := (l.flatMap (fun r => linesOf r.1 r.2)).eraseDups

/-! ## Applying one k-step -/

/-- The A elements of a row in the operation's next step: those read at issue, or the row in scratchpad
(R196, R205). -/
def TileOp.aRow (o : TileOp) (h : Half) (m row : Nat) : List (Nat × Nat) :=
  match o.kind with
  | .mma a | .mmas a => match a.find? (fun r => r.1 == row) with
    | some r => r.2
    | none => []
  | _ =>
    let t := Ty.ofCode (fmtType o.fb0)
    let k := stepLength t
    let n := k * t.bits / 8
    let bytes := h.scratch.load (o.aaddr.toNat % 2 ^ 56 + o.done * o.stepA m + row * n) n
    (List.range k).map (fun x => (x, natBits bytes (t.bits * x) t.bits))

/-- The tile elements that the operation's next step leaves, with scratchpad and tiles as `h` has them
(R202, R205). -/
def TileOp.stepCells (o : TileOp) (h : Half) (m : Nat) : List (Nat × Word) :=
  let ta := Ty.ofCode (fmtType o.fb0)
  let tb := Ty.ofCode (fmtType o.fb1)
  let b := h.scratch.load (o.baddr.toNat % 2 ^ 56 + o.done * o.stepB) o.stepB
  let byte := fun a => (h.scratch.byte a).toNat
  let base := o.done * stepLength ta
  (bitsOf o.rows).flatMap (fun i =>
    let arow := o.aRow h m i
    (List.range 16).map (fun n =>
      let key := 256 * o.tile + 16 * i + n
      let c := (h.tiles.get key).toNat
      let terms := arow.map (fun e => (base + e.1, e.2, natBits b (tb.bits * (16 * e.1 + n)) tb.bits))
      (key, BitVec.ofNat 32 (if ta.isInt
        then stepInt ta.bits (mdSgnA o.md) (mdSgnB o.md) (mdSat o.md) c terms
        else stepFloat c (stepSum byte o.fb0 o.fb1 i n terms)))))

/-- Elements of tiles written; a written element holds no poison (R191). -/
def Half.putTile (h : Half) (cells : List (Nat × Word)) : Half :=
  { h with tiles := ZMap.setAll h.tiles cells, tpoison := h.tpoison.filter (fun k => !(cells.map (·.1)).contains k) }

/-- The benchmark record of an MMAK after some steps (R206). -/
def TileOp.benchAt (o : TileOp) (m : Nat) (run : Bool) (b : Bench) : Bench :=
  { b with run, done := o.done
           anext := o.aaddr + BitVec.ofNat 64 (o.done * o.stepA m)
           bnext := o.baddr + BitVec.ofNat 64 (o.done * o.stepB) }

/-- A half of a block changed. -/
def State.modHalf (s : State) (b h : Nat) (f : Half → Half) : State := s.modBlock b (fun x => x.modHalf h f)

/-- An operation changed where it stands. -/
def Half.modTop (h : Half) (op : Nat) (f : TileOp → TileOp) : Half :=
  { h with tops := h.tops.map (fun t => if t.id = op then f t else t) }

/-- The slices parked at a tile operation go on. -/
def Wave.unparkTile (w : Wave) (half op : Nat) : Wave :=
  w.unpark (fun p => match p with
    | .tile _ i j => i == half && j == op
    | _ => false)

/-- An operation leaves the engine and its flag falls (R31). -/
def State.dropTop (s : State) (b h : Nat) (o : TileOp) : State :=
  let s := s.modHalf b h (fun x => { x with tops := x.tops.filter (fun t => t.id != o.id) })
  (s.modWave o.wave (fun w => (w.unparkTile h o.id).flagDown s.time o.flag)).settle o.wave

/-- The rows of the wave that issued an operation. -/
def State.rowsOf (s : State) (o : TileOp) : Nat :=
  match s.waves.get? o.wave with
  | some w => w.rowCount
  | none => 0

/-- A cause found after acceptance stops the operation: what is applied stays applied, its benchmark stops,
and the cause is recorded in its lanes (R200, R206). -/
def State.stopTop (s : State) (b h : Nat) (o : TileOp) (cause : Cause) (addr : Nat) : State :=
  let m := s.rowsOf o
  let s := match o.kind with
    | .mmak => s.modHalf b h (fun x => { x with bench := x.bench.update o.tile (o.benchAt m false) })
    | _ => s
  let s := s.modWave o.wave (fun w => w.record ((bitsOf o.lanes).map (fun l =>
    ⟨l, cause, false, 0, BitVec.ofNat 64 addr, o.src, true, none⟩)))
  s.dropTop b h o

/-- The half that an operation reads: a deterministic wave sees its own buffered stores over what is
committed (R387). -/
def State.tileView (s : State) (b h : Nat) (o : TileOp) : Half :=
  match s.waves.get? o.wave with
  | some w => (match w.det with
    | some d => (s.detView w.core d).half b h
    | none => s.half b h)
  | none => s.half b h

/-- A poisoned element that a k-step reads (R191, R200). -/
def TileOp.readsPoison (o : TileOp) (h : Half) : Bool :=
  !h.tpoison.isEmpty && (bitsOf o.rows).any (fun i =>
    (List.range 16).any (fun n => h.tpoison.contains (256 * o.tile + 16 * i + n)))

/-- The next k-step of an operation that no earlier one holds back: it waits at an empty line, stops at
poison, or is applied and counted (R197, R200, R206). An operation that updates no row reads nothing. A step that waits at
one line and then at another has waited since the first (R197; DESIGN CHOICE, assumption 142). -/
def State.stepTop (s : State) (b h : Nat) (o : TileOp) : State :=
  let m := s.rowsOf o
  let view := s.tileView b h o
  let lines := if o.rows = 0 then [] else rangeLines (o.stepRanges m)
  match lines.find? (fun k => view.empty.contains k), lines.find? (fun k => view.spoison.contains k) with
  | some _, _ => s.modHalf b h (fun x => x.modTop o.id (fun t => { t with since := some (t.since.getD s.time) }))
  | none, some k => s.stopTop b h o .hwErr (0xF0 * 2 ^ 56 + 128 * k)
  | none, none =>
    if o.readsPoison view then s.stopTop b h o .hwErr 0
    else
      let cells := o.stepCells view m
      let y := { o with done := o.done + 1, since := none }
      let s := s.modHalf b h (fun x => (x.putTile cells).modTop o.id (fun _ => y))
      let s := match o.kind with
        | .mmak => s.modHalf b h (fun x => { x with bench := x.bench.update o.tile (y.benchAt m (decide (y.done < y.nk))) })
        | _ => s
      let s := s.modBlock b (fun x =>
        { x with kstep := x.kstep + 1, charge := x.charge + stepCharge (Ty.ofCode (fmtType o.fb0)) m })
      (s.count (s.half b h).core none 0x31 1).modWave o.wave (fun w => w.unparkTile h o.id)

/-! ## Transfers and tile arithmetic (R211 to R215) -/

/-- The values that a lane's ACLD places, one per register, with the flags of its conversions (R155, R211). -/
def acldLane (h : Half) (tile lane : Nat) (t u : Ty) (r : Round) : List Nat × BitVec 7 :=
  let e := (List.range 4).map (fun i =>
    elemConvert t u r (h.tiles.get (256 * tile + 16 * (lane / 4) + 4 * (lane % 4) + i)).toNat)
  let v := e.map (·.1)
  let fx := e.foldl (fun f x => f ||| x.2) 0
  (if u.slot = 32 then v
    else if u.slot = 16 then [unitOf u (v.take 2), unitOf u (v.drop 2)]
    else [unitOf u v], fx)

/-- The value that ACSP writes: the 256 converted elements packed, and the flags (R75, R155, R214). -/
def acspValue (h : Half) (tile : Nat) (t u : Ty) (r : Round) : Nat × BitVec 7 :=
  (List.range 256).foldr (fun k acc =>
    let (x, f) := elemConvert t u r (h.tiles.get (256 * tile + k)).toNat
    (x % 2 ^ u.bits + 2 ^ u.bits * acc.1, acc.2 ||| f)) (0, 0)

/-- An F32 or S32 sum of two tile elements (R215). -/
def tileAdd (md : Word) (x y : Nat) : Nat :=
  if mdType md = .s32 then (reduceInt .s32 (mdSat md) (intOf .s32 x + intOf .s32 y)).1
  else tileRound (addNum 0 (decodeFloat .f32 x) (decodeFloat .f32 y)).1

/-- An F32 or S32 product (R215). -/
def tileMul (md : Word) (x y : Nat) : Nat :=
  if mdType md = .s32 then (reduceInt .s32 (mdSat md) (intOf .s32 x * intOf .s32 y)).1
  else tileRound (mulNum (decodeFloat .f32 x) (decodeFloat .f32 y)).1

/-- All 256 elements of a tile by a function of their index. -/
def wholeTile (tile : Nat) (f : Nat → Nat) : List (Nat × Word) :=
  (List.range 256).map (fun k => (256 * tile + k, BitVec.ofNat 32 (f k)))

/-- The elements that an operation reads, other than a k-step's (R191). -/
def TileOp.reads (o : TileOp) : List Nat :=
  let whole := fun t : Nat => (List.range 256).map (fun k => 256 * t + k)
  match o.kind with
  | .acld _ => (bitsOf o.act).flatMap (fun l => (List.range 4).map (fun i => 256 * o.tile + 16 * (l / 4) + 4 * (l % 4) + i))
  | .acsp _ => whole o.tile
  | .acadd src => whole o.tile ++ whole src
  | .acscl _ => whole o.tile
  | _ => []

/-- The units of ACSP's write. -/
def TileOp.storeUnits (o : TileOp) (loc : Loc) (addr n x : Nat) : List MemUnit :=
  (List.range (n / 8)).map (fun i =>
    { lane := (bitsOf o.lanes).headD 0, off := 8 * i, len := 8, va := BitVec.ofNat 64 (addr + 8 * i),
      loc := loc.plus (8 * i), phase := .issued, data := BitVec.ofNat 64 (x / 2 ^ (64 * i)), cmp := 0, reg := 0,
      since := 0, gwct := 0, ease := none, sent := none, rank := 0, noL2 := false, noL1 := false })

/-- ACSP's write in the commit buffer of a deterministic wave. -/
def TileOp.storeOp (o : TileOp) (units : List MemUnit) : MemOp :=
  { id := o.src.ord, at_ := o.at_, kind := .store false false, md := o.md, size := 8, sx := false, returns := false
    flag := o.flag, atEnd := false, counted := true, gang := o.gang, src := o.src, lease := 0, units }

/-- The scratchpad write of ACSP, after which the operation leaves the engine: at once, or, in a deterministic launch,
buffered until the commit, which lowers the flag (R214, R385). One that its wave's buffer has no room for stays and ends
the quantum (R386). -/
def State.tileStore (s : State) (b h : Nat) (o : TileOp) (addr n x : Nat) (fx : BitVec 7) : State :=
  let loc : Loc := .scratch b h (addr % 2 ^ 56)
  match (s.waves.get? o.wave).bind (·.det) with
  | some d =>
    let units := o.storeUnits loc addr n x
    if d.overflows units then s.modWave o.wave Wave.endQuantum
    else
      (s.modWave o.wave (fun w => { ((w.raise fx).flagUp o.flag) with
        det := w.det.map (fun d => { d with buffer := d.buffer ++ [.mem (o.storeOp units)] }) })).dropTop b h o
  | none => ((s.modWave o.wave (fun w => w.raise fx)).storeAt loc n x).dropTop b h o

/-- A tile operation without k-steps that no earlier one holds back takes its effect and completes. Of its elements all
are looked at first: when one that it reads is poisoned it applies none (R200; DESIGN CHOICE, assumption 126: the order of
its elements is open). -/
def State.applyTop (s : State) (b h : Nat) (o : TileOp) : State :=
  let x := s.half b h
  if !x.tpoison.isEmpty && o.reads.any (fun k => x.tpoison.contains k) then s.stopTop b h o .hwErr 0
  else
    let t := mdType o.md
    let u := mdType2 o.md
    let r := mdRound o.md
    match o.kind with
    | .mma _ | .mmas _ | .mmak => s
    | .acld dst =>
      let lanes := (bitsOf o.act).map (fun l => (l, acldLane x o.tile l t u r))
      let cells := lanes.flatMap (fun e => e.2.1.mapIdx (fun i v => (vKey (dst + i) e.1, BitVec.ofNat 32 v)))
      let fx := lanes.foldl (fun f e => f ||| e.2.2) 0
      (s.modWave o.wave (fun w => (w.vput cells).raise fx)).dropTop b h o
    | .acst vals => (s.modHalf b h (fun y => y.putTile vals)).dropTop b h o
    | .acz => (s.modHalf b h (fun y => y.putTile (wholeTile o.tile (fun _ => 0)))).dropTop b h o
    | .acsp addr =>
      let (v, fx) := acspValue x o.tile t u r
      s.tileStore b h o addr.toNat (32 * u.bits) v fx
    | .acadd src =>
      let f := fun k => tileAdd o.md (x.tiles.get (256 * o.tile + k)).toNat (x.tiles.get (256 * src + k)).toNat
      (s.modHalf b h (fun y => y.putTile (wholeTile o.tile f))).dropTop b h o
    | .acscl v =>
      let f := fun k => tileMul o.md (x.tiles.get (256 * o.tile + k)).toNat v.toNat
      (s.modHalf b h (fun y => y.putTile (wholeTile o.tile f))).dropTop b h o

/-- One operation carried as far as it goes: its steps, then its completion. `n` bounds the steps. -/
def State.runTop (s : State) (b h op : Nat) : Nat → State
  | 0 => s
  | n + 1 =>
    let x := s.half b h
    match x.top? op with
    | none => s
    | some o =>
      if x.blocked o then s
      else if !o.steps then s.applyTop b h o
      else if o.settled then s.dropTop b h o
      else
        let s := s.stepTop b h o
        match (s.half b h).top? op with
        | some y => if y.done = o.done then s else State.runTop s b h op n
        | none => s

end Sys2Proof.Machine
end

