-- ==== Sys2Proof/Machine/Arrive.lean ====
section
/-! DEFINITION. What follows an access's arrival: its completion and acknowledgement (R31, R244, R245, R262), what a line
set full serves (R285), page walks (R231 to R235), limits of waits, and the issue of a memory operation (R387, R389). -/

namespace Sys2Proof.Machine

/-! ## Completion -/

/-- The value that a load's unit gives its register (R262, R267). -/
def loadValue (o : MemOp) (u : MemUnit) : Nat :=
  if o.size < 4 && o.sx then intBits 32 (signedOf (8 * o.size) u.data.toNat) else u.data.toNat

/-- The registers that a unit's value is written to. -/
def unitCells (o : MemOp) (u : MemUnit) : List (Nat × Word) :=
  (List.range (max 1 (u.len / 4))).map (fun i =>
    (vKey (u.reg + i) u.lane, BitVec.ofNat 32 (loadValue o u / 2 ^ (32 * i))))

/-- The completion times that an acknowledged global store raises (R244). -/
def Times.raise (t : Times) (now g : Nat) : Times :=
  { wave := max t.wave now, block := max t.block now, cluster := max t.cluster g, device := max t.device g
    system := max t.system g }

/-- An acknowledged unit enters the times of its wave and of its slice. -/
def Wave.acked (w : Wave) (u : MemUnit) (now : Nat) : Wave :=
  { w with
    times := w.times.raise now u.gwct
    slices := listUpdate w.slices (u.lane / 4) (fun x => { x with times := x.times.raise now u.gwct }) }

/-- One unit of an operation replaced. -/
def Wave.setUnit (w : Wave) (ident i : Nat) (f : MemUnit → MemUnit) : Wave :=
  { w with memOps := w.memOps.map (fun o =>
      if o.id == ident then { o with units := listUpdate o.units i f } else o) }

/-- Every unit of an operation is done, in a later tick than that of its issue. -/
def MemOp.over (o : MemOp) (now : Nat) : Bool := decide (o.at_ < now) && o.units.all (fun u => !u.out)

/-- The operations that are over leave the wave, and their flags fall (R31). -/
def Wave.retireOps (w : Wave) (now : Nat) : Wave :=
  (w.memOps.filter (fun o => o.over now)).foldl (fun w o => w.flagDown now o.flag)
    { w with memOps := w.memOps.filter (fun o => !o.over now) }

/-- The operations of a wave that are over retired. -/
def State.retireMem (s : State) (k : Nat) : State := s.modWave k (fun w => w.retireOps s.time)

/-- An operation of a wave and one of its units. -/
def State.findUnit (s : State) (k ident i : Nat) : Option (Wave × MemOp × MemUnit) :=
  match s.waves.get? k with
  | none => none
  | some w =>
    match w.memOps.find? (fun o => o.id == ident) with
    | none => none
    | some o => (o.units[i]?).map (fun u => (w, o, u))

/-- The units of an operation that take consecutive places with one: those of a store, an atomic or a full/empty update
still on their way to the same bytes, in increasing lane number (R261). -/
def samePlace (o : MemOp) (u : MemUnit) : List Nat :=
  (List.range o.units.length).filter (fun j => match o.units[j]? with
    | some v => v.phase == .issued && (unitSpan o.kind v).1 == (unitSpan o.kind u).1 && (!o.kind.isLoad || v.lane == u.lane)
    | none => false)

/-- FEFULL orders what the wave's tile operations issued before it are still to read or write in its line, but for one that
waits at the bank (R255, R256). -/
def State.tileHolds (s : State) (k : Nat) (w : Wave) (o : MemOp) (u : MemUnit) : Bool :=
  match o.kind with
  | .fe true => (s.tileAccesses k w).any (fun t => decide (t.src.ord < o.src.ord) && t.since.isNone &&
      (t.ranges w.rowCount).any (fun r => (Loc.scratch w.block w.half r.1).overlaps r.2 u.loc.line 128))
  | _ => false

/-- A unit may take its place together with those that take consecutive places with it: each of them may, and no lane of a
store or atomic is still to be translated, since it could name the same bytes (R261). -/
def State.groupArrives (s : State) (w : Wave) (o : MemOp) (u : MemUnit) : Bool :=
  s.mayArrive w o u && (samePlace o u).all (fun j => match o.units[j]? with
    | some v => s.mayArrive w o v
    | none => true) &&
  (o.kind.isLoad || o.units.all (fun v => v.phase != .issued || v.loc != .untranslated))

/-- A lane that records a cause performs no part of its access: its units fail, those too whose value is there (R260). -/
def MemOp.failLanes (o : MemOp) (lanes : List Nat) : MemOp :=
  { o with units := o.units.map (fun u =>
      if lanes.contains u.lane && u.out then { u with phase := .failed } else u) }

/-- A cause found after the issue of an access, in a unit's lane, whose access fails. -/
def Wave.unitFault (w : Wave) (o : MemOp) (u : MemUnit) (c : Cause) (xinfo : Nat) : Wave :=
  let ask : Ask := ⟨u.lane, u.va.toNat, u.len, 1, [], false, .unchecked⟩
  { w with
    memOps := w.memOps.map (fun p => if p.id == o.id then p.failLanes [u.lane] else p)
    causes := addCause w.causes (faultAt o.src ask c false xinfo) }

/-- A read of a poisoned line records HW_ERR in its lane, and the lane's access fails (R438). -/
def Wave.hwFail (w : Wave) (o : MemOp) (u : MemUnit) : Wave := w.unitFault o u .hwErr 0

/-- The units of some indices performed one after the other. One that reaches a region after it was lost records
PEER_LOST (R357); one of a deterministic wave that has waited looks at its line's tag, and its write sets the tag (R389). -/
def State.performUnits (s : State) (k : Nat) (ident : Nat) : List Nat → State
  | [] => s
  | j :: rest =>
    match s.findUnit k ident j with
    | none => State.performUnits s k ident rest
    | some (w, o, v) =>
      if s.lostTo w v.loc then
        State.performUnits (s.modWave k (fun w => w.unitFault o v .peerLost (s.regionSlot v.loc))) k ident rest
      else if o.kind.reads && s.detOrder w v.loc then
        State.performUnits (s.modWave k (fun w => w.unitFault o v .detOrder 0)) k ident rest
      else if o.kind.waitsEmpty && s.poisoned v.loc then
        State.performUnits (s.modWave k (fun w => w.hwFail o v)) k ident rest
      else
        let (s, v') := s.performUnit w.core o v
        let s := if o.kind.writes then s.tagWrite w v.loc else s
        State.performUnits (s.modWave k (fun w => w.setUnit ident j (fun _ => v'))) k ident rest

/-- A wave takes answers of its commits now: one of a deterministic launch only when its quantum is over (R390). -/
def Wave.takesAnswers (w : Wave) : Bool := w.det.all (fun d => d.ended) || w.openGangs.isEmpty

/-- The limit of a full/empty wait. -/
def feLimit : Nat := 65536

/-- The waiting units on a line whose limit has not passed, in the order of ties (R249): core, then WAVEID, then program
order. Of a deterministic wave these are the commits that wait, which have no limit; its loads look again after the
commit (R390). -/
def State.waiters (s : State) (l : Loc) : List (Nat × Nat × Nat) :=
  (sortOn (fun e => tieKey e.2.core e.2.waveid) s.waves).flatMap (fun e =>
    e.2.memOps.flatMap (fun o => (List.range o.units.length).filterMap (fun j =>
      match o.units[j]? with
      | some u => if u.phase == .issued && u.since != 0 && u.loc.line == l.line &&
            (if e.2.isDet then !o.kind.isLoad else decide (s.time < u.since + feLimit))
          then some (e.1, o.id, j) else none
      | none => none)))

/-- The lines that a tile operation's next step reads hold one that is empty (R197). -/
def State.tileBlocked (s : State) (b h : Nat) (o : TileOp) : Bool :=
  (rangeLines (o.stepRanges (s.rowsOf o))).any (fun k => (s.tileView b h o).empty.contains k)

/-- The k-steps that wait at a line whose limit has not passed: their half and operation (R285). -/
def State.tileWaiters (s : State) (l : Loc) : List (Nat × Nat × TileOp) :=
  match l with
  | .scratch b h off => ((s.half b h).tops.filter (fun t => t.since.any (fun n => decide (s.time < n + feLimit)) &&
      !(match s.waves.get? t.wave with
        | some w => w.isDet
        | none => true) && (rangeLines (t.stepRanges (s.rowsOf t))).contains (off / 128))).map (fun t => (b, h, t))
  | _ => []

/-- The k-steps that waited for a line and find each of their lines full are applied (R197, R285). -/
def State.serveTiles (s : State) (l : Loc) : State :=
  (s.tileWaiters l).foldl (fun s e =>
    if s.tileBlocked e.1 e.2.1 e.2.2 || (s.half e.1 e.2.1).blocked e.2.2 then s else s.stepTop e.1 e.2.1 e.2.2) s

/-- The accesses that waited for a line that is full now perform: the lanes' units, each an acquire of the line, and then
k-steps (R255, R285; DESIGN CHOICE, assumption 141: the order of k-steps and lanes is open). -/
def State.serveWaiters (s : State) (l : Loc) : State :=
  if s.lineEmpty l then s
  else State.serveTiles ((s.waiters l).foldl (fun s e =>
    let s := match s.waves.get? e.1 with
      | some w => s.dropRead w.core l
      | none => s
    (s.performUnits e.1 e.2.1 [e.2.2]).retireMem e.1) s) l

/-- A line set full, by FEFULL or by an engine, and what waited for it served (R281, R285). -/
def State.fillLine (s : State) (l : Loc) : State := (s.setLine l true).serveWaiters l

/-- The name of the plat engines' tokens among the places of `State.landed` (R335). -/
def tokenBank : Nat := 513

/-- The tick at which a token reaches the plat engines: the next one when they have applied one of this tick that comes
after it in the order of ties (R249, R335). -/
def State.tokenTick (s : State) (key : Nat) : Nat :=
  if (s.landed.get? tokenBank).any (fun y => decide (key < y)) then s.time + 1 else s.time

/-- A GFIRE token that has left the package switch waits at the plat engines (R251, R343). -/
def State.sendTokens (s : State) (w : Wave) (o : MemOp) : State :=
  match o.kind with
  | .token plat node count gen =>
    let key := tieKey w.core w.waveid
    { s with tokens := s.tokens ++ List.replicate count ⟨w.func, plat, node, gen, s.tokenTick key, key⟩ }
  | _ => s

/-- A SPAWN's tasks reach the gatherer of the die in increasing lane order (R105, R345): a unit holds the
lane's entry word and argument address. In a deterministic launch they carry the block index of the spawning wave
(R383). -/
def State.sendTasks (s : State) (w : Wave) (o : MemOp) : State :=
  match o.kind, s.blocks.get? w.block with
  | .task _, some b =>
    let s := s.modDie (dieOf w.core) (fun d => { d with tasks := d.tasks ++ o.units.map (fun u =>
      ⟨s.rootGrid b.grid, u.cmp.setWidth 32, u.data, s.time, (w.det.map (·.blk)).getD b.index, s.nextId⟩) })
    { s with nextId := s.nextId + 1 }
  | _, _ => s

/-- HOME_ARRIVAL (R243): a unit takes its place in its location's order, with the other lanes' units of
its instruction that name the same place (R261). An access that waits on an empty line notes when it
reached the bank (R285). -/
def execHomeArrival (k op unit : Nat) (s : State) : Host.Outcome State Fault Refusal :=
  .next (match s.findUnit k op unit with
    | none => s
    | some (w, o, u) =>
      if !s.groupArrives w o u || s.tileHolds k w o u then s
      else if s.waitsHere o u then
        (if u.since = 0 then
          (samePlace o u).foldl (fun s j => s.modWave k (fun w => w.setUnit op j (fun v => { v with since := s.time }))) s
        else s)
      else
        let js := samePlace o u
        let s := if o.kind.isAccess then s.land u.loc (tieKey w.core w.waveid) else s
        let s := (s.performUnits k op js)
        let s := match o.kind with
          | .fe true => s.serveWaiters u.loc
          | _ => s
        let s := (s.sendTokens w o).sendTasks w o
        (s.retireMem k).settle k)

/-! ## The answers (R240, R245, R247, R262) -/

/-- The byte that a location names within its store. -/
def Loc.byte (l : Loc) : Nat :=
  match l with
  | .untranslated => 0
  | .global a _ | .priv a => a
  | .scratch _ _ o | .region _ o | .dieStore _ o => o

/-- The lane's own earlier stores to a unit's bytes that are not acknowledged, laid over a value (R240,
R247 rule 1). -/
def overlayOwn (ops : List MemOp) (u : MemUnit) (x : Nat) : Nat :=
  let a := u.loc.byte
  let bytes := ops.foldl (fun (l : List Byte) o => match o.kind with
    | .store _ _ => o.units.foldl (fun l v =>
        if v.lane == u.lane && v.out && v.loc.overlaps v.len u.loc u.len then
          l.mapIdx (fun i b =>
            if v.loc.byte ≤ a + i ∧ a + i < v.loc.byte + v.len
            then BitVec.ofNat 8 (v.data.toNat / 2 ^ (8 * (a + i - v.loc.byte))) else b)
        else l) l
    | _ => l) (leBytes u.len x)
  leNat bytes

/-- An earlier atomic of the lane to the unit's bytes is still unanswered, so no copy may serve it. -/
def ownAtomicOut (ops : List MemOp) (u : MemUnit) : Bool :=
  ops.any (fun o => match o.kind with
    | .atomic _ => o.units.any (fun v => v.lane == u.lane && v.out && v.loc.overlaps v.len u.loc u.len)
    | _ => false)

/-- A weak load's unit that a valid copy can serve now, with its value, and the L2 copy that its L1 takes (R246,
R247). -/
def State.servedByCopy (s : State) (w : Wave) (o : MemOp) (u : MemUnit) : Option (Nat × Option Copy) :=
  if s.time ≤ o.at_ || w.isDet then none
  else match o.kind, u.phase, u.loc.cacheLine with
  | .load false _, .issued, some line =>
    if ownAtomicOut (opsBefore w.memOps o.id) u then none
    else
      match s.copyFor w.core line with
      | none => none
      | some (e, inL1) =>
        let off := (match u.loc with
          | .global a _ => a
          | .priv a => a
          | _ => 0) % 128
        some (overlayOwn (opsBefore w.memOps o.id) u (leNat ((e.bytes.drop off).take u.len)),
          if inL1 then none else some e)
  | .load false _, .issued, none =>
    if s.remote w.core u.loc && !s.lineEmpty u.loc && !ownAtomicOut (opsBefore w.memOps o.id) u then
      match (s.core w.core).reads.find? (fun e => e.1 == u.loc.line && decide (e.2.1 + 8 < s.time) &&
          decide (s.time ≤ e.2.1 + 64)) with
      | some e =>
        let off := u.loc.byte % 128
        some (overlayOwn (opsBefore w.memOps o.id) u (leNat ((e.2.2.drop off).take u.len)), none)
      | none => none
    else none
  | _, _, _ => none

/-- The copy that would serve a unit is poisoned (R438). -/
def State.copyPoisoned (s : State) (w : Wave) (u : MemUnit) : Bool :=
  match u.loc.cacheLine with
  | some line => match s.copyFor w.core line with
    | some (e, _) => e.poison
    | none => false
  | none => false

/-- The units of one lane of an operation. -/
def MemOp.lane (o : MemOp) (l : Nat) : List MemUnit := o.units.filter (fun u => u.lane == l)

/-- The acknowledgement of a unit is next: those of earlier stores to its line from its die have passed (R240, R245). -/
def State.ackNext (s : State) (w : Wave) (u : MemUnit) : Bool :=
  u.loc.homeLine.isNone || s.waves.all (fun e => dieOf e.2.core != dieOf w.core || e.2.memOps.all (fun o =>
    !o.kind.isStore || o.units.all (fun v =>
      !(v.phase == .arrived && v.loc.homeLine == u.loc.homeLine && decide (v.rank < u.rank)))))

/-- What a unit has obtained is back at its core: a copy's value at once, an answer from elsewhere after its way
(R237). -/
def State.back (s : State) (w : Wave) (o : MemOp) (u : MemUnit) : Bool :=
  u.phase == .arrived && s.reached w.core u.loc u.since && (!o.kind.isStore || s.ackNext w u)

/-- What the return of one lane's answer does beside its registers: an atomic's acknowledgement passes the copies and
enters the times (R244, R245), and a strong load's value ends the use of the read buffer (R250). -/
def State.answered (s : State) (k : Nat) (w : Wave) (o : MemOp) (u : MemUnit) : State :=
  match o.kind with
  | .atomic _ => (s.patchCopies w.core u.loc u.len u.cmp.toNat).modWave k (fun w =>
      if u.loc.offChip then w.acked u s.time else w)
  | .load true _ => s.dropReads w.core
  | _ => s

/-- The values of one lane written to its registers, its units done. A write that an instruction has made meanwhile to
such a register is lost (DESIGN CHOICE, assumption 36: R34 allows either value). -/
def Wave.deliver (w : Wave) (o : MemOp) (l : Nat) (now : Nat) : Wave :=
  let w := if o.returns then w.vput (((o.lane l).filter (fun u => u.phase == .arrived)).flatMap (unitCells o)) else w
  Wave.retireOps { w with memOps := w.memOps.map (fun p => if p.id == o.id then
      { p with units := p.units.map (fun u => if u.lane == l && u.phase == .arrived then { u with phase := .done } else u) }
    else p) } now

/-- A lane whose units have all come back is answered. -/
def State.deliverLane (s : State) (k op l : Nat) : State :=
  match (s.waves.get? k).bind (fun w => (w.memOps.find? (fun o => o.id == op)).map (fun o => (w, o))) with
  | none => s
  | some (w, o) =>
    let us := (o.lane l).filter MemUnit.out
    if us.isEmpty || !o.returns || !us.all (s.back w o) || !(o.kind.isLoad || w.takesAnswers) then s
    else ((us.foldl (fun s u => s.answered k w o u) s).modWave k (fun w => w.deliver o l s.time)).settle k

/-- LOAD_COMPLETE (R262): a load's data returns, from a valid copy (R247) or from its home or bank, and a
returning atomic's value with its acknowledgement (R245, R269). A lane's registers are written when all of its access has
returned. An operation that no lane performs completes too (R31). -/
def execLoadComplete (k op unit : Nat) (s : State) : Host.Outcome State Fault Refusal :=
  .next (match s.findUnit k op unit with
    | none => (s.retireMem k).settle k
    | some (w, o, u) =>
      match s.servedByCopy w o u with
      | some (x, copy) =>
        if s.copyPoisoned w u then (s.modWave k (fun w => (w.hwFail o u).retireOps s.time)).settle k
        else
          let s := match if u.noL1 then none else copy with
            | some e => s.modCore w.core (fun c =>
                { c with l1 := copyPut l1Lines c.l1 { e with expiry := min e.expiry (e.granted + o.lease) } })
            | none => s
          (s.modWave k (fun w => w.setUnit op unit (fun u =>
            { u with phase := .arrived, data := BitVec.ofNat 64 x, since := 0 }))).deliverLane k op u.lane
      | none => s.deliverLane k op u.lane)

/-- The acknowledgement of a store, or of an atomic that returns no value, passes the copies of its line and enters its
wave's times (R244, R245). -/
def State.acknowledged (s : State) (k : Nat) (w : Wave) (o : MemOp) (u : MemUnit) : State :=
  let x := match o.kind with
    | .atomic _ => u.cmp.toNat
    | _ => u.data.toNat
  if o.kind.isStore && u.loc.offChip then
    (s.patchCopies w.core u.loc u.len x).modWave k (fun w => w.acked u s.time)
  else s

/-- STORE_ACK (R245): the acknowledgement of a store, of an atomic that returns no value or of an update in another core's
slot reaches the core, in the home's order, and the line that PFD requested is back (R288). -/
def execStoreAck (k op unit : Nat) (s : State) : Host.Outcome State Fault Refusal :=
  .next (match s.findUnit k op unit with
    | none => s
    | some (w, o, u) =>
      if s.back w o u && !o.returns && !o.kind.isProbe then
        ((s.acknowledged k w o u).modWave k (fun w =>
          (w.setUnit op unit (fun u => { u with phase := .done })).retireOps s.time)).settle k
      else s)

/-- A store to a line from a die or core has arrived at its home before a fill was granted and its acknowledgement is
still to pass, so the fill, which already holds the store, arrives behind that acknowledgement (R245). -/
def State.ackPending (s : State) (f : Fill) (coreOnly : Bool) : Bool :=
  s.waves.any (fun e => (if coreOnly then e.2.core == f.core else dieOf e.2.core == dieOf f.core) &&
    e.2.memOps.any (fun o => o.kind.isStore && o.units.any (fun u =>
      u.phase == .arrived && u.loc.homeLine == some f.line && decide (u.rank < f.id))))

/-- FILL_ARRIVAL (R237, R241, R245): the fill is installed in the L2 and the L1 unless it was overtaken there or
its lease has expired. -/
def execFillArrival (fill : Nat) (s : State) : Host.Outcome State Fault Refusal :=
  .next (match s.fills.find? (fun f => f.id == fill && decide (f.granted + 8 < s.time)) with
    | none => s
    | some f =>
      let s : State := { s with fills := s.fills.filter (fun x => x.id != fill) }
      let e : Copy := ⟨f.line, f.expiry, f.granted, f.bytes, f.poison⟩
      if !e.valid s.time then s
      else
        let s := if f.overL2 || s.ackPending f false then s
          else s.modDie (dieOf f.core) (fun d => { d with l2 := copyPut l2Lines d.l2 e })
        if !f.intoL1 || f.overL1 || s.ackPending f true then s
        else s.modCore f.core (fun c => { c with l1 := copyPut l1Lines c.l1 e }))

/-- LEASE_EXPIRY (R242): a copy that has reached E − 8 is used no more. -/
def execLeaseExpiry (l2 : Bool) (owner line : Nat) (s : State) : Host.Outcome State Fault Refusal :=
  .next (
    let keep := fun (c : List Copy) => c.filter (fun e => e.line != line || e.valid s.time)
    if l2 then s.modDie owner (fun d => { d with l2 := keep d.l2 })
    else s.modCore owner (fun c => { c with l1 := keep c.l1 }))

/-! ## Page walks (R231 to R235) -/

/-- A unit of a wave that waits for its page's translation. -/
def MemUnit.misses (u : MemUnit) : Bool := u.loc == .untranslated && u.phase == .issued

/-- The 64 KiB page of a unit's address. -/
def MemUnit.page (u : MemUnit) : Nat := u.va.toNat % 2 ^ 56 / 2 ^ 16

/-- The misses that have reached the walkers: the tick and the core they come from, their function and page. Those of the
control die itself need no message, and come after every core's of their tick. -/
def State.walkRequests (s : State) : List (Nat × Nat × Nat × Nat) :=
  s.waves.flatMap (fun e => (e.2.memOps.filter (fun o => decide (o.at_ + 8 < s.time))).flatMap (fun o =>
    (o.units.filter MemUnit.misses).map (fun u => (o.at_, e.2.core, e.2.func, u.page)))) ++
  (s.misses.filter (fun m => m.client.core.isNone || decide (m.at_ + 8 < s.time))).map (fun m =>
    (m.at_, m.client.core.getD 255, m.func, m.page))

/-- The page that a function's tables map a 64 KiB page into now, as its base and size; the 64 KiB page itself where they
map none. Misses to one such page share one walk (R233). -/
def State.pageOf (s : State) (f page : Nat) : Nat × Nat :=
  match s.walk f (page * 2 ^ 16) with
  | .leaf _ _ base bits => (base, bits)
  | _ => (page * 2 ^ 16, 16)

/-- The walkers of the control die. -/
def walkers : Nat := 1024

/-- A free walker takes the first waiting miss, in the order of arrival, then by die and core (R233). -/
def State.startWalk (s : State) : State :=
  let waiting := s.walkRequests.filter (fun r => !s.walks.any (fun w => w.func == r.2.2.1 &&
    (w.page == r.2.2.2 || s.pageOf w.func w.page == s.pageOf w.func r.2.2.2)))
  match (sortOn (fun r : Nat × Nat × Nat × Nat => r.1 * 256 + r.2.1) waiting).head? with
  | none => s
  | some (_, _, f, page) =>
    if walkers ≤ s.walks.length then s
    else { s with
      walks := s.walks ++ [⟨s.nextId, f, page, 4, (s.func f).root.toNat, s.time, none, false⟩], nextId := s.nextId + 1 }

/-- A walk reads its next level, over the links to memory and back (R233, R237): the entry as it stands now (R235). -/
def State.stepWalk (s : State) (w : PageWalk) : PageWalk :=
  match s.partOf w.func with
  | none => { w with found := some (.notPresent false), at_ := s.time }
  | some p =>
    match walkEntry s p (w.page * 2 ^ 16) w.level w.table with
    | .inl x => { w with found := some x, at_ := s.time }
    | .inr next => if w.level = 0 then { w with found := some (.notPresent true), at_ := s.time }
        else { w with level := w.level - 1, table := next, at_ := s.time }

/-- The next read of a walk, when the last has had the time to return. -/
def State.readWalk (s : State) (id : Nat) : State :=
  { s with walks := s.walks.map (fun w =>
      if w.id == id && w.found.isNone && decide (w.at_ + 16 < s.time) then s.stepWalk w else w) }

/-- A walk's outcome answers a unit: the misses of the page that its leaf maps, or of the page walked (R233). -/
def PageWalk.answers (w : PageWalk) (u : MemUnit) : Bool :=
  u.misses && (match w.found with
    | some (.leaf _ _ base bits) => u.va.toNat % 2 ^ 56 / 2 ^ bits * 2 ^ bits == base
    | _ => u.page == w.page)

/-- A unit after its page's walk (R231): its place, or a cause recorded in its lane. -/
def Wave.walked (w : Wave) (o : MemOp) (walk : Walk) (u : MemUnit) : Except (LaneCause × Bool) MemUnit :=
  let ask : Ask := ⟨u.lane, u.va.toNat, u.len, 1, [], !o.kind.isLoad, .unchecked⟩
  match walk.result u.va.toNat (w.need (!o.kind.isLoad)) with
  | .ok pa un => match u.ease with
    | some e => .error (faultAt o.src ask .easement false e, false)
    | none => .ok { u with loc := .global pa un }
  | .fault c malf out => .error (faultAt o.src ask c malf 0, out)

/-- An operation's units resolved by a walk that answers them. A prefetch records no cause (R268). -/
def Wave.walkedOp (w : Wave) (p : PageWalk) (walk : Walk) (o : MemOp) : MemOp × List (LaneCause × Bool) :=
  let r : List (MemUnit × Option (LaneCause × Bool)) := o.units.map (fun u =>
    if p.answers u then
      match w.walked o walk u with
      | .ok u => (u, none)
      | .error c => ({ u with phase := UnitPhase.failed }, if o.kind.isAccess then some c else none)
    else (u, none))
  ({ o with units := r.map (·.1) }, r.filterMap (·.2))

/-- A wave's outstanding misses that a walk answers. -/
def State.walkedWave (s : State) (k : Nat) (p : PageWalk) (walk : Walk) : State :=
  match s.waves.get? k with
  | none => s
  | some w =>
    let r := w.memOps.map (w.walkedOp p walk)
    let bad := r.flatMap (·.2)
    let ops := r.map (fun e => e.1.failLanes (e.2.map (fun c => c.1.lane)))
    let s := (s.setWave k (Wave.record { w with memOps := ops } (bad.map (fun c => c.1)))).retireMem k
    let s := match bad.find? (·.2) with
      | some c => s.waveViolation k c.1.faddr.toNat
      | none => s
    (s.depart k).settle k

/-- A walk answers a miss whose access its leaf lets through: with `write` a write, else any; an access that an easement
stops afterwards is one of these (R232, R304; assumption 140). -/
def State.allowedBy (s : State) (p : PageWalk) (pte : Nat) (write : Bool) : Bool :=
  s.waves.any (fun e => e.2.func == p.func && e.2.memOps.any (fun o => (!write || !o.kind.isLoad) &&
    leafAllows pte (e.2.need (!o.kind.isLoad)) && o.units.any p.answers)) ||
  s.misses.any (fun m => p.answersMiss m && (!write || m.write) && leafAllows pte ⟨m.write, m.fetch, m.priv⟩)

/-- The cores whose misses a walk answers: of lanes, and of fetches and engines. -/
def State.walkCores (s : State) (p : PageWalk) : List Nat :=
  ((s.waves.filter (fun e => e.2.func == p.func && e.2.memOps.any (fun o => o.units.any p.answers))).map (·.2.core) ++
    (s.misses.filter p.answersMiss).filterMap (·.client.core)).eraseDups

/-- PAGE_WALK_COMPLETE (R231 to R233): a walk's result returns and answers every outstanding miss of its page in the
address space: A and D are set first, and the leaf enters the TLBs, unless a TLBINV has made it void (R235). -/
def execPageWalkComplete (func page : Nat) (s : State) : Host.Outcome State Fault Refusal :=
  .next (match s.walks.find? (fun p => p.func == func && p.page == page && p.found.isSome && decide (p.at_ + 8 < s.time)) with
    | none => s
    | some p =>
      let walk := p.found.getD (.notPresent false)
      let mine := s.waves.filter (fun e => e.2.func == func && e.2.memOps.any (fun o => o.units.any p.answers))
      let s' : State := { s with
        walks := s.walks.filter (fun x => x.id != p.id)
        misses := s.misses.filter (fun m => !p.answersMiss m)
        answers := s.answers ++ (s.misses.filter p.answersMiss).map (fun m => (m, walk)) }
      let s' := match walk with
        | .leaf pte place base bits =>
          if !s.allowedBy p pte false then s'
          else
            let write := s.allowedBy p pte true
            let s' := s'.markPage place write
            let pte := pte ||| 0x40 ||| (if write then 0x80 else 0)
            if p.void then s'
            else (s.walkCores p).foldl (fun s c => s.tlbEnter c ⟨func, base, bits, BitVec.ofNat 64 pte⟩) s'
        | _ => s'
      (mine.map (·.1)).foldl (fun s k => s.walkedWave k p walk) s')

/-! ## Waits that run out (R285) -/

/-- A waiting load or on-chip atomic whose limit passes records FE_TIMEOUT and writes nothing; its
instruction still completes for its flag (R285). -/
def State.unitTimeout (s : State) (k op i : Nat) : State :=
  match s.findUnit k op i with
  | none => s
  | some (_, o, u) => (s.modWave k (fun w => (w.unitFault o u .feTimeout 0).retireOps s.time)).settle k

/-! ## Issue of a memory operation -/

/-- Another gang's fence holds the gang's accesses back (R251), or an acquire of one of its lanes has not
returned its value (R250). -/
def Ctx.accessHeld (c : Ctx) : Bool :=
  (match c.w.fencing with
    | some g => g != c.gang
    | none => false) ||
  c.w.memOps.any (fun o => match o.kind with
    | .load true true => o.units.any (fun u => u.out && c.exec.getLsbD u.lane)
    | _ => false)

/-- A new operation of the gang's word. -/
def Ctx.newOp (c : Ctx) (kind : MemKind) (size : Nat) (sx returns counted : Bool) (units : List MemUnit) : MemOp :=
  let flag := if counted then hdrSetA c.src.hdr else none
  { id := c.src.ord, at_ := c.now, kind, md := c.w.md, size, sx, returns, flag, atEnd := counted && flag.isNone, counted,
    gang := c.gang, src := c.src, lease := c.w.lease, units }

/-- A deterministic wave's access that reads a line of a higher block records DET_ORDER (R389). -/
def State.detChecked (s : State) (w : Wave) (src : WordRef) (reads : Bool) (g : Granted) : Except LaneCause Granted :=
  if reads && s.detOrder w g.loc then .error (faultAt src g.ask .detOrder false 0) else .ok g

/-- Lanes' accesses checked and, in a deterministic wave, translated by the walks that have come back. -/
def Ctx.prepare (c : Ctx) (s : State) (reads : Bool) (asks : List Ask) : State × List Granted × List LaneCause :=
  let (ok, bad) := s.checkAll c.w c.blk c.src asks
  if c.w.isDet then
    let (s, ok, bad') := (s.resolveAll c.key c.w c.src ok)
    let s := s.useAnswers c.w.asker.who
    let r := ok.map (s.detChecked c.w c.src reads)
    (s, r.filterMap (fun e => e.toOption), bad ++ bad' ++ r.filterMap (fun e => match e with
      | .error x => some x
      | .ok _ => none))
  else (s, ok, bad)

/-- The instruction's mark on the wave: IDEM is cleared and SIDE set when a lane in `act` names a global
address (R265, R365). -/
def Ctx.sideEffect (c : Ctx) (asks : List Ask) (w : Wave) : Wave :=
  if asks.any (fun a => a.addr / 2 ^ 56 == 0 && !(c.act == 0)) then { w with idem := false, side := true } else w

/-- A deterministic wave's accesses that still wait for their translations send their misses. -/
def Ctx.awaitWalks (c : Ctx) (s : State) (asks : List Ask) : Option State :=
  if c.w.isDet then s.awaitWalks c.w (s.checkAll c.w c.blk c.src asks).1 else none

/-- A load's unit of a deterministic wave: it obtains what the wave may see at once and is back later, or waits at an empty
line (R285, R387). -/
def MemUnit.viewed (view : State) (now : Nat) (u : MemUnit) : MemUnit :=
  if view.lineEmpty u.loc then { u with since := now }
  else { u with phase := .arrived, data := BitVec.ofNat 64 (view.readLoc u.loc u.len), since := now }

/-- A load, store or atomic issued for the lanes of `asks`: `mk` gives a granted lane's units. Loads of a
deterministic wave obtain at once what it may see; its stores and atomics wait in its commit
buffer (R257, R387). -/
def Ctx.access (c : Ctx) (s : State) (kind : MemKind) (size : Nat) (sx returns counted marks : Bool)
    (asks : List Ask) (mk : Granted → List MemUnit) : Res :=
  if c.accessHeld then .stall
  else match c.awaitWalks s asks with
  | some t => .hold t
  | none =>
    let (s', ok, bad) := c.prepare s kind.reads asks
    let o := c.newOp kind size sx returns counted (ok.flatMap mk)
    let base := fun (w : Wave) => (if marks then c.sideEffect asks w else w).record bad
    match c.w.det with
    | none =>
      if !s'.slotsFree c.w o then .stall
      else .next ((s'.modWave c.key (fun w => { (base w).flagUp o.flag with
        memOps := w.memOps ++ if o.units.isEmpty && !counted then [] else [o] })).depart c.key)
    | some d =>
      let view := s'.detView c.w.core d
      match kind with
      | .load _ _ =>
        let hw := o.units.filter (fun u => !view.lineEmpty u.loc && view.poisoned u.loc)
        let sound := o.units.filter (fun u => !hw.any (fun v => v.lane == u.lane))
        let o := { o with units := sound.map (MemUnit.viewed view s.time) }
        .next (s'.modWave c.key (fun w =>
          let w := ((base w).record (hw.map (fun u => faultAt o.src ⟨u.lane, u.va.toNat, u.len, 1, [], false, .unchecked⟩
            .hwErr false 0))).flagUp o.flag
          { w with memOps := w.memOps ++ if o.units.isEmpty && !counted then [] else [o] }))
      | _ =>
        let priv := o.units.all (fun u => match u.loc with
          | .priv _ => true
          | _ => false)
        if priv && !returns then
          .next ((o.units.foldl (fun s u => (s.performUnit c.w.core o u).1) s').modWave c.key base)
        else if d.overflows o.units then
          .hold (s.modWave c.key Wave.endQuantum)
        else
          .next (s'.modWave c.key (fun w =>
            let w := (base w).flagUp (if returns then o.flag else none)
            { w with det := w.det.map (fun d => { d with buffer := d.buffer ++ [.mem o] }) }))

end Sys2Proof.Machine
end

