-- ==== Sys2Proof/Machine/VecArith.lean ====
section
/-! DEFINITION. The meanings of the vector arithmetic 0x20 to 0x3F (R141 to R162). -/

namespace Sys2Proof.Machine

/-! ## Shared operations -/

/-- The 32-bit words of a unit of a type (R140). -/
def Ty.words (t : Ty) : Nat := if t.is64 then 2 else 1

/-- The unit that a lane receives from its elements. -/
def unitFrom (t : Ty) (f : Nat → Nat → Nat × BitVec 7) (l : Nat) : Nat :=
  unitOf t ((List.range t.count).map (fun j => (f l j).1))

/-- The flags that the elements of the lanes of a mask set (R69). -/
def flagsFrom (n : Nat) (m : LaneMask) (f : Nat → Nat → Nat × BitVec 7) : BitVec 7 :=
  (bitsOf m).foldl (fun acc l => (List.range n).foldl (fun acc j => acc ||| (f l j).2) acc) 0

/-- An element-wise result written to d in the lanes in `act`, with its flags. -/
def Ctx.writeElems (c : Ctx) (s : State) (t : Ty) (d : VCode) (f : Nat → Nat → Nat × BitVec 7) : Res :=
  c.onWave s ((c.vwrite c.w d.vNum t.words c.act (unitFrom t f)).raise (flagsFrom t.count c.act f))

/-- The element type of a context. -/
def Ctx.ty (c : Ctx) : Ty := mdType c.w.md

/-- Element `j` of a typed operand in lane `l`. -/
def Ctx.elem (c : Ctx) (t : Ty) (code : VCode) (l j : Nat) : Nat :=
  elemAt t (c.operand (.typed t) code l) j

/-- The three-operand arithmetic of R146: its checks. -/
def arithChecks (op : ArithOp) (d a : VCode) (b : Option VCode) (c : Ctx) : Checks :=
  let t := c.ty
  Checks.all [if op.reads.2 then dstVRead t.words d else dstV t.words d, c.source (.typed t) a,
    match b with
    | some b => c.source (.typed t) b
    | none => Checks.none]

/-- One element of R146 in a lane. -/
def Ctx.arithElem (c : Ctx) (op : ArithOp) (d a : VCode) (b : Option VCode) (l j : Nat) :
    Nat × BitVec 7 :=
  let t := c.ty
  elemArith op t (mdRound c.w.md) (c.elem t a l j)
    (match b with
      | some b => c.elem t b l j
      | none => 0)
    (if op.reads.2 then elemAt t (c.vread d.vNum t.words l) j else 0)

/-- The element-wise arithmetic of R146. -/
def vecArith (op : ArithOp) (d a : VCode) (b : Option VCode) (s : State) :
    Host.Outcome State Fault Refusal :=
  issueChecked s (arithChecks op d a b) (fun c => c.writeElems s c.ty d (c.arithElem op d a b))

/-- The value that a counted special function computes for a lane and element (R148). -/
def Ctx.specialElem (c : Ctx) (fn : SpecialFn) (a b : VCode) (l j : Nat) : Nat × BitVec 7 :=
  let t := c.ty
  elemSpecial fn t (mdRound c.w.md) (c.elem t a l j) (if fn = .div then c.elem t b l j else 0)

/-- The decode checks of vecSpecial. -/
def vecSpecialChecks (fn : SpecialFn) (d a b : VCode) (c : Ctx) : Checks :=
  let t := c.ty
  Checks.all [Checks.when (!t.isInt), dstV t.words d, c.source (.typed t) a,
    if fn = .div then c.source (.typed t) b else Checks.none]

/-- A counted special function (R148): its operands are read at issue, its result waits for its
completion, and the clause's SETA flag rises. -/
def vecSpecial (fn : SpecialFn) (d a b : VCode) (s : State) : Host.Outcome State Fault Refusal :=
  issueChecked s (vecSpecialChecks fn d a b)
    (fun c =>
      let t := c.ty
      let f := c.specialElem fn a b
      let cells := c.vcells d.vNum t.words c.act (unitFrom t f)
      let fx := flagsFrom t.count c.act f
      let flag := hdrSetA c.src.hdr
      let w := c.w.flagUp flag
      c.onWave s { w with specials := w.specials ++ [⟨c.src.ord, c.now, flag, cells, fx, c.gang⟩] })

/-- A predicate or element mask written by a compare or CLASS (R150). -/
def Ctx.writeBools (c : Ctx) (s : State) (t : Ty) (d : VCode) (f : Nat → Nat → Bool × BitVec 7) : Res :=
  let fx := flagsFrom t.count c.act (fun l j => (0, (f l j).2))
  match d with
  | .p n =>
    c.onWave s ((c.w.pwrite n c.act
      (maskWhere 64 (fun l => (List.range t.count).all (fun j => (f l j).1)))).raise fx)
  | _ =>
    c.onWave s ((c.vwrite c.w d.vNum t.words c.act
      (unitFrom t (fun l j => (if (f l j).1 then 2 ^ t.bits - 1 else 0, 0)))).raise fx)

/-- The checks of a destination that is a predicate or a v register (R150). -/
def dstPV (words : Nat) (d : VCode) : Checks := if d.isP then Checks.none else dstV words d

/-- The decode checks of vecCompare. -/
def vecCompareChecks (d a b : VCode) (c : Ctx) : Checks :=
  Checks.all [dstPV c.ty.words d, c.source (.typed c.ty) a, c.source (.typed c.ty) b]

/-- The compares of R150. -/
def vecCompare (op : CmpOp) (d a b : VCode) (s : State) : Host.Outcome State Fault Refusal :=
  issueChecked s (vecCompareChecks d a b)
    (fun c => c.writeBools s c.ty d (fun l j =>
      elemCompare op c.ty (mdRound c.w.md) (c.elem c.ty a l j) (c.elem c.ty b l j)))

/-- The decode checks of vecUnary. -/
def vecUnaryChecks (d a : VCode) (c : Ctx) : Checks :=
  Checks.all [Checks.when (!c.ty.isInt), dstV c.ty.words d, c.source (.typed c.ty) a]

/-- A one-operand element function of the floating and tapered types (R143). -/
def vecUnary (f : Ty → Round → Nat → Nat × BitVec 7) (d a : VCode) (s : State) :
    Host.Outcome State Fault Refusal :=
  issueChecked s (vecUnaryChecks d a)
    (fun c => c.writeElems s c.ty d (fun l j => f c.ty (mdRound c.w.md) (c.elem c.ty a l j)))

/-! ## The meanings -/

/-- ADD (R146). -/
def execAdd (d a b : VCode) (s : State) := vecArith .add d a (some b) s
/-- SUB (R146). -/
def execSub (d a b : VCode) (s : State) := vecArith .sub d a (some b) s
/-- MUL (R146). -/
def execMul (d a b : VCode) (s : State) := vecArith .mul d a (some b) s
/-- FMA (R146). -/
def execFma (d a b : VCode) (s : State) := vecArith .fma d a (some b) s
/-- FMS (R146). -/
def execFms (d a b : VCode) (s : State) := vecArith .fms d a (some b) s
/-- FNMA (R146). -/
def execFnma (d a b : VCode) (s : State) := vecArith .fnma d a (some b) s
/-- MIN (R146, R147). -/
def execMin (d a b : VCode) (s : State) := vecArith .min d a (some b) s
/-- MAX (R146, R147). -/
def execMax (d a b : VCode) (s : State) := vecArith .max d a (some b) s
/-- ABS (R146). -/
def execAbs (d a : VCode) (s : State) := vecArith .abs d a none s
/-- NEG (R146). -/
def execNeg (d a : VCode) (s : State) := vecArith .neg d a none s
/-- RCP (R148). -/
def execRcp (d a : VCode) (s : State) := vecSpecial .rcp d a .zero s
/-- RSQ (R148). -/
def execRsq (d a : VCode) (s : State) := vecSpecial .rsq d a .zero s
/-- SQRT (R148). -/
def execSqrt (d a : VCode) (s : State) := vecSpecial .sqrt d a .zero s
/-- EXP2 (R148). -/
def execExp2 (d a : VCode) (s : State) := vecSpecial .exp2 d a .zero s
/-- LOG2 (R148). -/
def execLog2 (d a : VCode) (s : State) := vecSpecial .log2 d a .zero s
/-- TANH (R148). -/
def execTanh (d a : VCode) (s : State) := vecSpecial .tanh d a .zero s
/-- CMPEQ (R150). -/
def execCmpeq (d a b : VCode) (s : State) := vecCompare .eq d a b s
/-- CMPNE (R150). -/
def execCmpne (d a b : VCode) (s : State) := vecCompare .ne d a b s
/-- CMPLT (R150). -/
def execCmplt (d a b : VCode) (s : State) := vecCompare .lt d a b s
/-- CMPLE (R150). -/
def execCmple (d a b : VCode) (s : State) := vecCompare .le d a b s
/-- CMPUN (R150). -/
def execCmpun (d a b : VCode) (s : State) := vecCompare .un d a b s

/-- The decode checks of CLASSIFY. -/
def classifyChecks (d a b : VCode) (c : Ctx) : Checks :=
  Checks.all [Checks.when (!c.ty.isInt), dstPV c.ty.words d, c.source (.typed c.ty) a,
    c.source .raw b]

/-- CLASS (R151): the class of each element against a raw mask (R462). -/
def execClassify (d a b : VCode) (s : State) : Host.Outcome State Fault Refusal :=
  issueChecked s (classifyChecks d a b)
    (fun c => c.writeBools s c.ty d (fun l j =>
      (natBits (c.operand .raw b l) (elemClass c.ty (c.elem c.ty a l j)) 1 == 1, 0)))

/-- The lanes that read a poisoned register of a v code, among a mask (R139). -/
def Ctx.poisonedIn (c : Ctx) (m : LaneMask) (words : Nat) (code : VCode) : LaneMask :=
  if c.w.vpoison.isEmpty then 0
  else c.lanesWith m (vRegs words code) (fun r l => c.w.vpoison.contains (vKey r l))

/-- The decode checks of SEL. -/
def selChecks (d a b : VCode) (c : Ctx) : Checks :=
  { Checks.all [dstV c.ty.words d, c.source (.typed c.ty) a, c.source (.typed c.ty) b,
    Checks.unguarded] with reads := [] }

/-- SEL (R152): every executing lane takes a or b by its guard; the unit passes unchanged. Only the
operand that is chosen is read. -/
def execSel (d a b : VCode) (s : State) : Host.Outcome State Fault Refusal :=
  issueChecked s (selChecks d a b)
    (fun c =>
      let k := SrcKind.typed c.ty
      let hw := c.poisonedIn (c.exec &&& c.guard) c.ty.words a |||
        c.poisonedIn (c.exec &&& ~~~c.guard) c.ty.words b
      let w := c.vwrite c.w d.vNum c.ty.words (c.exec &&& ~~~hw)
        (fun l => if c.guard.getLsbD l then c.operand k a l else c.operand k b l)
      c.onWave s (w.record (causesIn c.src .hwErr hw)))

/-- The decode checks of MOV. -/
def movChecks (d a : VCode) (c : Ctx) : Checks :=
  Checks.all [dstV c.ty.words d, c.source (.typed c.ty) a]

/-- MOV (R153): the unit passes unchanged. -/
def execMov (d a : VCode) (s : State) : Host.Outcome State Fault Refusal :=
  issueChecked s (movChecks d a)
    (fun c => c.onWave s (c.vwrite c.w d.vNum c.ty.words c.act (c.operand (.typed c.ty) a)))

/-- The part numbers that CVT accepts between two element counts (R154). -/
def cvtPartOk (ns nd part : Nat) : Bool :=
  if ns = nd then part == 0
  else if ns < nd then decide (part < nd / ns)
  else decide (part < ns / nd)

/-- The destination unit of CVT and its flags (R154): source unit, old destination unit, part. Bits [7:6] of the T6
containers of elements that are kept are written as zero with the unit (DESIGN CHOICE, assumption 103: R154 keeps the
elements and R140 writes those bits as zero). -/
def cvtUnit (t u : Ty) (r : Round) (src dst part : Nat) : Nat × BitVec 7 :=
  let ns := t.count
  let nd := u.count
  let conv := fun i => elemConvert t u r (elemAt t src i)
  let elems := (List.range nd).map (fun i =>
    if ns = nd then conv i
    else if ns < nd then
      (if part * ns ≤ i ∧ i < part * ns + ns then conv (i - part * ns) else (elemAt u dst i, 0))
    else conv (part * nd + i))
  (unitOf u (elems.map (·.1)), elems.foldl (fun acc e => acc ||| e.2) 0)

/-- The decode checks of CVT; its destination is read too (R154, R162). -/
def cvtChecks (d a : VCode) (part : BitVec 3) (c : Ctx) : Checks :=
  let u := mdType2 c.w.md
  Checks.all [Checks.when (cvtPartOk c.ty.count u.count part.toNat),
    dstVRead u.words d,
    c.source (.typed c.ty) a]

/-- CVT (R154, R155): elements of MD.TYPE to MD.TYPE2, into one part of the destination. -/
def execCvt (d a : VCode) (part : BitVec 3) (s : State) : Host.Outcome State Fault Refusal :=
  issueChecked s (cvtChecks d a part)
    (fun c =>
      let u := mdType2 c.w.md
      let f := fun l => cvtUnit c.ty u (mdRound c.w.md) (c.operand (.typed c.ty) a l)
        (c.vread d.vNum u.words l) part.toNat
      c.onWave s ((c.vwrite c.w d.vNum u.words c.act (fun l => (f l).1)).raise
        (flagsFrom 1 c.act (fun l _ => f l))))

/-- The decode checks of SCALE. -/
def scaleChecks (d a b : VCode) (c : Ctx) : Checks :=
  Checks.all [Checks.when (!c.ty.isInt), dstV c.ty.words d, c.source (.typed c.ty) a,
    c.source .raw b]

/-- SCALE (R158): each element times a power of two, whose exponent is one raw 32-bit source. -/
def execScale (d a b : VCode) (s : State) : Host.Outcome State Fault Refusal :=
  issueChecked s (scaleChecks d a b)
    (fun c => c.writeElems s c.ty d (fun l j =>
      elemScale c.ty (mdRound c.w.md) (c.elem c.ty a l j) (signedOf 32 (c.operand .raw b l))))

/-- RINT (R159). -/
def execRint (d a : VCode) (s : State) := vecUnary elemRint d a s

/-- The decode checks of FRXP. -/
def frxpChecks (d a : VCode) (c : Ctx) : Checks :=
  Checks.all [Checks.when (!c.ty.isInt), dstV c.ty.words d, c.source (.typed c.ty) a]

/-- FRXP (R160): the significand, or the exponent as a signed integer of the element's width. -/
def execFrxp (d a : VCode) (part : BitVec 1) (s : State) : Host.Outcome State Fault Refusal :=
  issueChecked s (frxpChecks d a)
    (fun c =>
      if part = 0 then
        c.writeElems s c.ty d (fun l j => elemSignificand c.ty (mdRound c.w.md) (c.elem c.ty a l j))
      else
        c.writeElems s c.ty.exponentTy d
          (fun l j => elemExponent c.ty (mdRound c.w.md) (c.elem c.ty a l j)))

/-- DIV (R148). -/
def execDiv (d a b : VCode) (s : State) := vecSpecial .div d a b s

/-- The decode checks of ENCT. -/
def enctChecks (d a b : VCode) (c : Ctx) : Checks :=
  Checks.all [Checks.when (mdType2 c.w.md).isTapered, dstVRead 1 d,
    c.source (.typed .f32) a, c.source (.typed .f32) b]

/-- ENCT (R156): an F32 product encoded as a tapered code that enters d from the top. -/
def execEnct (d a b : VCode) (s : State) : Host.Outcome State Fault Refusal :=
  issueChecked s (enctChecks d a b)
    (fun c =>
      let f := fun l => enctCode (mdType2 c.w.md) (mdRound c.w.md)
        (c.operand (.typed .f32) a l) (c.operand (.typed .f32) b l)
      c.onWave s ((c.vwrite c.w d.vNum 1 c.act
        (fun l => c.vread d.vNum 1 l / 256 + (f l).1 * 2 ^ 24)).raise
        (flagsFrom 1 c.act (fun l _ => f l))))

/-- The decode checks of DECT. -/
def dectChecks (d a : VCode) (c : Ctx) : Checks :=
  Checks.all [Checks.when (mdType2 c.w.md).isTapered, dstV 1 d, c.source .raw a]

/-- DECT (R157): one tapered code decoded to F32. -/
def execDect (d a : VCode) (byte : BitVec 2) (s : State) : Host.Outcome State Fault Refusal :=
  issueChecked s (dectChecks d a)
    (fun c =>
      let u := mdType2 c.w.md
      c.onWave s (c.vwrite c.w d.vNum 1 c.act
        (fun l => dectCode u (natBits (c.operand .raw a l) (8 * byte.toNat) u.bits))))

/-- A tile operation that may set FX (R211, R214). -/
def TileKind.setsFx : TileKind → Bool
  | .acld _ | .acsp _ => true
  | _ => false

/-- No counted operation of the wave that may set FX is outstanding (R161): a special function, ACLD or ACSP. -/
def Ctx.fxQuiet (c : Ctx) : Bool :=
  c.w.specials.isEmpty && !c.half.tops.any (fun t => t.wave == c.key && t.kind.setsFx)

/-- The decode checks of FXR. -/
def fxrChecks (d a : VCode) (c : Ctx) : Checks :=
  Checks.all [Checks.unguarded, if d.isS then Checks.none else dstV 1 d,
    c.sourceOf (fun x => x.isSLit || x == .zero || x == .one || x == .mone) .raw a]

/-- FXR (R161): reads FX and clears chosen bits; unguarded, once per gang. -/
def execFxr (d a : VCode) (s : State) : Host.Outcome State Fault Refusal :=
  issueChecked s (fxrChecks d a)
    (fun c =>
      if !c.fxQuiet then .stall
      else
        let old := c.w.fx
        let w := { c.w with fx := old &&& ~~~(BitVec.ofNat 7 (c.operand .raw a (firstSlice c.gang * 4))) }
        c.onWave s (if d.isS then w.swrite d.sNum 1 old.toNat
          else c.vwrite w d.vNum 1 c.exec (fun _ => old.toNat)))

end Sys2Proof.Machine
end

