-- ==== Sys2Proof/Machine/MemInstr.lean ====
section
/-! DEFINITION. The meanings of the memory instructions 0x80 to 0xAB (R258 to R292), of MON and MWAIT
(R286, R287), of GFIRE and SPAWN (R343, R345), and the event MON_REGISTRATION. -/

namespace Sys2Proof.Machine

/-! ## Forms -/

/-- The generic windows (R218). -/
def allWindows : List Nat := [0x00, 0xF0, 0xF1, 0xF2, 0xF3]

/-- The data words of an access of n bytes (R259). -/
def dataWords (n : Nat) : Nat := max 1 (n / 4)

/-- The checks of a load's extent and destination (R259). -/
def loadChecks (d : VCode) (sx : Bool) (w : BitVec 3) (top : Nat) : Checks :=
  (Checks.when (decide (w.toNat ≤ top) && (!sx || decide (w.toNat ≤ 1)))).and (dstV (dataWords (2 ^ w.toNat)) d)

/-- The checks of a store's extent and data source (R259, R262). -/
def Ctx.storeChecks (c : Ctx) (d : VCode) (w : BitVec 3) (top : Nat) : Checks :=
  (Checks.when (decide (w.toNat ≤ top))).and (c.source (.data (dataWords (2 ^ w.toNat))) d)

/-- The lanes' accesses at an address each. -/
def Ctx.asksAt (c : Ctx) (n align : Nat) (windows : List Nat) (write : Bool) (ease : EaseClass)
    (addr : Nat → Nat) : List Ask :=
  (bitsOf c.act).map (fun l => ⟨l, addr l % 2 ^ 64, n, align, windows, write, ease⟩)

/-- A load of n bytes for each lane in `act` (R262). -/
def Ctx.load (c : Ctx) (s : State) (strong acquire : Bool) (d n : Nat) (sx : Bool) (windows : List Nat)
    (addr : Nat → Nat) : Res :=
  c.access s (.load strong acquire) n sx true true false (c.asksAt n n windows false .load addr)
    (fun g => unitsOf g strong n 0 0 (c.phys d g.ask.lane))

/-- A store of n bytes for each lane in `act` (R262). -/
def Ctx.store (c : Ctx) (s : State) (strong release marks : Bool) (n : Nat) (windows : List Nat)
    (addr data : Nat → Nat) : Res :=
  c.access s (.store strong release) n false false false marks (c.asksAt n n windows true .store addr)
    (fun g => unitsOf g strong n (data g.ask.lane) 0 0)

/-- The decode checks of memLoad. -/
def memLoadChecks (top : Nat) (meld : Checks) (d a : VCode) (sx : Bool) (w : BitVec 3) (c : Ctx) : Checks :=
  Checks.all [meld, loadChecks d sx w top, c.address a]

/-- A load through the generic windows (R262). -/
def memLoad (strong acquire : Bool) (top : Nat) (meld : Checks) (d a : VCode) (sx : Bool) (w : BitVec 3)
    (s : State) : Host.Outcome State Fault Refusal :=
  issueChecked s (memLoadChecks top meld d a sx w)
    (fun c => c.load s strong acquire d.vNum (2 ^ w.toNat) sx allWindows (c.addressOf a))

/-- The decode checks of memStore. -/
def memStoreChecks (top : Nat) (meld : Checks) (d a : VCode) (w : BitVec 3) (c : Ctx) : Checks :=
  Checks.all [meld, c.storeChecks d w top, c.address a]

/-- A store through the generic windows (R262). -/
def memStore (strong release marks : Bool) (top : Nat) (meld : Checks) (d a : VCode) (w : BitVec 3)
    (s : State) : Host.Outcome State Fault Refusal :=
  issueChecked s (memStoreChecks top meld d a w)
    (fun c => c.store s strong release marks (2 ^ w.toNat) allWindows (c.addressOf a)
      (c.operand (.data (dataWords (2 ^ w.toNat))) d))

/-- The generic address of a 32-bit offset in a window (R266). -/
def Ctx.offsetIn (c : Ctx) (window : Nat) (a : VCode) (l : Nat) : Nat := window * 2 ^ 56 + c.operand .raw a l

/-- The decode checks of offLoad. -/
def offLoadChecks (meld : Checks) (d a : VCode) (sx : Bool) (w : BitVec 3) (c : Ctx) : Checks :=
  Checks.all [meld, loadChecks d sx w 4, c.source .raw a]

/-- A load at an offset of an on-chip window (R266). -/
def offLoad (window : Nat) (strong : Bool) (meld : Checks) (d a : VCode) (sx : Bool) (w : BitVec 3)
    (s : State) : Host.Outcome State Fault Refusal :=
  issueChecked s (offLoadChecks meld d a sx w)
    (fun c => c.load s strong false d.vNum (2 ^ w.toNat) sx [window] (c.offsetIn window a))

/-- The decode checks of offStore. -/
def offStoreChecks (meld : Checks) (d a : VCode) (w : BitVec 3) (c : Ctx) : Checks :=
  Checks.all [meld, c.storeChecks d w 4, c.source .raw a]

/-- A store at an offset of an on-chip window (R266). -/
def offStore (window : Nat) (strong : Bool) (meld : Checks) (d a : VCode) (w : BitVec 3)
    (s : State) : Host.Outcome State Fault Refusal :=
  issueChecked s (offStoreChecks meld d a w)
    (fun c => c.store s strong false false (2 ^ w.toNat) [window] (c.offsetIn window a)
      (c.operand (.data (dataWords (2 ^ w.toNat))) d))

/-! ## Loads and stores (R262, R266) -/

/-- LD (R262). -/
def execLd (d a : VCode) (sx : Bool) (w : BitVec 3) (s : State) := memLoad false false 4 Checks.none d a sx w s
/-- LDA (R262): an acquire at MD.SCOPE. -/
def execLda (d a : VCode) (sx : Bool) (w : BitVec 3) (s : State) := memLoad true true 3 Checks.unmelded d a sx w s
/-- LDX (R262). -/
def execLdx (d a : VCode) (sx : Bool) (w : BitVec 3) (s : State) := memLoad true false 3 Checks.unmelded d a sx w s
/-- ST (R262). -/
def execSt (d a : VCode) (w : BitVec 3) (s : State) := memStore false false true 4 Checks.none d a w s
/-- STL (R262): a release at MD.SCOPE. -/
def execStl (d a : VCode) (w : BitVec 3) (s : State) := memStore true true true 3 Checks.unmelded d a w s
/-- STX (R262). -/
def execStx (d a : VCode) (w : BitVec 3) (s : State) := memStore true false true 3 Checks.unmelded d a w s
/-- STI (R262, R265): as ST, but it leaves IDEM as it stands. -/
def execSti (d a : VCode) (w : BitVec 3) (s : State) := memStore false false false 4 Checks.unmelded d a w s
/-- LDSP (R266). -/
def execLdsp (d a : VCode) (sx : Bool) (w : BitVec 3) (s : State) := offLoad 0xF0 false Checks.none d a sx w s
/-- STSP (R266). -/
def execStsp (d a : VCode) (w : BitVec 3) (s : State) := offStore 0xF0 false Checks.none d a w s
/-- LDCL (R266). -/
def execLdcl (d a : VCode) (sx strong : Bool) (w : BitVec 3) (s : State) := offLoad 0xF1 strong Checks.unmelded d a sx w s
/-- STCL (R266). -/
def execStcl (d a : VCode) (strong : Bool) (w : BitVec 3) (s : State) := offStore 0xF1 strong Checks.unmelded d a w s
/-- LDDS (R266). -/
def execLdds (d a : VCode) (sx : Bool) (w : BitVec 3) (s : State) := offLoad 0xF2 false Checks.unmelded d a sx w s
/-- STDS (R266). -/
def execStds (d a : VCode) (w : BitVec 3) (s : State) := offStore 0xF2 false Checks.unmelded d a w s

/-! ## GATH and SCAT (R267) -/

/-- The element bytes of GATH and SCAT, or none for a type that raises ILLEGAL_OPERAND. -/
def gathSize (t : Ty) : Option Nat :=
  match t with
  | .t6 | .s4 | .n4 => none
  | _ => some (t.bits / 8)

/-- The address of a lane: base plus signed index times the element size. -/
def Ctx.indexed (c : Ctx) (a b : VCode) (n l : Nat) : Nat :=
  intBits 64 ((c.addressOf a l : Int) + signedOf 32 (c.operand .raw b l) * n)

/-- The decode checks of GATH. -/
def gathChecks (d a b : VCode) (c : Ctx) : Checks :=
  Checks.all [Checks.unmelded, Checks.when (gathSize c.ty).isSome, dstV c.ty.words d,
    c.baseAddress a, c.source .raw b]

/-- GATH (R267). -/
def execGath (d a b : VCode) (s : State) : Host.Outcome State Fault Refusal :=
  issueChecked s (gathChecks d a b)
    (fun c =>
      let n := (gathSize c.ty).getD 1
      c.load s false false d.vNum n (c.ty == .s8 || c.ty == .s16) allWindows (c.indexed a b n))

/-- The decode checks of SCAT. -/
def scatChecks (d a b : VCode) (c : Ctx) : Checks :=
  Checks.all [Checks.unmelded, Checks.when (gathSize c.ty).isSome, c.source (.data c.ty.words) d,
    c.baseAddress a, c.source .raw b]

/-- SCAT (R267). -/
def execScat (d a b : VCode) (s : State) : Host.Outcome State Fault Refusal :=
  issueChecked s (scatChecks d a b)
    (fun c =>
      let n := (gathSize c.ty).getD 1
      c.store s false false true n allWindows (c.indexed a b n) (c.operand (.data c.ty.words) d))

/-! ## PFD (R268, R291) -/

/-- The decode checks of PFD. -/
def pfdChecks (a : VCode) (c : Ctx) : Checks :=
  Checks.all [Checks.unmelded, c.address a]

/-- PFD (R268): each lane's line is requested from its home; a lane that faults and a line without a free
slot are dropped. -/
def execPfd (level : BitVec 1) (a : VCode) (s : State) : Host.Outcome State Fault Refusal :=
  issueChecked s (pfdChecks a)
    (fun c =>
      let lines := ((bitsOf c.act).map (fun l => (l, c.addressOf a l / 128 * 128))).foldl
        (fun (acc : List (Nat × Nat)) e => if acc.any (fun x => x.2 == e.2) then acc else acc ++ [e]) []
      let ok := (s.checkAll c.w c.blk c.src (lines.map (fun e => ⟨e.1, e.2, 128, 1, [0x00], false, .unchecked⟩))).1
      let room := min (2048 - s.coreSlots c.w.core) (512 - s.waveSlots c.w)
      let units := (ok.take room).flatMap (fun g => unitsOf { g with ease := none } true 128 0 0 0)
      if c.w.isDet || units.isEmpty then .next s
      else .next ((s.setWave c.key { c.w with
        memOps := c.w.memOps ++ [c.newOp (.prefetch (level == 0)) 128 false false false units] }).depart c.key))

/-! ## Atomics (R269 to R271) -/

/-- The types that an atomic accepts (R269). -/
def AtomicOp.accepts (op : AtomicOp) (t : Ty) : Bool :=
  match op with
  | .add | .min | .max | .addn => t == .s32 || t == .n32 || t == .s64 || t == .n64
  | .inc | .dec => t == .n32 || t == .n64
  | .fadd => t == .f32 || t == .f64
  | _ => t.bits == 32 || t.bits == 64

/-- The kind of an atomic's operand: a value of MD.TYPE, or for ACAS the two raw values (R270). -/
def atomicSrc (op : AtomicOp) (t : Ty) : SrcKind := if op = .cas then .data (2 * t.words) else .typed t

/-- The decode checks of atomic. -/
def atomicChecks (op : AtomicOp) (d a b : VCode) (c : Ctx) : Checks :=
  Checks.all [Checks.unmelded, Checks.when (op.accepts c.ty),
    if d = .zero then Checks.none else dstV c.ty.words d, c.address a, c.source (atomicSrc op c.ty) b,
    Checks.when (op != .cas || b.isV || b.isSLit)]

/-- An atomic (R269 to R271), on global memory or on the on-chip stores. -/
def atomic (op : AtomicOp) (windows : List Nat) (d a b : VCode) (s : State) : Host.Outcome State Fault Refusal :=
  issueChecked s (atomicChecks op d a b)
    (fun c =>
      let n := c.ty.bits / 8
      let half := 2 ^ c.ty.bits
      let x := fun l => c.operand (atomicSrc op c.ty) b l
      c.access s (.atomic op) n false d.isV d.isV (windows.contains 0) (c.asksAt n n windows true .store (c.addressOf a))
        (fun g =>
          let y := x g.ask.lane
          unitsOf g true n (if op = .cas then y / half else y) (y % half) (c.phys d.vNum g.ask.lane)))

/-- AADD (R269). -/
def execAadd (d a b : VCode) (s : State) := atomic .add [0x00] d a b s
/-- AMIN (R269). -/
def execAmin (d a b : VCode) (s : State) := atomic .min [0x00] d a b s
/-- AMAX (R269). -/
def execAmax (d a b : VCode) (s : State) := atomic .max [0x00] d a b s
/-- AAND (R269). -/
def execAand (d a b : VCode) (s : State) := atomic .and [0x00] d a b s
/-- AOR (R269). -/
def execAor (d a b : VCode) (s : State) := atomic .or [0x00] d a b s
/-- AXOR (R269). -/
def execAxor (d a b : VCode) (s : State) := atomic .xor [0x00] d a b s
/-- AXCHG (R269). -/
def execAxchg (d a b : VCode) (s : State) := atomic .xchg [0x00] d a b s
/-- ACAS (R270). -/
def execAcas (d a b : VCode) (s : State) := atomic .cas [0x00] d a b s
/-- AINC (R269). -/
def execAinc (d a b : VCode) (s : State) := atomic .inc [0x00] d a b s
/-- ADEC (R269). -/
def execAdec (d a b : VCode) (s : State) := atomic .dec [0x00] d a b s
/-- AFADD (R269). -/
def execAfadd (d a b : VCode) (s : State) := atomic .fadd [0x00] d a b s
/-- AADDN (R269). -/
def execAaddn (d a b : VCode) (s : State) := atomic .addn [0x00] d a b s
/-- SPAADD (R271). -/
def execSpaadd (d a b : VCode) (s : State) := atomic .add [0xF0, 0xF1, 0xF2] d a b s
/-- SPACAS (R271). -/
def execSpacas (d a b : VCode) (s : State) := atomic .cas [0xF0, 0xF1, 0xF2] d a b s

/-! ## Fences (R251, R273 to R276) -/

/-- The accesses of some lanes of some slices have performed and are acknowledged (R251): those of each lane, the updates
of barrier objects that their gangs have posted (R280), and those of their tile operations (R256). -/
def State.accessesDone (s : State) (k : Nat) (w : Wave) (g : SliceMask) (m : LaneMask) : Bool :=
  w.memOps.all (fun o => !o.kind.isAccess || o.kind.isProbe || o.units.all (fun u =>
    !((m.getLsbD u.lane || (o.kind.isBarrier && meets o.gang g)) && u.out))) &&
  (s.tileAccesses k w).all (fun t => !meets t.gang g)

/-- The injections of some slices have left the package switch (R251). -/
def State.injected (s : State) (k : Nat) (w : Wave) (g : SliceMask) : Bool :=
  w.memOps.all (fun o => match o.kind with
    | .token _ _ _ _ => !meets o.gang g || o.units.all (fun u => !u.out)
    | _ => true) &&
  !s.fabops.any (fun x => x.wave == k && x.send && meets x.gang g)

/-- FENCE (R251, R273): it issues when its conditions hold at MD.SCOPE; meanwhile the accesses of the other
gangs wait. In a deterministic launch it first ends the quantum (R257). -/
def execFence (s : State) : Host.Outcome State Fault Refusal :=
  issueChecked s (fun _ => Checks.control)
    (fun c => c.afterQuantum s (
      let scope := mdScope c.w.md
      if c.w.fencing.any (fun g => g != c.gang) then .stall
      else if s.accessesDone c.key c.w (BitVec.allOnes 16) (BitVec.allOnes 64) && decide (c.w.times.at_ scope ≤ c.now) &&
          (decide (scope < 4) || s.injected c.key c.w (BitVec.allOnes 16)) then
        c.onWave (s.dropReads c.w.core) { c.w with fencing := none }
      else .hold (s.modWave c.key (fun w =>
        { (if c.w.loadsReturning then w else w.endQuantum) with fencing := some c.gang }))))

/-- The decode checks of FENCEL. -/
def fencelChecks (scope : BitVec 3) : Checks :=
  Checks.control.and (Checks.when (decide (scope.toNat < 5)))

/-- FENCEL (R274): the executing lanes of the gang, at a named scope and the gang's slice times. -/
def execFencel (scope : BitVec 3) (s : State) : Host.Outcome State Fault Refusal :=
  issueChecked s (fun _ => fencelChecks scope)
    (fun c => c.afterQuantum s (
      if s.accessesDone c.key c.w c.gang c.exec && (bitsOf c.gang).all (fun i => match c.w.slices[i]? with
          | some x => decide (x.times.at_ scope.toNat ≤ c.now)
          | none => true) && (decide (scope.toNat < 4) || s.injected c.key c.w c.gang) then
        .next (s.dropReads c.w.core)
      else c.stallForCommit s))

/-- A core's L1 copies dropped, and what its waves have requested before not installed there (R245, R275). -/
def State.dropL1 (s : State) (core : Nat) : State :=
  let s := s.modCore core (fun k => { k with l1 := [] })
  let s : State := { s with fills := s.fills.map (fun f => if f.core == core then { f with overL1 := true } else f) }
  s.mapWaves (fun _ w => w.core == core) (fun w =>
    { w with memOps := w.memOps.map (fun o => { o with units := o.units.map (fun u => { u with noL1 := true }) }) })

/-- INVL1 (R275): no L1 copy of the core is used any more, and a fill requested before is not installed. -/
def execInvl1 (s : State) : Host.Outcome State Fault Refusal :=
  issueChecked s (fun _ => Checks.control) (fun c => .next (s.dropL1 c.w.core))

/-- The decode checks of LEASE. -/
def leaseChecks (a : VCode) (c : Ctx) : Checks :=
  Checks.all [Checks.control, c.sourceOf (fun x => x.isSLit || x == .zero) (.data 1) a]

/-- LEASE (R276). -/
def execLease (a : VCode) (s : State) : Host.Outcome State Fault Refusal :=
  issueChecked s (leaseChecks a)
    (fun c =>
      let n := c.operand (.data 1) a 0
      if 1024 < n then .trap (causesIn c.src .illegalOperand c.exec) false
      else c.onWave s { c.w with lease := if n = 0 then 1024 else n })

/-! ## Byte-counting barriers (R277 to R280) -/

/-- The object that a barrier instruction names: its place, or a cause in every executing lane. -/
def Ctx.barrierAt (c : Ctx) (s : State) (a : VCode) : Except (List LaneCause) Loc :=
  let ask : Ask := ⟨(bitsOf c.exec).headD 0, c.addressOf a 0, 16, 16, [0xF0, 0xF1], true, .unchecked⟩
  match s.check c.w c.blk c.src ask with
  | .ok g => .ok g.loc
  | .error x => .error ((bitsOf c.exec).map (fun l => { x with lane := l }))

/-- The unit of a gang's one read or update of a barrier object (R280). -/
def Ctx.objectUnit (c : Ctx) (a : VCode) (loc : Loc) (x : Nat) : MemUnit :=
  { lane := (bitsOf c.exec).headD 0, off := 0, len := 16, va := BitVec.ofNat 64 (c.addressOf a 0), loc, phase := .issued
    data := BitVec.ofNat 64 x, cmp := 0, reg := 0, since := 0, gwct := 0, ease := none, sent := none, rank := 0
    noL2 := false, noL1 := false }

/-- A posted update of a barrier object, once per gang (R280). -/
def Ctx.barrierPost (c : Ctx) (s : State) (kind : MemKind) (a : VCode) (x : Nat) : Res :=
  if c.accessHeld then .stall
  else
    match c.barrierAt s a with
    | .error l => c.onWave s (c.w.record l)
    | .ok loc =>
      let o := c.newOp kind 16 false false false [c.objectUnit a loc x]
      match c.w.det with
      | none =>
        if s.slotsFree c.w o then .next ((s.setWave c.key { c.w with memOps := c.w.memOps ++ [o] }).depart c.key) else .stall
      | some d =>
        if d.overflows o.units then .hold (s.modWave c.key Wave.endQuantum)
        else c.onWave s { c.w with det := some { d with buffer := d.buffer ++ [.mem o] } }

/-- The checks of a barrier instruction's address and operand. -/
def Ctx.barrierChecks (c : Ctx) (a b : VCode) (f : VCode → Bool) : Checks :=
  Checks.all [Checks.control, c.baseAddress a, c.sourceOf f (.data 1) b]

/-- The decode checks of BARINIT. -/
def barinitChecks (a b : VCode) (c : Ctx) : Checks :=
  c.barrierChecks a b (fun x => x.isSLit || x == .one)

/-- BARINIT (R280). -/
def execBarinit (a b : VCode) (s : State) : Host.Outcome State Fault Refusal :=
  issueChecked s (barinitChecks a b)
    (fun c =>
      let n := c.operand (.data 1) b 0
      if n = 0 ∨ 65535 < n then .trap (causesIn c.src .illegalOperand c.exec) false
      else c.barrierPost s .barInit a n)

/-- The decode checks of BAREXP. -/
def barexpChecks (a b : VCode) (c : Ctx) : Checks :=
  c.barrierChecks a b VCode.isSLit

/-- BAREXP (R280). -/
def execBarexp (a b : VCode) (s : State) : Host.Outcome State Fault Refusal :=
  issueChecked s (barexpChecks a b)
    (fun c => c.barrierPost s .barExp a (c.operand (.data 1) b 0))

/-- The decode checks of BARARR. -/
def bararrChecks (a b : VCode) (c : Ctx) : Checks :=
  c.barrierChecks a b (fun x => x.isSLit || x == .one)

/-- BARARR (R280). -/
def execBararr (a b : VCode) (s : State) : Host.Outcome State Fault Refusal :=
  issueChecked s (bararrChecks a b)
    (fun c => c.barrierPost s .barArr a (c.operand (.data 1) b 0))

/-- An earlier access of the gang's lanes to some bytes is still on its way, so a read at the bank must
wait for it (R252, R280). -/
def Ctx.pendingAt (c : Ctx) (l : Loc) (n : Nat) : Bool :=
  c.w.memOps.any (fun o => o.kind.isAccess && o.units.any (fun u => u.phase == .issued &&
    (c.exec.getLsbD u.lane || (o.kind.isBarrier && meets o.gang c.gang)) &&
    (unitSpan o.kind u).1.overlaps (unitSpan o.kind u).2 l n))

/-- The reads that a word of the gang has sent to another core's slot. -/
def Ctx.probed (c : Ctx) (o : MemOp) : Bool := o.kind.isProbe && meets o.gang c.gang

/-- What a word reads at the banks of some units before it issues, lane by lane: a barrier object's phase, or with `fe`
whether a line is full. A read in the core's own slot answers at once, and a deterministic wave reads what it may see;
reads that reach another core's slot take their message there and back first (R237, R280, R282, R387). The context is
then without them. -/
def Ctx.readAt (c : Ctx) (s : State) (fe : Bool) (units : List MemUnit) : Except Res (Ctx × (Nat → Bool)) :=
  let o := c.newOp (.probe fe) 1 false false false units
  let hit := fun (l : List MemUnit) (lane : Nat) => l.any (fun u => u.lane == lane && u.data == 1)
  let read := fun (t : State) => hit (units.map (fun u => (t.performUnit c.w.core o u).2))
  match c.w.det with
  | some d => .ok (c, read (s.detView c.w.core d))
  | none =>
    if !units.any (fun u => s.remote c.w.core u.loc) then .ok (c, read s)
    else
      let others := c.w.memOps.filter (fun p => !c.probed p)
      match c.w.memOps.find? (fun p => p.kind == .probe fe && p.gang == c.gang && p.src.claddr == c.src.claddr) with
      | some p => if p.units.all (s.back c.w p) then .ok ({ c with w := { c.w with memOps := others } }, hit p.units)
          else .error .stall
      | none =>
        let w := { c.w with memOps := others }
        if s.slotsFree w o then
          .error (.hold ((s.setWave c.key { w with memOps := others ++ [o], seq := w.seq + 1 }).depart c.key))
        else .error .stall

/-- The phase of the barrier object that an instruction names, once it has been read (R280). -/
def Ctx.phaseAt (c : Ctx) (s : State) (a : VCode) (loc : Loc) : Except Res (Ctx × Bool) :=
  if c.accessHeld || c.pendingAt loc 16 then .error (c.stallForCommit s)
  else
    match c.readAt s false [c.objectUnit a loc 0] with
    | .error r => .error r
    | .ok (c, hit) => .ok (c, hit ((bitsOf c.exec).headD 0))

/-- The decode checks of BARTRY. -/
def bartryChecks (d a b : VCode) (c : Ctx) : Checks :=
  (dstP d).and (c.barrierChecks a b (fun x => x.isSLit || x == .zero || x == .one))

/-- BARTRY (R280): one read of the phase; in a deterministic launch the quantum ends before it. -/
def execBartry (d a b : VCode) (s : State) : Host.Outcome State Fault Refusal :=
  issueChecked s (bartryChecks d a b)
    (fun c => c.afterQuantum s (
      match c.barrierAt s a with
      | .error l => c.onWave s (c.w.record l)
      | .ok loc =>
        match c.phaseAt s a loc with
        | .error r => r
        | .ok (c, ph) =>
          let hit := ph != (natBits (c.operand (.data 1) b 0) 0 1 == 1)
          c.onWave (if hit then s.dropReads c.w.core else s)
            (c.w.pwrite d.pNum c.exec (if hit then BitVec.allOnes 64 else 0))))

/-- The decode checks of BARWT. -/
def barwtChecks (a b : VCode) (c : Ctx) : Checks :=
  c.barrierChecks a b (fun x => x.isSLit || x == .zero)

/-- BARWT (R280): the gang parks until the phase differs. -/
def execBarwt (phase : BitVec 1) (a b : VCode) (s : State) : Host.Outcome State Fault Refusal :=
  issueChecked s (barwtChecks a b)
    (fun c => c.afterQuantum s (
      match c.barrierAt s a with
      | .error l => c.onWave s (c.w.record l)
      | .ok loc =>
        let limit := c.operand (.data 1) b 0
        match c.phaseAt s a loc with
        | .error r => r
        | .ok (c, ph) =>
          if ph != (phase == 1) then c.onWave (s.dropReads c.w.core) c.w
          else .jump (((s.dropReads c.w.core).setWave c.key (c.parked
            (.barwt c.src (BitVec.ofNat 64 (c.addressOf a 0)) (phase == 1) limit
              (if limit = 0 then none else some (c.now + limit))))).releaseBarwt)))

/-! ## Full/empty bits (R281 to R285) -/

/-- The decode checks of fullEmpty. -/
def fullEmptyChecks (a : VCode) (c : Ctx) : Checks :=
  Checks.all [Checks.unmelded, c.address a]

/-- FEEMPTY and FEFULL, per lane in `act` (R282). -/
def fullEmpty (full : Bool) (a : VCode) (s : State) : Host.Outcome State Fault Refusal :=
  issueChecked s (fullEmptyChecks a)
    (fun c => c.access s (.fe full) 1 false false false false
      (c.asksAt 1 1 [0xF0, 0xF1] true .unchecked (c.addressOf a)) (fun g => unitsOf g false 1 0 0 0))

/-- FEEMPTY (R282). -/
def execFeempty (a : VCode) (s : State) := fullEmpty false a s
/-- FEFULL (R282). -/
def execFefull (a : VCode) (s : State) := fullEmpty true a s

/-- The decode checks of FETEST. -/
def fetestChecks (d a : VCode) (c : Ctx) : Checks :=
  Checks.all [Checks.unmelded, dstP d, c.address a]

/-- FETEST (R282): each lane's bit is whether its line is full. -/
def execFetest (d a : VCode) (s : State) : Host.Outcome State Fault Refusal :=
  issueChecked s (fetestChecks d a)
    (fun c =>
      let (ok, bad) := s.checkAll c.w c.blk c.src (c.asksAt 1 1 [0xF0, 0xF1] false .unchecked (c.addressOf a))
      if c.accessHeld then .stall
      else if ok.any (fun g => c.pendingAt g.loc.line 128) then (if c.w.isDet then c.awaitLine s else .stall)
      else
        match c.readAt s true (ok.flatMap (fun g => unitsOf g false 1 0 0 0)) with
        | .error r => r
        | .ok (c, hit) =>
          let lanes := ok.map (fun g => g.ask.lane)
          let full := maskOf 64 (lanes.filter hit)
          c.onWave (if full = 0 then s else s.dropReads c.w.core)
            ((c.w.pwrite d.pNum (maskOf 64 lanes) full).record bad))

/-! ## Monitors (R286, R287) -/

/-- The decode checks of MON. -/
def monChecks (a : VCode) (c : Ctx) : Checks :=
  Checks.all [Checks.control, c.baseAddress a]

/-- MON (R286): the registration of a line is sent, in place of any earlier monitor of the wave. -/
def execMon (a : VCode) (s : State) : Host.Outcome State Fault Refusal :=
  issueChecked s (monChecks a)
    (fun c =>
      let ask : Ask := ⟨(bitsOf c.exec).headD 0, c.addressOf a 0, 1, 1, [0x00, 0xF0, 0xF1, 0xF2], false, .unchecked⟩
      let fail := fun (s : State) (x : LaneCause) =>
        Res.next (s.modWave c.key (fun w => w.record ((bitsOf c.exec).map (fun l => { x with lane := l }))))
      if c.accessHeld then .stall
      else match s.check c.w c.blk c.src ask with
      | .error x => fail s x
      | .ok g =>
        match s.awaitWalks c.w [g] with
        | some t => .hold t
        | none =>
          match (s.resolve c.key c.w c.src g).1.useAnswers c.w.asker.who, (s.resolve c.key c.w c.src g).2 with
          | s, .error x => fail s x
          | s, .ok g => .next (s.modWave c.key (fun w => { w with monitor := .sent g.loc.line c.now })))

/-- The memory die of a location's home (R286). -/
def Loc.home (l : Loc) : Nat :=
  match l with
  | .global a _ => a / 2 ^ 36
  | _ => 8

/-- A monitor is registered at a home. -/
def Monitor.armedAt (m : Monitor) (h : Nat) : Bool :=
  match m with
  | .armed l => l.home == h
  | _ => false

/-- The registrations that a home holds. -/
def State.registered (s : State) (h : Nat) : Nat :=
  (s.waves.map (fun e => (if e.2.monitor.armedAt h then 1 else 0) +
    (if e.2.heldMonitor.any (fun m => m.armedAt h) then 1 else 0))).foldl (· + ·) 0

/-- A registration that has arrived takes its place in its line's order (R237, R249), or finds its home's table full. -/
def State.arrives (s : State) (w : Wave) : Monitor → Option (Loc × Bool)
  | .sent l t =>
    if s.reached w.core l t && s.mayLand l (tieKey w.core w.waveid) then
      some (l, decide (65536 ≤ s.registered l.home) && decide (l.home < 8)) else none
  | _ => none

/-- MON_REGISTRATION (R286): the registration takes its place in the line's order; when the home's table is
full the monitor has already fired. A monitor that a handler keeps arrives too (R464). -/
def execMonRegistration (k : Nat) (s : State) : Host.Outcome State Fault Refusal :=
  .next (match s.waves.get? k with
    | none => s
    | some w =>
      match s.arrives w w.monitor, w.heldMonitor.bind (s.arrives w) with
      | some (l, full), _ =>
        (s.land l (tieKey w.core w.waveid)).modWave k (fun w =>
          if full then w.fireMonitor s.time else { w with monitor := .armed l })
      | none, some (l, full) =>
        (s.land l (tieKey w.core w.waveid)).modWave k (fun w =>
          if full then w.fireHeld s.time else { w with heldMonitor := some (.armed l) })
      | none, none => s)

/-- The decode checks of MWAIT. -/
def mwaitChecks (a : VCode) (c : Ctx) : Checks :=
  Checks.all [Checks.control, c.sourceOf VCode.isLit (.data 1) a]

/-- MWAIT (R287): it returns at once when the monitor has fired or none is armed; else the gang parks. -/
def execMwait (a : VCode) (s : State) : Host.Outcome State Fault Refusal :=
  issueChecked s (mwaitChecks a)
    (fun c =>
      let limit := c.operand (.data 1) a 0
      if limit = 0 then .trap (causesIn c.src .illegalOperand c.exec) false
      else c.afterQuantum s (
        match c.w.monitor with
        | .off | .fired => c.onWave s { c.w with monitor := .off }
        | _ => .jump (s.setWave c.key (c.parked (.mwait c.src limit (c.now + limit))))))


/-! ## GFIRE and SPAWN (R343, R345) -/

/-- A unit of an operation that has no place in memory. -/
def placeless (lane data cmp : Nat) : MemUnit :=
  { lane, off := 0, len := 0, va := 0, loc := .priv 0, phase := .issued, data := BitVec.ofNat 64 data
    cmp := BitVec.ofNat 64 cmp, reg := 0, since := 0, gwct := 0, ease := none, sent := none, rank := 0, noL2 := false
    noL1 := false }

/-- An operation that waits for a release, in program order or in the commit buffer (R257, R343, R345). -/
def Ctx.postOp (c : Ctx) (s : State) (o : MemOp) : Res :=
  .next ((s.modWave c.key (fun w =>
    let w := { w with idem := false, side := true }
    match w.det with
    | none => { w with memOps := w.memOps ++ [o] }
    | some d => { w with det := some { d with buffer := d.buffer ++ [.mem o] } })).depart c.key)

/-- The decode checks of GFIRE. -/
def gfireChecks (a b : VCode) (c : Ctx) : Checks :=
  Checks.all [Checks.unmelded, c.baseAddress a, c.sourceOf VCode.isEvenS (.data 2) b]

/-- GFIRE (R343): once per gang when a lane is in `act`; the tokens leave when the release conditions of each such lane
hold. -/
def execGfire (a b : VCode) (s : State) : Host.Outcome State Fault Refusal :=
  issueChecked s (gfireChecks a b)
    (fun c =>
      let plat := c.addressOf a 0
      let x := c.operand (.data 2) b 0
      let fail := fun cause => c.onWave s (c.w.record ((bitsOf c.act).map (fun l =>
        { laneCause c.src cause l with faddr := BitVec.ofNat 64 plat })))
      if c.act = 0 then .next s
      else if c.accessHeld then .stall
      else if plat % 64 ≠ 0 then fail .misaligned
      else if plat / 2 ^ 56 ≠ 0 then fail .window
      else
        let count := if natBits x 16 16 = 0 then 1 else natBits x 16 16
        c.postOp s (c.newOp (.token (BitVec.ofNat 64 plat) (natBits x 0 16) count (natBits x 32 32)) 0 false false
          false ((bitsOf c.act).map (fun l => placeless l 0 0))))

/-- The module and kernel that an entry word of SPAWN names (R105). -/
def State.taskEntry (s : State) (part : Nat) (x : Nat) : Option (Module × Kernel) :=
  match s.parts.get? part with
  | none => none
  | some p =>
    if x % 2 ^ 10 ≠ 0 then none
    else
      match p.modules.get? (natBits x 22 10) with
      | none => none
      | some m => (m.kernels[natBits x 10 12]?).map (fun k => (m, k))

/-- The module and kernel at which a new task may start: not those of a module that is being unloaded (R345). -/
def State.taskKernel (s : State) (part : Nat) (x : Nat) : Option (Module × Kernel) :=
  (s.taskEntry part x).filter (fun e => e.1.unloading.isNone)

/-- The tasks that an operation carries. -/
def MemOp.tasks (o : MemOp) : Nat :=
  match o.kind with
  | .task _ => o.units.length
  | _ => 0

/-- The tasks of a wave that are on their way to the gatherer, or in its commit buffer. -/
def Wave.tasksOut (w : Wave) : Nat :=
  (w.memOps.map MemOp.tasks).foldl (· + ·) 0 +
  (match w.det with
    | some d => (d.buffer.map (fun b => match b with
      | .mem o => o.tasks
      | _ => 0)).foldl (· + ·) 0
    | none => 0)

/-- Tasks that a die's gatherer holds or has on their way (R105, R345). -/
def State.taskLoad (s : State) (die : Nat) : Nat :=
  (s.dies.getD die Die.reset).tasks.length +
  ((s.waves.filter (fun e => dieOf e.2.core == die)).map (fun e => e.2.tasksOut)).foldl (· + ·) 0

/-- The cause that a lane of SPAWN records, if any (R345). -/
def State.spawnFault (s : State) (part entry arg : Nat) : Option Cause :=
  if (s.taskKernel part entry).isNone then some .illegalOperand
  else if arg % 8 ≠ 0 then some .misaligned
  else if arg / 2 ^ 56 ≠ 0 then some .window
  else none

/-- The decode checks of SPAWN. -/
def spawnChecks (a b : VCode) (c : Ctx) : Checks :=
  Checks.all [Checks.unmelded, c.source .raw a, c.address b]

/-- SPAWN (R345): one task per lane in `act`, in increasing lane order. -/
def execSpawn (a b : VCode) (s : State) : Host.Outcome State Fault Refusal :=
  issueChecked s (spawnChecks a b)
    (fun c =>
      let lanes := bitsOf c.act
      let bad := lanes.filterMap (fun l => (s.spawnFault c.w.part (c.operand .raw a l) (c.addressOf b l)).map (fun x =>
        { laneCause c.src x l with faddr := if x = .illegalOperand then 0 else BitVec.ofNat 64 (c.addressOf b l) }))
      let good := lanes.filter (fun l => (s.spawnFault c.w.part (c.operand .raw a l) (c.addressOf b l)).isNone)
      if c.accessHeld || decide (16384 < s.taskLoad (dieOf c.w.core) + good.length) ||
          c.behind s (fun w x => dieOf w.core == dieOf c.w.core && opcodeOf x == opcodeOf c.src.word) then .stall
      else if good.isEmpty then c.onWave s (c.w.record bad)
      else
        let s := s.modWave c.key (fun w => w.record bad)
        c.postOp s (c.newOp (.task 0) 0 false false false
          (good.map (fun l => placeless l (c.addressOf b l) (c.operand .raw a l)))))

end Sys2Proof.Machine
end

