-- ==== Sys2Proof/Machine/Records.lean ====
section
/-! DEFINITION. What a function shows its host: host memory and MSI-X (R416, R417), queues and completion
words (R315, R320), and the ends of what records and plat nodes started (R323 to R325, R333). -/

namespace Sys2Proof.Machine

/-! ## Queues (R315, R318) -/

/-- A queue's registers at reset (R315). -/
def Queue.reset : Queue :=
  { base := 0, size := 4, loc := false, en := false, nerr := false, wgt := 1, notify := 0, start := 0,
    done := 0, recs := [] }

/-- A queue of a function. -/
def Func.queue (f : Func) (q : Nat) : Queue := f.queues.getD q Queue.reset

/-- A queue changed. -/
def State.modQueue (s : State) (f q : Nat) (g : Queue → Queue) : State :=
  s.modFunc f (fun x => { x with queues := x.queues.set q (g (x.queue q)) })

/-- A started record of a queue. -/
def State.rec? (s : State) (f q n : Nat) : Option Rec :=
  ((s.func f).queue q).recs.find? (fun r => r.seq == n)

/-- A started record changed. -/
def State.modRec (s : State) (f q n : Nat) (g : Rec → Rec) : State :=
  s.modQueue f q (fun x => { x with recs := x.recs.map (fun r => if r.seq == n then g r else r) })

/-- The 32-bit word of a record at a byte offset from 0x10 (R318). -/
def Rec.word (r : Rec) (off : Nat) : Nat := (r.body.getD ((off - 0x10) / 4) 0).toNat

/-- The 64-bit field of a record at a byte offset. -/
def Rec.dword (r : Rec) (off : Nat) : Nat := r.word off + 2 ^ 32 * r.word (off + 4)

/-- The opcode of a record. -/
def Rec.opc (r : Rec) : Nat := natBits r.hdr.toNat 0 8

/-! ## Host memory and interrupts -/

/-- Bytes written to host memory; a WAIT_VALUE of a host ring that watches them reads again (R327). -/
def State.hostStore (s : State) (a : Nat) (l : List Byte) : State :=
  let watch := fun (r : Rec) => r.opc == 8 && decide (r.dword 0x10 < a + l.length) && decide (a < r.dword 0x10 + 8)
  { s with
    host := Memory.setBytes s.host a l
    funcs := s.funcs.mapVals (fun _ f =>
      { f with queues := f.queues.mapVals (fun _ q =>
          if q.loc then q else { q with recs := q.recs.map (fun r => if watch r then { r with poke := true } else r) }) }) }

/-- The 64-bit half `k` of the MSI-X table, two halves to an entry: an entry is masked at reset, as the PCI
Express base specification has it (assumption 25). -/
def Func.msixWord (f : Func) (k : Nat) : BitVec 64 :=
  f.msix.get k ^^^ (if k % 2 = 1 then BitVec.ofNat 64 (2 ^ 32) else 0)

/-- A half of the MSI-X table written. -/
def Func.setMsixWord (f : Func) (k : Nat) (x : BitVec 64) : Func :=
  { f with msix := f.msix.set k (x ^^^ (if k % 2 = 1 then BitVec.ofNat 64 (2 ^ 32) else 0)) }

/-- A vector's mask bit, bit 0 of its vector control. -/
def Func.masked (f : Func) (vec : Nat) : Bool := (f.msixWord (2 * vec + 1)).getLsbD 32

/-- An MSI-X vector raised: sent, or left pending while it is masked. -/
def State.raiseMsi (s : State) (f vec : Nat) : State :=
  if (s.func f).masked vec then s.modFunc f (fun x => { x with msixPend := insertNat vec x.msixPend })
  else s.emit (.msi f vec)

/-! ## Accesses for a function (R463) -/

/-- An access of the control die for a function has reached its home (R249). -/
def State.landFor (s : State) (f va : Nat) : State :=
  match (s.walk f va).result va ⟨false, false, true⟩ with
  | .ok a _ => s.land (.global a false) hostKey
  | .fault _ _ _ => s

/-- A word read for a function at a global virtual address; a fault posts a violation of code 5. -/
def State.readFor (s : State) (f va n : Nat) : State × Except Cause Nat :=
  if 2 ^ 56 ≤ va then (s.funcViolation f va, .error .window)
  else
    match s.funcLoad f va n with
    | (s, .ok x) => (s.landFor f va, .ok x)
    | (s, .error (c, _)) => (s.funcViolation f va, .error c)

/-- A word written for a function at a global virtual address. -/
def State.writeFor (s : State) (f va n x : Nat) : State × Except Cause Unit :=
  if 2 ^ 56 ≤ va then (s.funcViolation f va, .error .window)
  else
    match s.translate f va ⟨true, false, true⟩ with
    | (s, .ok a _) => ((s.land (.global a false) hostKey).storeAt (.global a false) n x, .ok ())
    | (s, .fault c _ _) => (s.funcViolation f va, .error c)

/-- Consecutive 32-bit words read for a function. -/
def State.wordsFor (s : State) (f va : Nat) : Nat → State × Except Cause (List Word)
  | 0 => (s, .ok [])
  | n + 1 =>
    match s.readFor f va 4 with
    | (s, .error c) => (s, .error c)
    | (s, .ok x) =>
      match State.wordsFor s f (va + 4) n with
      | (s, .ok l) => (s, .ok (BitVec.ofNat 32 x :: l))
      | (s, .error c) => (s, .error c)

/-- The host's IOMMU maps an address for a function now (R429). -/
def State.hostMaps (s : State) (f a : Nat) : Bool := Config.hostMapped f a s.time

/-- An access of a function to host memory outside the host's IOMMU mapping: violation code 3 freezes the function
(R429). -/
def State.hostFault (s : State) (f a : Nat) : State := (s.freezeFunc f).postViolation f 3 3 0 a

/-- A word of a ring's address space read (R315 LOC). One in host memory outside the mapping is not performed; the command
that asks for it retires as for a fault of R463 (DESIGN CHOICE, assumption 60). -/
def State.readRing (s : State) (f : Nat) (loc : Bool) (a n : Nat) : State × Except Cause Nat :=
  if loc then s.readFor f a n
  else if s.hostMaps f a then (s, .ok (Memory.load s.host a n)) else (s.hostFault f a, .error .permission)

/-- A word of a ring's address space written. -/
def State.writeRing (s : State) (f : Nat) (loc : Bool) (a n x : Nat) : State × Except Cause Unit :=
  if loc then s.writeFor f a n x
  else if s.hostMaps f a then (s.hostStore a (leBytes n x), .ok ()) else (s.hostFault f a, .error .permission)

/-! ## Retiring a record (R320) -/

/-- The completion word's value. -/
def completion (tag status sub data : Nat) : Nat :=
  data % 2 ^ 16 + sub % 2 ^ 8 * 2 ^ 16 + status % 2 ^ 8 * 2 ^ 24 + tag % 2 ^ 32 * 2 ^ 32

/-- COMPLETION_WORD_WRITE: the completion word of a record, written unless CADDR is 0 or faulty. -/
def State.completionWord (s : State) (f : Nat) (loc : Bool) (r : Rec) (status sub data : Nat) : State :=
  if r.caddr = 0 ∨ r.caddr.toNat % 8 ≠ 0 then s
  else (s.writeRing f loc r.caddr.toNat 8 (completion r.tag.toNat status sub data)).1

/-- QDONE and the records behind it: the records at the front that have retired leave. -/
def advanceDone : Nat → List Rec → Nat × List Rec
  | done, [] => (done, [])
  | done, r :: rest => if r.stage = .retired ∧ r.seq = done then advanceDone (done + 1) rest else (done, r :: rest)

/-- A record retires: its completion word, then QDONE (R320). -/
def State.retire (s : State) (f q n status sub data : Nat) : State :=
  match s.rec? f q n with
  | none => s
  | some r =>
    if r.stage = .retired then s
    else
      let s := s.completionWord f ((s.func f).queue q).loc r status sub data
      let s := s.modRec f q n (fun r => { r with stage := .retired })
      s.modQueue f q (fun x =>
        let (d, l) := advanceDone x.done x.recs
        { x with done := d, recs := l })

/-! ## Ends of what a record or a node started -/

/-- The statuses of R320. -/
def stOK : Nat := 0
/-- LAUNCH_REFUSED. -/
def stRefused : Nat := 1
/-- FAULTED. -/
def stFaulted : Nat := 2
/-- CANCELLED. -/
def stCancelled : Nat := 3
/-- BAD_RECORD. -/
def stBadRecord : Nat := 7

/-- One part of a bundle has ended. -/
def partEnded (l : List (Nat × Option (Nat × Nat))) (entry status sub : Nat) : List (Nat × Option (Nat × Nat)) :=
  l.map (fun e => if e.1 = entry ∧ e.2 = none then (entry, some (status, sub)) else e)

/-- Every part has ended. -/
def partsDone (l : List (Nat × Option (Nat × Nat))) : Bool := l.all (fun e => e.2.isSome)

/-- The outcome of a bundle whose parts have ended (R324): the lowest-numbered faulting entry's SUB. -/
def partsOutcome (l : List (Nat × Option (Nat × Nat))) : Nat × Nat :=
  match l.findSome? (fun e => match e.2 with
    | some (2, sub) => some sub
    | _ => none) with
  | some sub => (stFaulted, sub)
  | none => if l.all (fun e => e.2 == some (0, 0)) then (stOK, 0) else (stFaulted, 0)

/-- A plat instance changed. -/
def State.modPlat (s : State) (k : Nat) (f : PlatInst → PlatInst) : State := { s with plats := s.plats.update k f }

/-- A node's running payload changed. -/
def PlatInst.modPayload (p : PlatInst) (node : Nat) (f : Payload → Payload) : PlatInst :=
  { p with payloads := p.payloads.map (fun x => if x.node = node ∧ x.ended = none then f x else x) }

/-- The name of a plat instance among the places of `State.landed`: the place there is that of the last event of this tick
that its engine has applied, a node for an end and `tokenPlace` for a token (R335). -/
def platBank (k : Nat) : Nat := 2 ^ 20 + k

/-- The place of a token, after those of all nodes. -/
def tokenPlace : Nat := 65536

/-- An event of an instance applied (R335). -/
def State.applied (s : State) (k place : Nat) : State := { s with landed := s.landed.set (platBank k) place }

/-- The tick at which the end of a node's payload reaches its engine: the next one when the engine has applied an event of
this tick that comes after it (R335). -/
def State.endTick (s : State) (k node : Nat) : Nat :=
  if (s.landed.get? (platBank k)).any (fun y => decide (node < y)) then s.time + 1 else s.time

/-- What a record or a node started has ended with a status: the record retires, a bundle whose entry faults
cuts its other entries, a node's payload ends for NODE_COMPLETE or NODE_FAULT (R323 to R325, R336). -/
def State.originEnded (s : State) (o : Origin) (status sub data : Nat) : State :=
  match o with
  | .device => s
  | .record f q n => s.retire f q n status sub data
  | .bundleEntry f q n entry =>
    let s := s.modRec f q n (fun r => { r with parts := partEnded r.parts entry status sub })
    let s := if status = stFaulted then s.cutOrigins o.sibling else s
    (match s.rec? f q n with
      | some r =>
        if partsDone r.parts then
          let (st, sb) := partsOutcome r.parts
          s.retire f q n st sb 0
        else s
      | none => s)
  | .node inst node => s.modPlat inst (fun p => p.modPayload node (fun x =>
      { x with ended := some (status, sub), endedAt := s.endTick inst node }))
  | .nodeEntry inst node entry =>
    let s := s.modPlat inst (fun p => p.modPayload node (fun x => { x with parts := partEnded x.parts entry status sub }))
    let s := if status = stFaulted then s.cutOrigins o.sibling else s
    s.modPlat inst (fun p => p.modPayload node (fun x =>
      if partsDone x.parts then { x with ended := some (partsOutcome x.parts), endedAt := s.endTick inst node } else x))

end Sys2Proof.Machine
end

