-- ==== Sys2Proof/Machine/Engine.lean ====
section
/-! DEFINITION. The copy engines (R293 to R314): transfer descriptors, easements, direct transfers, chains
and channels, bandwidth shares; the instructions 0xB0 to 0xB7 and the events SEGMENT_PERFORM,
CHAIN_RECORD_FETCH and BUCKET_REFILL. -/

namespace Sys2Proof.Machine

/-! ## The transfer descriptor (R294) -/

/-- A word of a descriptor. -/
def descWord (d : List Word) (i : Nat) : Nat := (d.getD i 0).toNat
/-- SRC. -/
def descSrc (d : List Word) : Nat := descWord d 0 + 2 ^ 32 * descWord d 1
/-- DST. -/
def descDst (d : List Word) : Nat := descWord d 2 + 2 ^ 32 * descWord d 3
/-- LEN. -/
def descLen (d : List Word) : Nat := descWord d 4
/-- ROWS. -/
def descRows (d : List Word) : Nat := descWord d 5 % 2 ^ 16
/-- SSTR. -/
def descSstr (d : List Word) : Int := signedOf 32 (descWord d 6)
/-- DSTR. -/
def descDstr (d : List Word) : Int := signedOf 32 (descWord d 7)
/-- BWIN. -/
def descBwin (d : List Word) : Nat := natBits (descWord d 8) 30 2
/-- RTYPE. -/
def descRtype (d : List Word) : Nat := natBits (descWord d 9) 28 4
/-- IDX. -/
def descIdx (d : List Word) : Nat := descWord d 10 + 2 ^ 32 * descWord d 11
/-- The generic address of the barrier object. -/
def descBarrier (d : List Word) : Nat :=
  (if descBwin d = 1 then 0xF0 else 0xF1) * 2 ^ 56 + natBits (descWord d 8) 0 22

/-- XGATH and XSCAT. -/
def XOp.indexed (op : XOp) : Bool := op == .gath || op == .scat

/-- The element type of RTYPE and its bytes (R297). -/
def redType (code : Nat) : Option (Ty × Nat) :=
  match code with
  | 0 => some (.f32, 4)
  | 1 => some (.f16, 2)
  | 2 => some (.bf16, 2)
  | 9 => some (.s32, 4)
  | 10 => some (.n32, 4)
  | _ => none

/-- Check 1 of R298. -/
def descLegal (op : XOp) (d : List Word) : Bool :=
  natBits (descWord d 5) 16 16 == 0 && natBits (descWord d 8) 22 8 == 0 && natBits (descWord d 9) 0 28 == 0 &&
  decide (1 ≤ descRows d) && decide (1 ≤ descLen d) && decide (descLen d ≤ 16777216) &&
  decide (descLen d * descRows d ≤ 2 ^ 30) &&
  (op != .cpy || (descRows d == 1 && descWord d 6 == 0 && descWord d 7 == 0)) &&
  (op.indexed || descIdx d == 0) && (if op = .red then (redType (descRtype d)).isSome else descRtype d == 0)

/-! ## Rows and segments (R295) -/

/-- The source address of a row. -/
def rowSrc (op : XOp) (d : List Word) (r idx : Nat) : Int :=
  (descSrc d : Int) + (if op = .gath then (idx : Int) else r) * descSstr d

/-- The destination address of a row. -/
def rowDst (op : XOp) (d : List Word) (r idx : Nat) : Int :=
  (descDst d : Int) + (if op = .scat then (idx : Int) else r) * descDstr d

/-- How an agent decodes a run of bytes at a generic address: its place, global bytes still untranslated. -/
abbrev Decoder := Nat → Nat → Except Cause Loc

/-- A run of bytes stays in the window it began in and within its reachable range (R218, R295). -/
def rangeIn (dec : Decoder) (window : Nat) (a : Int) (n : Nat) : Bool :=
  decide (0 ≤ a) && decide (a < 2 ^ 64) && a.toNat / 2 ^ 56 == window && decide (a.toNat % 2 ^ 56 + n ≤ 2 ^ 56) &&
  (window == 0 || (match dec a.toNat n with
    | .ok _ => true
    | .error _ => false))

/-- The windows of SRC and DST (R296). -/
def xferWindows : List Nat := [0x00, 0xF0, 0xF1, 0xF2]

/-- The first row, at or after one, of which an address that does not depend on an index leaves its on-chip
range. -/
def badRow (dec : Decoder) (base : Nat) (stride : Int) (len : Nat) : Nat → Nat → Option Nat
  | 0, _ => none
  | n + 1, r =>
    let a := (base : Int) + r * stride
    if rangeIn dec (base / 2 ^ 56) a len then badRow dec base stride len n (r + 1)
    else some (a % 2 ^ 64).toNat

/-- The start of a slot of the cluster window (R218). -/
def slotStart (k : Nat) : Nat := 0xF1 * 2 ^ 56 + 2 ^ 20 * k

/-- The slot that an address of the cluster window names. -/
def slotOf (a : Nat) : Nat := natBits a 20 2

/-- A base in a cluster slot that has no core (R224, R298); its rows are checked as they are computed. -/
def slotMissing (dec : Decoder) (base : Nat) : Option Nat :=
  if base / 2 ^ 56 = 0xF1 then (match dec (slotStart (slotOf base)) 0 with
    | .ok _ => none
    | .error _ => some base)
  else none

/-- Check 2 of R298: the address that leaves its windows. -/
def descWindow (dec : Decoder) (op : XOp) (d : List Word) : Option Nat :=
  let onChip := fun (base : Nat) (stride : Int) (len rows : Nat) =>
    if base / 2 ^ 56 = 0 then none else badRow dec base stride len rows 0
  if !xferWindows.contains (descSrc d / 2 ^ 56) then some (descSrc d)
  else if !(if op = .red then [0x00] else xferWindows).contains (descDst d / 2 ^ 56) then some (descDst d)
  else if op.indexed && !(List.contains [0x00, 0xF0, 0xF2] (descIdx d / 2 ^ 56)) then some (descIdx d)
  else if descBwin d = 3 then some (descBarrier d)
  else
    match (if op = .gath then slotMissing dec (descSrc d) else onChip (descSrc d) (descSstr d) (descLen d) (descRows d)),
          (if op = .scat then slotMissing dec (descDst d) else onChip (descDst d) (descDstr d) (descLen d) (descRows d)),
          (if op.indexed then onChip (descIdx d) 0 (4 * descRows d) 1 else none) with
    | some a, _, _ => some a
    | none, some a, _ => some a
    | none, none, some a => some a
    | none, none, none =>
      if descBwin d ≠ 0 ∧ !rangeIn dec (descBarrier d / 2 ^ 56) (descBarrier d) 16 then some (descBarrier d) else none

/-- Check 3 of R298: the misaligned address, or 0 for a length or a stride. -/
def descMisaligned (op : XOp) (d : List Word) : Option Nat :=
  let n := match redType (descRtype d) with
    | some (_, n) => n
    | none => 1
  if descBwin d ≠ 0 ∧ descBarrier d % 16 ≠ 0 then some (descBarrier d)
  else if op = .red ∧ descSrc d % n ≠ 0 then some (descSrc d)
  else if op = .red ∧ descDst d % n ≠ 0 then some (descDst d)
  else if op = .red ∧ (descLen d % n ≠ 0 ∨ descWord d 6 % n ≠ 0 ∨ descWord d 7 % n ≠ 0) then some 0
  else if op.indexed && descIdx d % 4 != 0 then some (descIdx d)
  else none

/-- Check 4 of R298: an operand or the barrier in a cluster region that has been lost, with its slot. -/
def State.descLost (s : State) (dec : Decoder) (op : XOp) (d : List Word) : Option (Nat × Nat) :=
  let lost := fun a : Nat => match dec a 1 with
    | .ok l => if s.regionLost l then some (a, s.regionSlot l) else none
    | .error _ => none
  let rows := fun (base : Nat) (stride : Int) => if base / 2 ^ 56 = 0xF1 then
      (List.range (descRows d)).findSome? (fun (r : Nat) => lost (((base : Int) + r * stride) % 2 ^ 64).toNat)
    else none
  let src := if op = .gath then lost (descSrc d) else rows (descSrc d) (descSstr d)
  let dst := if op = .scat then lost (descDst d) else rows (descDst d) (descDstr d)
  (src.or dst).or (([] ++ (if op.indexed then [descIdx d] else []) ++
    (if descBwin d = 2 then [descBarrier d] else [])).findSome? lost)

/-- The checks of R298 in order: the cause, the address, and what XINFO takes. -/
def State.descFault (s : State) (dec : Decoder) (op : XOp) (d : List Word) : Option (Cause × Nat × Nat) :=
  if !descLegal op d then some (.illegalOperand, 0, 0)
  else
    match descWindow dec op d, descMisaligned op d, s.descLost dec op d with
    | some a, _, _ => some (.window, a, 0)
    | none, some a, _ => some (.misaligned, a, 0)
    | none, none, some (a, slot) => some (.peerLost, a, slot)
    | none, none, none => none

/-! ## Agents -/

/-- The decoder of a wave's engine operations: its windows without the alias range of a handler. -/
def State.waveDecoder (s : State) (w : Wave) (b : Block) : Decoder := fun a n =>
  s.window { w with inHandler := false } b 0 a n

/-- The decoder of a queue's chain: window 0x00 alone (R325). -/
def globalDecoder : Decoder := fun a _ => if a / 2 ^ 56 = 0 then .ok .untranslated else .error .window

/-- The decoder of a transfer. -/
def State.xferDecoder (s : State) (x : Transfer) : Decoder :=
  match x.wave, x.block with
  | some k, some b =>
    (match s.waves.get? k, s.blocks.get? b with
      | some w, some blk => s.waveDecoder w blk
      | _, _ => globalDecoder)
  | _, _ => globalDecoder

/-- The reads of a wave's engine operations that R389 forbids. -/
def State.orderOf (s : State) (wave : Option Nat) (l : Loc) : Bool :=
  match wave.bind (fun k => s.waves.get? k) with
  | some w => s.detOrder w l
  | none => false

/-- What stops an access of an engine: a cause, the address, MALF, and whether it lies outside the grant. -/
structure EngineStop where
  cause   : Cause
  addr    : Nat
  malf    : Bool
  outside : Bool
  deriving DecidableEq, Repr

/-- The place of an access of an engine, translated (R229, R296). -/
def State.enginePlace (s : State) (dec : Decoder) (func : Nat) (priv write : Bool) (a n : Nat) :
    State × Except EngineStop Loc :=
  match dec a n with
  | .error c => (s, .error ⟨c, a, false, false⟩)
  | .ok .untranslated =>
    (match s.translate func (a % 2 ^ 56) ⟨write, false, priv⟩ with
      | (s, .ok pa u) => (s, .ok (.global pa u))
      | (s, .fault c malf out) => (s, .error ⟨c, a, malf, out⟩))
  | .ok l => (s, .ok l)

/-- A run of at most 128 bytes cut at line boundaries. -/
def pieces (a n : Nat) : List (Nat × Nat) :=
  let k := 128 - a % 128
  if n ≤ k then [(a, n)] else [(a, k), (a + k, n - k)]

/-- What a read of an engine gives: its bytes; a wait on an empty line; nothing in this tick, in which an access that
comes later in the order of ties has been served there (R249); or a stop. -/
inductive EngineRead where
  | data (l : List Byte)
  | wait
  | later
  | stop (e : EngineStop)

/-- One piece of a read of an engine, at its place in the order of ties (`key`, R249); an empty line makes it wait, and a
line of a higher block (`order`, R389) or a poisoned one stops it (R285, R300, R438). -/
def State.readPiece (s : State) (dec : Decoder) (order : Loc → Bool) (func key : Nat) (priv : Bool) (a n : Nat) :
    State × EngineRead :=
  match s.enginePlace dec func priv false a n with
  | (s, .error e) => (s, .stop e)
  | (s, .ok l) =>
    if s.lineEmpty l then (s, .wait)
    else if order l then (s, .stop ⟨.detOrder, a, false, false⟩)
    else if s.poisoned l then (s, .stop ⟨.hwErr, a, false, false⟩)
    else if !s.mayLand l key then (s, .later)
    else (s.land l key, .data (leBytes n (s.readLoc l n)))

/-- A read of an engine, piece by piece. -/
def State.readPieces (s : State) (dec : Decoder) (order : Loc → Bool) (func key : Nat) (priv : Bool) :
    List (Nat × Nat) → State × EngineRead
  | [] => (s, .data [])
  | (a, n) :: rest =>
    match s.readPiece dec order func key priv a n with
    | (s, .data x) =>
      (match State.readPieces s dec order func key priv rest with
        | (s, .data y) => (s, .data (x ++ y))
        | r => r)
    | r => r

/-! ## Easements (R303 to R305) -/

/-- The lines of one slot of the cluster window between two addresses of the window. -/
def slotRun (dec : Decoder) (lo hi k : Nat) : Option (Loc × Nat × Nat) :=
  match dec (slotStart k) 0 with
  | .ok l => some (l.space, (if k = slotOf lo then lo % 2 ^ 19 / 128 else 0), if k = slotOf hi then hi % 2 ^ 19 / 128 else 4095)
  | .error _ => none

/-- The runs of lines from one generic address up to another's last byte: one in a store, and one in each cluster slot
that has a core. -/
def easeRuns (dec : Decoder) (lo hi : Nat) : List (Loc × Nat × Nat) :=
  match dec lo 1, dec hi 1 with
  | .ok x, .ok y =>
    if x.space == y.space then [(x.space, x.offset lo / 128, y.offset hi / 128)]
    else ((List.range 4).filter (fun k => decide (slotOf lo ≤ k) && decide (k ≤ slotOf hi))).filterMap (slotRun dec lo hi)
  | _, _ => []

/-- The easement over rows of `len` bytes at a stride: from the lowest to the highest byte (R303). -/
def rowsEase (dec : Decoder) (owner func : Nat) (dst : Bool) (base : Nat) (stride : Int) (len rows : Nat) : Ease :=
  let last := (base : Int) + (rows - 1 : Nat) * stride
  let lo := (min (base : Int) last).toNat
  let hi := (max (base : Int) last).toNat + len - 1
  { owner, dst, func, base := BitVec.ofNat 64 (lo / 128 * 128)
    runs := if base / 2 ^ 56 = 0 then [(.untranslated, lo % 2 ^ 56 / 128, min hi (2 ^ 56 - 1) / 128)] else easeRuns dec lo hi }

/-- The two entries of an operation (R303). -/
def opEases (dec : Decoder) (owner func : Nat) (op : XOp) (d : List Word) : List Ease :=
  let index := fun dst => rowsEase dec owner func dst (descIdx d) 0 (4 * descRows d) 1
  [if op = .gath then index false else rowsEase dec owner func false (descSrc d) (descSstr d) (descLen d) (descRows d),
   if op = .scat then index true else rowsEase dec owner func true (descDst d) (descDstr d) (descLen d) (descRows d)]

/-- Free entries of a core's table (R293). -/
def State.easesFree (s : State) (core : Nat) : Nat := 64 - (s.core core).eases.length

/-- Entries put at the lowest free places of a core's table. -/
def State.addEases (s : State) (core : Nat) (l : List Ease) : State :=
  l.foldl (fun s e => s.modCore core (fun c =>
    { c with eases := c.eases.set (firstFree (c.eases.map (·.1)) 64 0) e })) s

/-! ## The end of an operation -/

/-- A transfer changed where it stands. -/
def State.modXfer (s : State) (id : Nat) (f : Transfer → Transfer) : State :=
  { s with xfers := s.xfers.map (fun x => if x.id = id then f x else x) }

/-- A channel of a block changed. -/
def State.modChan (s : State) (b ch : Nat) (f : Channel → Channel) : State :=
  s.modBlock b (fun x => { x with chans := listUpdate x.chans ch f })

/-- A channel's CHSTAT, record count and current record as its transfer has them. -/
def State.noteChan (s : State) (x : Transfer) : State :=
  match x.block with
  | some b => s.modChan b x.ch (fun c => { c with dones := x.segs, recs := x.recs, cur := x.cur })
  | none => s

/-- An operation that leaves the engine: its easements end, its flag falls (R296, R299, R305). -/
def State.dropXfer (s : State) (x : Transfer) : State :=
  let s := s.endEasements x.core x.id
  let s : State := { s with xfers := s.xfers.filter (fun y => y.id != x.id) }
  match x.wave with
  | some k => (s.modWave k (fun w => w.flagDown s.time x.flag)).settle k
  | none => s

/-- The STAT word of a record (R306). -/
def statWord (own can err : Bool) (cause dones : Nat) : Nat :=
  dones % 2 ^ 24 + cause * 2 ^ 24 + (if err then 2 ^ 29 else 0) + (if can then 2 ^ 30 else 0) + (if own then 2 ^ 31 else 0)

/-- A record's STAT written by its engine, and what stopped the write, if anything did. -/
def State.putStat (s : State) (x : Transfer) (v : Nat) : State × Option EngineStop :=
  match s.enginePlace (s.xferDecoder x) x.func x.priv true (x.cur.toNat + 0x38) 4 with
  | (s, .ok l) => (s.storeAt l 4 v, none)
  | (s, .error e) => (s, some e)

/-- A record's STAT written by an engine that stops; a write that faults leaves it. -/
def State.writeStat (s : State) (x : Transfer) (v : Nat) : State := (s.putStat x v).1

/-- A chain outside a block that has stopped: the command or node that ran it ends (R325). An access of the control die to
the record itself that faulted gives its cause as the fault's SUB (R463). -/
def State.chainEnded (s : State) (x : Transfer) (sub : Nat) : State :=
  if x.block.isNone then s.originEnded x.origin (if x.anyErr then stFaulted else stOK) sub 0 else s

/-- A channel that stops; XCHAIN completes, and its CHSTAT keeps the outcome (R307, R310). -/
def State.stopChain (s : State) (x : Transfer) (can : Bool) (cause : Option Cause) (sub : Nat) : State :=
  let s := match x.block with
    | some b => s.modChan b x.ch (fun c =>
        { c with run := false, can := c.can || can, err := cause.isSome, dones := x.segs, recs := x.recs, cur := x.cur
                 cause := (cause.map Cause.code).getD 0 })
    | none => s
  (s.dropXfer x).chainEnded { x with anyErr := x.anyErr || cause.isSome } sub

/-- The violation of an engine's access outside the grant (R429): it freezes the wave, or the channel, which the
record names by its channel number in the low byte and its physical core number from bit 8 (DESIGN CHOICE, assumption 34: R419
says only that it names the channel and the core). -/
def State.xferViolation (s : State) (x : Transfer) (addr : Nat) : State :=
  if x.chain then
    let s := match x.block with
      | some b => s.modChan b x.ch (fun c => { c with frozen := true })
      | none => s.modCore x.core (fun c => { c with frozenChans := c.frozenChans ++ [(x.ch, x.func)] })
    s.postViolation x.func 1 2 (x.ch + 2 ^ 8 * x.core) addr
  else
    match x.wave with
    | some k => s.waveViolation k addr
    | none => s

/-- TRANSFER_STOP (R299): a cause stops the operation before the segment that found it. A direct transfer's
cause is recorded in its elected lane, or faults the block when no slice of the wave is live; a
record's goes to its STAT and CHSTAT, and one outside the grant, which freezes the channel, stops it as XCANCEL does too
(R307, R309, R429). -/
def State.stopXfer (s : State) (x : Transfer) (e : EngineStop) : State :=
  let s := if e.outside then s.xferViolation x e.addr else s
  if x.chain then
    let s := s.writeStat x (statWord true e.outside true e.cause.code x.segs)
    s.stopChain x e.outside (some e.cause) 0
  else
    match x.wave, x.block with
    | some k, some b =>
      (match (s.waves.get? k).filter (fun w => w.live != 0) with
        | some _ => (s.modWave k (fun w => w.record
            [⟨x.lane, e.cause, e.malf, 0, BitVec.ofNat 64 e.addr, x.src, true, none⟩])).dropXfer x
        | none => s.fatalBlock b none e.cause)
    | _, _ => s.dropXfer x

/-- The control die reads the head of a queue's or a plat's chain for the function (R463). -/
def Transfer.atHead (x : Transfer) : Bool := x.block.isNone && !x.loaded && x.recs == 0

/-- An access to a record's words, or to a STAT, that faults stops its channel with ERR and the cause in CHSTAT alone
(R307, R310). A fault at the head of a queue's or a plat's chain is the control die's (R463). -/
def State.lostRecord (s : State) (x : Transfer) (e : EngineStop) : State :=
  let s := if x.atHead then s.funcViolation x.func e.addr else if e.outside then s.xferViolation x e.addr else s
  s.stopChain x (e.outside && !x.atHead) (some e.cause) (if x.atHead then e.cause.code else 0)

/-- The 64 bytes of a channel's current record, read at its generic address. -/
def State.readRecord (s : State) (x : Transfer) : State × Except EngineStop (Option (List Word)) :=
  let a := x.cur.toNat
  if !(List.contains [0x00, 0xF0, 0xF2] (a / 2 ^ 56)) then (s, .error ⟨.window, a, false, false⟩)
  else if a % 64 ≠ 0 then (s, .error ⟨.misaligned, a, false, false⟩)
  else
    match s.readPieces (s.xferDecoder x) (fun _ => false) x.func (engineKey x.core) x.priv [(a, 64)] with
    | (s, .stop e) => (s, .error e)
    | (s, .data l) => (s, .ok (some ((List.range 16).map (fun i => BitVec.ofNat 32 (leNat ((l.drop (4 * i)).take 4))))))
    | (s, _) => (s, .ok none)

/-- The engine owns a record that it has not started: it waits for entries, or its OWN bit is set. -/
def State.ownsRecord (s : State) (x : Transfer) : Bool :=
  x.loaded || x.want.isSome || (match s.readRecord x with
    | (_, .ok (some m)) => natBits (descWord m 14) 31 1 == 1
    | _ => false)

/-- A channel stopped by XCANCEL or by a cut as XCANCEL stops it (R309, R337). -/
def State.cancelChain (s : State) (x : Transfer) : State :=
  let s := if s.ownsRecord x then s.writeStat x (statWord true true false 0 x.segs) else s
  s.stopChain x true none 0

/-! ## Segments (R295, R296, R300) -/

/-- The release of R254: every earlier access of the elected lane has performed, those of its gang's tile operations among
them (R256), and the wave's completion time for the scope has been reached. -/
def State.released_ (s : State) (k : Nat) (w : Wave) (lane : Nat) (gang : SliceMask) (after scope : Nat) : Bool :=
  w.memOps.all (fun o => decide (after ≤ o.id) || !o.kind.isAccess || o.units.all (fun u =>
    !(u.out && (u.lane == lane || (o.kind.isBarrier && meets o.gang gang))))) &&
  (s.tileAccesses k w).all (fun t => !(t.gang.getLsbD (lane / 4) && decide (t.src.ord < after))) &&
  decide (w.times.at_ scope ≤ s.time)

/-- A transfer's release has been made. -/
def State.xferReleased (s : State) (x : Transfer) : Bool :=
  match x.wave with
  | none => true
  | some k => match s.waves.get? k with
    | none => true
    | some w => s.released_ k w x.lane x.gang x.after x.scope

/-- An address reaches the engine's own core scratchpad or its die's, so that no message goes to it (R237, R252). -/
def State.engineNear (s : State) (x : Transfer) (a : Nat) : Bool :=
  match (s.xferDecoder x) a 1 with
  | .ok .untranslated => false
  | .ok l => s.nearLoc x.core l
  | .error _ => true

/-- What an engine sent at its last step has had the time for its way over some links (R237). -/
def State.ways (s : State) (x : Transfer) (links : Nat) : Bool := links == 0 || decide (x.turn + 8 * links < s.time)

/-- The next segment: its source address, its destination address and its bytes. -/
def Transfer.segment (x : Transfer) : Int × Int × Nat :=
  let i := x.ridx.getD 0
  let a := rowSrc x.op x.desc x.row i + x.off
  let d := rowDst x.op x.desc x.row i + x.off
  (a, d, min (descLen x.desc - x.off) (128 - (d % 128).toNat))

/-- The bytes that an operation reads next: its record, the index of its row, or its segment's source. -/
def Transfer.nextRead (x : Transfer) : List (Nat × Nat) :=
  if x.chain && !x.loaded then [(x.cur.toNat, 64)]
  else if x.op.indexed && x.ridx.isNone then [(descIdx x.desc + 4 * x.row, 4)]
  else pieces x.segment.1.toNat x.segment.2.2

/-- An operation still waits at an empty line for what it reads next (R285, R300). -/
def State.xferWaits (s : State) (x : Transfer) : Bool :=
  x.since.isSome && x.perf.isNone && x.got.isNone &&
  (match (s.readPieces (s.xferDecoder x) (fun _ => false) x.func (engineKey x.core) x.priv x.nextRead).2 with
    | .wait => true
    | _ => false)

/-- A new value of a destination element under XRED (R297). -/
def redElem (t : Ty) (m x : Nat) : Nat :=
  if t.isInt then (m + x) % 2 ^ t.bits else (elemArith .add t ⟨0, false, false⟩ m x 0).1

/-- The bytes that a segment leaves: the source's, or their sums with the destination's (R297). -/
def redBytes (rtype : Nat) (old new : List Byte) : List Byte :=
  match redType rtype with
  | none => new
  | some (t, n) => (List.range (new.length / n)).flatMap (fun i =>
      leBytes n (redElem t (leNat ((old.drop (n * i)).take n)) (leNat ((new.drop (n * i)).take n))))

/-- A channel whose record is complete: its STAT is released to software, and the chain goes on or stops (R307). -/
def State.endRecord (s : State) (y : Transfer) : State :=
  match s.enginePlace (s.xferDecoder y) y.func y.priv false (y.cur.toNat + 0x30) 8 with
  | (s, .error e) => s.lostRecord y e
  | (s, .ok l) =>
    let next := s.readLoc l 8
    match s.putStat y (statWord false false false 0 y.segs) with
    | (s, some e) => s.lostRecord y e
    | (s, none) =>
      let z := { y with
        recs := y.recs + 1, loaded := false, row := 0, off := 0, ridx := none, eased := false, want := none, turn := s.time }
      if next = 0 then s.stopChain z false none 0
      else
        let z := { z with segs := 0, cur := BitVec.ofNat 64 next }
        (s.modXfer y.id (fun _ => z)).noteChan z

/-- The barrier object that a transfer counts into may take the engine's update in this tick: the updates of waves come
first (R278). -/
def State.countTurn (s : State) (x : Transfer) : Bool :=
  descBwin x.desc == 0 || (match (s.xferDecoder x) (descBarrier x.desc) 16 with
    | .ok l => s.mayLand l (engineKey x.core)
    | .error _ => true)

/-- A line that the engine has written for a wave of a deterministic launch is tagged (R389). -/
def State.tagXfer (s : State) (x : Transfer) (l : Loc) : State :=
  match x.wave.bind (fun k => s.waves.get? k) with
  | some w => s.tagWrite w l
  | none => s

/-- A segment's bytes counted (R300): the barrier's count, the block's counters, and after the last segment
the end of the easements, of the operation, or of the record. -/
def State.countSegment (s : State) (x : Transfer) : State :=
  let (_, _, n) := x.segment
  let rowEnd := descLen x.desc ≤ x.off + n
  let last := rowEnd && descRows x.desc == x.row + 1
  let y := { x with
    segs := x.segs + 1, perf := none, paid := false, since := none, got := none, turn := s.time
    row := if rowEnd then x.row + 1 else x.row, off := if rowEnd then 0 else x.off + n
    ridx := if rowEnd then none else x.ridx }
  let s := s.modXfer x.id (fun _ => y)
  let s := match x.block with
    | some b => (s.count x.core none 0x32 n).modBlock b (fun z => { z with xbytes := z.xbytes + n, charge := z.charge + 3 * n })
    | none => s.modPart (((s.func x.func).part).getD 16) (fun p => p.post 0 x.func ((3 * n + 383) / 384))
  let s := if last then s.endEasements x.core x.id else s
  let s := if descBwin x.desc = 0 then s
    else match (s.xferDecoder x) (descBarrier x.desc) 16 with
      | .ok l => ((s.land l (engineKey x.core)).updateBarrier l (BarObj.bytes n)).tagXfer x l
      | .error _ => s
  if !x.chain then (if last then s.dropXfer y else s)
  else
    let s := s.noteChan y
    if last then s.endRecord y
    else match s.putStat y (statWord true false false 0 y.segs) with
      | (s, some e) => s.lostRecord y e
      | (s, none) => s

/-- A segment whose source is read performs at its destination (R300), once its bytes have come there (R237): they are
written or added, and the line set full. A poisoned line to which XRED adds stops it (R438). -/
def State.writeSegment (s : State) (x : Transfer) (src : List Byte) : State :=
  let (a, d, n) := x.segment
  let links := (if s.engineNear x a.toNat then 0 else 1) + (if s.engineNear x d.toNat then 0 else 1)
  if !s.ways x links then s
  else match s.enginePlace (s.xferDecoder x) x.func x.priv true d.toNat n with
  | (s, .error e) => s.stopXfer x e
  | (s, .ok l) =>
    if x.op = .red ∧ s.poisoned l then s.stopXfer x ⟨.hwErr, d.toNat, false, false⟩
    else if !s.mayLand l (engineKey x.core) then s
    else
      let s := s.land l (engineKey x.core)
      let bytes := if x.op = .red then redBytes (descRtype x.desc) (leBytes n (s.readLoc l n)) src else src
      let g := match l.homeLine with
        | some line => s.gwctOf line
        | none => s.time
      let s := (s.storeAt l n (leNat bytes)).tagXfer x l
      let s := match l with
        | .scratch _ _ _ | .region _ _ => s.fillLine l
        | _ => s
      let x := { x with perf := some g, got := none }
      let s := s.modXfer x.id (fun _ => x)
      if g ≤ s.time ∧ s.countTurn x then s.countSegment x else s

/-- The source of a segment is read at its home or bank, once the engine's request has come there (R237, R300); within
the core and its die the segment then performs at once. -/
def State.readSegment (s : State) (x : Transfer) : State :=
  let dec := s.xferDecoder x
  let i := x.ridx.getD 0
  let (a, _, n) := x.segment
  if !rangeIn dec (descSrc x.desc / 2 ^ 56) (rowSrc x.op x.desc x.row i) (descLen x.desc) then
    s.stopXfer x ⟨.window, (rowSrc x.op x.desc x.row i % 2 ^ 64).toNat, false, false⟩
  else if !rangeIn dec (descDst x.desc / 2 ^ 56) (rowDst x.op x.desc x.row i) (descLen x.desc) then
    s.stopXfer x ⟨.window, (rowDst x.op x.desc x.row i % 2 ^ 64).toNat, false, false⟩
  else if !s.ways x (if s.engineNear x a.toNat then 0 else 1) then s
  else
    match s.readPieces dec (s.orderOf x.wave) x.func (engineKey x.core) x.priv (pieces a.toNat n) with
    | (s, .stop e) => s.stopXfer x e
    | (s, .wait) => s.modXfer x.id (fun y => { y with since := some (y.since.getD s.time) })
    | (s, .later) => s
    | (s, .data src) =>
      let y := { x with got := some src, since := none, turn := s.time }
      (s.modXfer x.id (fun _ => y)).writeSegment y src

/-- The next step of a paid segment (R296, R300): its source read, or what was read written. -/
def State.performSegment (s : State) (x : Transfer) : State :=
  match x.got with
  | none => s.readSegment x
  | some src => s.writeSegment x src

/-- A function that runs: active and not frozen (R422, R429). -/
def Func.runs (f : Func) : Bool := f.active && !f.frozen

/-- A chain of a queue or a plat whose function does not run stands still (R313, R422). -/
def State.xferStands (s : State) (x : Transfer) : Bool := x.block.isNone && !(s.func x.func).runs

/-- SEGMENT_PERFORM (R296, R300): an indexed row reads its index, the next segment performs, or a segment
whose write has reached its GWCT is counted. -/
def execSegmentPerform (id : Nat) (s : State) : Host.Outcome State Fault Refusal :=
  .next (match s.xfers.find? (fun x => x.id == id) with
    | none => s
    | some x =>
      if x.buffered || (x.chain && !x.loaded) then s
      else
        match x.perf with
        | some g => if g ≤ s.time ∧ s.countTurn x then s.countSegment x else s
        | none =>
          if x.chain && x.cancel then s.cancelChain x
          else if s.xferStands x || !s.xferReleased x then s
          else if x.op.indexed && x.ridx.isNone then
            if !s.ways x (if s.engineNear x (descIdx x.desc + 4 * x.row) then 0 else 2) then s
            else (match s.readPieces (s.xferDecoder x) (s.orderOf x.wave) x.func (engineKey x.core) x.priv
                [(descIdx x.desc + 4 * x.row, 4)] with
              | (s, .stop e) => s.stopXfer x e
              | (s, .wait) => s.modXfer id (fun y => { y with since := some (y.since.getD s.time) })
              | (s, .later) => s
              | (s, .data l) => s.modXfer id (fun y => { y with ridx := some (leNat l), since := none, turn := s.time }))
          else if x.paid then s.performSegment x
          else s)

/-! ## Chains (R306, R307) -/

/-- The operation that a record's OP names. -/
def opOf (code : Nat) : Option XOp :=
  match code with
  | 0 => some .cpy
  | 1 => some .tile
  | 2 => some .gath
  | 3 => some .scat
  | 4 => some .red
  | _ => none


/-- A record's fields break R306, or R298 under its own operation. -/
def State.recordFault (s : State) (x : Transfer) (m : List Word) : Except Cause XOp :=
  let w := descWord m
  if natBits (w 15) 3 29 ≠ 0 then .error .illegalOperand
  else
    match opOf (natBits (w 15) 0 3) with
    | none => .error .illegalOperand
    | some op =>
      if x.block.isNone && descBwin m != 0 then .error .window
      else
        match s.descFault (s.xferDecoder x) op (m.take 12) with
        | some (c, _, _) => .error c
        | none => .ok op

/-- A word that takes easement entries: a direct transfer, an ESND or an ERCV (R303, R412, R413). -/
def takesEases (x : Word) : Bool :=
  (decide (0xB0 ≤ opcodeOf x) && decide (opcodeOf x ≤ 0xB4)) || opcodeOf x == 0xB8 || opcodeOf x == 0xB9

/-- Two easement entries of a core are free for a record that has waited for them since a tick: no gang and no other
record came before it (R23, R305). -/
def State.recordTurn (s : State) (x : Transfer) (t : Nat) : Bool :=
  decide (2 ≤ s.easesFree x.core) &&
  !s.waves.any (fun e => e.2.core == x.core && !e.2.ended && !s.heldInPlace e.2 && e.2.gangs.any (fun g =>
    takesEases (e.2.wordRef g).1.word && (e.2.stalledSince g).any (fun u => decide (u ≤ t)))) &&
  !s.xfers.any (fun y => y.core == x.core && y.id != x.id && y.want.any (fun u => decide (u < t || (u == t && y.id < x.id))))

/-- A record that has its two easement entries starts; without them it waits (R303, R307). A transfer with a global
destination marks the wave that issued its chain (R296, R365). -/
def State.startRecord (s : State) (x : Transfer) : State :=
  let t := x.want.getD s.time
  if !s.recordTurn x t then s.modXfer x.id (fun _ => { x with want := some t })
  else
    let s := s.addEases x.core (opEases (s.xferDecoder x) x.id x.func x.op x.desc)
    let y := { x with loaded := true, segs := 0, row := 0, off := 0, ridx := none, eased := true, paid := false, since := none
                      want := none, turn := s.time }
    let s := (s.modXfer x.id (fun _ => y)).noteChan y
    match x.wave with
    | some k => if descDst x.desc / 2 ^ 56 = 0 then s.modWave k (fun w => { w with idem := false, side := true }) else s
    | none => s

/-- CHAIN_RECORD_FETCH (R307): a channel reads its next record and starts it, waits at an empty line or for two easement
entries, or stops. -/
def execChainRecordFetch (id : Nat) (s : State) : Host.Outcome State Fault Refusal :=
  .next (match s.xfers.find? (fun x => x.id == id) with
    | none => s
    | some x =>
      if !x.chain || x.loaded || x.buffered then s
      else if x.cancel then s.cancelChain x
      else if s.xferStands x || !s.xferReleased x then s
      else if x.want.isSome then s.startRecord x
      else if !s.ways x (if s.engineNear x x.cur.toNat then 0 else 2) then s
      else
        match s.readRecord x with
        | (s, .error e) => s.lostRecord x e
        | (s, .ok none) => if s.xferWaits { x with since := some 0 } then
            s.modXfer id (fun y => { y with since := some (y.since.getD s.time) }) else s
        | (s, .ok (some m)) =>
          if natBits (descWord m 14) 31 1 = 0 then s.stopChain x false none 0
          else
            match s.recordFault x m with
            | .error c => (s.writeStat x (statWord true false true c.code 0)).stopChain x false (some c) 0
            | .ok op => s.startRecord { x with op, desc := m.take 12 })

/-! ## Direct transfers (R296) -/

/-- A new transfer of the gang's word. -/
def Ctx.newXfer (c : Ctx) (s : State) (op : XOp) (desc : List Word) : Transfer :=
  let flag := hdrSetB c.src.hdr
  { id := s.nextId, block := some c.w.block, half := c.w.half, wave := some c.key, core := c.w.core, func := c.w.func,
    lane := (bitsOf c.act).headD 0, op, desc, segs := 0, row := 0, off := 0, ridx := none, perf := none,
    priv := c.w.priv, cancel := false, flag, atEnd := flag.isNone, gang := c.gang, chain := false, ch := 0, cur := 0,
    loaded := true, recs := 0, anyErr := false, scope := mdScope c.w.md, after := c.src.ord, since := none,
    paid := false, buffered := c.w.isDet, eased := false, want := none, origin := .device, src := c.src, turn := c.now }

/-- A transfer registered with its easements, or, in a deterministic launch, left to its commit (R303,
R314). -/
def State.startXfer (s : State) (dec : Decoder) (x : Transfer) : State :=
  if x.buffered then { s with xfers := s.xfers ++ [x] }
  else
    let s := if x.chain then s else s.addEases x.core (opEases dec x.id x.func x.op x.desc)
    { s with xfers := s.xfers ++ [{ x with eased := !x.chain }] }

/-- An engine operation of the issuing wave counted: its flag rises, and a deterministic wave buffers it. -/
def Wave.engineIssued (w : Wave) (flag : Option Nat) (id : Nat) (side : Bool) : Wave :=
  let w := w.flagUp flag
  { w with
    idem := if side then false else w.idem
    side := w.side || side
    det := w.det.map (fun d => { d with buffer := d.buffer ++ [.transfer id] }) }

/-- Some easement entries of the core are free for the gang: none that came before it waits for entries (R23, R305). -/
def Ctx.easeTurn (c : Ctx) (s : State) (n : Nat) : Bool :=
  decide (n ≤ s.easesFree c.w.core) &&
  !c.behind s (fun w x => w.core == c.w.core && takesEases x) &&
  !s.xfers.any (fun y => y.core == c.w.core && y.want.any (fun t => decide (t < (c.w.stalledSince c.gang).getD c.now)))

/-- The decode checks of directTransfer. -/
def directTransferChecks (a : VCode) : Checks :=
  Checks.all [Checks.unmelded, Checks.when a.isDescS, { ok := true, sregs := [(a.sNum, 12)], meld := true }]

/-- A direct transfer (R296); in a deterministic launch it starts at the commit (R314). One that no lane performs or whose
checks fail is counted by its flag, and is over in a later tick (R31, R298). -/
def directTransfer (op : XOp) (a : VCode) (s : State) : Host.Outcome State Fault Refusal :=
  issueChecked s (fun _ => directTransferChecks a)
    (fun c =>
      if c.act = 0 then c.onWave s (c.idleSetB c.w)
      else
        let d := (List.range 12).map (fun i => c.w.s.get (a.sNum + i))
        let dec := s.waveDecoder c.w c.blk
        match s.descFault dec op d with
        | some (cause, addr, xinfo) => c.onWave s ((c.idleSetB c.w).record
            [⟨(bitsOf c.act).headD 0, cause, false, xinfo, BitVec.ofNat 64 addr, c.src, false, none⟩])
        | none =>
          if !c.w.isDet && !c.easeTurn s 2 then .stall
          else
            let x := c.newXfer s op d
            let s := (s.startXfer dec x).modWave c.key (fun w => w.engineIssued x.flag x.id (descDst d / 2 ^ 56 == 0))
            .next { s with nextId := s.nextId + 1 })

/-- XCPY (R296). -/
def execXcpy (a : VCode) (s : State) := directTransfer .cpy a s
/-- XTILE (R296). -/
def execXtile (a : VCode) (s : State) := directTransfer .tile a s
/-- XGATH (R296). -/
def execXgath (a : VCode) (s : State) := directTransfer .gath a s
/-- XSCAT (R296). -/
def execXscat (a : VCode) (s : State) := directTransfer .scat a s
/-- XRED (R296, R297). -/
def execXred (a : VCode) (s : State) := directTransfer .red a s

/-! ## Channels (R308 to R310) -/

/-- A channel that has run no chain (R310). -/
def Channel.stopped : Channel := ⟨false, false, false, 0, 0, 0, 0, false⟩

/-- A channel of a block. -/
def Block.chan (b : Block) (ch : Nat) : Channel := b.chans.getD ch Channel.stopped

/-- Physical channels of a core that are not free: the running ones (R293) and those that a violation of a chain outside a
block froze, which accept no XCHAIN (R429). -/
def State.channelsOn (s : State) (core : Nat) : Nat :=
  countIf (fun x => x.chain && !x.buffered && x.core == core) s.xfers + (s.core core).frozenChans.length

/-- The CHSTAT word (R310). -/
def Channel.word (c : Channel) : Nat :=
  c.dones % 2 ^ 24 + c.cause % 2 ^ 5 * 2 ^ 24 + (if c.err then 2 ^ 29 else 0) + (if c.can then 2 ^ 30 else 0) +
    (if c.run then 2 ^ 31 else 0)

/-- A word of a wave that waits for a physical channel: an XCHAIN whose own channel runs no chain (R308). -/
def State.wantsChannel (s : State) (w : Wave) (x : Word) : Bool :=
  opcodeOf x == 0xB5 && (match s.blocks.get? w.block with
    | some b => !(b.chan (x.extractLsb' 16 4).toNat).run
    | none => false)

/-- A COPY_CHAIN or a BUNDLE of a partition with a core has waited for channels since before a tick (R23, R325). -/
def State.chainWaits (s : State) (core t : Nat) : Bool :=
  s.funcs.any (fun e => (e.2.part.bind (fun k => s.parts.get? k)).any (fun p => p.cores.contains core) &&
    e.2.queues.any (fun x => x.2.recs.any (fun r => r.stage == .started && (r.opc == 3 || r.opc == 4) && decide (r.since < t))))

/-- A channel of a block may take a chain: it runs none, is not frozen, and its core has one of 16 channels to
spare (R293, R308, R429). -/
def State.chanFree (s : State) (b ch core : Nat) : Bool :=
  match s.blocks.get? b with
  | some x => !(x.chan ch).run && !(x.chan ch).frozen && decide (s.channelsOn core < 16)
  | none => false

/-- A channel that starts a chain. -/
def State.openChan (s : State) (b ch : Nat) (head : DWord) : State :=
  s.modChan b ch (fun _ => { Channel.stopped with run := true, cur := head })

/-- The decode checks of XCHAIN. -/
def xchainChecks (a : VCode) (c : Ctx) : Checks :=
  Checks.all [Checks.unmelded, c.baseAddress a]

/-- XCHAIN (R308); in a deterministic launch it starts at the commit (R314). One that no lane performs or whose checks fail
is counted by its flag, and is over in a later tick (R31). -/
def execXchain (ch : BitVec 4) (a : VCode) (s : State) : Host.Outcome State Fault Refusal :=
  issueChecked s (xchainChecks a)
    (fun c =>
      let head := c.addressOf a 0
      let lane := (bitsOf c.act).headD 0
      let fail := fun cause => c.onWave s ((c.idleSetB c.w).record
        [⟨lane, cause, false, 0, BitVec.ofNat 64 head, c.src, false, none⟩])
      if c.act = 0 then c.onWave s (c.idleSetB c.w)
      else if head % 64 ≠ 0 then fail .misaligned
      else if !(List.contains [0x00, 0xF0, 0xF2] (head / 2 ^ 56)) then fail .window
      else if !c.w.isDet && (!s.chanFree c.w.block ch.toNat c.w.core ||
          c.behind s (fun w x => w.core == c.w.core && s.wantsChannel w x) ||
          s.chainWaits c.w.core ((c.w.stalledSince c.gang).getD c.now)) then .stall
      else
        let x := { c.newXfer s .cpy [] with
          chain := true, ch := ch.toNat, cur := BitVec.ofNat 64 head, loaded := false }
        let s := if c.w.isDet then s else s.openChan c.w.block ch.toNat (BitVec.ofNat 64 head)
        let s := (s.startXfer (s.waveDecoder c.w c.blk) x).modWave c.key (fun w => w.engineIssued x.flag x.id false)
        .next { s with nextId := s.nextId + 1 })

/-- A running channel of a block told to stop before its next segment (R309). -/
def State.cancelChannel (s : State) (b ch : Nat) : State :=
  { s with xfers := s.xfers.map (fun x =>
      if x.chain && !x.buffered && x.block == some b && x.ch == ch then { x with cancel := true } else x) }

/-- XCANCEL (R309): in a deterministic launch it acts at the commit (R314). -/
def execXcancel (ch : BitVec 4) (s : State) : Host.Outcome State Fault Refusal :=
  issueChecked s (fun _ => Checks.control)
    (fun c => match c.w.det with
      | some d => c.onWave s { c.w with det := some { d with buffer := d.buffer ++ [.cancel ch.toNat] } }
      | none => .next (s.cancelChannel c.w.block ch.toNat))

/-- The decode checks of XSTAT. -/
def xstatChecks (d : VCode) : Checks :=
  Checks.control.and (Checks.when d.isQuadS)

/-- What XSTAT writes of a channel from an s register on (R310). -/
def Wave.readChannel (w : Wave) (dst : Nat) (k : Channel) : Wave :=
  ((w.swrite dst 1 k.word).swrite (dst + 1) 1 k.recs).swrite (dst + 2) 2 k.cur.toNat

/-- XSTAT (R310); in a deterministic launch it acts at the commit (R314), for which the quantum ends after it
(assumption 24). -/
def execXstat (d : VCode) (ch : BitVec 4) (s : State) : Host.Outcome State Fault Refusal :=
  issueChecked s (fun _ => xstatChecks d)
    (fun c => match c.w.det with
      | some x => c.onWave s (Wave.endQuantum { c.w with det := some { x with buffer := x.buffer ++ [.stat d.sNum ch.toNat] } })
      | none => c.onWave s (c.w.readChannel d.sNum (c.blk.chan ch.toNat)))

/-! ## Bandwidth shares (R311, R312) -/

/-- DEPTH of a BKTCFG in 1/256 byte. -/
def bktDepth (cfg : DWord) : Nat := natBits cfg.toNat 24 24 * 256

/-- RATE of a BKTCFG, the refill of one tick in 1/256 byte. -/
def bktRate (cfg : DWord) : Nat := natBits cfg.toNat 0 16

/-- A function's bucket at an engine: a bucket starts full (R311). -/
def State.bucket (s : State) (engine f : Nat) : Bucket :=
  s.buckets.getD (engine * 512 + f) ⟨bktDepth (s.func f).bktcfg, 0, .none, s.time, none⟩

/-- The pool's capacity at an engine of a partition: the sum of the depths of its functions. -/
def State.poolCap (s : State) (part : Nat) : Nat :=
  ((s.funcs.filter (fun e => e.2.part == some part)).map (fun e => bktDepth e.2.bktcfg)).foldl (· + ·) 0

/-- One tick's refill of a bucket with its pool (R312). -/
def refillTick (depth rate cap : Nat) (x : Bucket × Nat) : Bucket × Nat :=
  let (b, p) := x
  let k := if 0 < b.debt then min b.debt (rate / 2) else 0
  let debt := b.debt - k
  let p := if 0 < b.debt then min cap (p + k) else p
  let t := b.tokens + rate - k
  let p := if depth < t then min cap (p + t - depth) else p
  ({ b with tokens := min t depth, debt, loan := if b.loan = .repay ∧ debt = 0 then .none else b.loan }, p)

/-- Some ticks' refills. -/
def refillTicks (depth rate cap : Nat) : Nat → Bucket × Nat → Bucket × Nat
  | 0, x => x
  | n + 1, x => refillTicks depth rate cap n (refillTick depth rate cap x)

/-- A payment of `c` bytes, in 1/256 byte: from tokens, on loan, or not yet (R312). -/
def payBytes (depth c : Nat) (x : Bucket × Nat) : (Bucket × Nat) × Bool :=
  let (b, p) := x
  if c ≤ b.tokens then (({ b with tokens := b.tokens - c }, p), true)
  else if b.loan ≠ .repay ∧ b.debt + c ≤ depth ∧ c ≤ p then (({ b with debt := b.debt + c, loan := .opened }, p - c), true)
  else (({ b with loan := if b.loan = .opened ∧ depth < b.debt + c then .repay else b.loan }, p), false)

/-- The operation of a function at an engine whose next segment is to be paid next. -/
def State.payable (s : State) (engine f : Nat) : Option Transfer :=
  s.xfers.find? (fun x => clusterOf x.core == engine && x.func == f && !x.buffered && !x.paid && x.perf.isNone &&
    (!x.chain || x.loaded) && !x.cancel && (!x.op.indexed || x.ridx.isSome) && s.xferReleased x && !s.xferStands x)

/-- A partition's pool at an engine. -/
def State.pool (s : State) (part engine : Nat) : Nat :=
  match s.parts.get? part with
  | some p => p.pools.getD engine 0
  | none => 0

/-- A bucket and the pool at its engine put back. -/
def State.setBucket (s : State) (part engine func : Nat) (x : Bucket × Nat) : State :=
  { s with buckets := s.buckets.set (engine * 512 + func) x.1 }.modPart part (fun p =>
    { p with pools := p.pools.set engine x.2 })

/-- A function's bucket at an engine brought up to this tick, with its pool there (R312). -/
def State.refill (s : State) (part engine func : Nat) : State :=
  let f := s.func func
  let b := s.bucket engine func
  let x := refillTicks (bktDepth f.bktcfg) (bktRate f.bktcfg) (s.poolCap part) (s.time - b.last) (b, s.pool part engine)
  s.setBucket part engine func ({ x.1 with last := s.time }, x.2)

/-- Each bucket at the engines of a partition brought up to this tick, under the settings that hold until now; those of a
function that has joined begin (R311, R312). -/
def State.refillAll (s : State) (part : Nat) : State :=
  match s.parts.get? part with
  | none => s
  | some p =>
    let fs := (s.funcs.filter (fun e => e.2.part == some part)).map (·.1)
    ((p.cores.map clusterOf).eraseDups).foldl (fun s e => fs.foldl (fun s f => s.refill part e f) s) s

/-- An engine may pay in this tick: every bucket there of the partition's functions has been refilled, and no segment has
been paid in the tick (R312; an engine moves 128 bytes, one segment, a tick, R293). -/
def State.mayPay (s : State) (part engine : Nat) : Bool :=
  (s.funcs.filter (fun e => e.2.part == some part)).all (fun e => match s.buckets.get? (engine * 512 + e.1) with
    | some b => decide (s.time ≤ b.last) && b.paidAt != some s.time
    | none => false)

/-- The payment for a function's next segment at an engine, which then may perform, or waits (R312). -/
def State.payNext (s : State) (part engine func : Nat) (b : Bucket) : State :=
  match s.payable engine func with
  | none => s
  | some t =>
    match payBytes (bktDepth (s.func func).bktcfg) (256 * t.segment.2.2) (b, s.pool part engine) with
    | ((b, p), true) => (s.setBucket part engine func ({ b with paidAt := some s.time }, p)).modXfer t.id (fun t =>
        { t with paid := true, turn := s.time })
    | (x, false) => s.setBucket part engine func x

/-- BUCKET_REFILL (R312): a tick's refill of a function's bucket at an engine; once every bucket there is refilled, the
payment for the function's next segment. -/
def execBucketRefill (engine func : Nat) (s : State) : Host.Outcome State Fault Refusal :=
  .next (
    match (s.func func).part, s.buckets.get? (engine * 512 + func) with
    | none, _ => s
    | some _, none => { s with buckets := s.buckets.set (engine * 512 + func) (s.bucket engine func) }
    | some part, some b =>
      if b.last < s.time then s.refill part engine func
      else if s.mayPay part engine then s.payNext part engine func b
      else s)

end Sys2Proof.Machine
end

