-- ==== Sys2Proof/Machine/Fabric.lean ====
section
/-! DEFINITION. The fabric (R398 to R410): endpoints, the package switch, watermarks and beacons, fencing and
time transfer; ESND, ERCV, ESTAMP and EWMARK (R411 to R415) with their events. -/

namespace Sys2Proof.Machine

/-! ## Endpoints (R398, R399) -/

/-- An endpoint at reset. -/
def Endpoint.reset : Endpoint := { cfg := 0, oq := [], uq := [], odrops := 0, udrops := 0 }

/-- An endpoint of the device. -/
def State.endpoint (s : State) (n : Nat) : Endpoint := s.fabric.eps.getD n Endpoint.reset

/-- The fabric changed. -/
def State.modFabric (s : State) (f : Fabric → Fabric) : State := { s with fabric := f s.fabric }

/-- An endpoint changed. -/
def State.modEndpoint (s : State) (n : Nat) (f : Endpoint → Endpoint) : State :=
  s.modFabric (fun x => { x with eps := x.eps.set n (f (x.eps.getD n Endpoint.reset)) })

/-- EN. -/
def Endpoint.en (e : Endpoint) : Bool := e.cfg.getLsbD 31
/-- FUNC. -/
def Endpoint.func (e : Endpoint) : Nat := natBits e.cfg.toNat 0 9
/-- KEY. -/
def Endpoint.key (e : Endpoint) : Nat := natBits e.cfg.toNat 48 16
/-- The packets that a class queue holds. -/
def Endpoint.depth (e : Endpoint) (ordered : Bool) : Nat := 2 ^ (natBits e.cfg.toNat (if ordered then 36 else 32) 4)

/-- A drop counted at an endpoint's class queue, saturating at 255 (R399). -/
def Endpoint.drop (e : Endpoint) (ordered : Bool) : Endpoint :=
  if ordered then { e with odrops := min 255 (e.odrops + 1) } else { e with udrops := min 255 (e.udrops + 1) }

/-- A packet reaches its endpoint: it is queued, or dropped (R399, R405). -/
def Endpoint.receive (e : Endpoint) (p : Packet) : Endpoint :=
  let q := if p.ordered then e.oq else e.uq
  if !e.en || e.key != p.key.toNat || decide (e.depth p.ordered ≤ q.length) then e.drop p.ordered
  else if p.ordered then { e with oq := e.oq ++ [p] }
  else { e with uq := e.uq ++ [p] }

/-! ## Watermarks (R402, R404) -/

/-- A watermark above every stamp: what a fenced input reads (R407). -/
def wmarkTop : Nat := 2 ^ 64 - 1

/-- An input of the switch. -/
def State.input (s : State) (i : Nat) : SwitchInput := s.fabric.inputs.getD i SwitchInput.reset

/-- An input changed. -/
def State.modInput (s : State) (i : Nat) (f : SwitchInput → SwitchInput) : State :=
  s.modFabric (fun x => { x with inputs := listUpdate x.inputs i f })

/-- The smallest watermark over some inputs, the top when there is none. -/
def minMark (l : List SwitchInput) : Nat :=
  match listMin ((l.filter (fun x => !x.fenced && !x.rejoin)).map (·.wmark)) with
  | some w => w
  | none => wmarkTop

/-- The delivery watermark DW (R404). -/
def State.dw (s : State) : Nat := minMark s.fabric.inputs

/-- The watermark that the switch sends toward Traverse port `p`: that of every other unfenced input, and never below the
last that it has sent there (R402). -/
def State.outMark (s : State) (p : Nat) : Nat :=
  max (s.input p).sentMark (minMark (s.fabric.inputs.mapIdx (fun i x => if i = p then { x with fenced := true } else x)))

/-- A link out of the switch has sent its watermark. -/
def State.sentOn (s : State) (p : Nat) : State :=
  s.modInput p (fun x => { x with lastSent := s.time, sentMark := s.outMark p })

/-- A watermark received on an input: it never goes back, and a port that rejoins does so when it exceeds
DW (R402, R407). An input that is no Traverse port has no status register: its stall ends when its watermark has come
within the limit again (R406; assumption 147). -/
def State.mark (s : State) (i w : Nat) : State :=
  let dw := s.dw
  s.modInput i (fun x =>
    { x with wmark := max x.wmark w, rejoin := x.rejoin && decide (max x.wmark w ≤ dw)
             stall := x.stall && (decide (i < 16) || decide (max x.wmark w + s.fabric.stallLim < s.time)) })

/-! ## Packets at the switch (R399 to R403) -/

/-- A packet is one that a retire names (R410). -/
def retiredBy (p : Packet) (r : Retire) : Bool :=
  p.key == r.key && p.sdev == r.sdev && p.func == r.func && decide ((if p.ordered then p.stamp.toNat else p.inject) ≤ r.upTo)

/-- What the retire beacon of a function of this device carries. -/
def State.retireOf (s : State) (f : Nat) : Option Retire :=
  (s.funcs.get? f).bind (fun x => x.retire.map (fun r => ⟨x.key, s.fabric.devid, f, r⟩))

/-- A packet that a function's reset discards at every hop (R410): one of this device, or one that a retire beacon
has named. -/
def State.retired (s : State) (p : Packet) : Bool :=
  (match s.funcs.get? p.func with
    | some f => (match f.retire with
      | some r => decide ((if p.ordered then p.stamp.toNat else p.inject) ≤ r) && p.sdev == s.fabric.devid
      | none => false)
    | none => false) || s.fabric.retires.any (retiredBy p)

/-- The packets that a retire names taken out of every endpoint's queues (R410, R426). -/
def State.purge (s : State) (r : Retire) : State :=
  s.modFabric (fun x => { x with eps := x.eps.mapVals (fun _ e =>
    { e with oq := e.oq.filter (fun p => !retiredBy p r), uq := e.uq.filter (fun p => !retiredBy p r) }) })

/-- The next sequence number of a source endpoint and class (R401). -/
def State.takeSeq (s : State) (p : Packet) : State × Packet :=
  let key := 2 * p.sep + (if p.ordered then 1 else 0)
  let n := s.fabric.seqs.getD key 0
  (s.modFabric (fun x => { x with seqs := x.seqs.set key ((n + 1) % 2 ^ 32) }), { p with seq := BitVec.ofNat 32 n })

/-- The plat engines' endpoints, which are bound to no function (R398). -/
def platEndpoint : Nat := 4064

/-- A packet forwarded from the switch: to an endpoint of the device, or out of a Traverse port with the
watermark of that link. A packet that no link can route is dropped (R412). Endpoints 4,064 and above
are the plat engines', which queue the ordered messages of their peers and take no program's packets (R395, R398): a
packet for them comes from one of them. -/
def State.forward (s : State) (i : Nat) (p : Packet) : State :=
  if p.ddev = s.fabric.devid then
    if platEndpoint ≤ p.dep then
      (if p.ordered ∧ platEndpoint ≤ p.sep then s.modEndpoint p.dep (fun e => { e with oq := e.oq ++ [p] }) else s)
    else s.modEndpoint p.dep (fun e => e.receive p)
  else
    let port := Config.portOf p.ddev
    if port < 16 ∧ port ≠ i ∧ (s.input port).linkup = true then
      (s.emit (.egress port { p with wmark := BitVec.ofNat 64 (s.outMark port) })).sentOn port
    else s

/-- A fabric operation whose packet has left the switch is done with (R251). -/
def State.leftSwitch (s : State) (p : Packet) : State :=
  { s with fabops := s.fabops.filter (fun o => !(o.injected && o.taken == some p)) }

/-- The first item on the link of an input. -/
def State.linkHead (s : State) (i : Nat) : Option LinkItem := s.fabric.links.find? (fun x => x.input == i)

/-- The first item of an input's link taken off it. -/
def dropHead (i : Nat) : List LinkItem → List LinkItem
  | [] => []
  | x :: rest => if x.input = i then rest else x :: dropHead i rest

/-- The name among the places of `State.landed` that an ERCV takes at its acceptance: what arrives at the switch in a
tick arrives before the ERCVs of that tick are accepted (R460). -/
def switchBank : Nat := 512

/-- No ERCV has been accepted in this tick. -/
def State.switchOpen (s : State) : Bool := (s.landed.get? switchBank).isNone

/-- An item of an input's link arrives: items from inside the package must stand first on their link and have been long
enough on it (R237); those of a Traverse port come from outside, over a link that is trained (R408). -/
def State.takeItem (s : State) (i : Nat) (p : Option Packet) (r : Option Retire) : Option State :=
  if !s.switchOpen then none
  else if i < 16 then (if (s.input i).linkup then some s else none)
  else
    match s.linkHead i with
    | some x => if x.pkt = p ∧ x.retire = r ∧ x.wmark + 8 < s.time then some (s.modFabric (fun f => { f with links := dropHead i f.links }))
        else none
    | none => none

/-- PACKET_ARRIVAL (R399 to R403): a packet enters the switch; it is discarded for a reset function, dropped
as late or at a fenced port, or takes its number and is forwarded. Its watermark then counts. -/
def execPacketArrival (input : Nat) (pkt : Packet) (s : State) : Host.Outcome State Fault Refusal :=
  .next (match s.takeItem input (some pkt) none with
    | none => s
    | some s =>
      let x := s.input input
      let s := s.leftSwitch pkt
      let s :=
        if s.retired pkt then s
        else if pkt.ordered && (x.fenced || x.rejoin || decide (pkt.stamp.toNat < x.wmark)) then
          let s := s.modInput input (fun x => { x with odrop := min 65535 (x.odrop + 1) })
          if x.fenced || pkt.ddev != s.fabric.devid || decide (platEndpoint ≤ pkt.dep) then s
          else s.modEndpoint pkt.dep (fun e => e.drop true)
        else if input < 16 then s.forward input pkt
        else
          let (s, p) := s.takeSeq pkt
          s.forward input p
      s.mark input pkt.wmark.toNat)

/-- A retire beacon taken at the switch (R410): it is noted, the packets that it names are discarded, and it goes on out of
every other trained Traverse port with the W of that link; one that is known already goes no further. -/
def State.takeRetire (s : State) (i : Nat) (r : Retire) : State :=
  let same := fun (x : Retire) => x.key == r.key && x.sdev == r.sdev && x.func == r.func
  if s.fabric.retires.any (fun x => same x && decide (r.upTo ≤ x.upTo)) then s
  else
    let s := (s.modFabric (fun x => { x with retires := x.retires.filter (fun y => !same y) ++ [r] })).purge r
    (List.range 16).foldl (fun s p =>
      if p ≠ i ∧ (s.input p).linkup = true then (s.emit (.retire p r (s.outMark p))).sentOn p else s) s

/-- BEACON_ARRIVAL (R402, R410): a beacon's watermark counts; a retire beacon's packets are discarded first. -/
def execBeaconArrival (input : Nat) (w : Beacon) (s : State) : Host.Outcome State Fault Refusal :=
  .next (match s.takeItem input none w.retire with
    | none => s
    | some s =>
      let s := s.mark input w.wmark.toNat
      match w.retire with
      | some r => s.takeRetire input r
      | none => s)

/-- BEACON_SEND (R402): a link that has sent nothing for 256 ticks sends its watermark: the switch toward a
Traverse port (0 to 15), a compute die's interface (16 to 19) and the control die's port (20) toward the
switch, and the switch toward a compute die (21 to 24). -/
def execBeaconSend (link : Nat) (s : State) : Host.Outcome State Fault Refusal :=
  .next (
    let x := s.input link
    if 20 < link then
      (match s.fabric.toDie[link - 21]? with
        | some (t, w) =>
          if s.time < t + 256 then s
          else s.modFabric (fun f => { f with toDie := listUpdate f.toDie (link - 21) (fun _ => (s.time, max w s.dw)) })
        | none => s)
    else if s.time < x.lastSent + 256 then s
    else if link < 16 then
      (if x.linkup then (s.emit (.beacon link (s.outMark link))).sentOn link else s)
    else
      (s.modInput link (fun x => { x with lastSent := s.time })).modFabric (fun f =>
        { f with links := f.links ++ [⟨link, none, s.time, none⟩] }))

/-! ## Stalled and fenced ports (R406, R407) -/

/-- WATERMARK_STALL (R406). -/
def execWatermarkStall (input : Nat) (s : State) : Host.Outcome State Fault Refusal :=
  .next (
    let x := s.input input
    if input < 21 ∧ x.fenced = false ∧ x.stall = false ∧ x.wmark + s.fabric.stallLim < s.time then
      (s.modInput input (fun x => { x with stall := true })).log (.watermarkStall input)
    else s)

/-- An input fenced out of ordered delivery (R407). -/
def State.fenceInput (s : State) (i : Nat) : State :=
  if (s.input i).fenced then s
  else (s.modInput i (fun x => { x with fenced := true, rejoin := false })).log (.fence i)

/-- A fenced input made a candidate to rejoin (R407). -/
def State.unfenceInput (s : State) (i : Nat) : State :=
  if (s.input i).fenced then (s.modInput i (fun x => { x with fenced := false, rejoin := true })).log (.unfence i)
  else s

/-- PORT_FENCE (R407). -/
def execPortFence (input : Nat) (s : State) : Host.Outcome State Fault Refusal :=
  .next (if input < 21 then s.fenceInput input else s)

/-- PORT_UNFENCE (R407). -/
def execPortUnfence (input : Nat) (s : State) : Host.Outcome State Fault Refusal :=
  .next (if input < 21 then s.unfenceInput input else s)

/-- LINK_TRAINED (R408): the Traverse ports train once the device is usable (R435), and stay down in minimal mode
(R434). -/
def execLinkTrained (port : Nat) (s : State) : Host.Outcome State Fault Refusal :=
  .next (if port < 16 ∧ s.usable = true then s.modInput port (fun x => { x with linkup := true }) else s)

/-- The LAG field (R408). -/
def State.lag (s : State) (x : SwitchInput) : Nat :=
  if x.fenced then 0xFFFFFFFF else min 0xFFFFFFFF (s.time - x.wmark)

/-- TVSTAT (R408). -/
def State.tvstat (s : State) (p : Nat) : Nat :=
  let x := s.input p
  s.lag x + x.odrop * 2 ^ 32 + (if x.linkup then 2 ^ 59 else 0) + (if x.tsrc then 2 ^ 60 else 0) +
    (if x.tsync then 2 ^ 61 else 0) + (if x.stall then 2 ^ 62 else 0) + (if x.fenced then 2 ^ 63 else 0)

/-- WMARK of an input: all ones while fenced (R407, R408). -/
def State.wmarkOf (s : State) (p : Nat) : Nat := if (s.input p).fenced then wmarkTop else (s.input p).wmark

/-! ## Time transfer (R409) -/

/-- TIME_BEACON (R409): every 1,048,576 ticks a trained port with TSRC sends its reading, and that at which the peer's last
beacon came. -/
def execTimeBeacon (port : Nat) (s : State) : Host.Outcome State Fault Refusal :=
  .next (
    let x := s.input port
    if port < 16 ∧ x.tsrc = true ∧ x.linkup = true ∧ x.lastTime + 1048576 ≤ s.time then
      (s.modInput port (fun x => { x with lastTime := s.time })).emit (.timeBeacon port s.time x.heard)
    else s)

/-- The offset of a round trip (R409), how far the peer is ahead. -/
def timeOffset (t1 t2 t3 t4 : Nat) : Int := (((t2 : Int) - t1) - ((t4 : Int) - t3)) / 2

/-- Datum time steps forward to a tick. -/
def State.stepTo (s : State) (t : Nat) : State := { s with time := max s.time t, landed := [] }

/-- The path delay of a round trip (R409): half of what it took beyond the peer's turn. -/
def pathDelay (t1 t2 t3 t4 : Nat) : Int := (((t4 : Int) - t1) - ((t3 : Int) - t2)) / 2

/-- TIME_BEACON_ARRIVAL (R409), in the tick `t4` of its arrival, which the port notes: the peer's beacon brings the
departure `t1` that it answers, its reading `t2` at that arrival and its own departure `t3`. An answer to this device's
last beacon closes a round trip. A device that finds its peer ahead steps forward; two successive offsets below 16 ticks
lock the port, when the package's clock has locked its frequency (R238; assumption 146). -/
def execTimeBeaconArrival (port t1 t2 t3 t4 : Nat) (s : State) : Host.Outcome State Fault Refusal :=
  .next (
    let x := s.input port
    if port < 16 ∧ x.tsrc = true ∧ x.linkup = true ∧ t4 = s.time then
      let noted := s.modInput port (fun x => { x with heard := some t4 })
      if t1 = x.lastTime then
        let o := timeOffset t1 t2 t3 t4
        let near := o.natAbs < 16
        let s := noted.modInput port (fun x =>
          { x with
            delay := some (pathDelay t1 t2 t3 t4), lastOff := some o.natAbs
            tsync := decide near && Config.freqLocked t4 && (match x.lastOff with
              | some y => decide (y < 16)
              | none => false) })
        s.stepTo (t4 + o.toNat)
      else noted
    else s)

/-- PPS_PULSE (R409): the device steps forward to the next whole second when firmware enables the input. -/
def execPpsPulse (s : State) : Host.Outcome State Fault Refusal :=
  .next (if s.fabric.ppsOn then s.stepTo ((s.time + 3999999999) / 4000000000 * 4000000000) else s)

/-! ## ESND and ERCV (R411 to R413) -/

/-- The checks of the base of a descriptor of four scalar registers (R411). -/
def quadBase (a : VCode) : Checks :=
  Checks.all [Checks.unmelded, Checks.when a.isQuadS, { ok := true, sregs := [(a.sNum, 4)], meld := true }]

/-- The four words of a descriptor. -/
def Ctx.quad (c : Ctx) (a : VCode) : List Word := (List.range 4).map (fun i => c.w.s.get (a.sNum + i))

/-- A fabric operation changed. -/
def State.modFab (s : State) (id : Nat) (f : FabricOp → FabricOp) : State :=
  { s with fabops := s.fabops.map (fun x => if x.id = id then f x else x) }

/-- The checks of R412: the cause, if any. -/
def State.esndFault (s : State) (w : Wave) (b : Block) (d : List Word) : Option Cause :=
  let len := natBits (descWord d 1) 0 9
  let soff := natBits (descWord d 0) 0 20
  let ep := s.endpoint (natBits (descWord d 1) 16 12)
  if natBits (descWord d 0) 20 12 ≠ 0 ∨ natBits (descWord d 1) 28 3 ≠ 0 ∨ natBits (descWord d 1) 9 7 ≠ 0 ∨
    natBits (descWord d 2) 12 4 ≠ 0 ∨ descWord d 3 ≠ 0 ∨ len = 0 ∨ 256 < len then some .illegalOperand
  else if soff % 4 ≠ 0 then some .misaligned
  else if (b.halves.getD w.half Half.none).scrl * 128 < soff + len then some .window
  else if ep.en = false ∨ ep.func ≠ w.func then some .permission
  else none

/-- The checks of R413: the cause, if any. -/
def State.ercvFault (s : State) (w : Wave) (b : Block) (d : List Word) : Option Cause :=
  let doff := natBits (descWord d 0) 0 20
  let ep := s.endpoint (natBits (descWord d 1) 0 12)
  if natBits (descWord d 0) 20 12 ≠ 0 ∨ natBits (descWord d 1) 12 19 ≠ 0 ∨ descWord d 2 ≠ 0 ∨ descWord d 3 ≠ 0 then
    some .illegalOperand
  else if doff % 64 ≠ 0 then some .misaligned
  else if (b.halves.getD w.half Half.none).scrl * 128 < doff + 320 then some .window
  else if ep.en = false ∨ ep.func ≠ w.func then some .permission
  else none

/-- The one easement of a fabric operation over scratchpad bytes (R303, R412, R413). -/
def scratchEase (w : Wave) (owner : Nat) (dst : Bool) (off n : Nat) : Ease :=
  { owner, dst, func := w.func, base := BitVec.ofNat 64 (0xF0 * 2 ^ 56 + off / 128 * 128)
    runs := [((Loc.scratch w.block w.half 0), off / 128, (off + n - 1) / 128)] }

/-- The easement of a fabric operation. -/
def fabricEase (w : Wave) (x : FabricOp) : Ease :=
  let off := natBits (descWord x.desc 0) 0 20
  if x.send then scratchEase w x.id false off (natBits (descWord x.desc 1) 0 9) else scratchEase w x.id true off 320

/-- The decode checks of fabricOp. -/
def fabricOpChecks (a : VCode) : Checks :=
  quadBase a

/-- ESND or ERCV issued: checked, its easement registered, and queued (R412, R413). -/
def fabricOp (send : Bool) (a : VCode) (s : State) : Host.Outcome State Fault Refusal :=
  issueChecked s (fun _ => fabricOpChecks a)
    (fun c =>
      let d := c.quad a
      let lane := (bitsOf c.act).headD 0
      if c.act = 0 then c.onWave s (c.idleSetB c.w)
      else
        match (if send then s.esndFault c.w c.blk d else s.ercvFault c.w c.blk d) with
        | some cause => c.onWave s ((c.idleSetB c.w).record [laneCause c.src cause lane])
        | none =>
          if !c.w.isDet && !c.easeTurn s 1 then .stall
          else
            let flag := hdrSetB c.src.hdr
            let x : FabricOp :=
              { id := s.nextId, at_ := c.now, send, wave := c.key, lane, desc := d, scope := mdScope c.w.md, after := c.src.ord,
                flag, atEnd := flag.isNone, gang := c.gang, taken := none, took := false, drops := 0, dwv := 0,
                since := none, buffered := c.w.isDet, injected := false, src := c.src }
            let s := if c.w.isDet then s else s.addEases c.w.core [fabricEase c.w x]
            let s := s.modWave c.key (fun w => w.engineIssued flag x.id true)
            .next { s with fabops := s.fabops ++ [x], nextId := s.nextId + 1 })

/-- ESND (R412). -/
def execEsnd (a : VCode) (s : State) := fabricOp true a s
/-- ERCV (R413). -/
def execErcv (a : VCode) (s : State) := fabricOp false a s

/-- A fabric operation that completes for its flag: its easement ends, its flag falls. -/
def State.fabricDone (s : State) (x : FabricOp) (stay : Bool) : State :=
  let s := match s.waves.get? x.wave with
    | some w => s.endEasements w.core x.id
    | none => s
  let s : State := if stay then s else { s with fabops := s.fabops.filter (fun y => y.id != x.id) }
  (s.modWave x.wave (fun w => w.flagDown s.time x.flag)).settle x.wave

/-- A cause found after issue stops a fabric operation (R299). -/
def State.stopFabric (s : State) (x : FabricOp) (c : Cause) (addr : Nat) : State :=
  match s.waves.get? x.wave with
  | some w =>
    if w.live = 0 then s.fatalBlock w.block none c
    else (s.modWave x.wave (fun w => w.record [⟨x.lane, c, false, 0, BitVec.ofNat 64 addr, x.src, true, none⟩])).fabricDone x false
  | none => s.fabricDone x false

/-- A run of bytes cut at line boundaries. -/
def linePieces (a n : Nat) : List (Nat × Nat) :=
  (List.range (n / 128 + 2)).filterMap (fun i =>
    let lo := max a ((a / 128 + i) * 128)
    let hi := min (a + n) ((a / 128 + i + 1) * 128)
    if lo < hi then some (lo, hi - lo) else none)

/-- The packet of an ESND injected now (R401, R412). -/
def State.packetOf (s : State) (w : Wave) (x : FabricOp) (payload : List Byte) : Packet :=
  let ordered := natBits (descWord x.desc 1) 31 1 = 1
  { ordered, stamp := if ordered then BitVec.ofNat 64 s.time else 0, wmark := BitVec.ofNat 64 s.time
    key := (s.func w.func).key, sdev := s.fabric.devid, sep := natBits (descWord x.desc 1) 16 12
    ddev := BitVec.ofNat 16 (descWord x.desc 2 / 2 ^ 16), dep := natBits (descWord x.desc 2) 0 12, seq := 0
    payload, func := w.func, inject := s.time }

/-- An ESND may leave its die's interface in this tick: one packet a tick, in a later tick than its issue (R401, R414). -/
def State.interfaceFree (s : State) (w : Wave) (x : FabricOp) : Bool :=
  decide (x.at_ < s.time) && decide (s.fabric.lastStamp.getD (dieOf w.core) 0 < s.time)

/-- The payload of an ESND as its read finds it now, in the state that the read leaves. -/
def State.readPayload (s : State) (w : Wave) (b : Block) (x : FabricOp) : State × EngineRead :=
  s.readPieces (s.waveDecoder w b) (s.orderOf (some x.wave)) w.func (engineKey w.core) w.priv
    (linePieces (0xF0 * 2 ^ 56 + natBits (descWord x.desc 0) 0 20) (natBits (descWord x.desc 1) 0 9))

/-- An ESND whose release has passed and whose payload is not read yet. -/
def State.esndReady (s : State) (x : FabricOp) : Option (Wave × Block) :=
  if !x.send || x.injected || x.buffered then none
  else
    (s.waves.get? x.wave).bind (fun w =>
      if s.released_ x.wave w x.lane x.gang x.after x.scope then (s.blocks.get? w.block).map (fun b => (w, b)) else none)

/-- An ESND waits at an empty line for its payload (R285, R412). -/
def State.esndWaits (s : State) (x : FabricOp) : Bool :=
  match s.esndReady x with
  | some (w, b) => (match (s.readPayload w b x).2 with
    | .wait => true
    | _ => false)
  | none => false

/-- An ESND comes before another at their die's interface: it was issued earlier, and of two of one tick it is the first
in the order of ties (R23, R249; assumption 131). -/
def State.esndBefore (s : State) (x y : FabricOp) : Bool :=
  let key := fun (o : FabricOp) => match s.waves.get? o.wave with
    | some w => tieKey w.core w.waveid
    | none => 0
  decide (x.at_ < y.at_) || (x.at_ == y.at_ &&
    (decide (key x < key y) || (key x == key y && decide (x.id < y.id))))

/-- No ESND that could leave the same interface now comes first (R23). -/
def State.esndTurn (s : State) (w : Wave) (x : FabricOp) : Bool :=
  !s.fabops.any (fun y => y.id != x.id && s.esndBefore y x && (match s.esndReady y with
    | some (v, _) => dieOf v.core == dieOf w.core && !s.esndWaits y
    | none => false))

/-- ESND_INJECT (R401, R412): after its release the payload is read, the easement ends, and the packet leaves
the die's interface, one packet a tick. -/
def execEsndInject (id : Nat) (s : State) : Host.Outcome State Fault Refusal :=
  .next (match s.fabops.find? (fun x => x.id == id) with
    | none => s
    | some x =>
      match s.esndReady x with
      | none => s
      | some (w, b) =>
        let die := dieOf w.core
        if !s.interfaceFree w x || !s.esndTurn w x then s
        else
          match s.readPayload w b x with
          | (s, .stop e) => s.stopFabric x e.cause e.addr
          | (s, .wait) => s.modFab id (fun y => { y with since := some (y.since.getD s.time) })
          | (s, .later) => s
          | (s, .data l) =>
            let p := s.packetOf w x l
            let s := s.modFabric (fun f =>
              { f with links := f.links ++ [⟨16 + die, some p, s.time, none⟩]
                       lastStamp := listUpdate f.lastStamp die (fun _ => s.time) })
            let s := s.modInput (16 + die) (fun i => { i with lastSent := s.time })
            (s.modFab id (fun y => { y with injected := true, atEnd := false, since := none, taken := some p })).fabricDone
              { x with injected := true } true)

/-- The order in which ordered packets are handed out (R404). -/
def packetBefore (x y : Packet) : Bool :=
  if x.stamp ≠ y.stamp then x.stamp.ult y.stamp
  else if x.sdev ≠ y.sdev then x.sdev.ult y.sdev
  else if x.sep ≠ y.sep then decide (x.sep < y.sep)
  else (y.seq - x.seq).toNat < 2 ^ 31 && x.seq != y.seq

/-- The first of some packets in the order of R404. -/
def firstPacket : List Packet → Option Packet
  | [] => none
  | x :: rest => match firstPacket rest with
    | none => some x
    | some y => if packetBefore y x then some y else some x

/-- The packet that an ERCV of a class takes now (R404, R405). -/
def State.headPacket (s : State) (e : Endpoint) (ordered : Bool) : Option Packet :=
  if ordered then firstPacket (e.oq.filter (fun p => decide (p.stamp.toNat < s.dw))) else e.uq.head?

/-- The endpoint of an ERCV. -/
def FabricOp.endpoint (x : FabricOp) : Nat := natBits (descWord x.desc 1) 0 12

/-- An endpoint's number among the places that `State.landed` names. -/
def endpointBank (n : Nat) : Nat := 1024 + n

/-- The place of an ERCV in the order of ties at its endpoint (R249, R413). -/
def State.ercvKey (s : State) (x : FabricOp) : Nat :=
  match s.waves.get? x.wave with
  | some w => tieKey w.core w.waveid
  | none => 0

/-- An ERCV may reach its endpoint in this tick: after its way there (R237), and after those that come first in the order
of ties. -/
def State.ercvTurn (s : State) (x : FabricOp) : Bool :=
  decide (x.at_ + 8 < s.time) && decide (s.landed.getD (endpointBank x.endpoint) 0 ≤ s.ercvKey x)

/-- What an ERCV takes at its endpoint: the head packet of its class, or none, and the queue's drop count (R413). -/
def State.takePacket (s : State) (x : FabricOp) : State :=
  let n := x.endpoint
  let ordered := natBits (descWord x.desc 1) 31 1 = 1
  let e := s.endpoint n
  let p := s.headPacket e ordered
  let keep := fun (l : List Packet) => match p with
    | some y => l.erase y
    | none => l
  let s := s.modEndpoint n (fun e =>
    if ordered then { e with oq := keep e.oq, odrops := 0 } else { e with uq := keep e.uq, udrops := 0 })
  s.modFab x.id (fun y =>
    { y with took := true, taken := p, drops := if ordered then e.odrops else e.udrops
             dwv := if ordered then s.dw else 0 })

/-- ERCV_ACCEPT (R413): the ERCV reaches its endpoint. -/
def execErcvAccept (id : Nat) (s : State) : Host.Outcome State Fault Refusal :=
  .next (match s.fabops.find? (fun x => x.id == id && !x.send && !x.took && !x.buffered) with
    | none => s
    | some x =>
      if s.ercvTurn x then
        { s.takePacket x with landed := (s.landed.set (endpointBank x.endpoint) (s.ercvKey x)).set switchBank 0 }
      else s)

/-- The 64-byte header of R413. -/
def ercvHeader (x : FabricOp) : List Byte :=
  match x.taken with
  | none => leBytes 8 (1 + x.drops % 256 * 2 ^ 8) ++ leBytes 16 0 ++ leBytes 8 x.dwv ++ leBytes 32 0
  | some p =>
    leBytes 4 (x.drops % 256 * 2 ^ 8 + p.payload.length % 512 * 2 ^ 16) ++
    leBytes 4 (p.sdev.toNat + p.sep % 4096 * 2 ^ 16) ++ leBytes 4 p.seq.toNat ++ leBytes 4 0 ++
    leBytes 8 (if p.ordered then p.stamp.toNat else 0) ++ leBytes 8 x.dwv ++ leBytes 32 0

/-- ERCV_COMPLETE (R413): the header and payload are written, their lines touched and set full, the easement
ends, and then the flag falls. -/
def execErcvComplete (id : Nat) (s : State) : Host.Outcome State Fault Refusal :=
  .next (match s.fabops.find? (fun x => x.id == id && !x.send && x.took) with
    | none => s
    | some x =>
      match s.waves.get? x.wave with
      | none => s
      | some w =>
        let off := natBits (descWord x.desc 0) 0 20
        if !s.mayLand (.scratch w.block w.half off) (engineKey w.core) then s
        else
        let s := s.land (.scratch w.block w.half off) (engineKey w.core)
        let bytes := ercvHeader x ++ (match x.taken with
          | some p => p.payload
          | none => [])
        let s := (linePieces off bytes.length).foldl (fun s e =>
          let l := Loc.scratch w.block w.half e.1
          (s.storeAt l e.2 (leNat ((bytes.drop (e.1 - off)).take e.2))).fillLine l) s
        s.fabricDone x false)

/-! ## ESTAMP and EWMARK (R414, R415) -/

/-- The decode checks of ESTAMP. -/
def estampChecks (d : VCode) : Checks :=
  Checks.control.and (Checks.when d.isEvenS)

/-- ESTAMP (R414). -/
def execEstamp (d : VCode) (s : State) : Host.Outcome State Fault Refusal :=
  issueChecked s (fun _ => estampChecks d)
    (fun c => c.onWave s (c.w.swrite d.sNum 2 c.now))

/-- The decode checks of EWMARK. -/
def ewmarkChecks (d : VCode) (sel : BitVec 5) : Checks :=
  Checks.control.and (Checks.when (d.isEvenS && decide (sel.toNat < 17)))

/-- EWMARK (R415). -/
def execEwmark (d : VCode) (sel : BitVec 5) (s : State) : Host.Outcome State Fault Refusal :=
  issueChecked s (fun _ => ewmarkChecks d sel)
    (fun c => c.onWave s (c.w.swrite d.sNum 2 (if sel = 0 then s.dw else s.wmarkOf (sel.toNat - 1))))

end Sys2Proof.Machine
end

