-- ==== Sys2Proof/Machine/Matrix.lean ====
section
/-! DEFINITION. The accumulator store and the matrix engine (R190 to R217) with the order of sums of a
k-step (R79 to R84): the instructions 0xC0 to 0xCD and the events TILE_ACCEPT, KSTEP_COMPLETE and
TILE_OP_COMPLETE. -/

namespace Sys2Proof.Machine

/-! ## Scratchpad checks (R197) -/

/-- The first cause that R197 finds for some ranges: WINDOW, MISALIGNED for those that must be aligned, then
EASEMENT, with its address and what XINFO takes. A read meets easements as a write does (R304). -/
def Ctx.scratchFault (c : Ctx) (s : State) (write : Bool) (aligned free : List (Nat × Nat)) :
    Option (Cause × Nat × Nat) :=
  let all := aligned ++ free
  match all.find? (fun r => r.1 / 2 ^ 56 != 0xF0 || (match s.window c.w c.blk 0 r.1 r.2 with
    | .ok _ => false
    | .error _ => true)) with
  | some r => some (.window, r.1, 0)
  | none =>
    match aligned.find? (fun r => r.1 % 64 != 0) with
    | some r => some (.misaligned, r.1, 0)
    | none =>
      let lines := all.flatMap (fun r => (linesOf (r.1 % 2 ^ 56) r.2).map (fun k => 128 * k))
      let met := lines.filterMap (fun o =>
        (s.easeStop c.w (.scratch c.w.block c.w.half o)
          ⟨0, 0xF0 * 2 ^ 56 + o, 128, 1, [0xF0], write, .store⟩).map (fun e => (e, o)))
      match listMin (met.map (·.1)) with
      | none => none
      | some e => some (.easement, 0xF0 * 2 ^ 56 + ((met.find? (fun x => x.1 == e)).getD (e, 0)).2, e)

/-! ## Ownership (R192) -/

/-- What a tile's token must be in token mode. -/
inductive Owner where
  | engine | mine | free
  deriving DecidableEq, Repr

/-- The token of a tile admits an instruction of a wave of an index. -/
def Half.admits (h : Half) (o : Owner) (index tile : Nat) : Bool :=
  match h.tokens.get? tile, o with
  | .none, .mine => false
  | .none, _ => true
  | .some _, .engine => false
  | .some w, _ => w == index

/-- The ownership checks of R192 on some tiles: ACC_TOKEN, then ACC_WINDOW. ACQ and REL (`move`) are
refused in window mode. -/
def Ctx.ownFault (c : Ctx) (o : Owner) (move : Bool) (tiles : List Nat) : Option Cause :=
  let windowed := c.w.al != 0
  if !windowed && tiles.any (fun t => decide (t < c.half.acct) && !c.half.admits o c.w.index t) then some .accToken
  else if tiles.any (fun t => decide (c.half.acct ≤ t) ||
    (windowed && (move || !(decide (c.w.ab.toNat ≤ t) && decide (t < c.w.al.toNat))))) then some .accWindow
  else none

/-- The tile that a tile-index register names (R190). -/
def Ctx.tileOf (c : Ctx) (code : VCode) : Nat := c.w.sread code.sNum 1 % 2 ^ 12

/-- The checks of a tile-index field (R201). -/
def tileField (code : VCode) : Checks := { ok := code.isS, sregs := [(code.sNum, 1)], meld := true }

/-- One cause in every executing lane, with its address (R199). -/
def Ctx.tileCauses (c : Ctx) (cause : Cause) (addr xinfo : Nat) : List LaneCause :=
  (bitsOf c.exec).map (fun l => ⟨l, cause, false, xinfo, BitVec.ofNat 64 addr, c.src, false, none⟩)

/-- Among the waves of a block of a deterministic launch, tile instructions take effect by wave index within
a round: a wave waits until those before it have ended their quanta or are parked (R388). -/
def Ctx.tileTurn (c : Ctx) (s : State) : Bool :=
  match c.w.det with
  | none => true
  | some d => !s.waves.any (fun e => e.2.block == c.w.block && e.1 != c.key && !e.2.ended && !e.2.gangs.isEmpty &&
      (match e.2.det with
        | some x => decide (x.dwid < d.dwid) && !x.ended
        | none => false))

/-! ## The events -/

/-- A block's half and operation. -/
def State.top? (s : State) (b h op : Nat) : Option (Half × TileOp) :=
  ((s.half b h).top? op).map (fun o => (s.half b h, o))

/-- The tile operations issued on a core that its engine has not accepted. -/
def State.unaccepted (s : State) (core : Nat) : List TileOp :=
  s.blocks.flatMap (fun e => (e.2.halves.filter (fun h => h.core == core)).flatMap (fun h => h.tops.filter (fun t => !t.accepted)))

/-- The place of a tile operation in the order of acceptance: its issue tick, then its quadrant (R194). -/
def State.acceptKey (s : State) (o : TileOp) : Nat :=
  4 * o.at_ + (match s.waves.get? o.wave with
    | some w => w.quad % 4
    | none => 0)

/-- The engine of a core has accepted an instruction in this tick. -/
def State.noteAccepted (s : State) (core : Nat) : State := s.modCore core (fun c => { c with accepted := some s.time })

/-- An operation accepted: it comes behind those accepted before it (R194), but for one issued again ahead of them after
its wave was cut (R208). -/
def Half.accept (h : Half) (op : Nat) : Half :=
  match h.top? op with
  | some o =>
    if (h.tops.dropWhile (fun t => t.id != op)).any (·.accepted) then h.modTop op (fun t => { t with accepted := true })
    else { h with
      tops := h.tops.filter (fun t => t.accepted && t.id != op) ++ { o with accepted := true } ::
        h.tops.filter (fun t => !t.accepted && t.id != op) }
  | .none => h

/-- TILE_ACCEPT (R194): the engine of a core takes the next tile operation issued there, one in a tick. Its checks were
made when it issued: between the two only earlier instructions are accepted, whose tokens have moved by then (R192,
R199). -/
def execTileAccept (core : Nat) (s : State) : Host.Outcome State Fault Refusal :=
  .next (
    match (sortOn s.acceptKey (s.unaccepted core)).head? with
    | none => s
    | some o =>
      if (s.core core).accepted = some s.time then s
      else
        { s.noteAccepted core with blocks := s.blocks.mapVals (fun _ b => { b with
            halves := b.halves.map (fun h => if h.core == core then h.accept o.id else h) }) })

/-- The engine of a core can accept an instruction in the tick of its issue: it has accepted none in this tick, and none
issued earlier waits (R194). -/
def State.engineFree (s : State) (core : Nat) : Bool :=
  (s.core core).accepted != some s.time && (s.unaccepted core).isEmpty

/-- An instruction that takes effect at its acceptance, which is the tick of its issue. -/
def Ctx.acceptNow (c : Ctx) (s : State) (f : State → Res) : Res :=
  if s.engineFree c.w.core then f (s.noteAccepted c.w.core) else .stall

/-- A tile instruction that reads or writes scratchpad is held back as the wave's other accesses are (R250, R251, R256). -/
def Ctx.tileAccess (c : Ctx) (r : Res) : Res := if c.accessHeld then .stall else r

/-- A tile instruction that a cut withdrew before an operation of its wave is still to issue again (R208). -/
def State.reissues (s : State) (o : TileOp) : Bool :=
  match s.waves.get? o.wave with
  | some w => w.replay.any (fun r => r.flag.isSome && decide (0xC0 ≤ opcodeOf r.src.word) && decide (opcodeOf r.src.word ≤ 0xCD) &&
      decide (r.src.ord < o.src.ord))
  | none => false

/-- KSTEP_COMPLETE (R206): the next k-step of an MMA, MMAR, MMAS or MMAK. -/
def execKstepComplete (b h op : Nat) (s : State) : Host.Outcome State Fault Refusal :=
  .next (match s.top? b h op with
    | none => s
    | some (x, o) =>
      if !o.accepted || !o.steps || o.settled || x.blocked o || s.reissues o then s else s.stepTop b h o)

/-- TILE_OP_COMPLETE (R31, R217): in a later tick than its issue an operation whose steps are applied completes, and one
without steps takes its effect and completes; the SETB flag falls. -/
def execTileOpComplete (b h op : Nat) (s : State) : Host.Outcome State Fault Refusal :=
  .next (match s.top? b h op with
    | none => s
    | some (x, o) =>
      if !o.accepted || decide (s.time ≤ o.at_) then s
      else if o.settled then s.dropTop b h o
      else if o.steps || x.blocked o then s
      else s.applyTop b h o)

/-- A tile operation's wait at an empty line ends by its limit: precise at a parked gang, whose slices then
continue at the word after it (R464), and otherwise a cause found after acceptance (R200). -/
def State.tileTimeout (s : State) (b h op : Nat) : State :=
  match s.top? b h op with
  | none => s
  | some (_, o) =>
    match s.waves.get? o.wave with
    | none => s
    | some w =>
      if w.parkedAt h op then
        let g := w.sliceMask (fun x => match x.park with
          | .tile _ i j => i == h && j == op
          | _ => false)
        let s := s.modWave o.wave (fun w => (w.mapGang g (fun _ x => { x with park := .none })).fallDue
          ⟨g, true, o.src, causesIn o.src .feTimeout o.lanes, true, false⟩)
        (s.modHalf b h (fun x => x.benchStop o)).dropTop b h o
      else s.stopTop b h o .feTimeout 0

/-! ## Issue -/


/-- A new tile operation of the gang's word. -/
def Ctx.newTop (c : Ctx) (s : State) (kind : TileKind) (tile : Nat) (guarded : Bool) (baddr aaddr : DWord)
    (fb0 fb1 : Word) (nk : Nat) : TileOp :=
  let flag := hdrSetB c.src.hdr
  { id := s.nextId, kind, tile, wave := c.key, md := c.w.md
    rows := c.w.sliceMask (fun _ => true) &&& maskWhere 16 (fun i => sliceBits c.act i != 0)
    lanes := if guarded then c.act else c.exec, act := c.act, baddr, aaddr, fb0, fb1, nk, done := 0
    accepted := false, flag, atEnd := flag.isNone, gang := c.gang, src := c.src, since := none, at_ := c.now }

/-- An operation of a deterministic launch, accepted in the tick of its issue, runs at once as far as it goes; one that is
over then still counts for its flag until a later tick (R31). -/
def Ctx.runDet (c : Ctx) (s : State) (o : TileOp) : State :=
  let s := (s.modHalf c.w.block c.w.half (fun h => h.accept o.id)).runTop c.w.block c.w.half o.id 66
  let buffered := match o.kind with
    | .acsp _ => true
    | _ => false
  if ((s.half c.w.block c.w.half).top? o.id).isSome || buffered || (o.flag.isNone && !o.atEnd) then s
  else s.modWave c.key (c.idleOp o.flag)

/-- A half with an operation put in the engine's order: last, or, when its word is issued again after a cut, before its
wave's later operations (R208). -/
def Ctx.enqueue (c : Ctx) (o : TileOp) (h : Half) : Half :=
  match c.w.replays.head?.filter (fun r => r.flag.isSome) with
  | some r =>
    let before := fun (t : TileOp) => !(t.wave == c.key && decide (r.src.ord < t.src.ord))
    { h with tops := h.tops.takeWhile before ++ o :: h.tops.dropWhile before }
  | .none => { h with tops := h.tops ++ [o] }

/-- An operation joins the engine's order; its flag rises. In a deterministic launch it runs at once
as far as it goes. A gang whose operation's first read finds an empty line parks there (R197, R351). -/
def Ctx.joinTop (c : Ctx) (s : State) (o : TileOp) (f : Wave → Wave) : Res :=
  let s := s.modHalf c.w.block c.w.half (c.enqueue o)
  let s := ({ s with nextId := s.nextId + 1 }).modWave c.key (fun w => (f w).flagUp o.flag)
  let s := if c.w.isDet then c.runDet s o else s
  let view := s.tileView c.w.block c.w.half o
  let waits := o.steps && o.rows != 0 && ((s.half c.w.block c.w.half).top? o.id).isSome &&
    !(s.half c.w.block c.w.half).blocked o &&
    (rangeLines (o.stepRanges c.w.rowCount)).any (fun k => view.empty.contains k)
  if waits then
    let s := s.modHalf c.w.block c.w.half (fun h => h.modTop o.id (fun t => { t with since := some s.time }))
    .jump (s.modWave c.key (fun w => { c with w := w }.parked (.tile c.src c.w.half o.id)))
  else .next s

/-- An operation issued to the engine, which accepts one of a deterministic launch in the tick of its issue. -/
def Ctx.acceptTop (c : Ctx) (s : State) (o : TileOp) (f : Wave → Wave) : Res :=
  if c.w.isDet then c.acceptNow s (fun s => c.joinTop s o f) else c.joinTop s o f

/-- A tile instruction that R199 stops traps in the tick in which the engine would have accepted it (R192). -/
def Ctx.tileTrap (c : Ctx) (s : State) (cause : Cause) (addr x : Nat) : Res :=
  if s.engineFree c.w.core then .trap (c.tileCauses cause addr x) false else .stall

/-- The checks of R199 after the decode checks, in their order, then the effect. -/
def Ctx.tileChecked (c : Ctx) (s : State) (scratch : Option (Cause × Nat × Nat)) (owner : Option Cause) (r : Res) : Res :=
  if !c.tileTurn s then .stall
  else
    match scratch, owner with
    | some (cause, addr, x), _ => c.tileTrap s cause addr x
    | none, some cause => c.tileTrap s cause 0 0
    | none, none => r

/-- The B address of a format operand. -/
def Ctx.bAddr (c : Ctx) (b : VCode) : DWord := BitVec.ofNat 64 (c.w.sread b.sNum 2)
/-- FB0. -/
def Ctx.fb0 (c : Ctx) (b : VCode) : Word := c.w.s.get (b.sNum + 2)
/-- FB1. -/
def Ctx.fb1 (c : Ctx) (b : VCode) : Word := c.w.s.get (b.sNum + 3)

/-- The checks of a B address with its format block (R80, R201); the block's values are checked after ILLEGAL_MELD
(R347). -/
def Ctx.fmtField (c : Ctx) (b : VCode) : Checks :=
  { ok := b.isFmtS, sregs := [(b.sNum, 4)], meld := true,
    value := if fmtLegal (c.fb0 b) (c.fb1 b) then none else some .illegalOperand }

/-- A matrix instruction with A in registers; `kept` is the number of registers read, `rowOf` a row's
elements, `width` the reduction length and `reuse` MMAR's flag (R202 to R204). -/
def Ctx.matrixRegs (c : Ctx) (s : State) (d a b : VCode) (sparse reuse : Bool) : Res :=
  let fb0 := c.fb0 b
  let fb1 := c.fb1 b
  let t := Ty.ofCode (fmtType fb0)
  let tb := Ty.ofCode (fmtType fb1)
  let width := stepLength t * (if sparse then 2 else 1)
  let size := 2 * width * tb.bits
  let tile := c.tileOf d
  let fault := c.scratchFault s false [((c.bAddr b).toNat, size)] (scaleRanges fb0 fb1 c.w.rowCount 0 1 width)
  let rows := (bitsOf (c.w.sliceMask (fun _ => true))).filter (fun i => sliceBits c.act i != 0)
  let vals := rows.map (fun i => (i, if sparse then c.sparseRow t a.vNum i else c.denseRow t a.vNum i))
  let o := c.newTop s (if sparse then .mmas vals else .mma vals) tile true (c.bAddr b) 0 fb0 fb1 1
  c.tileAccess (c.tileChecked s fault (c.ownFault .engine false [tile])
    (c.acceptTop s o (fun w => { w with latch := if reuse then some ⟨a.vNum, fb0⟩ else none })))

/-- The decode checks of a matrix instruction with A in registers. -/
def Ctx.matrixField (c : Ctx) (d a b : VCode) (extra : Nat) : Checks :=
  let n := aRegs (Ty.ofCode (fmtType (c.fb0 b))) + extra
  Checks.all [Checks.unmelded, tileField d, { ok := a.isEvenV, regs := vRegs n a, reads := vRegs n a, meld := true }, c.fmtField b]

/-- The decode checks of MMA. -/
def mmaChecks (d a b : VCode) (c : Ctx) : Checks :=
  c.matrixField d a b 0

/-- MMA (R202). -/
def execMma (d a b : VCode) (s : State) : Host.Outcome State Fault Refusal :=
  issueChecked s (mmaChecks d a b) (fun c => c.matrixRegs s d a b false false)

/-- The decode checks of MMAR. -/
def mmarChecks (d a b : VCode) (c : Ctx) : Checks :=
  c.matrixField d a b 0

/-- MMAR (R203): MMA with the reuse flag. -/
def execMmar (d a b : VCode) (s : State) : Host.Outcome State Fault Refusal :=
  issueChecked s (mmarChecks d a b) (fun c => c.matrixRegs s d a b false true)

/-- The decode checks of MMAS. -/
def mmasChecks (d a b : VCode) (c : Ctx) : Checks :=
  c.matrixField d a b 1

/-- MMAS (R204): a 2:4 sparse A. -/
def execMmas (d a b : VCode) (s : State) : Host.Outcome State Fault Refusal :=
  issueChecked s (mmasChecks d a b) (fun c => c.matrixRegs s d a b true false)

/-- The record that accepting an MMAK writes (R206). -/
def newBench (o : TileOp) (index : Nat) : Bench :=
  { run := true, val := true, done := 0, sat := mdSat o.md, sgnb := mdSgnB o.md, sgna := mdSgnA o.md, nkm := o.nk - 1
    widx := index, rows := o.rows, anext := o.aaddr, bnext := o.baddr, fb0 := o.fb0, fb1 := o.fb1 }

/-- The decode checks of MMAK. -/
def mmakChecks (d a b : VCode) (c : Ctx) : Checks :=
  Checks.all [Checks.unmelded, tileField d, { ok := a.isEvenS, sregs := [(a.sNum, 2)], meld := true }, c.fmtField b]

/-- MMAK (R205, R206). -/
def execMmak (d a b : VCode) (s : State) : Host.Outcome State Fault Refusal :=
  issueChecked s (mmakChecks d a b)
    (fun c =>
      let tile := c.tileOf d
      let nk := natBits (c.w.sread d.sNum 1) 16 6 + 1
      let o := c.newTop s .mmak tile true (c.bAddr b) (BitVec.ofNat 64 (c.w.sread a.sNum 2)) (c.fb0 b) (c.fb1 b) nk
      let m := c.w.rowCount
      let fault := c.scratchFault s false [(o.aaddr.toNat, nk * o.stepA m), (o.baddr.toNat, nk * o.stepB)]
        (scaleRanges o.fb0 o.fb1 m 0 nk o.width)
      let busy := match c.half.bench.get? tile with
        | some x => x.run
        | none => false
      c.tileAccess (c.tileChecked s fault (c.ownFault .engine false [tile])
        (if busy then (if c.w.isDet then c.awaitLine s else .stall)
        else
          let s := s.modHalf c.w.block c.w.half (fun h => { h with bench := h.bench.set tile (newBench o c.w.index) })
          c.acceptTop s o (fun w => { w with latch := none }))))

/-- The decode checks of ACQ. -/
def acqChecks (d : VCode) : Checks :=
  Checks.all [Checks.control, tileField d]

/-- ACQ (R209). -/
def execAcq (d : VCode) (s : State) : Host.Outcome State Fault Refusal :=
  issueChecked s (fun _ => acqChecks d)
    (fun c =>
      let t := c.tileOf d
      c.tileChecked s none (c.ownFault .free true [t])
        (c.acceptNow s (fun s =>
          .next (s.modHalf c.w.block c.w.half (fun h => { h with tokens := h.tokens.set t c.w.index })))))

/-- The decode checks of REL. -/
def relChecks (d : VCode) : Checks :=
  Checks.all [Checks.control, tileField d]

/-- REL (R209). -/
def execRel (d : VCode) (s : State) : Host.Outcome State Fault Refusal :=
  issueChecked s (fun _ => relChecks d)
    (fun c =>
      let t := c.tileOf d
      c.tileChecked s none (c.ownFault .mine true [t])
        (c.acceptNow s (fun s => .next (s.modHalf c.w.block c.w.half (fun h => { h with tokens := h.tokens.erase t })))))

/-- A tile element type (R211, R214, R215). -/
def tileType (t : Ty) : Bool := t == .f32 || t == .s32

/-- The decode checks of ACLD. -/
def acldChecks (d a : VCode) (c : Ctx) : Checks :=
  let n := acldRegs (mdType2 c.w.md)
  Checks.all [Checks.unmelded, tileField a, { ok := d.isV, regs := vRegs n d, meld := true },
    Checks.when (tileType (mdType c.w.md) && !(mdType2 c.w.md).is64)]

/-- ACLD (R211). -/
def execAcld (d a : VCode) (s : State) : Host.Outcome State Fault Refusal :=
  issueChecked s (acldChecks d a)
    (fun c =>
      let t := c.tileOf a
      c.tileChecked s none (c.ownFault .mine false [t])
        (c.acceptTop s (c.newTop s (.acld d.vNum) t true 0 0 0 0 0) id))

/-- The decode checks of ACST. -/
def acstChecks (d a : VCode) : Checks :=
  Checks.all [Checks.unmelded, tileField d, { ok := a.isV, regs := vRegs 4 a, reads := vRegs 4 a, meld := true }]

/-- ACST (R212). -/
def execAcst (d a : VCode) (s : State) : Host.Outcome State Fault Refusal :=
  issueChecked s (fun _ => acstChecks d a)
    (fun c =>
      let t := c.tileOf d
      let vals := (bitsOf c.act).flatMap (fun l => (List.range 4).map (fun e =>
        (256 * t + 16 * (l / 4) + 4 * (l % 4) + e, BitVec.ofNat 32 (c.vread (a.vNum + e) 1 l))))
      c.tileChecked s none (c.ownFault .mine false [t])
        (c.acceptTop s (c.newTop s (.acst vals) t true 0 0 0 0 0) id))

/-- The decode checks of ACZ. -/
def aczChecks (d : VCode) : Checks :=
  Checks.all [Checks.control, tileField d]

/-- ACZ (R213): at acceptance, behind the earlier operations on its tile; it raises no flag. -/
def execAcz (d : VCode) (s : State) : Host.Outcome State Fault Refusal :=
  issueChecked s (fun _ => aczChecks d)
    (fun c =>
      let t := c.tileOf d
      let o := { c.newTop s .acz t false 0 0 0 0 0 with flag := none, atEnd := false }
      c.tileChecked s none (c.ownFault .mine false [t])
        (if c.half.blocked o || !s.engineFree c.w.core then c.acceptTop s o id
        else c.acceptNow s (fun s => .next (s.modHalf c.w.block c.w.half (fun h => h.putTile (wholeTile t (fun _ => 0)))))))

/-- The decode checks of ACSP. -/
def acspChecks (d a : VCode) (c : Ctx) : Checks :=
  Checks.all [Checks.control, tileField d, { ok := a.isEvenS, sregs := [(a.sNum, 2)], meld := true },
    Checks.when (tileType (mdType c.w.md) && !(mdType2 c.w.md).is64)]

/-- ACSP (R214). -/
def execAcsp (d a : VCode) (s : State) : Host.Outcome State Fault Refusal :=
  issueChecked s (acspChecks d a)
    (fun c =>
      let t := c.tileOf d
      let addr := BitVec.ofNat 64 (c.w.sread a.sNum 2)
      c.tileAccess (c.tileChecked s (c.scratchFault s true [(addr.toNat, 32 * (mdType2 c.w.md).bits)] [])
        (c.ownFault .mine false [t]) (c.acceptTop s (c.newTop s (.acsp addr) t false 0 0 0 0 0) id)))

/-- The decode checks of ACWIN. -/
def acwinChecks (d a b : VCode) (c : Ctx) : Checks :=
  Checks.all [Checks.control, { ok := d.isS, sregs := [(d.sNum, 1)], meld := true },
    c.sourceOf VCode.isConst .raw a, c.sourceOf VCode.isConst .raw b]

/-- ACWIN (R210): the windows of one wave or of all, set by the block leader. -/
def execAcwin (d a b : VCode) (s : State) : Host.Outcome State Fault Refusal :=
  issueChecked s (acwinChecks d a b)
    (fun c =>
      let w := c.w.sread d.sNum 1
      let base := c.operand .raw a 0
      let limit := c.operand .raw b 0
      let live := s.waves.filter (fun e => e.2.block == c.w.block && e.2.live != 0)
      let targets := if w = 0xFFFFFFFF then live else live.filter (fun e => e.2.index == w)
      let holds := fun (x : Wave) => (c.blk.halves.getD x.half Half.none).tokens.any (fun t => t.2 == x.index)
      let fail := fun cause => Res.trap (c.tileCauses cause 0 0) false
      if !c.tileTurn s then .stall
      else if c.w.index ≠ 0 then fail .accWindow
      else if !(decide (base ≤ limit) && decide (limit ≤ c.half.acct)) || (limit == 0 && base != 0) then fail .accWindow
      else if targets.isEmpty then fail .accWindow
      else if targets.any (fun e => holds e.2) then fail .accToken
      else c.acceptNow s (fun s => .next (targets.foldl (fun s e => s.modWave e.1 (fun x =>
        { x with ab := BitVec.ofNat 32 base, al := BitVec.ofNat 32 limit })) s)))

/-- A benchmark record that no MMAK has written (R206). -/
def Bench.zero : Bench :=
  { run := false, val := false, done := 0, sat := false, sgnb := false, sgna := false, nkm := 0, widx := 0, rows := 0
    anext := 0, bnext := 0, fb0 := 0, fb1 := 0 }

/-- The eight words of a benchmark record as one number, word 0 lowest (R206). -/
def Bench.toNat (b : Bench) : Nat :=
  let bit := fun (x : Bool) (i : Nat) => if x then 2 ^ i else 0
  (bit b.run 31 + bit b.val 30 + b.done % 128 * 2 ^ 16 + bit b.sat 8 + bit b.sgnb 7 + bit b.sgna 6 + b.nkm % 64) +
  2 ^ 32 * (b.widx % 64 * 2 ^ 16 + b.rows.toNat) + 2 ^ 64 * b.anext.toNat + 2 ^ 128 * b.bnext.toNat +
  2 ^ 192 * b.fb0.toNat + 2 ^ 224 * b.fb1.toNat

/-- The decode checks of BMARK. -/
def bmarkChecks (d a : VCode) : Checks :=
  Checks.all [Checks.control, Checks.when d.isRecordS, tileField a]

/-- BMARK (R207): the record as it stands now, in eight scalar registers. -/
def execBmark (d a : VCode) (s : State) : Host.Outcome State Fault Refusal :=
  issueChecked s (fun _ => bmarkChecks d a)
    (fun c =>
      let t := c.tileOf a
      c.tileChecked s none (if c.half.acct ≤ t then some .accWindow else none)
        (c.acceptNow s (fun s =>
          .next (s.modWave c.key (fun w => w.swrite d.sNum 8 ((c.half.bench.get? t).getD Bench.zero).toNat)))))

/-- The decode checks of ACADD. -/
def acaddChecks (d a : VCode) (c : Ctx) : Checks :=
  Checks.all [Checks.control, tileField d, tileField a, Checks.when (tileType (mdType c.w.md))]

/-- ACADD (R215). -/
def execAcadd (d a : VCode) (s : State) : Host.Outcome State Fault Refusal :=
  issueChecked s (acaddChecks d a)
    (fun c =>
      let t := c.tileOf d
      let u := c.tileOf a
      c.tileChecked s none (c.ownFault .engine false [t, u])
        (c.acceptTop s (c.newTop s (.acadd u) t false 0 0 0 0 0) id))

/-- The decode checks of ACSCL. -/
def acsclChecks (d a : VCode) (c : Ctx) : Checks :=
  Checks.all [Checks.control, tileField d,
    c.sourceOf (fun x => x.isConst || x == .half) (.typed (mdType c.w.md)) a, Checks.when (tileType (mdType c.w.md))]

/-- ACSCL (R215). -/
def execAcscl (d a : VCode) (s : State) : Host.Outcome State Fault Refusal :=
  issueChecked s (acsclChecks d a)
    (fun c =>
      let t := c.tileOf d
      let x := BitVec.ofNat 32 (c.operand (.typed (mdType c.w.md)) a 0)
      c.tileChecked s none (c.ownFault .engine false [t])
        (c.acceptTop s (c.newTop s (.acscl x) t false 0 0 0 0 0) id))

end Sys2Proof.Machine
end

