-- ==== Sys2Proof/Machine/Shake.lean ====
section
/-! DEFINITION. SHAKE256, whose state a deterministic launch's step digest is (R394): the Keccak permutation on
25 words of 64 bits, the sponge with a rate of 136 bytes, and the first 32 bytes squeezed. -/

namespace Sys2Proof.Machine

/-- The round constants of Keccak. -/
def keccakConstants : List (BitVec 64) :=
  [0x0000000000000001#64, 0x0000000000008082#64, 0x800000000000808A#64, 0x8000000080008000#64,
   0x000000000000808B#64, 0x0000000080000001#64, 0x8000000080008081#64, 0x8000000000008009#64,
   0x000000000000008A#64, 0x0000000000000088#64, 0x0000000080008009#64, 0x000000008000000A#64,
   0x000000008000808B#64, 0x800000000000008B#64, 0x8000000000008089#64, 0x8000000000008003#64,
   0x8000000000008002#64, 0x8000000000000080#64, 0x000000000000800A#64, 0x800000008000000A#64,
   0x8000000080008081#64, 0x8000000000008080#64, 0x0000000080000001#64, 0x8000000080008008#64]

/-- The rotation of the word at x + 5 y. -/
def keccakOffsets : List Nat :=
  [0, 1, 62, 28, 27, 36, 44, 6, 55, 20, 3, 10, 43, 25, 39, 41, 45, 15, 21, 8, 18, 2, 61, 56, 14]

/-- The word at column x, row y of a state. -/
def lane5 (a : List (BitVec 64)) (x y : Nat) : BitVec 64 := a.getD (x % 5 + 5 * (y % 5)) 0

/-- One round of the permutation. -/
def keccakRound (a : List (BitVec 64)) (rc : BitVec 64) : List (BitVec 64) :=
  let c := (List.range 5).map (fun x => (List.range 5).foldl (fun z y => z ^^^ lane5 a x y) 0)
  let d := (List.range 5).map (fun x => c.getD ((x + 4) % 5) 0 ^^^ (c.getD ((x + 1) % 5) 0).rotateLeft 1)
  let a := a.mapIdx (fun i w => w ^^^ d.getD (i % 5) 0)
  -- the word at x + 5 y of the next state comes from column x + 3 y, row x
  let b := (List.range 25).map (fun i =>
    let x := i % 5
    let y := i / 5
    (lane5 a (x + 3 * y) x).rotateLeft (keccakOffsets.getD ((x + 3 * y) % 5 + 5 * x) 0))
  let e := (List.range 25).map (fun i => lane5 b (i % 5) (i / 5) ^^^
    (~~~(lane5 b (i % 5 + 1) (i / 5)) &&& lane5 b (i % 5 + 2) (i / 5)))
  e.mapIdx (fun i w => if i = 0 then w ^^^ rc else w)

/-- The permutation. -/
def keccak (a : List (BitVec 64)) : List (BitVec 64) := keccakConstants.foldl keccakRound a

/-- One block of 136 bytes absorbed. -/
def absorb (a : List (BitVec 64)) (block : List Byte) : List (BitVec 64) :=
  keccak (a.mapIdx (fun i w => w ^^^ BitVec.ofNat 64 (leNat ((block.drop (8 * i)).take 8))))

/-- A message with its padding: 0x1F, zeros, and the last bit of the last block. -/
def shakePad (m : List Byte) : List Byte :=
  let p := m ++ [0x1F]
  let p := p ++ List.replicate ((136 - p.length % 136) % 136) 0
  p.dropLast ++ [p.getLastD 0 ||| 0x80]

/-- The first 32 bytes of SHAKE256 of a message. -/
def shake256 (m : List Byte) : List Byte :=
  let p := shakePad m
  let a := (List.range (p.length / 136)).foldl (fun a i => absorb a ((p.drop (136 * i)).take 136)) (List.replicate 25 0)
  (a.take 4).flatMap (fun w => leBytes 8 w.toNat)

end Sys2Proof.Machine
end

