-- ==== Sys2Proof/Machine/Place.lean ====
section
/-! DEFINITION. Launch descriptors and their checks (R100, R103, R321, R322), room on cores (R15, R93 to
R98), the arbiter (R328, R329), placement (R92, R95 to R97, R110), task waves (R105, R106) and the end of
grids (R323). -/

namespace Sys2Proof.Machine

/-! ## Launch descriptors (R321, R322) -/

/-- A bit field of the descriptor word at a byte offset. -/
def launchField (d : List Word) (off lo n : Nat) : Nat := natBits (d.getD (off / 4) 0).toNat lo n

/-- A descriptor's must-be-zero bits are zero. -/
def launchReserved (d : List Word) : Bool :=
  launchField d 0x08 0 10 == 0 && launchField d 0x14 4 12 == 0 &&
  launchField d 0x18 16 16 == 0 && launchField d 0x1C 13 19 == 0 && launchField d 0x20 13 19 == 0 &&
  launchField d 0x24 15 17 == 0

/-- The fields of a descriptor; a QNT of 0 is the default quantum of 2,048. -/
def parseLaunch (d : List Word) : Launch :=
  { arg := BitVec.ofNat 64 ((d.getD 0 0).toNat + 2 ^ 32 * (d.getD 1 0).toNat)
    modh := launchField d 0x08 22 10, kidx := launchField d 0x08 10 12
    gx := launchField d 0x0C 0 16, gy := launchField d 0x0C 16 16, gz := launchField d 0x10 0 16
    waves := launchField d 0x10 16 7, pair := launchField d 0x10 23 1 == 1, setsz := launchField d 0x10 24 5
    setcls := launchField d 0x10 29 1 == 1, prog := launchField d 0x10 30 2
    det := launchField d 0x14 0 1 == 1, prio := launchField d 0x14 1 3
    qnt := if launchField d 0x14 16 16 = 0 then 2048 else launchField d 0x14 16 16
    bound := launchField d 0x18 0 16, privsz := 64 * launchField d 0x1C 0 13, clsz := 128 * launchField d 0x20 0 13
    dssz := 4096 * launchField d 0x24 0 15
    ctok := BitVec.ofNat 64 ((d.getD 10 0).toNat + 2 ^ 32 * (d.getD 11 0).toNat) }

/-- The blocks of a launch. -/
def Launch.blocks (l : Launch) : Nat := l.gx * l.gy * l.gz

/-- Check 1 of R103 with R219 and R322, but for the must-be-zero bits and the kernel. -/
def Launch.shapeOk (l : Launch) : Bool :=
  decide (1 ≤ l.gx) && decide (1 ≤ l.gy) && decide (1 ≤ l.gz) && decide (l.blocks ≤ 2 ^ 32 - 1) &&
  (if l.pair then decide (2 ≤ l.waves) && decide (l.waves ≤ 64) else decide (1 ≤ l.waves) && decide (l.waves ≤ 32)) &&
  decide (1 ≤ l.setsz) && decide (l.setsz ≤ 16) && l.blocks % l.setsz == 0 &&
  decide (l.privsz ≤ 262144) && decide (l.clsz ≤ 524288) && (l.clsz == 0 || l.setsz != 1) &&
  decide (l.dssz ≤ 67108864) && decide (64 ≤ l.qnt) && l.arg.toNat % 8 == 0 && l.ctok.toNat % 8 == 0

/-- The lanes of a kernel's waves (R54). -/
def Kernel.lanes (k : Kernel) : Nat := 16 * 2 ^ k.width

/-! ## Room on a core (R15, R93, R95) -/

/-- An empty core. -/
def Room.whole : Room := ⟨List.replicate 4 (List.range 32, 98304), 4096, 8192, 4096, 64, 16⟩

/-- What a wave of a block holds of its quadrant. -/
def Wave.laneRegs (w : Wave) : Nat := 8 * w.vgran * w.width

/-- What a core has free now: a wave holds its slot and registers until its last operation has completed, a block its
tiles, lines and cluster memory until it ends (R94, R95). -/
def State.room (s : State) (core : Nat) : Room :=
  let held := s.waves.filter (fun e => e.2.core == core && (!e.2.ended || s.busyWave e.1 e.2))
  let halves := (s.blocks.filter (fun e => e.2.goesOn)).flatMap (fun e => e.2.halves.filter (fun h => h.core == core))
  let regions := s.regions.filter (fun e => e.2.core == core && s.regionHeld e.2)
  let sum := fun (l : List Nat) => l.foldl (· + ·) 0
  let cl := sum (regions.map (fun e => e.2.size / 128))
  { quads := (List.range 4).map (fun q =>
      let mine := (held.filter (fun e => e.2.quad == q)).map (·.2)
      ((List.range 32).filter (fun i => !mine.any (fun w => w.slot == i)), 98304 - sum (mine.map Wave.laneRegs)))
    tiles := 4096 - sum (halves.map (·.acct))
    lines := 8192 - sum (halves.map (·.scrl)) - cl, cluster := 4096 - cl, eases := s.easesFree core
    chans := 16 - s.channelsOn core }

/-- What two rooms both have. -/
def Room.meet (x y : Room) : Room :=
  { quads := (x.quads.zip y.quads).map (fun e => (e.1.1.filter e.2.1.contains, min e.1.2 e.2.2))
    tiles := min x.tiles y.tiles, lines := min x.lines y.lines, cluster := min x.cluster y.cluster
    eases := min x.eases y.eases, chans := min x.chans y.chans }

/-- A room less what a placement took of another: what that had before and has after. -/
def Room.less (x before after : Room) : Room :=
  { quads := (x.quads.zip (before.quads.zip after.quads)).map (fun (a, b, c) =>
      (a.1.filter (fun i => !b.1.contains i || c.1.contains i), a.2 - (b.2 - c.2)))
    tiles := x.tiles - (before.tiles - after.tiles), lines := x.lines - (before.lines - after.lines)
    cluster := x.cluster - (before.cluster - after.cluster), eases := x.eases - (before.eases - after.eases)
    chans := x.chans - (before.chans - after.chans) }

/-- What a core may grant in this tick: what it had free when the tick began and has still. A resource that is freed in a
tick can be granted in the next (R94). -/
def State.grantRoom (s : State) (core : Nat) : Room := (s.room core).meet (s.rooms.getD core Room.whole)

/-- The cores in use: those with waves, blocks, regions or transfers. -/
def State.coresInUse (s : State) : List Nat :=
  (s.waves.map (fun e => e.2.core) ++ s.blocks.flatMap (fun e => e.2.halves.map (·.core)) ++
    s.regions.map (fun e => e.2.core) ++ s.xfers.map (·.core)).eraseDups

/-- The rooms noted as a tick begins. -/
def State.noteRooms (s : State) : State :=
  { s with rooms := s.coresInUse.foldl (fun t c => Table.set t c (s.room c)) [] }

/-- The rooms after a placement: what it took is granted no more in this tick. -/
def State.tookRooms (before after : State) : State :=
  { after with rooms := after.coresInUse.foldl (fun t c =>
      t.set c ((after.rooms.getD c Room.whole).less (before.room c) (after.room c))) after.rooms }

/-- The quadrant with the most free wave slots among those with enough lane-registers, the lower of equals
(R93). -/
def Room.quadFor (r : Room) (regs : Nat) : Option Nat :=
  let ok := (List.range 4).filter (fun q => match r.quads[q]? with
    | some (slots, free) => !slots.isEmpty && decide (regs ≤ free)
    | none => false)
  ok.foldl (fun best q => match best with
    | none => some q
    | some b => if (r.quads.getD b ([], 0)).1.length < (r.quads.getD q ([], 0)).1.length then some q else some b) none

/-- Waves placed one after the other: the room left, and each wave's quadrant and slot (R93). A wave takes the lowest free
slot of its quadrant (DESIGN CHOICE, assumption 41: R93 names only the quadrant). -/
def Room.placeWaves (regs : Nat) : Nat → Room → Option (Room × List (Nat × Nat))
  | 0, r => some (r, [])
  | n + 1, r =>
    match r.quadFor regs with
    | none => none
    | some q =>
      let slot := (r.quads.getD q ([], 0)).1.headD 0
      let r' := { r with quads := listUpdate r.quads q (fun x => (x.1.drop 1, x.2 - regs)) }
      match Room.placeWaves regs n r' with
      | none => none
      | some (r'', l) => some (r'', (q, slot) :: l)

/-- What one block asks of its core or cores: the waves of each half, the lane-registers of each wave, tiles
and lines (R95, R96). -/
structure Shape where
  halves : List Nat
  regs   : Nat
  acct   : Nat
  scrl   : Nat
  deriving DecidableEq, Repr

/-- The shape of a launch's blocks. -/
def shapeOf (k : Kernel) (waves : Nat) (pair : Bool) : Shape :=
  { halves := if pair then [(waves + 1) / 2, waves / 2] else [waves], regs := 8 * k.vgran * k.lanes
    acct := k.acct, scrl := k.scrl }

/-- One half placed on a core, with `extra` lines for a cluster region. -/
def Room.placeHalf (r : Room) (sh : Shape) (n extra : Nat) : Option (Room × List (Nat × Nat)) :=
  if sh.acct ≤ r.tiles ∧ sh.scrl + extra ≤ r.lines ∧ extra ≤ r.cluster then
    Room.placeWaves sh.regs n
      { r with tiles := r.tiles - sh.acct, lines := r.lines - sh.scrl - extra, cluster := r.cluster - extra }
  else none

/-- A block's place: for each half its core and its waves' quadrants and slots. -/
abbrev BlockPlace := List (Nat × List (Nat × Nat))

/-- What placement has taken so far: the rooms already changed, and the cores that hold the set's region. -/
structure Taken where
  rooms : Table Room
  cores : List Nat
  deriving Repr

/-- A block placed on the first core, or core pair, of a list that can hold it (R95, R96, R110). `extra`
lines are taken once on every core that the set uses (R223). -/
def placeOn (base : Nat → Room) (owned : List Nat) (sh : Shape) (extra : Nat) (t : Taken) :
    List Nat → Option (Taken × BlockPlace)
  | [] => none
  | c :: rest =>
    let room := fun (t : Taken) k => (t.rooms.get? k).getD (base k)
    let cost := fun (t : Taken) k => if t.cores.contains k then 0 else extra
    let lo := c - c % 2
    match sh.halves with
    | [n] =>
      (match (room t c).placeHalf sh n (cost t c) with
        | some (r, l) => some (⟨t.rooms.set c r, insertNat c t.cores⟩, [(c, l)])
        | none => placeOn base owned sh extra t rest)
    | [n, m] =>
      if owned.contains lo && owned.contains (lo + 1) then
        (match (room t lo).placeHalf sh n 0, (room t (lo + 1)).placeHalf sh m 0 with
          | some (r, l), some (r', l') =>
            some (⟨(t.rooms.set lo r).set (lo + 1) r', t.cores⟩, [(lo, l), (lo + 1, l')])
          | _, _ => placeOn base owned sh extra t rest)
      else placeOn base owned sh extra t rest
    | _ => none

/-- Some blocks placed one after the other among the same cores, each on the first that can hold it: a cluster's cores are
filled in logical order (DESIGN CHOICE, assumption 42: R110 names only the cluster). -/
def placeSome (base : Nat → Room) (owned cand : List Nat) (sh : Shape) (extra : Nat) :
    Nat → Taken → Option (Taken × List BlockPlace)
  | 0, t => some (t, [])
  | n + 1, t =>
    match placeOn base owned sh extra t cand with
    | none => none
    | some (t, p) =>
      match placeSome base owned cand sh extra n t with
      | none => none
      | some (t, l) => some (t, p :: l)

/-- A unit's place: whether its class is FAR (R98), and its blocks' places. -/
abbrev UnitPlace := Bool × List BlockPlace

/-- A block or a set placed whole: a set in the first cluster that can hold it, and, when its class may be FAR,
else across the cores (R97, R98, R110). -/
def placeUnit (base : Nat → Room) (owned cand : List Nat) (sh : Shape) (l : Launch) (rooms : Table Room) :
    Option (Table Room × UnitPlace) :=
  let extra := if l.pair then 0 else l.clsz / 128
  let t : Taken := ⟨rooms, []⟩
  if l.setsz = 1 then (placeSome base owned cand sh 0 1 t).map (fun e => (e.1.rooms, false, e.2))
  else
    match ((cand.map clusterOf).eraseDups).findSome? (fun k =>
        placeSome base owned (cand.filter (fun c => clusterOf c == k)) sh extra l.setsz t) with
    | some e => some (e.1.rooms, false, e.2)
    | none => if l.setcls then (placeSome base owned cand sh extra l.setsz t).map (fun e => (e.1.rooms, true, e.2)) else none

/-- A list of cores turned so that the core after a used one comes first (R110): the last block's last core (assumption
43). -/
def turnPast (cand : List Nat) (used : UnitPlace) : List Nat :=
  match used.2.getLast? with
  | none => cand
  | some p => match (p.getLast?).bind (fun h => cand.idxOf? h.1) with
    | some i => cand.rotate (i + 1)
    | none => cand

/-- At most `n` units placed one after the other, the pointer moving on (R102, R110, R384). -/
def placeUnits (base : Nat → Room) (owned : List Nat) (sh : Shape) (l : Launch) :
    Nat → List Nat → Table Room → List UnitPlace
  | 0, _, _ => []
  | n + 1, cand, rooms =>
    match placeUnit base owned cand sh l rooms with
    | none => []
    | some (rooms, p) => p :: placeUnits base owned sh l n (turnPast cand p) rooms

/-! ## Cores of a partition -/

/-- The partition's cores that may receive blocks: enabled, owned and admitted (R103, R109). -/
def State.partCores (s : State) (p : Partition) : List Nat :=
  p.cores.filter (fun c => match s.dies[dieOf c]? with
    | some d => d.ok && d.map.getLsbD (c % 36)
    | none => false)

/-! ## Starting a grid (R103, R321, R322) -/

/-- The most blocks that a package could hold: one wave slot each. -/
def maxResident : Nat := 144 * 128

/-- The launch checks in subcode order; the kernel when all pass (R103, R322). `checkZero` says that a
non-zero must-be-zero bit counts as a shape. -/
def State.launchCheck (s : State) (p : Partition) (checkZero : Bool) (d : List Word) : Except Nat (Launch × Kernel) :=
  let l := parseLaunch d
  let cores := s.partCores p
  match p.modules.get? l.modh with
  | none => .error 1
  | some m =>
    match m.kernels[l.kidx]? with
    | none => .error 1
    | some k =>
      let sh := shapeOf k l.waves l.pair
      let whole := fun _ : Nat => Room.whole
      if !l.shapeOk || (checkZero && !launchReserved d) then .error 1
      else if l.prog = 3 then .error 2
      else if (Room.whole.placeHalf sh (sh.halves.headD 0) 0).isNone then .error 3
      else if l.pair && !cores.any (fun c => c % 2 == 0 && cores.contains (c + 1)) then .error 4
      else if l.setsz ≠ 1 ∧ (placeUnit whole cores cores sh l []).isNone then .error 5
      else if l.prog = 2 ∧ (maxResident < l.blocks ∨
        (placeUnits whole cores sh l (l.blocks / l.setsz) cores []).length ≠ l.blocks / l.setsz) then .error 6
      else if m.unloading.isSome then .error 7
      else .ok (l, k)

/-- A launch's residency window in blocks (R384). -/
def State.residency (s : State) (p : Partition) (l : Launch) (k : Kernel) : Nat :=
  let cores := s.partCores p
  let n := min (l.blocks / l.setsz) maxResident
  l.setsz * (placeUnits (fun _ => Room.whole) cores (shapeOf k l.waves l.pair) l n cores []).length

/-- A grid started for a function (R322): the refusal's subcode, or the grid queued, its priority lowered to a
ceiling. -/
def State.startGrid (s : State) (f : Nat) (checkZero : Bool) (d : List Word) (wgt ceil : Nat) (o : Origin)
    (noCtok : Bool) : State × Except Nat Nat :=
  match (s.func f).part with
  | none => (s, .error 1)
  | some pk =>
    match s.parts.get? pk with
    | none => (s, .error 1)
    | some p =>
      match s.launchCheck p checkZero d with
      | .error n => (s, .error n)
      | .ok (l, k) =>
        let l := { l with prio := min l.prio ceil, ctok := if noCtok then 0 else l.ctok }
        let det := if l.det then some { round := 0, nres := s.residency p l k, started := false, notBefore := 0,
                                        digest := [], tags := [], joinAt := [], taskCount := 0 : DetGrid } else none
        let id := s.nextId
        let g : Grid := { func := f, part := pk, launch := l, kernel := k, wgt := max 1 wgt, origin := o, seqno := id,
                          arrived := s.time, next := 0, returned := [], endedBlocks := 0, placed := false, fault := none,
                          cutting := false, parent := none, task := none, det, releaseAt := 0 }
        ({ s with grids := s.grids.set id g, nextId := id + 1 }, .ok id)

/-! ## New waves and blocks (R92) -/

/-- A slice of a new wave; `absent` are its lanes without work (R87, R111). -/
def newSlice (entry : DWord) (all : SliceMask) (absent : BitVec 4) : Slice :=
  { pc := entry, lm := ~~~absent, ex := absent, rs := List.replicate 16 ⟨0, 0, 0, 0⟩, rsd := 0, rjc := 0, rjt := all
    park := .none, rgm := 0, age := 0, quiet := 0, stalled := none, stood := 0, redirect := false, word := 0, cl := []
    held := false, heldPark := .none, times := Times.zero }

/-- A new wave (R92): its place and identity, its kernel, its first scalar registers, its lanes and the values
of v0 and v1. -/
def newWave (k : Kernel) (entry : DWord) (block index half func part core quad slot : Nat) (waveid : DWord)
    (sregs : List Nat) (lanes : Nat) (args : List DWord) (saveSlot : Nat) (det : Option DetWave) : Wave :=
  let n := k.lanes / 4
  let all := maskWhere 16 (fun i => decide (i < n))
  let present := maskWhere 64 (fun l => decide (l < lanes))
  { block, index, half, func, part, core, quad, slot, waveid
    slices := (List.range n).map (fun i => newSlice entry all (maskWhere 4 (fun j => decide (lanes ≤ 4 * i + j))))
    present, vgran := k.vgran
    v := ZMap.setAll [] ((args.mapIdx (fun l a =>
      [(vKey 0 l, BitVec.ofNat 32 a.toNat), (vKey 1 l, BitVec.ofNat 32 (a.toNat / 2 ^ 32))])).flatten)
    vpoison := [], s := ZMap.setAll [] (sregs.mapIdx (fun i x => (i, BitVec.ofNat 32 x))), spoison := []
    p := ZMap.set [] 0 present, md := 0, fx := 0, flags := List.replicate 12 0, begins := List.replicate 12 0
    ot0 := 0, ot1 := 0, mp := 0, mr := false, mrs := 0, ab := 0, al := 0, lease := 1024
    monitor := .off, heldMonitor := none, exitScope := 0, times := Times.zero, idem := false, side := false
    priv := false, inHandler := false, hintValid := false, hint := 0, trapped := false, saveSlot, due := [], causes := []
    handling := none, replay := [], specials := [], memOps := [], seq := 0, fencing := none, invals := [], latch := none
    frozen := false, ownFreeze := false, stopped := false, ended := false, det }

/-- A core's share of a new block (R191, R192, R222). -/
def newHalf (k : Kernel) (core : Nat) : Half := { Half.none with core, acct := k.acct, scrl := k.scrl }

/-- The quantum state of a new wave of a deterministic launch: it joins at the next round's start (R383,
R384). -/
def newDet (dwid blk : Nat) : DetWave := { dwid, blk, count := 0, ended := true, turn := 15, past := none, skips := 0, buffer := [] }

/-- One wave added to a block: it takes the lowest free save slot and the next identifier (R38, R348). -/
def State.addWave (s : State) (b : Nat) (part : Nat) (mk : (waveid : DWord) → (saveSlot : Nat) → Wave) : State :=
  match s.parts.get? part with
  | none => s
  | some p =>
    let slot := firstFree p.slots (p.slots.length + 1) 0
    let w := mk (BitVec.ofNat 64 (16 * p.nextWave + part)) slot
    let s := s.modPart part (fun p => { p with slots := insertNat slot p.slots, nextWave := p.nextWave + 1 })
    let k := s.nextId
    let s : State := { s with waves := s.waves.set k w, nextId := k + 1 }
    s.modBlock b (fun x => { x with waves := x.waves ++ [k] })

/-- A block of a grid placed at its cores with the waves of R92; `far` is the class of its set (R98). -/
def State.putBlock (s : State) (gid index : Nat) (far : Bool) (place : BlockPlace) : State :=
  match s.grids.get? gid with
  | none => s
  | some g =>
    let l := g.launch
    let entry := match (s.parts.get? g.part).bind (fun p => p.modules.get? l.modh) with
      | some m => BitVec.ofNat 64 (m.base + m.code + g.kernel.entry)
      | none => 0
    let b := s.nextId
    let blk : Block :=
      { grid := gid, index, setPos := if l.setsz = 1 then 0 else index % l.setsz, nw := l.waves, waves := []
        halves := place.map (fun h => newHalf g.kernel h.1)
        barb := List.replicate 16 ⟨0, false, 0⟩, barc := List.replicate 4 ⟨0, false, 0⟩
        chans := List.replicate 16 ⟨false, false, false, 0, 0, 0, 0, false⟩
        runt := 0, reti := 0, kstep := 0, xbytes := 0, charge := 0, endCount := 0, status := .resident
        placedAt := s.time, task := g.task.isSome, far, parkedInPlace := none }
    let s : State := { s with blocks := s.blocks.set b blk, nextId := b + 1 }
    let waves := (place.mapIdx (fun h x => x.2.map (fun q => (h, x.1, q.1, q.2)))).flatten
    (waves.mapIdx (fun i x => (i, x))).foldl (fun s e =>
      let (i, half, core, quad, slot) := e
      s.addWave b g.part (fun waveid saveSlot =>
        match g.task with
        | none =>
          newWave g.kernel entry b i half g.func g.part core quad slot waveid
            [l.arg.toNat, l.arg.toNat / 2 ^ 32, index, index % l.gx, index / l.gx % l.gy, index / (l.gx * l.gy), i, l.waves,
             if l.setsz = 1 then 0 else index % l.setsz, l.setsz]
            g.kernel.lanes [] saveSlot (g.det.map (fun _ => newDet (index * 64 + i) index))
        | some t =>
          newWave g.kernel entry b i half g.func g.part core quad slot waveid [0, 0, t.args.length, 0, 0, 0, 0, 1, 0, 1]
            t.args.length t.args saveSlot (if l.det then some (newDet (2 ^ 63 + t.k) t.blk) else none))) s

/-- The cluster regions of a set that has been placed: one on each core that holds one of its blocks, with
slots by smallest set position within each cluster (R223). -/
def State.addRegions (s : State) (gid setId size : Nat) (cores : List Nat) : State :=
  cores.eraseDups.foldl (fun s c =>
    let mates := (cores.eraseDups).filter (fun d => clusterOf d == clusterOf c)
    { s with
      regions := s.regions.set s.nextId
        { grid := gid, setId, die := dieOf c, cluster := clusterOf c, slot := (mates.idxOf? c).getD 0, core := c, size
          bytes := [], empty := [], touched := [], spoison := [], lost := false }
      nextId := s.nextId + 1 }) s

/-! ## Die scratchpad (R225) -/

/-- The admitted dies that a partition has cores on. -/
def State.partDies (s : State) (p : Partition) : List Nat := ((s.partCores p).map dieOf).eraseDups

/-- The die-scratchpad bytes that a partition's grids hold on a die. -/
def State.dieUsed (s : State) (part die : Nat) : Nat :=
  (((s.dregions.filter (fun e => e.2.die == die && (match s.grids.get? e.2.grid with
    | some g => g.part == part
    | none => false))).map (fun e => e.2.size))).foldl (· + ·) 0

/-- Every admitted die can allot a grid's bytes, or the grid needs none or has begun. -/
def State.dieRoom (s : State) (p : Partition) (g : Grid) : Bool :=
  g.placed || g.parent.isSome || g.launch.dssz == 0 ||
  (s.partDies p).all (fun d => decide (s.dieUsed g.part d + g.launch.dssz ≤ p.dieScratch.getD d 0))

/-- The regions of a grid that begins. -/
def State.addDieRegions (s : State) (p : Partition) (gid : Nat) (g : Grid) : State :=
  if g.placed || g.parent.isSome || g.launch.dssz == 0 then s
  else (s.partDies p).foldl (fun s d =>
    { s with dregions := s.dregions.set s.nextId ⟨gid, d, g.launch.dssz, [], []⟩, nextId := s.nextId + 1 }) s

/-! ## The arbiter (R101, R102, R328, R329) -/

/-- A function whose blocks may be placed: active, not frozen, and not stopped by a CTX_SAVE (R422, R423,
R429). -/
def Func.places (f : Func) : Bool := f.active && !f.frozen && !f.saving

/-- A cut unit that can be resumed: every cairn is PUBLISHED (R374). -/
def CutUnit.resumable (u : CutUnit) : Bool := u.method == .save && u.state == .published

/-- The unit of a grid that is resumed before any of its unstarted blocks is placed (R102). -/
def State.toResume (s : State) (gid : Nat) : Option CutUnit :=
  s.cuts.find? (fun u => u.grid == gid && u.resumable)

/-- Blocks of a grid are saved or being saved, so that none of its unstarted blocks is placed (R102). -/
def State.hasSaved (s : State) (gid : Nat) : Bool := s.cuts.any (fun u => u.grid == gid && u.method == .save)

/-- The blocks of a grid that are placed, cut and flushed together: a set, or the whole of a CONCURRENT grid (R97, R102). -/
def Grid.unitSize (g : Grid) : Nat := if g.launch.prog = 2 then g.launch.blocks else g.launch.setsz

/-- The next unplaced unit of a grid: the blocks that were flushed, lowest first, then the next index (R101, R364). A set or
a CONCURRENT grid that was flushed is placed again, whole, when all of its blocks have returned (R97, R102). A unit of a
deterministic launch waits until it is due to join (R384). -/
def Grid.nextUnit (g : Grid) : Option Nat :=
  let whole := fun (first : Nat) => (List.range g.unitSize).all (fun i => g.returned.contains (first + i))
  match g.returned with
  | _ :: _ => (g.returned.map (fun b => b / g.unitSize * g.unitSize)).find? whole
  | [] =>
    if g.launch.blocks ≤ g.next then none
    else
      match g.det with
      | none => some g.next
      | some d => if g.next < d.nres ∨ (d.joinAt.get? g.next).isSome then some g.next else none

/-- A grid has work to place: a saved unit to resume, or an unplaced unit. -/
def State.hasWork (s : State) (p : Partition) (gid : Nat) (g : Grid) : Bool :=
  !g.cutting && ((s.toResume gid).isSome || (!s.hasSaved gid && g.nextUnit.isSome && s.dieRoom p g))

/-- The cores that a unit of a grid may take: those of the partition that are not frozen or under a drain for higher
priority, from the placement pointer on (R93, R110, R364). -/
def State.openCores (s : State) (p : Partition) (g : Grid) : List Nat :=
  let open_ := fun c : Nat => !(s.core c).frozen &&
    !s.cuts.any (fun u => u.method == .drain && decide (g.launch.prio < u.prio) &&
      u.blocks.any (fun b => match s.blocks.get? b with
        | some x => x.halves.any (fun h => h.core == c)
        | none => false))
  ((s.partCores p).rotate ((p.cores.take p.pointer).countP (fun c => (s.partCores p).contains c))).filter open_

/-- The cores that a grid's next unplaced unit may take: a new task wave's are those of its gatherer's die (R106). -/
def State.candidates (s : State) (p : Partition) (g : Grid) : List Nat :=
  (s.openCores p g).filter (fun c => match g.task with
    | some t => dieOf c == t.die
    | none => true)

/-- The shape of a grid's blocks. -/
def Grid.shape (g : Grid) : Shape := shapeOf g.kernel g.launch.waves g.launch.pair

/-- The units that a placement of a grid takes at once: all of a CONCURRENT grid, else one (R102). -/
def Grid.unitsAtOnce (g : Grid) : Nat := if g.launch.prog = 2 then g.launch.blocks / g.launch.setsz else 1

/-- The place of a grid's next units, if the machine has room for them. -/
def State.placeFor (s : State) (p : Partition) (g : Grid) (units : Nat) : Option (List UnitPlace) :=
  let l := placeUnits s.grantRoom (s.candidates p g) g.shape g.launch units (s.candidates p g) []
  if l.length = units ∧ 1 ≤ units then some l else none

/-! ### Room for a saved unit (R313, R375) -/

/-- What a set of a saved unit asks of one core: the set, the core that it was saved from, the waves that go there,
the lane-registers of each, tiles, lines, lines of a cluster region, easement entries and physical channels. -/
structure Load where
  set   : Nat
  old   : Nat
  waves : List Nat
  regs  : Nat
  acct  : Nat
  scrl  : Nat
  extra : Nat
  eases : Nat
  chans : Nat
  deriving DecidableEq, Repr

/-- Where one core's load goes: its load, the new core, and its waves' quadrants and slots. -/
abbrev LoadPlace := Load × Nat × List (Nat × Nat)

/-- A load placed on a core. -/
def Room.placeLoad (r : Room) (x : Load) : Option (Room × List (Nat × Nat)) :=
  if x.acct ≤ r.tiles ∧ x.scrl + x.extra ≤ r.lines ∧ x.extra ≤ r.cluster ∧ x.eases ≤ r.eases ∧ x.chans ≤ r.chans then
    Room.placeWaves x.regs x.waves.length
      { r with tiles := r.tiles - x.acct, lines := r.lines - x.scrl - x.extra, cluster := r.cluster - x.extra
               eases := r.eases - x.eases, chans := r.chans - x.chans }
  else none

/-- The loads of one set, each placed on a core of its own. -/
def placeLoads (base : Nat → Room) (cand : List Nat) :
    List Load → List Nat → Table Room → Option (Table Room × List LoadPlace)
  | [], _, rooms => some (rooms, [])
  | x :: rest, used, rooms =>
    match cand.findSome? (fun c => if used.contains c then none
        else (((rooms.get? c).getD (base c)).placeLoad x).map (fun r => (c, r))) with
    | none => none
    | some (c, r, l) =>
      match placeLoads base cand rest (c :: used) (rooms.set c r) with
      | none => none
      | some (rooms, m) => some (rooms, (x, c, l) :: m)

/-- The two loads of a core pair's paired blocks, placed on a core pair (R96). -/
def placePairLoads (base : Nat → Room) (owned cand used : List Nat) (lo hi : Load) (rooms : Table Room) :
    Option (Nat × Table Room × List LoadPlace) :=
  cand.findSome? (fun c =>
    let k := c - c % 2
    if owned.contains k && owned.contains (k + 1) && !used.contains k then
      match ((rooms.get? k).getD (base k)).placeLoad lo, ((rooms.get? (k + 1)).getD (base (k + 1))).placeLoad hi with
      | some (r, l), some (r', l') => some (k, (rooms.set k r).set (k + 1) r', [(lo, k, l), (hi, k + 1, l')])
      | _, _ => none
    else none)

/-- The loads of a set of paired blocks by core pairs: the lower and the upper core's. -/
def pairLoads (loads : List Load) : List (Load × Load) :=
  (loads.filter (fun x => x.old % 2 == 0)).filterMap (fun x => (loads.find? (fun y => y.old == x.old + 1)).map (fun y => (x, y)))

/-- The core pairs of a set, each placed on a core pair of its own. -/
def placePairs (base : Nat → Room) (owned cand : List Nat) :
    List (Load × Load) → List Nat → Table Room → Option (Table Room × List LoadPlace)
  | [], _, rooms => some (rooms, [])
  | (lo, hi) :: rest, used, rooms =>
    match placePairLoads base owned cand used lo hi rooms with
    | none => none
    | some (k, rooms, p) => (placePairs base owned cand rest (k :: used) rooms).map (fun e => (e.1, p ++ e.2))

/-- The groups of a set's loads by the cluster that they were saved from, each placed in a cluster of its own: a FAR set's
slots are numbered in each cluster, and each keeps its number (R224). -/
def placeGroups (base : Nat → Room) (cand : List Nat) :
    List (List Load) → List Nat → Table Room → Option (Table Room × List LoadPlace)
  | [], _, rooms => some (rooms, [])
  | x :: rest, used, rooms =>
    match ((cand.map clusterOf).eraseDups).findSome? (fun k => if used.contains k then none else
        (placeLoads base (cand.filter (fun c => clusterOf c == k)) x [] rooms).map (fun e => (k, e))) with
    | none => none
    | some (k, rooms, p) => (placeGroups base cand rest (k :: used) rooms).map (fun e => (e.1, p ++ e.2))

/-- The loads of a set by the cluster that they were saved from. -/
def clusterLoads (loads : List Load) : List (List Load) :=
  ((loads.map (fun x => clusterOf x.old)).eraseDups).map (fun k => loads.filter (fun x => clusterOf x.old == k))

/-- One set of a saved unit placed as R95 to R97 place a new one, in the class that it had (R98). -/
def placeSet (base : Nat → Room) (owned cand : List Nat) (l : Launch) (far : Bool) (loads : List Load) (rooms : Table Room) :
    Option (Table Room × List LoadPlace) :=
  let among := fun (cs : List Nat) =>
    if l.pair then placePairs base owned cs (pairLoads loads) [] rooms else placeLoads base cs loads [] rooms
  if l.setsz = 1 then among cand
  else if !far then
    ((cand.map clusterOf).eraseDups).findSome? (fun k => among (cand.filter (fun c => clusterOf c == k)))
  else if l.pair || l.clsz == 0 then among cand
  else placeGroups base cand (clusterLoads loads) [] rooms

/-- The sets of a saved unit placed one after the other. -/
def placeSets (base : Nat → Room) (owned cand : List Nat) (l : Launch) :
    List (Bool × List Load) → Table Room → Option (List LoadPlace)
  | [], _ => some []
  | x :: rest, rooms =>
    match placeSet base owned cand l x.1 x.2 rooms with
    | none => none
    | some (rooms, p) => (placeSets base owned cand l rest rooms).map (fun q => p ++ q)

/-- The loads of a saved unit, set by set, with the class of each set. -/
def CutUnit.loads (u : CutUnit) (l : Launch) (k : Kernel) : List (Bool × List Load) :=
  let sets := (u.saved.map (fun e => e.2.index / l.setsz)).eraseDups
  sets.map (fun i =>
    let mine := u.saved.filter (fun e => e.2.index / l.setsz == i)
    let cores := (mine.flatMap (fun e => e.2.halves.map (·.core))).eraseDups
    (mine.any (fun e => e.2.far), cores.map (fun c =>
      let halves := mine.flatMap (fun e => e.2.halves.filter (fun h => h.core == c))
      let runs := u.xfers.filter (fun (x : Transfer) => x.core == c && mine.any (fun e => x.block == some e.1))
      { set := i, old := c
        waves := (u.waves.filter (fun w => mine.any (fun e => e.1 == w.2.block) && w.2.core == c && !w.2.ended)).map (·.1)
        regs := 8 * k.vgran * k.lanes
        acct := (halves.map (·.acct)).foldl (· + ·) 0, scrl := (halves.map (·.scrl)).foldl (· + ·) 0
        extra := ((u.regions.filter (fun r => r.2.setId == i && r.2.core == c)).map (fun r => r.2.size / 128)).foldl (· + ·) 0
        eases := 2 * runs.length, chans := countIf (fun (x : Transfer) => x.chain) runs })))

/-- The place of a saved unit, if the machine has room for it: any core of the partition may take it (R93, R106). -/
def State.placeSaved (s : State) (p : Partition) (g : Grid) (u : CutUnit) : Option (List LoadPlace) :=
  placeSets s.grantRoom (s.openCores p g) (s.openCores p g) g.launch (u.loads g.launch g.kernel) []

/-- A grid's next unit fits now. -/
def State.fitsNow (s : State) (p : Partition) (gid : Nat) (g : Grid) : Bool :=
  match s.toResume gid with
  | some u => (s.placeSaved p g u).isSome
  | none => (s.placeFor p g g.unitsAtOnce).isSome

/-- The oldest started grid of a function at a level that has work (R328). -/
def State.oldestGrid (s : State) (part : Nat) (p : Partition) (level f : Nat) : Option (Nat × Grid) :=
  (sortOn (fun e : Nat × Grid => e.2.seqno) (s.grids.filter (fun e =>
    e.2.part == part && e.2.launch.prio == level && e.2.func == f && s.hasWork p e.1 e.2))).head?

/-- The ready functions of a level, with the grid that each would place and its weight: the grid's next unit
fits now. -/
def State.readyFuncs (s : State) (part : Nat) (p : Partition) (level : Nat) : List (Nat × Nat × Nat) :=
  (s.funcs.filter (fun e => e.2.part == some part && e.2.places)).filterMap (fun e =>
    match s.oldestGrid part p level e.1 with
    | some (gid, g) => if s.fitsNow p gid g then some (e.1, gid, g.wgt) else none
    | none => none)

/-- A saved unit of a PARALLEL grid at a level, PUBLISHED or HELD, is still to be resumed, so that lower levels place
nothing (R102). Those of a function that is idle or frozen wait for their function (R422). -/
def State.parallelWaits (s : State) (part : Nat) (level : Nat) : Bool :=
  s.grids.any (fun e => e.2.part == part && e.2.launch.prio == level && e.2.launch.prog == 1 && !e.2.cutting &&
    (s.func e.2.func).places && s.hasSaved e.1)

/-- A function's deficit at a level (R329). -/
def Partition.def_ (p : Partition) (level f : Nat) : Int :=
  match p.deficit.find? (fun e => e.1 == level * 512 + f) with
  | some e => e.2
  | none => 0

/-- A function's deficit set. -/
def Partition.setDef (p : Partition) (level f : Nat) (x : Int) : Partition :=
  { p with deficit := (level * 512 + f, x) :: p.deficit.filter (fun e => e.1 != level * 512 + f) }

/-- The visits of `pick` from one function to the next (R329): the chosen function and the deficits, or the
deficits after a whole pass. -/
def pickPass (ready : List (Nat × Nat × Nat)) (level : Nat) : List Nat → Partition → Option Nat × Partition
  | [], p => (none, p)
  | f :: rest, p =>
    match ready.find? (fun e => e.1 == f) with
    | some e =>
      if 0 < p.def_ level f then (some f, p)
      else pickPass ready level rest (p.setDef level f (p.def_ level f + (e.2.2 * 65536 : Nat)))
    | none => pickPass ready level rest (p.setDef level f (min (p.def_ level f) 0))

/-- The credits that a ready function must still take before its deficit is above zero. -/
def creditsNeeded (d : Int) (wgt : Nat) : Nat := if 0 < d then 0 else (-d).toNat / (wgt * 65536) + 1

/-- `pick` of R329: whole passes that choose nothing are taken at once. The function chosen, and the
partition with the deficits and the pointer as the loop leaves them. -/
def Partition.pick (p : Partition) (level : Nat) (ring : List Nat) (ready : List (Nat × Nat × Nat)) : Option Nat × Partition :=
  let at_ := match p.ring.find? (fun e => e.1 == level) with
    | some e => e.2
    | none => ring.headD 0
  let order := ring.filter (fun f => decide (at_ ≤ f)) ++ ring.filter (fun f => decide (f < at_))
  match listMin (ready.map (fun e => creditsNeeded (p.def_ level e.1) e.2.2)) with
  | none => (none, p)
  | some k =>
    let p := if k = 0 then p else ring.foldl (fun p f =>
      match ready.find? (fun e => e.1 == f) with
      | some e => p.setDef level f (p.def_ level f + (k * e.2.2 * 65536 : Nat))
      | none => p.setDef level f (min (p.def_ level f) 0)) p
    let (f, p) := pickPass ready level order p
    (f, match f with
      | some f => { p with ring := (level, f) :: p.ring.filter (fun e => e.1 != level) }
      | none => p)

/-- The highest level that holds a ready block, unless a higher level must be served first. -/
def State.pickLevel (s : State) (part : Nat) (p : Partition) : Nat → Option (Nat × List (Nat × Nat × Nat))
  | 0 => none
  | n + 1 =>
    let ready := s.readyFuncs part p n
    if !ready.isEmpty then some (n, ready)
    else if s.parallelWaits part n then none
    else State.pickLevel s part p n

/-- The arbiter's choice in a partition: the grid, and the partition as `pick` leaves it (R328, R329). -/
def State.arbiter (s : State) (part : Nat) : Option (Nat × Grid × Partition) :=
  match s.parts.get? part with
  | none => none
  | some p =>
    match s.pickLevel part p 8 with
    | none => none
    | some (level, ready) =>
      let ring := (s.funcs.filter (fun e => e.2.part == some part)).map (·.1)
      match p.pick level ring ready with
      | (none, _) => none
      | (some f, p) =>
        match ready.find? (fun e => e.1 == f) with
        | none => none
        | some e => (s.grids.get? e.2.1).map (fun g => (e.2.1, g, p))

/-- The placement pointer after a placement: the logical core after the one used (R110), which is the last core of the
last block when there are several (DESIGN CHOICE, assumption 43). -/
def Partition.movePointer (p : Partition) (used : List UnitPlace) : Partition :=
  match (used.getLast?).bind (fun u => (u.2.getLast?).bind (fun b => b.getLast?)) with
  | none => p
  | some h => match p.cores.idxOf? h.1 with
    | some i => { p with pointer := (i + 1) % p.cores.length }
    | none => p

/-- One unit of a grid placed: its blocks and its set's regions. -/
def State.putUnit (s : State) (gid first : Nat) (l : Launch) (u : UnitPlace) : State :=
  let s := (u.2.mapIdx (fun i p => (i, p))).foldl (fun s e => s.putBlock gid (first + e.1) u.1 e.2) s
  if l.clsz = 0 ∨ l.pair then s
  else s.addRegions gid (first / l.setsz) l.clsz (u.2.flatMap (fun p => p.map (·.1)))

/-- The units of a grid that have just been placed leave its unplaced blocks. -/
def Grid.tookUnits (g : Grid) (first n : Nat) : Grid :=
  let stop := first + n * g.launch.setsz
  { g with placed := true, next := max g.next stop
           returned := g.returned.filter (fun b => !(decide (first ≤ b) && decide (b < stop))) }

/-- BLOCK_PLACE (R110): the arbiter's choice is placed, a block, a whole set, or a whole CONCURRENT grid. -/
def execBlockPlace (part : Nat) (s : State) : Host.Outcome State Fault Refusal :=
  .next (match s.arbiter part with
    | none => s
    | some (gid, g, p) =>
      if s.hasSaved gid then s
      else
        match g.nextUnit, s.placeFor p g g.unitsAtOnce with
        | some first, some places =>
          let s : State := { s with parts := s.parts.set part (p.movePointer places) }
          let t := s.addDieRegions p gid g
          let t := (places.mapIdx (fun i u => (i, u))).foldl (fun s e =>
            s.putUnit gid (first + e.1 * g.launch.setsz) g.launch e.2) t
          s.tookRooms (t.modGrid gid (fun g => g.tookUnits first places.length))
        | _, _ => s)

/-! ## Task waves (R105, R106) -/

/-- Two grids share a gatherer's list for an entry: those of one partition (R105). A deterministic launch, whose tasks are
emitted at its own round ends, has lists of its own (R106). -/
def State.sharesList (s : State) (g : Grid) (gid other : Nat) : Bool :=
  gid == other || (!g.launch.det && (match s.grids.get? other with
    | some x => x.part == g.part && !x.launch.det
    | none => false))

/-- The tasks that the next wave of an entry's list takes, when the list's oldest task is of a grid, and whether a wave may
be emitted for them now. The list holds the tasks of every grid of the partition in order of arrival; a wave takes those at
its front that are of one grid (R105; DESIGN CHOICE, assumption 49). -/
def State.taskBatch (s : State) (die grid entry : Nat) : Option (Kernel × List Task × Bool) :=
  match s.dies[die]?, s.grids.get? grid with
  | some d, some g =>
    let mine := d.tasks.filter (fun t => t.entry.toNat == entry && s.sharesList g grid t.grid)
    (match mine with
      | [] => none
      | t :: _ =>
        if t.grid ≠ grid then none
        else (s.taskEntry g.part t.entry.toNat).map (fun (_, k) =>
          ((k, (mine.takeWhile (fun x => x.grid == grid)).take k.lanes,
            decide (k.lanes ≤ mine.length) || decide (t.at_ + 256 ≤ s.time)) : Kernel × List Task × Bool)))
  | _, _ => none

/-- A task wave's grid made of the front tasks of an entry. -/
def State.emitTasks (s : State) (die grid entry : Nat) : State :=
  match s.taskBatch die grid entry, s.grids.get? grid with
  | some (k, mine, _), some g =>
    let l := { g.launch with modh := natBits entry 22 10, kidx := natBits entry 10 12, gx := 1, gy := 1, gz := 1, waves := 1,
                             pair := false, setsz := 1, setcls := false, prog := 0, clsz := 0, ctok := 0 }
    let t : TaskWave := { die, args := mine.map (·.arg), blk := (mine.head?.map (·.blk)).getD 0
                          k := (g.det.map (·.taskCount)).getD 0 }
    let id := s.nextId
    let y : Grid := { g with launch := l, kernel := k, origin := .device, seqno := id, arrived := s.time, next := 0,
                             returned := [], endedBlocks := 0, placed := false, parent := some grid, task := some t,
                             det := none, releaseAt := 0 }
    let s : State := { s with grids := s.grids.set id y, nextId := id + 1 }
    let s := s.modGrid grid (fun g => { g with det := g.det.map (fun d => { d with taskCount := d.taskCount + 1 }) })
    s.modDie die (fun d => { d with tasks := mine.foldl (fun l t => l.erase t) d.tasks })
  | _, _ => s

/-- TASK_WAVE_EMIT (R105): a task wave for an entry whose list fills a wave or whose oldest task has waited
256 ticks; in a deterministic launch a round's end emits instead (R106). -/
def execTaskWaveEmit (die grid entry : Nat) (s : State) : Host.Outcome State Fault Refusal :=
  .next (match s.taskBatch die grid entry, s.grids.get? grid with
    | some (_, _, true), some g => if g.launch.det then s else s.emitTasks die grid entry
    | _, _ => s)

/-! ## The end of a grid (R323) -/

/-- Every block of a grid, and every task of it, has ended and has left the machine, and the releases of its waves at
system scope have been made (R106, R256, R323). -/
def State.gridDone (s : State) (gid : Nat) (g : Grid) : Bool :=
  g.parent.isNone && (g.cutting || (decide (g.launch.blocks ≤ g.next) && g.returned.isEmpty)) &&
  !s.blocks.any (fun e => e.2.grid == gid || s.rootGrid e.2.grid == gid) &&
  !s.grids.any (fun e => e.2.parent == some gid) && !s.cuts.any (fun u => u.grid == gid && u.method == .save) &&
  !s.dies.any (fun d => d.tasks.any (fun t => t.grid == gid)) && decide (g.releaseAt ≤ s.time)

/-- GRID_COMPLETE (R323): OK adds one to CTOK; what started the grid learns its status (a plat node also its
launch digest, R394), and its die-scratchpad regions are freed. -/
def execGridComplete (gid : Nat) (s : State) : Host.Outcome State Fault Refusal :=
  .next (match s.grids.get? gid with
    | none => s
    | some g =>
      if !s.gridDone gid g then s
      else
        let s : State := { s with grids := s.grids.erase gid, dregions := s.dregions.filter (fun e => e.2.grid != gid) }
        match g.fault with
        | some c => s.originEnded g.origin stFaulted c 0
        | none =>
          let ok := !g.cutting
          let s := match g.origin, g.det with
            | .node inst node, some d => s.modPlat inst (fun p => p.modPayload node (fun x => { x with digest := some (shake256 d.digest) }))
            | _, _ => s
          let s := if !ok || g.launch.ctok = 0 then s
            else match s.readFor g.func g.launch.ctok.toNat 8 with
              | (s, .ok x) => (s.writeFor g.func g.launch.ctok.toNat 8 (x + 1)).1
              | (s, .error _) => s
          s.originEnded g.origin (if ok then stOK else stCancelled) 0 0)

end Sys2Proof.Machine
end

