-- ==== Sys2Proof/Machine/Cut.lean ====
section
/-! DEFINITION. Cutting running work (R28, R360 to R374, R465): cut units, live sets, cairn images, the cairn
heap, the assessor and its methods, cut points, and the publication of a saved unit. -/

namespace Sys2Proof.Machine

/-! ## Cut units (R360) -/

/-- The resident blocks that are cut together with a block: those of its set, or of its CONCURRENT grid. -/
def State.unitOf (s : State) (b : Nat) : List Nat :=
  match s.blocks.get? b with
  | none => []
  | some x =>
    match s.grids.get? x.grid with
    | none => [b]
    | some g =>
      let mine := s.blocks.filter (fun e => e.2.grid == x.grid && e.2.status == .resident &&
        (g.launch.prog == 2 || e.2.index / g.launch.setsz == x.index / g.launch.setsz))
      (sortOn (fun e : Nat × Block => e.2.index) mine).map (·.1)

/-- The waves of some blocks with their keys, in wave order. -/
def State.wavesOf (s : State) (bs : List Nat) : List (Nat × Wave) :=
  bs.flatMap (fun b => match s.blocks.get? b with
    | some x => x.waves.filterMap (fun k => (s.waves.get? k).map (fun w => (k, w)))
    | none => [])

/-- A wave of the unit is frozen (R360). -/
def State.unitFrozen (s : State) (bs : List Nat) : Bool := (s.wavesOf bs).any (fun e => e.2.frozen)

/-- The halves of a unit in the order of its cairns: block, half number and half. -/
def State.unitHalves (s : State) (bs : List Nat) : List (Nat × Block × Nat × Half) :=
  bs.flatMap (fun b => match s.blocks.get? b with
    | some x => x.halves.mapIdx (fun i h => (b, x, i, h))
    | none => [])

/-! ## Live sets (R55, R367) -/

/-- The liveness entry of a wave's kernel for the clause at an address (R55). -/
def State.liveEntry (s : State) (w : Wave) (pc : DWord) : Option (BitVec 192) :=
  match (s.blocks.get? w.block).bind (fun b => s.grids.get? b.grid) with
  | none => none
  | some g =>
    match (s.parts.get? g.part).bind (fun p => p.modules.get? g.launch.modh) with
    | none => none
    | some m =>
      (List.range g.kernel.lcount).findSome? (fun i =>
        let e := s.funcImage m.func (m.base + m.ltab + 32 * (g.kernel.lfirst + i)) 32
        if leNat (e.take 4) + m.base + m.code = pc.toNat then some (BitVec.ofNat 192 (leNat (e.drop 8))) else none)

/-- The live map that a save of a wave uses now (R367). -/
def State.liveMap (s : State) (w : Wave) : BitVec 192 :=
  if w.hintValid then w.hint
  else
    let maps := (w.slices.filter (fun x => !x.ended)).map (fun x =>
      if x.word = 0 ∧ x.park = .none then s.liveEntry w x.pc else none)
    if maps.all Option.isSome then maps.foldl (fun m e => m ||| e.getD 0) 0 else BitVec.allOnes 192

/-- The allotted registers of a wave that a map holds. -/
def Wave.liveRegs (w : Wave) (m : BitVec 192) : List Nat := (List.range (8 * w.vgran)).filter (fun r => m.getLsbD r)

/-! ## Images (R371 to R374, R465) -/

/-- Bytes padded to whole units of 128. -/
def padUnit (l : List Byte) : List Byte := l ++ List.replicate ((128 - l.length % 128) % 128) 0

/-- Units that some bytes take. -/
def unitsFor (n : Nat) : Nat := (n + 127) / 128

/-- A map of bits as bytes, bit i of the map in bit i mod 8 of byte i / 8. -/
def bitmapBytes (n : Nat) (f : Nat → Bool) : List Byte :=
  (List.range (n / 8)).map (fun i => BitVec.ofNat 8 ((List.range 8).foldl (fun a j => if f (8 * i + j) then a + 2 ^ j else a) 0))

/-- The five completion times as fields from an offset. -/
def timesFields (off : Nat) (t : Times) : List (Nat × Nat × Nat) :=
  [(off, 8, t.wave), (off + 8, 8, t.block), (off + 16, 8, t.cluster), (off + 24, 8, t.device), (off + 32, 8, t.system)]

/-- A Boolean as a bit of a field. -/
def bitAt (x : Bool) (i : Nat) : Nat := if x then 2 ^ i else 0

/-- The block section (R372) of one half of a block. -/
def blockImage (gid : Nat) (l : Launch) (x : Block) (i : Nat) (h : Half) (ended nxfer : Nat) (ws : Nat) (now : Nat) : List Byte :=
  layout 256
    ([(0x00, 8, gid), (0x08, 4, x.index), (0x0C, 4, x.setPos + 2 ^ 16 * l.setsz),
      (0x10, 4, ws + bitAt (i == 1) 8 + 2 ^ 16 * ended), (0x14, 4, h.acct), (0x18, 4, h.scrl), (0x1C, 4, l.clsz),
      (0x20, 8, now), (0x28, 8, x.reti), (0x30, 8, x.kstep), (0x38, 8, x.xbytes), (0x40, 4, nxfer)] ++
     x.barb.mapIdx (fun n b => (0x48 + 8 * n, 8, b.arrived.toNat)) ++
     x.barc.mapIdx (fun n b => (0xC8 + 8 * n, 8, b.arrived.toNat)) ++
     [(0xE8, 4, (x.barb.mapIdx (fun n b => bitAt b.phase n)).foldl (· + ·) 0 +
        (x.barc.mapIdx (fun n b => bitAt b.phase (16 + n))).foldl (· + ·) 0)])

/-- The wave state (R373); `lv` is the live map used. The reissue record is the wave's first replay. -/
def waveStateImage (w : Wave) (lv : BitVec 192) : List Byte :=
  let again := w.replay.head?
  layout 256
    ((List.range 8).map (fun i => (8 * i, 8, (w.p.get i).toNat)) ++
     [(0x40, 4, w.md.toNat), (0x44, 4, w.fx.toNat)] ++ w.flags.mapIdx (fun i n => (0x48 + i, 1, n)) ++
     [(0x54, 4, w.lease), (0x58, 4, w.ab.toNat), (0x5C, 4, w.al.toNat),
      (0x60, 4, bitAt w.priv 0 + bitAt w.idem 1 + bitAt w.side 2 + bitAt w.inHandler 3 + bitAt w.hintValid 4 +
        bitAt w.mr 5 + bitAt (!w.due.isEmpty || !w.causes.isEmpty) 6 + bitAt w.trapped 7)] ++
     timesFields 0x68 w.times ++
     [(0x90, 24, lv.toNat), (0xA8, 8, w.waveid.toNat),
      (0xB0, 8, match again with
        | some r => r.src.claddr.toNat + 4 * r.src.widx
        | none => 0),
      (0xB8, 8, match again with
        | some r => r.lanes.toNat
        | none => 0),
      (0xC0, 4, w.ot0.toNat), (0xC4, 4, w.ot1.toNat), (0xC8, 4, w.mrs.toNat), (0xCC, 24, w.hint.toNat)])

/-- A slice's state (R373). -/
def sliceImage (w : Wave) (i : Nat) (x : Slice) : List Byte :=
  layout 512
    ([(0x00, 8, x.pc.toNat), (0x08, 8, x.rj), (0x10, 1, x.lm.toNat + 16 * x.ex.toNat), (0x11, 1, x.rsd + 32 * x.park.kind),
      (0x12, 2, x.rgm.toNat), (0x14, 1, natBits w.mp.toNat (4 * i) 4), (0x15, 1, x.word)] ++ timesFields 0x18 x.times ++
     (x.rs.mapIdx (fun n e => [(0x80 + 24 * n, 8, e.ft.toNat), (0x88 + 24 * n, 8, e.mg.toNat),
       (0x90 + 24 * n, 1, e.pend.toNat + 16 * e.out.toNat)])).flatten)

/-- A wave's units under the live map used: its save slot, scalar registers, wave state, slices and live registers. -/
def State.waveImage (s : State) (w : Wave) (lv : BitVec 192) : List Byte :=
  (if w.trapped then s.funcImage w.func (s.slotAddress w) 1024 else List.replicate 1024 0) ++
  (List.range 128).flatMap (fun i => leBytes 4 (w.s.get i).toNat) ++ waveStateImage w lv ++
  (w.slices.mapIdx (sliceImage w)).flatten ++
  padUnit ((w.liveRegs lv).flatMap (fun r => (List.range w.width).flatMap (fun l => leBytes 4 (w.v.get (vKey r l)).toNat)))

/-- A transfer's unit (R465). -/
def State.xferImage (s : State) (x : Transfer) : List Byte :=
  let op := match x.op with
    | .cpy => 0
    | .tile => 1
    | .gath => 2
    | .scat => 3
    | .red => 4
  let index := match x.wave.bind (fun k => s.waves.get? k) with
    | some w => w.index
    | none => 0
  layout 128 (x.desc.mapIdx (fun i d => (4 * i, 4, d.toNat)) ++
    [(0x30, 4, x.segs % 2 ^ 24),
     (0x34, 4, op + bitAt x.chain 3 + x.flag.getD 15 * 2 ^ 4 + x.lane * 2 ^ 8 + index * 2 ^ 14 + x.ch * 2 ^ 20),
     (0x38, 4, x.recs), (0x40, 8, x.cur.toNat)])

/-- The transfers of a half of a block. -/
def State.halfXfers (s : State) (b i : Nat) : List Transfer := s.xfers.filter (fun x => x.block == some b && x.half == i)

/-- The cluster region that the cairn of a half holds: that of its core, in the cairn of the lowest set position
there (R371). -/
def State.cairnRegion (s : State) (bs : List Nat) (x : Block) (h : Half) (setsz : Nat) : Option Region :=
  let first := (s.unitHalves bs).find? (fun e => e.2.1.index / setsz == x.index / setsz && e.2.2.2.core == h.core)
  match first with
  | some e =>
    if e.2.1.index = x.index then
      (s.regions.find? (fun r => r.2.grid == x.grid && r.2.setId == x.index / setsz && r.2.core == h.core)).map (·.2)
    else none
  | none => none

/-- The uncompressed image of one half of a block (R371), whose waves and block stand as they are saved; `maps` are
the live maps used. -/
def State.halfImage (s : State) (maps : Table (BitVec 192)) (bs : List Nat) (b : Nat) (x : Block) (i : Nat) (h : Half) :
    List Byte :=
  match s.grids.get? x.grid with
  | none => []
  | some g =>
    let ws := (s.wavesOf [b]).filter (fun e => e.2.half == i)
    let xs := s.halfXfers b i
    blockImage x.grid g.launch x i h (countIf (fun e => e.2.ended) ws) xs.length ws.length (s.runTime x) ++
    ws.flatMap (fun e => s.waveImage e.2 (maps.getD e.1 0)) ++
    bitmapBytes 8192 (fun k => decide (k < h.scrl) && !h.empty.contains k) ++ bitmapBytes 8192 h.touched.contains ++
    h.touched.flatMap (fun k => h.scratch.bytes (128 * k) 128) ++
    (List.range 4096).map (fun t => match h.tokens.get? t with
      | some w => BitVec.ofNat 8 w
      | none => if t < h.acct then 0x80 else 0) ++
    (List.range h.acct).flatMap (fun t => (List.range 256).flatMap (fun e => leBytes 4 (h.tiles.get (256 * t + e)).toNat)) ++
    padUnit ((List.range h.acct).flatMap (fun t => leBytes 32 ((h.bench.get? t).getD Bench.zero).toNat)) ++
    xs.flatMap s.xferImage ++
    (match s.cairnRegion bs x h g.launch.setsz with
      | some r => r.bytes.bytes 0 r.size
      | none => [])

/-- Units of one wave's image with `regs` registers. -/
def waveUnits (w : Wave) (regs : Nat) : Nat := 14 + 4 * w.slices.length + unitsFor (4 * regs * w.width)

/-- Units of a half's image with some touched lines and transfers, each wave's registers counted by `regs`. -/
def State.imageUnits (s : State) (bs : List Nat) (b : Nat) (x : Block) (i : Nat) (h : Half) (regs : Wave → Nat)
    (lines xfers : Nat) : Nat :=
  let ws := ((s.wavesOf [b]).filter (fun e => e.2.half == i)).map (·.2)
  let setsz := match s.launchOf x with
    | some l => l.setsz
    | none => 1
  2 + (ws.map (fun w => waveUnits w (regs w))).foldl (· + ·) 0 + 16 + lines + 32 + 8 * h.acct + (h.acct + 3) / 4 + xfers +
    (match s.cairnRegion bs x h setsz with
      | some r => unitsFor r.size
      | none => 0)

/-- Bb of R362 in bytes. -/
def State.bbOf (s : State) (bs : List Nat) : Nat :=
  128 * ((s.unitHalves bs).map (fun (b, x, i, h) => s.imageUnits bs b x i h (fun w => (w.liveRegs (s.liveMap w)).length)
    h.touched.length (s.halfXfers b i).length)).foldl (· + ·) 0

/-- The bytes that a body of some image units can take, in whole heap units of 4 KiB: its bitmap and every unit
raw (R369, R374). -/
def bodySize (units : Nat) : Nat := ((units + (units + 1023) / 1024) * 128 + 4095) / 4096 * 4096

/-- The space that the bodies of a unit need at most: Bmax of R369, one figure per cairn. -/
def State.bmaxOf (s : State) (bs : List Nat) : List Nat :=
  (s.unitHalves bs).map (fun (b, x, i, h) => bodySize (s.imageUnits bs b x i h (fun w => 8 * w.vgran) h.scrl 32))

/-! ## The cairn heap (R369, R370) -/

/-- The lowest address at which `n` bytes are free in a heap. -/
def heapFit (lo hi : Nat) (used : List (Nat × Nat)) (n : Nat) : Option Nat :=
  listMin ((lo :: used.map (fun e => e.1 + e.2)).filter (fun a => decide (lo ≤ a) && decide (a + n ≤ hi) &&
    used.all (fun e => decide (a + n ≤ e.1) || decide (e.1 + e.2 ≤ a))))

/-- Bodies of some sizes allotted. -/
def heapTake (lo hi : Nat) : List Nat → List (Nat × Nat) → Option (List (Nat × Nat))
  | [], _ => some []
  | n :: rest, used =>
    match heapFit lo hi used n with
    | none => none
    | some a => (heapTake lo hi rest ((a, n) :: used)).map (fun l => (a, n) :: l)

/-- The lowest `n` consecutive free descriptors. -/
def descTake (used : List Nat) (n : Nat) : Option (List Nat) :=
  ((List.range (4097 - n)).find? (fun i => (List.range n).all (fun j => !used.contains (i + j)))).map (fun i =>
    (List.range n).map (fun j => i + j))

/-- The physical address of a descriptor. -/
def Partition.descAddress (p : Partition) (d : Nat) : Nat := p.cairnBase + 64 * d

/-- Bytes stored at a physical address of a partition's cairn heap. -/
def State.physStore (s : State) (pa : Nat) (l : List Byte) : State :=
  (List.range ((l.length + 127) / 128)).foldl (fun s i =>
    match namedOf (pa + 128 * i) with
    | some a =>
      let x := (l.drop (128 * i)).take 128
      (s.hbmPut a x).wake (.global a false) x.length
    | none => s) s

/-- A number stored at a physical address. -/
def State.physWord (s : State) (pa n x : Nat) : State := s.physStore pa (leBytes n x)

/-- The codes of the cairn states (R370). -/
def CairnState.code : CairnState → Nat
  | .free => 0
  | .writing => 1
  | .published => 2
  | .held => 3
  | .resuming => 4

/-- The 8-byte word at 0x08 of a unit's descriptors, whose upper half holds STATE, REASON, PART and FUNC. -/
def CutUnit.stateWord (u : CutUnit) (st : CairnState) : Nat :=
  2 ^ 32 * (u.func + 2 ^ 12 * u.part + 2 ^ 24 * u.reason + 2 ^ 28 * st.code)

/-- A unit's descriptors set to a state. -/
def State.setCairns (s : State) (u : CutUnit) (st : CairnState) : State :=
  match s.parts.get? u.part with
  | none => s
  | some p =>
    let s := u.descs.foldl (fun s d => s.physWord (p.descAddress d + 0x08) 8 (u.stateWord st)) s
    { s with cuts := s.cuts.map (fun x => if x.id = u.id then { x with state := st } else x) }

/-- The descriptors of a unit's blocks as the save engine writes them, with STATE WRITING (R370, R374). -/
def State.openCairns (s : State) (u : CutUnit) : State :=
  match s.parts.get? u.part, s.grids.get? u.grid with
  | some p, some g =>
    let cairns := (s.unitHalves u.blocks).zip (u.descs.zip u.bodies)
    (cairns.mapIdx (fun i c => (i, c))).foldl (fun s (i, (_, x, _, _), (d, body, _)) =>
      s.physStore (p.descAddress d) (layout 64
        [(0x00, 4, 0x43414952), (0x08, 8, u.stateWord .writing), (0x10, 4, g.launch.modh * 2 ^ 22 + g.launch.kidx * 2 ^ 10),
         (0x14, 4, x.index), (0x18, 4, i + cairns.length * 2 ^ 16), (0x1C, 4, u.fltseq), (0x28, 8, body), (0x30, 8, u.grid)])) s
  | _, _ => s

/-- A block of the unit is held in place after a retried fault that the heap had no room for (R359). -/
def State.heldHere (s : State) (bs : List Nat) : Bool :=
  bs.any (fun b => match s.blocks.get? b with
    | some x => x.parkedInPlace.isSome
    | none => false)

/-- The slices that a retried trap holds go on; those that a handler holds stay held (R353, R359). -/
def Wave.release (w : Wave) : Wave :=
  if w.inHandler then w else { w with slices := w.slices.map (fun x => { x with held := false }) }

/-- The fault records that hold blocks of a unit in place hold its cairns from now on (R359, R420). -/
def Func.holdUnit (f : Func) (u : CutUnit) : Func :=
  { f with faults := f.faults.map (fun r => match r.block with
      | some b => if u.blocks.contains b then { r with unit := some u.id } else r
      | none => r) }

/-- A save begun (R364, R369): space and descriptors reserved; none when the heap cannot hold the unit. A unit with a
block that a retried fault holds in place is saved HELD, until the host acknowledges the fault. -/
def State.beginSave (s : State) (bs : List Nat) (reason : Nat) (hold : Bool) (bound prio : Nat)
    (listOf : Option (Nat × Nat × Nat)) : Option (State × CutUnit) :=
  match (bs.head?).bind (fun b => s.blocks.get? b) with
  | none => none
  | some x =>
    match s.grids.get? x.grid with
    | none => none
    | some g =>
      match s.parts.get? g.part with
      | none => none
      | some p =>
        let sizes := s.bmaxOf bs
        match heapTake (p.cairnBase + 262144) (p.cairnBase + p.cairnSize) sizes p.heap, descTake p.descs sizes.length with
        | some bodies, some descs =>
          let u : CutUnit :=
            { id := s.nextId, part := g.part, func := g.func, grid := x.grid, blocks := bs, method := .save, reason
              hold := hold || s.heldHere bs, state := .writing, descs, bodies, bound, prio
              fltseq := if reason = 1 then (s.func g.func).evseq else 0
              listOf, waves := [], saved := [], regions := [], xfers := [], frames := [], loose := [] }
          let s : State := { s with cuts := s.cuts ++ [u], nextId := s.nextId + 1 }
          let s := (s.modPart g.part (fun p => { p with heap := p.heap ++ bodies, descs := p.descs ++ descs })).modFunc g.func
            (fun f => f.holdUnit u)
          some ((s.openCairns u).countUnit (s.blockList bs) 0x34, u)
        | _, _ => none

/-- The saves of a function that a preemption began and that are still under way, taken over by a later request for the
whole function: a switch-out has them HELD, a CTX_SAVE has them HELD with REASON 3 and on its list (R422, R423). A unit
under another method keeps it, and one saved for a fault or for CTXSV keeps its own HELD save (R364; assumption 150). -/
def State.joinSaves (s : State) (f : Nat) (g : CutUnit → CutUnit) : State :=
  { s with cuts := s.cuts.map (fun u =>
      if u.func = f ∧ u.method = .save ∧ u.state = .writing ∧ u.reason = 0 ∧ u.listOf = none then g u else u) }

/-- A save of a function is under way. -/
def State.savesUnderWay (s : State) (f : Nat) : Bool :=
  s.cuts.any (fun u => u.func == f && u.method == .save && u.state == .writing)

/-- The descriptor address of a block's first cairn in its unit. -/
def State.cairnOf (s : State) (u : CutUnit) (b : Nat) : Nat :=
  match s.parts.get? u.part with
  | none => 0
  | some p => match (s.unitHalves u.blocks).findIdx? (fun e => e.1 == b) with
    | some i => p.descAddress (u.descs.getD i 0)
    | none => 0

/-! ## Drain and flush (R364, R366) -/

/-- Every block of a unit may be flushed and the whole of its set or CONCURRENT grid is resident. -/
def State.unitMayFlush (s : State) (bs : List Nat) : Bool :=
  match ((bs.head?).bind (fun b => s.blocks.get? b)).bind s.launchOf with
  | none => false
  | some l => bs.all s.mayFlush && bs.length == (if l.prog = 2 then l.blocks else l.setsz)

/-- A cut unit of a method that needs no cairn. -/
def State.noteCut (s : State) (bs : List Nat) (m : Method) (bound prio : Nat) : State :=
  match (bs.head?).bind (fun b => s.blocks.get? b) with
  | none => s
  | some x =>
    match s.grids.get? x.grid with
    | none => s
    | some g =>
      let u : CutUnit :=
        { id := s.nextId, part := g.part, func := g.func, grid := x.grid, blocks := bs, method := m, reason := 0, hold := false
          state := .writing, descs := [], bodies := [], bound, prio, fltseq := 0, listOf := none
          waves := [], saved := [], regions := [], xfers := [], frames := [], loose := [] }
      ({ s with cuts := s.cuts ++ [u], nextId := s.nextId + 1 }).countUnit (s.blockList bs) 0x34

/-- A unit flushed: each block goes back to its grid's unplaced blocks. -/
def State.flushUnit (s : State) (bs : List Nat) (bound prio : Nat) : State :=
  let s := s.noteCut bs .flush bound prio
  bs.foldl (fun s b => (s.modBlock b (fun x => { x with status := .flushed true })).stopBlock b none) s

/-! ## The assessor (R361 to R363) -/

/-- The history entry of a unit's kernel on the die of its first block. -/
def State.historyOf (s : State) (bs : List Nat) : Option Nat :=
  match (bs.head?).bind (fun b => s.blocks.get? b) with
  | none => none
  | some x =>
    match s.grids.get? x.grid, x.halves.head? with
    | some g, some h =>
      (s.dies[dieOf h.core]?).bind (fun d =>
        (d.history.find? (fun e => e.part == g.part && e.modh == g.launch.modh && e.kidx == g.launch.kidx)).map (·.h))
    | _, _ => none

/-- E of R362: the largest RUNT of a unit. -/
def State.unitAge (s : State) (bs : List Nat) : Nat :=
  (bs.filterMap (fun b => (s.blocks.get? b).map s.runTime)).foldl max 0

/-- Every counter of a unit other than RUNT is 0. -/
def State.unitIdle (s : State) (bs : List Nat) : Bool :=
  bs.all (fun b => match s.blocks.get? b with
    | some x => x.reti == 0 && x.kstep == 0 && x.xbytes == 0
    | none => true)

/-- An estimate of one method: whether it is legal, its latency (none when infinite) and its cost. -/
structure Estimate where
  method  : Method
  legal   : Bool
  latency : Option Nat
  cost    : Option Nat
  deriving DecidableEq, Repr

/-- The estimates of R362 in the order of ties, with `n` units named on the die. -/
def State.estimates (s : State) (bs : List Nat) (n : Nat) : List Estimate :=
  let e := s.unitAge bs
  let left := (s.historyOf bs).map (fun h => h - e)
  let t := (n * s.bbOf bs + 255) / 256
  let det := (s.wavesOf bs).any (fun w => w.2.isDet)
  [⟨.drain, true, left, left⟩,
   ⟨.flush, !det && s.unitMayFlush bs, some 64, some (if s.unitIdle bs then 0 else e)⟩,
   ⟨.save, (s.beginSave bs 0 false 0 0 none).isSome, some (t + 64), some (2 * t + 64)⟩]

/-- The cheaper of two estimates, the first of equals; an infinite cost is above every other. -/
def Estimate.better (x y : Estimate) : Estimate :=
  match x.cost, y.cost with
  | none, some _ => y
  | some a, some b => if b < a then y else x
  | _, _ => x

/-- The cheapest of some estimates. -/
def cheapest : List Estimate → Option Estimate
  | [] => none
  | x :: rest => match cheapest rest with
    | none => some x
    | some y => some (x.better y)

/-- The assessor's choice (R363) at a tick with a bound: the method, and whether it meets the bound. -/
def assess (l : List Estimate) (now bound : Nat) : Option (Method × Bool) :=
  let legal := l.filter (·.legal)
  match cheapest (legal.filter (fun e => match e.latency with
      | some t => decide (now + t ≤ bound)
      | none => false)) with
  | some e => some (e.method, true)
  | none => (cheapest legal).map (fun e => (e.method, false))

/-- A named unit cut as the assessor decides. -/
def State.cutUnit (s : State) (g : Grid) (gid : Nat) (bs : List Nat) (n : Nat) : State :=
  let bound := g.arrived + 4000 * g.launch.bound
  match assess (s.estimates bs n) s.time bound with
  | none => s
  | some (m, meets_) =>
    let s := if meets_ then s else (s.log (.boundMissed gid)).countUnit (s.blockList bs) 0x35
    match m with
    | .drain => s.noteCut bs .drain bound g.launch.prio
    | .flush => s.flushUnit bs bound g.launch.prio
    | .save => match s.beginSave bs 0 false bound g.launch.prio none with
      | some (s, _) => s
      | none => s

/-! ## Naming victims (R360) -/

/-- The units of a partition that may be named for a priority, in the order of naming: lowest priority first,
then the most recently placed. -/
def State.nameable (s : State) (part prio : Nat) : List (List Nat) :=
  let blocks := s.blocks.filter (fun e => e.2.status == .resident && (s.cutOf e.1).isNone &&
    (match s.grids.get? e.2.grid with
      | some g => g.part == part && decide (g.launch.prio < prio)
      | none => false))
  let units := ((blocks.map (fun e => s.unitOf e.1)).eraseDups).filter (fun u => !s.unitFrozen u)
  let key := fun (u : List Nat) =>
    let prio := match (u.head?).bind (fun b => s.blocks.get? b) with
      | some x => (match s.grids.get? x.grid with
        | some g => g.launch.prio
        | none => 0)
      | none => 0
    let at_ := (u.filterMap (fun b => (s.blocks.get? b).map (fun x => x.placedAt))).foldl max 0
    (prio * 2 ^ 64 + (2 ^ 64 - 1 - min at_ (2 ^ 64 - 1))) * 2 ^ 64 + (2 ^ 64 - 1 - min (u.foldl max 0) (2 ^ 64 - 1))
  sortOn key units

/-- The machine without some blocks. -/
def State.without (s : State) (bs : List Nat) : State :=
  let t : State :=
    { s with rooms := [], blocks := s.blocks.filter (fun e => !bs.contains e.1), waves := s.waves.filter (fun e => !bs.contains e.2.block) }
  { t with regions := t.regions.filter (fun r => t.blocks.any (fun e => e.2.grid == r.2.grid &&
      (match t.launchOf e.2 with
        | some l => e.2.index / l.setsz == r.2.setId
        | none => false))) }

/-- The shortest run of units from the front of a list that makes room, given what is freed already. -/
def State.enough (s : State) (p : Partition) (gid : Nat) (g : Grid) : List Nat → List (List Nat) → Option (List (List Nat))
  | freed, [] => if (s.without freed).fitsNow p gid g then some [] else none
  | freed, u :: rest =>
    if (s.without freed).fitsNow p gid g then some []
    else (State.enough s p gid g (freed ++ u) rest).map (fun l => u :: l)

/-- The die of a unit's first block. -/
def State.unitDie (s : State) (bs : List Nat) : Nat :=
  match ((bs.head?).bind (fun b => s.blocks.get? b)).bind (fun x => x.halves.head?) with
  | some h => dieOf h.core
  | none => 4

/-- PREEMPT (R360 to R364): the victims that make room for a grid with a bound, each cut as its assessor
decides; none when cutting every unit that may be named would not make room. -/
def execPreempt (grid : Nat) (s : State) : Host.Outcome State Fault Refusal :=
  .next (match s.grids.get? grid with
    | none => s
    | some g =>
      match s.parts.get? g.part with
      | none => s
      | some p =>
        if g.launch.bound = 0 ∨ !s.hasWork p grid g ∨ !(s.func g.func).places then s
        else
          let going := s.cuts.flatMap (fun u => if u.state == .writing then u.blocks else [])
          match s.enough p grid g going (s.nameable g.part g.launch.prio) with
          | none => s
          | some victims =>
            let named := victims.map (fun u => (u, countIf (fun v => s.unitDie v == s.unitDie u) victims))
            named.foldl (fun s e => s.cutUnit g grid e.1 e.2) s)

/-! ## Cut points (R28, R134, R263, R285, R364, R392) -/

/-- A unit of an access that waits at an empty line (R285). -/
def State.waitingUnit (s : State) (o : MemOp) (u : MemUnit) : Bool :=
  u.phase == .issued && u.since != 0 && s.waitsHere o u

/-- A wave has an access that waits at an empty line. -/
def State.waveWaits (s : State) (w : Wave) : Bool := w.memOps.any (fun o => o.units.any (s.waitingUnit o))

/-- A word is WAITF and one of its flags is not zero (R122). -/
def Wave.atWaitf (w : Wave) (x : Slice) : Bool :=
  let word := x.cl.getD x.word 0
  opcodeOf word == 0x0F && (bitsOf (word.extractLsb' 8 4 ++ word.extractLsb' 16 8)).any (fun n => w.flag n != 0)

/-- A slice stands where its wave may be cut: ended, parked, held or frozen; at the start of a clause with PP (any
clause for REASON 2); or stalled behind an access that waits at an empty line. -/
def State.sliceCut (s : State) (k : Nat) (w : Wave) (reason i : Nat) (x : Slice) : Bool :=
  if x.ended || x.held || x.park != .none || (w.frozen && x.word == 0) then true
  else if x.word = 0 then
    reason == 2 || (match s.fetchWord w x.pc.toNat with
      | some h => hdrPP h || (s.waveWaits w && (s.untracked k w (w.gangOf i) || (hdrWait h).any (fun n => w.flag n != 0)))
      | none => false)
  else s.waveWaits w && w.atWaitf x

/-- The rounds of a wave's launch stand between two rounds (R392). -/
def State.betweenRounds (s : State) (w : Wave) : Bool :=
  match (s.blocks.get? w.block).bind (fun b => (s.grids.get? (s.rootGrid b.grid)).bind (fun g => g.det)) with
  | some d => !d.started
  | none => true

/-- An operation is an MMAK. -/
def TileOp.isMmak (o : TileOp) : Bool :=
  match o.kind with
  | .mmak => true
  | _ => false

/-- The tile operations that cannot complete: those that wait at an empty line, and those behind one on its tiles. -/
def stuckTops : List TileOp → List TileOp → List TileOp
  | [], stuck => stuck
  | o :: rest, stuck =>
    if o.since.isSome || stuck.any (fun t => t.tiles.any (fun i => o.tiles.contains i)) then stuckTops rest (stuck ++ [o])
    else stuckTops rest stuck

/-- A later operation of the half waits for an operation's effects on its tiles. -/
def Half.awaited (h : Half) (o : TileOp) : Bool :=
  ((h.tops.dropWhile (fun t => t.id != o.id)).drop 1).any (fun t => t.tiles.any (fun i => o.tiles.contains i))

/-- A tile operation that a cut need not wait for: one that cannot complete, or an MMAK, which stops between its steps,
unless another operation that is to complete first waits behind it (R208). -/
def Half.stays (h : Half) (o : TileOp) : Bool :=
  (stuckTops h.tops []).any (fun t => t.id == o.id) || (o.isMmak && !h.awaited o)

/-- A wave has reached its cut point and its counted operations have completed. -/
def State.waveCut (s : State) (k : Nat) (w : Wave) (reason : Nat) : Bool :=
  let quiet := w.specials.isEmpty &&
    w.memOps.all (fun o => o.kind.isProbe || (o.units.any MemUnit.out &&
      o.units.all (fun u => !u.out || s.waitingUnit o u))) &&
    !s.fabops.any (fun x => x.wave == k) &&
    (s.half w.block w.half).tops.all (fun t => t.wave != k || (s.half w.block w.half).stays t) &&
    (match s.cur with
      | some i => i.wave != k
      | none => true)
  let at_ := if w.isDet then s.betweenRounds w
    else ((w.slices.mapIdx (fun i x => (i, x))).all (fun e => s.sliceCut k w reason e.1 e.2)) && w.fencing.isNone
  quiet && (w.ended || at_)

/-- Every wave of a unit has reached its cut point, and no transfer holds a segment in flight (R313). -/
def State.unitCut (s : State) (u : CutUnit) : Bool :=
  (s.wavesOf u.blocks).all (fun e => s.waveCut e.1 e.2 u.reason) &&
  s.xfers.all (fun x => match x.block with
    | some b => !u.blocks.contains b || (x.perf.isNone && !x.buffered)
    | none => true)

/-! ## What a save takes (R208, R285, R313, R367, R371) -/

/-- The tile operations that a cut withdraws: those that cannot complete, but for an MMAK, which is saved with its record
as it stands (R208). -/
def withdrawnTops (l : List TileOp) : List TileOp := (stuckTops l []).filter (fun o => !o.isMmak)

/-- A half whose withdrawn tile operations are taken out; an MMAK that stays waits anew after the resume. -/
def Half.withdraw (h : Half) : Half :=
  let gone := withdrawnTops h.tops
  { h with tops := (h.tops.filter (fun t => !gone.any (fun o => o.id == t.id))).map (fun t => { t with since := .none }) }

/-- What a save keeps of a wave: its waiting accesses and tile operations become replays, a parked tile
instruction's slices are parked no longer, its registers outside the live map read zero, and its monitors
count as fired (R208, R285, R286, R367). -/
def State.savedWave (s : State) (k : Nat) (w : Wave) (lv : BitVec 192) : Wave :=
  let live := w.liveRegs lv
  let gone := (withdrawnTops (s.half w.block w.half).tops).filter (fun t => t.wave == k)
  let loads := (w.memOps.filter (fun o => !o.kind.isProbe)).map (fun o : MemOp =>
    (⟨o.gang, o.src, maskOf 64 ((o.units.filter MemUnit.out).map (·.lane)), o.flag, false⟩ : Replay))
  let tiles := gone.map (fun t : TileOp => (⟨t.gang, t.src, t.lanes, t.flag, false⟩ : Replay))
  let w := w.unpark (fun p => match p with
    | .tile _ _ op => gone.any (fun t => t.id == op)
    | _ => false)
  let w := match w.monitor with
    | .off => w
    | _ => w.fireMonitor s.time
  let w := match w.heldMonitor with
    | none | some .off => w
    | some _ => w.fireHeld s.time
  { w with
    v := w.v.filter (fun e => live.contains (e.1 / 64))
    vpoison := w.vpoison.filter (fun e => live.contains (e / 64))
    memOps := [], latch := none
    replay := w.replay ++ sortOn (fun r : Replay => r.src.ord) (loads ++ tiles)
    slices := w.slices.map (fun x =>
      { x with age := 0, quiet := 0, stalled := none, stood := 0, redirect := false, woken := none }) }

/-- What a save keeps of a block: its counters, and of its channels only those that run, with each one's freeze (R371,
R429, R465). -/
def State.savedBlock (s : State) (x : Block) : Block :=
  { x with runt := s.runTime x, placedAt := s.time, charge := 0, parkedInPlace := none, halves := x.halves.map Half.withdraw
           chans := x.chans.map (fun c => if c.run then c else { Channel.stopped with frozen := c.frozen }) }

/-- The bytes of a private copy belong to a wave of a list. -/
def privateOf (ws : List (Nat × Wave)) (line : Nat) : Bool :=
  ws.any (fun e => decide (2 ^ 44 ≤ line) && decide (privCell e.2.waveid 0 0 ≤ 128 * (line - 2 ^ 44)) &&
    decide (128 * (line - 2 ^ 44) < privCell e.2.waveid 0 0 + 2 ^ 24))

/-- The copies of the private lines of some waves dropped everywhere. -/
def State.dropPrivateCopies (s : State) (ws : List (Nat × Wave)) : State :=
  { s with
    cores := s.cores.mapVals (fun _ c => { c with l1 := c.l1.filter (fun e => !privateOf ws e.line) })
    dies := s.dies.map (fun d => { d with l2 := d.l2.filter (fun e => !privateOf ws e.line) })
    fills := s.fills.filter (fun f => !privateOf ws f.line) }

/-! ## Publication (R374) -/

/-- A unit's cairn bodies and the last fields of its descriptors written: the bytes that each body takes. The unit's
waves and blocks stand as they are saved. -/
def State.writeBodies (s : State) (maps : Table (BitVec 192)) (u : CutUnit) (p : Partition) : State × List (Nat × Nat) :=
  ((s.unitHalves u.blocks).zip (u.descs.zip u.bodies)).foldl (fun r c =>
    let (t, l) := r
    let ((b, x, i, h), d, body, _) := c
    let image := s.halfImage maps u.blocks b x i h
    let n := image.length / 128
    let units := (List.range n).map (fun k => (image.drop (128 * k)).take 128)
    let zero := fun (x : List Byte) => x.all (· == 0)
    let map := padUnit (bitmapBytes ((n + 7) / 8 * 8) (fun k => match units[k]? with
      | some x => zero x
      | none => false))
    let raw := units.filter (fun x => !zero x)
    let bytes := map ++ raw.flatten
    let t := t.physStore body bytes
    let t := ((t.physWord (p.descAddress d + 0x20) 4 n).physWord (p.descAddress d + 0x24) 4 raw.length).physWord
      (p.descAddress d + 0x38) 8 s.time
    (t, l ++ [(body, (bytes.length + 4095) / 4096 * 4096)])) (s, [])

/-- The machine with a unit's waves and blocks as a save keeps them. -/
def State.asSaved (s : State) (waves : Table Wave) (blocks : Table Block) : State :=
  { s with
    waves := s.waves.mapVals (fun k w => (waves.get? k).getD w)
    blocks := s.blocks.mapVals (fun b x => (blocks.get? b).getD x) }

/-- A unit's cairns published, and its resources freed; the image is what the unit held at its cut (R364, R369,
R374). Its waves keep their save slots (R348). A unit of a grid that is being cut is freed at once (R364). -/
def State.publish (s : State) (u : CutUnit) : State :=
  match s.parts.get? u.part with
  | none => s
  | some p =>
    let ws := s.wavesOf u.blocks
    let bs := u.blocks.filterMap (fun b => (s.blocks.get? b).map (fun x => (b, x)))
    let maps := ws.map (fun e => (e.1, s.liveMap e.2))
    let waves := ws.map (fun e => (e.1, s.savedWave e.1 e.2 (Table.getD maps e.1 0)))
    let saved := bs.map (fun e => (e.1, s.savedBlock e.2))
    let (s', bodies) := ((s.openCairns u).asSaved waves saved).writeBodies maps u p
    let n := bodies.length
    let mine := fun (r : Nat × Region) => bs.any (fun e => e.2.grid == r.2.grid &&
      (match s.launchOf e.2 with
        | some l => l.setsz != 1 && e.2.index / l.setsz == r.2.setId
        | none => false) && e.2.halves.any (fun h => h.core == r.2.core))
    let xs := s.xfers.filter (fun x => match x.block with
      | some b => u.blocks.contains b
      | none => false)
    let st : CairnState := if u.hold then .held else .published
    let v := { u with
      blocks := [], state := st, descs := u.descs.take n, bodies, waves, saved
      regions := s.regions.filter mine
      xfers := xs.map (fun x => { x with eased := false, paid := false, since := none, want := none, got := none })
      frames := (ws.filter (fun e => e.2.trapped && !e.2.ended)).map (fun e =>
        (e.1, s.funcImage e.2.func (s.slotAddress e.2) 1024)) }
    let s := s'
    let s := xs.foldl (fun s x => s.endEasements x.core x.id) s
    let level := match s.grids.get? u.grid with
      | some g => g.launch.prio
      | none => 0
    let s := s.modPart u.part (fun p =>
      let p := bs.foldl (fun p e => p.post level u.func e.2.cycles) p
      { p with heap := (p.heap.filter (fun e => !u.bodies.any (fun b => b.1 == e.1))) ++ bodies
               descs := p.descs.filter (fun d => !(u.descs.drop n).contains d) })
    let s : State := { s with
      waves := s.waves.filter (fun e => !u.blocks.contains e.2.block)
      blocks := s.blocks.filter (fun e => !u.blocks.contains e.1)
      regions := s.regions.filter (fun r => !mine r)
      xfers := s.xfers.filter (fun x => !xs.any (fun y => y.id == x.id))
      cuts := s.cuts.map (fun x => if x.id = u.id then v else x) }
    let s := (u.descs.drop n).foldl (fun s d => s.physWord (p.descAddress d + 0x08) 8 0) s
    let s := ((s.dropPrivateCopies ws).setCairns v st).checkBound u (bs.map (·.2))
    let cut := match s.grids.get? u.grid with
      | some g => g.cutting
      | none => true
    if cut then s.dropUnit v else s

/-- The time in which a CTX_SAVE or a CTX_RESTORE may still retire has passed (R425). -/
def Func.ctxLate (f : Func) (now : Nat) : Bool := f.switching.any (fun t => decide (t + 200000 < now))

/-- The cut units of one CTX_SAVE. -/
def State.listUnits (s : State) (k : Nat × Nat × Nat) : List CutUnit := s.cuts.filter (fun u => u.listOf == some k)

/-- The addresses of the descriptors of some units. -/
def State.descsOf (s : State) (l : List CutUnit) : List Nat :=
  l.flatMap (fun u => match s.parts.get? u.part with
    | some p => u.descs.map p.descAddress
    | none => [])

/-- A fault record after its unit's save was given up: it holds its block in place (R359). -/
def FaultRec.inPlace (r : FaultRec) (u : CutUnit) : FaultRec := if r.unit = some u.id then { r with unit := none } else r

/-- A save given up before publication: its cairns are freed and its unit goes on where it is; a block of it whose fault is
still to be acknowledged is held in place, and another's gangs go on (R359, R423). -/
def State.dropSave (s : State) (u : CutUnit) : State :=
  let holds := fun (b : Nat) => ((s.func u.func).faults.find? (fun r => r.unit == some u.id && r.block == some b)).map (·.seq)
  let s := u.blocks.foldl (fun s b => match holds b with
    | some seq => s.modBlock b (fun x => { x with parkedInPlace := some (x.parkedInPlace.getD seq) })
    | none => s.mapWaves (fun _ w => w.block == b) Wave.release) s
  (s.modFunc u.func (fun f => { f with faults := f.faults.map (fun r => r.inPlace u) })).freeUnit u.id

/-- The words of a CTX_SAVE's list written: the count and the descriptor addresses (R423). -/
def State.writeList (s : State) (f a : Nat) : List Nat → State × Except Cause Unit
  | [] => (s, .ok ())
  | x :: rest =>
    match s.writeFor f a 8 x with
    | (s, .ok ()) => State.writeList s f (a + 8) rest
    | (s, .error c) => (s, .error c)

/-- A CTX_SAVE whose units are all at their cut points (R423): all are published HELD in one step and its list is
written, or, beyond MAXN cairns, all go on running. -/
def State.publishList (s : State) (k : Nat × Nat × Nat) : State :=
  let (f, q, n) := k
  let units := s.listUnits k
  let total := ((units.map (fun u => (s.unitHalves u.blocks).length)).foldl (· + ·) 0)
  match s.rec? f q n with
  | none => s
  | some r =>
    if natBits (r.word 0x18) 0 16 < total then
      let s := units.foldl (fun s u => s.dropSave u) s
      (s.modFunc f (fun x => { x with saving := false })).retire f q n stBadRecord 0 0
    else
      let s := units.foldl (fun s u => if u.blocks.isEmpty then s.freeUnit u.id else s.publish u) s
      let left := s.listUnits k
      let addrs := s.descsOf left
      let s : State := { s with cuts := s.cuts.map (fun u => if u.listOf = some k then { u with listOf := none } else u) }
      match s.writeList f (r.dword 0x10) (addrs.length :: addrs) with
      | (s, .ok ()) => s.retire f q n stOK 0 0
      | (s, .error c) => s.retire f q n stFaulted c.code 0

/-- CAIRN_PUBLISH (R374, R423): a unit that stands at its cut points is written and published; the units of one
CTX_SAVE are published together, within 200,000 ticks of a request to switch its function out (R425). -/
def execCairnPublish (unit : Nat) (s : State) : Host.Outcome State Fault Refusal :=
  .next (match s.cuts.find? (fun u => u.id == unit && u.method == .save && u.state == .writing) with
    | none => s
    | some u =>
      match u.listOf with
      | some k =>
        if !(s.func k.1).ctxLate s.time && (s.listUnits k).all s.unitCut then s.publishList k else s
      | none => if s.unitCut u then s.publish u else s)

end Sys2Proof.Machine
end

