-- ==== Sys2Proof/Machine/Image.lean ====
section
/-! DEFINITION. A cairn read back (R371 to R375, R465): the units of its body, and what each section of the image gives
the waves, blocks, regions and transfers of a unit that is resumed. -/

namespace Sys2Proof.Machine

/-! ## The body (R374) -/

/-- A field of `n` bytes at an offset. -/
def fieldAt (l : List Byte) (off n : Nat) : Nat := leNat ((l.drop off).take n)

/-- A bit of a field's byte. -/
def flagAt (l : List Byte) (off i : Nat) : Bool := (fieldAt l (off + i / 8) 1).testBit (i % 8)

/-- The 128-byte units at a physical address of the heap. -/
def State.physUnits (s : State) (pa n : Nat) : List Byte :=
  (List.range n).flatMap (fun i => match namedOf (pa + 128 * i) with
    | some a => s.hbm.bytes a 128
    | none => List.replicate 128 0)

/-- The image that a zero bitmap and the raw units give: a unit whose bit is set is zero. -/
def unpackUnits (map : Nat → Bool) : Nat → Nat → List Byte → List Byte
  | 0, _, _ => []
  | n + 1, i, raw =>
    if map i then List.replicate 128 0 ++ unpackUnits map n (i + 1) raw
    else raw.take 128 ++ unpackUnits map n (i + 1) (raw.drop 128)

/-- The image of a cairn: what its descriptor and its body hold now. -/
def State.cairnImage (s : State) (p : Partition) (d : Nat) : List Byte :=
  let desc := s.physUnits (p.descAddress d / 128 * 128) 1
  let at_ := p.descAddress d % 128
  let n := fieldAt desc (at_ + 0x20) 4
  let raw := fieldAt desc (at_ + 0x24) 4
  let body := fieldAt desc (at_ + 0x28) 8
  let maps := (n + 1023) / 1024
  let bytes := s.physUnits body (maps + raw)
  unpackUnits (flagAt bytes 0) n 0 (bytes.drop (128 * maps))

/-- A line of a cairn's body is poisoned (R438). -/
def State.cairnPoisoned (s : State) (u : CutUnit) : Bool :=
  u.bodies.any (fun b => (List.range (b.2 / 128)).any (fun i => match namedOf (b.1 + 128 * i) with
    | some a => s.hpoison.contains (a / 128)
    | none => false))

/-! ## The sections of the image (R371 to R373, R465) -/

/-- A sparse store of some values, whose keys rise. -/
def cellsOf {n : Nat} (l : List (Nat × Nat)) : ZMap n :=
  (l.map (fun e => (e.1, BitVec.ofNat n e.2))).filter (fun e => e.2 != 0)

/-- The five completion times at an offset. -/
def timesAt (l : List Byte) (off : Nat) : Times :=
  ⟨fieldAt l off 8, fieldAt l (off + 8) 8, fieldAt l (off + 16) 8, fieldAt l (off + 24) 8, fieldAt l (off + 32) 8⟩

/-- A slice of its four units (R373); one that resumes inside a clause fetches it again (R353). -/
def Slice.ofImage (x : Slice) (l : List Byte) : Slice :=
  let f := fieldAt l
  { x with
    pc := BitVec.ofNat 64 (f 0x00 8), rjt := BitVec.ofNat 16 (f 0x08 2), rjc := BitVec.ofNat 48 (f 0x0A 6)
    lm := BitVec.ofNat 4 (f 0x10 1), ex := BitVec.ofNat 4 (f 0x10 1 / 16), rsd := f 0x11 1 % 32
    rgm := BitVec.ofNat 16 (f 0x12 2), word := f 0x15 1, cl := [], times := timesAt l 0x18
    rs := (List.range 16).map (fun n => ⟨BitVec.ofNat 64 (f (0x80 + 24 * n) 8), BitVec.ofNat 64 (f (0x88 + 24 * n) 8),
      BitVec.ofNat 4 (f (0x90 + 24 * n) 1), BitVec.ofNat 4 (f (0x90 + 24 * n) 1 / 16)⟩) }

/-- A wave's state of its two units (R373). -/
def Wave.ofState (w : Wave) (l : List Byte) : Wave :=
  let f := fieldAt l
  { w with
    p := cellsOf ((List.range 8).map (fun i => (i, f (8 * i) 8)))
    md := BitVec.ofNat 32 (f 0x40 4), fx := BitVec.ofNat 7 (f 0x44 4), flags := (List.range 12).map (fun i => f (0x48 + i) 1)
    lease := f 0x54 4, ab := BitVec.ofNat 32 (f 0x58 4), al := BitVec.ofNat 32 (f 0x5C 4)
    priv := flagAt l 0x60 0, idem := flagAt l 0x60 1, side := flagAt l 0x60 2, inHandler := flagAt l 0x60 3
    hintValid := flagAt l 0x60 4, mr := flagAt l 0x60 5, trapped := flagAt l 0x60 7, times := timesAt l 0x68
    waveid := BitVec.ofNat 64 (f 0xA8 8), ot0 := BitVec.ofNat 18 (f 0xC0 4), ot1 := BitVec.ofNat 18 (f 0xC4 4)
    mrs := BitVec.ofNat 16 (f 0xC8 4), hint := BitVec.ofNat 192 (f 0xCC 24)
    replay := match w.replay with
      | r :: rest => { r with lanes := BitVec.ofNat 64 (f 0xB8 8) } :: rest
      | [] => [] }

/-- A wave of its units from its scalar registers on: the registers that the live map names are there, the others read
zero (R367, R373). -/
def Wave.ofImage (w : Wave) (l : List Byte) : Wave :=
  let st := l.drop 512
  let sl := st.drop 256
  let regs := sl.drop (512 * w.slices.length)
  let live := w.liveRegs (BitVec.ofNat 192 (fieldAt st 0x90 24))
  let w := w.ofState st
  { w with
    s := cellsOf ((List.range 128).map (fun i => (i, fieldAt l (4 * i) 4)))
    slices := w.slices.mapIdx (fun i x => x.ofImage (sl.drop (512 * i)))
    mp := (w.slices.mapIdx (fun i _ => BitVec.ofNat 64 (fieldAt sl (512 * i + 0x14) 1 % 16 * 2 ^ (4 * i)))).foldl (· ||| ·) 0
    v := cellsOf ((live.mapIdx (fun i r => (List.range w.width).map (fun x =>
      (vKey r x, fieldAt regs (4 * (i * w.width + x)) 4)))).flatten) }

/-- The units of a saved wave: those of its image with the live map that it holds. -/
def Wave.savedUnits (w : Wave) (l : List Byte) : Nat :=
  waveUnits w (w.liveRegs (BitVec.ofNat 192 (fieldAt l (1024 + 512 + 0x90) 24))).length

/-- A benchmark record of its 32 bytes (R206). -/
def Bench.ofNat (x : Nat) : Bench :=
  { run := x.testBit 31, val := x.testBit 30, done := natBits x 16 7, sat := x.testBit 8, sgnb := x.testBit 7
    sgna := x.testBit 6, nkm := natBits x 0 6, widx := natBits x 48 6, rows := BitVec.ofNat 16 (natBits x 32 16)
    anext := BitVec.ofNat 64 (natBits x 64 64), bnext := BitVec.ofNat 64 (natBits x 128 64)
    fb0 := BitVec.ofNat 32 (natBits x 192 32), fb1 := BitVec.ofNat 32 (natBits x 224 32) }

/-- The touched lines that an image names from its full/empty map on. -/
def touchedAt (l : List Byte) : List Nat := (List.range 8192).filter (flagAt l 1024)

/-- The units of the scratchpad and tile sections of a half. -/
def Half.savedUnits (h : Half) (l : List Byte) : Nat := 16 + (touchedAt l).length + 32 + 8 * h.acct + (h.acct + 3) / 4

/-- A half of its scratchpad and tile sections (R371): restored lines are touched, and every line's full/empty bit is that
of the map (R375). -/
def Half.ofImage (h : Half) (l : List Byte) : Half :=
  let touched := touchedAt l
  let lines := l.drop 2048
  let own := lines.drop (128 * touched.length)
  let tiles := own.drop 4096
  let bench := tiles.drop (1024 * h.acct)
  { h with
    touched, empty := (List.range h.scrl).filter (fun k => !flagAt l 0 k)
    scratch := cellsOf ((touched.mapIdx (fun i k => (List.range 128).map (fun b =>
      (128 * k + b, fieldAt lines (128 * i + b) 1)))).flatten)
    tokens := (List.range h.acct).filterMap (fun t => if flagAt own t 7 then Option.none else some (t, fieldAt own t 1 % 64))
    tiles := cellsOf ((List.range h.acct).flatMap (fun t => (List.range 256).map (fun e =>
      (256 * t + e, fieldAt tiles (1024 * t + 4 * e) 4))))
    bench := (List.range h.acct).filterMap (fun t =>
      let x := fieldAt bench (32 * t) 32
      if x = 0 then Option.none else some (t, Bench.ofNat x)) }

/-- A transfer of its unit (R465). -/
def Transfer.ofImage (x : Transfer) (l : List Byte) : Transfer :=
  { x with
    desc := x.desc.mapIdx (fun i _ => BitVec.ofNat 32 (fieldAt l (4 * i) 4))
    segs := x.segs - x.segs % 2 ^ 24 + fieldAt l 0x30 4 % 2 ^ 24, recs := fieldAt l 0x38 4
    cur := BitVec.ofNat 64 (fieldAt l 0x40 8) }

/-- A block's counters and barriers of its block section (R372). -/
def Block.ofImage (x : Block) (l : List Byte) : Block :=
  { x with
    runt := fieldAt l 0x20 8, reti := fieldAt l 0x28 8, kstep := fieldAt l 0x30 8, xbytes := fieldAt l 0x38 8
    barb := x.barb.mapIdx (fun n b => { b with arrived := BitVec.ofNat 64 (fieldAt l (0x48 + 8 * n) 8), phase := flagAt l 0xE8 n })
    barc := x.barc.mapIdx (fun n b =>
      { b with arrived := BitVec.ofNat 64 (fieldAt l (0xC8 + 8 * n) 8), phase := flagAt l 0xE8 (16 + n) }) }

/-! ## A unit read back (R375) -/

/-- A unit with one wave of its image. -/
def CutUnit.takeWave (u : CutUnit) (k : Nat) (w : Wave) (l : List Byte) : CutUnit :=
  let v := w.ofImage (l.drop 1024)
  { u with waves := u.waves.set k v, frames := if v.trapped && !v.ended then u.frames.set k (l.take 1024) else u.frames }

/-- A unit with the waves of a half, from the front of some bytes; and the bytes that follow them. -/
def CutUnit.takeWaves (u : CutUnit) (l : List Byte) : List (Nat × Wave) → CutUnit × List Byte
  | [] => (u, l)
  | (k, w) :: rest => CutUnit.takeWaves (u.takeWave k w l) (l.drop (128 * w.savedUnits l)) rest

/-- A unit with its transfers of a half. -/
def CutUnit.takeXfers (u : CutUnit) (l : List Byte) : List Transfer → CutUnit × List Byte
  | [] => (u, l)
  | x :: rest =>
    CutUnit.takeXfers { u with xfers := u.xfers.map (fun y => if y.id = x.id then y.ofImage l else y) } (l.drop 128) rest

/-- The region that the cairn of a half holds (R371): that of its core, in the cairn of the lowest set position there. -/
def CutUnit.regionOf (u : CutUnit) (x : Block) (h : Half) (setsz : Nat) : Option (Nat × Region) :=
  match u.saved.find? (fun e => e.2.index / setsz == x.index / setsz && e.2.halves.any (fun y => y.core == h.core)) with
  | some e => if e.2.index = x.index then
      u.regions.find? (fun r => r.2.setId == x.index / setsz && r.2.core == h.core) else none
  | none => none

/-- A unit with one half of one block as its image gives them. -/
def CutUnit.takeHalf (u : CutUnit) (setsz b i : Nat) (x : Block) (h : Half) (l : List Byte) : CutUnit :=
  let ws := x.waves.filterMap (fun k => (u.waves.get? k).bind (fun w => if w.half = i then some (k, w) else none))
  let (v, l') := u.takeWaves (l.drop 256) ws
  let (v, rest) := v.takeXfers (l'.drop (128 * h.savedUnits l')) (v.xfers.filter (fun y => y.block == some b && y.half == i))
  let v := { v with saved := v.saved.update b (fun y => (y.ofImage l).modHalf i (fun h => h.ofImage l')) }
  match u.regionOf x h setsz with
  | some (k, r) =>
    { v with regions := v.regions.set k { r with
        bytes := cellsOf ((List.range r.size).map (fun a => (a, fieldAt rest a 1))) } }
  | none => v

/-- A unit as its cairns give it now. -/
def State.readBack (s : State) (u : CutUnit) (setsz : Nat) : CutUnit :=
  match s.parts.get? u.part with
  | none => u
  | some p =>
    let halves := u.saved.flatMap (fun e => e.2.halves.mapIdx (fun i h => (e.1, e.2, i, h)))
    (halves.zip u.descs).foldl (fun u e => u.takeHalf setsz e.1.1 e.1.2.2.1 e.1.2.1 e.1.2.2.2 (s.cairnImage p e.2)) u

end Sys2Proof.Machine
end

