-- ==== Sys2Proof/Machine/Resume.lean ====
section
/-! DEFINITION. Resuming saved units (R375), CTXSV and CTXRS (R376, R377), the acknowledgement of fault
records (R420), the delivery and the retrying of traps (R348, R358, R359), the waits that run out (R285) and
the completion of counted special functions (R31, R148). -/

namespace Sys2Proof.Machine

/-! ## Resumption (R375) -/

/-- The place of a load: that of a core of a set. -/
def placeOf (places : List LoadPlace) (set old : Nat) : Option LoadPlace :=
  places.find? (fun e => e.1.set == set && e.1.old == old)

/-- The new core of an old one of a set. -/
def newCore (places : List LoadPlace) (set old : Nat) : Nat :=
  match placeOf places set old with
  | some e => e.2.1
  | none => old

/-- The quadrant and slot of a wave. -/
def waveSeat (places : List LoadPlace) (k : Nat) : Nat × Nat :=
  match places.findSome? (fun e => (e.1.waves.idxOf? k).bind (fun i => e.2.2[i]?)) with
  | some x => x
  | none => (0, 0)

/-- One saved wave put back at its new seat, with the frame in its save slot (R348, R371). -/
def State.putWave (s : State) (u : CutUnit) (places : List LoadPlace) (set k : Nat) (w : Wave) : State :=
  let (quad, slot) := waveSeat places k
  let core := newCore places set w.core
  if w.ended then { s with waves := s.waves.set k { w with core } }
  else
    let w := s.thaw { w.release with core, quad, slot }
    let s : State := { s with waves := s.waves.set k w }
    match u.frames.get? k with
    | some l => (s.funcBytes w.func (s.slotAddress w) l).1
    | none => s

/-- A saved unit restored at its new place from what its cairns hold now: its blocks, waves, regions, which keep their slot
numbers (R224), and transfers with their easements; then its cairns are FREE. A poisoned line in a body ends the unit by a
fatal HW_ERR once it is placed (R438; DESIGN CHOICE, assumption 149). -/
def State.restore (s : State) (u : CutUnit) (g : Grid) (places : List LoadPlace) : State :=
  let setsz := g.launch.setsz
  let bad := s.cairnPoisoned u
  let u := s.readBack u setsz
  let setOf := fun (b : Nat) => match u.saved.get? b with
    | some x => x.index / setsz
    | none => 0
  let s := s.setCairns u .resuming
  let s := u.saved.foldl (fun s e =>
    let i := e.2.index / setsz
    s.setBlock e.1 { e.2 with
      placedAt := s.time, halves := e.2.halves.map (fun h => { h with core := newCore places i h.core }) }) s
  let s := u.waves.foldl (fun s e => s.putWave u places (setOf e.2.block) e.1 e.2) s
  let s := u.regions.foldl (fun s e =>
    let c := newCore places e.2.setId e.2.core
    { s with regions := s.regions.set e.1 { e.2 with core := c, die := dieOf c, cluster := clusterOf c } }) s

  let s := u.xfers.foldl (fun s x =>
    let i := match x.block with
      | some b => setOf b
      | none => 0
    let y : Transfer := { x with core := newCore places i x.core }
    let s : State := { s with xfers := s.xfers ++ [{ y with eased := !y.chain || y.loaded }] }
    if y.chain && !y.loaded then s else s.addEases y.core (opEases (s.xferDecoder y) y.id y.func y.op y.desc)) s
  let s := (s.freeUnit u.id).releaseBarwt
  if bad then (u.saved.map (·.1)).foldl (fun s b => s.fatalBlock b none .hwErr) s else s

/-- CAIRN_RESUME (R102, R375): the arbiter's choice is a saved unit, and it is placed and restored. -/
def execCairnResume (unit : Nat) (s : State) : Host.Outcome State Fault Refusal :=
  .next (match s.cuts.find? (fun u => u.id == unit && u.resumable) with
    | none => s
    | some u =>
      match s.arbiter u.part with
      | none => s
      | some (gid, g, p) =>
        if (s.toResume gid).map (·.id) ≠ some unit then s
        else
          match s.placeSaved p g u with
          | none => s
          | some places =>
            let last := (places.getLast?).map (fun e => e.2.1)
            let p := match last.bind (fun c => p.cores.idxOf? c) with
              | some i => { p with pointer := (i + 1) % p.cores.length }
              | none => p
            s.tookRooms (({ s with parts := s.parts.set u.part p }).restore u g places))

/-! ## CTXSV and CTXRS (R376, R377) -/

/-- The decode checks of CTXSV. -/
def ctxsvChecks (d a : VCode) (c : Ctx) : Checks :=
  Checks.all [Checks.privileged, Checks.when d.isEvenS,
    c.sourceOf (fun x => x.isSLit || x == .zero || x == .one) (.data 1) a]

/-- CTXSV (R376): the issuing block's unit is saved with REASON 2. The word waits while the heap has no room
(R369); a unit already under a cut keeps its method (R364). -/
def execCtxsv (d a : VCode) (s : State) : Host.Outcome State Fault Refusal :=
  issueChecked s (ctxsvChecks d a)
    (fun c =>
      let hold := c.operand (.data 1) a 0 % 2 = 1
      let put := fun (s : State) (x : Nat) => Res.next (s.modWave c.key (fun w => w.swrite d.sNum 2 x))
      match s.cutOf c.w.block with
      | some u => put s (if u.method = .save then s.cairnOf u c.w.block else 0)
      | none =>
        match s.beginSave (s.unitOf c.w.block) 2 hold 0 0 none with
        | none => .stall
        | some (s, u) => put s (s.cairnOf u c.w.block))

/-- The saved or saving unit that a descriptor of a partition belongs to. -/
def State.unitAt (s : State) (part addr : Nat) : Option CutUnit :=
  match s.parts.get? part with
  | none => none
  | some p => s.cuts.find? (fun u => u.part == part && u.descs.any (fun d => p.descAddress d == addr))

/-- The address is that of a descriptor of a partition. -/
def State.isDesc (s : State) (part addr : Nat) : Bool :=
  match s.parts.get? part with
  | none => false
  | some p => decide (p.cairnBase ≤ addr) && decide (addr < p.cairnBase + 262144) && (addr - p.cairnBase) % 64 == 0

/-- A unit's HELD cairns made PUBLISHED. -/
def State.releaseUnit (s : State) (u : CutUnit) : State :=
  let s : State := { s with cuts := s.cuts.map (fun x => if x.id = u.id then { x with hold := false, loose := [] } else x) }
  s.setCairns u .published

/-- The decode checks of CTXRS. -/
def ctxrsChecks (d a : VCode) (c : Ctx) : Checks :=
  Checks.all [Checks.privileged, Checks.when d.isS, c.baseAddress a]

/-- CTXRS (R377). -/
def execCtxrs (d a : VCode) (s : State) : Host.Outcome State Fault Refusal :=
  issueChecked s (ctxrsChecks d a)
    (fun c =>
      let addr := c.addressOf a 0
      let put := fun (s : State) (x : Nat) => Res.next (s.modWave c.key (fun w => w.swrite d.sNum 1 x))
      if !s.isDesc c.w.part addr then put s 1
      else
        match s.unitAt c.w.part addr with
        | some u => if u.state = .held ∧ u.loose = [] then put (s.releaseUnit u) 0 else put s 2
        | none => put s 2)

/-! ## Acknowledging a fault record (R359, R420) -/

/-- A block that a retried fault held in place goes on. -/
def State.releaseBlock (s : State) (b : Nat) : State :=
  (s.modBlock b (fun x => { x with parkedInPlace := none })).mapWaves (fun _ w => w.block == b) Wave.release

/-- A fault record acknowledged: its cairns become PUBLISHED, or its block that is held in place goes on (R359, R420). -/
def State.ackFault (s : State) (f seq : Nat) : State :=
  match (s.func f).faults.find? (fun r => r.seq == seq) with
  | none => s
  | some r =>
    let s := s.modFunc f (fun x => { x with faults := x.faults.filter (fun y => y.seq != seq) })
    match r.unit, r.block with
    | some id, _ => (match s.cuts.find? (fun u => u.id == id) with
      | some u => if u.state = .held then s.releaseUnit u
        else { s with cuts := s.cuts.map (fun x => if x.id = id then { x with hold := false } else x) }
      | none => s)
    | none, some b => s.releaseBlock b
    | none, none => s

/-! ## Retried faults (R358, R359) -/

/-- A cause that a host can repair: a page that is not present, or a PERMISSION that R232 raised within the
grant, and not one of ESND or ERCV. -/
def State.repairable (s : State) (w : Wave) (c : LaneCause) : Bool :=
  match c.cause with
  | .pageNotPresent => !c.malf
  | .permission =>
    !(List.contains [0xB8, 0xB9] (opcodeOf c.src.word)) && c.faddr.toNat / 2 ^ 56 == 0 &&
    (match (s.walk w.func c.faddr.toNat).result c.faddr.toNat ⟨true, false, w.priv⟩ with
      | .fault _ _ out => !out
      | .ok _ _ => true)
  | _ => false

/-- A trap that is retried, not delivered (R358). -/
def State.retries (s : State) (w : Wave) (t : TrapDue) : Bool :=
  (s.func w.func).retry && !w.inHandler && (!t.precise || t.fetch) && !t.causes.isEmpty &&
  t.causes.all (fun c => c.src.ord == t.src.ord && s.repairable w c)

/-- A fault record (R359, R419): the cairn's descriptor, the summary cause, TMASK, and the faulting address of
the lowest lane. -/
def State.postFault (s : State) (f desc : Nat) (t : TrapDue) (unit block : Option Nat) : State :=
  let low := (bitsOf t.lanes).headD 0
  let addr := match t.causes.find? (fun c => c.lane == low) with
    | some c => c.faddr.toNat
    | none => 0
  let seq := (s.func f).evseq
  let s := s.postEvent f 1 (fieldBytes 0x10 8 desc ++ fieldBytes 0x18 1 t.summary.code ++ fieldBytes 0x20 8 t.lanes.toNat ++
    fieldBytes 0x28 8 addr)
  s.modFunc f (fun x => { x with faults := x.faults ++ [⟨seq, unit, block⟩] })

/-- A retried trap's gang is held, its word to be issued again when it goes on; a fetch fault fetches its
clause again. -/
def Wave.awaitRepair (w : Wave) (t : TrapDue) : Wave :=
  { w.mapGang t.slices (fun _ x => { x with held := true }) with
    replay := if t.precise then w.replay else t.replayed :: w.replay
    det := w.det.map (fun d => { d with ended := true }) }

/-- A trap retried (R359): the frame, the fault record, and the save of its unit, or, when the heap has no room
or the unit is being drained, the block held in place. -/
def State.retryTrap (s : State) (k : Nat) (w : Wave) (t : TrapDue) : State :=
  match s.writeFrame k t with
  | (s, some c) => s.fatal k c
  | (s, none) =>
  let s := s.modWave k (fun w => w.awaitRepair t)
  let park := fun (s : State) =>
    let seq := (s.func w.func).evseq
    (s.modBlock w.block (fun b => { b with parkedInPlace := some (b.parkedInPlace.getD seq) })).postFault w.func 0 t none
      (some w.block)
  match s.cutOf w.block with
  | some u =>
    if u.method = .save then
      let s : State := { s with cuts := s.cuts.map (fun x => if x.id = u.id then
        { x with
          hold := true, reason := if x.reason = 0 then 1 else x.reason
          fltseq := if x.reason = 0 then (s.func w.func).evseq else x.fltseq } else x) }
      s.postFault w.func (s.cairnOf u w.block) t (some u.id) (some w.block)
    else park s
  | none =>
    match s.beginSave (s.unitOf w.block) 1 true 0 0 none with
    | some (s, u) => s.postFault w.func (s.cairnOf u w.block) t (some u.id) (some w.block)
    | none => park s

/-- TRAP_DELIVERY (R347 to R349, R358): the wave's next trap is retried, or delivered to its handler, or is
fatal. -/
def execTrapDelivery (k : Nat) (s : State) : Host.Outcome State Fault Refusal :=
  .next (match s.nextTrap k with
    | none => s
    | some (w, t) =>
      if s.heldInPlace w then s
      else
        let s := s.modWave k (fun w => w.undue t)
        if s.retries w t then s.retryTrap k w t else s.takeTrap k t)

/-! ## Waits that run out (R285, R464) -/

/-- A slice that a handler holds is parked at a tile operation, whose limit starts again at TRET (R464). -/
def Wave.heldTile (w : Wave) (op : Nat) : Bool :=
  w.slices.any (fun x => x.held && (match x.park with
    | .tile _ _ t => t == op
    | _ => false))

/-- FE_WAIT_TIMEOUT (R285, R300, R307, R464): a load, a tile instruction or an engine's read has waited 65,536 ticks
at an empty line, and still waits. -/
def execFeWaitTimeout (who : FeWaiter) (s : State) : Host.Outcome State Fault Refusal :=
  .next (match who with
    | .load k op unit =>
      (match s.findUnit k op unit with
        | some (w, o, u) =>
          if !w.isDet && s.waitingUnit o u && decide (u.since + feLimit ≤ s.time) then s.unitTimeout k op unit else s
        | none => s)
    | .tile b h op =>
      (match s.top? b h op with
        | some (_, o) => (match o.since, s.waves.get? o.wave with
          | some t, some w => if !w.isDet && !w.heldTile op && decide (t + feLimit ≤ s.time) && s.tileBlocked b h o
              then s.tileTimeout b h op else s
          | _, _ => s)
        | none => s)
    | .transfer id =>
      let open_ := fun (k : Option Nat) => match k.bind (fun k => s.waves.get? k) with
        | some w => !w.isDet
        | none => true
      (match s.xfers.find? (fun x => x.id == id), s.fabops.find? (fun x => x.id == id) with
        | some x, _ => (match x.since with
          | some t =>
            if open_ x.wave && decide (t + feLimit ≤ s.time) && s.xferWaits x then
              (if x.chain && !x.loaded then s.lostRecord x ⟨.feTimeout, x.cur.toNat, false, false⟩
              else s.stopXfer x ⟨.feTimeout, (x.segment.1 % 2 ^ 64).toNat, false, false⟩)
            else s
          | none => s)
        | none, some x => (match x.since with
          | some t =>
            if open_ (some x.wave) && decide (t + feLimit ≤ s.time) && s.esndWaits x then
              s.stopFabric x .feTimeout (0xF0 * 2 ^ 56 + natBits (descWord x.desc 0) 0 20)
            else s
          | none => s)
        | none, none => s))

/-! ## Counted special functions (R31, R148) -/

/-- SPECIAL_COMPLETE: a counted special function writes its results and flags, and its flag falls, in a later tick than
that of its issue (R31). -/
def execSpecialComplete (k op : Nat) (s : State) : Host.Outcome State Fault Refusal :=
  .next (match (s.waves.get? k).bind (fun w => w.specials.find? (fun o => o.id == op)) with
    | none => s
    | some o =>
      if s.time ≤ o.at_ then s
      else (s.modWave k (fun w =>
        { ((w.vput o.writes).raise o.fx).flagDown s.time o.flag with specials := w.specials.filter (fun x => x.id != op) })).settle k)

end Sys2Proof.Machine
end

