-- ==== Sys2Proof/Machine/Priv.lean ====
section
/-! DEFINITION. The remaining instructions of a wave: WKILL (R355), WFREEZE, TLBINV, EASEQ, CNTSEL and CNTRD
(R378 to R381), and LAUNCH (R344). -/

namespace Sys2Proof.Machine

/-! ## WKILL and WFREEZE (R355, R378) -/

/-- Every lane of a wave ended, parked and held slices' too, as by `exit #3`. -/
def Wave.killed (w : Wave) : Wave :=
  { w with
    slices := w.slices.map (fun x => { x with ex := 0xF#4, park := .none, held := false })
    exitScope := max w.exitScope 3, due := [], causes := [], replay := [] }

/-- The cause of a fatal WKILL: the frame's SCAUSE, or SOFTWARE outside a handler. -/
def Wave.killCause (w : Wave) : Cause :=
  match w.handling with
  | some t => if w.inHandler then t.summary else .software
  | none => .software

/-- WKILL (R355): a fatal end; or the end of every lane at once, after which the wave ends when its stores have performed
at device scope. -/
def execWkill (mode : BitVec 1) (s : State) : Host.Outcome State Fault Refusal :=
  issueChecked s (fun _ => Checks.privileged)
    (fun c =>
      if mode = 1 then .jump (s.fatal c.key c.w.killCause)
      else .jump (((s.modWave c.key Wave.killed).noteEnd c.key).settle c.key))

/-- The decode checks of WFREEZE. -/
def wfreezeChecks (d a : VCode) (c : Ctx) : Checks :=
  Checks.all [Checks.privileged, Checks.when d.isS, c.sourceOf VCode.isEvenS (.data 2) a]

/-- WFREEZE (R378). -/
def execWfreeze (d a : VCode) (s : State) : Host.Outcome State Fault Refusal :=
  issueChecked s (wfreezeChecks d a)
    (fun c =>
      let ident := c.operand (.data 2) a 0
      let named := fun (w : Wave) => w.part == c.w.part && !w.ended && w.waveid.toNat == ident
      let put := fun (s : State) (x : Nat) => Res.next (s.modWave c.key (fun w => w.swrite d.sNum 1 x))
      match (if ident = 0 then some (c.key, c.w) else s.waves.find? (fun e => named e.2)) with
      | some (k, w) => if w.frozen then put s 2 else put (s.freezeWave k) 0
      | none => put s (if s.cuts.any (fun u => u.waves.any (fun e => named e.2)) then 3 else 1))

/-! ## TLBINV and EASEQ (R379, R380) -/

/-- A TLB entry of a function whose page meets a range. -/
def TlbEntry.meets (e : TlbEntry) (f lo hi : Nat) : Bool :=
  e.func == f && decide (e.base < hi) && decide (lo < e.base + 2 ^ e.bits)

/-- The entries of a function that a range of its addresses names removed from every TLB. -/
def State.invalidate (s : State) (f lo hi : Nat) : State :=
  { s with
    cores := s.cores.mapVals (fun _ c => { c with tlb := c.tlb.filter (fun e => !e.meets f lo hi) })
    dies := s.dies.map (fun d => { d with l2tlb := d.l2tlb.filter (fun e => !e.meets f lo hi) }) }

/-- The decode checks of TLBINV. -/
def tlbinvChecks (a : VCode) (size : BitVec 8) (c : Ctx) : Checks :=
  Checks.all [Checks.privileged, c.baseAddress a,
    Checks.when ((decide (0x10 ≤ size.toNat) && decide (size.toNat ≤ 0x38)) || size == 0xFF#8)]

/-- A function's walks under way lose their place in the TLBs: their results are not entered (R235). A walk's page size is
known only at its end, so that each of them may be one for the range. -/
def State.voidWalks (s : State) (f : Nat) : State :=
  { s with walks := s.walks.map (fun p => if p.func == f then { p with void := true } else p) }

/-- A walk of a function that began before a point in the order of new identities is still under way. -/
def State.walksBefore (s : State) (f n : Nat) : Bool := s.walks.any (fun p => p.func == f && decide (p.id < n))

/-- TLBINV (R379): the entries of the range leave every TLB, and the gang waits until every walk that began before has
ended, whose result enters none (R235). `Wave.invals` keeps the point at which a gang's TLBINV began. -/
def execTlbinv (a : VCode) (size : BitVec 8) (s : State) : Host.Outcome State Fault Refusal :=
  issueChecked s (tlbinvChecks a size)
    (fun c =>
      let addr := c.addressOf a 0
      if addr / 2 ^ 56 ≠ 0 then .trap ((causesIn c.src .window c.exec).map (fun x =>
        { x with faddr := BitVec.ofNat 64 addr })) false
      else
        let lo := if size = 0xFF#8 then 0 else addr / 2 ^ size.toNat * 2 ^ size.toNat
        let hi := if size = 0xFF#8 then 2 ^ 56 else lo + 2 ^ size.toNat
        let i := firstSlice c.gang
        match c.w.invals.get? i with
        | none =>
          let s := s.invalidate c.w.func lo hi
          if s.walksBefore c.w.func s.nextId then
            .hold ((s.voidWalks c.w.func).modWave c.key (fun w => { w with invals := w.invals.set i s.nextId }))
          else .next s
        | some n =>
          if s.walksBefore c.w.func n then .stall
          else .next (s.modWave c.key (fun w => { w with invals := w.invals.erase i })))

/-- The decode checks of EASEQ. -/
def easeqChecks (d a : VCode) (c : Ctx) : Checks :=
  Checks.all [Checks.privileged, Checks.when d.isQuadS, c.baseAddress a]

/-- EASEQ (R380). -/
def execEaseq (d a : VCode) (s : State) : Host.Outcome State Fault Refusal :=
  issueChecked s (easeqChecks d a)
    (fun c =>
      let addr := c.addressOf a 0
      let met := match (s.waveDecoder c.w c.blk) addr 1 with
        | .ok l => s.easesMet c.w.core c.w.func l addr 1
        | .error _ => []
      let (x, base) := match met.head? with
        | some e => (2 ^ 31 + bitAt e.2.dst 30 + e.1, e.2.base.toNat)
        | none => (0, 0)
      c.onWave s (((c.w.swrite d.sNum 1 x).swrite (d.sNum + 1) 1 met.length).swrite (d.sNum + 2) 2 base))

/-! ## Event counters (R381) -/

/-- The event codes of the table. -/
def eventListed (n : Nat) : Bool :=
  decide (n ≤ 3) || (decide (0x10 ≤ n) && decide (n ≤ 0x14)) || n == 0x18 || n == 0x19 ||
  (decide (0x20 ≤ n) && decide (n ≤ 0x27)) || (decide (0x30 ≤ n) && decide (n ≤ 0x35))

/-- A counter of a core. -/
def CoreState.counter (c : CoreState) (i : Nat) : Counter := c.counters.getD i ⟨0, 0, 0⟩

/-- A select word is one that CNTSEL takes. -/
def selectLegal (x : Nat) : Bool := natBits x 12 19 == 0 && eventListed (natBits x 0 8)

/-- The checks of CNTSEL: the select word's, which is a value, comes after those of decoding (R347). -/
def cntselChecks (a : VCode) (c : Ctx) : Checks :=
  Checks.all [Checks.privileged, c.sourceOf VCode.isSLit (.data 1) a,
    { ok := true, value := if selectLegal (c.operand (.data 1) a 0) then none else some .illegalOperand }]

/-- CNTSEL (R381). -/
def execCntsel (ctr : BitVec 3) (a : VCode) (s : State) : Host.Outcome State Fault Refusal :=
  issueChecked s (cntselChecks a)
    (fun c =>
      let x := c.operand (.data 1) a 0
      .next (s.modCore c.w.core (fun k => { k with counters := listUpdate k.counters ctr.toNat (fun n =>
        { event := natBits x 0 8, qmask := BitVec.ofNat 4 (natBits x 8 4), count := if natBits x 31 1 = 1 then 0 else n.count }) })))

/-- The decode checks of CNTRD. -/
def cntrdChecks (d : VCode) : Checks :=
  Checks.privileged.and (Checks.when d.isEvenS)

/-- CNTRD (R381). -/
def execCntrd (d : VCode) (ctr : BitVec 3) (s : State) : Host.Outcome State Fault Refusal :=
  issueChecked s (fun _ => cntrdChecks d)
    (fun c => c.onWave s (c.w.swrite d.sNum 2 ((s.core c.w.core).counter ctr.toNat).count))

/-! ## LAUNCH (R344) -/

/-- Device launches of a partition that have not begun. -/
def State.launchesWaiting (s : State) (part : Nat) : Nat :=
  countIf (fun e => e.2.part == part && e.2.origin == .device && !e.2.placed && e.2.parent.isNone) s.grids

/-- The decode checks of LAUNCH. -/
def launchChecks (d a : VCode) (c : Ctx) : Checks :=
  Checks.all [Checks.unmelded, Checks.when d.isS, c.baseAddress a]

/-- LAUNCH (R344): after its release the descriptor is read and checked, and the child grid starts; in a
deterministic launch the quantum ends first. -/
def execLaunch (d a : VCode) (s : State) : Host.Outcome State Fault Refusal :=
  issueChecked s (launchChecks d a)
    (fun c =>
      let addr := c.addressOf a 0
      let fail := fun (s : State) (cause : Cause) (malf : Bool) => Res.next (s.modWave c.key (fun w => w.record
        ((bitsOf c.act).map (fun l => { laneCause c.src cause l with malf, faddr := BitVec.ofNat 64 addr }))))
      if c.act = 0 then .next s
      else if addr % 64 ≠ 0 then fail s .misaligned false
      else if addr / 2 ^ 56 ≠ 0 then fail s .window false
      else c.afterQuantum s (
        if !(s.accessesDone c.key c.w c.gang c.act && c.performedAt c.act (max 3 (mdScope c.w.md))) then c.stallForCommit s
        else if c.accessHeld || decide (4096 ≤ s.launchesWaiting c.w.part) || (s.func c.w.func).switching.isSome ||
            !(s.func c.w.func).active ||
            c.behind s (fun w x => w.part == c.w.part && opcodeOf x == opcodeOf c.src.word) then .stall
        else
          let s := s.modWave c.key (fun w => { w with idem := false, side := true })
          match s.enginePlace globalDecoder c.w.func c.w.priv false addr 64 with
          | (s, .error e) => fail (if e.outside then s.waveViolation c.key addr else s) e.cause e.malf
          | (s, .ok l) =>
            if s.poisoned l then fail s .hwErr false
            else
              let words := (List.range 16).map (fun i => BitVec.ofNat 32 (s.readLoc l 64 / 2 ^ (32 * i)))
              let (wgt, ceil) := match s.grids.get? c.blk.grid with
                | some g => (g.wgt, min g.launch.prio (s.func c.w.func).prioceil)
                | none => (1, 0)
              match s.startGrid c.w.func true words wgt ceil .device false with
              | (s, .ok _) => .next (s.modWave c.key (fun w => w.swrite d.sNum 1 0))
              | (s, .error n) => .next (s.modWave c.key (fun w => w.swrite d.sNum 1 n))))

end Sys2Proof.Machine
end

