-- ==== Sys2Proof/Machine/Round.lean ====
section
/-! DEFINITION. The rounds of a deterministic launch (R384 to R394): the end of a round, the commit of what its
waves buffered, what parked waves test after it, and the start of the next round. -/

namespace Sys2Proof.Machine

/-! ## Members (R383, R384) -/

/-- The deterministic wave id of a wave. -/
def Wave.dwid (w : Wave) : Nat :=
  match w.det with
  | some d => d.dwid
  | none => 0

/-- A block belongs to a launch: it is one of its grid's or of its task waves'. -/
def State.blockOf (s : State) (gid b : Nat) : Bool :=
  match s.blocks.get? b with
  | some x => s.rootGrid x.grid == gid
  | none => false

/-- The resident waves of a launch that have not ended, in increasing DWID. -/
def State.members (s : State) (gid : Nat) : List (Nat × Wave) :=
  sortOn (fun e : Nat × Wave => e.2.dwid) (s.waves.filter (fun e => e.2.isDet && !e.2.ended && s.blockOf gid e.2.block))

/-- A member has ended its quantum, has ended, or is parked or waits at an empty line in each of its gangs, and no trap of it is to be delivered first
(R385, R386). -/
def State.quantumOver (s : State) (k : Nat) (w : Wave) : Bool :=
  (w.det.any (fun d => d.ended) || (w.openGangs.isEmpty && w.regangRelease.isNone && !w.deadlocked)) &&
  (s.nextTrap k).isNone &&
  (match s.cur with
    | some i => i.wave != k
    | none => true)

/-- The commit buffer of a wave. -/
def Wave.buffer (w : Wave) : List Buffered :=
  match w.det with
  | some d => d.buffer
  | none => []

/-- The round state of a launch changed. -/
def State.modDet (s : State) (gid : Nat) (f : DetGrid → DetGrid) : State :=
  s.modGrid gid (fun g => { g with det := g.det.map f })

/-- The first entry of a wave's buffer taken off it. -/
def State.popBuffer (s : State) (k : Nat) : State :=
  s.modWave k (fun w => { w with det := w.det.map (fun d => { d with buffer := d.buffer.drop 1 }) })

/-! ## The commit (R385, R387 to R390) -/

/-- The engine operations of a launch that its commits have started and that are still to end: transfers and chains, ESNDs
that have not left their interface, and ERCVs (R390, R413). -/
def State.started (s : State) (gid : Nat) : List Transfer × List FabricOp :=
  (s.xfers.filter (fun x => !x.buffered && x.block.any (s.blockOf gid)),
   s.fabops.filter (fun x => !x.buffered && !x.injected && (s.waves.get? x.wave).any (fun w => s.blockOf gid w.block)))

/-- An engine operation that a commit has started goes on, and does not wait at an empty line. -/
def State.committing (s : State) (gid : Nat) : Bool :=
  (s.started gid).1.any (fun x => !s.xferWaits x) || (s.started gid).2.any (fun x => !s.esndWaits x)

/-- One unit of a committed operation performed, or waiting at an empty line: its tag, what it wakes, and its GWCT in the
round's (R243, R385, R389). The unit as it stands then. -/
def State.commitUnit (s : State) (gid k : Nat) (o : MemOp) (u : MemUnit) : State × MemUnit :=
  let fail := fun (c : Cause) (x : Nat) =>
    (s.modWave k (fun w => w.record [faultAt o.src ⟨u.lane, u.va.toNat, u.len, 1, [], false, .unchecked⟩ c false x]),
      { u with phase := UnitPhase.failed })
  match s.waves.get? k with
  | none => (s, u)
  | some w =>
    if s.waitsHere o u then (s, { u with since := s.time })
    else if s.lostTo w u.loc then fail .peerLost (s.regionSlot u.loc)
    else if o.kind.waitsEmpty && s.poisoned u.loc then fail .hwErr 0
    else
      let (s, v) := s.performUnit w.core o u
      let s := if o.kind.writes then s.tagWrite w u.loc else s
      let s := match o.kind with
        | .fe true => s.serveWaiters u.loc
        | _ => s
      (if u.loc.offChip then s.modDet gid (fun d => { d with notBefore := max d.notBefore v.gwct }) else s, v)

/-- The units of a committed operation in increasing lane number (R385). -/
def State.commitUnits (s : State) (gid k : Nat) (o : MemOp) : List MemUnit → State × List MemUnit
  | [] => (s, [])
  | u :: rest =>
    let (s, v) := s.commitUnit gid k o u
    let (s, l) := State.commitUnits s gid k o rest
    (s, v :: l)

/-- A buffered access committed (R385): its units perform, and the operation leaves the wave when their acknowledgements
and values have come back (R257). Only a returning atomic holds a flag. -/
def State.commitMem (s : State) (gid k : Nat) (o : MemOp) : State :=
  let (s, units) := s.commitUnits gid k o o.units
  match s.waves.get? k with
  | none => s
  | some w =>
    ((s.sendTokens w o).sendTasks w o).modWave k (fun w => Wave.retireOps
      { w with memOps := w.memOps ++ [{ o with units, flag := if o.returns then o.flag else none }] } s.time)

/-- A buffered engine operation started, when its channel or its easement entries are free (R314); its ways begin now. -/
def State.commitEngine (s : State) (id : Nat) : Option State :=
  match s.xfers.find? (fun x => x.id == id), s.fabops.find? (fun x => x.id == id) with
  | some x, _ =>
    if x.chain then
      match x.block with
      | some b =>
        if s.chanFree b x.ch x.core then
          some ((s.openChan b x.ch x.cur).modXfer id (fun x => { x with buffered := false, turn := s.time }))
        else none
      | none => some s
    else if s.easesFree x.core < 2 then none
    else some ((s.addEases x.core (opEases (s.xferDecoder x) id x.func x.op x.desc)).modXfer id (fun x =>
      { x with buffered := false, eased := true, turn := s.time }))
  | none, some x =>
    (match s.waves.get? x.wave with
      | some w =>
        if s.easesFree w.core < 1 then none
        else some ((s.addEases w.core [fabricEase w x]).modFab id (fun x => { x with buffered := false, at_ := s.time }))
      | none => some s)
  | none, none => some s

/-- A DIGEST record (R394). -/
def digestRecord (dwid : Nat) (mask : LaneMask) (words : List Word) : List Byte :=
  leBytes 8 dwid ++ leBytes 8 mask.toNat ++ words.flatMap (fun x => leBytes 4 x.toNat)

/-- No committed access of a wave is still to be answered. -/
def Wave.commitsBack (w : Wave) : Bool := w.memOps.all (fun o => o.units.all (fun u => u.phase != .arrived))

/-- The next entry of the commit, in increasing DWID and then in the order of the buffer; none when it must wait
for an engine, or for the acknowledgements and completion times that a release orders. -/
def State.commitNext (s : State) (gid : Nat) : Option State :=
  if s.committing gid then none
  else
    match (s.members gid).find? (fun e => !e.2.buffer.isEmpty) with
    | none => none
    | some (k, w) =>
      match w.buffer with
      | [] => none
      | .mem o :: _ =>
        (match releaseScope o with
          | some scope =>
            if w.commitsBack ∧ w.times.at_ scope ≤ s.time then some ((s.popBuffer k).commitMem gid k o) else none
          | none => some ((s.popBuffer k).commitMem gid k o))
      | .transfer id :: _ => (s.commitEngine id).map (fun s => s.popBuffer k)
      | .cancel ch :: _ => some ((s.popBuffer k).cancelChannel w.block ch)
      | .stat dst ch :: _ => some ((s.popBuffer k).modWave k (fun w => match s.blocks.get? w.block with
          | some b => w.readChannel dst (b.chan ch)
          | none => w))
      | .digest mask words :: _ =>
        some ((s.popBuffer k).modDet gid (fun d => { d with digest := d.digest ++ digestRecord w.dwid mask words }))

/-- The commit carried as far as it goes now. -/
def State.commitSome (s : State) (gid : Nat) : Nat → State
  | 0 => s
  | n + 1 => match s.commitNext gid with
    | some s => State.commitSome s gid n
    | none => s

/-! ## After the commit (R390) -/


/-- The tile operations of a launch's blocks carried on, in acceptance order. -/
def State.runTops (s : State) (gid : Nat) : State :=
  let tops := s.blocks.flatMap (fun e => if s.rootGrid e.2.grid == gid then
      (e.2.halves.mapIdx (fun i h => h.tops.map (fun t => (e.1, i, t.id)))).flatten else [])
  tops.foldl (fun s (b, h, op) => s.runTop b h op 66) s

/-- A parked wave tests its condition again: a monitor that has fired, a phase that has changed. -/
def State.retest (s : State) (k : Nat) : State :=
  s.modWave k (fun w =>
    let w := w.unparkIf (s.barwtDone w)
    if w.monitor = .fired ∧ w.slices.any (fun x => x.park.isMwait) then { w.unpark Park.isMwait with monitor := .off } else w)

/-- The task of a launch that was committed first, with its gatherer's die. -/
def State.firstTask (s : State) (gid : Nat) : Option (Nat × Task) :=
  (sortOn (fun e : Nat × Task => e.2.seq) ((s.dies.mapIdx (fun i d =>
    (d.tasks.filter (fun t => t.grid == gid)).map (fun t => (i, t)))).flatten)).head?

/-- The tasks of a launch made into task waves, in the order in which they were committed (R106, R383). -/
def State.emitAll (s : State) (gid : Nat) : Nat → State
  | 0 => s
  | n + 1 => match s.firstTask gid with
    | none => s
    | some (die, t) => State.emitAll (s.emitTasks die gid t.entry.toNat) gid n

/-- The tasks that a launch has at the gatherers. -/
def State.taskCount (s : State) (gid : Nat) : Nat :=
  (s.dies.map (fun d => countIf (fun (t : Task) => t.grid == gid) d.tasks)).foldl (· + ·) 0

/-- Each gang of a member is parked, or is one that the canonical order passes over since it waits at an empty line. -/
def stuck (w : Wave) : Bool := w.gangs.all (fun g => w.det.any (fun d => meets g d.skips))

/-- The units of a launch's members that wait at an empty line, in increasing DWID: those of commits, or of loads. -/
def State.waitingUnits (s : State) (gid : Nat) (loads : Bool) : List (Nat × Nat × Nat) :=
  (s.members gid).flatMap (fun e => (e.2.memOps.filter (fun o => o.kind.isLoad == loads)).flatMap (fun o =>
    (List.range o.units.length).filterMap (fun i =>
      (o.units[i]?).bind (fun u => if u.phase == .issued && u.since != 0 then some (e.1, o.id, i) else none))))

/-- What the members of a launch wait for at empty lines: loads and tile operations. -/
def State.lineWaits (s : State) (gid : Nat) : List (Nat × Nat × Nat) :=
  s.waitingUnits gid true ++ (s.members gid).flatMap (fun e =>
    ((s.half e.2.block e.2.half).tops.filter (fun t => t.wave == e.1 && t.since.isSome)).map (fun t => (e.1, t.id, t.done)))

/-- The loads of a launch that waited at a line which is full after the commit read it (R285, R390). -/
def State.serveLoads (s : State) (gid : Nat) : State :=
  (s.waitingUnits gid true).foldl (fun s e =>
    match s.findUnit e.1 e.2.1 e.2.2 with
    | some (_, o, u) => if s.waitsHere o u then s else (s.performUnits e.1 e.2.1 [e.2.2]).retireMem e.1
    | none => s) s

/-- The barriers of a launch's blocks. -/
def State.barriersOf (s : State) (gid : Nat) : List (Nat × Bool × Nat) :=
  (s.blocks.filter (fun e => s.rootGrid e.2.grid == gid)).flatMap (fun e =>
    (List.range e.2.barb.length).map (fun i => (e.1, false, i)) ++ (List.range e.2.barc.length).map (fun i => (e.1, true, i)))

/-- The barriers of a launch that every live wave has reached release (R123, R390). -/
def State.completeBarriers (s : State) (gid : Nat) : State :=
  (s.barriersOf gid).foldl (fun s e =>
    if s.barrierArrived e.1 e.2.1 e.2.2 then s.completeBarrier e.1 e.2.1 e.2.2 else s) s

/-- The commits of a round that wait at empty lines when nothing else of it is left to perform: nothing in the round can
fill their lines, so they record FE_TIMEOUT at this round end (R385, R390; DEDUCED, assumption 145). -/
def State.timeoutCommits (s : State) (gid : Nat) : State :=
  let (xs, fs) := s.started gid
  let s := (s.waitingUnits gid false).foldl (fun s e => s.unitTimeout e.1 e.2.1 e.2.2) s
  let s := xs.foldl (fun s x =>
    if x.chain && !x.loaded then s.lostRecord x ⟨.feTimeout, x.cur.toNat, false, false⟩
    else s.stopXfer x ⟨.feTimeout, (x.segment.1 % 2 ^ 64).toNat, false, false⟩) s
  fs.foldl (fun s x => s.stopFabric x .feTimeout (0xF0 * 2 ^ 56 + natBits (descWord x.desc 0) 0 20)) s

/-- A member's waits ended by their causes (R390); those of slices that a handler holds start again at TRET (R464). -/
def State.timeoutWave (s : State) (k : Nat) (w : Wave) : State :=
  let loads := w.memOps.flatMap (fun o => (List.range o.units.length).filterMap (fun i =>
    (o.units[i]?).bind (fun u => if s.waitingUnit o u then some (o.id, i) else none)))
  let s := loads.foldl (fun s e => s.unitTimeout k e.1 e.2) s
  let tops := (s.half w.block w.half).tops.filter (fun t => t.wave == k && t.since.isSome && !w.heldTile t.id)
  let s := tops.foldl (fun s t => s.tileTimeout w.block w.half t.id) s
  s.modWave k (fun w => (List.range w.slices.length).foldl (fun w i => match w.slices[i]? with
    | some x => if x.held then w
      else (match x.park with
        | .mwait src _ _ => { w.timeout i src .mwaitTimeout with monitor := .off }
        | .barwt src _ _ _ _ => w.timeout i src .feTimeout
        | _ => w)
    | none => w) w)

/-- The end of a round whose commit has performed: waits are tested again, or end by their causes when every member is
parked and nothing that they wait for has changed, tasks are emitted, and waves that have ended leave (R390). -/
def State.closeRound (s : State) (gid : Nat) : State :=
  let ks := (s.members gid).map (·.1)
  let waits := s.lineWaits gid
  let s := ((s.serveLoads gid).runTops gid).completeBarriers gid
  let s := ks.foldl (fun s k => s.retest k) s
  let idle := (s.members gid).all (fun e => stuck e.2) && s.lineWaits gid == waits && s.taskCount gid == 0
  let s := s.emitAll gid (s.taskCount gid)
  let s := if idle then (s.members gid).foldl (fun s e => s.timeoutWave e.1 e.2) s else s
  let s := ks.foldl (fun s k => s.settle k) s
  s.modDet gid (fun d => { d with started := false, round := d.round + 1 })

/-! ## The next round (R384, R392) -/

/-- What the members have buffered has been committed, and every answer is back. -/
def State.commitsIn (s : State) (gid : Nat) : Bool :=
  (s.members gid).all (fun e => e.2.buffer.isEmpty && e.2.commitsBack)

/-- What is left of a round's commit waits at empty lines. -/
def State.onlyWaits (s : State) (gid : Nat) : Bool :=
  !s.committing gid && s.commitsIn gid &&
  !((s.waitingUnits gid false).isEmpty && (s.started gid).1.isEmpty && (s.started gid).2.isEmpty)

/-- Every commit of the round has performed: the buffers are empty, its engines are done, every answer is back, the
Datum reading has reached the latest GWCT (R385), and the ticks of the barriers that release have passed (R98, R125). -/
def State.committed (s : State) (gid : Nat) (d : DetGrid) : Bool :=
  (s.started gid).1.isEmpty && (s.started gid).2.isEmpty && (s.waitingUnits gid false).isEmpty && s.commitsIn gid &&
  decide (d.notBefore ≤ s.time) &&
  (s.barriersOf gid).all (fun e => !s.barrierArrived e.1 e.2.1 e.2.2 || decide (s.barrierTick e.1 e.2.1 e.2.2 ≤ s.time))

/-- Every unit and task wave that is due to join has been placed, and no member is cut, saved or held in place after a
retried fault (R384, R392). -/
def State.roundReady (s : State) (gid : Nat) (g : Grid) (d : DetGrid) : Bool :=
  s.committed gid d && (g.cutting || (g.nextUnit.isNone && g.returned.isEmpty)) &&
  !s.grids.any (fun e => e.2.parent == some gid && !e.2.placed) &&
  !s.blocks.any (fun e => e.2.parkedInPlace.isSome && s.rootGrid e.2.grid == gid) &&
  !s.cuts.any (fun u => s.rootGrid u.grid == gid && u.method == .save) && !(s.members gid).isEmpty

/-- A new round of a launch: its members' quanta begin. -/
def State.openRound (s : State) (gid : Nat) : State :=
  let s := (s.members gid).foldl (fun s e => s.modWave e.1 (fun w =>
    { w with det := w.det.map (fun d => { d with count := 0, ended := false, skips := 0 }) })) s
  s.modDet gid (fun d => { d with started := true })

/-- ROUND_END (R385): a round that every member has finished commits and ends; and, when all that is due has
joined, the next round begins. -/
def execRoundEnd (grid : Nat) (s : State) : Host.Outcome State Fault Refusal :=
  .next (match s.grids.get? grid with
    | none => s
    | some g =>
      match g.det with
      | none => s
      | some d =>
        if !d.started then (if s.roundReady grid g d then s.openRound grid else s)
        else if !(s.members grid).all (fun e => s.quantumOver e.1 e.2) then s
        else
          let n := ((s.members grid).map (fun e => e.2.buffer.length)).foldl (· + ·) 0
          let s := s.commitSome grid n
          match (s.grids.get? grid).bind (·.det) with
          | some d =>
            if s.committed grid d then s.closeRound grid
            else if s.onlyWaits grid then s.timeoutCommits grid
            else s
          | none => s)

end Sys2Proof.Machine
end

