-- ==== Sys2Proof/Machine/Commands.lean ====
section
/-! DEFINITION. Queues and command records (R315 to R327, R463): their notification, their start and their
checks, grids, bundles, copy chains, modules (R53 to R58), signals and waits, CTX_SAVE, CTX_RESTORE and
CTX_ABORT (R423 to R425). -/

namespace Sys2Proof.Machine

/-! ## Queue numbers and notification (R315, R316) -/

/-- The queues that a QSPACE gives (R418). -/
def queueCount (qspace : Nat) : Nat :=
  match qspace with
  | 0 => 16
  | 1 => 32
  | 2 => 64
  | _ => 0

/-- A queue number of a virtual function. -/
def State.hasQueue (s : State) (f q : Nat) : Bool :=
  decide (1 ≤ f) && decide (f ≤ 256) && decide (q < queueCount (s.func f).qspace)

/-- QNOTIFY_WRITE (R316): a value above the last accepted one and at most QDONE + 2^SIZE is accepted; any other
sets NERR. -/
def execQnotifyWrite (f q : Nat) (v : DWord) (s : State) : Host.Outcome State Fault Refusal :=
  .next (if !s.usable || !s.hasQueue f q then s
    else
      let x := (s.func f).queue q
      if x.notify < v.toNat ∧ v.toNat ≤ x.done + 2 ^ x.size then s.modQueue f q (fun x => { x with notify := v.toNat })
      else s.modQueue f q (fun x => { x with nerr := true }))

/-! ## The checks of a record (R318) -/

/-- Commands with an implicit WAITPREV. -/
def implicitPrev (opc : Nat) : Bool := decide (5 ≤ opc) && decide (opc ≤ 10)

/-- Every word of a record from an offset on is zero. -/
def Rec.zeroFrom (r : Rec) (off : Nat) : Bool := (r.body.drop ((off - 0x10) / 4)).all (· == 0)

/-- A record's body keeps the rules of its command (R318, R321, R324 to R327, R340, R423). -/
def Rec.bodyLegal (r : Rec) : Bool :=
  match r.opc with
  | 1 => launchReserved r.body
  | 2 => r.dword 0x10 % 64 == 0 && r.zeroFrom 0x1C
  | 3 => r.dword 0x10 % 64 == 0 && decide (1 ≤ r.word 0x18) && decide (r.word 0x18 ≤ 16) && r.zeroFrom 0x1C
  | 4 => r.dword 0x10 % 64 == 0 && r.zeroFrom 0x18
  | 5 => r.zeroFrom 0x18
  | 6 => natBits (r.word 0x10) 10 22 == 0 && r.zeroFrom 0x14
  | 7 => r.dword 0x10 % 8 == 0 && r.dword 0x20 == 0 && natBits (r.word 0x28) 14 18 == 0 && r.zeroFrom 0x2C
  | 8 => r.dword 0x10 % 8 == 0 && natBits (r.word 0x28) 14 2 == 0 && r.zeroFrom 0x2C
  | 9 | 10 => r.dword 0x10 % 8 == 0 && decide (1 ≤ r.word 0x18) && decide (r.word 0x18 < 65536) && r.zeroFrom 0x1C
  | _ => false

/-- A record keeps the rules of R318. -/
def Rec.legal (r : Rec) : Bool :=
  natBits r.hdr.toNat 10 22 == 0 && natBits r.hdr.toNat 8 1 == 0 && r.caddr.toNat % 8 == 0 && r.bodyLegal

/-! ## Starting a record (R319) -/

/-- The 16 words of a queue's record. -/
def State.recordWords (s : State) (f : Nat) (x : Queue) (n : Nat) : State × Except Cause (List Word) :=
  let a := x.base.toNat + 64 * (n % 2 ^ x.size)
  if x.loc then s.wordsFor f a 16
  else if s.hostMaps f a then (s, .ok ((List.range 16).map (fun i => BitVec.ofNat 32 (Memory.load s.host (a + 4 * i) 4))))
  else (s.hostFault f a, .error .permission)

/-- A record as its words give it. -/
def Rec.ofWords (n now : Nat) (w : List Word) : Rec :=
  { seq := n, hdr := w.getD 0 0, tag := w.getD 1 0
    caddr := BitVec.ofNat 64 ((w.getD 2 0).toNat + 2 ^ 32 * (w.getD 3 0).toNat)
    body := w.drop 4, stage := .started, poke := false, since := now, parts := [], units := [], abortAt := none }

/-- A queue may start its next record, whatever it is: the function runs and is not being switched out, the queue
is enabled, the record has been announced, fewer than 64 are started, and no record with implicit WAITPREV runs
(R316, R319, R422). -/
def State.mayStart (s : State) (f q : Nat) : Bool :=
  let x := (s.func f).queue q
  s.hasQueue f q && (s.func f).runs && (s.func f).switching.isNone && x.en && decide (x.start < x.notify) &&
  decide (countIf (fun (r : Rec) => r.stage != .retired) x.recs < 64) &&
  x.recs.all (fun r => r.stage == .retired || !implicitPrev r.opc)

/-- A record that breaks R318 retires at its start, and so does one whose words cannot be read. -/
def State.enterRecord (s : State) (f q : Nat) (r : Rec) (fault : Option Cause) : State :=
  let s := s.modQueue f q (fun x => { x with start := x.start + 1, recs := x.recs ++ [r] })
  match fault with
  | some c => s.retire f q r.seq stFaulted c.code 0
  | none => if r.legal then s else s.retire f q r.seq stBadRecord 0 0

/-- A started record with its command code that has not begun its work. -/
def State.begun? (s : State) (f q n opc : Nat) : Option Rec :=
  (s.rec? f q n).bind (fun r => if r.stage = .started ∧ r.opc = opc then some r else none)

/-- A record whose work is under way. -/
def State.running (s : State) (f q n : Nat) : State := s.modRec f q n (fun r => { r with stage := .running })

/-- The weight of a queue's grids (R315). -/
def State.queueWgt (s : State) (f q : Nat) : Nat := max 1 ((s.func f).queue q).wgt

/-! ## Grids, bundles and copy chains (R321 to R325) -/

/-- LAUNCH_GRID (R322): the grid enters the package queues, or the record retires LAUNCH_REFUSED. -/
def execLaunchGrid (f q n : Nat) (s : State) : Host.Outcome State Fault Refusal :=
  .next (match s.begun? f q n 1 with
    | none => s
    | some r =>
      match s.startGrid f false r.body (s.queueWgt f q) (s.func f).prioceil (.record f q n) false with
      | (s, .error sub) => s.retire f q n stRefused sub 0
      | (s, .ok _) => s.running f q n)

/-- The cores of a function's partition, counted from the placement pointer (R110, R325). -/
def State.chainCores (s : State) (f : Nat) : List Nat :=
  match (s.func f).part.bind (fun k => s.parts.get? k) with
  | none => []
  | some p => (s.partCores p).rotate ((p.cores.take p.pointer).countP (fun c => (s.partCores p).contains c))

/-- A gang of a core has waited for a physical channel since before a tick (R23, R308). -/
def State.channelSought (s : State) (core t : Nat) : Bool :=
  s.waves.any (fun e => e.2.core == core && !e.2.ended && e.2.gangs.any (fun g =>
    s.wantsChannel e.2 (e.2.wordRef g).1.word && (e.2.stalledSince g).any (fun u => decide (u < t))))

/-- A chain outside a block, waiting since a tick, bound to the first core that has a free channel which nobody has waited
for longer; none when no core has one (R23, R325). -/
def State.startChain (s : State) (f head since : Nat) (o : Origin) : Option State :=
  (s.chainCores f).findSome? (fun c =>
    if s.channelsOn c < 16 ∧ !s.channelSought c since then
      let used := (s.xfers.filter (fun x => x.chain && x.block.isNone && x.core == c)).map (·.ch) ++ (s.core c).frozenChans.map (·.1)
      let x : Transfer :=
        { id := s.nextId, block := none, half := 0, wave := none, core := c, func := f, lane := 0, op := .cpy, desc := []
          segs := 0, row := 0, off := 0, ridx := none, perf := none, priv := true, cancel := false, flag := none
          atEnd := false, gang := 0, chain := true, ch := firstFree used 17 0, cur := BitVec.ofNat 64 head, loaded := false
          recs := 0, anyErr := false, scope := 4, after := 0, since := none, paid := false, buffered := false
          eased := false, want := none, origin := o, src := ⟨0, 0, 0, 0, 0, []⟩ }
      some { s with xfers := s.xfers ++ [x], nextId := s.nextId + 1 }
    else none)

/-- The first place of a tick among those that wait. -/
def waitPlace (t : Nat) : Nat := t * 2 ^ 79

/-- The place of a started record among those that wait: its start, then its function, queue and sequence number. -/
def Rec.place (r : Rec) (f q : Nat) : Nat := waitPlace r.since + (f * 64 + q) * 2 ^ 64 + r.seq

/-- A node of a function's partition has waited for channels since before a tick (R23). -/
def State.nodeWaits (s : State) (f t : Nat) : Bool :=
  s.plats.any (fun e => (s.func e.2.func).part == (s.func f).part && e.2.waitFrom.any (fun u => decide (u < t)))

/-- A COPY_CHAIN or a BUNDLE of a function's partition whose place comes before another's waits for channels (R23). -/
def State.recordWaits (s : State) (f place : Nat) : Bool :=
  s.funcs.any (fun e => e.2.part == (s.func f).part && e.2.queues.any (fun x => x.2.recs.any (fun y =>
    y.stage == .started && (y.opc == 3 || y.opc == 4) && decide (y.place e.1 x.1 < place))))

/-- Others of a function's partition have waited for channels longer than a record (R23). -/
def State.chainBehind (s : State) (f q : Nat) (r : Rec) : Bool :=
  s.recordWaits f (r.place f q) || s.nodeWaits f r.since

/-- COPY_CHAIN (R325): the chain waits for a free channel. -/
def execCopyChain (f q n : Nat) (s : State) : Host.Outcome State Fault Refusal :=
  .next (match s.begun? f q n 4 with
    | none => s
    | some r =>
      if s.chainBehind f q r then s
      else match s.startChain f (r.dword 0x10) r.since (.record f q n) with
        | some s => s.running f q n
        | none => s)

/-- A sub-launch of a bundle: a launch descriptor or a chain head (R324). -/
inductive SubLaunch where
  | grid (d : List Word)
  | chain (head : Nat)
  deriving DecidableEq, Repr

/-- The check of one list entry: a sub-launch, or the status and SUB that it gives the bundle. -/
def State.subLaunch (s : State) (p : Partition) (e : List Word) : Except (Nat × Nat) SubLaunch :=
  let kind := natBits (e.getD 0 0).toNat 0 8
  let head := (e.getD 4 0).toNat + 2 ^ 32 * (e.getD 5 0).toNat
  if natBits (e.getD 0 0).toNat 8 24 ≠ 0 ∨ e.getD 1 0 ≠ 0 then .error (stBadRecord, 0)
  else if kind = 0 then
    (match s.launchCheck p true (e.drop 4) with
      | .error sub => .error (stRefused, sub)
      | .ok _ => .ok (.grid (e.drop 4)))
  else if kind = 1 then
    (if (e.drop 6).all (· == 0) && head % 64 == 0 then .ok (.chain head) else .error (stBadRecord, 0))
  else .error (stBadRecord, 0)

/-- The checks of all entries, in order. -/
def State.subLaunches (s : State) (p : Partition) : List (List Word) → Except (Nat × Nat) (List SubLaunch)
  | [] => .ok []
  | e :: rest =>
    match s.subLaunch p e with
    | .error x => .error x
    | .ok a => match State.subLaunches s p rest with
      | .error x => .error x
      | .ok l => .ok (a :: l)

/-- Words in groups of 16. -/
def recordsOf (n : Nat) (l : List Word) : List (List Word) := (List.range n).map (fun i => (l.drop (16 * i)).take 16)

/-- What the reading and the checking of a bundle's list give. -/
inductive BundleRead where
  | ok (l : List SubLaunch)
  | bad (status sub : Nat)
  | fault (c : Cause)
  deriving DecidableEq, Repr

/-- A bundle's list read and checked. -/
def State.readBundle (s : State) (f list count : Nat) : State × BundleRead :=
  match s.wordsFor f list (16 * count) with
  | (s, .error c) => (s, .fault c)
  | (s, .ok l) =>
    match (s.func f).part.bind (fun k => s.parts.get? k) with
    | none => (s, .bad stRefused 1)
    | some p => match s.subLaunches p (recordsOf count l) with
      | .error (st, sub) => (s, .bad st sub)
      | .ok l => (s, .ok l)

/-- The sub-launches of a bundle, waiting since a tick, started together; none while a chain finds no free channel. -/
def State.startParts (s : State) (f wgt ceil since : Nat) (o : Nat → Origin) : Nat → List SubLaunch → Option State
  | _, [] => some s
  | i, .grid d :: rest =>
    State.startParts (s.startGrid f true d wgt ceil (o i) false).1 f wgt ceil since o (i + 1) rest
  | i, .chain head :: rest =>
    match s.startChain f head since (o i) with
    | none => none
    | some s => State.startParts s f wgt ceil since o (i + 1) rest

/-- A list entry is a chain. -/
def SubLaunch.isChain : SubLaunch → Bool
  | .chain _ => true
  | .grid _ => false

/-- The parts of a bundle, none of which has ended. -/
def openParts (n : Nat) : List (Nat × Option (Nat × Nat)) := (List.range n).map (fun i => (i, none))

/-- BUNDLE (R324): every entry is read and checked, and then all start in one step. -/
def execBundle (f q n : Nat) (s : State) : Host.Outcome State Fault Refusal :=
  .next (match s.begun? f q n 3 with
    | none => s
    | some r =>
      match s.readBundle f (r.dword 0x10) (r.word 0x18) with
      | (t, .fault c) => t.retire f q n stFaulted c.code 0
      | (t, .bad st sub) => t.retire f q n st sub 0
      | (t, .ok l) =>
        if l.any SubLaunch.isChain && s.chainBehind f q r then s
        else match t.startParts f (t.queueWgt f q) (t.func f).prioceil r.since (.bundleEntry f q n) 0 l with
        | none => s
        | some t => (t.running f q n).modRec f q n (fun r => { r with parts := openParts l.length }))

/-! ## Modules (R53 to R58) -/

/-- The encoding hash of the stepping. -/
def encHash : Nat := 0x5A1C93E7

/-- A 32-bit field of an image's header. -/
def imageField (h : List Word) (off : Nat) : Nat := (h.getD (off / 4) 0).toNat

/-- A range of bytes lies within an image. -/
def withinImage (size off len : Nat) : Bool := decide (off + len ≤ size)

/-- The header keeps R53, and its sections and tables lie within SIZE. -/
def headerLegal (h : List Word) : Bool :=
  let x := imageField h
  x 0x00 == 0x4D4C444D && decide (x 0x08 ≤ 268435456) && decide (1 ≤ x 0x0C) && decide (x 0x0C ≤ 4096) && x 0x1C % 64 == 0 &&
  x 0x34 == 0 && x 0x38 == 0 && x 0x3C == 0 && withinImage (x 0x08) 0 64 && withinImage (x 0x08) (x 0x10) (32 * x 0x0C) &&
  withinImage (x 0x08) (x 0x18) (32 * x 0x14) && withinImage (x 0x08) (x 0x1C) (x 0x20) &&
  withinImage (x 0x08) (x 0x24) (x 0x28) && withinImage (x 0x08) (x 0x2C) (x 0x30)

/-- A kernel of its eight words (R54). -/
def kernelOf (e : List Word) : Kernel :=
  { entry := imageField e 0, width := natBits (imageField e 4) 0 8, vgran := natBits (imageField e 4) 8 8
    acct := natBits (imageField e 4) 16 16, scrl := natBits (imageField e 8) 0 16
    lfirst := imageField e 0x0C, lcount := imageField e 0x10 }

/-- A kernel entry keeps R54 in a code section of some bytes, with `nlive` liveness entries. -/
def kernelLegal (codesz nlive : Nat) (e : List Word) : Bool :=
  let k := kernelOf e
  k.entry % 4 == 0 && decide (k.entry < codesz) && decide (k.width ≤ 2) && decide (1 ≤ k.vgran) && decide (k.vgran ≤ 24) &&
  decide (k.acct ≤ 4096) && decide (k.scrl ≤ 8192) && natBits (imageField e 8) 16 16 == 0 &&
  decide (k.lfirst + k.lcount ≤ nlive) && imageField e 0x14 % 8 == 0

/-- The entries of a list rise. -/
def risesStrictly : List Nat → Bool
  | [] => true
  | [_] => true
  | a :: b :: rest => decide (a < b) && risesStrictly (b :: rest)

/-- Words in groups of 8. -/
def groupsOf8 (n : Nat) (l : List Word) : List (List Word) := (List.range n).map (fun i => (l.drop (8 * i)).take 8)

/-- A liveness entry keeps R55, but for the PP bit of its clause. -/
def liveLegal (codesz : Nat) (e : List Word) : Bool :=
  imageField e 0 % 4 == 0 && decide (imageField e 0 < codesz) && imageField e 4 == 0

/-- The words at some addresses, read in order. -/
def State.wordsAt (s : State) (f : Nat) : List Nat → State × Except Cause (List Word)
  | [] => (s, .ok [])
  | a :: rest =>
    match s.readFor f a 4 with
    | (s, .error c) => (s, .error c)
    | (s, .ok x) =>
      match State.wordsAt s f rest with
      | (s, .ok l) => (s, .ok (BitVec.ofNat 32 x :: l))
      | (s, .error c) => (s, .error c)

/-- What reading an image gives: the header and the kernels, or the status and SUB of the MODLOAD. -/
abbrev ImageRead := Except (Nat × Nat) (List Word × List Kernel)

/-- The checks 2 and 3 of R56. A read of the image that faults in translation retires the MODLOAD FAULTED with the cause
(DESIGN CHOICE, assumption 35: neither R56 nor R463's table names it). -/
def State.readImage (s : State) (f base : Nat) : State × ImageRead :=
  let fault := fun (c : Cause) => (.error (stFaulted, c.code) : ImageRead)
  let invalid : ImageRead := .error (5, 0)
  match s.wordsFor f base 16 with
  | (s, .error c) => (s, fault c)
  | (s, .ok h) =>
    let x := imageField h
    if x 0x04 ≠ encHash then (s, .error (4, 0))
    else if !headerLegal h then (s, invalid)
    else
      match s.wordsFor f (base + x 0x10) (8 * x 0x0C) with
      | (s, .error c) => (s, fault c)
      | (s, .ok kt) =>
        let ks := groupsOf8 (x 0x0C) kt
        if !ks.all (kernelLegal (x 0x20) (x 0x14)) then (s, invalid)
        else
          match s.wordsFor f (base + x 0x18) (8 * x 0x14) with
          | (s, .error c) => (s, fault c)
          | (s, .ok lt) =>
            let ls := groupsOf8 (x 0x14) lt
            let offs := ls.map (fun e => imageField e 0)
            let kernels := ks.map kernelOf
            if !(ls.all (liveLegal (x 0x20)) && kernels.all (fun k => risesStrictly ((offs.drop k.lfirst).take k.lcount))) then
              (s, invalid)
            else
              match s.wordsAt f (offs.map (fun o => base + x 0x1C + o)) with
              | (s, .error c) => (s, fault c)
              | (s, .ok hs) => if hs.all hdrPP then (s, .ok (h, kernels)) else (s, invalid)

/-- The instruction lines of an image's address range dropped from a partition's caches (R56, R58, R60); a line is
a named place over 64, and the range is taken page by page. -/
def State.dropImage (s : State) (part f base size : Nat) : State :=
  let places := (List.range ((size + 65535) / 65536)).filterMap (fun i =>
    match (s.walk f (base + 65536 * i)).result (base + 65536 * i) ⟨false, false, true⟩ with
    | .ok a _ => some (a, min 65536 (size - 65536 * i))
    | .fault _ _ _ => none)
  { s with icache := s.icache.filter (fun l => !(l.part == part && places.any (fun (a, n) =>
      decide (a < 64 * l.line + 64) && decide (64 * l.line < a + n)))) }

/-- MODLOAD (R56, R57): an accepted image takes the lowest free handle of its partition. -/
def execModload (f q n : Nat) (s : State) : Host.Outcome State Fault Refusal :=
  .next (match s.begun? f q n 5, (s.func f).part with
    | some r, some pk =>
      let base := r.dword 0x10
      if base % 65536 ≠ 0 then s.retire f q n 5 0 0
      else
        match s.readImage f base with
        | (s, .error (st, sub)) => s.retire f q n st sub 0
        | (s, .ok (h, kernels)) =>
          match s.parts.get? pk with
          | none => s.retire f q n 5 0 0
          | some p =>
            let used := p.modules.map (·.1)
            let handle := firstFree used 1025 0
            if 1024 ≤ used.length then s.retire f q n 5 0 0
            else
              let x := imageField h
              let m : Module := { base, size := x 0x08, code := x 0x1C, codesz := x 0x20, ltab := x 0x18, kernels, func := f
                                  unloading := none }
              let s := s.modPart pk (fun p => { p with modules := p.modules.set handle m })
              (s.dropImage pk f base m.size).retire f q n stOK 0 handle
    | _, _ => s)

/-- MODUNLOAD (R58, R326): the module is marked unloading; the record retires when the module is released. -/
def execModunload (f q n : Nat) (s : State) : Host.Outcome State Fault Refusal :=
  .next (match s.begun? f q n 6, (s.func f).part with
    | some r, some pk =>
      let handle := natBits (r.word 0x10) 0 10
      (match (s.parts.get? pk).bind (fun p => p.modules.get? handle) with
        | none => s.retire f q n stBadRecord 0 0
        | some m =>
          let s := s.modPart pk (fun p => { p with
            modules := p.modules.set handle { m with unloading := some (m.unloading.getD [] ++ [(f, q, n)]) } })
          s.running f q n)
    | _, _ => s)

/-- The reference count of a module is not zero (R58): a grid that has not completed its blocks names it, with
blocks resident, saved or unplaced, or a pending task does. -/
def State.moduleHeld (s : State) (part handle : Nat) : Bool :=
  s.grids.any (fun e => e.2.part == part && e.2.launch.modh == handle &&
    ((!e.2.cutting && (decide (e.2.next < e.2.launch.blocks) || !e.2.returned.isEmpty)) ||
      s.blocks.any (fun b => b.2.grid == e.1) || s.cuts.any (fun u => u.grid == e.1))) ||
  s.dies.any (fun d => d.tasks.any (fun t => natBits t.entry.toNat 22 10 == handle &&
    (match s.grids.get? t.grid with
      | some g => g.part == part
      | none => false)))

/-- A module leaves its partition: its instruction lines are dropped and its handle is free (R58). -/
def State.eraseModule (s : State) (part handle : Nat) : State :=
  match (s.parts.get? part).bind (fun p => p.modules.get? handle) with
  | none => s
  | some m => (s.dropImage part m.func m.base m.size).modPart part (fun p => { p with modules := p.modules.erase handle })

/-- MODULE_RELEASE (R58): an unloading module whose count is zero; every MODUNLOAD of it completes. -/
def execModuleRelease (part handle : Nat) (s : State) : Host.Outcome State Fault Refusal :=
  .next (match (s.parts.get? part).bind (fun p => p.modules.get? handle) with
    | none => s
    | some m => match m.unloading with
      | none => s
      | some l =>
        if s.moduleHeld part handle then s
        else l.foldl (fun s (f, q, n) => s.retire f q n stOK 0 0) (s.eraseModule part handle))

/-! ## SIGNAL and WAIT_VALUE (R327) -/

/-- The tick at which a function's write to a word of a ring's address space has performed: in device memory the GWCT of
its line as it stands now (R243), in host memory now. -/
def State.ringPerforms (s : State) (f : Nat) (loc : Bool) (va : Nat) : Nat :=
  match loc, (s.translate f va ⟨true, false, true⟩).2 with
  | true, .ok a _ => s.gwctOf (a / 128)
  | _, _ => s.time

/-- A SIGNAL whose write has performed raises its interrupt and retires. -/
def State.signalDone (s : State) (f q n : Nat) (r : Rec) : State :=
  (if natBits (r.word 0x28) 11 1 = 1 then s.raiseMsi f (natBits (r.word 0x28) 0 11) else s).retire f q n stOK 0 0

/-- SIGNAL: the value is written, and when the write has performed the interrupt is raised if IRQ is set. -/
def execSignal (f q n : Nat) (s : State) : Host.Outcome State Fault Refusal :=
  .next (match (s.rec? f q n).bind (fun r => if r.opc = 7 then some r else none) with
    | none => s
    | some r => match r.stage with
      | .started =>
        let loc := ((s.func f).queue q).loc
        let t := s.ringPerforms f loc (r.dword 0x10)
        (match s.writeRing f loc (r.dword 0x10) 8 (r.dword 0x18) with
          | (s, .error c) => s.retire f q n stFaulted c.code 0
          | (s, .ok ()) =>
            if t ≤ s.time then s.signalDone f q n r else s.modRec f q n (fun r => { r with stage := .waiting (some t) }))
      | .waiting (some t) => if t ≤ s.time then s.signalDone f q n r else s
      | _ => s)

/-- The condition of a WAIT_VALUE on the word read. -/
def Rec.holds (r : Rec) (x : Nat) : Bool :=
  let a := x &&& r.dword 0x20
  let v := r.dword 0x18
  match natBits (r.word 0x28) 12 2 with
  | 0 => a == v
  | 1 => a != v
  | 2 => decide (v ≤ a)
  | _ => decide (a < v)

/-- One read of a WAIT_VALUE: it retires, or goes on waiting. -/
def State.waitRead (s : State) (f q n : Nat) (r : Rec) (stage : RecStage) : State :=
  match s.readRing f ((s.func f).queue q).loc (r.dword 0x10) 8 with
  | (s, .error c) => s.retire f q n stFaulted c.code 0
  | (s, .ok x) =>
    if r.holds x then s.retire f q n stOK 0 0
    else s.modRec f q n (fun r => { r with stage, poke := false, since := s.time })

/-- WAIT_VALUE: the word is read once at the start. -/
def execWaitValue (f q n : Nat) (s : State) : Host.Outcome State Fault Refusal :=
  .next (match s.begun? f q n 8 with
    | none => s
    | some r =>
      let limit := natBits (r.word 0x28) 16 16
      s.waitRead f q n r (.waiting (if limit = 0 then none else some (s.time + 4000 * limit))))

/-- The limit of a waiting WAIT_VALUE; none when it does not wait. -/
def Rec.waiting (r : Rec) : Option (Option Nat) :=
  match r.stage with
  | .waiting d => if r.opc = 8 then some d else none
  | _ => none

/-- WAIT_VALUE_POLL: the word is read again, every 4,000 ticks when it is in host memory, and after each store
that the device can see. -/
def execWaitValuePoll (f q n : Nat) (s : State) : Host.Outcome State Fault Refusal :=
  .next (match s.rec? f q n with
    | none => s
    | some r => match r.waiting with
      | none => s
      | some d =>
        if r.poke || (!((s.func f).queue q).loc && decide (r.since + 4000 ≤ s.time)) then s.waitRead f q n r (.waiting d) else s)

/-- WAIT_VALUE_TIMEOUT: the limit has passed. -/
def execWaitValueTimeout (f q n : Nat) (s : State) : Host.Outcome State Fault Refusal :=
  .next (match s.rec? f q n with
    | none => s
    | some r => match r.waiting with
      | some (some d) => if d ≤ s.time then s.retire f q n 8 0 0 else s
      | _ => s)

/-! ## CTX_SAVE, CTX_RESTORE and CTX_ABORT (R423 to R425) -/

/-- The resident units of a function that are under no cut, oldest first. -/
def State.unitsOfFunc (s : State) (f : Nat) : List (List Nat) :=
  ((s.blocks.filter (fun e => e.2.status == .resident && (s.cutOf e.1).isNone &&
    (match s.grids.get? e.2.grid with
      | some g => g.func == f
      | none => false))).map (fun e => s.unitOf e.1)).eraseDups

/-- Saves of some units begun together; none when the heap cannot hold them all. -/
def State.saveUnits (s : State) (reason : Nat) (listOf : Nat × Nat × Nat) : List (List Nat) → Option State
  | [] => some s
  | u :: rest =>
    match s.beginSave u reason true 0 0 (some listOf) with
    | none => none
    | some (s, _) => State.saveUnits s reason listOf rest

/-- A unit's save put on a CTX_SAVE's list (R423). -/
def CutUnit.onList (k : Nat × Nat × Nat) (u : CutUnit) : CutUnit := { u with hold := true, reason := 3, listOf := some k }

/-- CTX_SAVE (R423): placement stops, and every resident unit begins its save, or goes on with the one under way; the
record waits while the heap has no room. -/
def execCtxSave (f q n : Nat) (s : State) : Host.Outcome State Fault Refusal :=
  .next (match s.begun? f q n 9 with
    | none => s
    | some _ =>
      if (s.func f).ctxLate s.time then s
      else
        let s := s.modFunc f (fun x => { x with saving := true })
        match s.saveUnits 3 (f, q, n) (s.unitsOfFunc f) with
        | none => s
        | some t =>
          let t := (t.joinSaves f (CutUnit.onList (f, q, n))).running f q n
          if (t.listUnits (f, q, n)).isEmpty then t.publishList (f, q, n) else t)

/-- The 64-bit words of a list read for a function. -/
def State.dwordsFor (s : State) (f a : Nat) : Nat → State × Except Cause (List Nat)
  | 0 => (s, .ok [])
  | n + 1 =>
    match s.readFor f a 8 with
    | (s, .error c) => (s, .error c)
    | (s, .ok x) =>
      match State.dwordsFor s f (a + 8) n with
      | (s, .ok l) => (s, .ok (x :: l))
      | (s, .error c) => (s, .error c)

/-- The unit and the descriptor that an address names, when it is a HELD cairn with REASON 3 of a function. -/
def State.heldCairn (s : State) (f addr : Nat) : Option (Nat × Nat) :=
  ((s.func f).part.bind (fun pk => s.unitAt pk addr)).bind (fun u =>
    if u.func = f ∧ u.state = .held ∧ u.reason = 3 then
      ((s.parts.get? u.part).bind (fun p => u.descs.find? (fun d => p.descAddress d == addr && !u.loose.contains d))).map
        (fun d => (u.id, d))
    else none)

/-- Some HELD cairns made PUBLISHED; a unit whose cairns are all PUBLISHED can be resumed (R374). -/
def State.publishCairns (s : State) (l : List (Nat × Nat)) : State :=
  s.cuts.foldl (fun s u =>
    let mine := (l.filter (fun e => e.1 == u.id)).map (·.2)
    if mine.isEmpty then s
    else
      let loose := u.loose ++ mine
      if u.descs.all loose.contains then s.releaseUnit u
      else match s.parts.get? u.part with
        | none => s
        | some p =>
          let s := mine.foldl (fun s d => s.physWord (p.descAddress d + 0x08) 8 (u.stateWord .published)) s
          { s with cuts := s.cuts.map (fun x => if x.id = u.id then { x with loose } else x) }) s

/-- CTX_RESTORE (R423): the listed cairns become PUBLISHED in one step and placement resumes, or the record
retires BAD_RECORD. -/
def execCtxRestore (f q n : Nat) (s : State) : Host.Outcome State Fault Refusal :=
  .next (match (s.begun? f q n 10).filter (fun _ => !(s.func f).ctxLate s.time) with
    | none => s
    | some r =>
      match s.readFor f (r.dword 0x10) 8 with
      | (s, .error c) => s.retire f q n stFaulted c.code 0
      | (s, .ok count) =>
        match s.dwordsFor f (r.dword 0x10 + 8) count with
        | (s, .error c) => s.retire f q n stFaulted c.code 0
        | (s, .ok l) =>
          let named := l.map (s.heldCairn f)
          if named.all Option.isSome then
            ((s.publishCairns (named.filterMap id)).modFunc f (fun x => { x with saving := false })).retire f q n stOK 0 0
          else s.retire f q n stBadRecord 0 0)

/-- A CTX_SAVE or CTX_RESTORE given up: its unpublished cairns are freed and its units go on (R425). -/
def State.dropCtx (s : State) (k : Nat × Nat × Nat) (opc : Nat) : State :=
  let s := (s.listUnits k).foldl (fun s u => s.dropSave u) s
  if opc = 9 then s.modFunc k.1 (fun x => { x with saving := false }) else s

/-- CTX_ABORT (R425): a CTX command that is in progress 200,000 ticks after the request of a switch-out. -/
def execCtxAbort (f q n : Nat) (s : State) : Host.Outcome State Fault Refusal :=
  .next (match s.rec? f q n, (s.func f).switching with
    | some r, some t =>
      if (r.opc = 9 ∨ r.opc = 10) ∧ r.stage ≠ .retired ∧ t + 200000 ≤ s.time then
        (s.dropCtx (f, q, n) r.opc).retire f q n 6 0 0
      else s
    | _, _ => s)

end Sys2Proof.Machine
end

