-- ==== Sys2Proof/Machine/Plats.lean ====
section
/-! DEFINITION. Plats (R331 to R343) and replica checks (R395, R396): the tables that the plat engines read and
write, tokens, cones, rearming, the payloads of nodes, the start and the end of instances, and what happens
when an access to a table faults (R463). -/

namespace Sys2Proof.Machine

/-! ## Access to plat tables (R331, R463) -/

/-- An instance that is not running. -/
def PlatInst.none : PlatInst :=
  { func := 0, plat := 0, gen := 0, nnode := 0, wgt := 1, origin := .device, depth := 0, ready := [], payloads := [],
    cones := [], waits := [], outcomes := [], halted := .none, dead := .none }

/-- An instance. -/
def State.plat (s : State) (k : Nat) : PlatInst := s.plats.getD k PlatInst.none

/-- The named place of a table's byte in a function's address space: the engine needs only V in the leaf, and its
translation sets A, and D for a write (R232, R331). -/
def State.platPlace (s : State) (f va : Nat) (write : Bool) : State × Except Cause Nat :=
  if 2 ^ 56 ≤ va then (s, .error .window)
  else
    let found := s.walkNow f va write
    let t : State := match found, s.asker with
      | .none, some c => s.sendMiss c f va ⟨write, false, true⟩
      | _, _ => s
    let w := found.getD (s.walk f va)
    match w, w.result va ⟨false, false, true⟩ with
    | .leaf _ place _ _, .ok a _ => ((t.markPage place write).land (.global a false) hostKey, .ok a)
    | _, .ok a _ => (t, .ok a)
    | _, .fault c _ _ => (t, .error c)

/-- An access of an instance to its table for a node, or for its header (node 0). One that faults posts a
violation and is the instance's end; later accesses have no effect (R463). -/
def State.platTake (s : State) (k who va : Nat) (write : Bool) : State × Option Nat :=
  if (s.plat k).dead.isSome then (s, .none)
  else
    match s.platPlace (s.plat k).func va write with
    | (s, .ok a) => (s, some a)
    | (s, .error c) =>
      ((s.funcViolation (s.plat k).func va).modPlat k (fun p => { p with dead := some (c.code, who) }), .none)

/-- A word of a table. -/
def State.platWord (s : State) (k who va : Nat) : State × Nat :=
  match s.platTake k who va false with
  | (s, some a) => (s, s.hbm.load a 4)
  | (s, .none) => (s, 0)

/-- A word of a table written. -/
def State.setPlatWord (s : State) (k who va x : Nat) : State :=
  match s.platTake k who va true with
  | (s, some a) => s.storeAt (.global a false) 4 x
  | (s, .none) => s

/-- Consecutive words of a table. -/
def State.platWords (s : State) (k who va : Nat) : Nat → State × List Nat
  | 0 => (s, [])
  | n + 1 =>
    let (s, x) := s.platWord k who va
    let (s, l) := State.platWords s k who (va + 4) n
    (s, x :: l)

/-! ## Node records (R332, R334) -/

/-- The address of a node's field. -/
def PlatInst.nodeAt (p : PlatInst) (i off : Nat) : Nat := p.plat.toNat + 64 * (1 + i) + off

/-- A node's words at 0x00 to 0x2C. -/
def State.nodeRec (s : State) (k i : Nat) : State × List Nat := s.platWords k i ((s.plat k).nodeAt i 0) 12

/-- A word of a node's record. -/
def nodeField (w : List Nat) (off lo n : Nat) : Nat := natBits (w.getD (off / 4) 0) lo n

/-- A node's state in a generation: a stale one reads ARMED while the instance runs (R334). -/
def nodeState (gen : Word) (w : List Nat) : Nat := if nodeField w 0x0C 0 32 = gen.toNat then nodeField w 0 28 4 else 1

/-- The retries that a node has used in a generation. -/
def nodeUsed (gen : Word) (w : List Nat) : Nat := if nodeField w 0x0C 0 32 = gen.toNat then nodeField w 0x18 24 8 else 0

/-- A node's count in a generation. -/
def nodeCount (gen : Word) (w : List Nat) : Nat := if nodeField w 0x08 0 32 = gen.toNat then nodeField w 0x04 0 32 else 0

/-- A 64-bit field of a node's record. -/
def nodeLong (w : List Nat) (off : Nat) : Nat := nodeField w off 0 32 + 2 ^ 32 * nodeField w (off + 4) 0 32

/-- A node's STATE and RUSED written, and with them SGEN (R334, R456). -/
def State.setNode (s : State) (k i st used : Nat) : State :=
  let p := s.plat k
  let (s, w) := s.nodeRec k i
  let s := s.setPlatWord k i (p.nodeAt i 0) (nodeField w 0 0 28 + 2 ^ 28 * st)
  let s := s.setPlatWord k i (p.nodeAt i 0x18) (nodeField w 0x18 0 24 + 2 ^ 24 * used)
  s.setPlatWord k i (p.nodeAt i 0x0C) p.gen.toNat

/-- A node's STATE written; its RUSED stays. -/
def State.setState (s : State) (k i st : Nat) : State :=
  let (s, w) := s.nodeRec k i
  s.setNode k i st (nodeUsed (s.plat k).gen w)

/-- A node's FST and FSUB written. -/
def State.setFault (s : State) (k i st sub : Nat) : State :=
  let p := s.plat k
  let (s, w) := s.platWord k i (p.nodeAt i 0x1C)
  s.setPlatWord k i (p.nodeAt i 0x1C) (natBits w 0 16 + 2 ^ 16 * (sub % 2 ^ 8) + 2 ^ 24 * (st % 2 ^ 8))

/-- A node becomes READY: it is issued in its turn (R335). -/
def State.readyNode (s : State) (k i : Nat) : State :=
  (s.setState k i 2).modPlat k (fun p => { p with ready := p.ready ++ [i] })

/-- A node's successor entries. A list that cannot be read is the end of the instance, as its node records are (DESIGN
CHOICE, assumption 144: R463's table names the header and the node records). -/
def State.entriesOf (s : State) (k i : Nat) : State × List Nat :=
  let (s, w) := s.nodeRec k i
  s.platWords k i (nodeLong w 0x10) (nodeField w 0x18 0 13)

/-- An entry of a node's list that R341 does not discard. -/
def entryLegal (nnode kind e : Nat) : Bool :=
  decide (natBits e 0 16 < nnode) && natBits e 17 15 == 0 && (natBits e 16 1 == 0 || kind == 5)

/-- The successors of a node in list order. -/
def State.successors (s : State) (k i : Nat) : State × List Nat :=
  let (s, w) := s.nodeRec k i
  let (s, l) := s.entriesOf k i
  (s, (l.filter (entryLegal (s.plat k).nnode (nodeField w 0 24 4))).map (fun e => natBits e 0 16))

/-! ## Tokens (R334, R336, R341) -/

/-- One discarded token counted in the header's DROPS. -/
def State.countDrop (s : State) (k : Nat) : State :=
  let a := (s.plat k).plat.toNat + 0x0C
  let (s, w) := s.platWord k 0 a
  s.setPlatWord k 0 a (w - w % 2 ^ 16 + min 65535 (w % 2 ^ 16 + 1))

/-- One token counted at a node (R334). -/
def State.countToken (s : State) (k i : Nat) : State :=
  let p := s.plat k
  let (s, w) := s.nodeRec k i
  let n := nodeCount p.gen w + 1
  let s := s.setPlatWord k i (p.nodeAt i 0x04) n
  s.setPlatWord k i (p.nodeAt i 0x08) p.gen.toNat

/-- A token of the current generation at a node: an ARMED node whose count reaches TNEED becomes READY; a halted
instance keeps its states (R336, R339). -/
def State.token (s : State) (k i : Nat) : State :=
  let s := s.countToken k i
  let p := s.plat k
  let (s, w) := s.nodeRec k i
  if nodeState p.gen w = 1 ∧ nodeField w 0 0 16 ≤ nodeCount p.gen w ∧ p.halted = .none then s.readyNode k i else s

/-- A node's tokens delivered to its successors; a condition node's only to the entries whose WHEN is its
outcome. -/
def State.deliver (s : State) (k i : Nat) : State :=
  let (s, w) := s.nodeRec k i
  let (s, l) := s.entriesOf k i
  let p := s.plat k
  let kind := nodeField w 0 24 4
  let outcome := if p.outcomes.contains i then 1 else 0
  l.foldl (fun s e =>
    if !entryLegal p.nnode kind e then s.countDrop k
    else if kind == 5 && natBits e 16 1 != outcome then s
    else s.token k (natBits e 0 16)) s

/-! ## The end of an instance (R339, R463) -/

/-- The lowest-numbered FAULTED node of an instance with its FST and FSUB. -/
def State.firstFaulted (s : State) (k : Nat) : Nat → Nat → State × Option (Nat × Nat)
  | 0, _ => (s, .none)
  | n + 1, i =>
    let (s, w) := s.nodeRec k i
    if nodeState (s.plat k).gen w = 5 then
      let (s, x) := s.platWord k i ((s.plat k).nodeAt i 0x1C)
      (s, some (i, natBits x 16 8))
    else State.firstFaulted s k n (i + 1)

/-- RUN, and for a halted instance HALT, in the header. -/
def State.setRun (s : State) (k : Nat) (run halt : Bool) : State :=
  let a := (s.plat k).plat.toNat + 0x0C
  let (s, w) := s.platWord k 0 a
  s.setPlatWord k 0 a (natBits w 0 30 + (if halt then 2 ^ 30 else natBits w 30 1 * 2 ^ 30) + (if run then 2 ^ 31 else 0))

/-- An instance that has nothing more to do ends: RUN is cleared, and what started it learns its status (R339). -/
def State.endPlat (s : State) (k : Nat) : State :=
  let p := s.plat k
  let s := s.setRun k false false
  let (s, out) := match p.halted with
    | some n => (s, (9, 0, n))
    | .none => match s.firstFaulted k p.nnode 0 with
      | (s, some (i, sub)) => (s, (stFaulted, sub, i))
      | (s, .none) => (s, (stOK, 0, 0))
  if (s.plat k).dead.isSome then s
  else ({ s with plats := s.plats.erase k }).originEnded p.origin out.1 out.2.1 out.2.2

/-- After an event of an instance: a dead one cuts its payloads and ends FAULTED; a quiet one ends. -/
def State.settlePlat (cut : State → Nat → State) (s : State) (k : Nat) : State :=
  match s.plats.get? k with
  | .none => s
  | some p =>
    let s := if p.dead.isNone && p.payloads.isEmpty && (p.halted.isSome || (p.ready.isEmpty && p.cones.isEmpty)) then
      s.endPlat k else s
    match (s.plats.get? k).bind (·.dead) with
    | .none => s
    | some (c, who) =>
      let s := (p.payloads.map (·.node)).foldl cut s
      ({ s with plats := s.plats.erase k }).originEnded p.origin stFaulted c who

/-! ## Cuts and cones (R337) -/

/-- What a node of an instance has started. -/
def ofNode (k node : Nat) : Origin → Bool
  | .node i m => i == k && m == node
  | .nodeEntry i m _ => i == k && m == node
  | _ => false

/-- The cut of a node's payload: its grids and chains; of a sub-plat, every node that is not DONE. `depth` bounds
the nesting (R333). -/
def State.cutPayload : Nat → State → Nat → Nat → State
  | 0, s, k, node => s.cutOrigins (ofNode k node)
  | depth + 1, s, k, node =>
    let s := (s.modPlat k (fun p => p.modPayload node (fun x => { x with cut := true }))).cutOrigins (ofNode k node)
    match s.plats.find? (fun e => ofNode k node e.2.origin) with
    | .none => s
    | some (j, q) =>
      let s := (List.range q.nnode).foldl (fun s i =>
        let (s, w) := s.nodeRec j i
        let st := nodeState q.gen w
        if st = 4 then s
        else
          let s := if st = 3 then State.cutPayload depth s j i else s
          s.setState j i 6) s
      let s := s.modPlat j (fun p => { p with ready := [], cones := [], waits := [] })
      s.settlePlat (fun s i => State.cutPayload depth s j i) j

/-- The deepest nesting of sub-plats. -/
def platDepth : Nat := 4

/-- A node reached by a cone cancellation becomes CANCELLED; a RUNNING one's payload is cut. -/
def State.cancelNode (s : State) (k i st : Nat) : State :=
  let s := if st = 3 then State.cutPayload platDepth s k i else s
  (s.setState k i 6).modPlat k (fun p =>
    { p with ready := p.ready.filter (· != i), cones := p.cones.erase i, waits := p.waits.filter (fun x => x.node != i) })

/-- The breadth-first walk of a cone: the cancelled nodes in order. -/
def State.coneWalk (s : State) (k : Nat) : Nat → List Nat → List Nat → List Nat → State × List Nat
  | 0, _, _, c => (s, c)
  | _, [], _, c => (s, c)
  | fuel + 1, i :: rest, seen, c =>
    if seen.contains i then State.coneWalk s k fuel rest seen c
    else
      let (s, w) := s.nodeRec k i
      let st := nodeState (s.plat k).gen w
      if st = 4 then State.coneWalk s k fuel rest seen c
      else
        let (s, c) := if st = 5 then (s, c) else (s.cancelNode k i st, c ++ [i])
        let (s, next) := s.successors k i
        State.coneWalk s k fuel (rest ++ next) (i :: seen) c

/-- The cone of a node cancelled: the nodes of the cone. -/
def State.cancelCone (s : State) (k i : Nat) : State × List Nat :=
  let (s, q) := s.successors k i
  s.coneWalk k (4097 * 4097) q [i] []

/-- A node faults for good: FAULTED with its status, and its cone is cancelled (R333, R336). -/
def State.faultNode (s : State) (k i st sub : Nat) : State :=
  (((s.setFault k i st sub).setState k i 5).cancelCone k i).1

/-- The end of an event of an instance. -/
def State.settled (s : State) (k : Nat) : State := s.settlePlat (fun s i => State.cutPayload platDepth s k i) k

/-! ## Starting an instance (R331, R340) -/

/-- The 16 words of a plat's header, for a function. -/
def State.platHeader (s : State) (f va : Nat) : Nat → State × Except Cause (List Nat)
  | 0 => (s, .ok [])
  | n + 1 =>
    match s.platPlace f va false with
    | (s, .error c) => (s.funcViolation f va, .error c)
    | (s, .ok a) =>
      match State.platHeader s f (va + 4) n with
      | (s, .ok l) => (s, .ok (s.hbm.load a 4 :: l))
      | (s, .error c) => (s, .error c)

/-- A header keeps R331. -/
def platLegal (h : List Nat) : Bool :=
  nodeField h 0 0 32 == 0x504C4154 && nodeField h 4 13 19 == 0 && decide (1 ≤ nodeField h 4 0 13) &&
  decide (nodeField h 4 0 13 ≤ 4096) && (h.drop 4).all (· == 0)

/-- The instance that runs on the plat at an address of a function's space. -/
def State.platOn (s : State) (f va : Nat) : Option (Nat × PlatInst) :=
  match (s.platPlace f va false).2 with
  | .error _ => .none
  | .ok a => s.plats.find? (fun e => match (s.platPlace e.2.func e.2.plat.toNat false).2 with
    | .ok b => a == b
    | .error _ => false)

/-- An instance started: CURGEN, RUN and the IDLE rows of R336. -/
def State.startPlat (s : State) (f va gen nnode wgt : Nat) (o : Origin) (depth : Nat) : State :=
  let k := s.nextId
  let p := { PlatInst.none with
    func := f, plat := BitVec.ofNat 64 va, gen := BitVec.ofNat 32 gen, nnode, wgt, origin := o, depth }
  let s : State := { s with plats := s.plats.set k p, nextId := k + 1 }
  let s := (s.setPlatWord k 0 (va + 8) gen).setRun k true false
  let s := (List.range nnode).foldl (fun s i =>
    let (s, w) := s.nodeRec k i
    if nodeField w 0 0 16 = 0 then (s.setNode k i 2 0).modPlat k (fun p => { p with ready := p.ready ++ [i] })
    else s.setNode k i 1 0) s
  s.settled k

/-- Instances that may run in the package (R340). -/
def maxPlats : Nat := 512

/-- The plats of the RUN_PLAT records that have started and have not begun: each counts as its instance. -/
def State.begunPlats (s : State) : List (Nat × Nat) :=
  s.funcs.flatMap (fun e => e.2.queues.flatMap (fun x => (x.2.recs.filter (fun y =>
    y.stage == .started && y.opc == 2)).map (fun y => (e.1, y.dword 0x10))))

/-- 512 instances run. -/
def State.platsFull (s : State) : Bool := decide (maxPlats ≤ s.plats.length + s.begunPlats.length)

/-- A record is a RUN_PLAT that would start an instance (R331, R340). -/
def State.wantsPlat (s : State) (f : Nat) (r : Rec) : Bool :=
  r.legal && r.opc == 2 && (match s.platHeader f (r.dword 0x10) 16 with
    | (_, .ok h) => platLegal h && decide (nodeField h 8 0 32 < r.word 0x18)
    | _ => false)

/-- An instance of a record's plat runs. -/
def State.platRuns (s : State) (f : Nat) (r : Rec) : Bool :=
  let place := fun (f va : Nat) => match (s.platPlace f va false).2 with
    | .ok a => some a
    | .error _ => .none
  (s.platOn f (r.dword 0x10)).isSome || s.begunPlats.any (fun e => place e.1 e.2 == place f (r.dword 0x10))

/-- The record at a queue's head, as it stands now; none when it may not start. -/
def State.headRecord (s : State) (f q : Nat) : Option Rec :=
  let x := (s.func f).queue q
  if !s.mayStart f q then .none
  else
    match (s.recordWords f x x.start).2 with
    | .ok w => some (Rec.ofWords x.start s.time w)
    | .error _ => .none

/-- What waits for a place among the running plats could still take one: a RUN_PLAT that nothing else holds, or a node
that may be issued. -/
def State.platSeeks (s : State) : PlatAsker → Bool
  | .record f q => (s.headRecord f q).any (fun r => s.wantsPlat f r && !s.platRuns f r)
  | .node k => (s.plats.get? k).any (fun p => !p.ready.isEmpty && p.halted.isNone && (s.func p.func).places)

/-- A place among the running plats is free, and nobody has waited for one longer (R23, R340). -/
def State.platFree (s : State) (a : PlatAsker) : Bool :=
  !s.platsFull && (match (s.platWait.filter (fun x => x == a || s.platSeeks x)).head? with
    | some x => x == a
    | .none => true)

/-- An asker joins those that wait for a place among the running plats; it leaves when it has taken one. -/
def State.seekPlat (s : State) (a : PlatAsker) : State :=
  if s.platWait.contains a then s else { s with platWait := s.platWait ++ [a] }

/-- An asker waits no longer. -/
def State.foundPlat (s : State) (a : PlatAsker) : State := { s with platWait := s.platWait.filter (· != a) }

/-- RECORD_START (R318, R319, R340): the next record of a queue, read as it stands now. A host ring outside the host's
mapping freezes the function, and starts nothing (R429). -/
def execRecordStart (f q : Nat) (s : State) : Host.Outcome State Fault Refusal :=
  .next (if !s.mayStart f q then s
    else
      let x := (s.func f).queue q
      match s.recordWords f x x.start with
      | (t, .error c) => if x.loc then t.enterRecord f q (Rec.ofWords x.start s.time []) (some c) else t
      | (t, .ok w) =>
        let r := Rec.ofWords x.start s.time w
        let prev := natBits r.hdr.toNat 9 1 == 1 || implicitPrev r.opc
        if prev && x.recs.any (fun y => y.stage != .retired) then s
        else if s.wantsPlat f r then
          (if s.platRuns f r then s
          else if s.platFree (.record f q) then (t.foundPlat (.record f q)).enterRecord f q r .none
          else s.seekPlat (.record f q))
        else t.enterRecord f q r .none)

/-- RUN_PLAT (R340). -/
def execRunPlat (f q n : Nat) (s : State) : Host.Outcome State Fault Refusal :=
  .next (match s.begun? f q n 2 with
    | .none => s
    | some r =>
      let va := r.dword 0x10
      let gen := r.word 0x18
      match s.platHeader f va 16 with
      | (t, .error c) => t.retire f q n stFaulted c.code 0
      | (t, .ok h) =>
        if !platLegal h then t.retire f q n stBadRecord 0 0
        else if gen ≤ nodeField h 8 0 32 then t.retire f q n 10 0 0
        else if (s.platOn f va).isSome || decide (maxPlats ≤ s.plats.length) then s
        else (t.running f q n).startPlat f va gen (nodeField h 4 0 13) (t.queueWgt f q) (.record f q n) 0)

/-! ## Issuing nodes (R333) -/

/-- What issuing a node gives. -/
inductive Issued where
  | run (outcome : Bool) (ended : Option (Nat × Nat)) (parts : Nat)
  | refused (st sub : Nat)
  | wait
  deriving DecidableEq, Repr

/-- The words that R333 wants of each kind: PAYLOAD aligned and PARAM as the kind has it. -/
def nodeLegal (w : List Nat) : Bool :=
  let pay := nodeLong w 0x20
  let par := nodeLong w 0x28
  nodeField w 0x18 13 11 == 0 && decide (nodeField w 0x18 0 13 ≤ 4096) && nodeLong w 0x10 % 4 == 0 &&
  (match nodeField w 0 24 4 with
    | 0 | 2 | 4 => pay % 64 == 0 && par == 0
    | 1 => pay % 64 == 0 && decide (1 ≤ par) && decide (par ≤ 16)
    | 3 | 5 => pay % 8 == 0
    | _ => false)

/-- The node that an instance would issue is behind others that have waited for channels longer (R23). -/
def State.nodeBehind (s : State) (p : PlatInst) (since : Nat) : Bool :=
  s.recordWaits p.func (waitPlace since) || s.nodeWaits p.func since

/-- A node's payload started (R333); a sub-plat runs at its CURGEN + 1. One whose plat runs already, or which would be the
fifth sub-plat below the top instance, is FAULTED with BAD_RECORD (DESIGN CHOICE, assumption 143: R333 names the two
statuses and does not say which of them it is, nor from where it counts the four levels). -/
def State.startNode (s : State) (k i : Nat) (w : List Nat) : State × Issued :=
  let p := s.plat k
  let since := p.waitFrom.getD s.time
  let pay := nodeLong w 0x20
  let par := nodeLong w 0x28
  let faulted := fun (c : Cause) => Issued.run false (some (stFaulted, c.code)) 0
  if !nodeLegal w then (s, .refused stBadRecord 0)
  else
    match nodeField w 0 24 4 with
    | 0 =>
      (match s.wordsFor p.func pay 12 with
        | (s, .error c) => (s, faulted c)
        | (s, .ok d) => match s.startGrid p.func true d p.wgt (s.func p.func).prioceil (.node k i) true with
          | (s, .error sub) => (s, .refused stRefused sub)
          | (s, .ok _) => (s, .run false .none 0))
    | 1 =>
      (match s.readBundle p.func pay par with
        | (t, .fault c) => (t, faulted c)
        | (t, .bad st sub) => (t, .refused st sub)
        | (t, .ok l) =>
          if l.any SubLaunch.isChain && s.nodeBehind p since then (s, .wait)
          else match t.startParts p.func p.wgt (t.func p.func).prioceil since (.nodeEntry k i) 0 l with
            | .none => (s, .wait)
            | some t => (t, .run false .none l.length))
    | 2 =>
      if s.nodeBehind p since then (s, .wait)
      else (match s.startChain p.func pay since (.node k i) with
        | .none => (s, .wait)
        | some s => (s, .run false .none 0))
    | 3 =>
      (match s.writeFor p.func pay 8 par with
        | (s, .error c) => (s, faulted c)
        | (s, .ok ()) => (s, .run false (some (stOK, 0)) 0))
    | 4 =>
      (match s.platHeader p.func pay 16 with
        | (t, .error c) => (t, faulted c)
        | (t, .ok h) =>
          if !platLegal h || (s.platOn p.func pay).isSome || decide (platDepth ≤ p.depth) then (t, .refused stBadRecord 0)
          else if !s.platFree (.node k) then (s, .wait)
          else (t, .run false .none 0))
    | _ =>
      (match s.readFor p.func pay 8 with
        | (s, .error c) => (s, faulted c)
        | (s, .ok x) => (s, .run (x &&& par != 0) (some (stOK, 0)) 0))

/-- A RUNNING node's payload entered; a sub-plat's instance starts. -/
def State.enterNode (s : State) (k i : Nat) (w : List Nat) (outcome : Bool) (ended : Option (Nat × Nat)) (parts : Nat) :
    State :=
  let kind := nodeField w 0 24 4
  let x : Payload :=
    { node := i, kind, digest := .none, parts := openParts parts, cut := false, ended, outcome, endedAt := s.endTick k i }
  let s := ((s.foundPlat (.node k)).setState k i 3).modPlat k (fun p => { p with
    waitFrom := .none, ready := p.ready.filter (· != i), payloads := p.payloads ++ [x]
    outcomes := if outcome then insertNat i p.outcomes else p.outcomes.filter (· != i) })
  if kind = 4 ∧ ended = .none then
    let p := s.plat k
    match s.platHeader p.func (nodeLong w 0x20) 16 with
    | (s, .ok h) =>
      s.startPlat p.func (nodeLong w 0x20) ((nodeField h 8 0 32 + 1) % 2 ^ 32) (nodeField h 4 0 13) p.wgt (.node k i) (p.depth + 1)
    | (s, .error _) => s
  else s

/-- NODE_ISSUE (R333, R335, R336): the node that has been READY longest is issued; an idle, frozen or halted
instance issues none (R339, R422). -/
def execNodeIssue (inst : Nat) (s : State) : Host.Outcome State Fault Refusal :=
  .next (match s.plats.get? inst with
    | .none => s
    | some p =>
      match p.ready with
      | [] => s
      | i :: _ =>
        if !(s.func p.func).places || p.halted.isSome then s
        else
          let (t, w) := s.nodeRec inst i
          if (t.plat inst).dead.isSome then t.settled inst
          else
            match t.startNode inst i w with
            | (_, .wait) =>
              let s := s.modPlat inst (fun p => { p with waitFrom := some (p.waitFrom.getD s.time) })
              if nodeField w 0 24 4 = 4 then s.seekPlat (.node inst) else s
            | (t, .refused st sub) =>
              ((t.modPlat inst (fun p => { p with waitFrom := .none, ready := p.ready.filter (· != i) })).faultNode inst i st
                sub).settled inst
            | (t, .run outcome ended parts) => (t.enterNode inst i w outcome ended parts).settled inst)

/-! ## Ends of payloads (R335, R336) -/

/-- The ended payload that an instance applies next, of those that have reached its engine: in the order of their ticks, and
of one tick that of the lowest node (R335). Those that wait for their replicas are not among them. -/
def PlatInst.nextEnded (p : PlatInst) (now : Nat) : Option Payload :=
  let ended := p.payloads.filter (fun x => x.ended.isSome && decide (x.endedAt ≤ now) && !p.waits.any (fun y => y.node == x.node))
  (sortOn (fun x : Payload => x.endedAt * tokenPlace + x.node) ended).head?

/-- A token for an instance has come to the engines before a tick. -/
def State.tokenBefore (s : State) (inst t : Nat) : Bool :=
  s.tokens.any (fun x => decide (x.at_ < t) && (s.platOn x.func x.plat.toNat).any (fun e => e.1 == inst))

/-- The end of a node's payload, when it is what the instance's engine applies next (R335). -/
def State.endDue (s : State) (inst node : Nat) : Option (PlatInst × Payload) :=
  ((s.plats.get? inst).bind (fun p => (p.nextEnded s.time).map (fun x => (p, x)))).filter (fun e =>
    e.2.node == node && !s.tokenBefore inst e.2.endedAt)

/-- A payload leaves its instance. -/
def State.dropPayload (s : State) (k i : Nat) : State :=
  s.modPlat k (fun p => { p with payloads := p.payloads.filter (fun x => x.node != i) })

/-- A node is DONE and its tokens are delivered. -/
def State.nodeDone (s : State) (k i : Nat) : State := ((s.dropPayload k i).setState k i 4).deliver k i

/-- The members of a function's replica group but for this device. -/
def State.replicaPeers (s : State) (f : Nat) : List (BitVec 16) := (s.func f).replica.filter (· != s.fabric.devid)

/-- A halt report (R396, R419). -/
def State.haltReport (s : State) (p : PlatInst) (x : ReplicaWait) : State :=
  let members := (s.func p.func).replica
  let digestOf := fun (d : BitVec 16) =>
    if d = s.fabric.devid then some x.digest else (x.got.find? (fun e => e.1 == d)).map (·.2)
  let absent := (members.mapIdx (fun i d => if (digestOf d).isNone then 2 ^ i else 0)).foldl (· + ·) 0
  let put := fun (off : Nat) (l : List Byte) => l.mapIdx (fun i b => (off + i, b))
  s.postEvent p.func 2 (fieldBytes 0x10 8 p.plat.toNat ++ fieldBytes 0x18 4 p.gen.toNat ++
    fieldBytes 0x1C 4 (x.node + members.length * 2 ^ 16 + absent * 2 ^ 20) ++ put 0x20 x.digest ++
    (members.mapIdx (fun i d => put (0x40 + 32 * i) ((digestOf d).getD (List.replicate 32 0)))).flatten)

/-- An instance halts on a node's digests (R396): HALT is set, the report is posted, and no further node fires. The nodes
that wait for their replicas stay RUNNING and deliver no token: their payloads have ended. -/
def State.haltPlat (s : State) (k : Nat) (x : ReplicaWait) : State :=
  let s := (s.setRun k true true).haltReport (s.plat k) x
  (s.modPlat k (fun p => { p with
    halted := some x.node, waits := []
    payloads := p.payloads.filter (fun y => y.node != x.node && !p.waits.any (fun z => z.node == y.node)) })).settled k

/-- A replica comparison looked at (R395, R396): when every member's message has come, the node is DONE if every digest is
equal, and the instance halts if one differs; until then it waits, so that a report finds absent only the members whose
messages have not come within the limit. -/
def State.compareReplicas (s : State) (k : Nat) (x : ReplicaWait) : State :=
  if !(s.replicaPeers (s.plat k).func).all (fun d => x.got.any (fun e => e.1 == d)) then s
  else if x.got.any (fun e => e.2 != x.digest) then s.haltPlat k x
  else ((s.modPlat k (fun p => { p with waits := p.waits.filter (fun y => y.node != x.node) })).nodeDone k x.node).settled k

/-- A message is a member's for a node of an instance: it carries the key of the instance's function (R395, R398). -/
def State.means (s : State) (p : PlatInst) (m : ReplicaMsg) (node : Nat) : Bool :=
  m.key == (s.func p.func).key && m.plat == p.plat && m.gen == p.gen && m.node == node

/-- The 64 bytes of a replica message: the plat address, CURGEN, the node index, and the launch digest (DESIGN CHOICE,
assumption 154: R395 gives the fields and not their places). -/
def replicaBytes (p : PlatInst) (node : Nat) (digest : List Byte) : List Byte :=
  (leBytes 8 p.plat.toNat ++ leBytes 4 p.gen.toNat ++ leBytes 4 node ++ (digest ++ List.replicate 32 0).take 32 ++
    List.replicate 16 0)

/-- The message that a packet carries. -/
def ReplicaMsg.ofPacket (p : Packet) : ReplicaMsg :=
  let at_ := fun (off n : Nat) => leNat ((p.payload.drop off).take n)
  { sdev := p.sdev, key := p.key, plat := BitVec.ofNat 64 (at_ 0 8), gen := BitVec.ofNat 32 (at_ 8 4), node := at_ 12 4
    digest := (p.payload.drop 16).take 32 }

/-- A node's digest sent to a member: an ordered packet from the control die's port of the switch, from the plat engines'
first endpoint to the same of the member's device (R395, R398, R400; assumption 154). -/
def State.sendReplica (s : State) (p : PlatInst) (node : Nat) (digest : List Byte) (d : BitVec 16) : State :=
  let pkt : Packet :=
    { ordered := true, stamp := BitVec.ofNat 64 s.time, wmark := BitVec.ofNat 64 s.time, key := (s.func p.func).key
      sdev := s.fabric.devid, sep := platEndpoint, ddev := d, dep := platEndpoint, seq := 0
      payload := replicaBytes p node digest, func := p.func, inject := s.time }
  (s.modFabric (fun f => { f with links := f.links ++ [⟨20, some pkt, s.time, .none⟩] })).modInput 20
    (fun x => { x with lastSent := s.time })

/-- The replica check of a grid node whose launch was deterministic: the messages are sent, and those that have
arrived already are compared (R395). -/
def State.beginReplicas (s : State) (k i : Nat) (digest : List Byte) : State :=
  let p := s.plat k
  let peers := s.replicaPeers p.func
  let s := peers.foldl (fun s d => s.sendReplica p i digest d) s
  let mine := s.mail.filter (fun m => s.means p m i && peers.contains m.sdev)
  let x : ReplicaWait := { node := i, digest, since := s.time, got := mine.map (fun m => (m.sdev, m.digest)) }
  let s : State := { s with mail := s.mail.filter (fun m => !s.means p m i) }
  (s.modPlat k (fun p => { p with waits := p.waits ++ [x] })).compareReplicas k x

/-- NODE_COMPLETE (R336): a RUNNING node's payload has completed OK; the payload of a node that is no longer
RUNNING has ended after its cut; a halted instance keeps its states. -/
def execNodeComplete (inst node : Nat) (s : State) : Host.Outcome State Fault Refusal :=
  .next (match s.endDue inst node with
    | .none => s
    | some (p, x) =>
      if p.halted.isSome then ((s.applied inst node).dropPayload inst node).settled inst
      else
        let (t, w) := (s.applied inst node).nodeRec inst node
        if nodeState p.gen w ≠ 3 then (t.dropPayload inst node).settled inst
        else if x.ended ≠ some (stOK, 0) then s
        else
          match x.digest with
          | some d => if (t.func p.func).replica.isEmpty then (t.nodeDone inst node).settled inst
            else t.beginReplicas inst node d
          | .none => (t.nodeDone inst node).settled inst)

/-- NODE_FAULT (R336): a RUNNING node's payload has faulted; it is retried within its budget. -/
def execNodeFault (inst node : Nat) (s : State) : Host.Outcome State Fault Refusal :=
  .next (match s.endDue inst node with
    | .none => s
    | some (p, x) =>
      match x.ended with
      | .none => s
      | some (st, sub) =>
        if p.halted.isSome ∨ (st, sub) = (stOK, 0) then s
        else
          let (t, w) := (s.applied inst node).nodeRec inst node
          if (t.plat inst).dead.isSome then t.settled inst
          else if nodeState p.gen w ≠ 3 then s
          else
            let t := t.dropPayload inst node
            let used := nodeUsed p.gen w
            if used < nodeField w 0 16 8 then
              let t := (t.setFault inst node st sub).setNode inst node 7 (used + 1)
              let (t, c) := t.cancelCone inst node
              (t.modPlat inst (fun p => { p with cones := p.cones.set node c })).settled inst
            else (t.faultNode inst node st sub).settled inst)

/-! ## Rearming (R338) -/

/-- A node's cone may be rearmed: no payload of the node or of its cone is left, and no end of a payload waits
to be applied. -/
def PlatInst.mayRearm (p : PlatInst) (now node : Nat) (c : List Nat) : Bool :=
  !p.payloads.any (fun x => x.node == node || c.contains x.node) && (p.nextEnded now).isNone && p.halted.isNone

/-- A cone's counts and states reset: a node of it that another rearm has made READY is not issued, and one that waits to
be rearmed itself does not. -/
def State.resetCone (s : State) (k : Nat) (c : List Nat) : State :=
  c.foldl (fun s i =>
    let p := s.plat k
    let s := (s.setState k i 1).setPlatWord k i (p.nodeAt i 0x04) 0
    (s.setPlatWord k i (p.nodeAt i 0x08) p.gen.toNat).modPlat k (fun p =>
      { p with ready := p.ready.filter (· != i), cones := p.cones.erase i })) s

/-- The tokens of the DONE nodes counted again at the nodes of a cone. -/
def State.recount (s : State) (k : Nat) (c : List Nat) : State :=
  (List.range (s.plat k).nnode).foldl (fun s i =>
    let (s, w) := s.nodeRec k i
    let p := s.plat k
    if nodeState p.gen w ≠ 4 then s
    else
      let kind := nodeField w 0 24 4
      let outcome := if p.outcomes.contains i then 1 else 0
      let (s, l) := s.entriesOf k i
      l.foldl (fun s e =>
        if entryLegal p.nnode kind e && (kind != 5 || natBits e 16 1 == outcome) && c.contains (natBits e 0 16) then
          s.countToken k (natBits e 0 16)
        else s) s) s

/-- The cone nodes whose counts suffice become READY in order. -/
def State.readyCone (s : State) (k : Nat) (c : List Nat) : State :=
  c.foldl (fun s i =>
    let (s, w) := s.nodeRec k i
    if nodeField w 0 0 16 ≤ nodeCount (s.plat k).gen w then s.readyNode k i else s) s

/-- NODE_REARM (R338). -/
def execNodeRearm (inst node : Nat) (s : State) : Host.Outcome State Fault Refusal :=
  .next (match s.plats.get? inst with
    | .none => s
    | some p =>
      match p.cones.get? node with
      | .none => s
      | some c =>
        if !p.mayRearm s.time node c then s
        else
          let s := s.modPlat inst (fun p => { p with cones := p.cones.erase node })
          ((((s.resetCone inst c).recount inst c).readyCone inst c).readyNode inst node).settled inst)

/-! ## GFIRE tokens (R341) -/

/-- A discarded token counted in the header at its plat address, when that translates, lies within the grant and
holds a header. -/
def State.strayToken (s : State) (f va : Nat) : State :=
  match s.platPlace f va false, s.platPlace f (va + 0x0C) true with
  | (_, .ok a), (t, .ok b) =>
    if s.hbm.load a 4 = 0x504C4154 then
      let w := s.hbm.load b 4
      t.storeAt (.global b false) 4 (w - w % 2 ^ 16 + min 65535 (w % 2 ^ 16 + 1))
    else s
  | _, _ => s

/-- A token is the next in order of arrival, and of those of one tick in the order of ties (R249, R335). -/
def State.nextToken (s : State) (id : Nat) (t : Token) : Bool :=
  (s.tokens.mapIdx (fun i x => (i, x))).all (fun e => e.1 == id ||
    decide (t.at_ < e.2.at_) || (t.at_ == e.2.at_ && (decide (t.key < e.2.key) || (t.key == e.2.key && decide (id < e.1)))))

/-- An instance has still to apply the end of a payload that came no later than a token (R335). -/
def PlatInst.endsBefore (p : PlatInst) (t : Token) (now : Nat) : Bool :=
  (p.nextEnded now).any (fun x => decide (x.endedAt ≤ t.at_))

/-- A token taken by the plat engines (R335). -/
def State.takeToken (s : State) (id : Nat) (t : Token) : State :=
  { s with tokens := s.tokens.eraseIdx id, landed := s.landed.set tokenBank t.key }

/-- PLAT_TOKEN (R335, R341): a token that has reached the engines is counted at its node, or discarded; the ends of payloads
that its instance has to apply first come before it. -/
def execPlatToken (id : Nat) (s : State) : Host.Outcome State Fault Refusal :=
  .next (match s.tokens[id]? with
    | .none => s
    | some t =>
      if decide (s.time < t.at_) || !s.nextToken id t || (s.platOn t.func t.plat.toNat).any (fun e => e.2.endsBefore t s.time) then
        s
      else
      let s := s.takeToken id t
      let va := t.plat.toNat
      match s.platOn t.func va with
      | .none => s.strayToken t.func va
      | some (k, p) =>
        if t.gen ≠ p.gen.toNat ∨ p.nnode ≤ t.node ∨ t.func ≠ p.func then s.strayToken t.func va
        else ((s.applied k tokenPlace).token k t.node).settled k)

/-! ## Replica messages (R395, R396) -/

/-- The messages that the plat engines' endpoints hand out next (R395, R404): each with its endpoint and packet. -/
def State.replicaHeads (s : State) : List (Nat × Packet) :=
  (s.fabric.eps.filter (fun e => decide (platEndpoint ≤ e.1))).filterMap (fun e => (s.headPacket e.2 true).map (fun p => (e.1, p)))

/-- A message compared with the digest of its node, or kept until the node has its own (R395). -/
def State.takeReplica (s : State) (m : ReplicaMsg) : State :=
  match s.plats.find? (fun e => e.2.waits.any (fun x => s.means e.2 m x.node)) with
    | .none => { s with mail := s.mail ++ [m] }
    | some (k, p) =>
      match p.waits.find? (fun x => s.means p m x.node) with
      | .none => s
      | some x =>
        if (s.replicaPeers p.func).contains m.sdev then
          let y := { x with got := x.got ++ [(m.sdev, m.digest)] }
          (s.modPlat k (fun p => { p with waits := p.waits.map (fun z => if z.node = x.node then y else z) })).compareReplicas k y
        else s

/-- REPLICA_MESSAGE (R395, R404): a message that a plat engines' endpoint may hand out now is taken. -/
def execReplicaMessage (m : ReplicaMsg) (s : State) : Host.Outcome State Fault Refusal :=
  .next (match s.replicaHeads.find? (fun e => ReplicaMsg.ofPacket e.2 == m) with
    | .none => s
    | some (n, p) => (s.modEndpoint n (fun e => { e with oq := e.oq.erase p })).takeReplica m)

/-- REPLICA_TIMEOUT (R396): a member's message has not arrived within the group's limit. -/
def execReplicaTimeout (inst node : Nat) (s : State) : Host.Outcome State Fault Refusal :=
  .next (match (s.plats.get? inst).bind (fun p => (p.waits.find? (fun x => x.node == node)).map (fun x => (p, x))) with
    | .none => s
    | some (p, x) => if x.since + 4000 * (s.func p.func).rlimit ≤ s.time then s.haltPlat inst x else s)

end Sys2Proof.Machine
end

