-- ==== Sys2Proof/Machine/Tenancy.lean ====
section
/-! DEFINITION. Functions seen from the host (R5, R315, R408, R417 to R420, R434): register writes, event
records and acknowledgements; the world switch (R422), Function Level Reset (R426) and TDISP (R427). -/

namespace Sys2Proof.Machine

/-! ## TDISP (R427, R429) -/

/-- An interface's configuration is frozen. -/
def Func.locked (f : Func) : Bool := f.tdst == .configLocked || f.tdst == .run

/-- A locked interface falls to ERROR: the function is frozen, with violation code 2. -/
def State.tdispFail (s : State) (f : Nat) : State :=
  if (s.func f).locked then
    ((s.freezeFunc f).modFunc f (fun x => { x with tdst := .error })).postViolation f 2 3 0 0
  else s

/-- A virtual function's number. -/
def virtual (f : Nat) : Bool := decide (1 ≤ f) && decide (f ≤ 256)

/-- The physical function, 0, or a virtual one (R416). -/
def isFunction (f : Nat) : Bool := decide (f ≤ 256)

/-- LOCK_INTERFACE: the interface is bound to one of 8 selective streams (R428). Virtual functions exist when the device is
usable (R434). -/
def execLockInterface (f stream : Nat) (s : State) : Host.Outcome State Fault Refusal :=
  .next (if s.usable && virtual f && (s.func f).tdst == .configUnlocked && decide (stream < 8) then
    s.modFunc f (fun x => { x with tdst := .configLocked, stream }) else s)

/-- START_INTERFACE. -/
def execStartInterface (f : Nat) (s : State) : Host.Outcome State Fault Refusal :=
  .next (if (s.func f).tdst = .configLocked then s.modFunc f (fun x => { x with tdst := .run }) else s)

/-- A write to a frozen register, or a TLP outside the bound stream. -/
def execTdispError (f : Nat) (s : State) : Host.Outcome State Fault Refusal := .next (s.tdispFail f)

/-! ## Register writes (R5, R315, R417, R418, R431, R434) -/

/-- A record of the queue is started and not retired. -/
def Queue.busy (x : Queue) : Bool := x.recs.any (fun r => r.stage != .retired)

/-- SIZE as a write of its field leaves it: 0 stands for 16, and 1 to 3 are ignored. -/
def sizeWritten (old v : Nat) : Nat := if v = 0 then 16 else if v < 4 then old else v

/-- A queue's control register written: SIZE and LOC only while EN is 0 and BUSY is 0. -/
def Queue.control (x : Queue) (v : Nat) : Queue :=
  let open_ := !x.en && !x.busy
  { x with
    en := natBits v 0 1 == 1, wgt := natBits v 16 16
    size := if open_ then sizeWritten x.size (natBits v 4 4) else x.size
    loc := if open_ then natBits v 8 1 == 1 else x.loc }

/-- A write of the control register changes one of SIZE, LOC and WGT, whether or not it is ignored for EN or BUSY. -/
def Queue.controlChanges (x : Queue) (v : Nat) : Bool :=
  sizeWritten x.size (natBits v 4 4) != x.size || (natBits v 8 1 == 1) != x.loc || natBits v 16 16 != x.wgt

/-- A queue register written. Of a locked interface QBASE is frozen, and SIZE, LOC and WGT are: a write of the control
register that leaves these as they stand writes EN alone, which is not frozen (R427; DESIGN CHOICE, assumption 61). -/
def State.writeQueue (s : State) (f q : Nat) (frozen : Queue → Bool) (g : Queue → Queue) : State :=
  if !s.hasQueue f q then s
  else if (s.func f).locked && frozen ((s.func f).queue q) then s.tdispFail f
  else s.modQueue f q g

/-- A half of the MSI-X table written: a vector that is no longer masked sends what was pending. -/
def State.writeMsix (s : State) (f n : Nat) (v : DWord) : State :=
  if (s.func f).locked then s.tdispFail f
  else
    let s := s.modFunc f (fun x => x.setMsixWord n v)
    let vec := n / 2
    if (s.func f).msixPend.contains vec && !(s.func f).masked vec then
      (s.modFunc f (fun x => { x with msixPend := x.msixPend.filter (· != vec) })).emit (.msi f vec)
    else s

/-- TSRC of a port written. A port that no longer takes part in time transfer is no longer locked: TSYNC falls, and the
offset kept for it is forgotten (DESIGN CHOICE, assumption 33: R408 and R409 do not say). -/
def SwitchInput.setTsrc (x : SwitchInput) (on : Bool) : SwitchInput :=
  { x with tsrc := on, tsync := x.tsync && on, lastOff := if on then x.lastOff else none }

/-- A Traverse port's status register written: FENCED, STALL and TSRC; the other fields are read-only (R408). Of TSYNC see
`SwitchInput.setTsrc`. -/
def State.writeTvstat (s : State) (p v : Nat) : State :=
  let s := if natBits v 63 1 = 1 then s.fenceInput p else s.unfenceInput p
  s.modInput p (fun x => { x.setTsrc (natBits v 60 1 == 1) with stall := x.stall && natBits v 62 1 == 0 })

/-- EVEN and EVSZ of a function written. EVSZ takes a write only while EVEN is 0; a value outside 4 to 12 leaves it as it
stands (DESIGN CHOICE, assumption 32: R418 gives the range only). -/
def Func.writeEvsz (x : Func) (v : Nat) : Func :=
  let n := natBits v 4 4
  { x with even := natBits v 0 1 == 1, evsz := if x.even || decide (n < 4) || decide (12 < n) then x.evsz else n }

/-- In minimal mode the host reaches only the recovery window (R434). -/
def State.writeRecovery (s : State) (r : HostReg) (v : DWord) : State :=
  match r with
  | .uplen => if s.control.phase = .minimal then
      { s with control := { s.control with uplen := natBits v.toNat 0 25 } } else s
  | .imageByte off => if off < 33554432 then
      { s with control := { s.control with upbuf := Memory.setByte s.control.upbuf off (v.setWidth 8) } } else s
  | _ => s

/-- REGISTER_WRITE (R5): a register that has no event of its own stores by its access code; read-only and unused
places ignore the write. An EVSZ outside its range is assumption 32 (`Func.writeEvsz`); the low bits of MBARG, a multiple of
4,096, are read-only zeros (DESIGN CHOICE, assumption 148). -/
def execRegisterWrite (r : HostReg) (v : DWord) (s : State) : Host.Outcome State Fault Refusal :=
  .next (if !s.usable then s.writeRecovery r v
    else
      match r with
      | .qbase f q => s.writeQueue f q (fun _ => true) (fun x => if x.en || x.busy then x else { x with base := v })
      | .qctrl f q => s.writeQueue f q (fun x => x.controlChanges v.toNat) (fun x => x.control v.toNat)
      | .qstatus f q => s.writeQueue f q (fun _ => false) (fun x => { x with nerr := x.nerr && natBits v.toNat 1 1 == 0 })
      | .evbase f => if virtual f && !(s.func f).even then s.modFunc f (fun x => { x with evbase := v }) else s
      | .evsz f => if virtual f then s.modFunc f (fun x => x.writeEvsz v.toNat) else s
      | .evcons f => if virtual f then s.modFunc f (fun x => { x with evcons := natBits v.toNat 0 32 }) else s
      | .evirq f => if virtual f then s.modFunc f (fun x =>
          { x with evvec := natBits v.toNat 0 11, evirq := natBits v.toNat 11 1 == 1 }) else s
      | .msix f n => if isFunction f && decide (n < 4096) then s.writeMsix f n v else s
      | .mbarg => { s with control := { s.control with mbarg := v &&& 0xFFFFFFFFFFFFF000#64 } }
      | .tvstat p => if p < 16 then s.writeTvstat p v.toNat else s
      | .uplen | .imageByte _ => s.writeRecovery r v
      | .qro _ _ | .funcRO _ | .wmark _ | .recoveryRO | .unused => s)

/-! ## Register reads (R4, R5, R315, R417, R418, R431, R434) -/

/-- A Boolean as a bit of a register. -/
def bitOf (b : Bool) (i : Nat) : Nat := if b then 2 ^ i else 0

/-- The 64-bit words of a queue's register block (R315). QNOTIFY is write-only; reserved fields read zero. -/
def Queue.readWord (x : Queue) (off : Nat) : Nat :=
  match off with
  | 0x00 => x.base.toNat
  | 0x08 => bitOf x.en 0 + x.size % 16 * 2 ^ 4 + bitOf x.loc 8 + x.wgt * 2 ^ 16
  | 0x10 => bitOf x.busy 0 + bitOf x.nerr 1
  | 0x20 => x.start
  | 0x28 => x.done
  | _ => 0

/-- TDST. -/
def Tdisp.code : Tdisp → Nat
  | .configUnlocked => 0
  | .configLocked => 1
  | .run => 2
  | .error => 3

/-- The 64-bit words of the function register block (R418). EVACK is write-only; reserved fields read zero. -/
def Func.readWord (x : Func) (off : Nat) : Nat :=
  match off with
  | 0x00 => x.root.toNat
  | 0x08 => x.tdst.code + bitOf x.part.isNone 4 + bitOf (x.part.isNone || x.frozen) 5 + x.qspace * 2 ^ 6 + bitOf x.retry 8 +
      x.prioceil * 2 ^ 9 + x.part.getD 0 * 2 ^ 12
  | 0x10 => x.evbase.toNat
  | 0x18 => bitOf x.even 0 + x.evsz * 2 ^ 4
  | 0x20 => x.evprod + x.evcons * 2 ^ 32
  | 0x28 => (x.evvec + bitOf x.evirq 11) * 2 ^ 32
  | _ => 0

/-- BAR4 of a function: the MSI-X table and the pending-bit array (R417). -/
def Func.readMsix (x : Func) (off : Nat) : Nat :=
  if off < 0x8000 then (x.msixWord (off / 8)).toNat
  else if off < 0x8100 then
    (List.range 64).foldl (fun a i => a + bitOf (x.msixPend.contains (8 * (off - 0x8000) + i)) i) 0
  else 0

/-- SLOTA and SLOTB of RSTAT. -/
def SlotState.code : SlotState → Nat
  | .unchecked => 0
  | .authentic => 1
  | .badSignature => 2
  | .belowVersion => 3

/-- The words of the recovery window (R434). GO, SLOT and RCLR are write-only. -/
def Control.readRecovery (c : Control) (off : Nat) : Nat :=
  match off with
  | 0x00 => c.stA.code + c.stB.code * 2 ^ 8 + c.failcnt % 16 * 2 ^ 16 + c.rsn * 2 ^ 24 + bitOf (c.phase == .minimal) 31
  | 0x10 => c.uplen
  | 0x18 => c.upstat
  | _ => if 0x01000000 ≤ off ∧ off < 0x03000000 then leNat (Memory.bytes c.upbuf (off - 0x01000000) 8) else 0

/-- The words of the mailbox (R431). CODE is write-only. -/
def Control.readMailbox (c : Control) (off : Nat) : Nat :=
  match off with
  | 0x08 => c.mbarg.toNat
  | 0x10 => bitOf c.busy 0 + c.result * 2 ^ 16
  | _ => 0

/-- What a host read of the aligned 64-bit word at an offset of a function's BAR returns (R5, R417); none where the host
reaches nothing: before the device is usable, everything but the recovery window (R434). -/
def State.hostRead (s : State) (f bar off : Nat) : Option Nat :=
  if f = 0 ∧ bar = 2 then some (s.control.readRecovery off)
  else if !s.usable then none
  else if f = 0 ∧ bar = 0 then some (s.control.readMailbox off)
  else if f = 0 ∧ bar = 4 then some ((s.func 0).readMsix off)
  else if !virtual f then none
  else
    match bar with
    | 0 => some (if s.hasQueue f (off / 64) then ((s.func f).queue (off / 64)).readWord (off % 64) else 0)
    | 2 => some ((s.func f).readWord off)
    | 4 => some ((s.func f).readMsix off)
    | _ => none

/-! ## Event records (R419, R420) -/

/-- The 256 bytes of an event record. -/
def EventRec.bytes (e : EventRec) (seq : Nat) : List Byte :=
  let l := fieldBytes 0x00 1 e.type ++ fieldBytes 0x04 4 seq ++ fieldBytes 0x08 8 e.at_ ++ e.body
  (List.range 256).map (fun i => match l.find? (fun x => x.1 == i) with
    | some x => x.2
    | none => 0)

/-- The base that the device uses for a ring: EVBASE is a multiple of the ring's size, 256 × 2^EVSZ, and any bits below it
count as zero (R418; DESIGN CHOICE, assumption 148), so that each record lies within one aligned block of 256 bytes. -/
def Func.ringBase (x : Func) : Nat := x.evbase.toNat / 2 ^ (8 + x.evsz) * 2 ^ (8 + x.evsz)

/-- EVENT_RECORD_WRITE (R419): the oldest waiting record is written when the ring is enabled and not full; one whose place
the host does not map freezes the function, and waits (R429). -/
def execEventRecordWrite (f : Nat) (s : State) : Host.Outcome State Fault Refusal :=
  .next (
    let x := s.func f
    match x.evwait with
    | [] => s
    | e :: rest =>
      if !x.even || (x.evprod + 2 ^ 32 - x.evcons) % 2 ^ 32 == 2 ^ x.evsz then s
      else
        let a := x.ringBase + 256 * (x.evprod % 2 ^ x.evsz)
        if !s.hostMaps f a then (if x.frozen then s else s.hostFault f a)
        else
          let s := s.hostStore a (e.bytes x.evprod)
          let s := s.modFunc f (fun x => { x with evwait := rest, evprod := (x.evprod + 1) % 2 ^ 32 })
          if x.evirq then s.raiseMsi f x.evvec else s)

/-- EVACK_WRITE (R420). -/
def execEvackWrite (f : Nat) (seq : Word) (s : State) : Host.Outcome State Fault Refusal :=
  .next (if s.usable && virtual f then s.ackFault f seq.toNat else s)

/-! ## World switch (R422) -/

/-- Every command of a function that is in progress has reached its boundary. -/
def Func.atBoundary (f : Func) : Bool :=
  f.queues.all (fun e => e.2.recs.all (fun r => r.stage == .retired ||
    (decide (1 ≤ r.opc) && decide (r.opc ≤ 4) && r.stage == .running)))

/-- A function's resident units saved with REASON 0 and HELD, where the heap has room. -/
def State.saveResident (s : State) (f : Nat) : State :=
  (s.unitsOfFunc f).foldl (fun s u => match s.beginSave u 0 true 0 0 none with
    | some (s, _) => s
    | none => s) s

/-- SWITCH_OUT (R422): the request stops records and device launches; when every command is at its boundary the
resident units are saved, and when their saves are done the function becomes idle. -/
def execSwitchOut (f : Nat) (s : State) : Host.Outcome State Fault Refusal :=
  .next (
    let x := s.func f
    if x.part.isNone || !x.active then s
    else
      match x.switching with
      | none => s.modFunc f (fun x => { x with switching := some s.time })
      | some _ =>
        if !x.atBoundary then s
        else
          let s := (s.joinSaves f (fun u => { u with hold := true })).saveResident f
          if s.savesUnderWay f then s else s.modFunc f (fun x => { x with active := false, switching := none }))

/-- The function that ran last in a partition (R430). -/
def State.noteRun (s : State) (f : Nat) : State :=
  match (s.func f).part with
  | some k => s.modPart k (fun p => { p with lastFunc := f })
  | none => s

/-- SWITCH_IN (R422): the function's HELD REASON 0 cairns are published, and it becomes active. -/
def execSwitchIn (f : Nat) (s : State) : Host.Outcome State Fault Refusal :=
  .next (
    let x := s.func f
    if x.part.isNone || x.active then s
    else
      let s := (s.cuts.filter (fun u => u.func == f && u.reason == 0 && u.hold)).foldl (fun s u =>
        if u.state = .held then s.releaseUnit u
        else { s with cuts := s.cuts.map (fun y => if y.id = u.id then { y with hold := false } else y) }) s
      (s.modFunc f (fun x => { x with active := true, activeAt := s.time })).noteRun f)

/-- The functions of a partition, in order. -/
def State.funcsOfPart (s : State) (k : Nat) : List Nat := sortOn id ((s.funcs.filter (fun e => e.2.part == some k)).map (·.1))

/-- A slice of a partition whose policy plug-in is unloaded: 10 ms (R430). -/
def sliceTicks : Nat := 40000000

/-- A function's slice is over: its partition's plug-in is unloaded, it has been active for 10 ms, and the partition has
another function (R430). -/
def State.sliceOver (s : State) (f : Nat) : Bool :=
  let x := s.func f
  match x.part.bind (fun k => (s.parts.get? k).map (fun p => (k, p))) with
  | some (k, p) => !p.plugin && x.active && x.switching.isNone && decide (x.activeAt + sliceTicks ≤ s.time) &&
      (s.funcsOfPart k).any (· != f)
  | none => false

/-- The function that a partition whose plug-in is unloaded switches in now: the next in function order, while none of its
functions is active (R430). -/
def State.sliceNext (s : State) (k : Nat) : Option Nat :=
  match s.parts.get? k with
  | some p =>
    let fs := s.funcsOfPart k
    if p.plugin || fs.any (fun f => (s.func f).active) then none
    else (fs.find? (fun f => decide (p.lastFunc < f))).orElse (fun _ => fs.head?)
  | none => none

/-! ## Function Level Reset (R426) -/

/-- A function's units stopped without a fault, its grids ended without completion, its tasks and queue chains
dropped (step 2). What a block that has ended left with its engines and its fabric interface stops too. -/
def State.stopFunc (s : State) (f : Nat) : State :=
  let mine := fun (g : Nat) => match s.grids.get? g with
    | some x => x.func == f
    | none => false
  let blocks := (s.blocks.filter (fun e => mine e.2.grid)).map (·.1)
  let chains := s.xfers.filter (fun x => x.block.isNone && x.func == f)
  let s : State := { s with
    dies := s.dies.map (fun d => { d with tasks := d.tasks.filter (fun t => !mine t.grid) })
    grids := Table.mapVals (s.grids.filter (fun e => !(e.2.func == f && e.2.parent.isSome && !e.2.placed))) (fun _ g =>
      if g.func == f then
        { g with cutting := true, returned := [], origin := .device, fault := none, launch := { g.launch with ctok := 0 } }
      else g)
    xfers := s.xfers.filter (fun x => !(x.block.isNone && x.func == f)) }
  let s := chains.foldl (fun s x => s.endEasements x.core x.id) s
  blocks.foldl (fun s b => (s.modBlock b (fun x =>
    { x with status := if x.status = .resident then .flushed false else x.status })).stopBlock b none) s

/-- A function's plat instances ended with RUN and HALT cleared, and its tokens and replica messages gone
(step 3). -/
def State.endPlats (s : State) (f : Nat) : State :=
  let s := (s.plats.filter (fun e => e.2.func == f)).foldl (fun s e =>
    let a := e.2.plat.toNat + 0x0C
    let (s, w) := s.platWord e.1 0 a
    s.setPlatWord e.1 0 a (natBits w 0 30)) s
  let gone := fun (m : ReplicaMsg) => s.plats.any (fun e => e.2.func == f && m.key == (s.func f).key && m.plat == e.2.plat)
  { s with
    plats := s.plats.filter (fun e => e.2.func != f), tokens := s.tokens.filter (fun t => t.func != f)
    mail := s.mail.filter (fun m => !gone m) }

/-- A function's cut units and cairns freed (step 3). -/
def State.freeCuts (s : State) (f : Nat) : State :=
  (s.cuts.filter (fun u => u.func == f)).foldl (fun s u => if u.state = .writing then s.freeUnit u.id else s.dropUnit u) s

/-- A function's frozen channels freed (R426, R429). -/
def State.freeChans (s : State) (f : Nat) : State :=
  { s with cores := s.cores.mapVals (fun _ c => { c with frozenChans := c.frozenChans.filter (fun e => e.2 != f) }) }

/-- CANCELLED for the started records of rings in device memory (step 4). -/
def State.cancelRecords (s : State) (f : Nat) : State :=
  (s.func f).queues.foldl (fun s e =>
    if e.2.loc then
      (e.2.recs.filter (fun r => r.stage != .retired)).foldl (fun s r => s.completionWord f true r stCancelled 0 0) s
    else s) s

/-- The compute dies on which a function's partition has cores. -/
def State.diesOfFunc (s : State) (f : Nat) : List Nat :=
  match (s.func f).part.bind (fun k => s.parts.get? k) with
  | some p => sortOn id ((p.cores.map dieOf).eraseDups)
  | none => []

/-- The retire beacons of a function's interfaces (R410 step 2), on the links of their dies, and its packets discarded
where they stand (step 1). -/
def State.sendRetire (s : State) (f : Nat) : State :=
  match s.retireOf f with
  | some r =>
    (s.diesOfFunc f).foldl (fun s d =>
      (s.modFabric (fun x => { x with links := x.links ++ [⟨16 + d, none, s.time, some r⟩] })).modInput (16 + d)
        (fun x => { x with lastSent := s.time })) (s.purge r)
  | none => s

/-- A function's endpoints emptied (step 5, R410). -/
def State.emptyEndpoints (s : State) (f : Nat) : State :=
  s.modFabric (fun x => { x with eps := x.eps.mapVals (fun _ e =>
    if e.en && e.func == f then { e with oq := [], uq := [], odrops := 0, udrops := 0 } else e) })

/-- A function's modules unloaded (step 6): each is released when nothing names it any more (R58). The function's own
MODUNLOAD records are gone, and wait for no release. -/
def State.unloadModules (s : State) (f : Nat) : State :=
  { s with parts := s.parts.mapVals (fun _ p => { p with modules := p.modules.mapVals (fun _ m =>
      let m : Module := { m with unloading := m.unloading.map (fun l => l.filter (fun e => e.1 != f)) }
      if m.func == f then { m with unloading := some (m.unloading.getD []) } else m) }) }

/-- What a function keeps over its reset. -/
def Func.afterReset (x : Func) (now : Nat) : Func :=
  { Func.reset with
    part := x.part, root := x.root, qspace := x.qspace, prioceil := x.prioceil, retry := x.retry, bktcfg := x.bktcfg
    key := x.key, replica := x.replica, rlimit := x.rlimit, active := x.active, frozen := x.part.isNone
    retire := some now }

/-- The reset of a function (R426). -/
def State.resetFunc (s : State) (f : Nat) : State :=
  let s := s.modFunc f (fun x => { x with retire := some s.time, switching := none, saving := false })
  let s := ((((s.stopFunc f).freeChans f).endPlats f).freeCuts f).cancelRecords f
  let s := ((s.sendRetire f).emptyEndpoints f).unloadModules f
  s.modFunc f (fun x => x.afterReset (x.retire.getD s.time))

/-- The reset of the physical function: its own registers, the mailbox's and its MSI-X state, return to reset, and no other
function's state changes (R8, R416; DESIGN CHOICE, assumption 155: R426 speaks of a virtual function). -/
def State.resetPhysical (s : State) : State :=
  let s := s.modFunc 0 (fun x => { x with msix := [], msixPend := [] })
  { s with control := { s.control with mbarg := 0, result := 0 } }

/-- FLR (R416, R426). -/
def execFlr (f : Nat) (s : State) : Host.Outcome State Fault Refusal :=
  .next (if !s.usable then s else if f = 0 then s.resetPhysical else if virtual f then s.resetFunc f else s)

/-- STOP_INTERFACE (R427): CONFIG_UNLOCKED, with the effects of R426. -/
def execStopInterface (f : Nat) (s : State) : Host.Outcome State Fault Refusal :=
  .next (if s.usable && virtual f then s.resetFunc f else s)

end Sys2Proof.Machine
end

