-- ==== Sys2Proof/Machine/Firmware.lean ====
section
/-! DEFINITION. The control die and its firmware (R430 to R441): the management mailbox, firmware slots and the
recovery window, starts and bring-up, compute-die reset and re-admission (R14, R436, R437), soft errors (R438),
power and temperature, and policy plug-ins. -/

namespace Sys2Proof.Machine

/-- The control die's state changed. -/
def State.modControl (s : State) (f : Control → Control) : State := { s with control := f s.control }

/-! ## The mailbox (R431) -/

/-- The results of a mailbox command. -/
inductive MailResult where
  | ok | badArg | wrongState | denied
  deriving DecidableEq, Repr

/-- The code of a result. -/
def MailResult.code : MailResult → Nat
  | .ok => 0
  | .badArg => 1
  | .wrongState => 2
  | .denied => 3

/-- A mailbox command run: its result is written, and a refused one changes nothing else. -/
def State.mailbox (s : State) (r : Except MailResult State) : State :=
  if !s.usable then s
  else match r with
    | .ok t => t.modControl (fun c => { c with result := 0 })
    | .error e => s.modControl (fun c => { c with result := e.code })

/-! ### Partitions (R108, R109, R220, R225, R227, R348, R352, R369) -/

/-- 16 GiB, the unit of a grant. -/
def grantUnit : Nat := 2 ^ 34

/-- The 16 GiB units of a grant: whether it is of the spread view, and its number in the view. -/
def grantUnits (g : Nat × Nat) : List (Bool × Nat) :=
  (List.range (g.2 / grantUnit)).map (fun i =>
    let a := g.1 / grantUnit + i
    (decide (2 ^ 12 ≤ a), a % 2 ^ 12))

/-- Two units name a common byte: unit i of the spread view lies in eighth i / 8 of every die (R226). -/
def unitsMeet (x y : Bool × Nat) : Bool :=
  match x.1, y.1 with
  | false, false | true, true => x.2 == y.2
  | true, false => x.2 / 8 == y.2 % 4
  | false, true => y.2 / 8 == x.2 % 4

/-- A grant in whole units, inside a view (R226, R227). -/
def grantLegal (g : Nat × Nat) : Bool :=
  g.1 % grantUnit == 0 && g.2 % grantUnit == 0 && decide (0 < g.2) &&
  (decide (g.1 + g.2 ≤ 2 ^ 39) || (decide (2 ^ 46 ≤ g.1) && decide (g.1 + g.2 ≤ 2 ^ 46 + 2 ^ 39)))

/-- No core twice. -/
def noRepeats : List Nat → Bool
  | [] => true
  | x :: rest => !rest.contains x && noRepeats rest

/-- The other partitions. -/
def State.otherParts (s : State) (k : Nat) : List Partition := (s.parts.filter (fun e => e.1 != k)).map (·.2)

/-- A region of physical addresses lies in some grants (R227); `granted` holds or fails for a whole unit. -/
def regionGranted (grants : List (Nat × Nat)) (base size : Nat) : Bool :=
  (List.range ((base + size - 1) / grantUnit + 1 - base / grantUnit)).all (fun i =>
    let a := (base / grantUnit + i) * grantUnit
    grants.any (fun g => decide (g.1 ≤ a) && decide (a < g.1 + g.2)))

/-- The die-scratchpad shares of an argument, one a compute die, are left on each die (R225). -/
def sharesLegal (shares : List Nat) (others : List Partition) : Bool :=
  decide (shares.length ≤ 4) &&
  (List.range 4).all (fun d =>
    decide (shares.getD d 0 + (others.map (fun p => p.dieScratch.getD d 0)).foldl (· + ·) 0 ≤ 67108864))

/-- The argument of PART_SET is in range: cores that are enabled and no other partition's, grants that no other
partition has, shares of the die scratchpads that are left, the cairn region and the base of the private arena inside the
partition's own grants (R22, R421: the arena is the partition's own; its size is not given), and arenas where the spec puts
them. -/
def State.partLegal (s : State) (a : PartArg) : Bool :=
  let others := s.otherParts a.part
  decide (a.part < 16) && noRepeats a.cores &&
  a.cores.all (fun c => decide (c < 144) && !others.any (fun p => p.cores.contains c) &&
    (match s.dies[dieOf c]? with
      | some d => d.map.getLsbD (c % 36)
      | none => false)) &&
  a.grants.all grantLegal &&
  (a.grants.flatMap grantUnits).all (fun u => !others.any (fun p => (p.grants.flatMap grantUnits).any (unitsMeet u))) &&
  sharesLegal a.dieScratch others && regionGranted a.grants a.cairnBase a.cairnSize &&
  (a.grants.isEmpty || regionGranted a.grants a.privBase 1) &&
  a.cairnBase % 4096 == 0 && a.cairnSize % 4096 == 0 && decide (262144 ≤ a.cairnSize) &&
  (namedOf a.cairnBase).isSome && (namedOf (a.cairnBase + a.cairnSize - 1)).isSome &&
  a.slotBase % 1024 == 0 && decide (a.slotBase < 2 ^ 42) && decide (a.aliasBase + 2 ^ 24 ≤ 2 ^ 56)

/-- A partition has resident or saved work. -/
def State.partBusy (s : State) (k : Nat) : Bool :=
  s.waves.any (fun e => e.2.part == k) || s.cuts.any (fun u => u.part == k) || s.grids.any (fun e => e.2.part == k)

/-- A partition that has not been set up. -/
def Partition.empty : Partition :=
  { cores := [], grants := [], dieScratch := [], cairnBase := 0, cairnSize := 0, heap := [], descs := [], slotBase := 0
    slots := [], privBase := 0, aliasBase := 0, tvec := 0, pointer := 0, deficit := [], ring := [], modules := []
    nextWave := 1, plugin := true, pools := [] }

/-- The translations of the functions of a test forgotten, with their walks: no entry of theirs reaches memory that the
firmware has given to another partition (R8, R22). -/
def State.forget (s : State) (f : Nat → Bool) : State :=
  { s with
    cores := s.cores.mapVals (fun _ c => { c with tlb := c.tlb.filter (fun e => !f e.func) })
    dies := s.dies.map (fun d => { d with l2tlb := d.l2tlb.filter (fun e => !f e.func) })
    walks := s.walks.filter (fun w => !f w.func) }

/-- A partition as PART_SET leaves it; its logical cores are in the order of R109. The translations of its functions are
forgotten. -/
def State.setPart (s : State) (a : PartArg) : State :=
  let old := (s.parts.get? a.part).getD Partition.empty
  let s : State := { s with parts := s.parts.set a.part { old with
      cores := sortOn id a.cores, grants := a.grants, dieScratch := a.dieScratch, cairnBase := a.cairnBase
      cairnSize := a.cairnSize, heap := [], descs := [], slotBase := a.slotBase, privBase := a.privBase
      aliasBase := a.aliasBase, pointer := 0 } }
  s.forget (fun f => (s.func f).part == some a.part)

/-- PART_SET. -/
def execPartSet (arg : PartArg) (s : State) : Host.Outcome State Fault Refusal :=
  .next (s.mailbox (if !s.partLegal arg then .error .badArg
    else if s.partBusy arg.part then .error .wrongState
    else .ok (((s.refillAll arg.part).setPart arg).refillAll arg.part)))

/-! ### Functions (R311, R315, R395, R398, R418) -/

/-- The queue counts of all functions but one (R315). -/
def State.queuesOf (s : State) (f : Nat) : Nat :=
  ((List.range 256).map (fun i => if i + 1 = f then 0 else queueCount (s.func (i + 1)).qspace)).foldl (· + ·) 0

/-- The argument of FUNC_SET is in range. -/
def State.funcLegal (s : State) (a : FuncArg) : Bool :=
  virtual a.func && decide (a.qspace ≤ 3) && decide (a.prioceil ≤ 7) &&
  decide (s.queuesOf a.func + queueCount a.qspace ≤ 4096) && a.root.toNat % 128 == 0 &&
  (match a.part with
    | none => true
    | some k => (s.parts.get? k).isSome)

/-- A function as FUNC_SET leaves it: one that joins a partition is not frozen, one of no partition is (R421). -/
def Func.setUp (x : Func) (a : FuncArg) : Func :=
  { x with
    part := a.part, root := a.root, qspace := a.qspace, prioceil := a.prioceil, retry := a.retry, key := a.key
    frozen := match a.part with
      | none => true
      | some _ => x.part.isSome && x.frozen }

/-- The buckets of a function's partition brought up to this tick (R312). -/
def State.refillOf (s : State) (f : Nat) : State :=
  match (s.func f).part with
  | some k => s.refillAll k
  | none => s

/-- FUNC_SET: refused unless the function is in reset or idle (R422). The function's translations are forgotten. -/
def execFuncSet (arg : FuncArg) (s : State) : Host.Outcome State Fault Refusal :=
  .next (s.mailbox (if !s.funcLegal arg then .error .badArg
    else if (s.func arg.func).active then .error .wrongState
    else .ok ((((s.refillOf arg.func).modFunc arg.func (fun x => x.setUp arg)).forget (· == arg.func)).refillOf arg.func)))

/-- BKTCFG_SET (R311): DEPTH is a multiple of 128 from 128 to 8,388,608; reserved bits are ignored. -/
def execBktcfgSet (f : Nat) (v : DWord) (s : State) : Host.Outcome State Fault Refusal :=
  .next (s.mailbox (
    let d := natBits v.toNat 24 24
    if !virtual f || d % 128 != 0 || decide (d < 128) || decide (8388608 < d) then .error .badArg
    else .ok ((s.refillOf f).modFunc f (fun x => { x with bktcfg := v &&& 0x0000FFFFFF00FFFF#64 }))))

/-- EPCFG_SET (R398): endpoints 4,064 to 4,095 are bound to no function. -/
def execEpcfgSet (ep : Nat) (v : DWord) (s : State) : Host.Outcome State Fault Refusal :=
  .next (s.mailbox (
    let depth := fun lo => decide (4 ≤ natBits v.toNat lo 4) && decide (natBits v.toNat lo 4 ≤ 12)
    let x := s.endpoint ep
    if !decide (ep < 4064) || (v.getLsbD 31 && !(virtual (natBits v.toNat 0 9) && depth 32 && depth 36)) then .error .badArg
    else if !x.oq.isEmpty || !x.uq.isEmpty then .error .wrongState
    else .ok (s.modEndpoint ep (fun e => { e with cfg := v &&& 0xFFFF00FF800001FF#64 }))))

/-- REPLICA_SET (R395). -/
def execReplicaSet (f : Nat) (devids : List (BitVec 16)) (limit : Nat) (s : State) : Host.Outcome State Fault Refusal :=
  .next (s.mailbox (
    if !virtual f || decide (devids.length < 2) || decide (4 < devids.length) || decide (limit < 1) || decide (65535 < limit) then
      .error .badArg
    else if s.plats.any (fun e => e.2.func == f) then .error .wrongState
    else .ok (s.modFunc f (fun x => { x with replica := devids, rlimit := limit }))))

/-! ### Ending a freeze (R378, R429) -/

/-- A master is frozen; a channel of a block is named 16 times the block's key plus its number. -/
def State.isFrozen (s : State) : Master → Bool
  | .wave k => (match s.waves.get? k with
    | some w => w.frozen
    | none => false)
  | .core c => (s.core c).frozen
  | .channel i => (match s.blocks.get? (i / 16) with
    | some b => (b.chan (i % 16)).frozen
    | none => false)
  | .freeChannel c ch => (s.core c).frozenChans.any (fun e => e.1 == ch)
  | .func f => (s.func f).part.isSome && (s.func f).frozen

/-- The blocks that a frozen master's end concerns. -/
def State.blocksOf (s : State) : Master → List Nat
  | .wave k => (match s.waves.get? k with
    | some w => [w.block]
    | none => [])
  | .core c => (s.blocks.filter (fun e => e.2.halves.any (fun h => h.core == c))).map (·.1)
  | .channel i => [i / 16]
  | .freeChannel _ _ => []
  | .func f => (s.blocks.filter (fun e => match s.grids.get? e.2.grid with
    | some g => g.func == f
    | none => false)).map (·.1)

/-- A master released: a core's or a function's waves with it, but those that stay frozen for another reason (R429). -/
def State.release (s : State) (m : Master) : State :=
  match m with
  | .wave k => s.modWave k (fun w => s.thaw { w with ownFreeze := false })
  | .core c =>
    let s := s.modCore c (fun x => { x with frozen := false })
    s.mapWaves (fun _ w => w.core == c) s.thaw
  | .channel i => s.modChan (i / 16) (i % 16) (fun c => { c with frozen := false })
  | .freeChannel c ch => s.modCore c (fun x => { x with frozenChans := x.frozenChans.filter (fun e => e.1 != ch) })
  | .func f =>
    let s := s.modFunc f (fun x => { x with frozen := false })
    s.mapWaves (fun _ w => w.func == f) s.thaw

/-- FREEZE_END: a frozen master is released, or its blocks end under R356 with PRIVILEGE. -/
def execFreezeEnd (m : Master) (endBlock : Bool) (s : State) : Host.Outcome State Fault Refusal :=
  .next (s.mailbox (
    if !s.isFrozen m then .error .wrongState
    else
      let t := s.release m
      .ok (if endBlock then (s.blocksOf m).foldl (fun s b => s.fatalBlock b none .privilege) t else t)))

/-! ### Log, time and power (R406, R409, R432, R440) -/

/-- Log entries of 256 bytes written from the start of the argument page, where the host maps it. R431 and R432 give an
entry's size and no layout: its bytes are free values (assumption 153). -/
def State.writeLogPage (s : State) (n : Nat) : State :=
  let a := s.control.mbarg.toNat
  if n = 0 ∨ !s.hostMaps 0 a then s
  else { s.hostStore a ((List.range (256 * n)).map (Config.logByte s.free)) with free := s.free + 1 }

/-- LOG_READ: the newest entries, up to 15, are copied into the argument page; the machine shows which they are. -/
def execLogRead (count : Nat) (s : State) : Host.Outcome State Fault Refusal :=
  .next (s.mailbox (
    if 15 < count then .error .badArg
    else
      let l := s.control.log.drop (s.control.log.length - count)
      .ok ((s.writeLogPage l.length).emit (.logPage l))))

/-- TIME_SET: DEVID changes only before any compute die has been admitted. -/
def execTimeSet (arg : TimeArg) (s : State) : Host.Outcome State Fault Refusal :=
  .next (s.mailbox (
    if arg.stalllim < 1024 ∨ 2 ^ 31 < arg.stalllim then .error .badArg
    else if arg.devid ≠ s.fabric.devid ∧ s.fabric.devidSet = true then .error .wrongState
    else .ok (s.modFabric (fun x => { x with
      devid := arg.devid, stallLim := arg.stalllim, ppsOn := arg.pps
      inputs := x.inputs.mapIdx (fun i y => if i < 16 then y.setTsrc (arg.tsrc.getLsbD i) else y) }))))

/-- PSUST, PEXC and TEXC of a PWRCFG. -/
def psust (v : DWord) : Nat := natBits v.toNat 0 16
/-- PEXC. -/
def pexc (v : DWord) : Nat := natBits v.toNat 32 16
/-- TEXC. -/
def texc (v : DWord) : Nat := natBits v.toNat 24 8

/-- PWR_SET: the limits are in range; reserved bits are ignored. -/
def execPwrSet (v : DWord) (s : State) : Host.Outcome State Fault Refusal :=
  .next (s.mailbox (
    if psust v < 500 ∨ 2200 < psust v ∨ pexc v < psust v ∨ 2400 < pexc v ∨ texc v < 1 ∨ 10 < texc v then .error .badArg
    else .ok (s.modControl (fun c => { c with pwrcfg := v &&& 0x0000FFFFFF00FFFF#64 }))))

/-- The codes that the mailbox lists. -/
def mailboxListed (code : Nat) : Bool := decide (1 ≤ code) && decide (code ≤ 0x0B)

/-- MAILBOX_UNKNOWN_CODE. -/
def execMailboxUnknownCode (code : BitVec 16) (s : State) : Host.Outcome State Fault Refusal :=
  .next (if mailboxListed code.toNat then s else s.mailbox (.error .badArg))

/-! ## Compute-die reset and re-admission (R14, R436, R437) -/

/-- The units with a block resident on a die. -/
def State.unitsOn (s : State) (d : Nat) : List (List Nat) :=
  ((s.blocks.filter (fun e => e.2.halves.any (fun h => dieOf h.core == d))).map (fun e =>
    if e.2.status = .resident then s.unitOf e.1 else [e.1])).eraseDups

/-- A wave whose die has lost its state: nothing of it is left to perform. -/
def Wave.lost (w : Wave) : Wave :=
  { w.stop true with memOps := [], frozen := false, inHandler := false }

/-- A unit ends by a fatal HW_ERR; its unpublished cairns are freed (R436). -/
def State.loseUnit (s : State) (u : List Nat) : State :=
  let s := (s.cuts.filter (fun c => c.state == .writing && c.method == .save && c.blocks.any u.contains)).foldl
    (fun s c => s.freeUnit c.id) s
  u.foldl (fun s b => s.fatalBlock b none .hwErr) s

/-- The waves of a die gone, with what they had outstanding. -/
def State.loseWaves (s : State) (d : Nat) : State :=
  let ks := (s.waves.filter (fun e => dieOf e.2.core == d && !e.2.ended)).map (·.1)
  let s := ks.foldl (fun s k => s.modWave k Wave.lost) s
  ks.foldl (fun s k => s.settle k) s

/-- The chains of queues and plats that ran on a die stop with an error. -/
def State.loseChains (s : State) (d : Nat) : State :=
  (s.xfers.filter (fun x => x.block.isNone && dieOf x.core == d)).foldl (fun s x =>
    s.stopChain x false (some .hwErr) Cause.hwErr.code) s

/-- The SRAM of a die zeroed: caches, TLBs, easements, counters, die-scratchpad regions, its engines' buckets and pools,
and what its interface held (R14). -/
def State.clearDie (s : State) (d : Nat) : State :=
  { s with
    cores := s.cores.filter (fun e => dieOf e.1 != d)
    dies := listUpdate s.dies d (fun x => { x with ok := false, l2 := [], l2tlb := [], history := [], tasks := [], resetting := true })
    fills := s.fills.filter (fun f => dieOf f.core != d)
    icache := s.icache.filter (fun l => !((l.level == 0 && dieOf (l.place / 4) == d) || (l.level == 1 && dieOf l.place == d) ||
      (l.level == 2 && l.place == d)))
    regions := s.regions.filter (fun e => e.2.die != d)
    dregions := s.dregions.mapVals (fun _ r => if r.die == d then { r with bytes := [], spoison := [] } else r)
    buckets := s.buckets.filter (fun e => e.1 / 512 / 9 != d)
    parts := s.parts.mapVals (fun _ p => { p with pools := p.pools.filter (fun e => e.1 / 9 != d) })
    fabric := { s.fabric with
      links := s.fabric.links.filter (fun x => x.input != 16 + d), lastStamp := listUpdate s.fabric.lastStamp d (fun _ => 0) } }

/-- A compute die reset (R436). -/
def State.resetDie (s : State) (d : Nat) : State :=
  let units := s.unitsOn d
  let s := s.fenceInput (16 + d)
  let s := units.foldl (fun s u => s.loseUnit u) s
  let spawners : List Nat := match s.dies[d]? with
    | some x => (x.tasks.map (fun t : Task => t.grid)).eraseDups
    | none => []
  let s := ((s.loseWaves d).loseChains d).clearDie d
  let s := spawners.foldl (fun s g => s.faultGrid g .hwErr) s
  s.log (.dieReset d)

/-- A compute die is in reset. -/
def State.anyResetting (s : State) : Bool := s.dies.any (·.resetting)

/-- DIE_RESET (R431). -/
def execDieReset (die : Nat) (s : State) : Host.Outcome State Fault Refusal :=
  .next (s.mailbox (
    if 4 ≤ die then .error .badArg
    else if s.anyResetting then .error .wrongState
    else .ok (s.resetDie die)))

/-- An uncorrectable error of an admitted die: the die is reset, or, while another one is reset, when its turn comes
(R436: dies are reset one at a time). -/
def State.dieError (s : State) (die : Nat) : State :=
  match s.dies[die]? with
  | some d =>
    if !d.ok then s
    else if s.anyResetting then s.modControl (fun c => { c with dieErrors := insertNat die c.dieErrors })
    else (s.resetDie die).modControl (fun c => { c with dieErrors := c.dieErrors.filter (· != die) })
  | none => s

/-- DIE_ERROR_RESET (R436). -/
def execDieErrorReset (die : Nat) (s : State) : Host.Outcome State Fault Refusal := .next (s.dieError die)

/-- DIE_READMIT (R437): step 4 of R435 repeated for a die. One that passes is admitted again, its port is unfenced, and the
buckets of its engines begin; one that fails stays out, and is logged. Which of the two it is is open (assumption 159). -/
def execDieReadmit (die : Nat) (s : State) : Host.Outcome State Fault Refusal :=
  .next (match s.dies[die]? with
    | some d =>
      if !(d.resetting && s.usable && !s.control.tripped) then s
      else
      let passed := Config.dieTrains s.free
      let s := { s with free := s.free + 1 }
      if passed then
        let s := ((s.modDie die (fun x => { x with ok := true, resetting := false })).unfenceInput (16 + die)).log (.dieAdmit die)
        (s.parts.map (·.1)).foldl State.refillAll s
      else (s.modDie die (fun x => { x with resetting := false })).log (.dieOut die)
    | none => s)

/-! ## Firmware slots and the recovery window (R433, R434) -/

/-- A slot's image. -/
def Control.slot (c : Control) (b : Bool) : List Byte := if b then c.slotB else c.slotA

/-- What R433 says of an image. -/
def slotVerdict (image : List Byte) : SlotState :=
  match Config.verdict image with
  | 0 => .authentic
  | 1 => .badSignature
  | _ => .belowVersion

/-- A slot's state noted. -/
def Control.note (c : Control) (b : Bool) (x : SlotState) : Control := if b then { c with stB := x } else { c with stA := x }

/-- A verified image written to a slot: the next start tries it first. -/
def Control.writeSlot (c : Control) (b : Bool) (image : List Byte) : Control :=
  let c := if b then { c with slotB := image } else { c with slotA := image }
  { c.note b .authentic with tryFirst := b, failcnt := 0 }

/-- The slot that runs. -/
def Control.running (c : Control) : Bool :=
  match c.phase with
  | .ready b => b
  | _ => false

/-- FW_STAGE (R431, R434): an image that is verified is written to the slot that is not running. -/
def execFwStage (image : List Byte) (s : State) : Host.Outcome State Fault Refusal :=
  .next (s.mailbox (
    if 33554432 < image.length then .error .badArg
    else if s.control.upstat = 1 then .error .wrongState
    else if slotVerdict image = .authentic then .ok (s.modControl (fun c => c.writeSlot (!c.running) image))
    else .error .denied))

/-- UPLOAD_GO (R434): in minimal mode, verification begins. -/
def execUploadGo (slot : Bool) (s : State) : Host.Outcome State Fault Refusal :=
  .next (if s.control.phase = .minimal ∧ s.control.upstat ≠ 1 then
    s.modControl (fun c => { c with upstat := 1, upslot := slot }) else s)

/-- UPLOAD_COMPLETE (R434): the slot is written, or the image is refused. -/
def execUploadComplete (s : State) : Host.Outcome State Fault Refusal :=
  .next (if s.control.upstat = 1 then
    let image := Memory.bytes s.control.upbuf 0 s.control.uplen
    if slotVerdict image = .authentic then
      s.modControl (fun c => { c.writeSlot c.upslot image with upstat := 2 })
    else s.modControl (fun c => { c with upstat := 3 })
  else s)

/-- RSN_CLEAR (R434). -/
def execRsnClear (s : State) : Host.Outcome State Fault Refusal := .next (s.modControl (fun c => { c with rsn := 0 }))

/-! ## Starts and bring-up (R433 to R435) -/

/-- What a reset of the control die keeps: host memory, the slots, and the auxiliary-power domain. Power-on begins
Datum time again (R236); the ports of dies that are not admitted are fenced. -/
def State.restart (s : State) (powerOn : Bool) : State :=
  let c := s.control
  { State.reset with
    time := if powerOn then 0 else s.time
    free := s.free, inputs := s.inputs, outbox := s.outbox, host := s.host, hbm := s.hbm, nextId := s.nextId
    dies := s.dies.map (fun d => { Die.reset with map := d.map })
    fabric := { Fabric.reset with inputs := Fabric.reset.inputs.mapIdx (fun i x =>
      if 16 ≤ i ∧ i < 20 then { x with fenced := true } else x) }
    control := { Control.reset with
      slotA := c.slotA, slotB := c.slotB, tryFirst := c.tryFirst, failcnt := c.failcnt, rsn := c.rsn
      trips := c.trips, tripped := c.tripped && !powerOn, began := if powerOn then 0 else s.time } }

/-- A start that fails counts; `minimal` is the reason for minimal mode, if it is entered at once. The next start
tries the slot that did not run. -/
def Control.failed (c : Control) (ran : Option Bool) (minimal : Option Nat) : Control :=
  let n := min 15 (c.failcnt + 1)
  let c := { c with failcnt := n, tryFirst := match ran with
    | some b => !b
    | none => c.tryFirst }
  match minimal with
  | some r => { c with phase := .minimal, rsn := r }
  | none => if 3 ≤ n then { c with phase := .minimal, rsn := 2 } else { c with phase := .off }

/-- START (R433): a slot is tried, and the other one if it is not authentic. -/
def execStart (powerOn : Bool) (s : State) : Host.Outcome State Fault Refusal :=
  .next (
    let s := s.restart powerOn
    let b := s.control.tryFirst
    let v := slotVerdict (s.control.slot b)
    if v = .authentic then s.modControl (fun c => { c.note b v with phase := .training b })
    else
      let v' := slotVerdict (s.control.slot (!b))
      s.modControl (fun c =>
        let c := (c.note b v).note (!b) v'
        if v' = .authentic then { c with phase := .training (!b) } else c.failed none (some 1)))

/-- READY_TIMEOUT (R433): firmware has not reported ready within 10 s. -/
def execReadyTimeout (s : State) : Host.Outcome State Fault Refusal :=
  .next (match s.control.phase with
    | .training b =>
      if s.control.began + 40000000000 ≤ s.time then s.modControl (fun c => c.failed (some b) none) else s
    | _ => s)

/-- Step 4 of R435 for the dies that pass: SRAM zeroed, DIEOK set, the port open; a die that stays out is
logged. -/
def State.admitDies (s : State) (dies : BitVec 4) : State :=
  (List.range 4).foldl (fun s i =>
    if dies.getLsbD i then
      ((s.modDie i (fun d => { d with ok := true })).modInput (16 + i) (fun x => { x with fenced := false })).log (.dieAdmit i)
    else s.log (.dieOut i)) s

/-- FIRMWARE_READY (R435): bring-up has trained the memory dies, whose HBM is zeroed, and the compute dies, and
the firmware reports ready, which zeroes FAILCNT; or it has stopped in minimal mode, from which no ready comes, so that
the start has failed (R433; DEDUCED, assumption 133). -/
def execFirmwareReady (memOk : Bool) (dies : BitVec 4) (s : State) : Host.Outcome State Fault Refusal :=
  .next (match s.control.phase with
    | .training b =>
      if !memOk || s.control.tripped then
        s.modControl (fun c => c.failed (some b) (some (if c.tripped then 5 else 3)))
      else
        let s : State := { s with hbm := [], hpoison := [] }
        if dies = 0 then (s.admitDies dies).modControl (fun c => c.failed (some b) (some 4))
        else
          ((s.admitDies dies).modFabric (fun x => { x with devidSet := true })).modControl (fun c =>
            { c with phase := .ready b, failcnt := 0, tryFirst := b })
    | _ => s)

/-- The TotalVFs that SR-IOV reports (R416, R434). -/
def Control.totalVFs (c : Control) : Nat := if c.phase = .minimal then 0 else 256

/-- CONFIG_REQUEST (R434, R435): Configuration RRS until step 5 or minimal mode; an answer shows TotalVFs. -/
def execConfigRequest (func : Nat) (s : State) : Host.Outcome State Fault Refusal :=
  .next (s.emit (.configReply func (!(s.usable || s.control.phase == .minimal)) s.control.totalVFs))

/-! ## Soft errors (R429, R438) -/

/-- An uncorrectable error poisons its unit: an element, or a line of a cache, a scratchpad or HBM. One in control state
follows R429 for a core, whose TLBs and tables are its control state, and R436 for a die, whose shared TLB and tables are
the die's own logic; for the control die's SRAM no rule says what it does (DEDUCED, assumption 156). -/
def State.poison (s : State) (u : SoftUnit) : State :=
  match u with
  | .laneReg k r l => s.modWave k (fun w => { w with vpoison := insertNat (vKey r l) w.vpoison })
  | .scalarReg k r => s.modWave k (fun w => { w with spoison := insertNat r w.spoison })
  | .tile b h e => s.modBlock b (fun x => x.modHalf h (fun y => { y with tpoison := insertNat e y.tpoison }))
  | .scratchLine b h n => s.modBlock b (fun x => x.modHalf h (fun y => { y with spoison := insertNat n y.spoison }))
  | .regionLine r n => { s with regions := s.regions.update r (fun x => { x with spoison := insertNat n x.spoison }) }
  | .dieStoreLine r n => { s with dregions := s.dregions.update r (fun x => { x with spoison := insertNat n x.spoison }) }
  | .hbmLine n => { s with hpoison := insertNat n s.hpoison }
  | .cacheLine core n =>
    let spoil := fun (l : List Copy) => l.map (fun e => if e.line = n then { e with poison := true } else e)
    (s.modCore core (fun c => { c with l1 := spoil c.l1 })).modDie (dieOf core) (fun d =>
      if (s.core core).l1.any (fun e => e.line == n) then d else { d with l2 := spoil d.l2 })
  | .codeLine level place line =>
    { s with icache := s.icache.map (fun e => if e.level = level ∧ e.place = place ∧ e.line = line then { e with poison := true } else e) }
  | .dieControl die => s.dieError die
  | .controlDie => s
  | .coreControl core =>
    let funcs := ((s.waves.filter (fun e => e.2.core == core && !e.2.ended)).map (fun e => e.2.func)).eraseDups
    funcs.foldl (fun s f =>
      let logical := match (s.func f).part.bind (fun k => s.parts.get? k) with
        | some p => (p.cores.idxOf? core).getD 0
        | none => 0
      s.postViolation f 4 1 logical 0) (s.freezeCore core)

/-- The die that a unit lies on, as `Control.corrected` numbers them. -/
def State.dieStruck (s : State) (u : SoftUnit) : Nat :=
  let ofWave := fun k => match s.waves.get? k with
    | some w => dieOf w.core
    | none => 0
  match u with
  | .laneReg k _ _ | .scalarReg k _ => ofWave k
  | .tile b h _ | .scratchLine b h _ => dieOf (s.half b h).core
  | .regionLine r _ => match s.regions.get? r with
    | some x => dieOf x.core
    | none => 0
  | .dieStoreLine r _ => match s.dregions.get? r with
    | some x => x.die
    | none => 0
  | .hbmLine n => 4 + homeDie n % 8
  | .cacheLine core _ | .coreControl core => dieOf core
  | .codeLine level place _ => if level = 0 then dieOf (place / 4) else if level = 1 then dieOf place else place
  | .dieControl die => die
  | .controlDie => 12

/-- A corrected error counted for its die, and the die's new count logged (R432, R438). -/
def State.corrected (s : State) (d : Nat) : State :=
  let n := s.control.corrected.getD d 0 + 1
  (s.modControl (fun c => { c with corrected := listUpdate c.corrected d (fun _ => n) })).log (.correctedErrors d n)

/-- SOFT_ERROR (R438): a corrected error is counted; an uncorrectable one poisons its unit, or freezes the core
whose control state it struck (R429). -/
def execSoftError (unit : SoftUnit) (corrected : Bool) (s : State) : Host.Outcome State Fault Refusal :=
  .next (if corrected then s.corrected (s.dieStruck unit) else s.poison unit)

/-- HBM_SCRUB (R438): a memory die has scrubbed its HBM, as it does every 24 hours. -/
def execHbmScrub (mem : Nat) (s : State) : Host.Outcome State Fault Refusal :=
  .next (
    let last := s.control.scrubs.getD mem 0
    if mem < 8 ∧ last + 345600000000000 ≤ s.time then
      s.modControl (fun c => { c with scrubs := (List.range 8).map (fun i => if i = mem then s.time else c.scrubs.getD i 0) })
    else s)

/-! ## Power and temperature (R440, R441) -/

/-- A junction is at or above its throttle temperature. -/
def hotSample (p : PowerSample) : Bool := decide (100 ≤ p.compTemp) || decide (90 ≤ p.memTemp) || decide (100 ≤ p.ctrlTemp)

/-- A junction is at or above its maximum. -/
def maximumSample (p : PowerSample) : Bool :=
  decide (105 ≤ p.compTemp) || decide (95 ≤ p.memTemp) || decide (105 ≤ p.ctrlTemp)

/-- The dies' trip temperatures (R441). -/
def tripTemp : DieKind → Nat
  | .compute => 115
  | .memory => 105
  | .control => 115

/-- Where a die's temperature stands in `Control.temps`. -/
def tempPlace : DieKind → Nat
  | .compute => 0
  | .memory => 1
  | .control => 2

/-- A power sample is due: the last was 40,000 ticks ago (R440). -/
def State.sampleDue (s : State) : Bool := s.usable && s.control.sampledAt.all (fun t => decide (t + 40000 ≤ s.time))

/-- What the sensors read now (R440). -/
def State.sensed (s : State) : PowerSample :=
  { watts := Config.sensor s.time 0, compTemp := Config.sensor s.time 1, memTemp := Config.sensor s.time 2
    ctrlTemp := Config.sensor s.time 3 }

/-- The samples of the last 100 ms: 10,000, one each 40,000 ticks. -/
def meanSamples : Nat := 10000

/-- The mean of some samples is above a limit (R440); before 100 ms have passed, that of the samples there are. -/
def meanAbove (l : List Nat) (limit : Nat) : Bool := decide (limit * l.length < l.foldl (· + ·) 0)

/-- POWER_SAMPLE (R440), each 40,000 ticks: one more step of issue slots is withheld, or one is returned; at a maximum
temperature 15/16 are withheld. -/
def execPowerSample (p : PowerSample) (s : State) : Host.Outcome State Fault Refusal :=
  .next (
    if !s.sampleDue then s else
    let c := s.control
    let above := decide (psust c.pwrcfg < p.watts)
    let since := if above then some (c.overSince.getD s.time) else none
    let long := match since with
      | some t => decide (t + 4000000 * texc c.pwrcfg < s.time)
      | none => false
    let recent := (p.watts :: c.recent).take meanSamples
    let more := decide (pexc c.pwrcfg < p.watts) || long || meanAbove recent (psust c.pwrcfg) || hotSample p
    let steps := if maximumSample p then 15 else if more then min 15 (c.steps + 1) else c.steps - 1
    let s := s.modControl (fun c =>
      { c with steps, overSince := since, maxed := maximumSample p, sampledAt := some s.time, recent
               temps := [p.compTemp, p.memTemp, p.ctrlTemp] })
    if steps = c.steps then s else s.log (.power steps))

/-- A die's junction stands at its trip temperature, as the last sample found it (R441; DESIGN CHOICE, assumption 157: no
rule says when it is looked at). -/
def State.tripDue (s : State) (die : DieKind) : Bool :=
  !s.control.tripped && decide (tripTemp die ≤ s.control.temps.getD (tempPlace die) 0)

/-- THERMAL_TRIP (R441): a die is at its trip temperature. THERMTRIP is asserted, and every die but the control die is held
in reset, without power, until power is cycled; the auxiliary-power storage keeps the event. -/
def execThermalTrip (die : DieKind) (s : State) : Host.Outcome State Fault Refusal :=
  .next (
    if !s.tripDue die then s else
    let s := (List.range 4).foldl (fun s d => s.resetDie d) s
    let s : State := { s with hbm := [], hpoison := [], privMem := [], leases := [] }
    ((s.modControl (fun c =>
      { c with tripped := true, rsn := 5, dieErrors := [], trips := c.trips ++ [(s.time, die)] })).log (.thermal die)).emit
      .thermtrip)

/-! ## Policy plug-ins (R430) -/

/-- PLUGIN_UNLOAD: a plug-in that reaches outside what is its own, or that runs for more than 1 ms, is unloaded; its
partition's functions are then switched in function order, each for 10 ms (`State.sliceOver`, `State.sliceNext`). What a
plug-in runs is its own program, which the spec does not give: the event comes from outside (assumption 151). -/
def execPluginUnload (part : Nat) (s : State) : Host.Outcome State Fault Refusal :=
  .next (match s.parts.get? part with
    | some p => if p.plugin then (s.modPart part (fun p => { p with plugin := false })).log (.pluginUnload part) else s
    | none => s)

end Sys2Proof.Machine
end

