-- ==== Sys2Proof/Machine/IntLane.lean ====
section
/-! DEFINITION. The meanings of the integer, bit and lane instructions 0x40 to 0x5F (R170 to R182). -/

namespace Sys2Proof.Machine

/-! ## Shared operations -/

/-- A 32-bit result in the lanes in `act`, from one lane function. -/
def Ctx.writeWords (c : Ctx) (s : State) (d : VCode) (f : Nat → Nat) : Res :=
  c.onWave s (c.vwrite c.w d.vNum 1 c.act f)

/-- The decode checks of vecLogic. -/
def vecLogicChecks (d a : VCode) (b : Option VCode) (c : Ctx) : Checks :=
  Checks.all [dstV c.ty.words d, c.source (.typed c.ty) a,
    match b with
    | some b => c.source (.typed c.ty) b
    | none => Checks.none]

/-- AND, OR, XOR and NOT over whole units of any type (R171). -/
def vecLogic (op : BitOp) (d a : VCode) (b : Option VCode) (s : State) :
    Host.Outcome State Fault Refusal :=
  issueChecked s (vecLogicChecks d a b)
    (fun c =>
      let k := SrcKind.typed c.ty
      c.onWave s (c.vwrite c.w d.vNum c.ty.words c.act (fun l =>
        elemBit op (32 * c.ty.words) (c.operand k a l)
          (match b with
            | some b => c.operand k b l
            | none => 0))))

/-- The decode checks of vecBit. -/
def vecBitChecks (d a : VCode) (b : Option VCode) (c : Ctx) : Checks :=
  Checks.all [Checks.when c.ty.isInt, dstV c.ty.words d, c.source (.typed c.ty) a,
    match b with
    | some b => c.source (.typed c.ty) b
    | none => Checks.none]

/-- The element-wise shifts and counts of R171 on integer types. -/
def vecBit (op : BitOp) (d a : VCode) (b : Option VCode) (s : State) :
    Host.Outcome State Fault Refusal :=
  issueChecked s (vecBitChecks d a b)
    (fun c => c.writeElems s c.ty d (fun l j =>
      (elemBit op c.ty.bits (c.elem c.ty a l j)
        (match b with
          | some b => c.elem c.ty b l j
          | none => 0), 0)))

/-- The decode checks of vecCarry. -/
def vecCarryChecks (d a b : VCode) (c : Ctx) : Checks :=
  Checks.all [dstV 1 d, c.source .raw a, c.source .raw b]

/-- ADDC and SUBB (R172): a 32-bit sum or difference chained through p7. -/
def vecCarry (subtract : Bool) (d a b : VCode) (s : State) : Host.Outcome State Fault Refusal :=
  issueChecked s (vecCarryChecks d a b)
    (fun c =>
      let t := fun l : Nat =>
        let x : Int := c.operand .raw a l
        let y : Int := c.operand .raw b l
        let k : Int := if (c.w.p.get 7).getLsbD l then 1 else 0
        if subtract then x - y - k else x + y + k
      let w := c.vwrite c.w d.vNum 1 c.act (fun l => intBits 32 (t l))
      c.onWave s (w.pwrite 7 c.act
        (maskWhere 64 (fun l => if subtract then decide (t l < 0) else decide (2 ^ 32 ≤ t l)))))

/-- The decode checks of vecRaw2. -/
def vecRaw2Checks (readsD : Bool) (d a b : VCode) (c : Ctx) : Checks :=
  Checks.all [if readsD then dstVRead 1 d else dstV 1 d, c.source .raw a, c.source .raw b]

/-- The 32-bit operations with a raw control operand (R174, R175). -/
def vecRaw2 (readsD : Bool) (f : Nat → Nat → Nat → Nat) (d a b : VCode) (s : State) :
    Host.Outcome State Fault Refusal :=
  issueChecked s (vecRaw2Checks readsD d a b)
    (fun c => c.writeWords s d (fun l =>
      f (c.vread d.vNum 1 l) (c.operand .raw a l) (c.operand .raw b l)))

/-- The decode checks of vecDot. -/
def vecDotChecks (types : List Ty) (d a b : VCode) (c : Ctx) : Checks :=
  Checks.all [Checks.when (types.contains c.ty), dstVRead 1 d, c.source (.typed c.ty) a,
    c.source (.typed c.ty) b]

/-- DOT4 and DOT2 (R176): an exact integer dot product added to S32 and reduced once (R78). -/
def vecDot (types : List Ty) (d a b : VCode) (s : State) : Host.Outcome State Fault Refusal :=
  issueChecked s (vecDotChecks types d a b)
    (fun c =>
      let f := fun l => reduceInt .s32 (mdSat c.w.md) (signedOf 32 (c.vread d.vNum 1 l) +
        dotExact c.ty.slot (c.operand (.typed c.ty) a l) (c.operand (.typed c.ty) b l)
          (mdSgnA c.w.md) (mdSgnB c.w.md))
      c.onWave s ((c.vwrite c.w d.vNum 1 c.act (fun l => (f l).1)).raise
        (flagsFrom 1 c.act (fun l _ => f l))))

/-- The decode checks of vecShuffle. -/
def vecShuffleChecks (b : VCode) (bOk : VCode → Bool) (d a : VCode) (c : Ctx) : Checks :=
  Checks.all [Checks.unmelded, dstV c.ty.words d, (c.source (.typed c.ty) a).readByAll, c.sourceOf bOk .raw b]

/-- SHFL, SHFLX and BCAST (R177): `from` gives the source lane. Sources come from every executing lane
of the gang, whatever its guard; a lane whose source lane supplies none keeps its own operand. -/
def vecShuffle (b : VCode) (bOk : VCode → Bool) (lane : Ctx → Nat → Nat) (d a : VCode) (s : State) :
    Host.Outcome State Fault Refusal :=
  issueChecked s (vecShuffleChecks b bOk d a)
    (fun c =>
      let k := SrcKind.typed c.ty
      c.onWave s (c.vwrite c.w d.vNum c.ty.words c.act (fun l =>
        let m := lane c l % c.w.width
        if c.exec.getLsbD m then c.operand k a m else c.operand k a l)))

/-! ## The meanings -/

/-- ADDC (R172). -/
def execAddc (d a b : VCode) (s : State) := vecCarry false d a b s
/-- SUBB (R172). -/
def execSubb (d a b : VCode) (s : State) := vecCarry true d a b s

/-- The decode checks of MULHI. -/
def mulhiChecks (d a b : VCode) (c : Ctx) : Checks :=
  Checks.all [Checks.when c.ty.isInt, dstV c.ty.words d, c.source (.typed c.ty) a,
    c.source (.typed c.ty) b]

/-- MULHI (R173): the upper half of each exact product. -/
def execMulhi (d a b : VCode) (s : State) : Host.Outcome State Fault Refusal :=
  issueChecked s (mulhiChecks d a b)
    (fun c => c.writeElems s c.ty d (fun l j =>
      (intBits c.ty.bits (intOf c.ty (c.elem c.ty a l j) * intOf c.ty (c.elem c.ty b l j) /
        (2 ^ c.ty.bits : Nat)), 0)))

/-- The decode checks of MULW. -/
def mulwChecks (d a b : VCode) (c : Ctx) : Checks :=
  Checks.all [Checks.when (c.ty.isInt && !c.ty.is64), dstV 2 d, c.source (.typed c.ty) a,
    c.source (.typed c.ty) b]

/-- MULW (R173): the exact products, twice as wide, in an even pair. -/
def execMulw (d a b : VCode) (s : State) : Host.Outcome State Fault Refusal :=
  issueChecked s (mulwChecks d a b)
    (fun c => c.onWave s (c.vwrite c.w d.vNum 2 c.act (fun l =>
      (List.range c.ty.count).foldr (fun j acc =>
        intBits (2 * c.ty.bits) (intOf c.ty (c.elem c.ty a l j) * intOf c.ty (c.elem c.ty b l j)) +
          2 ^ (2 * c.ty.bits) * acc) 0)))

/-- AND (R171). -/
def execAnd (d a b : VCode) (s : State) := vecLogic .and d a (some b) s
/-- OR (R171). -/
def execOr (d a b : VCode) (s : State) := vecLogic .or d a (some b) s
/-- XOR (R171). -/
def execXor (d a b : VCode) (s : State) := vecLogic .xor d a (some b) s
/-- NOT (R171). -/
def execNot (d a : VCode) (s : State) := vecLogic .not d a none s
/-- SHL (R171). -/
def execShl (d a b : VCode) (s : State) := vecBit .shl d a (some b) s
/-- SHR (R171). -/
def execShr (d a b : VCode) (s : State) := vecBit .shr d a (some b) s
/-- SHA (R171). -/
def execSha (d a b : VCode) (s : State) := vecBit .sha d a (some b) s
/-- ROT (R171). -/
def execRot (d a b : VCode) (s : State) := vecBit .rot d a (some b) s
/-- CLZ (R171). -/
def execClz (d a : VCode) (s : State) := vecBit .clz d a none s
/-- POPC (R171). -/
def execPopc (d a : VCode) (s : State) := vecBit .popc d a none s
/-- BREV (R171). -/
def execBrev (d a : VCode) (s : State) := vecBit .brev d a none s
/-- BFE (R174). -/
def execBfe (d a b : VCode) (s : State) := vecRaw2 false (fun _ x y => bitFieldExtract x y) d a b s
/-- BFI (R174). -/
def execBfi (d a b : VCode) (s : State) := vecRaw2 true bitFieldInsert d a b s
/-- CLMUL (R175). -/
def execClmul (d a b : VCode) (s : State) := vecRaw2 false (fun _ x y => clmulNat x y % 2 ^ 32) d a b s
/-- CLMULH (R175). -/
def execClmulh (d a b : VCode) (s : State) := vecRaw2 false (fun _ x y => clmulNat x y / 2 ^ 32) d a b s
/-- DOT4 (R176). -/
def execDot4 (d a b : VCode) (s : State) := vecDot [.s4, .n4, .s8, .n8] d a b s
/-- DOT2 (R176). -/
def execDot2 (d a b : VCode) (s : State) := vecDot [.s16, .n16] d a b s
/-- SHFL (R177). -/
def execShfl (d a b : VCode) (s : State) :=
  vecShuffle b VCode.legal (fun c l => c.operand .raw b l) d a s
/-- SHFLX (R177). -/
def execShflx (d a b : VCode) (s : State) :=
  vecShuffle b VCode.legal (fun c l => l ^^^ c.operand .raw b l) d a s
/-- The codes of BCAST's lane number (R177). -/
def bcastLane (x : VCode) : Bool := x.isSLit || x == .zero || x == .one || x == .mone

/-- BCAST (R177). -/
def execBcast (d a b : VCode) (s : State) :=
  vecShuffle b bcastLane (fun c _ => c.operand .raw b 0) d a s

/-- The types that an operation of WRED and WSCAN accepts: every type is numeric (R178). -/
def redChecks (d a : VCode) (op : BitVec 3) (scalar : Bool) (c : Ctx) : Checks :=
  Checks.all [Checks.unmelded, Checks.when (decide (op.toNat < 6)),
    if scalar && d.isS then dstS c.ty.words d else dstV c.ty.words d, c.source (.typed c.ty) a]

/-- The members of the tree of R85: the lanes of a mask, every other position absent. -/
def Ctx.redMembers (c : Ctx) (m : LaneMask) (a : VCode) : List (Option Nat) :=
  (List.range c.w.width).map (fun l =>
    if m.getLsbD l then some (c.operand (.typed c.ty) a l) else none)

/-- WRED (R178, R85): the total to every lane in `act`, or once to a scalar destination. -/
def execWred (d a : VCode) (op : BitVec 3) (s : State) : Host.Outcome State Fault Refusal :=
  issueChecked s (redChecks d a op true)
    (fun c =>
      let r := redTree (RedOp.ofCode op.toNat) c.ty (mdRound c.w.md) 6 (c.redMembers c.act a)
      let total := r.1.getD (redIdentity (RedOp.ofCode op.toNat) c.ty)
      let w := if d.isS then c.w.swrite d.sNum c.ty.words total
        else c.vwrite c.w d.vNum c.ty.words c.act (fun _ => total)
      c.onWave s (w.raise r.2))

/-- WSCAN (R178, R85): each lane in `act` receives the total of the lanes up to itself. -/
def execWscan (d a : VCode) (op : BitVec 3) (s : State) : Host.Outcome State Fault Refusal :=
  issueChecked s (redChecks d a op false)
    (fun c =>
      let f := fun l => redTree (RedOp.ofCode op.toNat) c.ty (mdRound c.w.md) 6
        (c.redMembers (c.act &&& maskWhere 64 (fun i => decide (i ≤ l))) a)
      c.onWave s ((c.vwrite c.w d.vNum c.ty.words c.act (fun l => (f l).1.getD 0)).raise
        (flagsFrom 1 c.act (fun l _ => (0, (f l).2)))))

/-- The decode checks of BALLOT. -/
def ballotChecks (d a : VCode) (c : Ctx) : Checks :=
  Checks.all [Checks.unmelded, dstS 2 d, c.source .raw a]

/-- BALLOT (R179): one bit per lane in `act` gathered into a scalar pair. MD.TYPE is ignored, so a
constant supplies its raw pattern (R170, R462). -/
def execBallot (d a : VCode) (s : State) : Host.Outcome State Fault Refusal :=
  issueChecked s (ballotChecks d a)
    (fun c => c.onWave s (c.w.swrite d.sNum 2
      (maskWhere 64 (fun l => c.act.getLsbD l && c.operand .raw a l != 0)).toNat))

/-- A predicate operand of PAND, POR and PXOR (R180). -/
def Ctx.predicate (c : Ctx) : VCode → LaneMask
  | .p n => c.w.p.get n
  | .one => BitVec.allOnes 64
  | _ => 0

/-- The decode checks of vecPred. -/
def vecPredChecks (d a b : VCode) : Checks :=
  Checks.all [dstP d, Checks.when (a.isPConst && b.isPConst)]

/-- PAND, POR and PXOR (R180). -/
def vecPred (f : LaneMask → LaneMask → LaneMask) (d a b : VCode) (s : State) :
    Host.Outcome State Fault Refusal :=
  issueChecked s (fun _ => vecPredChecks d a b)
    (fun c => c.onWave s (c.w.pwrite d.pNum c.act (f (c.predicate a) (c.predicate b))))

/-- PAND (R180). -/
def execPand (d a b : VCode) (s : State) := vecPred (· &&& ·) d a b s
/-- POR (R180). -/
def execPor (d a b : VCode) (s : State) := vecPred (· ||| ·) d a b s
/-- PXOR (R180). -/
def execPxor (d a b : VCode) (s : State) := vecPred (· ^^^ ·) d a b s

/-- The types of SPSEL and SPCMP (R170). -/
def sparseTypes : List Ty := [.f16, .bf16, .t8, .t6, .s8, .n8, .s4, .n4]

/-- The words of a source of SPSEL and SPCMP: an even pair for F16 and BF16 (R181). -/
def sparseWords (t : Ty) : Nat := if t = .f16 ∨ t = .bf16 then 2 else 1

/-- The source field of SPSEL and SPCMP. For F16 and BF16 the pair is two 32-bit units of the type, so a
constant fills both (assumption 22). -/
def Ctx.sparseSource (c : Ctx) (a : VCode) : Checks :=
  let n := sparseWords c.ty
  { ok := (match a with
      | .v r => evenFor n r
      | .s r => evenFor n r
      | .lit k => evenFor n k && c.litOk k n
      | code => c.srcOk (.typed c.ty) code),
    regs := vRegs n a, reads := vRegs n a, sregs := sRegs n a, meld := true }

/-- The source unit of SPSEL and SPCMP. -/
def Ctx.sparseUnit (c : Ctx) (a : VCode) (l : Nat) : Nat :=
  let n := sparseWords c.ty
  match a with
  | .v r => c.vread r n l
  | .s r => c.w.sread r n
  | .lit k => c.lit k n l
  | code =>
    let x := c.operand (.typed c.ty) code l
    if n = 2 ∧ [VCode.zero, .one, .mone, .half].contains code then x + 2 ^ 32 * x else x

/-- The decode checks of SPSEL. -/
def spselChecks (d a : VCode) (part : BitVec 2) (c : Ctx) : Checks :=
  Checks.all [Checks.when (sparseTypes.contains c.ty && decide (part.toNat < 3)),
    dstV (if part = 0 then sparseWords c.ty else 1) d, c.sparseSource a]

/-- SPSEL (R181). -/
def execSpsel (d a : VCode) (part : BitVec 2) (s : State) : Host.Outcome State Fault Refusal :=
  issueChecked s (spselChecks d a part)
    (fun c => c.onWave s (c.vwrite c.w d.vNum (if part = 0 then sparseWords c.ty else 1) c.act
      (fun l =>
        let u := c.sparseUnit a l
        if part = 0 then sparseKept c.ty u
        else if part = 1 then sparseMeta c.ty u
        else sparsePacked c.ty u)))

/-- The bits of metadata that a source unit has (R181). -/
def metaBits (t : Ty) : Nat := if t.slot = 4 then 8 else 4

/-- The decode checks of SPCMP. -/
def spcmpChecks (d a b : VCode) (c : Ctx) : Checks :=
  Checks.all [Checks.when (sparseTypes.contains c.ty), dstP d, c.sparseSource a,
    c.source .raw b]

/-- SPCMP (R182): whether the metadata that SPSEL would compute equals that of b. A constant code in b supplies its
raw 32-bit pattern: R462's list does not name SPCMP (assumption 37, the model's choice). -/
def execSpcmp (d a b : VCode) (s : State) : Host.Outcome State Fault Refusal :=
  issueChecked s (spcmpChecks d a b)
    (fun c => c.onWave s (c.w.pwrite d.pNum c.act
      (maskWhere 64 (fun l => sparseMeta c.ty (c.sparseUnit a l) ==
        c.operand .raw b l % 2 ^ metaBits c.ty))))

end Sys2Proof.Machine
end

