-- ==== Sys2Proof/Machine/Scalar.lean ====
section
/-! DEFINITION. The meanings of the scalar instructions 0x60 to 0x7E and the system registers (R163 to
R169, R183 to R189). -/

namespace Sys2Proof.Machine

/-! ## Shared operations -/

/-- A scalar-class instruction: unguarded, once per gang, outside melded regions (R165). -/
def Checks.scalarClass : Checks := { ok := true, every := true, meld := false }

/-- The decode checks of scalarOp. -/
def scalarOpChecks (d a b : SCode) (c : Ctx) : Checks :=
  Checks.all [Checks.scalarClass, scalarDst false d, c.scalarSource false a,
    c.scalarSource false b]

/-- A 32-bit result of two scalar operands (R183). -/
def scalarOp (f : Nat → Nat → Nat) (d a b : SCode) (s : State) : Host.Outcome State Fault Refusal :=
  issueChecked s (scalarOpChecks d a b)
    (fun c => c.onWave s (c.w.swrite d.sNum 1 (f (c.scalar false a) (c.scalar false b) % 2 ^ 32)))

/-- The decode checks of scalarUnary. -/
def scalarUnaryChecks (d a : SCode) (c : Ctx) : Checks :=
  Checks.all [Checks.scalarClass, scalarDst false d, c.scalarSource false a]

/-- A 32-bit result of one scalar operand (R183). -/
def scalarUnary (f : Nat → Nat) (d a : SCode) (s : State) : Host.Outcome State Fault Refusal :=
  issueChecked s (scalarUnaryChecks d a)
    (fun c => c.onWave s (c.w.swrite d.sNum 1 (f (c.scalar false a) % 2 ^ 32)))

/-- The decode checks of scalarOp64. -/
def scalarOp64Checks (wideB : Bool) (d a b : SCode) (c : Ctx) : Checks :=
  Checks.all [Checks.scalarClass, scalarDst true d,
    (Checks.when (a.isS || (match a with
      | .lit _ => true
      | .zero | .one | .mone | .half => true
      | _ => false))),
    c.scalarSource true a, c.scalarSource wideB b,
    Checks.when (!wideB || b.isS || (match b with
      | .lit _ => true
      | .zero | .one | .mone | .half => true
      | _ => false))]

/-- A 64-bit result; `wideB` tells whether b is a pair (R184). -/
def scalarOp64 (wideB : Bool) (f : Nat → Nat → Nat) (d a b : SCode) (s : State) :
    Host.Outcome State Fault Refusal :=
  issueChecked s (scalarOp64Checks wideB d a b)
    (fun c => c.onWave s (c.w.swrite d.sNum 2 (f (c.scalar true a) (c.scalar wideB b) % 2 ^ 64)))

/-- A difference modulo 2^w. -/
def subMod (w a b : Nat) : Nat := (a + (2 ^ w - b % 2 ^ w)) % 2 ^ w

/-! ## The meanings -/

/-- SADD (R183). -/
def execSadd (d a b : SCode) (s : State) := scalarOp (fun x y => x + y) d a b s
/-- SSUB (R183). -/
def execSsub (d a b : SCode) (s : State) := scalarOp (subMod 32) d a b s
/-- SMUL (R183). -/
def execSmul (d a b : SCode) (s : State) := scalarOp (fun x y => x * y) d a b s
/-- SMULH (R183): the upper half of the signed product. -/
def execSmulh (d a b : SCode) (s : State) :=
  scalarOp (fun x y => intBits 32 (signedOf 32 x * signedOf 32 y / (2 ^ 32 : Nat))) d a b s
/-- SAND (R183). -/
def execSand (d a b : SCode) (s : State) := scalarOp (· &&& ·) d a b s
/-- SOR (R183). -/
def execSor (d a b : SCode) (s : State) := scalarOp (· ||| ·) d a b s
/-- SXOR (R183). -/
def execSxor (d a b : SCode) (s : State) := scalarOp (· ^^^ ·) d a b s
/-- SSHL (R183). -/
def execSshl (d a b : SCode) (s : State) := scalarOp (elemBit .shl 32) d a b s
/-- SSHR (R183). -/
def execSshr (d a b : SCode) (s : State) := scalarOp (elemBit .shr 32) d a b s
/-- SSHA (R183). -/
def execSsha (d a b : SCode) (s : State) := scalarOp (elemBit .sha 32) d a b s
/-- SMIN (R183). -/
def execSmin (d a b : SCode) (s : State) :=
  scalarOp (fun x y => if signedOf 32 x ≤ signedOf 32 y then x else y) d a b s
/-- SMAX (R183). -/
def execSmax (d a b : SCode) (s : State) :=
  scalarOp (fun x y => if signedOf 32 x ≤ signedOf 32 y then y else x) d a b s
/-- SCMPLT (R183). -/
def execScmplt (d a b : SCode) (s : State) :=
  scalarOp (fun x y => if signedOf 32 x < signedOf 32 y then 1 else 0) d a b s
/-- SCMPEQ (R183). -/
def execScmpeq (d a b : SCode) (s : State) := scalarOp (fun x y => if x = y then 1 else 0) d a b s

/-- The decode checks of SSEL. -/
def sselChecks (d a b : SCode) (c : Ctx) : Checks :=
  Checks.all [Checks.scalarClass, scalarDst false d, c.scalarSource false d,
    c.scalarSource false a, c.scalarSource false b]

/-- SSEL (R185): d is read as the condition. -/
def execSsel (d a b : SCode) (s : State) : Host.Outcome State Fault Refusal :=
  issueChecked s (sselChecks d a b)
    (fun c => c.onWave s (c.w.swrite d.sNum 1
      (if c.scalar false d ≠ 0 then c.scalar false a else c.scalar false b)))

/-- SMOV (R185). -/
def execSmov (d a : SCode) (s : State) := scalarUnary (fun x => x) d a s
/-- SADD64 (R184). -/
def execSadd64 (d a b : SCode) (s : State) := scalarOp64 true (fun x y => x + y) d a b s
/-- SSUB64 (R184). -/
def execSsub64 (d a b : SCode) (s : State) := scalarOp64 true (subMod 64) d a b s
/-- SMUL64 (R184). -/
def execSmul64 (d a b : SCode) (s : State) := scalarOp64 true (fun x y => x * y) d a b s
/-- SSHL64 (R184). -/
def execSshl64 (d a b : SCode) (s : State) := scalarOp64 false (elemBit .shl 64) d a b s
/-- SSHR64 (R184). -/
def execSshr64 (d a b : SCode) (s : State) := scalarOp64 false (elemBit .shr 64) d a b s
/-- SCLZ (R183). -/
def execSclz (d a : SCode) (s : State) := scalarUnary (leadingZeros 32) d a s
/-- SPOPC (R183). -/
def execSpopc (d a : SCode) (s : State) := scalarUnary (fun x => popCount x 32) d a s
/-- SCMPLTN (R183). -/
def execScmpltn (d a b : SCode) (s : State) := scalarOp (fun x y => if x < y then 1 else 0) d a b s
/-- PACK (R187). -/
def execPack (d a b : SCode) (s : State) :=
  scalarOp (fun x y => y % 2 ^ 16 * 2 ^ 16 + x % 2 ^ 16) d a b s
/-- UNPACK (R187). -/
def execUnpack (d a : SCode) (mode : BitVec 2) (s : State) :=
  scalarUnary (fun x =>
    let h := natBits x (if mode.getLsbD 0 then 16 else 0) 16
    if mode.getLsbD 1 then intBits 32 (signedOf 16 h) else h) d a s
/-- SBFE (R186). -/
def execSbfe (d a b : SCode) (s : State) := scalarOp bitFieldExtract d a b s

/-- The decode checks of V2S. -/
def v2sChecks (d : SCode) (a : VCode) (b : SCode) (c : Ctx) : Checks :=
  Checks.all [Checks.scalarClass, scalarDst false d,
    { ok := a.isV, regs := vRegs 1 a }, c.scalarSource false b]

/-- V2S (R188): one lane's register; a lane that is absent or has exited gives 0, and a live lane of the issuing gang that
does not execute gives its register, as one of another gang does (DESIGN CHOICE, assumption 118: R188's table has no row
for it). A poisoned register raises HW_ERR in that lane (R139). In a deterministic launch a register that an operation of
the lane has yet to write is waited for (R34). -/
def execV2s (d : SCode) (a : VCode) (b : SCode) (s : State) : Host.Outcome State Fault Refusal :=
  issueChecked s (v2sChecks d a b)
    (fun c =>
      let l := c.scalar false b % c.w.width
      let live := !((c.w.lanes (BitVec.allOnes 16) (fun x => x.ex)).getLsbD l)
      match (if live then c.waitOn s (fun keys => keys.contains (vKey a.vNum l)) else none) with
      | some r => r
      | none =>
      if live && c.w.vpoison.contains (vKey a.vNum l) then c.onWave s (c.w.record [laneCause c.src .hwErr l])
      else c.onWave s (c.w.swrite d.sNum 1 (if live then c.vread a.vNum 1 l else 0)))

/-- The decode checks of PSET. -/
def psetChecks (d : VCode) (a : SCode) (c : Ctx) : Checks :=
  Checks.all [Checks.scalarClass, dstP d,
    Checks.when (match a with
      | .s _ | .lit _ | .zero | .mone => true
      | _ => false), c.scalarSource true a]

/-- PSET (R189): a predicate from a 64-bit mask, in the executing lanes. -/
def execPset (d : VCode) (a : SCode) (s : State) : Host.Outcome State Fault Refusal :=
  issueChecked s (psetChecks d a)
    (fun c => c.onWave s (c.w.pwrite d.pNum c.exec (BitVec.ofNat 64 (c.scalar true a))))

/-! ## System registers (R166 to R169) -/

/-- The system registers. -/
inductive SysReg where
  | md | fx | waveid | dtime | execm | wstat | flagnz | ab | al | ot0 | ot1
  | cdharv (n : Nat) | coretab (n : Nat) | tvec | partid
  deriving DecidableEq, Repr

/-- The register of an index (R166); an unlisted index is reserved. -/
def SysReg.ofIndex (i : Nat) : Option SysReg :=
  if 0x200 ≤ i ∧ i ≤ 0x28F then some (.coretab (i - 0x200))
  else
    match i with
    | 0x0 => some .md
    | 0x1 => some .fx
    | 0x2 => some .waveid
    | 0x4 => some .dtime
    | 0x6 => some .execm
    | 0x8 => some .wstat
    | 0x9 => some .flagnz
    | 0xA => some .ab
    | 0xB => some .al
    | 0xC => some .ot0
    | 0xD => some .ot1
    | 0x100 => some (.cdharv 0)
    | 0x102 => some (.cdharv 1)
    | 0x104 => some (.cdharv 2)
    | 0x106 => some (.cdharv 3)
    | 0x300 => some .tvec
    | 0x302 => some .partid
    | _ => none

/-- A 64-bit register (R166). -/
def SysReg.wide : SysReg → Bool
  | .waveid | .dtime | .execm | .cdharv _ | .tvec => true
  | _ => false

/-- A privileged register (R166). -/
def SysReg.isPrivileged : SysReg → Bool
  | .cdharv _ | .coretab _ | .tvec | .partid => true
  | _ => false

/-- The harvest map of a die position (R107). -/
def harvestMap (d : Die) : Nat :=
  d.map.toNat + (if d.ok then 2 ^ 36 else 0) + popCount d.map.toNat 36 * 2 ^ 40

/-- One entry of the core table (R108, R109): cores are numbered 36 × die position + physical core. -/
def coreTabEntry (cores : List Nat) (i : Nat) : Nat :=
  match cores[i]? with
  | some k => 2 ^ 31 + k / 36 * 2 ^ 8 + k % 36
  | none => 0

/-- WSTAT (R167). -/
def Wave.wstat (w : Wave) : Nat :=
  (if w.mr then 2 ^ 23 else 0) + (if w.isDet then 2 ^ 22 else 0) + (if w.idem then 2 ^ 21 else 0) +
  (if w.priv then 2 ^ 20 else 0) + (if w.width = 64 then 2 else if w.width = 32 then 1 else 0) * 2 ^ 18 +
  w.vgran * 2 ^ 13

/-- The value of a system register (R166). -/
def Ctx.sysValue (c : Ctx) (s : State) : SysReg → Nat
  | .md => c.w.md.toNat
  | .fx => c.w.fx.toNat
  | .waveid => c.w.waveid.toNat
  | .dtime => c.now % 2 ^ 64
  | .execm => c.exec.toNat
  | .wstat => c.w.wstat
  | .flagnz => (maskWhere 12 (fun n => c.w.flag n != 0)).toNat
  | .ab => c.w.ab.toNat
  | .al => c.w.al.toNat
  | .ot0 => c.w.ot0.toNat
  | .ot1 => c.w.ot1.toNat
  | .cdharv n => harvestMap (s.dies.getD n Die.reset)
  | .coretab n => match s.parts.get? c.w.part with
    | some p => coreTabEntry p.cores n
    | none => 0
  | .tvec => match s.parts.get? c.w.part with
    | some p => p.tvec.toNat
    | none => 0
  | .partid => c.w.part % 16

/-- The checks that R166 makes of an index; the privilege of a named register comes after ILLEGAL_MELD (R347). -/
def Ctx.sysChecks (c : Ctx) (r : Option SysReg) : Checks :=
  { ok := r.isSome, every := true, meld := false,
    value := match r with
      | some r => if r.isPrivileged && !c.w.priv then some .privilege else none
      | none => none }

/-- A system register's width, for an index that names one. -/
def sysWide (r : Option SysReg) : Bool :=
  match r with
  | some r => r.wide
  | none => false

/-- The decode checks of SYSRD. -/
def sysrdChecks (d : SCode) (index : BitVec 16) (c : Ctx) : Checks :=
  Checks.all [c.sysChecks (SysReg.ofIndex index.toNat), scalarDst (sysWide (SysReg.ofIndex index.toNat)) d]

/-- SYSRD (R168). -/
def execSysrd (d : SCode) (index : BitVec 16) (s : State) : Host.Outcome State Fault Refusal :=
  issueChecked s (sysrdChecks d index)
    (fun c =>
      match SysReg.ofIndex index.toNat with
      | none => .trap (causesIn c.src .illegalOperand c.exec) false
      | some r =>
        if r = .fx ∧ c.fxQuiet = false then .stall
        else c.onWave s (c.w.swrite d.sNum (if r.wide then 2 else 1) (c.sysValue s r)))

/-- The decode checks of SYSWR. -/
def syswrChecks (index : BitVec 16) (b : SCode) (c : Ctx) : Checks :=
  let r := SysReg.ofIndex index.toNat
  Checks.all [c.sysChecks r, c.scalarSource (sysWide r) b,
    Checks.when (!sysWide r || (match b with
      | .s _ | .lit _ => true
      | _ => false))]

/-- Causes recorded before TVEC is written keep the handler that stood then (R169). -/
def LaneCause.raisedUnder (x : LaneCause) (tvec : DWord) : LaneCause := { x with tvec := some (x.tvec.getD tvec) }

/-- The causes that a wave of a partition has recorded keep the handler that stood before TVEC was written. -/
def Wave.raisedUnder (part : Nat) (old : DWord) (w : Wave) : Wave :=
  if w.part ≠ part then w
  else { w with
    causes := w.causes.map (fun c => c.raisedUnder old)
    due := w.due.map (fun t => { t with causes := t.causes.map (fun c => c.raisedUnder old) }) }

/-- TVEC written: it holds for traps raised after the write, in resident waves and in saved ones (R169). -/
def State.writeTvec (s : State) (part : Nat) (x : DWord) : State :=
  let old := match s.parts.get? part with
    | some p => p.tvec
    | none => 0
  let s := s.modPart part (fun p => { p with tvec := x })
  { s with
    waves := s.waves.mapVals (fun _ w => w.raisedUnder part old)
    cuts := s.cuts.map (fun u => { u with waves := u.waves.mapVals (fun _ w => w.raisedUnder part old) }) }

/-- SYSWR (R169): FX is cleared by ones, TVEC is written, every other register ignores the write. -/
def execSyswr (index : BitVec 16) (b : SCode) (s : State) : Host.Outcome State Fault Refusal :=
  issueChecked s (syswrChecks index b)
    (fun c =>
      match SysReg.ofIndex index.toNat with
      | some .fx =>
        if c.fxQuiet = false then .stall
        else c.onWave s { c.w with fx := c.w.fx &&& ~~~(BitVec.ofNat 7 (c.scalar false b)) }
      | some .tvec =>
        .next (s.writeTvec c.w.part (BitVec.ofNat 64 (c.scalar true b)))
      | _ => .next s)

end Sys2Proof.Machine
end

