-- ==== Sys2Proof/Machine/Schedule.lean ====
section
/-! DEFINITION. The quadrant schedulers (R89 to R91, R121) and the end of a tick: what every quadrant's cycle is
charged to (R21, R63, R381, R382), how the gangs age, and Datum time one tick on (R236). -/

namespace Sys2Proof.Machine

/-! ## Ready gangs (R90) -/

/-- A gang stands inside a begun clause, or its word is issued again, and nothing but its word's issue resources can hold
it back. -/
def Wave.insideClause (w : Wave) (g : SliceMask) : Bool :=
  match w.slices[firstSlice g]? with
  | none => false
  | some x =>
    g != 0 && !w.ended && w.clear g && x.quiet == 0 &&
    (match w.replays with
      | r :: _ => r.slices == g && !w.det.any (fun d => d.ended)
      | [] => w.orderAllows g && x.word != 0 && !x.cl.isEmpty)

/-- A gang inside a clause whose next word is not stalled. -/
def Wave.readyGang (w : Wave) (g : SliceMask) : Bool :=
  w.insideClause g && (match w.slices[firstSlice g]? with
    | some x => x.stalled.isNone
    | none => false)

/-- The gangs of a wave that may be picked: those that stand together, and the gang of a replay. -/
def Wave.pickable (w : Wave) : List SliceMask :=
  match w.replays with
  | r :: _ => [r.slices]
  | [] => w.gangs

/-- A gang's ageing count: the largest of its slices (R90). -/
def Wave.ageOf (w : Wave) (g : SliceMask) : Nat :=
  (bitsOf g).foldl (fun a i => match w.slices[i]? with
    | some x => max a x.age
    | none => a) 0

/-- The ready gangs of a quadrant in the order of ties: wave slot, then first slice. -/
def State.readyGangs (s : State) (core quad : Nat) : List (Nat × SliceMask × Nat) :=
  let ws := s.waves.filter (fun e => e.2.core == core && e.2.quad == quad && !s.heldInPlace e.2)
  let ordered := sortOn (fun e => e.2.slot) ws
  ordered.flatMap (fun e => (e.2.pickable.filter e.2.readyGang).map (fun g => (e.1, g, e.2.ageOf g)))

/-- The gang with the largest ageing count, the first of those that share it. -/
def oldest : List (Nat × SliceMask × Nat) → Option (Nat × SliceMask × Nat)
  | [] => none
  | x :: rest => match oldest rest with
    | none => some x
    | some y => if x.2.2 < y.2.2 then some y else some x

/-- A gang is past the first word of its clause. -/
def State.insideSame (s : State) (k : Nat) (g : SliceMask) : Bool :=
  match s.waves.get? k with
  | some w => (match w.slices[firstSlice g]? with
    | some x => decide (1 < x.word)
    | none => false)
  | none => false

/-- The scheduler's choice among ready gangs (R90): one whose count is 64; else the gang of the previous pick cycle,
inside the same clause; else the one with the largest count. -/
def State.chooseFrom (s : State) (core quad : Nat) (l : List (Nat × SliceMask × Nat)) : Option (Nat × SliceMask × Nat) :=
  match oldest l with
  | none => none
  | some best =>
    if best.2.2 = 64 then some best
    else
      match (s.core core).last.getD quad none with
      | none => some best
      | some (k, g) =>
        match l.find? (fun e => e.1 == k && e.2.1 == g && s.insideSame k g) with
        | some e => some e
        | none => some best

/-- The scheduler's choice in a pick cycle. -/
def State.choose (s : State) (core quad : Nat) : Option (Nat × SliceMask × Nat) :=
  s.chooseFrom core quad (s.readyGangs core quad)

/-- A gang's next word is scalar-class (R89). -/
def State.scalarNext (s : State) (k : Nat) (g : SliceMask) : Bool :=
  match s.waves.get? k with
  | some w => let op := opcodeOf (w.wordRef g).1.word; decide (0x60 ≤ op) && decide (op ≤ 0x7F)
  | none => false

/-! ## Slots and pick cycles (R21, R89, R91) -/

/-- The power controller withholds this tick's slots (R21): the first of each 16 ticks, as many as there are steps
(DESIGN CHOICE, assumption 44: the spec gives the share and not the ticks). -/
def State.withheld (s : State) : Bool := decide (s.time % 16 < s.control.steps)

/-- A quadrant's pick of this tick has issued. -/
def CoreState.issued (c : CoreState) (quad now : Nat) : Bool :=
  (c.last.getD quad none).isSome && c.lastTick.getD quad 0 == now

/-- This tick is a pick cycle of a quadrant (R91). -/
def State.pickCycle (s : State) (c : CoreState) (quad : Nat) : Bool := !s.withheld && !c.secondCycle quad s.time

/-- A quadrant with a higher number has issued in this tick: the quadrants of a core issue in increasing number, so that
the matrix engine meets their instructions in that order (R194). -/
def CoreState.passed (c : CoreState) (quad now : Nat) : Bool :=
  (List.range 4).any (fun q => decide (quad < q) && c.issued q now)

/-- The gang that a quadrant's free slot of this tick goes to: in a pick cycle the scheduler's choice; in the second
cycle of a two-cycle gang one whose next word is scalar-class, beside it (R89). -/
def State.choiceNow (s : State) (core quad : Nat) : Option (Nat × SliceMask × Nat) :=
  let c := s.core core
  if c.issued quad s.time || c.passed quad s.time then none
  else if c.secondCycle quad s.time then
    if c.extraTick.getD quad 0 = s.time then none
    else s.chooseFrom core quad ((s.readyGangs core quad).filter (fun e => s.scalarNext e.1 e.2.1))
  else if s.withheld then none
  else s.choose core quad

/-- The clauses of a quadrant that may begin do (R31, R90). -/
def State.beginQuadrant (s : State) (core quad : Nat) : State :=
  (s.waves.filter (fun e => e.2.core == core && e.2.quad == quad)).foldl (fun s e =>
    (List.range e.2.slices.length).foldl (fun s i => s.beginClause e.1 i) s) s

/-- A gang picked: its word issues in the next step. The other gangs that were ready in the pick cycle are noted. -/
def State.picked (s : State) (core quad : Nat) (p : Nat × SliceMask × Nat) : State :=
  let others := ((s.readyGangs core quad).filter (fun e => !(e.1 == p.1 && e.2.1 == p.2.1))).map (fun e => (e.1, e.2.1))
  let s := if (s.core core).secondCycle quad s.time then s.modCore core id
    else s.modCore core (fun c => { c with ready := listUpdate c.ready quad (fun _ => others) })
  { s with cur := some ⟨p.1, p.2.1⟩ }

/-- ISSUE_PICK (R90): a quadrant's slot of this tick. The clauses that may begin do, and the picked gang issues its next
word in the next step; one that turns out to stall leaves the slot to the next pick. -/
def execIssuePick (core quad : Nat) (s : State) : Host.Outcome State Fault Refusal :=
  .next (
    let s := s.beginQuadrant core quad
    match s.choiceNow core quad with
    | some p => s.picked core quad p
    | none => s)

/-! ## The stall classes (R63, R381, R382) -/

/-- A gang is ready but for its fetch: it has not yielded (R121), and the words that it has of a clause that it is to
begin are checked against its flags; one that resumes inside a clause does not check WAIT again (R353). -/
def State.readyButFetch (s : State) (k : Nat) (w : Wave) (g : SliceMask) (x : Slice) : Bool :=
  s.wouldBegin k w g x && x.quiet == 0 && (x.word != 0 || match s.fetchWord w x.pc.toNat with
    | some h => (hdrWait h).all (fun n => w.flag n == 0 && decide (w.begins.getD n 0 ≤ s.time))
    | none => true)

/-- The fetch class of one gang that is ready apart from its fetch: the level that answers, or the redirect (R61, R63). A
line whose translation faults or is still to come counts as memory's (DESIGN CHOICE, assumption 39: no level answers it),
and a clause that misses several lines counts as its first missing line does (DESIGN CHOICE, assumption 135: R61's table
names the clause's last line). -/
def State.fetchStall (s : State) (k : Nat) (w : Wave) (g : SliceMask) : Option Nat :=
  match w.slices[firstSlice g]? with
  | none => none
  | some x =>
    if !s.readyButFetch k w g x then none
    else
      match s.clauseAt w x.pc.toNat with
      | .ok cl => if x.redirect && decide (w.stoodOf g < 2) && (x.word != 0 || w.flagsReady cl s.time) then some 0x13 else none
      | .error va =>
        match s.fetchPlace w va with
        | .error _ => some 0x12
        | .ok line =>
          let level := s.ilevel w.core w.quad w.part line
          some (if level ≤ 1 then 0x10 else if level = 2 then 0x11 else 0x12)

/-- What a word that has not issued waits for: a flag, a request slot, the matrix engine, or an easement entry,
channel or task. -/
def wordStall (op : Nat) : Option Nat :=
  if op = 0x0F then some 0x20
  else if 0x80 ≤ op ∧ op ≤ 0x9D then some 0x21
  else if 0xC0 ≤ op ∧ op ≤ 0xCD then some 0x23
  else if (0xB0 ≤ op ∧ op ≤ 0xBB) ∨ op = 0x18 ∨ op = 0x19 then some 0x24
  else none

/-- The stall class of one gang (R382); one that waits for an untracked access at an empty line is in a full/empty wait. -/
def State.gangStall (s : State) (k : Nat) (w : Wave) (g : SliceMask) : Nat :=
  match w.slices[firstSlice g]? with
  | none => 0x27
  | some x =>
    let flags := match s.clauseAt w x.pc.toNat with
      | .ok cl => x.word == 0 && !w.flagsReady cl s.time
      | .error _ => false
    let waits := if x.stalled.isSome ∧ x.word ≠ 0 then wordStall (opcodeOf (w.wordRef g).1.word) else none
    let held := w.frozen || s.heldInPlace w || (s.untracked k w g && s.waitsAtLine k w g [])
    let l := [(flags, 0x20), (w.translating g, 0x22), (held, 0x25), (s.untracked k w g, 0x26)]
    (waits.toList ++ (l.filter (·.1)).map (·.2)).foldl min 0x27

/-- The class of a quadrant's idle cycle (R63, R382). The oldest gang is the one of the wave placed first, and in it the
one with the lowest slice (DESIGN CHOICE, assumption 38). A quadrant whose waves are all parked is charged 0x25. -/
def State.stallClass (s : State) (core quad : Nat) : Nat :=
  let ws := s.waves.filter (fun e => e.2.core == core && e.2.quad == quad && !e.2.ended)
  match ws.findSome? (fun e => e.2.gangs.findSome? (s.fetchStall e.1 e.2)) with
  | some c => c
  | none =>
    match ws.find? (fun e => !e.2.gangs.isEmpty) with
    | some (k, w) => (w.gangs.map (s.gangStall k w)).foldl min 0x27
    | none => if ws.isEmpty then 0x27 else 0x25

/-- Whether a slice of a quadrant is parked at a REGANG (R119). -/
def State.regangParked (s : State) (core quad : Nat) : Bool :=
  s.waves.any (fun e => e.2.core == core && e.2.quad == quad && !e.2.ended && e.2.slices.any (fun x => x.park == .regang))

/-- The events that one quadrant's cycle counts (R63, R381): a cycle; the class of one in which the quadrant's slot is not
used; a pick cycle with a slice parked at REGANG. -/
def State.cycleEvents (s : State) (core : Nat) (c : CoreState) (quad : Nat) : List Nat :=
  0x01 ::
  ((if c.issued quad s.time || c.secondCycle quad s.time then []
    else if s.withheld then [0x02] else [s.stallClass core quad]) ++
   (if s.pickCycle c quad && s.regangParked core quad then [0x19] else []))

/-- A core at the end of a tick: its counters (R381), and no previous pick after a pick cycle in which nothing issued
(R90). -/
def State.cycled (s : State) (core : Nat) (c : CoreState) : CoreState :=
  let k : CoreState := if c.counters.all (fun n => n.event == 0) then c
    else (List.range 4).foldl (fun k q => (s.cycleEvents core c q).foldl (fun k ev => k.bump (some q) ev 1) k) c
  { k with
    last := k.last.mapIdx (fun q l => if s.pickCycle c q && !c.issued q s.time then none else l)
    ready := k.ready.map (fun _ => []) }

/-! ## The end of a tick -/

/-- A slice stands at a clause start, or waits for the words of its clause (R61). -/
def Slice.stands (x : Slice) : Bool := x.word == 0 || x.cl.isEmpty

/-- One tick of a wave in its quadrant: its slices stand one tick longer; in a pick cycle the gangs that were ready and
not picked age, quiet gangs come one cycle nearer, and the issue of another gang ends a YIELD (R90, R121). -/
def Wave.cycled (w : Wave) (k : Nat) (c : CoreState) (pick : Bool) (now : Nat) : Wave :=
  let issued := c.issued w.quad now
  let mine : SliceMask := match c.last.getD w.quad none with
    | some (j, g) => if j = k then g else 0
    | none => 0
  let ready := c.ready.getD w.quad []
  { w with slices := w.slices.mapIdx (fun i x =>
      let waited := issued && ready.any (fun e => e.1 == k && e.2.getLsbD i)
      { x with
        stood := if x.stands then x.stood + 1 else x.stood
        age := if pick && waited then min 64 (x.age + 1) else x.age
        quiet := if pick then (if issued then (if mine.getLsbD i then x.quiet else 0) else x.quiet - 1)
          else if c.extraTick.getD w.quad 0 = now then 0 else x.quiet }) }

/-- One tick passes: every quadrant's cycle is charged, the gangs age, and Datum time goes on by one; then what waits
only for time leaves its core, and waves whose ends waited for their times end (R236, R256). What the cores have free as
the tick begins is noted (R94). -/
def State.tick (s : State) : State :=
  let t : State := { s with
    time := s.time + 1, landed := []
    waves := s.waves.mapVals (fun k w =>
      let c := s.core w.core
      w.cycled k c (s.pickCycle c w.quad) s.time)
    cores := s.cores.mapVals (fun i c => s.cycled i c) }
  ((t.waves.map (·.1)).foldl (fun s k => (s.depart k).settle k) t.noteRooms)

end Sys2Proof.Machine
end

