-- ==== Sys2Proof/Machine/Dispatch.lean ====
section
/-! DEFINITION. One arm per instruction: a direct call of its meaning. -/

namespace Sys2Proof.Machine

/-- The meaning of every instruction and event. -/
def exec (i : Instr) (s : State) : Host.Outcome State Fault Refusal :=
  match i with
  | .nop => Sys2Proof.Machine.execNop s
  | .mode a b => Sys2Proof.Machine.execMode a b s
  | .br a => Sys2Proof.Machine.execBr a s
  | .brx a => Sys2Proof.Machine.execBrx a s
  | .brs cond a b => Sys2Proof.Machine.execBrs cond a b s
  | .brv cond a b => Sys2Proof.Machine.execBrv cond a b s
  | .join => Sys2Proof.Machine.execJoin s
  | .regang a => Sys2Proof.Machine.execRegang a s
  | .meld a b => Sys2Proof.Machine.execMeld a b s
  | .melde => Sys2Proof.Machine.execMelde s
  | .call d a => Sys2Proof.Machine.execCall d a s
  | .calli d a => Sys2Proof.Machine.execCalli d a s
  | .ret a => Sys2Proof.Machine.execRet a s
  | .exit a => Sys2Proof.Machine.execExit a s
  | .yield => Sys2Proof.Machine.execYield s
  | .waitf flags => Sys2Proof.Machine.execWaitf flags s
  | .mon a => Sys2Proof.Machine.execMon a s
  | .mwait a => Sys2Proof.Machine.execMwait a s
  | .trap a => Sys2Proof.Machine.execTrap a s
  | .tret => Sys2Proof.Machine.execTret s
  | .phint k => Sys2Proof.Machine.execPhint k s
  | .idemb => Sys2Proof.Machine.execIdemb s
  | .ideme => Sys2Proof.Machine.execIdeme s
  | .ipf level a count => Sys2Proof.Machine.execIpf level a count s
  | .spawn a b => Sys2Proof.Machine.execSpawn a b s
  | .launch d a => Sys2Proof.Machine.execLaunch d a s
  | .gfire a b => Sys2Proof.Machine.execGfire a b s
  | .barb id => Sys2Proof.Machine.execBarb id s
  | .barc id => Sys2Proof.Machine.execBarc id s
  | .quant => Sys2Proof.Machine.execQuant s
  | .digest a count => Sys2Proof.Machine.execDigest a count s
  | .reservedOpcode word => Sys2Proof.Machine.execReservedOpcode word s
  | .add d a b => Sys2Proof.Machine.execAdd d a b s
  | .sub d a b => Sys2Proof.Machine.execSub d a b s
  | .mul d a b => Sys2Proof.Machine.execMul d a b s
  | .fma d a b => Sys2Proof.Machine.execFma d a b s
  | .fms d a b => Sys2Proof.Machine.execFms d a b s
  | .fnma d a b => Sys2Proof.Machine.execFnma d a b s
  | .min d a b => Sys2Proof.Machine.execMin d a b s
  | .max d a b => Sys2Proof.Machine.execMax d a b s
  | .abs d a => Sys2Proof.Machine.execAbs d a s
  | .neg d a => Sys2Proof.Machine.execNeg d a s
  | .rcp d a => Sys2Proof.Machine.execRcp d a s
  | .rsq d a => Sys2Proof.Machine.execRsq d a s
  | .sqrt d a => Sys2Proof.Machine.execSqrt d a s
  | .exp2 d a => Sys2Proof.Machine.execExp2 d a s
  | .log2 d a => Sys2Proof.Machine.execLog2 d a s
  | .tanh d a => Sys2Proof.Machine.execTanh d a s
  | .cmpeq d a b => Sys2Proof.Machine.execCmpeq d a b s
  | .cmpne d a b => Sys2Proof.Machine.execCmpne d a b s
  | .cmplt d a b => Sys2Proof.Machine.execCmplt d a b s
  | .cmple d a b => Sys2Proof.Machine.execCmple d a b s
  | .cmpun d a b => Sys2Proof.Machine.execCmpun d a b s
  | .classify d a b => Sys2Proof.Machine.execClassify d a b s
  | .sel d a b => Sys2Proof.Machine.execSel d a b s
  | .cvt d a part => Sys2Proof.Machine.execCvt d a part s
  | .scale d a b => Sys2Proof.Machine.execScale d a b s
  | .rint d a => Sys2Proof.Machine.execRint d a s
  | .frxp d a part => Sys2Proof.Machine.execFrxp d a part s
  | .div d a b => Sys2Proof.Machine.execDiv d a b s
  | .enct d a b => Sys2Proof.Machine.execEnct d a b s
  | .dect d a byte => Sys2Proof.Machine.execDect d a byte s
  | .mov d a => Sys2Proof.Machine.execMov d a s
  | .fxr d a => Sys2Proof.Machine.execFxr d a s
  | .addc d a b => Sys2Proof.Machine.execAddc d a b s
  | .subb d a b => Sys2Proof.Machine.execSubb d a b s
  | .mulhi d a b => Sys2Proof.Machine.execMulhi d a b s
  | .mulw d a b => Sys2Proof.Machine.execMulw d a b s
  | .and d a b => Sys2Proof.Machine.execAnd d a b s
  | .or d a b => Sys2Proof.Machine.execOr d a b s
  | .xor d a b => Sys2Proof.Machine.execXor d a b s
  | .not d a => Sys2Proof.Machine.execNot d a s
  | .shl d a b => Sys2Proof.Machine.execShl d a b s
  | .shr d a b => Sys2Proof.Machine.execShr d a b s
  | .sha d a b => Sys2Proof.Machine.execSha d a b s
  | .rot d a b => Sys2Proof.Machine.execRot d a b s
  | .clz d a => Sys2Proof.Machine.execClz d a s
  | .popc d a => Sys2Proof.Machine.execPopc d a s
  | .brev d a => Sys2Proof.Machine.execBrev d a s
  | .bfe d a b => Sys2Proof.Machine.execBfe d a b s
  | .bfi d a b => Sys2Proof.Machine.execBfi d a b s
  | .clmul d a b => Sys2Proof.Machine.execClmul d a b s
  | .clmulh d a b => Sys2Proof.Machine.execClmulh d a b s
  | .dot4 d a b => Sys2Proof.Machine.execDot4 d a b s
  | .dot2 d a b => Sys2Proof.Machine.execDot2 d a b s
  | .shfl d a b => Sys2Proof.Machine.execShfl d a b s
  | .shflx d a b => Sys2Proof.Machine.execShflx d a b s
  | .bcast d a b => Sys2Proof.Machine.execBcast d a b s
  | .wred d a op => Sys2Proof.Machine.execWred d a op s
  | .wscan d a op => Sys2Proof.Machine.execWscan d a op s
  | .ballot d a => Sys2Proof.Machine.execBallot d a s
  | .pand d a b => Sys2Proof.Machine.execPand d a b s
  | .por d a b => Sys2Proof.Machine.execPor d a b s
  | .pxor d a b => Sys2Proof.Machine.execPxor d a b s
  | .spsel d a part => Sys2Proof.Machine.execSpsel d a part s
  | .spcmp d a b => Sys2Proof.Machine.execSpcmp d a b s
  | .sadd d a b => Sys2Proof.Machine.execSadd d a b s
  | .ssub d a b => Sys2Proof.Machine.execSsub d a b s
  | .smul d a b => Sys2Proof.Machine.execSmul d a b s
  | .smulh d a b => Sys2Proof.Machine.execSmulh d a b s
  | .sand d a b => Sys2Proof.Machine.execSand d a b s
  | .sor d a b => Sys2Proof.Machine.execSor d a b s
  | .sxor d a b => Sys2Proof.Machine.execSxor d a b s
  | .sshl d a b => Sys2Proof.Machine.execSshl d a b s
  | .sshr d a b => Sys2Proof.Machine.execSshr d a b s
  | .ssha d a b => Sys2Proof.Machine.execSsha d a b s
  | .smin d a b => Sys2Proof.Machine.execSmin d a b s
  | .smax d a b => Sys2Proof.Machine.execSmax d a b s
  | .scmplt d a b => Sys2Proof.Machine.execScmplt d a b s
  | .scmpeq d a b => Sys2Proof.Machine.execScmpeq d a b s
  | .ssel d a b => Sys2Proof.Machine.execSsel d a b s
  | .smov d a => Sys2Proof.Machine.execSmov d a s
  | .sadd64 d a b => Sys2Proof.Machine.execSadd64 d a b s
  | .ssub64 d a b => Sys2Proof.Machine.execSsub64 d a b s
  | .smul64 d a b => Sys2Proof.Machine.execSmul64 d a b s
  | .sshl64 d a b => Sys2Proof.Machine.execSshl64 d a b s
  | .sshr64 d a b => Sys2Proof.Machine.execSshr64 d a b s
  | .sclz d a => Sys2Proof.Machine.execSclz d a s
  | .spopc d a => Sys2Proof.Machine.execSpopc d a s
  | .v2s d a b => Sys2Proof.Machine.execV2s d a b s
  | .sysrd d index => Sys2Proof.Machine.execSysrd d index s
  | .syswr index b => Sys2Proof.Machine.execSyswr index b s
  | .scmpltn d a b => Sys2Proof.Machine.execScmpltn d a b s
  | .pack d a b => Sys2Proof.Machine.execPack d a b s
  | .unpack d a mode => Sys2Proof.Machine.execUnpack d a mode s
  | .pset d a => Sys2Proof.Machine.execPset d a s
  | .sbfe d a b => Sys2Proof.Machine.execSbfe d a b s
  | .ld d a sx w => Sys2Proof.Machine.execLd d a sx w s
  | .lda d a sx w => Sys2Proof.Machine.execLda d a sx w s
  | .ldx d a sx w => Sys2Proof.Machine.execLdx d a sx w s
  | .st d a w => Sys2Proof.Machine.execSt d a w s
  | .stl d a w => Sys2Proof.Machine.execStl d a w s
  | .stx d a w => Sys2Proof.Machine.execStx d a w s
  | .sti d a w => Sys2Proof.Machine.execSti d a w s
  | .ldsp d a sx w => Sys2Proof.Machine.execLdsp d a sx w s
  | .stsp d a w => Sys2Proof.Machine.execStsp d a w s
  | .ldcl d a sx strong w => Sys2Proof.Machine.execLdcl d a sx strong w s
  | .stcl d a strong w => Sys2Proof.Machine.execStcl d a strong w s
  | .ldds d a sx w => Sys2Proof.Machine.execLdds d a sx w s
  | .stds d a w => Sys2Proof.Machine.execStds d a w s
  | .gath d a b => Sys2Proof.Machine.execGath d a b s
  | .scat d a b => Sys2Proof.Machine.execScat d a b s
  | .pfd level a => Sys2Proof.Machine.execPfd level a s
  | .aadd d a b => Sys2Proof.Machine.execAadd d a b s
  | .amin d a b => Sys2Proof.Machine.execAmin d a b s
  | .amax d a b => Sys2Proof.Machine.execAmax d a b s
  | .aand d a b => Sys2Proof.Machine.execAand d a b s
  | .aor d a b => Sys2Proof.Machine.execAor d a b s
  | .axor d a b => Sys2Proof.Machine.execAxor d a b s
  | .axchg d a b => Sys2Proof.Machine.execAxchg d a b s
  | .acas d a b => Sys2Proof.Machine.execAcas d a b s
  | .ainc d a b => Sys2Proof.Machine.execAinc d a b s
  | .adec d a b => Sys2Proof.Machine.execAdec d a b s
  | .afadd d a b => Sys2Proof.Machine.execAfadd d a b s
  | .aaddn d a b => Sys2Proof.Machine.execAaddn d a b s
  | .spaadd d a b => Sys2Proof.Machine.execSpaadd d a b s
  | .spacas d a b => Sys2Proof.Machine.execSpacas d a b s
  | .fence => Sys2Proof.Machine.execFence s
  | .fencel scope => Sys2Proof.Machine.execFencel scope s
  | .invl1 => Sys2Proof.Machine.execInvl1 s
  | .lease a => Sys2Proof.Machine.execLease a s
  | .barinit a b => Sys2Proof.Machine.execBarinit a b s
  | .barexp a b => Sys2Proof.Machine.execBarexp a b s
  | .bararr a b => Sys2Proof.Machine.execBararr a b s
  | .bartry d a b => Sys2Proof.Machine.execBartry d a b s
  | .barwt phase a b => Sys2Proof.Machine.execBarwt phase a b s
  | .feempty a => Sys2Proof.Machine.execFeempty a s
  | .fefull a => Sys2Proof.Machine.execFefull a s
  | .fetest d a => Sys2Proof.Machine.execFetest d a s
  | .xcpy a => Sys2Proof.Machine.execXcpy a s
  | .xtile a => Sys2Proof.Machine.execXtile a s
  | .xgath a => Sys2Proof.Machine.execXgath a s
  | .xscat a => Sys2Proof.Machine.execXscat a s
  | .xred a => Sys2Proof.Machine.execXred a s
  | .xchain ch a => Sys2Proof.Machine.execXchain ch a s
  | .xcancel ch => Sys2Proof.Machine.execXcancel ch s
  | .xstat d ch => Sys2Proof.Machine.execXstat d ch s
  | .esnd a => Sys2Proof.Machine.execEsnd a s
  | .ercv a => Sys2Proof.Machine.execErcv a s
  | .estamp d => Sys2Proof.Machine.execEstamp d s
  | .ewmark d sel => Sys2Proof.Machine.execEwmark d sel s
  | .mma d a b => Sys2Proof.Machine.execMma d a b s
  | .mmar d a b => Sys2Proof.Machine.execMmar d a b s
  | .mmak d a b => Sys2Proof.Machine.execMmak d a b s
  | .mmas d a b => Sys2Proof.Machine.execMmas d a b s
  | .acq d => Sys2Proof.Machine.execAcq d s
  | .rel d => Sys2Proof.Machine.execRel d s
  | .acld d a => Sys2Proof.Machine.execAcld d a s
  | .acst d a => Sys2Proof.Machine.execAcst d a s
  | .acz d => Sys2Proof.Machine.execAcz d s
  | .acsp d a => Sys2Proof.Machine.execAcsp d a s
  | .acwin d a b => Sys2Proof.Machine.execAcwin d a b s
  | .bmark d a => Sys2Proof.Machine.execBmark d a s
  | .acadd d a => Sys2Proof.Machine.execAcadd d a s
  | .acscl d a => Sys2Proof.Machine.execAcscl d a s
  | .ctxsv d a => Sys2Proof.Machine.execCtxsv d a s
  | .ctxrs d a => Sys2Proof.Machine.execCtxrs d a s
  | .tlbinv a size => Sys2Proof.Machine.execTlbinv a size s
  | .wfreeze d a => Sys2Proof.Machine.execWfreeze d a s
  | .wkill fatal => Sys2Proof.Machine.execWkill fatal s
  | .easeq d a => Sys2Proof.Machine.execEaseq d a s
  | .cntrd d ctr => Sys2Proof.Machine.execCntrd d ctr s
  | .cntsel ctr a => Sys2Proof.Machine.execCntsel ctr a s
  | .issuePick core quad => Sys2Proof.Machine.execIssuePick core quad s
  | .clauseBegin wave slice => Sys2Proof.Machine.execClauseBegin wave slice s
  | .fetchFill wave slice => Sys2Proof.Machine.execFetchFill wave slice s
  | .regangRelease wave => Sys2Proof.Machine.execRegangRelease wave s
  | .rejoinDeadlock wave => Sys2Proof.Machine.execRejoinDeadlock wave s
  | .barrierComplete block cluster id => Sys2Proof.Machine.execBarrierComplete block cluster id s
  | .specialComplete wave op => Sys2Proof.Machine.execSpecialComplete wave op s
  | .loadComplete wave op unit => Sys2Proof.Machine.execLoadComplete wave op unit s
  | .homeArrival wave op unit => Sys2Proof.Machine.execHomeArrival wave op unit s
  | .storeAck wave op unit => Sys2Proof.Machine.execStoreAck wave op unit s
  | .fillArrival fill => Sys2Proof.Machine.execFillArrival fill s
  | .leaseExpiry l2 owner line => Sys2Proof.Machine.execLeaseExpiry l2 owner line s
  | .monRegistration wave => Sys2Proof.Machine.execMonRegistration wave s
  | .feWaitTimeout who => Sys2Proof.Machine.execFeWaitTimeout who s
  | .mwaitLimitExpiry wave slice => Sys2Proof.Machine.execMwaitLimitExpiry wave slice s
  | .barwtLimitExpiry wave slice => Sys2Proof.Machine.execBarwtLimitExpiry wave slice s
  | .pageWalkComplete func page => Sys2Proof.Machine.execPageWalkComplete func page s
  | .tileAccept core => Sys2Proof.Machine.execTileAccept core s
  | .kstepComplete block half op => Sys2Proof.Machine.execKstepComplete block half op s
  | .tileOpComplete block half op => Sys2Proof.Machine.execTileOpComplete block half op s
  | .trapDelivery wave => Sys2Proof.Machine.execTrapDelivery wave s
  | .blockPlace part => Sys2Proof.Machine.execBlockPlace part s
  | .taskWaveEmit die grid entry => Sys2Proof.Machine.execTaskWaveEmit die grid entry s
  | .gridComplete grid => Sys2Proof.Machine.execGridComplete grid s
  | .preempt grid => Sys2Proof.Machine.execPreempt grid s
  | .cairnPublish unit => Sys2Proof.Machine.execCairnPublish unit s
  | .cairnResume unit => Sys2Proof.Machine.execCairnResume unit s
  | .roundEnd grid => Sys2Proof.Machine.execRoundEnd grid s
  | .bucketRefill engine func => Sys2Proof.Machine.execBucketRefill engine func s
  | .segmentPerform id => Sys2Proof.Machine.execSegmentPerform id s
  | .chainRecordFetch id => Sys2Proof.Machine.execChainRecordFetch id s
  | .esndInject id => Sys2Proof.Machine.execEsndInject id s
  | .ercvAccept id => Sys2Proof.Machine.execErcvAccept id s
  | .qnotifyWrite f q v => Sys2Proof.Machine.execQnotifyWrite f q v s
  | .recordStart f q => Sys2Proof.Machine.execRecordStart f q s
  | .launchGrid f q n => Sys2Proof.Machine.execLaunchGrid f q n s
  | .runPlat f q n => Sys2Proof.Machine.execRunPlat f q n s
  | .bundle f q n => Sys2Proof.Machine.execBundle f q n s
  | .copyChain f q n => Sys2Proof.Machine.execCopyChain f q n s
  | .modload f q n => Sys2Proof.Machine.execModload f q n s
  | .modunload f q n => Sys2Proof.Machine.execModunload f q n s
  | .moduleRelease part handle => Sys2Proof.Machine.execModuleRelease part handle s
  | .signal f q n => Sys2Proof.Machine.execSignal f q n s
  | .waitValue f q n => Sys2Proof.Machine.execWaitValue f q n s
  | .waitValuePoll f q n => Sys2Proof.Machine.execWaitValuePoll f q n s
  | .waitValueTimeout f q n => Sys2Proof.Machine.execWaitValueTimeout f q n s
  | .ctxSave f q n => Sys2Proof.Machine.execCtxSave f q n s
  | .ctxRestore f q n => Sys2Proof.Machine.execCtxRestore f q n s
  | .ctxAbort f q n => Sys2Proof.Machine.execCtxAbort f q n s
  | .nodeIssue inst => Sys2Proof.Machine.execNodeIssue inst s
  | .nodeComplete inst node => Sys2Proof.Machine.execNodeComplete inst node s
  | .nodeFault inst node => Sys2Proof.Machine.execNodeFault inst node s
  | .nodeRearm inst node => Sys2Proof.Machine.execNodeRearm inst node s
  | .platToken id => Sys2Proof.Machine.execPlatToken id s
  | .replicaMessage m => Sys2Proof.Machine.execReplicaMessage m s
  | .replicaTimeout inst node => Sys2Proof.Machine.execReplicaTimeout inst node s
  | .partSet arg => Sys2Proof.Machine.execPartSet arg s
  | .funcSet arg => Sys2Proof.Machine.execFuncSet arg s
  | .bktcfgSet f v => Sys2Proof.Machine.execBktcfgSet f v s
  | .epcfgSet ep v => Sys2Proof.Machine.execEpcfgSet ep v s
  | .replicaSet f devids limit => Sys2Proof.Machine.execReplicaSet f devids limit s
  | .freezeEnd m endBlock => Sys2Proof.Machine.execFreezeEnd m endBlock s
  | .dieReset die => Sys2Proof.Machine.execDieReset die s
  | .logRead count => Sys2Proof.Machine.execLogRead count s
  | .fwStage image => Sys2Proof.Machine.execFwStage image s
  | .timeSet arg => Sys2Proof.Machine.execTimeSet arg s
  | .pwrSet v => Sys2Proof.Machine.execPwrSet v s
  | .mailboxUnknownCode code => Sys2Proof.Machine.execMailboxUnknownCode code s
  | .uploadGo slot => Sys2Proof.Machine.execUploadGo slot s
  | .uploadComplete => Sys2Proof.Machine.execUploadComplete s
  | .rsnClear => Sys2Proof.Machine.execRsnClear s
  | .evackWrite f seq => Sys2Proof.Machine.execEvackWrite f seq s
  | .eventRecordWrite f => Sys2Proof.Machine.execEventRecordWrite f s
  | .registerWrite r v => Sys2Proof.Machine.execRegisterWrite r v s
  | .start powerOn => Sys2Proof.Machine.execStart powerOn s
  | .readyTimeout => Sys2Proof.Machine.execReadyTimeout s
  | .firmwareReady memOk dies => Sys2Proof.Machine.execFirmwareReady memOk dies s
  | .configRequest func => Sys2Proof.Machine.execConfigRequest func s
  | .linkTrained port => Sys2Proof.Machine.execLinkTrained port s
  | .dieErrorReset die => Sys2Proof.Machine.execDieErrorReset die s
  | .dieReadmit die => Sys2Proof.Machine.execDieReadmit die s
  | .softError unit corrected => Sys2Proof.Machine.execSoftError unit corrected s
  | .hbmScrub mem => Sys2Proof.Machine.execHbmScrub mem s
  | .powerSample p => Sys2Proof.Machine.execPowerSample p s
  | .thermalTrip die => Sys2Proof.Machine.execThermalTrip die s
  | .flr f => Sys2Proof.Machine.execFlr f s
  | .lockInterface f stream => Sys2Proof.Machine.execLockInterface f stream s
  | .startInterface f => Sys2Proof.Machine.execStartInterface f s
  | .stopInterface f => Sys2Proof.Machine.execStopInterface f s
  | .tdispError f => Sys2Proof.Machine.execTdispError f s
  | .switchOut f => Sys2Proof.Machine.execSwitchOut f s
  | .switchIn f => Sys2Proof.Machine.execSwitchIn f s
  | .pluginUnload part => Sys2Proof.Machine.execPluginUnload part s
  | .packetArrival input pkt => Sys2Proof.Machine.execPacketArrival input pkt s
  | .beaconSend link => Sys2Proof.Machine.execBeaconSend link s
  | .beaconArrival input w => Sys2Proof.Machine.execBeaconArrival input w s
  | .watermarkStall input => Sys2Proof.Machine.execWatermarkStall input s
  | .portFence input => Sys2Proof.Machine.execPortFence input s
  | .portUnfence input => Sys2Proof.Machine.execPortUnfence input s
  | .timeBeacon port => Sys2Proof.Machine.execTimeBeacon port s
  | .timeBeaconArrival port t1 t2 t3 t4 => Sys2Proof.Machine.execTimeBeaconArrival port t1 t2 t3 t4 s
  | .ppsPulse => Sys2Proof.Machine.execPpsPulse s
  | .ercvComplete id => Sys2Proof.Machine.execErcvComplete id s

end Sys2Proof.Machine
end

