-- ==== Sys2Proof/Machine/Movers.lean ====
section
/-! DEFINITION. What can happen next while no gang issues: every event that the state could be ready for, the
oldest input from outside, a copy that a cache drops, or one tick that passes. The spec fixes the ticks of some (a
pick, a release, a limit): no tick passes before they have happened. It fixes no order or time for the others (R245,
R247), so a step takes one by a free value (assumptions 6 and 7). -/

namespace Sys2Proof.Machine

/-- One thing that can happen: an event of the package, named as its instruction is; the oldest input; time that
passes; a copy that is dropped. -/
inductive Move where
  | issuePick (core quad : Nat)
  | clauseBegin (wave slice : Nat)
  | fetchFill (wave slice : Nat)
  | regangRelease (wave : Nat)
  | rejoinDeadlock (wave : Nat)
  | barrierComplete (block : Nat) (cluster : Bool) (id : Nat)
  | specialComplete (wave op : Nat)
  | loadComplete (wave op unit : Nat)
  | homeArrival (wave op unit : Nat)
  | storeAck (wave op unit : Nat)
  | fillArrival (fill : Nat)
  | leaseExpiry (l2 : Bool) (owner line : Nat)
  | monRegistration (wave : Nat)
  | feWaitTimeout (who : FeWaiter)
  | mwaitLimitExpiry (wave slice : Nat)
  | barwtLimitExpiry (wave slice : Nat)
  | pageWalkComplete (func page : Nat)
  | startWalk
  | readWalk (id : Nat)
  | wake (wave : Nat)
  | tileAccept (core : Nat)
  | kstepComplete (block half op : Nat)
  | tileOpComplete (block half op : Nat)
  | trapDelivery (wave : Nat)
  | blockPlace (part : Nat)
  | taskWaveEmit (die grid entry : Nat)
  | gridComplete (grid : Nat)
  | preempt (grid : Nat)
  | cairnPublish (unit : Nat)
  | cairnResume (unit : Nat)
  | roundEnd (grid : Nat)
  | bucketRefill (engine func : Nat)
  | segmentPerform (id : Nat)
  | chainRecordFetch (id : Nat)
  | esndInject (id : Nat)
  | ercvAccept (id : Nat)
  | recordStart (f q : Nat)
  | launchGrid (f q n : Nat)
  | runPlat (f q n : Nat)
  | bundle (f q n : Nat)
  | copyChain (f q n : Nat)
  | modload (f q n : Nat)
  | modunload (f q n : Nat)
  | moduleRelease (part handle : Nat)
  | signal (f q n : Nat)
  | waitValue (f q n : Nat)
  | waitValuePoll (f q n : Nat)
  | waitValueTimeout (f q n : Nat)
  | ctxSave (f q n : Nat)
  | ctxRestore (f q n : Nat)
  | ctxAbort (f q n : Nat)
  | nodeIssue (inst : Nat)
  | nodeComplete (inst node : Nat)
  | nodeFault (inst node : Nat)
  | nodeRearm (inst node : Nat)
  | platToken (id : Nat)
  | replicaMessage (m : ReplicaMsg)
  | replicaTimeout (inst node : Nat)
  | uploadComplete
  | eventRecordWrite (f : Nat)
  | readyTimeout
  | hbmScrub (mem : Nat)
  | switchOut (f : Nat)
  | switchIn (f : Nat)
  | dieErrorReset (die : Nat)
  | powerSample (p : PowerSample)
  | thermalTrip (die : DieKind)
  | packetArrival (input : Nat) (pkt : Packet)
  | beaconSend (link : Nat)
  | beaconArrival (input : Nat) (w : Beacon)
  | watermarkStall (input : Nat)
  | timeBeacon (port : Nat)
  | ercvComplete (id : Nat)
  | takeInput
  | pass
  | dropL1 (core line : Nat)
  | dropL2 (die line : Nat)
  | dropReads (core : Nat)
  | dropTlb (core i : Nat)
  | dropL2Tlb (die i : Nat)
  deriving DecidableEq, Repr

/-- The events that come from outside the package's own running: the host, the firmware, the links and what
strikes the silicon. -/
def Instr.fromOutside : Instr → Bool
  | .qnotifyWrite _ _ _ | .registerWrite _ _ | .evackWrite _ _ | .configRequest _ => true
  | .partSet _ | .funcSet _ | .bktcfgSet _ _ | .epcfgSet _ _ | .replicaSet _ _ _ | .freezeEnd _ _ | .dieReset _
  | .logRead _ | .fwStage _ | .timeSet _ | .pwrSet _ | .mailboxUnknownCode _ => true
  | .uploadGo _ | .rsnClear | .start _ | .firmwareReady _ _ | .linkTrained _ | .dieErrorReset _ | .dieReadmit _ => true
  | .softError _ _ | .portFence _ | .portUnfence _ => true
  | .flr _ | .lockInterface _ _ | .startInterface _ | .stopInterface _ | .tdispError _ | .switchOut _ | .switchIn _
  | .pluginUnload _ | .timeBeaconArrival _ _ _ _ _ | .ppsPulse => true
  | .packetArrival i _ | .beaconArrival i _ => decide (i < 16)
  | _ => false

/-! ## The events that a state could be ready for -/

/-- Of the waves: clauses, fetches, rejoins, traps, limits and operations. -/
def waveEvents (k : Nat) (w : Wave) : List Move :=
  let slices := List.range w.slices.length
  [.regangRelease k, .rejoinDeadlock k, .trapDelivery k, .monRegistration k, .wake k] ++
  slices.flatMap (fun i => [.clauseBegin k i, .fetchFill k i, .mwaitLimitExpiry k i, .barwtLimitExpiry k i]) ++
  w.specials.map (fun o => .specialComplete k o.id) ++
  w.memOps.flatMap (fun o => (List.range (o.units.length + 1)).flatMap (fun u =>
    [.loadComplete k o.id u, .homeArrival k o.id u, .storeAck k o.id u, .feWaitTimeout (.load k o.id u)]))

/-- Of the blocks: barriers and tile operations. -/
def blockEvents (k : Nat) (b : Block) : List Move :=
  (List.range b.barb.length).map (fun i => .barrierComplete k false i) ++
  (List.range b.barc.length).map (fun i => .barrierComplete k true i) ++
  (b.halves.mapIdx (fun h x => .tileAccept x.core :: x.tops.flatMap (fun o =>
    [.kstepComplete k h o.id, .tileOpComplete k h o.id, .feWaitTimeout (.tile k h o.id)]))).flatten

/-- The refills that an engine's next payment waits for: those of every function of the paying function's partition
(R312). -/
def State.refills (s : State) (x : Transfer) : List Move :=
  let e := clusterOf x.core
  if (s.payable e x.func).isNone then []
  else .bucketRefill e x.func ::
    (s.funcs.filter (fun f => f.2.part.isSome && f.2.part == (s.func x.func).part)).map (fun f => .bucketRefill e f.1)

/-- Of the caches, the walkers, the engines and the fabric. -/
def State.engineEvents (s : State) : List Move :=
  .startWalk :: s.walks.flatMap (fun w => [.readWalk w.id, .pageWalkComplete w.func w.page]) ++
  s.fills.map (fun f => .fillArrival f.id) ++
  s.cores.flatMap (fun e => e.2.l1.map (fun c => .leaseExpiry false e.1 c.line)) ++
  (s.dies.mapIdx (fun i d => d.l2.map (fun c => Move.leaseExpiry true i c.line))).flatten ++
  (s.dies.mapIdx (fun i d => d.tasks.map (fun t => Move.taskWaveEmit i t.grid t.entry.toNat))).flatten ++
  s.xfers.flatMap (fun x => [.segmentPerform x.id, .chainRecordFetch x.id, .feWaitTimeout (.transfer x.id)] ++
    s.refills x) ++
  s.fabops.flatMap (fun x => [.esndInject x.id, .ercvAccept x.id, .ercvComplete x.id, .feWaitTimeout (.transfer x.id)]) ++
  s.fabric.links.map (fun x => match x.pkt with
    | some p => .packetArrival x.input p
    | none => .beaconArrival x.input ⟨BitVec.ofNat 64 x.wmark, x.retire⟩) ++
  (List.range 25).map .beaconSend ++ (List.range 21).map .watermarkStall ++ (List.range 16).map .timeBeacon ++
  s.replicaHeads.map (fun e => .replicaMessage (ReplicaMsg.ofPacket e.2))

/-- Of a started record: its command's events. -/
def recEvents (f q n : Nat) : List Move :=
  [.launchGrid f q n, .runPlat f q n, .bundle f q n, .copyChain f q n, .modload f q n, .modunload f q n, .signal f q n,
   .waitValue f q n, .waitValuePoll f q n, .waitValueTimeout f q n, .ctxSave f q n, .ctxRestore f q n, .ctxAbort f q n]

/-- Of the functions and their queues; a switch-out that waits goes on, and one begins when a slice is over (R430). -/
def State.funcEvents (s : State) (f : Nat) (x : Func) : List Move :=
  .eventRecordWrite f :: (if x.switching.isSome || s.sliceOver f then [.switchOut f] else []) ++
  x.queues.flatMap (fun e => .recordStart f e.1 :: e.2.recs.flatMap (fun r => recEvents f e.1 r.seq))

/-- Of the plats. -/
def platEvents (k : Nat) (p : PlatInst) : List Move :=
  .nodeIssue k :: p.payloads.flatMap (fun x => [.nodeComplete k x.node, .nodeFault k x.node]) ++
  (List.range p.nnode).map (fun n => .nodeRearm k n) ++ p.waits.map (fun w => .replicaTimeout k w.node)

/-- Of the grids, the cuts, the partitions and the control die. -/
def State.unitEvents (s : State) : List Move :=
  s.grids.flatMap (fun e => [.gridComplete e.1, .preempt e.1, .roundEnd e.1]) ++
  s.cuts.flatMap (fun u => [.cairnPublish u.id, .cairnResume u.id]) ++
  s.parts.flatMap (fun e => .blockPlace e.1 :: (s.sliceNext e.1).toList.map .switchIn ++
    e.2.modules.map (fun m => .moduleRelease e.1 m.1)) ++
  (List.range s.tokens.length).map .platToken ++ s.control.dieErrors.map .dieErrorReset ++
  [.uploadComplete, .readyTimeout, .powerSample s.sensed, .thermalTrip .compute, .thermalTrip .memory, .thermalTrip .control] ++
  (List.range 8).map .hbmScrub

/-- Every event that the state could be ready for. -/
def State.events (s : State) : List Move :=
  s.waves.flatMap (fun e => waveEvents e.1 e.2) ++
  s.blocks.flatMap (fun e => blockEvents e.1 e.2) ++ s.engineEvents ++
  s.funcs.flatMap (fun e => s.funcEvents e.1 e.2) ++ s.plats.flatMap (fun e => platEvents e.1 e.2) ++ s.unitEvents

/-- The copies that a cache may drop for want of room (R233, R242, R253). -/
def State.drops (s : State) : List Move :=
  s.cores.flatMap (fun e => e.2.l1.map (fun c => .dropL1 e.1 c.line)) ++
  (s.dies.mapIdx (fun i d => d.l2.map (fun c => Move.dropL2 i c.line))).flatten ++
  s.cores.map (fun e => .dropReads e.1) ++
  s.cores.flatMap (fun e => (List.range e.2.tlb.length).map (.dropTlb e.1)) ++
  (s.dies.mapIdx (fun i d => (List.range d.l2tlb.length).map (Move.dropL2Tlb i))).flatten

/-! ## Making a move -/

/-- An input's time has come: what arrives at the switch does so before an ERCV of that tick is accepted (R460). -/
def State.inputDue (s : State) : Instr → Bool
  | .packetArrival _ _ | .beaconArrival _ _ => s.switchOpen
  | _ => true

/-- The oldest input happens, when its time has come; one that only the package itself can bring about is discarded. -/
def State.takeInput (s : State) : Host.Outcome State Fault Refusal :=
  match s.inputs with
  | [] => .next s
  | i :: rest =>
    if !s.inputDue i then .next s
    else
      let t : State := { s with inputs := rest }
      if Instr.fromOutside i then exec i t else .next t

/-- The word of a picked gang: the instruction that it decodes to, or ILLEGAL_OPERAND (R35, R43). -/
def execWord (w : Word) (s : State) : Host.Outcome State Fault Refusal :=
  match decode w with
  | .ok i => exec i s
  | .error _ => illegalWord s .illegalOperand

/-- A gang inside a clause is stalled while its next word would not issue (R90): the word is tried, and what its wait
leaves stands; a gang whose word would issue is stalled no longer. -/
def State.tryGang (s : State) (k : Nat) (g : SliceMask) : State :=
  match s.waves.get? k with
  | none => s
  | some w =>
    if !w.insideClause g || s.heldInPlace w then s
    else
      let t : State := { s with cur := some ⟨k, g⟩ }
      match t.ctx? with
      | none => s
      | some c =>
        let free := s.modWave k (fun w => w.mapGang g (fun _ x => { x with stalled := none }))
        match execWord c.src.word t with
        | .next u =>
          (match u.waves.get? k with
            | some v => if v.seq = w.seq ∧ v.due.length = w.due.length then u else free
            | none => free)
        | _ => free

/-- Every gang inside a clause tried at the start of a tick. -/
def State.tryGangs (s : State) : State :=
  s.waves.foldl (fun s e => e.2.pickable.foldl (fun s g => s.tryGang e.1 g) s) s

/-- What a move does. -/
def Move.run (m : Move) (s : State) : Host.Outcome State Fault Refusal :=
  match m with
  | .issuePick core quad => execIssuePick core quad s
  | .clauseBegin wave slice => execClauseBegin wave slice s
  | .fetchFill wave slice => execFetchFill wave slice s
  | .regangRelease wave => execRegangRelease wave s
  | .rejoinDeadlock wave => execRejoinDeadlock wave s
  | .barrierComplete block cluster id => execBarrierComplete block cluster id s
  | .specialComplete wave op => execSpecialComplete wave op s
  | .loadComplete wave op unit => execLoadComplete wave op unit s
  | .homeArrival wave op unit => execHomeArrival wave op unit s
  | .storeAck wave op unit => execStoreAck wave op unit s
  | .fillArrival fill => execFillArrival fill s
  | .leaseExpiry l2 owner line => execLeaseExpiry l2 owner line s
  | .monRegistration wave => execMonRegistration wave s
  | .feWaitTimeout who => execFeWaitTimeout who s
  | .mwaitLimitExpiry wave slice => execMwaitLimitExpiry wave slice s
  | .barwtLimitExpiry wave slice => execBarwtLimitExpiry wave slice s
  | .pageWalkComplete func page => execPageWalkComplete func page s
  | .startWalk => .next s.startWalk
  | .readWalk id => .next (s.readWalk id)
  | .wake wave => .next (s.wakeWave wave)
  | .tileAccept core => execTileAccept core s
  | .kstepComplete block half op => execKstepComplete block half op s
  | .tileOpComplete block half op => execTileOpComplete block half op s
  | .trapDelivery wave => execTrapDelivery wave s
  | .blockPlace part => execBlockPlace part s
  | .taskWaveEmit die grid entry => execTaskWaveEmit die grid entry s
  | .gridComplete grid => execGridComplete grid s
  | .preempt grid => execPreempt grid s
  | .cairnPublish unit => execCairnPublish unit s
  | .cairnResume unit => execCairnResume unit s
  | .roundEnd grid => execRoundEnd grid s
  | .bucketRefill engine func => execBucketRefill engine func s
  | .segmentPerform id => execSegmentPerform id s
  | .chainRecordFetch id => execChainRecordFetch id s
  | .esndInject id => execEsndInject id s
  | .ercvAccept id => execErcvAccept id s
  | .recordStart f q => execRecordStart f q s
  | .launchGrid f q n => execLaunchGrid f q n s
  | .runPlat f q n => execRunPlat f q n s
  | .bundle f q n => execBundle f q n s
  | .copyChain f q n => execCopyChain f q n s
  | .modload f q n => execModload f q n s
  | .modunload f q n => execModunload f q n s
  | .moduleRelease part handle => execModuleRelease part handle s
  | .signal f q n => execSignal f q n s
  | .waitValue f q n => execWaitValue f q n s
  | .waitValuePoll f q n => execWaitValuePoll f q n s
  | .waitValueTimeout f q n => execWaitValueTimeout f q n s
  | .ctxSave f q n => execCtxSave f q n s
  | .ctxRestore f q n => execCtxRestore f q n s
  | .ctxAbort f q n => execCtxAbort f q n s
  | .nodeIssue inst => execNodeIssue inst s
  | .nodeComplete inst node => execNodeComplete inst node s
  | .nodeFault inst node => execNodeFault inst node s
  | .nodeRearm inst node => execNodeRearm inst node s
  | .platToken id => execPlatToken id s
  | .replicaMessage m => execReplicaMessage m s
  | .replicaTimeout inst node => execReplicaTimeout inst node s
  | .uploadComplete => execUploadComplete s
  | .eventRecordWrite f => execEventRecordWrite f s
  | .readyTimeout => execReadyTimeout s
  | .hbmScrub mem => execHbmScrub mem s
  | .switchOut f => execSwitchOut f s
  | .switchIn f => execSwitchIn f s
  | .dieErrorReset die => execDieErrorReset die s
  | .powerSample p => execPowerSample p s
  | .thermalTrip die => execThermalTrip die s
  | .packetArrival input pkt => execPacketArrival input pkt s
  | .beaconSend link => execBeaconSend link s
  | .beaconArrival input w => execBeaconArrival input w s
  | .watermarkStall input => execWatermarkStall input s
  | .timeBeacon port => execTimeBeacon port s
  | .ercvComplete id => execErcvComplete id s
  | .takeInput => s.takeInput
  | .pass => .next s.tick.tryGangs
  | .dropL1 core line => .next (s.modCore core (fun c => { c with l1 := c.l1.filter (fun e => e.line != line) }))
  | .dropL2 die line => .next (s.modDie die (fun d => { d with l2 := d.l2.filter (fun e => e.line != line) }))
  | .dropReads core => .next (s.modCore core (fun c => { c with reads := [] }))
  | .dropTlb core i => .next (s.modCore core (fun c => { c with tlb := c.tlb.eraseIdx i }))
  | .dropL2Tlb die i => .next (s.modDie die (fun d => { d with l2tlb := d.l2tlb.eraseIdx i }))

/-- The asker as which a move makes its accesses, when it makes any that are translated: an engine asks through its
core's TLBs, a wave's trap frame through the wave's, and the control die through none (R233, R463). -/
def State.clientOf (s : State) : Move → Option Client
  | .segmentPerform id => some ⟨.event 0 id 0 0, (s.xfers.find? (fun x => x.id == id)).map (·.core)⟩
  | .chainRecordFetch id => some ⟨.event 1 id 0 0, (s.xfers.find? (fun x => x.id == id)).map (·.core)⟩
  | .trapDelivery k => some ⟨.event 2 k 0 0, (s.waves.get? k).map (·.core)⟩
  | .gridComplete g => some ⟨.event 3 g 0 0, none⟩
  | .recordStart f q => some ⟨.event 4 f q 0, none⟩
  | .runPlat f q n => some ⟨.event 5 f q n, none⟩
  | .bundle f q n => some ⟨.event 6 f q n, none⟩
  | .modload f q n => some ⟨.event 7 f q n, none⟩
  | .signal f q n => some ⟨.event 8 f q n, none⟩
  | .waitValue f q n => some ⟨.event 9 f q n, none⟩
  | .waitValuePoll f q n => some ⟨.event 10 f q n, none⟩
  | .ctxSave f q n => some ⟨.event 11 f q n, none⟩
  | .ctxRestore f q n => some ⟨.event 12 f q n, none⟩
  | .cairnPublish u => some ⟨.event 13 u 0 0, none⟩
  | .nodeIssue k => some ⟨.event 14 k 0 0, none⟩
  | .nodeComplete k n => some ⟨.event 15 k n 0, none⟩
  | .nodeFault k n => some ⟨.event 16 k n 0, none⟩
  | .nodeRearm k n => some ⟨.event 17 k n 0, none⟩
  | .platToken i => some ⟨.event 18 i 0 0, none⟩
  | .replicaMessage m => some ⟨.event 19 m.node m.gen.toNat m.plat.toNat, none⟩
  | .replicaTimeout k n => some ⟨.event 20 k n 0, none⟩
  | _ => none

/-- The state that an outcome goes on with, or another. -/
def goesTo (o : Host.Outcome State Fault Refusal) (s : State) : State :=
  match o with
  | .next t => t
  | _ => s

/-- A move made: one whose accesses miss the TLBs waits for their walks first (R233). -/
def State.make (s : State) (m : Move) : Host.Outcome State Fault Refusal :=
  match s.clientOf m with
  | none => m.run s
  | some c => .next (s.asking c (fun t => goesTo (m.run t) t))

/-- A move that would change the state. -/
def State.useful (s : State) (m : Move) : Bool :=
  match s.make m with
  | .next t => decide (t ≠ s)
  | _ => false

/-- The line that a gang's fetch waits for comes from a cache, or the fetch finds a fault or is still to send its miss
(R61). -/
def State.fetchNear (s : State) (k slice : Nat) : Bool :=
  match s.missing k slice with
  | none => false
  | some (w, _, _, va) =>
    match s.fetchPlace w va with
    | .ok line => decide (s.ilevel w.core w.quad w.part line < 3)
    | .error _ => true

/-- A unit that has been on its way on its own chip level for four ticks. -/
def State.atBank (s : State) (k op unit : Nat) : Bool :=
  match s.findUnit k op unit with
  | some (w, _, u) => s.nearLoc w.core u.loc && u.sent.any (fun t => decide (t + 4 ≤ s.time))
  | none => false

/-- A move whose tick the spec fixes, or which nothing holds up: no tick passes while it could happen. -/
def State.urgent (s : State) : Move → Bool
  | .issuePick _ _ | .clauseBegin _ _ | .regangRelease _ | .rejoinDeadlock _ | .barrierComplete _ _ _ => true
  | .feWaitTimeout _ | .mwaitLimitExpiry _ _ | .barwtLimitExpiry _ _ | .waitValueTimeout _ _ _ | .waitValuePoll _ _ _ => true
  | .readyTimeout | .watermarkStall _ | .hbmScrub _ | .replicaTimeout _ _ | .ctxAbort _ _ _ => true
  | .tileAccept _ | .bucketRefill _ _ | .startWalk | .moduleRelease _ _ | .taskWaveEmit _ _ _ => true
  | .platToken _ | .nodeIssue _ | .nodeComplete _ _ | .nodeFault _ _ | .nodeRearm _ _ | .gridComplete _ => true
  | .beaconSend _ | .timeBeacon _ | .powerSample _ | .thermalTrip _ | .dieErrorReset _ | .switchIn _ => true
  | .switchOut f => s.sliceOver f
  | .fetchFill k i => s.fetchNear k i
  | .homeArrival k o u => s.atBank k o u
  | _ => false

/-- A placement: a block or a set that waits takes the first core that gains room, before anything else happens
(R110). -/
def Move.places : Move → Bool
  | .blockPlace _ | .cairnResume _ => true
  | _ => false

/-- An event that a plat engine applies: it comes when the ends of grids that reach the engine in its tick have come
(R335). -/
def Move.ofPlats : Move → Bool
  | .platToken _ | .nodeIssue _ | .nodeComplete _ _ | .nodeFault _ _ | .nodeRearm _ _ => true
  | _ => false

/-- The end of a grid, which may be the end of a node's payload. -/
def Move.endsGrid : Move → Bool
  | .gridComplete _ => true
  | _ => false

/-- Each core's next pick of this tick: the quadrants pick in increasing number (R194). -/
def State.picks (s : State) : List Move :=
  ((s.waves.map (fun e => e.2.core)).eraseDups).filterMap (fun c =>
    ((List.range 4).map (.issuePick c)).find? s.useful)

/-- The moves that a step chooses from: placements first, the ends of grids before what the plat engines do; time passes
when nothing urgent is left in its tick. -/
def State.moves (s : State) : List Move :=
  let l := s.picks ++ (s.events ++ .takeInput :: s.drops).filter s.useful
  let l := if l.any Move.endsGrid then l.filter (fun m => !m.ofPlats) else l
  let first := l.filter Move.places
  if !first.isEmpty then first
  else if l.any s.urgent then l
  else l ++ [.pass]

/-- The move that happens next. -/
def State.nextMove (s : State) : Move :=
  let l := s.moves
  (l[Config.choose s.free % l.length]?).getD .pass

/-- A free value drawn. -/
def State.drawn (s : State) : State := { s with free := s.free + 1 }

/-! ## Placing one word (assumption 30) -/

/-- The kernel of a placed word: 16 lanes and 192 v registers. -/
def wordKernel : Kernel := { entry := 0, width := 0, vgran := 24, acct := 0, scrl := 0, lfirst := 0, lcount := 0 }

/-- The launch of a placed word: one block of one wave. -/
def wordLaunch : Launch :=
  { arg := 0, modh := 0, kidx := 0, gx := 1, gy := 1, gz := 1, waves := 1, pair := false, setsz := 1, setcls := false
    prog := 0, det := false, prio := 0, qnt := 0, bound := 0, privsz := 0, clsz := 0, dssz := 0, ctok := 0 }

/-- The clause of a placed word: one body word, and eight literals that are zero (R24, R25). -/
def wordClause (w : Word) : List Word := 0x000000F1#32 :: w :: List.replicate 8 0

/-- A new wave that stands inside the clause of a word, alone in its block and grid, and has been picked. The
kernel's code would bring the word here by FETCH_FILL and CLAUSE_BEGIN. -/
def State.placeWord (s : State) (w : Word) : State :=
  let k := s.nextId
  let wave := newWave wordKernel 0 (k + 1) 0 0 1 0 0 0 0 0 [] 16 [] 0 none
  let wave := { wave with slices := wave.slices.map (fun x => { x with word := 1, cl := wordClause w }) }
  let block : Block :=
    { grid := k + 2, index := 0, setPos := 0, nw := 1, waves := [k], halves := [newHalf wordKernel 0]
      barb := List.replicate 16 ⟨0, false, 0⟩, barc := List.replicate 4 ⟨0, false, 0⟩
      chans := List.replicate 16 ⟨false, false, false, 0, 0, 0, 0, false⟩
      runt := 0, reti := 0, kstep := 0, xbytes := 0, charge := 0, endCount := 0, status := .resident
      placedAt := s.time, task := false, far := false, parkedInPlace := none }
  let grid : Grid :=
    { func := 1, part := 0, launch := wordLaunch, kernel := wordKernel, wgt := 1, origin := .device, seqno := 0
      arrived := s.time, next := 1, returned := [], endedBlocks := 0, placed := true, fault := none, cutting := false
      parent := none, task := none, det := none, releaseAt := 0 }
  { s with
    waves := s.waves.set k wave, blocks := s.blocks.set (k + 1) block, grids := s.grids.set (k + 2) grid
    nextId := k + 3, cur := some ⟨k, 0xF⟩ }

end Sys2Proof.Machine
end

