-- ==== Sys2Proof/Machine/Step.lean ====
section
/-! DEFINITION. One step of the package: the picked gang issues one word, or something else happens. -/

namespace Sys2Proof.Machine

/-- A step issues the picked gang's word; with no gang picked, one of the moves of the state happens. -/
def step (s : State) : Host.Outcome State Fault Refusal :=
  match s.cur with
  | some _ =>
    match s.ctx? with
    | some c => execWord c.src.word s
    | none => .next { s with cur := none }
  | none => s.drawn.make s.nextMove

/-- The state with an instruction placed where the next step takes its word: a one-word clause with eight zero
literals, in the first slices of a new 16-lane wave that has been picked. -/
def State.withFetchWord (s : State) (_nbits w : Nat) : State := s.placeWord (BitVec.ofNat 32 w)

end Sys2Proof.Machine
end

