-- ==== Sys2Proof/Machine/Checks.lean ====
section
/-! DEFINITION. The decode checks of every encoded word in one table (R43, R49), and what an ordinary issue is:
the words in which statements say when an instruction has its effect. -/

namespace Sys2Proof.Machine

/-- The decode checks that a word makes before it has an effect; an event makes none. -/
def checksOf (i : Instr) (c : Ctx) : Checks :=
  match i with
  | .nop => Checks.none
  | .mode a b => modeChecks a b c
  | .br a => brChecks a c
  | .brx a => brxChecks a c
  | .brs _ a b => brsChecks a b c
  | .brv _ a b => brvChecks a b c
  | .join => Checks.control
  | .regang a => regangChecks a c
  | .meld a b => meldChecks a b
  | .melde => meldeChecks
  | .call d a => callChecks d a c
  | .calli d a => calliChecks d a c
  | .ret a => retChecks a c
  | .exit a => exitChecks a c
  | .yield => Checks.control
  | .waitf _ => Checks.control
  | .mon a => monChecks a c
  | .mwait a => mwaitChecks a c
  | .trap a => trapChecks a c
  | .tret => Checks.control
  | .phint k => phintChecks k c
  | .idemb => Checks.control
  | .ideme => Checks.control
  | .ipf level a count => ipfChecks level a count c
  | .spawn a b => spawnChecks a b c
  | .launch d a => launchChecks d a c
  | .gfire a b => gfireChecks a b c
  | .barb _ => Checks.control
  | .barc _ => Checks.control
  | .quant => Checks.control
  | .digest a count => digestChecks a count
  | .reservedOpcode _ => Checks.none
  | .add d a b => arithChecks .add d a (some b) c
  | .sub d a b => arithChecks .sub d a (some b) c
  | .mul d a b => arithChecks .mul d a (some b) c
  | .fma d a b => arithChecks .fma d a (some b) c
  | .fms d a b => arithChecks .fms d a (some b) c
  | .fnma d a b => arithChecks .fnma d a (some b) c
  | .min d a b => arithChecks .min d a (some b) c
  | .max d a b => arithChecks .max d a (some b) c
  | .abs d a => arithChecks .abs d a none c
  | .neg d a => arithChecks .neg d a none c
  | .rcp d a => vecSpecialChecks .rcp d a .zero c
  | .rsq d a => vecSpecialChecks .rsq d a .zero c
  | .sqrt d a => vecSpecialChecks .sqrt d a .zero c
  | .exp2 d a => vecSpecialChecks .exp2 d a .zero c
  | .log2 d a => vecSpecialChecks .log2 d a .zero c
  | .tanh d a => vecSpecialChecks .tanh d a .zero c
  | .cmpeq d a b => vecCompareChecks d a b c
  | .cmpne d a b => vecCompareChecks d a b c
  | .cmplt d a b => vecCompareChecks d a b c
  | .cmple d a b => vecCompareChecks d a b c
  | .cmpun d a b => vecCompareChecks d a b c
  | .classify d a b => classifyChecks d a b c
  | .sel d a b => selChecks d a b c
  | .cvt d a part => cvtChecks d a part c
  | .scale d a b => scaleChecks d a b c
  | .rint d a => vecUnaryChecks d a c
  | .frxp d a _ => frxpChecks d a c
  | .div d a b => vecSpecialChecks .div d a b c
  | .enct d a b => enctChecks d a b c
  | .dect d a _ => dectChecks d a c
  | .mov d a => movChecks d a c
  | .fxr d a => fxrChecks d a c
  | .addc d a b => vecCarryChecks d a b c
  | .subb d a b => vecCarryChecks d a b c
  | .mulhi d a b => mulhiChecks d a b c
  | .mulw d a b => mulwChecks d a b c
  | .and d a b => vecLogicChecks d a (some b) c
  | .or d a b => vecLogicChecks d a (some b) c
  | .xor d a b => vecLogicChecks d a (some b) c
  | .not d a => vecLogicChecks d a none c
  | .shl d a b => vecBitChecks d a (some b) c
  | .shr d a b => vecBitChecks d a (some b) c
  | .sha d a b => vecBitChecks d a (some b) c
  | .rot d a b => vecBitChecks d a (some b) c
  | .clz d a => vecBitChecks d a none c
  | .popc d a => vecBitChecks d a none c
  | .brev d a => vecBitChecks d a none c
  | .bfe d a b => vecRaw2Checks false d a b c
  | .bfi d a b => vecRaw2Checks true d a b c
  | .clmul d a b => vecRaw2Checks false d a b c
  | .clmulh d a b => vecRaw2Checks false d a b c
  | .dot4 d a b => vecDotChecks [.s4, .n4, .s8, .n8] d a b c
  | .dot2 d a b => vecDotChecks [.s16, .n16] d a b c
  | .shfl d a b => vecShuffleChecks b VCode.legal d a c
  | .shflx d a b => vecShuffleChecks b VCode.legal d a c
  | .bcast d a b => vecShuffleChecks b bcastLane d a c
  | .wred d a op => redChecks d a op true c
  | .wscan d a op => redChecks d a op false c
  | .ballot d a => ballotChecks d a c
  | .pand d a b => vecPredChecks d a b
  | .por d a b => vecPredChecks d a b
  | .pxor d a b => vecPredChecks d a b
  | .spsel d a part => spselChecks d a part c
  | .spcmp d a b => spcmpChecks d a b c
  | .sadd d a b => scalarOpChecks d a b c
  | .ssub d a b => scalarOpChecks d a b c
  | .smul d a b => scalarOpChecks d a b c
  | .smulh d a b => scalarOpChecks d a b c
  | .sand d a b => scalarOpChecks d a b c
  | .sor d a b => scalarOpChecks d a b c
  | .sxor d a b => scalarOpChecks d a b c
  | .sshl d a b => scalarOpChecks d a b c
  | .sshr d a b => scalarOpChecks d a b c
  | .ssha d a b => scalarOpChecks d a b c
  | .smin d a b => scalarOpChecks d a b c
  | .smax d a b => scalarOpChecks d a b c
  | .scmplt d a b => scalarOpChecks d a b c
  | .scmpeq d a b => scalarOpChecks d a b c
  | .ssel d a b => sselChecks d a b c
  | .smov d a => scalarUnaryChecks d a c
  | .sadd64 d a b => scalarOp64Checks true d a b c
  | .ssub64 d a b => scalarOp64Checks true d a b c
  | .smul64 d a b => scalarOp64Checks true d a b c
  | .sshl64 d a b => scalarOp64Checks false d a b c
  | .sshr64 d a b => scalarOp64Checks false d a b c
  | .sclz d a => scalarUnaryChecks d a c
  | .spopc d a => scalarUnaryChecks d a c
  | .v2s d a b => v2sChecks d a b c
  | .sysrd d index => sysrdChecks d index c
  | .syswr index b => syswrChecks index b c
  | .scmpltn d a b => scalarOpChecks d a b c
  | .pack d a b => scalarOpChecks d a b c
  | .unpack d a _ => scalarUnaryChecks d a c
  | .pset d a => psetChecks d a c
  | .sbfe d a b => scalarOpChecks d a b c
  | .ld d a sx w => memLoadChecks 4 Checks.none d a sx w c
  | .lda d a sx w => memLoadChecks 3 Checks.unmelded d a sx w c
  | .ldx d a sx w => memLoadChecks 3 Checks.unmelded d a sx w c
  | .st d a w => memStoreChecks 4 Checks.none d a w c
  | .stl d a w => memStoreChecks 3 Checks.unmelded d a w c
  | .stx d a w => memStoreChecks 3 Checks.unmelded d a w c
  | .sti d a w => memStoreChecks 4 Checks.unmelded d a w c
  | .ldsp d a sx w => offLoadChecks Checks.none d a sx w c
  | .stsp d a w => offStoreChecks Checks.none d a w c
  | .ldcl d a sx _ w => offLoadChecks Checks.unmelded d a sx w c
  | .stcl d a _ w => offStoreChecks Checks.unmelded d a w c
  | .ldds d a sx w => offLoadChecks Checks.unmelded d a sx w c
  | .stds d a w => offStoreChecks Checks.unmelded d a w c
  | .gath d a b => gathChecks d a b c
  | .scat d a b => scatChecks d a b c
  | .pfd _ a => pfdChecks a c
  | .aadd d a b => atomicChecks .add d a b c
  | .amin d a b => atomicChecks .min d a b c
  | .amax d a b => atomicChecks .max d a b c
  | .aand d a b => atomicChecks .and d a b c
  | .aor d a b => atomicChecks .or d a b c
  | .axor d a b => atomicChecks .xor d a b c
  | .axchg d a b => atomicChecks .xchg d a b c
  | .acas d a b => atomicChecks .cas d a b c
  | .ainc d a b => atomicChecks .inc d a b c
  | .adec d a b => atomicChecks .dec d a b c
  | .afadd d a b => atomicChecks .fadd d a b c
  | .aaddn d a b => atomicChecks .addn d a b c
  | .spaadd d a b => atomicChecks .add d a b c
  | .spacas d a b => atomicChecks .cas d a b c
  | .fence => Checks.control
  | .fencel scope => fencelChecks scope
  | .invl1 => Checks.control
  | .lease a => leaseChecks a c
  | .barinit a b => barinitChecks a b c
  | .barexp a b => barexpChecks a b c
  | .bararr a b => bararrChecks a b c
  | .bartry d a b => bartryChecks d a b c
  | .barwt _ a b => barwtChecks a b c
  | .feempty a => fullEmptyChecks a c
  | .fefull a => fullEmptyChecks a c
  | .fetest d a => fetestChecks d a c
  | .xcpy a => directTransferChecks a
  | .xtile a => directTransferChecks a
  | .xgath a => directTransferChecks a
  | .xscat a => directTransferChecks a
  | .xred a => directTransferChecks a
  | .xchain _ a => xchainChecks a c
  | .xcancel _ => Checks.control
  | .xstat d _ => xstatChecks d
  | .esnd a => fabricOpChecks a
  | .ercv a => fabricOpChecks a
  | .estamp d => estampChecks d
  | .ewmark d sel => ewmarkChecks d sel
  | .mma d a b => mmaChecks d a b c
  | .mmar d a b => mmarChecks d a b c
  | .mmak d a b => mmakChecks d a b c
  | .mmas d a b => mmasChecks d a b c
  | .acq d => acqChecks d
  | .rel d => relChecks d
  | .acld d a => acldChecks d a c
  | .acst d a => acstChecks d a
  | .acz d => aczChecks d
  | .acsp d a => acspChecks d a c
  | .acwin d a b => acwinChecks d a b c
  | .bmark d a => bmarkChecks d a
  | .acadd d a => acaddChecks d a c
  | .acscl d a => acsclChecks d a c
  | .ctxsv d a => ctxsvChecks d a c
  | .ctxrs d a => ctxrsChecks d a c
  | .tlbinv a size => tlbinvChecks a size c
  | .wfreeze d a => wfreezeChecks d a c
  | .wkill _ => Checks.privileged
  | .easeq d a => easeqChecks d a c
  | .cntrd d _ => cntrdChecks d
  | .cntsel _ a => cntselChecks a c
  | .issuePick _ _ => Checks.none
  | .clauseBegin _ _ => Checks.none
  | .fetchFill _ _ => Checks.none
  | .regangRelease _ => Checks.none
  | .rejoinDeadlock _ => Checks.none
  | .barrierComplete _ _ _ => Checks.none
  | .specialComplete _ _ => Checks.none
  | .loadComplete _ _ _ => Checks.none
  | .homeArrival _ _ _ => Checks.none
  | .storeAck _ _ _ => Checks.none
  | .fillArrival _ => Checks.none
  | .leaseExpiry _ _ _ => Checks.none
  | .monRegistration _ => Checks.none
  | .feWaitTimeout _ => Checks.none
  | .mwaitLimitExpiry _ _ => Checks.none
  | .barwtLimitExpiry _ _ => Checks.none
  | .pageWalkComplete _ _ => Checks.none
  | .tileAccept _ => Checks.none
  | .kstepComplete _ _ _ => Checks.none
  | .tileOpComplete _ _ _ => Checks.none
  | .trapDelivery _ => Checks.none
  | .blockPlace _ => Checks.none
  | .taskWaveEmit _ _ _ => Checks.none
  | .gridComplete _ => Checks.none
  | .preempt _ => Checks.none
  | .cairnPublish _ => Checks.none
  | .cairnResume _ => Checks.none
  | .roundEnd _ => Checks.none
  | .bucketRefill _ _ => Checks.none
  | .segmentPerform _ => Checks.none
  | .chainRecordFetch _ => Checks.none
  | .esndInject _ => Checks.none
  | .ercvAccept _ => Checks.none
  | .qnotifyWrite _ _ _ => Checks.none
  | .recordStart _ _ => Checks.none
  | .launchGrid _ _ _ => Checks.none
  | .runPlat _ _ _ => Checks.none
  | .bundle _ _ _ => Checks.none
  | .copyChain _ _ _ => Checks.none
  | .modload _ _ _ => Checks.none
  | .modunload _ _ _ => Checks.none
  | .moduleRelease _ _ => Checks.none
  | .signal _ _ _ => Checks.none
  | .waitValue _ _ _ => Checks.none
  | .waitValuePoll _ _ _ => Checks.none
  | .waitValueTimeout _ _ _ => Checks.none
  | .ctxSave _ _ _ => Checks.none
  | .ctxRestore _ _ _ => Checks.none
  | .ctxAbort _ _ _ => Checks.none
  | .nodeIssue _ => Checks.none
  | .nodeComplete _ _ => Checks.none
  | .nodeFault _ _ => Checks.none
  | .nodeRearm _ _ => Checks.none
  | .platToken _ => Checks.none
  | .replicaMessage _ => Checks.none
  | .replicaTimeout _ _ => Checks.none
  | .partSet _ => Checks.none
  | .funcSet _ => Checks.none
  | .bktcfgSet _ _ => Checks.none
  | .epcfgSet _ _ => Checks.none
  | .replicaSet _ _ _ => Checks.none
  | .freezeEnd _ _ => Checks.none
  | .dieReset _ => Checks.none
  | .logRead _ => Checks.none
  | .fwStage _ => Checks.none
  | .timeSet _ => Checks.none
  | .pwrSet _ => Checks.none
  | .mailboxUnknownCode _ => Checks.none
  | .uploadGo _ => Checks.none
  | .uploadComplete => Checks.none
  | .rsnClear => Checks.none
  | .evackWrite _ _ => Checks.none
  | .eventRecordWrite _ => Checks.none
  | .registerWrite _ _ => Checks.none
  | .start _ => Checks.none
  | .readyTimeout => Checks.none
  | .firmwareReady _ _ => Checks.none
  | .configRequest _ => Checks.none
  | .linkTrained _ => Checks.none
  | .dieErrorReset _ => Checks.none
  | .dieReadmit _ => Checks.none
  | .softError _ _ => Checks.none
  | .hbmScrub _ => Checks.none
  | .powerSample _ => Checks.none
  | .thermalTrip _ => Checks.none
  | .flr _ => Checks.none
  | .lockInterface _ _ => Checks.none
  | .startInterface _ => Checks.none
  | .stopInterface _ => Checks.none
  | .tdispError _ => Checks.none
  | .switchOut _ => Checks.none
  | .switchIn _ => Checks.none
  | .pluginUnload _ => Checks.none
  | .packetArrival _ _ => Checks.none
  | .beaconSend _ => Checks.none
  | .beaconArrival _ _ => Checks.none
  | .watermarkStall _ => Checks.none
  | .portFence _ => Checks.none
  | .portUnfence _ => Checks.none
  | .timeBeacon _ => Checks.none
  | .timeBeaconArrival _ _ _ _ _ => Checks.none
  | .ppsPulse => Checks.none
  | .ercvComplete _ => Checks.none

/-- A move is the event of an instruction, with the same operands; time that passes, news that reaches a wave, a walk's
progress, an input and a dropped copy are no events of their own. -/
def Move.isEvent (m : Move) (i : Instr) : Prop :=
  match m with
  | .issuePick core quad => i = .issuePick core quad
  | .clauseBegin wave slice => i = .clauseBegin wave slice
  | .fetchFill wave slice => i = .fetchFill wave slice
  | .regangRelease wave => i = .regangRelease wave
  | .rejoinDeadlock wave => i = .rejoinDeadlock wave
  | .barrierComplete block cluster id => i = .barrierComplete block cluster id
  | .specialComplete wave op => i = .specialComplete wave op
  | .loadComplete wave op unit => i = .loadComplete wave op unit
  | .homeArrival wave op unit => i = .homeArrival wave op unit
  | .storeAck wave op unit => i = .storeAck wave op unit
  | .fillArrival fill => i = .fillArrival fill
  | .leaseExpiry l2 owner line => i = .leaseExpiry l2 owner line
  | .monRegistration wave => i = .monRegistration wave
  | .feWaitTimeout who => i = .feWaitTimeout who
  | .mwaitLimitExpiry wave slice => i = .mwaitLimitExpiry wave slice
  | .barwtLimitExpiry wave slice => i = .barwtLimitExpiry wave slice
  | .pageWalkComplete func page => i = .pageWalkComplete func page
  | .tileAccept core => i = .tileAccept core
  | .kstepComplete block half op => i = .kstepComplete block half op
  | .tileOpComplete block half op => i = .tileOpComplete block half op
  | .trapDelivery wave => i = .trapDelivery wave
  | .blockPlace part => i = .blockPlace part
  | .taskWaveEmit die grid entry => i = .taskWaveEmit die grid entry
  | .gridComplete grid => i = .gridComplete grid
  | .preempt grid => i = .preempt grid
  | .cairnPublish unit => i = .cairnPublish unit
  | .cairnResume unit => i = .cairnResume unit
  | .roundEnd grid => i = .roundEnd grid
  | .bucketRefill engine func => i = .bucketRefill engine func
  | .segmentPerform id => i = .segmentPerform id
  | .chainRecordFetch id => i = .chainRecordFetch id
  | .esndInject id => i = .esndInject id
  | .ercvAccept id => i = .ercvAccept id
  | .recordStart f q => i = .recordStart f q
  | .launchGrid f q n => i = .launchGrid f q n
  | .runPlat f q n => i = .runPlat f q n
  | .bundle f q n => i = .bundle f q n
  | .copyChain f q n => i = .copyChain f q n
  | .modload f q n => i = .modload f q n
  | .modunload f q n => i = .modunload f q n
  | .moduleRelease part handle => i = .moduleRelease part handle
  | .signal f q n => i = .signal f q n
  | .waitValue f q n => i = .waitValue f q n
  | .waitValuePoll f q n => i = .waitValuePoll f q n
  | .waitValueTimeout f q n => i = .waitValueTimeout f q n
  | .ctxSave f q n => i = .ctxSave f q n
  | .ctxRestore f q n => i = .ctxRestore f q n
  | .ctxAbort f q n => i = .ctxAbort f q n
  | .nodeIssue inst => i = .nodeIssue inst
  | .nodeComplete inst node => i = .nodeComplete inst node
  | .nodeFault inst node => i = .nodeFault inst node
  | .nodeRearm inst node => i = .nodeRearm inst node
  | .platToken id => i = .platToken id
  | .replicaMessage m => i = .replicaMessage m
  | .replicaTimeout inst node => i = .replicaTimeout inst node
  | .uploadComplete => i = .uploadComplete
  | .eventRecordWrite f => i = .eventRecordWrite f
  | .readyTimeout => i = .readyTimeout
  | .hbmScrub mem => i = .hbmScrub mem
  | .switchOut f => i = .switchOut f
  | .switchIn f => i = .switchIn f
  | .dieErrorReset die => i = .dieErrorReset die
  | .powerSample p => i = .powerSample p
  | .thermalTrip die => i = .thermalTrip die
  | .packetArrival input pkt => i = .packetArrival input pkt
  | .beaconSend link => i = .beaconSend link
  | .beaconArrival input w => i = .beaconArrival input w
  | .watermarkStall input => i = .watermarkStall input
  | .timeBeacon port => i = .timeBeacon port
  | .ercvComplete id => i = .ercvComplete id
  | .startWalk | .readWalk _ | .wake _ | .takeInput | .pass | .dropL1 _ _ | .dropL2 _ _ | .dropReads _ | .dropTlb _ _ | .dropL2Tlb _ _ => False

/-- The picked gang's word issues: a gang is picked (R90), its word passes its decode checks (R43), waits at no
interlock (R34) and reads no poisoned register (R139, R163). -/
structure Issues (s : State) (c : Ctx) (k : Checks) : Prop where
  picked : s.ctx? = some c
  legal  : c.decodeFault k = none
  free   : c.interlock s k = none
  clean  : c.poisoned k = 0

/-! ## The numbers that element statements speak of -/

/-- The number of a code of a binary format whose exponent field is not all ones (R64): its sign, 1.f or 0.f, and its
exponent above the bias. -/
def floatValue (t : Ty) (c : Nat) : ℚ :=
  let ex := natBits c t.fracBits t.expBits
  let frac : ℚ := (c % 2 ^ t.fracBits : Nat) / 2 ^ t.fracBits
  (if c.testBit (t.slot - 1) then -1 else 1) * (if ex = 0 then frac else 1 + frac) * 2 ^ ((max ex 1 : Nat) - t.bias : Int)

/-- A code of a binary format that is neither an infinity nor a NaN (R64). -/
def floatFinite (t : Ty) (c : Nat) : Prop := c < 2 ^ t.slot ∧ natBits c t.fracBits t.expBits ≠ 2 ^ t.expBits - 1

/-- A finite code is the exact number `x` rounded once in a mode (R66): the nearer neighbour with ties to even (0) or away
from zero (4), the neighbour nearer zero (1), toward −∞ (2) or toward +∞ (3), or the neighbour whose significand ends
in 1 (5). -/
def RoundedOnce (t : Ty) (rnd : Nat) (x : ℝ) (c : Nat) : Prop :=
  let v : ℝ := floatValue t c
  let every := fun (P : ℝ → Prop) => ∀ k, floatFinite t k → P (floatValue t k)
  match rnd with
  | 0 => every (fun u => |v - x| ≤ |u - x| ∧ (u ≠ v → |v - x| = |u - x| → c % 2 = 0))
  | 1 => |v| ≤ |x| ∧ every (fun u => |u| ≤ |x| → |u| ≤ |v|)
  | 2 => v ≤ x ∧ every (fun u => u ≤ x → u ≤ v)
  | 3 => x ≤ v ∧ every (fun u => x ≤ u → v ≤ u)
  | 4 => every (fun u => |v - x| ≤ |u - x| ∧ (u ≠ v → |v - x| = |u - x| → |u| < |v|))
  | _ => v = x ∨ (c % 2 = 1 ∧ every (fun u => ¬(v < u ∧ u < x) ∧ ¬(x < u ∧ u < v)))

/-- An integer is the exact number `x` rounded in a mode (R155, R159). -/
def RoundedToInt (rnd : Nat) (x : ℝ) (n : Int) : Prop :=
  match rnd with
  | 0 => |(n : ℝ) - x| ≤ 1 / 2 ∧ (|(n : ℝ) - x| = 1 / 2 → n % 2 = 0)
  | 1 => |(n : ℝ)| ≤ |x| ∧ |(n : ℝ) - x| < 1
  | 2 => n = ⌊x⌋
  | 3 => n = ⌈x⌉
  | 4 => |(n : ℝ) - x| ≤ 1 / 2 ∧ (|(n : ℝ) - x| = 1 / 2 → |x| < |(n : ℝ)|)
  | _ => (n : ℝ) = x ∨ (n % 2 = 1 ∧ |(n : ℝ) - x| < 1)

/-- What a floating-point result says of the exact number `x`: a finite code is `x` rounded once, and NX is set exactly when
it differs; any other code is the infinity of the sign of `x`, and `x` is beyond the largest finite number (R66, R68). -/
def Delivers (t : Ty) (rnd : Nat) (x : ℝ) (res : Nat × BitVec 7) : Prop :=
  (floatFinite t res.1 → RoundedOnce t rnd x res.1 ∧ (res.2.getLsbD 4 = true ↔ (floatValue t res.1 : ℝ) ≠ x)) ∧
  (¬ floatFinite t res.1 → res.1 = t.infCode + (if x < 0 then 2 ^ (t.slot - 1) else 0) ∧
    (floatValue t (t.infCode - 1) : ℝ) < |x| ∧ res.2.getLsbD 4 = true ∧ res.2.getLsbD 2 = true)

/-- The outcome in which the machine becomes `t` and the gang goes on to its next word (R24). -/
def Ctx.leaves (c : Ctx) (t : State) : Host.Outcome State Fault Refusal := .next (c.retire t c.advance)

/-- The outcome in which the issuing wave becomes `w`, and the gang goes on to its next word. -/
def Ctx.leavesWave (c : Ctx) (s : State) (w : Wave) : Host.Outcome State Fault Refusal := c.leaves (s.setWave c.key w)

/-- The outcome in which the machine becomes `t`, where the word has placed the gang's slices itself. -/
def Ctx.places (c : Ctx) (t : State) : Host.Outcome State Fault Refusal :=
  .next (c.retire t (fun w => if c.replay then w.dropReplay c.now else w))

/-- The outcome in which a precise trap of the gang becomes due, and the word has no other effect (R347). -/
def Ctx.traps (c : Ctx) (s : State) (l : List LaneCause) : Host.Outcome State Fault Refusal := .next (c.finish s (.trap l false))

end Sys2Proof.Machine
end

