-- ==== Sys2Proof/Safety.lean ====
section
/-! DEFINITION. What counts as a safe run. -/

namespace Sys2Proof.Machine

/-- A step answers a next state. -/
def State.goesOn (s : State) : Prop := ∃ t, step s = .next t

/-- Every memory of the machine is in canonical form, so that equal memories are equal data: device memory, host memory and
private memory, the control die's upload buffer, the scratchpads of the resident blocks, the cluster regions and the die
scratchpads, and those of the units under a cut. -/
def State.memoryCanonical (s : State) : Prop :=
  Memory.wf s.hbm = true ∧ Memory.wf s.host = true ∧ Memory.wf s.privMem = true ∧ Memory.wf s.control.upbuf = true ∧
  (∀ e ∈ s.blocks, ∀ h ∈ e.2.halves, Memory.wf h.scratch = true) ∧ (∀ e ∈ s.regions, Memory.wf e.2.bytes = true) ∧
  (∀ e ∈ s.dregions, Memory.wf e.2.bytes = true) ∧
  ∀ u ∈ s.cuts, (∀ e ∈ u.saved, ∀ h ∈ e.2.halves, Memory.wf h.scratch = true) ∧ ∀ e ∈ u.regions, Memory.wf e.2.bytes = true

/-- A run is safe when no step of it stops: the only way to stop is a gang that is not there. -/
def SafeRun (s : State) : Prop := ∀ k, ∃ t, Host.Core.run Sys2Proof.core k s = .next t

end Sys2Proof.Machine
end

