-- ==== Sys2Proof/Certificates/Slice0/Obligations.lean ====
section
/-! DEFINITION. The statements about this model for the provers: what its words decode to, what every instruction
and event does, what it leaves unchanged, and what no step can break. -/

open Sys2Proof Sys2Proof.Machine

/-! ## Words and steps -/

/-- In part, after R35, R36, R39, R48, R49: decoding the word of a well-formed encoded instruction gives the instruction
back, with every operand at every value that its encoding admits; and a word that decodes is the word of the
instruction it decodes to, so no bit of it is dropped and no two words decode to one instruction. -/
def Obligations.DecodeAndEncodeAgree : Prop :=
  (∀ i : Instr, i.encoded = true → i.wellFormed = true → decode (encode i) = .ok i) ∧
  (∀ (w : Word) (i : Instr), decode w = .ok i → i.encoded = true ∧ encode i = w)

/-- Words that the spec assembles, from every family (R115, R146, R171, R174, R179, R183, R184, R188, R189, R203, R262,
R314, R343, R354, R376, R394, R414), decode to their instructions. -/
def Obligations.ExampleWordsDecode : Prop :=
  decode 0x480301C0 = .ok (.shl (.v 3) (.v 1) (.s 0)) ∧
  decode 0x4D020100 = .ok (.popc (.v 2) (.v 1)) ∧
  decode 0x4F0201E0 = .ok (.bfe (.v 2) (.v 1) (.lit 0)) ∧
  decode 0x5AC6F200 = .ok (.ballot (.s 6) (.p 2)) ∧
  decode 0x7A0207E0 = .ok (.scmpltn (.s 2) (.s 7) (.lit 0)) ∧
  decode 0x700A0AE0 = .ok (.sadd64 (.s 10) (.s 10) (.lit 0)) ∧
  decode 0x770C05E0 = .ok (.v2s (.s 12) (.v 5) (.lit 0)) ∧
  decode 0x7DF30600 = .ok (.pset (.p 3) (.s 6)) ∧
  decode 0x23040102 = .ok (.fma (.v 4) (.v 1) (.v 2)) ∧
  decode 0x0C00D400 = .ok (.ret (.s 20)) ∧
  decode 0x1200E000 = .ok (.trap (.lit 0)) ∧
  decode 0x1A00D4D6 = .ok (.gfire (.s 20) (.s 22)) ∧
  decode 0x1E000402 = .ok (.digest (.v 4) 2) ∧
  decode 0x80040002 = .ok (.ld (.v 4) (.v 0) false 2) ∧
  decode 0xB100C800 = .ok (.xtile (.s 8)) ∧
  decode 0xBAD40000 = .ok (.estamp (.s 20)) ∧
  decode 0xC0D400D6 = .ok (.mma (.s 20) (.v 0) (.s 22)) ∧
  decode 0xD0D4E900 = .ok (.ctxsv (.s 20) .one)

/-- R49: a word of a reserved opcode decodes to RESERVED_OPCODE, whatever its other fields, and to nothing else; when it
issues, every executing lane takes ILLEGAL_INSTR; and a word of opcodes 0xD0 to 0xD7 with legal operands takes
PRIVILEGE when its wave has no privilege. -/
def Obligations.ReservedAndPrivilegedOpcodes : Prop :=
  (∀ w : Word, (fieldOp w ∈ ([0x1F, 0x7F, 0x9E, 0x9F, 0xAC, 0xAD, 0xAE, 0xAF, 0xBC, 0xBD, 0xBE, 0xBF, 0xCE, 0xCF] :
      List (BitVec 8)) ∨ 0xD8 ≤ (fieldOp w).toNat) ↔ decode w = .ok (.reservedOpcode w)) ∧
  Cause.illegalInstr.code = 3 ∧
  (∀ (w v : Word), decode w = .ok (.reservedOpcode v) → v = w) ∧
  (∀ (s : State) (c : Ctx) (w : Word), s.ctx? = some c →
    exec (.reservedOpcode w) s = c.traps s (causesIn c.src .illegalInstr c.exec)) ∧
  (∀ (s : State) (c : Ctx) (w : Word) (i : Instr), 0xD0 ≤ (fieldOp w).toNat → (fieldOp w).toNat ≤ 0xD7 →
    decode w = .ok i → s.ctx? = some c → (checksOf i c).ok = true → c.w.priv = false →
    exec i s = c.traps s (causesIn c.src .privilege c.exec))

/-- A step at a picked gang runs the instruction that the gang's word decodes to (R24, R90), and a word that is no
instruction takes ILLEGAL_OPERAND in every executing lane (R35, R43). -/
def Obligations.StepRunsDecoded : Prop :=
  ∀ (s : State) (c : Ctx), s.ctx? = some c →
    (∀ i : Instr, decode c.src.word = .ok i → step s = exec i s) ∧
    (∀ e : DecodeError, decode c.src.word = .error e → step s = c.traps s (causesIn c.src .illegalOperand c.exec))

/-- With no gang picked, a step makes one move, which a free value chooses among those that could happen (assumption 6): an
event, one input, one tick of time that passes, news that reaches a wave, the progress of a page walk, or a dropped copy.
A move that is an event runs that event's instruction with the move's operands (`Move.isEvent` lists them). One whose
accesses are translated makes them as its client: while a miss of its client is with the walkers nothing happens, one
that misses sends its misses and has no other effect, and one whose translations are all there uses them up (R233). -/
def Obligations.QuietStepIsOneEvent : Prop :=
  ∀ s : State, s.cur = none → step s = s.drawn.make s.nextMove ∧
    (∀ i : Instr, s.nextMove.isEvent i → i.encoded = false ∧
      (s.drawn.clientOf s.nextMove = none → step s = exec i s.drawn) ∧
      (∀ c, s.drawn.clientOf s.nextMove = some c → s.drawn.asks c.who = true → step s = .next s.drawn) ∧
      (∀ (c : Client) (t : State), s.drawn.clientOf s.nextMove = some c → s.drawn.asks c.who = false →
        exec i { s.drawn with asker := some c } = .next t →
        (t.misses.length ≠ s.misses.length → step s = .next { s.drawn with misses := t.misses }) ∧
        (t.misses.length = s.misses.length → step s = .next { t.useAnswers c.who with asker := s.asker }))) ∧
    ((∃ i : Instr, s.nextMove.isEvent i) ∨ step s = s.drawn.takeInput ∨ step s = .next s.drawn.tick.tryGangs ∨
      (∃ k, step s = .next (s.drawn.wakeWave k)) ∨
      ∃ (cores : Table CoreState) (dies : List Die) (walks : List PageWalk) (n : Nat),
        step s = .next { s.drawn with cores := cores, dies := dies, walks := walks, nextId := n })

/-- The machine never stops: from every state a step answers a next state, so a run of any length is a safe run; and
whatever an encoded word does, it answers a next state in which no gang is picked (R24, R43, R90). -/
def Obligations.StepNeverStops : Prop :=
  (∀ s : State, ∃ t : State, step s = .next t) ∧
  (∀ s : State, SafeRun s) ∧
  (∀ (i : Instr) (s : State) (c : Ctx), i.encoded = true → s.ctx? = some c → ∃ t, exec i s = .next t ∧ t.cur = none)

/-! ## Reset -/

/-- After power-on reset Datum time is 0 (R236), no byte of memory has been written, nothing is placed, no die is
admitted, every fabric watermark is 0 (R408), and the power configuration has its reset value (R440). Its memory is in
canonical form. -/
def Obligations.ResetState : Prop :=
  (State.reset.time = 0 ∧ State.reset.cur = none ∧
   (∀ a, State.reset.hbm.byte a = 0) ∧ (∀ a, State.reset.privMem.byte a = 0) ∧
   State.reset.waves = [] ∧ State.reset.blocks = [] ∧ State.reset.grids = [] ∧ State.reset.parts = [] ∧
   (∀ i < 4, (State.reset.dies.getD i Die.reset).ok = false) ∧
   (∀ i < 21, (State.reset.input i).wmark = 0) ∧ State.reset.dw = 0 ∧
   State.reset.control.pwrcfg = 0x09600A000898#64) ∧
  (State.reset.memoryCanonical)

/-- Every step from a state whose memories are in canonical form leaves them in canonical form, so that states with equal
contents are equal data whatever the machine did: device, host and private memory, the upload buffer, scratchpads,
cluster regions and die scratchpads. -/
def Obligations.MemoryFormIsKeptByEveryStep : Prop :=
  ∀ s t : State, s.memoryCanonical → step s = .next t → t.memoryCanonical

/-! ## Issue -/

/-- In part, after R43: a word whose decode checks fail traps in the lanes that the check names, and has no effect: the
wave's registers, its predicates, MD and FX, and every byte of memory, stand as they were, and the trap is due, with the
causes that the gang's lanes hold from earlier words (R348; assumption 11). The causes are found in code order: ILLEGAL_OPERAND,
PRIVILEGE, REG_RANGE in exactly the executing lanes that name a register beyond the wave's allocation, and then
ILLEGAL_MELD, before a cause that an operand's value gives (R347). -/
def Obligations.DecodeFaults : Prop :=
  (∀ (i : Instr) (s : State) (c : Ctx) (x : LaneCause) (l : List LaneCause), i.encoded = true →
     (∀ w, i ≠ .reservedOpcode w) → s.ctx? = some c → c.decodeFault (checksOf i c) = some (x :: l) →
     ∃ t w', exec i s = .next t ∧ t.waves.get? c.key = some w' ∧ t.cur = none ∧
       w'.due = c.w.due ++ [⟨c.gang, !c.replay, c.src, c.w.joinCauses c.gang (x :: l), false, false⟩] ∧
       w'.causes = c.w.causes.filter (fun y => !c.gang.getLsbD (y.lane / 4)) ∧
       w'.v = c.w.v ∧ w'.s = c.w.s ∧ w'.p = c.w.p ∧ w'.md = c.w.md ∧ w'.fx = c.w.fx ∧ w'.slices = c.w.slices ∧
       w'.memOps = c.w.memOps ∧ w'.specials = c.w.specials ∧
       (∀ k, k ≠ c.key → t.waves.get? k = s.waves.get? k) ∧ (∀ (a : Loc) (n : Nat), t.readLoc a n = s.readLoc a n)) ∧
  (∀ (c : Ctx) (k : Checks),
     let beyond := fun l => c.exec.getLsbD l = true ∧ ∃ e ∈ k.regs, ∃ j < e.2, 8 * c.w.vgran ≤ c.phys (e.1 + j) l
     (k.ok = false → c.decodeFault k = some (causesIn c.src .illegalOperand c.exec)) ∧
     (k.ok = true → k.priv = true → c.w.priv = false → c.decodeFault k = some (causesIn c.src .privilege c.exec)) ∧
     (k.ok = true → (k.priv = true → c.w.priv = true) → (∃ l < 64, beyond l) →
       ∃ m, c.decodeFault k = some (causesIn c.src .regRange m) ∧ ∀ l < 64, m.getLsbD l = true ↔ beyond l) ∧
     (k.ok = true → (k.priv = true → c.w.priv = true) → (∀ l < 64, ¬ beyond l) →
       c.decodeFault k = if c.melded && !k.meld then some (causesIn c.src .illegalMeld c.exec)
         else k.value.map (fun y => causesIn c.src y c.exec)))

/-- In part, after R139, R163: a word all of whose executing lanes read a poisoned register records HW_ERR in those lanes,
has no other effect, and the gang goes on. -/
def Obligations.PoisonedReadsRecordHwErr : Prop :=
  ∀ (i : Instr) (s : State) (c : Ctx), i.encoded = true → (∀ w, i ≠ .reservedOpcode w) → s.ctx? = some c →
    c.decodeFault (checksOf i c) = none → c.interlock s (checksOf i c) = none →
    c.poisoned (checksOf i c) = c.exec → c.exec ≠ 0 →
    exec i s = c.leaves (s.modWave c.key (fun w => w.record (causesIn c.src .hwErr c.exec)))

/-- In part, after R24, R361, R381, R386: what an issue counts, and where the gang stands after it. The wave's order of
issue rises by one and so does the count of its quantum; its block's RETI rises by one and its charge by the issue
cycles; every byte of memory and every other wave is what the word's effect left. After a word that is not its
clause's last, the slices of the gang stand at the clause's next word; after the last, at the clause that follows the
header, body and literals, which is yet to be fetched. Other slices stay. -/
def Obligations.IssueAdvances : Prop :=
  (∀ (s t : State) (c : Ctx) (w : Wave) (b : Block), s.ctx? = some c → t.waves.get? c.key = some w →
     t.blocks.get? c.w.block = some b →
     (c.retire t c.advance).waves.get? c.key = some (c.advance (w.counted (t.quantum c.blk))) ∧
     (w.counted (t.quantum c.blk)).seq = w.seq + 1 ∧
     (c.retire t c.advance).blocks.get? c.w.block =
       some { b with reti := b.reti + 1, charge := b.charge + 384 * issueCycles c.gang } ∧
     (∀ k, k ≠ c.key → (c.retire t c.advance).waves.get? k = t.waves.get? k) ∧
     (∀ k, k ≠ c.w.block → (c.retire t c.advance).blocks.get? k = t.blocks.get? k) ∧
     (∀ (a : Loc) (n : Nat), (c.retire t c.advance).readLoc a n = t.readLoc a n) ∧
     (c.retire t c.advance).time = t.time ∧ (c.retire t c.advance).cur = none) ∧
  (∀ (s : State) (c : Ctx) (w : Wave) (i : Nat) (x : Slice), s.ctx? = some c → c.replay = false →
     w.slices[i]? = some x → i < 16 →
     (c.gang.getLsbD i = false → (c.advance w).slices[i]? = some x) ∧
     (c.gang.getLsbD i = true → c.src.widx < hdrBody c.src.hdr →
       (c.advance w).slices[i]? = some { x with word := c.src.widx + 1, age := 0, stalled := none }) ∧
     (c.gang.getLsbD i = true → hdrBody c.src.hdr ≤ c.src.widx →
       (c.advance w).slices[i]? = some { x with
         pc := c.src.claddr + 4#64 * BitVec.ofNat 64 (hdrLen c.src.hdr), word := 0, cl := [], age := 0, stalled := none
         stood := 0, redirect := false }))

/-! ## Registers -/

/-- In part, after R2, R40, R139, R163, R164: what a write of registers reaches. Of `k` vector registers, in each lane of
the mask register n + i holds bits [32i+31:32i] of the lane's value, and every other lane-register, and every lane
outside the mask, keeps its own; `k` scalar registers from n take the 32-bit parts of a value, lowest first; a written
register holds no poison; and a predicate write changes only the bits of the mask's lanes below the wave's width. -/
def Obligations.RegisterWrites : Prop :=
  (∀ (c : Ctx) (w : Wave) (n k : Nat) (m : LaneMask) (f : Nat → Nat), k ≤ 2 →
     (∀ l i, l < 64 → m.getLsbD l = true → i < k →
       (c.vwrite w n k m f).v.get (vKey (c.phys (n + i) l) l) = BitVec.ofNat 32 (f l / 2 ^ (32 * i))) ∧
     (∀ r l, l < 64 → (m.getLsbD l = false ∨ ∀ i < k, r ≠ c.phys (n + i) l) →
       (c.vwrite w n k m f).v.get (vKey r l) = w.v.get (vKey r l)) ∧
     (∀ r l, l < 64 → (vKey r l ∈ (c.vwrite w n k m f).vpoison ↔
       vKey r l ∈ w.vpoison ∧ (m.getLsbD l = false ∨ ∀ i < k, r ≠ c.phys (n + i) l)))) ∧
  (∀ (w : Wave) (n k x : Nat),
     (∀ i < k, (w.swrite n k x).s.get (n + i) = BitVec.ofNat 32 (x / 2 ^ (32 * i))) ∧
     (∀ r, (r < n ∨ n + k ≤ r) → (w.swrite n k x).s.get r = w.s.get r) ∧
     (w.swrite n k x).sread n k = x % 2 ^ (32 * k) ∧
     (∀ r, r ∈ (w.swrite n k x).spoison ↔ r ∈ w.spoison ∧ (r < n ∨ n + k ≤ r))) ∧
  (∀ (w : Wave) (n : Nat) (m b : LaneMask),
     (∀ l < 64, ((w.pwrite n m b).p.get n).getLsbD l =
       if m.getLsbD l && decide (l < w.width) then b.getLsbD l else (w.p.get n).getLsbD l) ∧
     (∀ q, q ≠ n → (w.pwrite n m b).p.get q = w.p.get q))

/-! ## Memory -/

/-- In part, after R2: memory is little-endian. Storing the `n` bytes of a value puts bits [8i+7:8i] at address a + i, a
load of the same bytes gives the value back, and no other byte changes. A write of any bytes keeps a memory in
canonical form, and two memories in canonical form that read alike at every address are equal data. -/
def Obligations.MemoryIsLittleEndian : Prop :=
  (∀ (m : Memory) (a n x : Nat),
     (∀ i < n, (m.store a n x).byte (a + i) = BitVec.ofNat 8 (x / 2 ^ (8 * i))) ∧
     (m.store a n x).load a n = x % 2 ^ (8 * n) ∧
     (∀ b, (b < a ∨ a + n ≤ b) → (m.store a n x).byte b = m.byte b)) ∧
  ((∀ (m : Memory) (a n x : Nat), m.wf = true → (m.store a n x).wf = true) ∧
   (∀ (m : Memory) (a n : Nat), m.wf = true → Memory.wf (ZMap.clear (n := 8) m a n) = true) ∧
   (∀ m k : Memory, m.wf = true → k.wf = true → (∀ a, m.byte a = k.byte a) → m = k))

/-- In part, after R2, R218: a store at a place of the machine reads back there, and no place that it does not overlap
changes: global memory, a block's scratchpad, cluster memory, a die's scratchpad, and private memory alike. -/
def Obligations.PlacesReadBackTheirStores : Prop :=
  ∀ (s : State) (l : Loc) (n x : Nat),
    (match l with
      | .untranslated => False
      | .scratch b h _ => ∃ y, s.blocks.get? b = some y ∧ h < y.halves.length
      | .region id _ => ∃ y, s.regions.get? id = some y
      | .dieStore id _ => ∃ y, s.dregions.get? id = some y
      | .global _ _ | .priv _ => True) →
    (s.writeLoc l n x).readLoc l n = x % 2 ^ (8 * n) ∧
    ∀ (k : Loc) (m : Nat), l.overlaps n k m = false → (s.writeLoc l n x).readLoc k m = s.readLoc k m

/-! ## Vector arithmetic -/

/-- In part, after R146: ADD, SUB, MUL, FMA, FMS, FNMA, MIN, MAX, ABS and NEG complete: every element of d in the lanes in
`act` becomes the operation's result on the elements of a, b and d, FX gains the flags of those elements, and nothing
else of the machine changes but what an issue counts. -/
def Obligations.ArithmeticResults : Prop :=
  ∀ (s : State) (c : Ctx) (d a b : VCode) (i : Instr) (op : ArithOp) (y : Option VCode),
    (i, op, y) ∈ ([(.add d a b, .add, some b), (.sub d a b, .sub, some b), (.mul d a b, .mul, some b),
      (.fma d a b, .fma, some b), (.fms d a b, .fms, some b), (.fnma d a b, .fnma, some b), (.min d a b, .min, some b),
      (.max d a b, .max, some b), (.abs d a, .abs, none), (.neg d a, .neg, none)] : List (Instr × ArithOp × Option VCode)) →
    Issues s c (checksOf i c) →
    exec i s = c.leavesWave s ((c.vwrite c.w d.vNum (mdType c.w.md).words c.act
      (unitFrom (mdType c.w.md) (c.arithElem op d a y))).raise
        (flagsFrom (mdType c.w.md).count c.act (c.arithElem op d a y)))

/-- In part, after R64, R66, R68, R76, R140, R146, R148, R155, R158, R159: one element. Of an integer type: without saturation
the result is the exact one modulo 2^bits and no flag rises; with saturation it is the exact one clamped to the type's
range, and SA rises when that changed it. Of a binary format, with finite operands and neither saturation nor FSUB: ADD is
a + b, SUB a − b, MUL a × b, FMA a × b + d, FMS a × b − d, FNMA −(a × b) + d, MIN and MAX the lesser and the greater, ABS
and NEG |a| and −a, DIV a / b, RCP 1 / a, SQRT √a, RSQ 1 / √a, SCALE a × 2^n, CVT from a binary or integer type the value
itself, EXP2 of an integer n 2^n and LOG2 of 2^n n, each rounded once from its exact value in the mode, and NX says that it
differs; RINT gives the value of an integer rounded so, and CVT to an integer type clamps it. (EXP2, LOG2 and TANH at their
other operands rest on assumption 20.) An element put in its place of a unit is read back there, for every type. -/
def Obligations.ArithmeticElements : Prop :=
  (∀ (op : ArithOp) (t : Ty) (r : Round) (a b d : Nat) (x : ℝ), t.isFloat = true → r.sat = false → r.fsub = false →
     floatFinite t a → floatFinite t b → floatFinite t d →
     let p : ℝ := floatValue t a
     let q : ℝ := floatValue t b
     let z : ℝ := floatValue t d
     (op, x) ∈ ([(.add, p + q), (.sub, p - q), (.mul, p * q), (.fma, p * q + z), (.fms, p * q - z), (.fnma, -(p * q) + z),
       (.min, min p q), (.max, max p q), (.abs, |p|), (.neg, -p)] : List (ArithOp × ℝ)) →
     Delivers t r.rnd x (elemArith op t r a b d)) ∧
  (∀ (t : Ty) (r : Round) (a b : Nat), t.isFloat = true → r.sat = false → r.fsub = false → floatFinite t a → floatFinite t b →
     let p : ℝ := floatValue t a
     let q : ℝ := floatValue t b
     (q ≠ 0 → Delivers t r.rnd (p / q) (elemSpecial .div t r a b)) ∧
     (p ≠ 0 → Delivers t r.rnd (1 / p) (elemSpecial .rcp t r a b)) ∧
     (0 ≤ p → Delivers t r.rnd (Real.sqrt p) (elemSpecial .sqrt t r a b)) ∧
     (0 < p → Delivers t r.rnd (1 / Real.sqrt p) (elemSpecial .rsq t r a b)) ∧
     (∀ n : Int, p = n → Delivers t r.rnd (2 ^ n) (elemSpecial .exp2 t r a b)) ∧
     (∀ n : Int, p = 2 ^ n → Delivers t r.rnd n (elemSpecial .log2 t r a b)) ∧
     (∀ n : Int, Delivers t r.rnd (p * 2 ^ n) (elemScale t r a n)) ∧
     (∀ u : Ty, u.isFloat = true → Delivers u r.rnd p (elemConvert t u r a)) ∧
     (∃ n : Int, RoundedToInt r.rnd p n ∧ floatFinite t (elemRint t r a).1 ∧ (floatValue t (elemRint t r a).1 : ℝ) = n) ∧
     (∀ u : Ty, u.isInt = true → ∃ n : Int, RoundedToInt r.rnd p n ∧
       intOf u (elemConvert t u r a).1 = max u.intMin (min u.intMax n) ∧
       ((elemConvert t u r a).2.getLsbD 5 = true ↔ n < u.intMin ∨ u.intMax < n))) ∧
  (∀ (t u : Ty) (r : Round) (a : Nat), t.isInt = true → u.isFloat = true → r.sat = false → r.fsub = false →
     Delivers u r.rnd (intOf t a) (elemConvert t u r a)) ∧
  (∀ (op : ArithOp) (t : Ty) (r : Round) (a b d : Nat), t.isInt = true →
     let x := intArith op (intOf t a) (intOf t b) (intOf t d)
     (r.sat = false → ((elemArith op t r a b d).1 : Int) = x % 2 ^ t.bits ∧ (elemArith op t r a b d).2 = 0) ∧
     (r.sat = true → t.intMin ≤ x → x ≤ t.intMax →
       intOf t (elemArith op t r a b d).1 = x ∧ (elemArith op t r a b d).2 = 0) ∧
     (r.sat = true → x < t.intMin → intOf t (elemArith op t r a b d).1 = t.intMin ∧ (elemArith op t r a b d).2 = fxSA) ∧
     (r.sat = true → t.intMax < x → intOf t (elemArith op t r a b d).1 = t.intMax ∧ (elemArith op t r a b d).2 = fxSA)) ∧
  (∀ (t : Ty) (f : Nat → Nat) (j : Nat), j < t.count → (∀ k < t.count, f k < 2 ^ t.bits) →
     elemAt t (unitOf t ((List.range t.count).map f)) j = f j)

/-- In part, after R148, R31: RCP, RSQ, SQRT, EXP2, LOG2, TANH and DIV complete: the clause's SETA flag rises, and the
results of their operands at issue and their flags wait for SPECIAL_COMPLETE, in a deterministic launch too. -/
def Obligations.SpecialFunctionResults : Prop :=
  ∀ (s : State) (c : Ctx) (d a b : VCode) (i : Instr) (fn : SpecialFn) (y : VCode),
    (i, fn, y) ∈ ([(.rcp d a, .rcp, .zero), (.rsq d a, .rsq, .zero), (.sqrt d a, .sqrt, .zero), (.exp2 d a, .exp2, .zero),
      (.log2 d a, .log2, .zero), (.tanh d a, .tanh, .zero), (.div d a b, .div, b)] : List (Instr × SpecialFn × VCode)) →
    Issues s c (checksOf i c) →
    let t := mdType c.w.md
    let cells := c.vcells d.vNum t.words c.act (unitFrom t (c.specialElem fn a y))
    let fx := flagsFrom t.count c.act (c.specialElem fn a y)
    exec i s = c.leavesWave s { c.w.flagUp (hdrSetA c.src.hdr) with
      specials := c.w.specials ++ [⟨c.src.ord, c.now, hdrSetA c.src.hdr, cells, fx, c.gang⟩] }

/-- In part, after R150, R151: CMPEQ, CMPNE, CMPLT, CMPLE, CMPUN and CLASS complete: a predicate destination takes, in the
lanes in `act`, whether the relation holds of every element; a v destination takes all ones or zeros element by
element. -/
def Obligations.CompareResults : Prop :=
  ∀ (s : State) (c : Ctx) (d a b : VCode) (i : Instr) (h : Nat → Nat → Bool × BitVec 7),
    let t := mdType c.w.md
    let rel := fun (op : CmpOp) (l j : Nat) => elemCompare op t (mdRound c.w.md) (c.elem t a l j) (c.elem t b l j)
    ((i = .cmpeq d a b ∧ h = rel .eq) ∨ (i = .cmpne d a b ∧ h = rel .ne) ∨ (i = .cmplt d a b ∧ h = rel .lt) ∨
      (i = .cmple d a b ∧ h = rel .le) ∨ (i = .cmpun d a b ∧ h = rel .un) ∨
      (i = .classify d a b ∧ h = fun l j => (natBits (c.operand .raw b l) (elemClass t (c.elem t a l j)) 1 == 1, 0))) →
    Issues s c (checksOf i c) →
    let fx := flagsFrom t.count c.act (fun l j => (0, (h l j).2))
    (∀ n, d = .p n → exec i s = c.leavesWave s ((c.w.pwrite n c.act
      (maskWhere 64 (fun l => (List.range t.count).all (fun j => (h l j).1)))).raise fx)) ∧
    (∀ n, d = .v n → exec i s = c.leavesWave s ((c.vwrite c.w n t.words c.act
      (unitFrom t (fun l j => (if (h l j).1 then 2 ^ t.bits - 1 else 0, 0)))).raise fx))

/-- In part, after R154 to R160: CVT, SCALE, RINT, FRXP, ENCT and DECT complete with the results of their rules in the
lanes in `act`. CVT's elements lie where R154's three cases put them, and those that it keeps keep their value (the T6
container bits of kept elements: assumption 103); the values of the examples of R155, R157, R159 and R160 are theirs. -/
def Obligations.ConvertResults : Prop :=
  (∀ (t u : Ty) (r : Round) (src dst part j : Nat), j < u.count → cvtPartOk t.count u.count part = true →
    elemAt u (cvtUnit t u r src dst part).1 j =
      if t.count = u.count then (elemConvert t u r (elemAt t src j)).1 % 2 ^ u.bits
      else if t.count < u.count then
        (if part * t.count ≤ j ∧ j < (part + 1) * t.count then (elemConvert t u r (elemAt t src (j - part * t.count))).1 % 2 ^ u.bits
         else elemAt u dst j)
      else (elemConvert t u r (elemAt t src (part * u.count + j))).1 % 2 ^ u.bits) ∧
  (cvtUnit .f32 .bf16 ⟨0, false, false⟩ 0x3F808000 0 0 = (0x3F80, fxNX) ∧
   cvtUnit .f32 .bf16 ⟨0, false, false⟩ 0x40400000 0x3F80 1 = (0x40403F80, 0) ∧
   (cvtUnit .f32 .bf16 ⟨3, false, false⟩ 0x3F808000 0 0).1 = 0x3F81 ∧
   enctCode .t8 ⟨0, false, false⟩ 0x3EC00000 0x40800000 = (0x48, 0) ∧
   enctCode .t8 ⟨0, false, false⟩ 0xBF4CCCCD 0x40800000 = (0xDA, fxNX) ∧
   enctCode .t8 ⟨0, false, false⟩ 0x42C80000 0x40800000 = (0x7D, fxNX) ∧
   enctCode .t8 ⟨0, false, false⟩ 0x44FA0000 0x40800000 = (0x7F, fxSA ||| fxNX) ∧ dectCode .t8 0x7D = 0x44000000 ∧
   (elemRint .t6 ⟨0, false, false⟩ 0x12).1 = 0x14 ∧ (elemRint .t6 ⟨5, false, false⟩ 0x12).1 = 0x10 ∧
   (elemExponent .f32 ⟨0, false, false⟩ 1).1 = 0xFFFFFF6B) ∧
  ∀ (s : State) (c : Ctx) (d a b : VCode),
    let t := mdType c.w.md
    let u := mdType2 c.w.md
    let r := mdRound c.w.md
    let elems := fun (t : Ty) (f : Nat → Nat → Nat × BitVec 7) =>
      c.leavesWave s ((c.vwrite c.w d.vNum t.words c.act (unitFrom t f)).raise (flagsFrom t.count c.act f))
    (∀ part : BitVec 3, Issues s c (checksOf (.cvt d a part) c) →
      let f := fun l => cvtUnit t u r (c.operand (.typed t) a l) (c.vread d.vNum u.words l) part.toNat
      exec (.cvt d a part) s = c.leavesWave s ((c.vwrite c.w d.vNum u.words c.act (fun l => (f l).1)).raise
        (flagsFrom 1 c.act (fun l _ => f l)))) ∧
    (Issues s c (checksOf (.scale d a b) c) →
      exec (.scale d a b) s = elems t (fun l j => elemScale t r (c.elem t a l j) (signedOf 32 (c.operand .raw b l)))) ∧
    (Issues s c (checksOf (.rint d a) c) → exec (.rint d a) s = elems t (fun l j => elemRint t r (c.elem t a l j))) ∧
    (Issues s c (checksOf (.frxp d a 0) c) →
      exec (.frxp d a 0) s = elems t (fun l j => elemSignificand t r (c.elem t a l j))) ∧
    (Issues s c (checksOf (.frxp d a 1) c) →
      exec (.frxp d a 1) s = elems t.exponentTy (fun l j => elemExponent t r (c.elem t a l j))) ∧
    (Issues s c (checksOf (.enct d a b) c) →
      let f := fun l => enctCode u r (c.operand (.typed .f32) a l) (c.operand (.typed .f32) b l)
      exec (.enct d a b) s = c.leavesWave s ((c.vwrite c.w d.vNum 1 c.act
        (fun l => c.vread d.vNum 1 l / 256 + (f l).1 * 2 ^ 24)).raise (flagsFrom 1 c.act (fun l _ => f l)))) ∧
    (∀ byte : BitVec 2, Issues s c (checksOf (.dect d a byte) c) →
      exec (.dect d a byte) s = c.leavesWave s (c.vwrite c.w d.vNum 1 c.act
        (fun l => dectCode u (natBits (c.operand .raw a l) (8 * byte.toNat) u.bits))))

/-- In part, after R152, R153, R161: MOV passes the unit of a unchanged in the lanes in `act`; SEL gives every executing
lane a or b by its guard, and a lane that reads a poisoned register of the operand chosen records HW_ERR; FXR gives
FX's old value and clears the bits that a names (in a melded gang as its first lane reads them: log entry 77, read from the
spec by inference), and waits while a counted operation that may set FX is outstanding. -/
def Obligations.MoveResults : Prop :=
  ∀ (s : State) (c : Ctx) (d a b : VCode),
    let t := mdType c.w.md
    (Issues s c (checksOf (.mov d a) c) →
      exec (.mov d a) s = c.leavesWave s (c.vwrite c.w d.vNum t.words c.act (c.operand (.typed t) a))) ∧
    (Issues s c (checksOf (.sel d a b) c) →
      let hw := c.poisonedIn (c.exec &&& c.guard) t.words a ||| c.poisonedIn (c.exec &&& ~~~c.guard) t.words b
      exec (.sel d a b) s = c.leavesWave s ((c.vwrite c.w d.vNum t.words (c.exec &&& ~~~hw)
        (fun l => if c.guard.getLsbD l then c.operand (.typed t) a l else c.operand (.typed t) b l)).record
          (causesIn c.src .hwErr hw))) ∧
    (Issues s c (checksOf (.fxr d a) c) → c.fxQuiet = true →
      let w := { c.w with fx := c.w.fx &&& ~~~(BitVec.ofNat 7 (c.operand .raw a (firstSlice c.gang * 4))) }
      (∀ n, d = .s n → exec (.fxr d a) s = c.leavesWave s (w.swrite n 1 c.w.fx.toNat)) ∧
      (∀ n, d = .v n → exec (.fxr d a) s = c.leavesWave s (c.vwrite w n 1 c.exec (fun _ => c.w.fx.toNat)))) ∧
    (Issues s c (checksOf (.fxr d a) c) → c.fxQuiet = false → exec (.fxr d a) s = .next (c.wait s)) ∧
    (c.fxQuiet = false ↔ c.w.specials ≠ [] ∨
      ∃ o ∈ c.half.tops, o.wave = c.key ∧ ((∃ n, o.kind = .acld n) ∨ ∃ f, o.kind = .acsp f))

/-! ## Integer, bit and lane instructions -/

/-- In part, after R171: AND, OR, XOR and NOT act on whole units; SHL, SHR, SHA, ROT, CLZ, POPC and BREV on each element
of an integer type. They complete and set no flag. -/
def Obligations.BitwiseResults : Prop :=
  ∀ (s : State) (c : Ctx) (d a b : VCode) (i : Instr) (op : BitOp) (y : Option VCode),
    let t := mdType c.w.md
    ((i, op, y) ∈ ([(.and d a b, .and, some b), (.or d a b, .or, some b), (.xor d a b, .xor, some b), (.not d a, .not, none)] :
      List (Instr × BitOp × Option VCode)) → Issues s c (checksOf i c) →
      exec i s = c.leavesWave s (c.vwrite c.w d.vNum t.words c.act (fun l => elemBit op (32 * t.words)
        (c.operand (.typed t) a l) ((y.map (fun b => c.operand (.typed t) b l)).getD 0)))) ∧
    ((i, op, y) ∈ ([(.shl d a b, .shl, some b), (.shr d a b, .shr, some b), (.sha d a b, .sha, some b),
      (.rot d a b, .rot, some b), (.clz d a, .clz, none), (.popc d a, .popc, none), (.brev d a, .brev, none)] :
      List (Instr × BitOp × Option VCode)) → Issues s c (checksOf i c) →
      exec i s = c.leavesWave s ((c.vwrite c.w d.vNum t.words c.act (unitFrom t (fun l j =>
        (elemBit op t.bits (c.elem t a l j) ((y.map (fun b => c.elem t b l j)).getD 0), 0)))).raise 0))

/-- After R171's table: the result for an element of width w, with the amount n. R174: BFE and SBFE extract bits
[O+W-1:O], zero-filled, or filled with the field's top bit when SX is 1; BFI replaces the bits of d from O upward with
the low W bits of a, and W = 0 leaves d unchanged. R175: bit k of the carry-less product is the parity of the pairs of
set bits whose places sum to k. -/
def Obligations.BitTables : Prop :=
  (∀ w a n : Nat, 0 < w → w ≤ 64 → a < 2 ^ w →
     (∀ i < w, (elemBit .not w a n).testBit i = !a.testBit i) ∧
     elemBit .shl w a n = (if w ≤ n then 0 else a * 2 ^ n % 2 ^ w) ∧
     elemBit .shr w a n = (if w ≤ n then 0 else a / 2 ^ n) ∧
     (∀ i < w, (elemBit .sha w a n).testBit i = a.testBit (min (i + min n (w - 1)) (w - 1))) ∧
     (∀ i < w, (elemBit .rot w a n).testBit ((i + n) % w) = a.testBit i) ∧
     (∀ i < w, (elemBit .brev w a n).testBit i = a.testBit (w - 1 - i)) ∧
     elemBit .popc w a n = ((List.range w).filter (fun i => a.testBit i)).length ∧
     (elemBit .clz w a n ≤ w ∧ a < 2 ^ (w - elemBit .clz w a n) ∧
       (a ≠ 0 → a.testBit (w - 1 - elemBit .clz w a n) = true)) ∧
     elemBit .sha w a n < 2 ^ w ∧ elemBit .rot w a n < 2 ^ w ∧ elemBit .brev w a n < 2 ^ w ∧ elemBit .not w a n < 2 ^ w) ∧
  (∀ d a ctl : Nat, d < 2 ^ 32 → a < 2 ^ 32 →
     let o := natBits ctl 0 5
     let w := min (natBits ctl 8 6) 32
     (∀ i < 32, (bitFieldExtract a ctl).testBit i =
       if i < w then decide (i + o < 32) && a.testBit (i + o)
       else decide (natBits ctl 16 1 = 1 ∧ 0 < w ∧ w - 1 + o < 32) && a.testBit (w - 1 + o)) ∧
     bitFieldExtract a ctl < 2 ^ 32 ∧
     (∀ i < 32, (bitFieldInsert d a ctl).testBit i = if o ≤ i ∧ i < o + w then a.testBit (i - o) else d.testBit i) ∧
     bitFieldInsert d a ctl < 2 ^ 32) ∧
  (∀ a b : Nat, a < 2 ^ 32 → b < 2 ^ 32 → clmulNat a b < 2 ^ 63 ∧
     ∀ k, (clmulNat a b).testBit k =
       ((List.range 32).foldl (fun acc i => acc ^^ (b.testBit i && decide (i ≤ k) && a.testBit (k - i))) false))

/-- In part, after R172: ADDC and SUBB complete: in each lane in `act` the destination takes the sum or difference of x, y
and p7 modulo 2^32, and p7 takes the carry or the borrow; other lanes keep both. -/
def Obligations.CarryChain : Prop :=
  ∀ (s : State) (c : Ctx) (d a b : VCode) (i : Instr) (sub : Bool),
    (i = .addc d a b ∧ sub = false) ∨ (i = .subb d a b ∧ sub = true) → Issues s c (checksOf i c) →
    let x := fun l => (c.operand .raw a l : Int)
    let y := fun l => (c.operand .raw b l : Int)
    let p := fun l => if (c.w.p.get 7).getLsbD l then (1 : Int) else 0
    ∃ w' : Wave, exec i s = c.leavesWave s w' ∧
      (∀ l < 64, c.act.getLsbD l = true → l < c.w.width →
        ((w'.v.get (vKey (c.phys d.vNum l) l)).toNat : Int) =
          (if sub then x l - y l - p l else x l + y l + p l) % 2 ^ 32 ∧
        (w'.p.get 7).getLsbD l = if sub then decide (x l - y l - p l < 0) else decide (2 ^ 32 ≤ x l + y l + p l)) ∧
      (∀ l < 64, c.act.getLsbD l = false → (∀ r, w'.v.get (vKey r l) = c.w.v.get (vKey r l)) ∧
        (w'.p.get 7).getLsbD l = (c.w.p.get 7).getLsbD l) ∧
      (∀ q, q ≠ 7 → w'.p.get q = c.w.p.get q) ∧ w'.s = c.w.s ∧ w'.fx = c.w.fx ∧ w'.md = c.w.md

/-- In part, after R173 to R176: MULHI, MULW, BFE, BFI, CLMUL, CLMULH, DOT4 and DOT2 complete with the results of their
rules in the lanes in `act`; a dot product is the exact sum of the products of the elements, each read with its own sign. -/
def Obligations.WideIntegerResults : Prop :=
  (∀ (w a b : Nat) (sa sb : Bool),
    let read := fun (signed : Bool) (x j : Nat) =>
      if signed then signedOf w (x / 2 ^ (w * j) % 2 ^ w) else ((x / 2 ^ (w * j) % 2 ^ w : Nat) : Int)
    dotExact w a b sa sb = ((List.range (32 / w)).map (fun j => read sa a j * read sb b j)).sum) ∧
  ∀ (s : State) (c : Ctx) (d a b : VCode),
    let t := mdType c.w.md
    let words := fun (f : Nat → Nat) => c.leavesWave s (c.vwrite c.w d.vNum 1 c.act f)
    let dot := fun l => reduceInt .s32 (mdSat c.w.md) (signedOf 32 (c.vread d.vNum 1 l) +
      dotExact t.slot (c.operand (.typed t) a l) (c.operand (.typed t) b l) (mdSgnA c.w.md) (mdSgnB c.w.md))
    (Issues s c (checksOf (.mulhi d a b) c) →
      exec (.mulhi d a b) s = c.leavesWave s ((c.vwrite c.w d.vNum t.words c.act (unitFrom t (fun l j =>
        (intBits t.bits (intOf t (c.elem t a l j) * intOf t (c.elem t b l j) / (2 ^ t.bits : Nat)), 0)))).raise 0)) ∧
    (Issues s c (checksOf (.mulw d a b) c) →
      exec (.mulw d a b) s = c.leavesWave s (c.vwrite c.w d.vNum 2 c.act (fun l =>
        (List.range t.count).foldr (fun j acc =>
          intBits (2 * t.bits) (intOf t (c.elem t a l j) * intOf t (c.elem t b l j)) + 2 ^ (2 * t.bits) * acc) 0))) ∧
    (Issues s c (checksOf (.bfe d a b) c) →
      exec (.bfe d a b) s = words (fun l => bitFieldExtract (c.operand .raw a l) (c.operand .raw b l))) ∧
    (Issues s c (checksOf (.bfi d a b) c) →
      exec (.bfi d a b) s = words (fun l => bitFieldInsert (c.vread d.vNum 1 l) (c.operand .raw a l) (c.operand .raw b l))) ∧
    (Issues s c (checksOf (.clmul d a b) c) →
      exec (.clmul d a b) s = words (fun l => clmulNat (c.operand .raw a l) (c.operand .raw b l) % 2 ^ 32)) ∧
    (Issues s c (checksOf (.clmulh d a b) c) →
      exec (.clmulh d a b) s = words (fun l => clmulNat (c.operand .raw a l) (c.operand .raw b l) / 2 ^ 32)) ∧
    (∀ i ∈ ([.dot4 d a b, .dot2 d a b] : List Instr), Issues s c (checksOf i c) →
      exec i s = c.leavesWave s ((c.vwrite c.w d.vNum 1 c.act (fun l => (dot l).1)).raise
        (flagsFrom 1 c.act (fun l _ => dot l))))

/-- In part, after R85, R177 to R182: SHFL, SHFLX and BCAST give each lane in `act` the value of its source lane, its own
where that lane does not execute; WRED and WSCAN give the totals of the tree of R85, whose levels combine adjacent members
and pass an only one up unchanged; BALLOT gathers one bit per lane in `act` (its operand and SPCMP's metadata are raw
patterns: assumptions 132 and 37); PAND, POR and PXOR combine predicates bit by bit in the lanes in `act`; SPSEL gives the kept elements,
the metadata or the packed elements, and keeps of each group the two with the largest magnitudes, the lower index first;
SPCMP tells whether the metadata equals that of b. The values of R85's and R181's examples are theirs. -/
def Obligations.LaneAndPredicateResults : Prop :=
  (∀ (op : RedOp) (t : Ty) (r : Round) (n x y : Nat) (v : Option Nat) (l : List (Option Nat)),
     let up := redLevel op t r l
     redLevel op t r (some x :: some y :: l) = (some (redUnits op t r x y).1 :: up.1, up.2 ||| (redUnits op t r x y).2) ∧
     redLevel op t r (some x :: none :: l) = (some x :: up.1, up.2) ∧ redLevel op t r (none :: v :: l) = (v :: up.1, up.2) ∧
     redLevel op t r [v] = ([v], 0) ∧ redLevel op t r [] = ([], 0) ∧ redTree op t r 0 (v :: l) = (v, 0) ∧
     redTree op t r (n + 1) l = ((redTree op t r n up.1).1, up.2 ||| (redTree op t r n up.1).2)) ∧
  (let lanes := fun (n : Nat) => (List.range 16).map (fun l => if l = 0 ∧ l < n then some 0x4B800000 else if l < n then some 0x3F800000 else none)
   (∀ n ∈ [1, 2, 3], (redTree .add .f32 ⟨0, false, false⟩ 6 (lanes n)).1 = some 0x4B800000) ∧
   (redTree .add .f32 ⟨0, false, false⟩ 6 (lanes 4)).1 = some 0x4B800001) ∧
  (∀ (t : Ty) (a b c d : Nat),
     let g := [a, b, c, d]
     let p := keptPair t g
     p.1 < p.2 ∧ p.2 < 4 ∧ ∀ k < 4, k ≠ p.1 → k ≠ p.2 → ∀ m, m = p.1 ∨ m = p.2 →
       magnitudeKey t (g.getD k 0) < magnitudeKey t (g.getD m 0) ∨
       (magnitudeKey t (g.getD k 0) = magnitudeKey t (g.getD m 0) ∧ m < k)) ∧
  (∀ (t : Ty) (a b : Nat),
     (t.isInt = true → magnitudeKey t a = (intOf t a).natAbs) ∧
     (t.isFloat = true → floatFinite t a → floatFinite t b →
       (magnitudeKey t a ≤ magnitudeKey t b ↔ |floatValue t a| ≤ |floatValue t b|)) ∧
     (t.isFloat = true → ¬ floatFinite t a → a % 2 ^ t.fracBits ≠ 0 → floatFinite t b → a < 2 ^ t.slot →
       magnitudeKey t b < magnitudeKey t a)) ∧
  (sparseKept .s8 0x05FB0305 = 0x00FB0005 ∧ sparseMeta .s8 0x05FB0305 = 8 ∧ sparsePacked .s8 0x05FB0305 = 0xFB05 ∧
   sparseMeta .n8 0x05FB0305 = 8) ∧
  (∀ (s : State) (c : Ctx) (d a b : VCode),
     let t := mdType c.w.md
     let from_ := fun (src : Nat → Nat) => c.leavesWave s (c.vwrite c.w d.vNum t.words c.act (fun l =>
       if c.exec.getLsbD (src l % c.w.width) then c.operand (.typed t) a (src l % c.w.width) else c.operand (.typed t) a l))
     let tree := fun (op : BitVec 3) (m : LaneMask) => redTree (RedOp.ofCode op.toNat) t (mdRound c.w.md) 6 (c.redMembers m a)
     (Issues s c (checksOf (.shfl d a b) c) → exec (.shfl d a b) s = from_ (fun l => c.operand .raw b l)) ∧
     (Issues s c (checksOf (.shflx d a b) c) → exec (.shflx d a b) s = from_ (fun l => l ^^^ c.operand .raw b l)) ∧
     (Issues s c (checksOf (.bcast d a b) c) → exec (.bcast d a b) s = from_ (fun _ => c.operand .raw b 0)) ∧
     (∀ op : BitVec 3, Issues s c (checksOf (.wred d a op) c) →
       (∀ n, d = .v n → exec (.wred d a op) s = c.leavesWave s ((c.vwrite c.w n t.words c.act (fun _ =>
         (tree op c.act).1.getD (redIdentity (RedOp.ofCode op.toNat) t))).raise (tree op c.act).2)) ∧
       (∀ n, d = .s n → exec (.wred d a op) s = c.leavesWave s ((c.w.swrite n t.words
         ((tree op c.act).1.getD (redIdentity (RedOp.ofCode op.toNat) t))).raise (tree op c.act).2))) ∧
     (∀ op : BitVec 3, Issues s c (checksOf (.wscan d a op) c) →
       let upTo := fun l => tree op (c.act &&& maskWhere 64 (fun i => decide (i ≤ l)))
       exec (.wscan d a op) s = c.leavesWave s ((c.vwrite c.w d.vNum t.words c.act (fun l => (upTo l).1.getD 0)).raise
         (flagsFrom 1 c.act (fun l _ => (0, (upTo l).2))))) ∧
     (Issues s c (checksOf (.ballot d a) c) →
       exec (.ballot d a) s = c.leavesWave s (c.w.swrite d.sNum 2
         (maskWhere 64 (fun l => c.act.getLsbD l && c.operand .raw a l != 0)).toNat))) ∧
  (∀ (s : State) (c : Ctx) (d a b : VCode),
     (∀ (i : Instr) (f : LaneMask → LaneMask → LaneMask),
       (i = .pand d a b ∧ f = (· &&& ·)) ∨ (i = .por d a b ∧ f = (· ||| ·)) ∨ (i = .pxor d a b ∧ f = (· ^^^ ·)) →
       Issues s c (checksOf i c) → exec i s = c.leavesWave s (c.w.pwrite d.pNum c.act (f (c.predicate a) (c.predicate b)))) ∧
     (∀ part : BitVec 2, Issues s c (checksOf (.spsel d a part) c) →
       exec (.spsel d a part) s = c.leavesWave s (c.vwrite c.w d.vNum (if part = 0 then sparseWords c.ty else 1) c.act
         (fun l => if part = 0 then sparseKept c.ty (c.sparseUnit a l)
           else if part = 1 then sparseMeta c.ty (c.sparseUnit a l) else sparsePacked c.ty (c.sparseUnit a l)))) ∧
     (Issues s c (checksOf (.spcmp d a b) c) →
       exec (.spcmp d a b) s = c.leavesWave s (c.w.pwrite d.pNum c.act (maskWhere 64 (fun l =>
         sparseMeta c.ty (c.sparseUnit a l) == c.operand .raw b l % 2 ^ metaBits c.ty)))))

/-! ## Scalar instructions -/

/-- R183: the 32-bit scalar arithmetic. The opcode's word decodes to its instruction, a unary member's field b must be
zero, a destination that is no s register is illegal, and S[d] takes the table's value reduced modulo 2^32, once per
gang, whatever the guard. -/
def Obligations.ScalarArithmetic : Prop :=
  (∀ (d a b : BitVec 8) (op : BitVec 8) (i : SCode → SCode → SCode → Instr),
    (op, i) ∈ ([(0x60, Instr.sadd), (0x61, .ssub), (0x62, .smul), (0x63, .smulh), (0x64, .sand), (0x65, .sor),
      (0x66, .sxor), (0x67, .sshl), (0x68, .sshr), (0x69, .ssha), (0x6A, .smin), (0x6B, .smax), (0x6C, .scmplt),
      (0x6D, .scmpeq), (0x7A, .scmpltn)] : List (BitVec 8 × (SCode → SCode → SCode → Instr))) →
    decode (wordOf op d a b) = .ok (i (SCode.ofByte d) (SCode.ofByte a) (SCode.ofByte b))) ∧
  (∀ (d a b : BitVec 8) (op : BitVec 8) (i : SCode → SCode → Instr),
    (op, i) ∈ ([(0x75, Instr.sclz), (0x76, .spopc)] : List (BitVec 8 × (SCode → SCode → Instr))) →
    (b = 0 → decode (wordOf op d a b) = .ok (i (SCode.ofByte d) (SCode.ofByte a))) ∧
    (b ≠ 0 → ∃ e, decode (wordOf op d a b) = .error e)) ∧
  encode (.scmpltn (.s 2) (.s 7) (.lit 0)) = 0x7A0207E0 ∧
  (∀ (s : State) (c : Ctx) (d a b : SCode) (i : Instr), d.isS = false →
    i ∈ ([.sadd d a b, .ssub d a b, .smul d a b, .smulh d a b, .sand d a b, .sor d a b, .sxor d a b, .sshl d a b, .sshr d a b,
      .ssha d a b, .smin d a b, .smax d a b, .scmplt d a b, .scmpeq d a b, .scmpltn d a b, .sclz d a, .spopc d a] : List Instr) →
    s.ctx? = some c → exec i s = c.traps s (causesIn c.src .illegalOperand c.exec)) ∧
  ∀ (s : State) (c : Ctx) (d a b : SCode) (i : Instr) (v : Int),
    let x := c.scalar false a
    let y := c.scalar false b
    let sx := signedOf 32 x
    let sy := signedOf 32 y
    (i, v) ∈ ([(.sadd d a b, x + y), (.ssub d a b, x - y), (.smul d a b, x * y), (.smulh d a b, sx * sy / 2 ^ 32),
      (.sand d a b, (x &&& y : Nat)), (.sor d a b, (x ||| y : Nat)), (.sxor d a b, (x ^^^ y : Nat)),
      (.sshl d a b, if 32 ≤ y then 0 else x * 2 ^ y), (.sshr d a b, if 32 ≤ y then 0 else (x / 2 ^ y : Nat)),
      (.ssha d a b, sx / 2 ^ min y 31), (.smin d a b, min sx sy), (.smax d a b, max sx sy),
      (.scmplt d a b, if sx < sy then 1 else 0), (.scmpeq d a b, if x = y then 1 else 0),
      (.scmpltn d a b, if x < y then 1 else 0), (.sclz d a, if x = 0 then 32 else 31 - x.log2),
      (.spopc d a, ((List.range 32).filter (fun k => x.testBit k)).length)] : List (Instr × Int)) →
    Issues s c (checksOf i c) → exec i s = c.leavesWave s (c.w.swrite d.sNum 1 (v % 2 ^ 32).toNat)

/-- R184: the words of opcodes 0x70 to 0x74 decode to SADD64, SSUB64, SMUL64, SSHL64 and SSHR64. The first three give the
low 64 bits of the sum, difference or product of two pairs; SSHL64 and SSHR64 shift a pair by a 32-bit amount, which
any s register may hold, and give 0 for 64 or more; an odd register or literal code in a pair position is illegal. -/
def Obligations.ScalarArithmetic64 : Prop :=
  (∀ (d a b op : BitVec 8) (i : SCode → SCode → SCode → Instr),
    (op, i) ∈ ([(0x70, Instr.sadd64), (0x71, .ssub64), (0x72, .smul64), (0x73, .sshl64), (0x74, .sshr64)] :
      List (BitVec 8 × (SCode → SCode → SCode → Instr))) →
    decode (wordOf op d a b) = .ok (i (SCode.ofByte d) (SCode.ofByte a) (SCode.ofByte b))) ∧
  encode (.sadd64 (.s 10) (.s 10) (.lit 0)) = 0x700A0AE0 ∧
  (∀ (s : State) (c : Ctx) (d a b : SCode) (i : Instr) (v : Int),
    let x := c.scalar true a
    let y := c.scalar true b
    let n := c.scalar false b
    (i, v) ∈ ([(.sadd64 d a b, x + y), (.ssub64 d a b, x - y), (.smul64 d a b, x * y),
      (.sshl64 d a b, if 64 ≤ n then 0 else x * 2 ^ n), (.sshr64 d a b, if 64 ≤ n then 0 else (x / 2 ^ n : Nat))] :
      List (Instr × Int)) →
    Issues s c (checksOf i c) → exec i s = c.leavesWave s (c.w.swrite d.sNum 2 (v % 2 ^ 64).toNat)) ∧
  (∀ (c : Ctx) (d a b : Fin 128) (i : Instr), d.val % 2 = 0 → a.val % 2 = 0 →
    i ∈ ([.sshl64 (.s d) (.s a) (.s b), .sshr64 (.s d) (.s a) (.s b)] : List Instr) → (checksOf i c).ok = true) ∧
  (∀ (s : State) (c : Ctx) (d a b x : SCode) (i : Instr),
    (∃ n : Fin 128, x = .s n ∧ n.val % 2 = 1) ∨ (∃ k : Fin 8, x = .lit k ∧ k.val % 2 = 1) →
    i ∈ ([.sadd64 x a b, .ssub64 x a b, .smul64 x a b, .sshl64 x a b, .sshr64 x a b, .sadd64 d x b, .ssub64 d x b,
      .smul64 d x b, .sshl64 d x b, .sshr64 d x b, .sadd64 d a x, .ssub64 d a x, .smul64 d a x] : List Instr) →
    s.ctx? = some c → exec i s = c.traps s (causesIn c.src .illegalOperand c.exec))

/-- In part, after R185 to R189, R164: SSEL takes a or b by S[d], SMOV takes a, SBFE extracts a field of a as BFE does,
PACK joins two halves, and UNPACK extends a half by its mode; field b of SMOV must be zero and UNPACK's mode below 4.
V2S copies one lane's register, with the lane taken modulo the wave width, or 0 where that lane is absent or has
exited (a live lane that does not execute gives its register: assumption 118); where the register is poisoned that lane
takes HW_ERR, and in a deterministic launch a register that an operation has yet to write is waited for, by what the
operation waits for (R34, R388; log entry 24, read from the spec by inference); PSET writes a predicate's bits in the executing lanes. -/
def Obligations.ScalarMoves : Prop :=
  ((∀ d a b : BitVec 8,
     decode (wordOf 0x6E d a b) = .ok (.ssel (SCode.ofByte d) (SCode.ofByte a) (SCode.ofByte b)) ∧
     decode (wordOf 0x7E d a b) = .ok (.sbfe (SCode.ofByte d) (SCode.ofByte a) (SCode.ofByte b)) ∧
     decode (wordOf 0x7B d a b) = .ok (.pack (SCode.ofByte d) (SCode.ofByte a) (SCode.ofByte b)) ∧
     decode (wordOf 0x6F d a 0) = .ok (.smov (SCode.ofByte d) (SCode.ofByte a)) ∧
     (b ≠ 0 → ∃ e, decode (wordOf 0x6F d a b) = .error e) ∧
     (b.toNat < 4 → decode (wordOf 0x7C d a b) = .ok (.unpack (SCode.ofByte d) (SCode.ofByte a) (b.setWidth 2))) ∧
     (4 ≤ b.toNat → ∃ e, decode (wordOf 0x7C d a b) = .error e)) ∧
   ∀ (s : State) (c : Ctx) (d a b : SCode),
     let x := c.scalar false a
     let y := c.scalar false b
     (Issues s c (checksOf (.ssel d a b) c) →
       exec (.ssel d a b) s = c.leavesWave s (c.w.swrite d.sNum 1 (if c.w.sread d.sNum 1 ≠ 0 then x else y))) ∧
     (Issues s c (checksOf (.smov d a) c) → exec (.smov d a) s = c.leavesWave s (c.w.swrite d.sNum 1 x)) ∧
     (Issues s c (checksOf (.sbfe d a b) c) →
       exec (.sbfe d a b) s = c.leavesWave s (c.w.swrite d.sNum 1 (bitFieldExtract x y))) ∧
     (Issues s c (checksOf (.pack d a b) c) →
       exec (.pack d a b) s = c.leavesWave s (c.w.swrite d.sNum 1 (y % 2 ^ 16 * 2 ^ 16 + x % 2 ^ 16))) ∧
     (∀ (mode : BitVec 2) (v : Nat),
       (mode, v) ∈ ([(0, x % 2 ^ 16), (1, x / 2 ^ 16), (2, (signedOf 16 x % 2 ^ 32).toNat),
         (3, (signedOf 16 (x / 2 ^ 16) % 2 ^ 32).toNat)] : List (BitVec 2 × Nat)) →
       Issues s c (checksOf (.unpack d a mode) c) →
       exec (.unpack d a mode) s = c.leavesWave s (c.w.swrite d.sNum 1 v))) ∧
  (∀ (s : State) (c : Ctx) (d : SCode) (a : VCode) (p : VCode) (b : SCode),
     let l := c.scalar false b % c.w.width
     let gone := (c.w.lanes (BitVec.allOnes 16) (fun x => x.ex)).getLsbD l
     (Issues s c (checksOf (.v2s d a b) c) → gone = true →
       exec (.v2s d a b) s = c.leavesWave s (c.w.swrite d.sNum 1 0)) ∧
     let wait := c.waitOn s (fun keys => keys.contains (vKey a.vNum l))
     (wait = if c.w.isDet = false then none else if vKey a.vNum l ∈ c.w.commitKeys then some (c.awaitCommit s)
       else if vKey a.vNum l ∈ c.emptyKeys then some (c.awaitLine s) else if vKey a.vNum l ∈ c.w.laterKeys then some .stall
       else none) ∧
     (Issues s c (checksOf (.v2s d a b) c) → gone = false → wait = none →
       (vKey a.vNum l ∉ c.w.vpoison → exec (.v2s d a b) s = c.leavesWave s (c.w.swrite d.sNum 1 (c.vread a.vNum 1 l))) ∧
       (vKey a.vNum l ∈ c.w.vpoison → exec (.v2s d a b) s = c.leavesWave s (c.w.record [laneCause c.src .hwErr l]))) ∧
     (∀ r : Res, Issues s c (checksOf (.v2s d a b) c) → gone = false → wait = some r →
       exec (.v2s d a b) s = .next (c.finish s r)) ∧
     (Issues s c (checksOf (.pset p b) c) →
       exec (.pset p b) s = c.leavesWave s (c.w.pwrite p.pNum c.exec (BitVec.ofNat 64 (c.scalar true b)))))

/-- In part, after R166 to R169: SYSRD completes and writes the register that its index names, a pair for a 64-bit one; a
read or write of FX waits while a counted operation that may set FX is outstanding, and any other does not. SYSWR
completes: it clears the FX bits that are 1 in its source, writes TVEC, which holds for the traps raised after it (the
causes that waves of the partition hold, resident or saved, keep the handler that stood before), and is ignored by every
other register; an index that names no register is ILLEGAL_OPERAND, and a privileged register without privilege is
PRIVILEGE. -/
def Obligations.SystemRegisters : Prop :=
  ∀ (s : State) (c : Ctx) (d b : SCode) (n : BitVec 16) (r : SysReg),
    (SysReg.ofIndex n.toNat = none → s.ctx? = some c →
      exec (.sysrd d n) s = c.traps s (causesIn c.src .illegalOperand c.exec) ∧
      exec (.syswr n b) s = c.traps s (causesIn c.src .illegalOperand c.exec)) ∧
    (SysReg.ofIndex n.toNat = some r → Issues s c (checksOf (.sysrd d n) c) → (r = .fx → c.fxQuiet = true) →
      exec (.sysrd d n) s = .next (c.retire
        (s.setWave c.key (c.w.swrite d.sNum (if r.wide then 2 else 1) (c.sysValue s r))) c.advance)) ∧
    (SysReg.ofIndex n.toNat = some .fx → Issues s c (checksOf (.sysrd d n) c) → c.fxQuiet = false →
      exec (.sysrd d n) s = .next (c.wait s)) ∧
    (SysReg.ofIndex n.toNat = some .fx → Issues s c (checksOf (.syswr n b) c) → c.fxQuiet = true →
      exec (.syswr n b) s = .next (c.retire
        (s.setWave c.key { c.w with fx := c.w.fx &&& ~~~(BitVec.ofNat 7 (c.scalar false b)) }) c.advance)) ∧
    (SysReg.ofIndex n.toNat = some .fx → Issues s c (checksOf (.syswr n b) c) → c.fxQuiet = false →
      exec (.syswr n b) s = .next (c.wait s)) ∧
    (SysReg.ofIndex n.toNat = some .tvec → Issues s c (checksOf (.syswr n b) c) →
      exec (.syswr n b) s = .next (c.retire (s.writeTvec c.w.part (BitVec.ofNat 64 (c.scalar true b))) c.advance) ∧
      ∀ k, (s.writeTvec c.w.part (BitVec.ofNat 64 (c.scalar true b))).parts.get? k =
        if k = c.w.part then (s.parts.get? k).map (fun p => { p with tvec := BitVec.ofNat 64 (c.scalar true b) })
        else s.parts.get? k) ∧
    (∀ (p : Partition) (k : Nat) (w : Wave) (x : DWord), s.parts.get? c.w.part = some p → s.waves.get? k = some w →
      (s.writeTvec c.w.part x).waves.get? k = some (if w.part ≠ c.w.part then w else { w with
        causes := w.causes.map (fun y => { y with tvec := some (y.tvec.getD p.tvec) })
        due := w.due.map (fun t => { t with causes := t.causes.map (fun y => { y with tvec := some (y.tvec.getD p.tvec) }) }) })) ∧
    (∀ (p : Partition) (u : CutUnit) (k : Nat) (w : Wave) (x : DWord), s.parts.get? c.w.part = some p → u ∈ s.cuts →
      u.waves.get? k = some w → w.part = c.w.part → ∃ v ∈ (s.writeTvec c.w.part x).cuts, ∃ w', v.id = u.id ∧
        v.waves.get? k = some w' ∧ w'.causes = w.causes.map (fun y => { y with tvec := some (y.tvec.getD p.tvec) })) ∧
    (SysReg.ofIndex n.toNat = some r → r ≠ .fx → r ≠ .tvec → Issues s c (checksOf (.syswr n b) c) →
      exec (.syswr n b) s = .next (c.retire s c.advance)) ∧
    (SysReg.ofIndex n.toNat = some r → r.isPrivileged = true → c.w.priv = false → s.ctx? = some c → c.melded = false →
      (scalarDst r.wide d).ok = true →
      exec (.sysrd d n) s = c.traps s (causesIn c.src .privilege c.exec))

/-! ## Control -/

/-- In part, after R46, R47, R127, R128, R131, R365, R368, R393, R394: MODE writes the bits of MD that its mask selects,
or takes ILLEGAL_MODE and leaves MD when the new value is illegal; NOP changes nothing; MELDE ends its gang's melded
region, and is ILLEGAL_MELD outside one; IDEMB sets IDEM, unless the wave has had a side effect, and IDEME clears it; PHINT records its live map; QUANT ends the quantum; DIGEST buffers its words in a deterministic launch.
MELD writes both offset tables, sets MR and MRS, and records the paths of the executing lanes; it is ILLEGAL_MELD
while MR is set, and ILLEGAL_OPERAND when a table has a bit above 17 or an entry above 5. -/
def Obligations.WaveModes : Prop :=
  (∀ (s : State) (c : Ctx) (a b : VCode),
     let new := (c.w.md &&& ~~~(BitVec.ofNat 32 (c.operand .raw b 0))) |||
       (BitVec.ofNat 32 (c.operand .raw a 0) &&& BitVec.ofNat 32 (c.operand .raw b 0))
     let illegal := 2 ^ 22 ≤ new.toNat ∨ 4 < mdScope new ∨ 5 < mdRnd new
     (Issues s c (checksOf .nop c) → exec .nop s = c.leaves s) ∧
     (Issues s c (checksOf (.mode a b) c) → ¬ illegal → exec (.mode a b) s = c.leavesWave s { c.w with md := new }) ∧
     (Issues s c (checksOf (.mode a b) c) → illegal →
       exec (.mode a b) s = c.traps s (causesIn c.src .illegalMode c.exec)) ∧
     (Issues s c (checksOf .melde c) → c.melded = true →
       exec .melde s = c.leavesWave s { c.w with mr := false, mrs := 0, mp := c.w.mp &&& ~~~(sliceLanes c.gang) }) ∧
     (Issues s c (checksOf .melde c) → c.melded = false →
       exec .melde s = c.traps s (causesIn c.src .illegalMeld c.exec)) ∧
     (Issues s c (checksOf .idemb c) → exec .idemb s = c.leavesWave s { c.w with idem := !c.w.side }) ∧
     (Issues s c (checksOf .ideme c) → exec .ideme s = c.leavesWave s { c.w with idem := false }) ∧
     (∀ k, Issues s c (checksOf (.phint k) c) → exec (.phint k) s =
       c.leavesWave s { c.w with hint := BitVec.ofNat 192 (c.lit k.toNat 6 0), hintValid := true }) ∧
     (Issues s c (checksOf .quant c) → exec .quant s =
       c.leavesWave s { c.w with det := c.w.det.map (fun d => { d with ended := true }) }) ∧
     (∀ n, Issues s c (checksOf (.digest a n) c) → exec (.digest a n) s =
       c.leavesWave s { c.w with det := c.w.det.map (fun d => { d with buffer := d.buffer ++ [.digest c.act
         ((bitsOf c.act).flatMap (fun l => (List.range n.toNat).map (fun i =>
           BitVec.ofNat 32 (c.vread (a.vNum + i) 1 l))))] }) })) ∧
  (∀ (s : State) (c : Ctx) (a b : VCode),
     let x := c.w.sread b.sNum 1
     let y := c.w.sread (b.sNum + 1) 1
     let bad := fun (z : Nat) => 2 ^ 18 ≤ z ∨ ∃ i < 6, 5 < natBits z (3 * i) 3
     Issues s c (checksOf (.meld a b) c) →
     (c.w.mr = true → exec (.meld a b) s = c.traps s (causesIn c.src .illegalMeld c.exec)) ∧
     (c.w.mr = false → (bad x ∨ bad y) → exec (.meld a b) s = c.traps s (causesIn c.src .illegalOperand c.exec)) ∧
     (c.w.mr = false → ¬ bad x → ¬ bad y → exec (.meld a b) s = c.leavesWave s { c.w with
       ot0 := BitVec.ofNat 18 x, ot1 := BitVec.ofNat 18 y, mr := true, mrs := c.gang
       mp := (c.w.mp &&& ~~~c.exec) ||| (c.w.p.get a.pNum &&& c.exec) }))

/-- In part, after R24, R113 to R115: BR, BRX, BRS, CALL, CALLI and RET send every slice of the gang to one target, a link
being written first where the rule says so; a target that is no multiple of 4 takes MISALIGNED, and one above 2^56
WINDOW. A gang that is sent to a target stands, with every slice that was in it, at the start of the clause there; the
other slices stay, and a PHINT ends. -/
def Obligations.UniformTransfers : Prop :=
  (∀ (s : State) (c : Ctx) (d a b : VCode) (cond : BitVec 2) (i : Instr) (t : DWord) (link : Option Nat),
     let rel := fun (x : VCode) => c.src.claddr + BitVec.ofInt 64 (4 * signedOf 32 (c.operand (.data 1) x 0))
     let pair := fun (x : VCode) => BitVec.ofNat 64 (c.w.sread x.sNum 2)
     let v := c.w.sread a.sNum 1
     let holds := (cond = 0 ∧ v ≠ 0) ∨ (cond = 1 ∧ v = 0) ∨ (cond = 2 ∧ 2 ^ 31 ≤ v) ∨ (cond = 3 ∧ v < 2 ^ 31)
     ((i = .br a ∧ t = rel a ∧ link = none) ∨
       (i = .brx a ∧ t = c.src.claddr + BitVec.ofNat 64 (c.operand (.data 2) a 0) ∧ link = none) ∨
       (i = .brs cond a b ∧ (holds → t = rel b) ∧ (¬ holds → t = c.next) ∧ link = none) ∨
       (i = .call d a ∧ t = rel a ∧ link = some d.sNum) ∨ (i = .calli d a ∧ t = pair a ∧ link = some d.sNum) ∨
       (i = .ret a ∧ t = pair a ∧ link = none)) →
     Issues s c (checksOf i c) →
     (t.toNat % 4 = 0 → t.toNat < 2 ^ 56 → exec i s = c.places (s.setWave c.key (match link with
       | none => c.sent t
       | some n => (c.sent t).swrite n 2 c.next.toNat))) ∧
     (t.toNat % 4 ≠ 0 → exec i s = c.traps s (c.causeAt .misaligned t)) ∧
     (t.toNat % 4 = 0 → 2 ^ 56 ≤ t.toNat → exec i s = c.traps s (c.causeAt .window t))) ∧
  (∀ (c : Ctx) (t : DWord) (i : Nat) (x : Slice), c.w.slices[i]? = some x → i < 16 →
     (c.sent t).hintValid = false ∧
     (c.gang.getLsbD i = false → (c.sent t).slices[i]? = some x) ∧
     (c.gang.getLsbD i = true → ∃ y, (c.sent t).slices[i]? = some y ∧ y.pc = t ∧ y.word = 0 ∧ y.cl = [] ∧ y.lm = x.lm ∧
       y.ex = x.ex ∧ y.rs = x.rs ∧ y.rsd = x.rsd ∧ y.rjc = x.rjc ∧ y.age = 0 ∧ y.stalled = none ∧
       y.redirect = (t != c.next)))

/-- In part, after R116, R117: BRV pushes an entry on the stack of every slice of its gang; a slice with a taken lane goes
on at TT with those lanes, and one with none goes on at the fall-through clause with nothing pending (log entry 23, read from the spec by inference). A full stack
takes REG_RANGE in the lanes of its slices. JOIN takes the pending path of the top entry, or pops it and goes to its
merge clause, or, with an empty stack, goes on at the next clause. -/
def Obligations.DivergeAndJoin : Prop :=
  ∀ (s : State) (c : Ctx) (a b : VCode) (cond : BitVec 4),
    let tt := c.wordTarget a
    let mg := c.wordTarget b
    let p := c.w.p.get (cond.toNat % 8)
    let taken := if cond.toNat < 8 then p else ~~~p
    let full := c.w.sliceMask (fun x => x.rsd == 16) &&& c.gang
    (Issues s c (checksOf (.brv cond a b) c) → tt.toNat < 2 ^ 56 → mg.toNat < 2 ^ 56 → full = 0 →
      exec (.brv cond a b) s = c.places (s.setWave c.key (c.moved (fun i x =>
        let e := x.lm &&& ~~~x.ex
        let t := e &&& sliceBits taken i
        let entry : StackEntry := ⟨c.next, mg, if t = 0 then 0 else e &&& ~~~t, x.lm⟩
        { x with
          rs := listUpdate x.rs x.rsd (fun _ => entry), rsd := x.rsd + 1, word := 0, cl := [], stood := 0, redirect := false
          pc := if t = 0 then c.next else tt, lm := if t = 0 then x.lm else t })))) ∧
    (Issues s c (checksOf (.brv cond a b) c) → tt.toNat < 2 ^ 56 → mg.toNat < 2 ^ 56 → full ≠ 0 →
      exec (.brv cond a b) s = c.traps s (causesIn c.src .regRange (c.exec &&& sliceLanes full))) ∧
    (Issues s c (checksOf .join c) → exec .join s = c.places (s.setWave c.key (c.moved (fun _ x =>
      if x.rsd = 0 then { x with pc := c.next, word := 0, cl := [], stood := 0, redirect := false }
      else if x.top.pend ≠ 0 then
        { x with pc := x.top.ft, word := 0, cl := [], stood := 0, redirect := false, lm := x.top.pend
                 rs := listUpdate x.rs (x.rsd - 1) (fun e => { e with pend := 0 }) }
      else { x with pc := x.top.mg, word := 0, cl := [], stood := 0, redirect := false, lm := x.top.out, rsd := x.rsd - 1 }))))

/-- In part, after R118, R121 to R124, R286, R287: REGANG parks its gang with the mask that it names; YIELD sends its gang
to the next clause for 32 pick cycles; WAITF goes on when every named flag reads zero, and until then its gang stalls (in
a deterministic launch a flag that only a commit brings to zero ends the quantum, assumption 24, and one that waits for an
empty line is passed over, R388); BARB and BARC park their gang and note its arrival; MON sends a registration of its line
when its translation is there; MWAIT returns at once when no monitor is armed or it has
fired, and otherwise parks its gang with its limit; a limit of 0 is ILLEGAL_OPERAND. -/
def Obligations.WaitsAndParks : Prop :=
  ∀ (s : State) (c : Ctx) (a : VCode),
    (Issues s c (checksOf (.regang a) c) → exec (.regang a) s = c.places (s.setWave c.key
      { c.w.mapGang c.gang (fun _ x => { x with
          park := .regang, rgm := BitVec.ofNat 16 (c.w.sread a.sNum 1) &&& c.w.sliceMask (fun _ => true), age := 0
          word := if c.replay then x.word else c.src.widx + 1, stalled := none }) with
        hintValid := false })) ∧
    (Issues s c (checksOf .yield c) → exec .yield s = c.places (s.setWave c.key
      (c.moved (fun _ x => { x with pc := c.next, word := 0, cl := [], stood := 0, redirect := false, quiet := 32 })))) ∧
    (∀ flags : BitVec 12, Issues s c (checksOf (.waitf flags) c) → (∀ n < 12, flags.getLsbD n = true → c.w.flag n = 0) →
      exec (.waitf flags) s = c.leaves s) ∧
    (∀ flags : BitVec 12, Issues s c (checksOf (.waitf flags) c) → (∃ n < 12, flags.getLsbD n = true ∧ c.w.flag n ≠ 0) →
      c.w.isDet = false → exec (.waitf flags) s = .next (c.wait s)) ∧
    (∀ flags : BitVec 12, Issues s c (checksOf (.waitf flags) c) → (∃ n < 12, flags.getLsbD n = true ∧ c.w.flag n ≠ 0) →
      exec (.waitf flags) s = .next (c.finish s (
        if (bitsOf flags).any (fun n => s.commitPending c.key c.w n) then c.stallForCommit s
        else if c.w.isDet && s.waitsAtLine c.key c.w 0 (bitsOf flags) then c.awaitLine s else .stall))) ∧
    (∀ (cluster : Bool) (id : Nat) (t : State) (w : Wave) (b : Block), t.waves.get? c.key = some w →
      t.blocks.get? w.block = some b → w.arrivedAt (barrierPark cluster id) = true → ∀ bar,
      (b.barriers cluster)[id]? = some bar →
      (t.noteArrival c.key cluster id).waves.get? c.key = some w.endQuantum ∧
      ∃ b', (t.noteArrival c.key cluster id).blocks.get? w.block = some b' ∧ (b'.barriers cluster)[id]? =
        some { bar with arrived := bar.arrived ||| bitMask 64 w.index, last := t.time }) ∧
    (∀ id : BitVec 4, Issues s c (checksOf (.barb id) c) → exec (.barb id) s =
      c.places ((s.setWave c.key { c.parked (.barb id.toNat) with hintValid := false }).noteArrival c.key false id.toNat)) ∧
    (∀ id : BitVec 2, Issues s c (checksOf (.barc id) c) → exec (.barc id) s =
      c.places ((s.setWave c.key { c.parked (.barc id.toNat) with hintValid := false }).noteArrival c.key true id.toNat)) ∧
    (Issues s c (checksOf (.mon a) c) → c.accessHeld = false → ∀ g t h,
      s.check c.w c.blk c.src ⟨(bitsOf c.exec).headD 0, c.addressOf a 0, 1, 1, [0x00, 0xF0, 0xF1, 0xF2], false, .unchecked⟩ =
        .ok g →
      (s.awaitWalks c.w [g] = none → s.resolve c.key c.w c.src g = (t, .ok h) →
        exec (.mon a) s = c.leaves ((t.useAnswers c.w.asker.who).modWave c.key (fun w => { w with monitor := .sent h.loc.line c.now }))) ∧
      (s.awaitWalks c.w [g] = some t → exec (.mon a) s = .next (c.finish s (.hold t)))) ∧
    (Issues s c (checksOf (.mwait a) c) → (∀ e, c.w.det = some e → e.past = some c.gang) → c.operand (.data 1) a 0 ≠ 0 →
      (c.w.monitor = .off ∨ c.w.monitor = .fired → exec (.mwait a) s = c.leavesWave s { c.w with monitor := .off }) ∧
      ((∃ l t, c.w.monitor = .sent l t ∨ c.w.monitor = .armed l ∨ c.w.monitor = .firing l t) → exec (.mwait a) s = c.places (s.setWave c.key
        (c.parked (.mwait c.src (c.operand (.data 1) a 0) (c.now + c.operand (.data 1) a 0)))))) ∧
    (Issues s c (checksOf (.mwait a) c) → c.operand (.data 1) a 0 = 0 →
      exec (.mwait a) s = c.traps s (causesIn c.src .illegalOperand c.exec))

/-- In part, after R120, R347, R349, R353 to R355: EXIT waits until the stores of its lanes have performed at its scope, and
then takes the executing lanes out of its gang and of every entry of its slices' stacks, and keeps the largest scope that
the wave's EXITs have named. A slice then takes the pending path of its top entry; where none pends, it pops the entry and
goes to the merge clause with the lanes that merge there; where none merges either, it pops the entry and looks at the
next; and with an empty stack it has ended. A trap of an earlier word of the clause comes first, and the lanes end after
it (R347; assumptions 13 and 72). A scope above 4 is ILLEGAL_OPERAND. TRAP raises SOFTWARE with its code in the lanes in
`act`: it has issued, and its trap is due with RPLY 0. TRET is PRIVILEGE outside a handler; in one it parks its gang, or
is fatal when an earlier word of the clause left a cause. -/
def Obligations.EndsAndTraps : Prop :=
  (∀ x : Slice,
    let y := Slice.afterExit 17 x
    let at_ := fun (pc : DWord) => { x with pc, word := 0, cl := [], stood := 0, redirect := false }
    (x.rsd = 0 → y = { x with ex := 0xF }) ∧
    (0 < x.rsd → x.top.pend ≠ 0 → y = { at_ x.top.ft with
      lm := x.top.pend, rs := listUpdate x.rs (x.rsd - 1) (fun e => { e with pend := 0 }) }) ∧
    (0 < x.rsd → x.top.pend = 0 → x.top.out ≠ 0 → y = { at_ x.top.mg with lm := x.top.out, rsd := x.rsd - 1 }) ∧
    (0 < x.rsd → x.rsd ≤ 16 → x.top.pend = 0 → x.top.out = 0 → y = Slice.afterExit 17 { x with rsd := x.rsd - 1 })) ∧
  (∀ (x : Slice) (m : BitVec 4), x.dropLanes m =
    { x with ex := x.ex ||| m, rs := x.rs.map (fun e => { e with pend := e.pend &&& ~~~m, out := e.out &&& ~~~m }) }) ∧
  ∀ (s : State) (c : Ctx) (a : VCode) (x : LaneCause) (l : List LaneCause),
    (Issues s c (checksOf (.exit a) c) → c.operand (.data 1) a 0 ≤ 4 → c.w.causesOf c.gang = [] →
      (c.w.isDet = true ∨ c.performedAt c.exec (c.operand (.data 1) a 0) = true) →
      exec (.exit a) s = c.places ((((s.setWave c.key
        { c.moved (fun _ x => Slice.afterExit 17 (x.dropLanes x.executing)) with
          exitScope := max c.w.exitScope (c.operand (.data 1) a 0) }).noteEnd c.key).checkTret c.key).settle c.key)) ∧
    (Issues s c (checksOf (.exit a) c) → c.operand (.data 1) a 0 ≤ 4 → c.w.causesOf c.gang = [] → c.w.isDet = false →
      c.performedAt c.exec (c.operand (.data 1) a 0) = false → exec (.exit a) s = .next (c.wait s)) ∧
    (∀ t, Issues s c (checksOf (.exit a) c) → c.operand (.data 1) a 0 ≤ 4 → c.w.deferredOf c.gang = some t →
      exec (.exit a) s = c.leaves (s.modWave c.key (fun w => { w with
        due := w.due ++ [t], causes := w.causes.filter (fun y => !t.slices.getLsbD (y.lane / 4))
        replay := w.replay ++ [⟨c.gang, c.src, c.exec, .none, true⟩] }))) ∧
    (Issues s c (checksOf (.exit a) c) → 4 < c.operand (.data 1) a 0 →
      exec (.exit a) s = c.traps s (causesIn c.src .illegalOperand c.exec)) ∧
    (Issues s c (checksOf (.trap a) c) →
      (bitsOf c.act).map (fun l => { laneCause c.src .software l with xinfo := c.operand (.data 1) a 0 % 2 ^ 16 }) = x :: l →
      exec (.trap a) s = .next (c.retire s (fun w =>
        (if c.replay then w.dropReplay c.now else w).fallDue ⟨c.gang, !c.replay, c.src, x :: l, true, false⟩))) ∧
    (Issues s c (checksOf .tret c) → c.w.inHandler = false →
      exec .tret s = c.traps s (causesIn c.src .privilege c.exec)) ∧
    (Issues s c (checksOf .tret c) → c.w.inHandler = true → c.w.causesOf c.gang = [] →
      exec .tret s = c.places ((s.setWave c.key (c.parked .tret)).checkTret c.key)) ∧
    (∀ t, Issues s c (checksOf .tret c) → c.w.inHandler = true → c.w.deferredOf c.gang = some t →
      exec .tret s = c.places (s.fatal c.key t.summary))

/-! ## Memory instructions -/

/-- In part, after R260, R262, R266, R267, R288: the loads complete. Each lane in `act` asks for its bytes at its address;
a lane whose check fails records its cause, and the units of the others join the wave's outstanding accesses under the
clause's SETA flag and leave the core when their turn has come (R240). With another gang's fence under way, an acquire
outstanding or no free request slot the gang waits. In a deterministic launch, where the gang first waits for its page
walks (R233), a load takes at once what its wave may see, or waits at an empty line, and comes back in a later tick (R31,
R387). R260, R262, R265 to R267: the stores complete. The units of the lanes that pass their checks carry the lanes' data;
IDEM ends when a lane names a global address, but for STI. A deterministic wave buffers them, and ends its quantum first
when their lines do not fit (R386, R387); stores to private memory alone perform at once. -/
def Obligations.LoadsAndStoresIssue : Prop :=
  (∀ (s : State) (c : Ctx) (d a b : VCode) (x y : Bool) (w : BitVec 3) (i : Instr) (strong acquire sx : Bool) (n : Nat)
     (windows : List Nat) (addr : Nat → Nat),
     let any := [0x00, 0xF0, 0xF1, 0xF2, 0xF3]
     let k := 2 ^ w.toNat
     let el := (mdType c.w.md).bits / 8
     ((i, strong, acquire, sx, n, windows) ∈ ([(.ld d a x w, false, false, x, k, any), (.lda d a x w, true, true, x, k, any),
         (.ldx d a x w, true, false, x, k, any)] : List (Instr × Bool × Bool × Bool × Nat × List Nat)) ∧ addr = c.addressOf a ∨
       i = .ldsp d a x w ∧ (strong, acquire, sx, n, windows) = (false, false, x, k, [0xF0]) ∧
         addr = (fun l => 0xF0 * 2 ^ 56 + c.operand .raw a l) ∨
       i = .ldcl d a x y w ∧ (strong, acquire, sx, n, windows) = (y, false, x, k, [0xF1]) ∧
         addr = (fun l => 0xF1 * 2 ^ 56 + c.operand .raw a l) ∨
       i = .ldds d a x w ∧ (strong, acquire, sx, n, windows) = (false, false, x, k, [0xF2]) ∧
         addr = (fun l => 0xF2 * 2 ^ 56 + c.operand .raw a l) ∨
       i = .gath d a b ∧ (strong, acquire, sx, n, windows) =
           (false, false, mdType c.w.md == .s8 || mdType c.w.md == .s16, el, any) ∧
         addr = (fun l => ((c.addressOf a l + signedOf 32 (c.operand .raw b l) * el) % 2 ^ 64).toNat)) →
     Issues s c (checksOf i c) →
     let asks : List Ask := (bitsOf c.act).map (fun l => ⟨l, addr l % 2 ^ 64, n, n, windows, false, .load⟩)
     let op := fun (l : List Granted) => c.newOp (.load strong acquire) n sx true true
       (l.flatMap (fun g => unitsOf g strong n 0 0 (c.phys d.vNum g.ask.lane)))
     let r := s.checkAll c.w c.blk c.src asks
     let q := c.prepare s true asks
     (c.w.isDet = false → c.accessHeld = false → s.slotsFree c.w (op r.1) = true →
       exec i s = c.leaves ((s.modWave c.key (fun w =>
         { (w.record r.2).flagUp (hdrSetA c.src.hdr) with memOps := w.memOps ++ [op r.1] })).depart c.key)) ∧
     (c.w.isDet = false → (c.accessHeld = true ∨ s.slotsFree c.w (op r.1) = false) → exec i s = .next (c.wait s)) ∧
     (∀ t, c.accessHeld = false → c.awaitWalks s asks = some t → exec i s = .next (c.wait t)) ∧
     (∀ e, c.w.det = some e → c.accessHeld = false → c.awaitWalks s asks = none →
       let view := q.1.detView c.w.core e
       (∀ u ∈ (op q.2.1).units, view.lineEmpty u.loc = true ∨ view.poisoned u.loc = false) →
       exec i s = c.leaves (q.1.modWave c.key (fun w => { (w.record q.2.2).flagUp (hdrSetA c.src.hdr) with
         memOps := w.memOps ++ [{ op q.2.1 with units := (op q.2.1).units.map (fun u =>
           if view.lineEmpty u.loc then { u with since := s.time }
           else { u with phase := .arrived, data := BitVec.ofNat 64 (view.readLoc u.loc u.len), since := s.time }) }] })))) ∧
  (∀ (s : State) (c : Ctx) (d a b : VCode) (y : Bool) (w : BitVec 3) (i : Instr) (strong release marks : Bool) (n : Nat)
     (windows : List Nat) (addr : Nat → Nat) (data : SrcKind),
     let any := [0x00, 0xF0, 0xF1, 0xF2, 0xF3]
     let k := 2 ^ w.toNat
     let el := (mdType c.w.md).bits / 8
     ((i, strong, release, marks, n, windows) ∈ ([(.st d a w, false, false, true, k, any), (.stl d a w, true, true, true, k, any),
         (.stx d a w, true, false, true, k, any), (.sti d a w, false, false, false, k, any)] :
         List (Instr × Bool × Bool × Bool × Nat × List Nat)) ∧ addr = c.addressOf a ∧ data = .data (max 1 (k / 4)) ∨
       i = .stsp d a w ∧ (strong, release, marks, n, windows) = (false, false, false, k, [0xF0]) ∧
         addr = (fun l => 0xF0 * 2 ^ 56 + c.operand .raw a l) ∧ data = .data (max 1 (k / 4)) ∨
       i = .stcl d a y w ∧ (strong, release, marks, n, windows) = (y, false, false, k, [0xF1]) ∧
         addr = (fun l => 0xF1 * 2 ^ 56 + c.operand .raw a l) ∧ data = .data (max 1 (k / 4)) ∨
       i = .stds d a w ∧ (strong, release, marks, n, windows) = (false, false, false, k, [0xF2]) ∧
         addr = (fun l => 0xF2 * 2 ^ 56 + c.operand .raw a l) ∧ data = .data (max 1 (k / 4)) ∨
       i = .scat d a b ∧ (strong, release, marks, n, windows) = (false, false, true, el, any) ∧
         addr = (fun l => ((c.addressOf a l + signedOf 32 (c.operand .raw b l) * el) % 2 ^ 64).toNat) ∧
         data = .data (mdType c.w.md).words) →
     Issues s c (checksOf i c) →
     let asks : List Ask := (bitsOf c.act).map (fun l => ⟨l, addr l % 2 ^ 64, n, n, windows, true, .store⟩)
     let op := fun (l : List Granted) => c.newOp (.store strong release) n false false false
       (l.flatMap (fun g => unitsOf g strong n (c.operand data d g.ask.lane) 0 0))
     let r := s.checkAll c.w c.blk c.src asks
     let q := c.prepare s false asks
     let side := marks && asks.any (fun x => x.addr / 2 ^ 56 == 0 && c.act != 0)
     let marked := fun (w : Wave) (l : List LaneCause) => Wave.record { w with idem := w.idem && !side, side := w.side || side } l
     (c.w.isDet = false → c.accessHeld = false → s.slotsFree c.w (op r.1) = true →
       exec i s = c.leaves ((s.modWave c.key (fun w =>
         { marked w r.2 with memOps := w.memOps ++ if (op r.1).units = [] then [] else [op r.1] })).depart c.key)) ∧
     (c.w.isDet = false → (c.accessHeld = true ∨ s.slotsFree c.w (op r.1) = false) → exec i s = .next (c.wait s)) ∧
     (∀ t, c.accessHeld = false → c.awaitWalks s asks = some t → exec i s = .next (c.wait t)) ∧
     (c.w.isDet = true → c.accessHeld = false → c.awaitWalks s asks = none → (∀ u ∈ (op q.2.1).units, ∃ x, u.loc = .priv x) →
       exec i s = c.leaves (((op q.2.1).units.foldl (fun s u => (s.performUnit c.w.core (op q.2.1) u).1) q.1).modWave c.key
         (fun w => marked w q.2.2))) ∧
     (∀ e, c.w.det = some e → c.accessHeld = false → c.awaitWalks s asks = none →
       (∃ u ∈ (op q.2.1).units, ∀ x, u.loc ≠ .priv x) →
       let lines := (e.lines ++ (op q.2.1).units.map (fun u => u.loc.line)).eraseDups
       ((e.buffer = [] ∨ lines.length ≤ 256) → exec i s = c.leaves (q.1.modWave c.key (fun w =>
         { marked w q.2.2 with det := w.det.map (fun d => { d with buffer := d.buffer ++ [.mem (op q.2.1)] }) }))) ∧
       (e.buffer ≠ [] → 256 < lines.length → exec i s =
         .next (c.wait (s.modWave c.key (fun w => { w with det := w.det.map (fun d => { d with ended := true }) }))))))

/-- In part, after R269 to R271, R282: the atomics and FEEMPTY and FEFULL complete. An atomic with a v destination holds
its flag and returns the old value; one without a destination is posted. A deterministic wave buffers them once it needs no
page walk (R387). -/
def Obligations.AtomicsIssue : Prop :=
  ∀ (s : State) (c : Ctx) (d a b : VCode) (i : Instr) (op : AtomicOp),
    let t := mdType c.w.md
    (((i, op) ∈ ([(.aadd d a b, .add), (.amin d a b, .min), (.amax d a b, .max), (.aand d a b, .and), (.aor d a b, .or),
        (.axor d a b, .xor), (.axchg d a b, .xchg), (.acas d a b, .cas), (.ainc d a b, .inc), (.adec d a b, .dec),
        (.afadd d a b, .fadd), (.aaddn d a b, .addn), (.spaadd d a b, .add), (.spacas d a b, .cas)] : List (Instr × AtomicOp))) →
      Issues s c (checksOf i c) → c.accessHeld = false →
      let chip := i = .spaadd d a b ∨ i = .spacas d a b
      let n := t.bits / 8
      let asks : List Ask := (bitsOf c.act).map (fun l =>
        ⟨l, c.addressOf a l % 2 ^ 64, n, n, if chip then [0xF0, 0xF1, 0xF2] else [0x00], true, .store⟩)
      let x := fun l => c.operand (if op = .cas then .data (2 * t.words) else .typed t) b l
      let made := fun (l : List Granted) => c.newOp (.atomic op) n false d.isV d.isV (l.flatMap (fun g => unitsOf g true n
        (if op = .cas then x g.ask.lane / 2 ^ t.bits else x g.ask.lane) (x g.ask.lane % 2 ^ t.bits) (c.phys d.vNum g.ask.lane)))
      let r := s.checkAll c.w c.blk c.src asks
      let q := c.prepare s true asks
      let side := decide (¬ chip) && asks.any (fun x => x.addr / 2 ^ 56 == 0 && c.act != 0)
      let marked := fun (w : Wave) (l : List LaneCause) => Wave.flagUp
        (Wave.record { w with idem := w.idem && !side, side := w.side || side } l) (if d.isV then hdrSetA c.src.hdr else none)
      (c.w.isDet = false → s.slotsFree c.w (made r.1) = true → exec i s = c.leaves ((s.modWave c.key (fun w =>
        { marked w r.2 with memOps := w.memOps ++ if (made r.1).units = [] ∧ d.isV = false then [] else [made r.1] })).depart
          c.key)) ∧
      (∀ e, c.w.det = some e → c.awaitWalks s asks = none →
        (d.isV = true ∨ ∃ u ∈ (made q.2.1).units, ∀ x, u.loc ≠ .priv x) →
        (e.buffer = [] ∨ (e.lines ++ (made q.2.1).units.map (fun u => u.loc.line)).eraseDups.length ≤ 256) →
        exec i s = c.leaves (q.1.modWave c.key (fun w =>
          { marked w q.2.2 with det := w.det.map (fun d => { d with buffer := d.buffer ++ [.mem (made q.2.1)] }) })))) ∧
    (∀ full : Bool, i = (if full then .fefull a else .feempty a) → Issues s c (checksOf i c) → c.accessHeld = false →
      let asks : List Ask := (bitsOf c.act).map (fun l => ⟨l, c.addressOf a l % 2 ^ 64, 1, 1, [0xF0, 0xF1], true, .unchecked⟩)
      let made := fun (l : List Granted) => c.newOp (.fe full) 1 false false false (l.flatMap (fun g => unitsOf g false 1 0 0 0))
      let r := s.checkAll c.w c.blk c.src asks
      let q := c.prepare s false asks
      (c.w.isDet = false → s.slotsFree c.w (made r.1) = true → exec i s = c.leaves ((s.modWave c.key (fun w =>
        { w.record r.2 with memOps := w.memOps ++ if (made r.1).units = [] then [] else [made r.1] })).depart c.key)) ∧
      (∀ e, c.w.det = some e → c.awaitWalks s asks = none → (∃ u ∈ (made q.2.1).units, ∀ x, u.loc ≠ .priv x) →
        (e.buffer = [] ∨ (e.lines ++ (made q.2.1).units.map (fun u => u.loc.line)).eraseDups.length ≤ 256) →
        exec i s = c.leaves (q.1.modWave c.key (fun w =>
          { w.record q.2.2 with det := w.det.map (fun d => { d with buffer := d.buffer ++ [.mem (made q.2.1)] }) }))))

/-- In part, after R243, R245, R249, R252, R269 to R271, R278, R280, R282: what one unit of an access does at its place. A
load's unit takes the bytes there and changes no byte; a store's unit puts its data there, and an atomic's its new
value, in the unit's own bytes and nowhere else. R269's table: the value that an atomic leaves for an old value m and
an operand x, as signed or unsigned numbers of MD.TYPE, and for ACAS the new value v where m equals x. -/
def Obligations.AccessesPerform : Prop :=
  (∀ (s : State) (core : Nat) (o : MemOp) (u : MemUnit),
     (match u.loc with
       | .untranslated => False
       | .scratch b h _ => ∃ y, s.blocks.get? b = some y ∧ h < y.halves.length
       | .region id _ => ∃ y, s.regions.get? id = some y
       | .dieStore id _ => ∃ y, s.dregions.get? id = some y
       | .global _ _ | .priv _ => True) →
     let t := (s.performUnit core o u).1
     let v := (s.performUnit core o u).2
     let m := s.readLoc u.loc u.len
     let elsewhere := ∀ (l : Loc) (n : Nat), u.loc.overlaps u.len l n = false → t.readLoc l n = s.readLoc l n
     (∀ strong acquire, o.kind = .load strong acquire → v.data = BitVec.ofNat 64 m ∧ v.phase = .arrived ∧
       ∀ (l : Loc) (n : Nat), t.readLoc l n = s.readLoc l n) ∧
     (∀ strong release, o.kind = .store strong release → t.readLoc u.loc u.len = u.data.toNat % 2 ^ (8 * u.len) ∧ elsewhere) ∧
     (∀ op, o.kind = .atomic op → v.data = BitVec.ofNat 64 m ∧ elsewhere ∧
       t.readLoc u.loc u.len = atomicNew op (mdType o.md) (mdRound o.md) m
         (if op = .cas then u.cmp.toNat else u.data.toNat) u.data.toNat % 2 ^ (8 * u.len)) ∧
     (∀ full, o.kind = .fe full → (∀ (l : Loc) (n : Nat), t.readLoc l n = s.readLoc l n) ∧
       (u.loc.inCluster = true → t.lineEmpty u.loc = !full))) ∧
  (∀ (t : Ty) (r : Round) (m x v : Nat), (t = .s32 ∨ t = .n32 ∨ t = .s64 ∨ t = .n64) → m < 2 ^ t.bits → x < 2 ^ t.bits →
     let f := fun op => atomicNew op t r m x v
     f .add = (m + x) % 2 ^ t.bits ∧ f .xchg = x ∧ f .cas = (if m = x then v else m) ∧
     intOf t (f .min) = min (intOf t m) (intOf t x) ∧ intOf t (f .max) = max (intOf t m) (intOf t x) ∧
     intOf t (f .addn) = max t.intMin (min t.intMax (intOf t m + intOf t x)) ∧
     (∀ i, (f .and).testBit i = (m.testBit i && x.testBit i) ∧ (f .or).testBit i = (m.testBit i || x.testBit i) ∧
       (f .xor).testBit i = (m.testBit i ^^ x.testBit i)) ∧
     f .inc = (if x ≤ m then 0 else m + 1) ∧ f .dec = (if m = 0 ∨ x < m then x else m - 1))

/-- In part, after R251, R256, R273 to R276: FENCE completes once every access of its wave, the scratchpad accesses of its
tile operations among them, is acknowledged and its time for MD.SCOPE has come, and FENCEL for its executing lanes at
its own scope, with the barrier updates that its gang has posted; until then FENCE waits and holds back the accesses of
the wave's other gangs. In a deterministic launch FENCE, FENCEL, BARTRY, BARWT and MWAIT first end the quantum of their
wave, and a FENCE that waits for a commit ends it again (R386). INVL1 completes and empties its core's L1, and no fill requested before it is installed there; LEASE
completes and sets the wave's lease, 0 meaning 1,024, and a value above 1,024 is ILLEGAL_OPERAND. -/
def Obligations.FencesComplete : Prop :=
  ∀ (s : State) (c : Ctx) (d a b : VCode) (scope : BitVec 3) (phase : BitVec 1) (i : Instr),
    let sent := fun (g : SliceMask) => s.injected c.key c.w g = true
    let n := c.operand (.data 1) a 0
    (Issues s c (checksOf .fence c) → (∀ e, c.w.det = some e → e.past = some c.gang) → (c.w.fencing = none ∨ c.w.fencing = some c.gang) →
      (∀ o ∈ c.w.memOps, o.kind.isAccess = true → o.kind.isProbe = false → ∀ u ∈ o.units, u.out = false) →
      s.tileAccesses c.key c.w = [] →
      c.w.times.at_ (mdScope c.w.md) ≤ c.now → (mdScope c.w.md < 4 ∨ sent (BitVec.allOnes 16)) →
      exec .fence s = .next (c.retire ((s.dropReads c.w.core).setWave c.key { c.w with fencing := none }) c.advance)) ∧
    (Issues s c (checksOf .fence c) → (∀ e, c.w.det = some e → e.past = some c.gang) → (c.w.fencing = none ∨ c.w.fencing = some c.gang) →
      (c.now < c.w.times.at_ (mdScope c.w.md) ∨ ∃ o ∈ c.w.memOps, o.kind.isAccess = true ∧ o.kind.isProbe = false ∧
        ∃ u ∈ o.units, u.lane < 64 ∧ u.out = true) →
      exec .fence s = .next (c.wait (s.modWave c.key (fun w =>
        { (if c.w.loadsReturning then w else w.endQuantum) with fencing := some c.gang })))) ∧
    (Issues s c (checksOf (.fencel scope) c) → (∀ e, c.w.det = some e → e.past = some c.gang) →
      (∀ o ∈ c.w.memOps, o.kind.isAccess = true → o.kind.isProbe = false → ∀ u ∈ o.units,
        (c.exec.getLsbD u.lane = true ∨ (o.kind.isBarrier = true ∧ meets o.gang c.gang = true)) → u.out = false) →
      (∀ t ∈ s.tileAccesses c.key c.w, meets t.gang c.gang = false) →
      (∀ (i : Nat) (x : Slice), c.gang.getLsbD i = true → c.w.slices[i]? = some x → x.times.at_ scope.toNat ≤ c.now) →
      (scope.toNat < 4 ∨ sent c.gang) →
      exec (.fencel scope) s = .next (c.retire (s.dropReads c.w.core) c.advance)) ∧
    (i ∈ ([.fence, .fencel scope, .bartry d a b, .barwt phase a b] : List Instr) ∨
        (i = .mwait a ∧ n ≠ 0) → Issues s c (checksOf i c) → ∀ e, c.w.det = some e → e.past ≠ some c.gang →
      exec i s = .next (c.wait (s.modWave c.key (fun w =>
        { w with det := w.det.map (fun d => { d with ended := true, past := some c.gang }) })))) ∧
    (Issues s c (checksOf .invl1 c) → ∃ t, exec .invl1 s = .next (c.retire t c.advance) ∧ t.hbm = s.hbm ∧
      t.blocks = s.blocks ∧ t.dies = s.dies ∧ (∀ k, t.cores.get? c.w.core = some k → k.l1 = []) ∧
      (∀ f ∈ t.fills, f.core = c.w.core → f.overL1 = true) ∧
      ∀ k w, s.waves.get? k = some w → t.waves.get? k = some (if w.core = c.w.core then { w with
        memOps := w.memOps.map (fun o => { o with units := o.units.map (fun u => { u with noL1 := true }) }) } else w)) ∧
    (Issues s c (checksOf (.lease a) c) → n ≤ 1024 → exec (.lease a) s =
      .next (c.retire (s.setWave c.key { c.w with lease := if n = 0 then 1024 else n }) c.advance)) ∧
    (Issues s c (checksOf (.lease a) c) → 1024 < n → exec (.lease a) s = c.traps s (causesIn c.src .illegalOperand c.exec))

/-- In part, after R277 to R280, R282: BARINIT, BAREXP and BARARR complete and post one update of the object for the gang;
BARTRY completes and gives every executing lane whether the phase differs from the one named; BARWT goes on when it
differs and otherwise parks its gang with its limit; FETEST completes and gives each lane whether its line is full. A
gang whose accesses are held back or whose own earlier access to the object is on its way waits; a read in the core's own
slot answers at once, and one of another core's slot is sent there and answers when it is back (R237). BARINIT sets the object, BAREXP adds to the
bytes expected, BARARR adds to the arrivals up to ECNT; when both counts are met the phase turns and the counts
restart. Its 16 bytes read back. -/
def Obligations.BarrierObjects : Prop :=
  (∀ (s : State) (c : Ctx) (d a b : VCode) (loc : Loc),
     let passed := ∀ e, c.w.det = some e → e.past = some c.gang
     let n := c.operand (.data 1) b 0
     let unit : MemUnit := ⟨(bitsOf c.exec).headD 0, 0, 16, BitVec.ofNat 64 (c.addressOf a 0), loc, .issued,
       BitVec.ofNat 64 n, 0, 0, 0, 0, none, none, 0, false, false⟩
     let obj := BarObj.ofNat (s.readLoc loc 16)
     (∀ (i : Instr) (kind : MemKind), (i, kind) ∈ ([(.barinit a b, .barInit), (.barexp a b, .barExp),
         (.bararr a b, .barArr)] : List (Instr × MemKind)) → Issues s c (checksOf i c) → c.barrierAt s a = .ok loc →
       (kind = .barInit → 1 ≤ n ∧ n ≤ 65535) → c.accessHeld = false →
       let o := c.newOp kind 16 false false false [unit]
       (c.w.isDet = false → s.slotsFree c.w o = true → exec i s =
         .next (c.retire ((s.setWave c.key { c.w with memOps := c.w.memOps ++ [o] }).depart c.key) c.advance)) ∧
       (∀ e, c.w.det = some e →
         let lines := (e.lines ++ [loc.line]).eraseDups
         ((e.buffer = [] ∨ lines.length ≤ 256) → exec i s = .next
           (c.retire (s.setWave c.key { c.w with det := some { e with buffer := e.buffer ++ [.mem o] } }) c.advance)) ∧
         (e.buffer ≠ [] → 256 < lines.length → exec i s =
           .next (c.wait (s.modWave c.key (fun w => { w with det := w.det.map (fun d => { d with ended := true }) })))))) ∧
     (Issues s c (checksOf (.barinit a b) c) → (n = 0 ∨ 65535 < n) →
       exec (.barinit a b) s = c.traps s (causesIn c.src .illegalOperand c.exec)) ∧
     (∀ (c' : Ctx) (ph : Bool), c.phaseAt s a loc = .ok (c', ph) → c.barrierAt s a = .ok loc → passed →
       (Issues s c (checksOf (.bartry d a b) c) →
         let hit := ph ≠ decide (n % 2 = 1)
         exec (.bartry d a b) s = c.leaves ((if hit then s.dropReads c.w.core else s).setWave c.key
           (c'.w.pwrite d.pNum c.exec (if hit then BitVec.allOnes 64 else 0)))) ∧
       (∀ phase : BitVec 1, Issues s c (checksOf (.barwt phase a b) c) →
         (ph ≠ decide (phase = 1) → exec (.barwt phase a b) s = c.leavesWave (s.dropReads c.w.core) c'.w) ∧
         (ph = decide (phase = 1) → exec (.barwt phase a b) s = c.places
           (((s.dropReads c.w.core).setWave c.key (c'.parked (.barwt c.src (BitVec.ofNat 64 (c.addressOf a 0))
             (phase == 1) n (if n = 0 then none else some (c.now + n))))).releaseBarwt)))) ∧
     (∀ (phase : BitVec 1) (i : Instr) (r : Res), i = .bartry d a b ∨ i = .barwt phase a b → Issues s c (checksOf i c) → passed →
       c.barrierAt s a = .ok loc → c.phaseAt s a loc = .error r → exec i s = .next (c.finish s r)) ∧
     (let held := c.accessHeld || c.pendingAt loc 16
      let read : MemUnit := ⟨(bitsOf c.exec).headD 0, 0, 16, BitVec.ofNat 64 (c.addressOf a 0), loc, .issued,
        0, 0, 0, 0, 0, none, none, 0, false, false⟩
      let probe := c.newOp (.probe false) 1 false false false [read]
      let rest := c.w.memOps.filter (fun o => !(o.kind.isProbe && meets o.gang c.gang))
      let mine := c.w.memOps.find? (fun o => o.kind == .probe false && o.gang == c.gang && o.src.claddr == c.src.claddr)
      (held = true → c.phaseAt s a loc = .error (c.stallForCommit s)) ∧
      (∀ e, held = false → c.w.det = some e →
        c.phaseAt s a loc = .ok (c, (BarObj.ofNat ((s.detView c.w.core e).readLoc loc 16)).ph)) ∧
      (held = false → c.w.det = none → s.remote c.w.core loc = false → c.phaseAt s a loc = .ok (c, obj.ph)) ∧
      (held = false → c.w.det = none → s.remote c.w.core loc = true →
        (mine = none → s.slotsFree { c.w with memOps := rest } probe = true → c.phaseAt s a loc = .error (.hold
          ((s.setWave c.key { c.w with memOps := rest ++ [probe], seq := c.w.seq + 1 }).depart c.key))) ∧
        (mine = none → s.slotsFree { c.w with memOps := rest } probe = false → c.phaseAt s a loc = .error .stall) ∧
        (∀ o, mine = some o →
          (o.units.all (s.back c.w o) = false → c.phaseAt s a loc = .error .stall) ∧
          (o.units.all (s.back c.w o) = true → c.phaseAt s a loc = .ok ({ c with w := { c.w with memOps := rest } },
            o.units.any (fun u => u.lane == (bitsOf c.exec).headD 0 && u.data == 1)))))) ∧
     (Issues s c (checksOf (.fetest d a) c) → c.accessHeld = false →
       let r := s.checkAll c.w c.blk c.src ((bitsOf c.act).map (fun l =>
         ⟨l, c.addressOf a l % 2 ^ 64, 1, 1, [0xF0, 0xF1], false, .unchecked⟩))
       let units := r.1.flatMap (fun g => unitsOf g false 1 0 0 0)
       (∀ g ∈ r.1, c.pendingAt g.loc.line 128 = false) →
       (∀ (c' : Ctx) (hit : Nat → Bool), c.readAt s true units = .ok (c', hit) →
         let full := maskOf 64 ((r.1.map (fun g => g.ask.lane)).filter hit)
         exec (.fetest d a) s = c.leaves ((if full = 0 then s else s.dropReads c.w.core).setWave c.key
           ((c'.w.pwrite d.pNum (maskOf 64 (r.1.map (fun g => g.ask.lane))) full).record r.2))) ∧
       (∀ x, c.readAt s true units = .error x → exec (.fetest d a) s = .next (c.finish s x)) ∧
       (∀ e, c.w.det = some e → c.readAt s true units = .ok (c, fun l => units.any (fun u =>
         u.lane == l && !(s.detView c.w.core e).lineEmpty u.loc))) ∧
       (c.w.det = none → (∀ u ∈ units, s.remote c.w.core u.loc = false) →
         c.readAt s true units = .ok (c, fun l => units.any (fun u => u.lane == l && !s.lineEmpty u.loc))))) ∧
  ((∀ (b : BarObj) (n : Nat),
     let e := (b.expb + n) % 2 ^ 32
     let k := min b.ecnt (b.acnt + n)
     BarObj.expect n b = (if b.acnt = b.ecnt ∧ b.arrb = e then ⟨!b.ph, 0, b.ecnt, 0, 0⟩ else { b with expb := e }) ∧
     BarObj.arrive n b = (if k = b.ecnt ∧ b.arrb = b.expb then ⟨!b.ph, 0, b.ecnt, 0, 0⟩ else { b with acnt := k })) ∧
   (∀ b : BarObj, b.acnt < 2 ^ 16 → b.ecnt < 2 ^ 16 → b.arrb < 2 ^ 32 → b.expb < 2 ^ 32 → BarObj.ofNat b.toNat = b) ∧
   ∀ (s : State) (core : Nat) (o : MemOp) (u : MemUnit),
     (match u.loc with
       | .scratch b h _ => ∃ y, s.blocks.get? b = some y ∧ h < y.halves.length
       | .region id _ => ∃ y, s.regions.get? id = some y
       | _ => False) →
     let old := BarObj.ofNat (s.readLoc u.loc 16)
     let after := fun (b : BarObj) => ((s.performUnit core o u).1).readLoc u.loc 16 = b.toNat % 2 ^ 128
     (o.kind = .barInit → after ⟨false, 0, u.data.toNat, 0, 0⟩) ∧ (o.kind = .barExp → after (old.expect u.data.toNat)) ∧
     (o.kind = .barArr → after (old.arrive u.data.toNat)))

/-- In part, after R62, R268, R343 to R345: PFD and IPF complete, whatever their addresses; GFIRE completes and posts its
tokens behind a release by every lane in `act`, and SPAWN completes and posts a task for each lane in `act`, each behind a
release; LAUNCH completes: it reads its descriptor and starts a grid, and S[d] takes 0, or the number of the check that
failed. A lane whose argument is wrong records its cause, and with no lane in `act` GFIRE and LAUNCH do nothing. -/
def Obligations.TasksAndPrefetches : Prop :=
  ∀ (s : State) (c : Ctx) (d a b : VCode),
    let plat := c.addressOf a 0
    let x := c.operand (.data 2) b 0
    let post := fun (o : MemOp) => (s.modWave c.key (fun w =>
      match w.det with
      | none => { w with idem := false, side := true, memOps := w.memOps ++ [o] }
      | some d => { w with idem := false, side := true, det := some { d with buffer := d.buffer ++ [.mem o] } })).depart c.key
    let turn := fun (f : Wave → Bool) => c.behind s (fun w y => f w && opcodeOf y == opcodeOf c.src.word) = false
    (∀ level : BitVec 1, Issues s c (checksOf (.pfd level a) c) → ∃ units : List MemUnit,
      (∀ u ∈ units, u.len = 128 ∧ c.act.getLsbD u.lane = true) ∧
      exec (.pfd level a) s = .next (c.retire (if c.w.isDet = true ∨ units = [] then s else
        (s.setWave c.key { c.w with memOps := c.w.memOps ++
          [c.newOp (.prefetch (level == 0)) 128 false false false units] }).depart c.key) c.advance)) ∧
    (∀ (level : BitVec 2) (count : BitVec 5), Issues s c (checksOf (.ipf level a count) c) →
      (∃ t, exec (.ipf level a count) s = .next (c.retire t c.advance) ∧ t.blocks = s.blocks ∧ t.grids = s.grids ∧
        t.privMem = s.privMem ∧ ∀ k w, s.waves.get? k = some w → ∃ w', t.waves.get? k = some w' ∧ w'.v = w.v ∧ w'.s = w.s ∧
          w'.p = w.p ∧ w'.md = w.md ∧ w'.fx = w.fx ∧ w'.memOps = w.memOps) ∧
      (count = 1 → ∀ t line, s.codeLine c.w ((c.wordTarget a).toNat / 64 * 64) = some (t, line) →
        exec (.ipf level a count) s = c.leaves (if t.hpoison.contains (line / 2) then t
          else t.ipfFill level.toNat c.w.core c.w.quad c.w.part line)) ∧
      (count = 1 → s.codeLine c.w ((c.wordTarget a).toNat / 64 * 64) = none → exec (.ipf level a count) s = c.leaves s)) ∧
    (Issues s c (checksOf (.gfire a b) c) → c.act ≠ 0 → c.accessHeld = false → plat % 64 = 0 → plat < 2 ^ 56 →
      exec (.gfire a b) s = .next (c.retire (post (c.newOp (.token (BitVec.ofNat 64 plat) (natBits x 0 16)
        (if natBits x 16 16 = 0 then 1 else natBits x 16 16) (natBits x 32 32)) 0 false false false
        ((bitsOf c.act).map (fun l => ⟨l, 0, 0, 0, .priv 0, .issued, 0, 0, 0, 0, 0, none, none, 0, false, false⟩)))) c.advance)) ∧
    (∀ cause, Issues s c (checksOf (.gfire a b) c) → c.act ≠ 0 → c.accessHeld = false →
      (plat % 64 ≠ 0 ∧ cause = .misaligned ∨ plat % 64 = 0 ∧ 2 ^ 56 ≤ plat ∧ cause = .window) →
      exec (.gfire a b) s = c.leavesWave s (c.w.record ((bitsOf c.act).map (fun l =>
        { laneCause c.src cause l with faddr := BitVec.ofNat 64 plat })))) ∧
    (Issues s c (checksOf (.gfire a b) c) → c.act = 0 → exec (.gfire a b) s = .next (c.retire s c.advance)) ∧
    (Issues s c (checksOf (.spawn a b) c) → c.accessHeld = false → turn (fun w => dieOf w.core == dieOf c.w.core) →
      s.taskLoad (dieOf c.w.core) + (bitsOf c.act).length ≤ 16384 → c.act ≠ 0 →
      (∀ l, c.act.getLsbD l = true → l < 64 → s.spawnFault c.w.part (c.operand .raw a l) (c.addressOf b l) = none) →
      exec (.spawn a b) s = .next (c.retire (post (c.newOp (.task 0) 0 false false false ((bitsOf c.act).map (fun l =>
        ⟨l, 0, 0, 0, .priv 0, .issued, BitVec.ofNat 64 (c.addressOf b l), BitVec.ofNat 64 (c.operand .raw a l), 0, 0, 0, none,
          none, 0, false, false⟩)))) c.advance)) ∧
    (Issues s c (checksOf (.launch d a) c) → c.act = 0 → exec (.launch d a) s = .next (c.retire s c.advance)) ∧
    (Issues s c (checksOf (.launch d a) c) → c.act ≠ 0 → plat % 64 = 0 → plat < 2 ^ 56 → c.accessHeld = false →
      s.accessesDone c.key c.w c.gang c.act = true → c.performedAt c.act (max 3 (mdScope c.w.md)) = true →
      (∀ e, c.w.det = some e → e.past = some c.gang) → s.launchesWaiting c.w.part < 4096 → (s.func c.w.func).switching = none →
      (s.func c.w.func).active = true → turn (fun w => w.part == c.w.part) →
      ∀ (t : State) (l : Loc), let s1 := s.modWave c.key (fun w => { w with idem := false, side := true })
      s1.enginePlace globalDecoder c.w.func c.w.priv false plat 64 = (t, .ok l) → t.poisoned l = false →
      let words := (List.range 16).map (fun i => BitVec.ofNat 32 (t.readLoc l 64 / 2 ^ (32 * i)))
      let own := (t.grids.get? c.blk.grid).map (fun g => (g.wgt, min g.launch.prio (t.func c.w.func).prioceil))
      let r := t.startGrid c.w.func true words (own.getD (1, 0)).1 (own.getD (1, 0)).2 .device false
      exec (.launch d a) s = .next (c.retire (r.1.modWave c.key (fun w => w.swrite d.sNum 1 (match r.2 with
        | .ok _ => 0
        | .error n => n))) c.advance)) ∧
    (Issues s c (checksOf (.launch d a) c) → c.act ≠ 0 → plat % 64 ≠ 0 → exec (.launch d a) s =
      c.leaves (s.modWave c.key (fun w => w.record ((bitsOf c.act).map (fun l =>
        { laneCause c.src .misaligned l with faddr := BitVec.ofNat 64 plat })))))

/-! ## Engines, fabric and matrix -/

/-- In part, after R31, R296, R303, R308 to R310, R314, R411 to R415: XCPY, XTILE, XGATH, XSCAT and XRED complete: with no
lane in `act` the clause's flag counts them and they do nothing else; a transfer whose descriptor passes its checks
registers its two easements and starts, once it is its gang's turn at the core's easement entries; a descriptor that fails
records the cause in the elected lane, and the flag counts it. XCHAIN completes and starts a chain on a free channel,
XCANCEL tells a channel to stop, and XSTAT reads a channel's CHSTAT, record count and current record; in a deterministic
launch all of them wait for the commit, and the quantum ends with XSTAT (a choice of the model, log entry 24). ESND and ERCV
complete: with a descriptor that passes its checks they register one easement over their bytes and join the fabric's
operations; otherwise the elected lane records the cause. What the flag counts without an operation is over in a later
tick (R31). ESTAMP gives Datum time and EWMARK the watermark of all inputs or of one. -/
def Obligations.EnginesStart : Prop :=
  (∀ (s : State) (c : Ctx) (d a : VCode) (ch : BitVec 4),
     let desc := (List.range 12).map (fun i => c.w.s.get (a.sNum + i))
     let dec := s.waveDecoder c.w c.blk
     let head := c.addressOf a 0
     let flag := hdrSetB c.src.hdr
     let idle := { c.w.flagUp flag with specials := c.w.specials ++ [⟨c.src.ord, c.now, flag, [], 0, c.gang⟩] }
     let started := fun (t : State) (x : Transfer) (side : Bool) => { ({ t with xfers := t.xfers ++ [x] }.modWave c.key
       (fun w => w.engineIssued flag s.nextId side)) with nextId := s.nextId + 1 }
     (∀ (i : Instr) (op : XOp), (i, op) ∈ ([(.xcpy a, .cpy), (.xtile a, .tile), (.xgath a, .gath), (.xscat a, .scat),
         (.xred a, .red)] : List (Instr × XOp)) → Issues s c (checksOf i c) →
       (c.act = 0 → exec i s = c.leavesWave s idle) ∧
       (c.act ≠ 0 → s.descFault dec op desc = none → c.w.isDet = false → c.easeTurn s 2 = true → exec i s = .next (c.retire
         (started (s.addEases c.w.core (opEases dec s.nextId c.w.func op desc)) { c.newXfer s op desc with eased := true }
           (descDst desc / 2 ^ 56 == 0)) c.advance)) ∧
       (c.act ≠ 0 → s.descFault dec op desc = none → c.w.isDet = true → exec i s = .next (c.retire
         (started s (c.newXfer s op desc) (descDst desc / 2 ^ 56 == 0)) c.advance)) ∧
       (c.act ≠ 0 → s.descFault dec op desc = none → c.w.isDet = false → c.easeTurn s 2 = false →
         exec i s = .next (c.wait s)) ∧
       (∀ cause addr xinfo, c.act ≠ 0 → s.descFault dec op desc = some (cause, addr, xinfo) →
         exec i s = c.leavesWave s (idle.record
           [⟨(bitsOf c.act).headD 0, cause, false, xinfo, BitVec.ofNat 64 addr, c.src, false, none⟩]))) ∧
     (Issues s c (checksOf (.xchain ch a) c) → c.act = 0 → exec (.xchain ch a) s = c.leavesWave s idle) ∧
     (∀ cause, Issues s c (checksOf (.xchain ch a) c) → c.act ≠ 0 → (head % 64 ≠ 0 ∧ cause = .misaligned ∨
         head % 64 = 0 ∧ head / 2 ^ 56 ∉ [0x00, 0xF0, 0xF2] ∧ cause = .window) →
       exec (.xchain ch a) s = c.leavesWave s (idle.record
         [⟨(bitsOf c.act).headD 0, cause, false, 0, BitVec.ofNat 64 head, c.src, false, none⟩])) ∧
     (Issues s c (checksOf (.xchain ch a) c) → c.act ≠ 0 → head % 64 = 0 →
       (head / 2 ^ 56 = 0 ∨ head / 2 ^ 56 = 0xF0 ∨ head / 2 ^ 56 = 0xF2) →
       let x := { c.newXfer s .cpy [] with chain := true, ch := ch.toNat, cur := BitVec.ofNat 64 head, loaded := false }
       let turn := c.behind s (fun w y => w.core == c.w.core && s.wantsChannel w y) = false ∧
         s.chainWaits c.w.core ((c.w.stalledSince c.gang).getD c.now) = false
       (c.w.isDet = false → s.chanFree c.w.block ch.toNat c.w.core = true → turn → exec (.xchain ch a) s = .next (c.retire
         (started (s.openChan c.w.block ch.toNat (BitVec.ofNat 64 head)) x false) c.advance)) ∧
       (c.w.isDet = true → exec (.xchain ch a) s = .next (c.retire (started s x false) c.advance)) ∧
       (c.w.isDet = false → (s.chanFree c.w.block ch.toNat c.w.core = false ∨ ¬ turn) →
         exec (.xchain ch a) s = .next (c.wait s))) ∧
     (Issues s c (checksOf (.xcancel ch) c) → ∀ e, c.w.det = some e → exec (.xcancel ch) s = .next (c.retire
       (s.setWave c.key { c.w with det := some { e with buffer := e.buffer ++ [.cancel ch.toNat] } }) c.advance)) ∧
     (Issues s c (checksOf (.xcancel ch) c) → c.w.isDet = false → exec (.xcancel ch) s = .next (c.retire
       { s with xfers := s.xfers.map (fun x => if x.chain && !x.buffered && x.block == some c.w.block && x.ch == ch.toNat
           then { x with cancel := true } else x) } c.advance)) ∧
     (Issues s c (checksOf (.xstat d ch) c) → c.w.isDet = false →
       let k := c.blk.chan ch.toNat
       exec (.xstat d ch) s = .next (c.retire (s.setWave c.key (((c.w.swrite d.sNum 1
         (k.dones % 2 ^ 24 + k.cause % 2 ^ 5 * 2 ^ 24 + (if k.err then 2 ^ 29 else 0) + (if k.can then 2 ^ 30 else 0) +
           (if k.run then 2 ^ 31 else 0))).swrite (d.sNum + 1) 1 k.recs).swrite (d.sNum + 2) 2 k.cur.toNat)) c.advance)) ∧
     (Issues s c (checksOf (.xstat d ch) c) → ∀ e, c.w.det = some e → exec (.xstat d ch) s = .next (c.retire (s.setWave c.key
       { c.w with det := some { e with buffer := e.buffer ++ [.stat d.sNum ch.toNat], ended := true } }) c.advance))) ∧
  (∀ (s : State) (c : Ctx) (d a : VCode),
     let desc := (List.range 4).map (fun i => c.w.s.get (a.sNum + i))
     let flag := hdrSetB c.src.hdr
     let idle := { c.w.flagUp flag with specials := c.w.specials ++ [⟨c.src.ord, c.now, flag, [], 0, c.gang⟩] }
     let off := natBits (desc.getD 0 0).toNat 0 20
     (∀ (i : Instr) (send : Bool) (n : Nat), (i = .esnd a ∧ send = true ∧ n = natBits (desc.getD 1 0).toNat 0 9) ∨
         (i = .ercv a ∧ send = false ∧ n = 320) → Issues s c (checksOf i c) →
       (c.act = 0 → exec i s = c.leavesWave s idle) ∧
       (c.act ≠ 0 →
         let fault := if send then s.esndFault c.w c.blk desc else s.ercvFault c.w c.blk desc
         let ease : Ease := ⟨s.nextId, !send, c.w.func, BitVec.ofNat 64 (0xF0 * 2 ^ 56 + off / 128 * 128),
           [(.scratch c.w.block c.w.half 0, off / 128, (off + n - 1) / 128)]⟩
         (∀ cause, fault = some cause →
           exec i s = c.leavesWave s (idle.record [laneCause c.src cause ((bitsOf c.act).headD 0)])) ∧
         (fault = none → c.w.isDet = false → c.easeTurn s 1 = false → exec i s = .next (c.wait s)) ∧
         (fault = none → (c.w.isDet = true ∨ c.easeTurn s 1 = true) → ∃ x : FabricOp,
           x.id = s.nextId ∧ x.at_ = c.now ∧ x.send = send ∧ x.wave = c.key ∧ x.desc = desc ∧ x.flag = flag ∧
           x.injected = false ∧ x.took = false ∧ x.buffered = c.w.isDet ∧ x.lane = (bitsOf c.act).headD 0 ∧
           exec i s = .next (c.retire { ((if c.w.isDet then s else s.addEases c.w.core [ease]).modWave c.key
             (fun w => w.engineIssued flag s.nextId true)) with
             fabops := s.fabops ++ [x], nextId := s.nextId + 1 } c.advance)))) ∧
     (Issues s c (checksOf (.estamp d) c) →
       exec (.estamp d) s = .next (c.retire (s.setWave c.key (c.w.swrite d.sNum 2 c.now)) c.advance)) ∧
     (∀ sel : BitVec 5, Issues s c (checksOf (.ewmark d sel) c) → exec (.ewmark d sel) s = .next (c.retire
       (s.setWave c.key (c.w.swrite d.sNum 2 (if sel = 0 then s.dw
         else if (s.input (sel.toNat - 1)).fenced then 2 ^ 64 - 1 else (s.input (sel.toNat - 1)).wmark))) c.advance)))

/-- In part, after R190 to R217, R251, R256: MMA, MMAR, MMAS, ACLD, ACST, ACSP, ACADD and ACSCL complete: an instruction
whose checks pass joins its core's matrix engine, raises its SETB flag and goes on; issued again after a cut it stands
before its wave's later operations (R208). One whose scratchpad or ownership check fails traps, in the tick in which the
engine could accept it (R192; log entry 51, read from the spec by inference). One whose first read finds an empty line
parks its gang (R197, R351; log entry 78, the same). One that touches scratchpad waits while its wave's accesses are held
back. In a deterministic launch the engine accepts it at once, in the turn of its wave (R388). -/
def Obligations.TileOperationsAccepted : Prop :=
  ∀ (s : State) (c : Ctx) (d a b : VCode) (i : Instr) (kind : TileKind) (guarded : Bool) (baddr aaddr : DWord)
    (fb0 fb1 : Word) (nk : Nat) (own : Owner) (tiles : List Nat) (ranges scales : List (Nat × Nat)) (f : Wave → Wave),
    let t := c.w.sread d.sNum 1 % 2 ^ 12
    let u := c.w.sread a.sNum 1 % 2 ^ 12
    let pair := fun (x : VCode) => BitVec.ofNat 64 (c.w.sread x.sNum 2)
    let f0 := c.w.s.get (b.sNum + 2)
    let f1 := c.w.s.get (b.sNum + 3)
    let ta := Ty.ofCode (fmtType f0)
    let tb := Ty.ofCode (fmtType f1)
    let m := c.w.rowCount
    let rows := (bitsOf (c.w.sliceMask (fun _ => true))).filter (fun i => sliceBits c.act i != 0)
    let dense := rows.map (fun i => (i, c.denseRow ta a.vNum i))
    let sparse := rows.map (fun i => (i, c.sparseRow ta a.vNum i))
    let n := stepLength ta
    let keep := fun (l : Option Latch) (w : Wave) => { w with latch := l }
    let plain := [t] = tiles ∧ ranges = [] ∧ scales = [] ∧ (baddr, aaddr, fb0, fb1, nk) = (0, 0, 0, 0, 0) ∧ f = id
    ((i = .mma d a b ∧ kind = .mma dense ∧ f = keep none ∨ i = .mmar d a b ∧ kind = .mma dense ∧ f = keep (some ⟨a.vNum, f0⟩)) ∧
        tiles = [t] ∧ guarded = true ∧ own = .engine ∧ (baddr, aaddr, fb0, fb1, nk) = (pair b, 0, f0, f1, 1) ∧
        ranges = [((pair b).toNat, 2 * n * tb.bits)] ∧ scales = scaleRanges f0 f1 m 0 1 n ∨
      i = .mmas d a b ∧ kind = .mmas sparse ∧ f = keep none ∧
        tiles = [t] ∧ guarded = true ∧ own = .engine ∧ (baddr, aaddr, fb0, fb1, nk) = (pair b, 0, f0, f1, 1) ∧
        ranges = [((pair b).toNat, 2 * (2 * n) * tb.bits)] ∧ scales = scaleRanges f0 f1 m 0 1 (2 * n) ∨
      i = .acld d a ∧ kind = .acld d.vNum ∧ tiles = [u] ∧ guarded = true ∧ own = .mine ∧ ranges = [] ∧ scales = [] ∧
        (baddr, aaddr, fb0, fb1, nk) = (0, 0, 0, 0, 0) ∧ f = id ∨
      i = .acst d a ∧ kind = .acst ((bitsOf c.act).flatMap (fun l => (List.range 4).map (fun e =>
          (256 * t + 16 * (l / 4) + 4 * (l % 4) + e, BitVec.ofNat 32 (c.vread (a.vNum + e) 1 l))))) ∧
        plain ∧ guarded = true ∧ own = .mine ∨
      i = .acsp d a ∧ kind = .acsp (pair a) ∧ tiles = [t] ∧ guarded = false ∧ own = .mine ∧ scales = [] ∧
        ranges = [((pair a).toNat, 32 * (mdType2 c.w.md).bits)] ∧ (baddr, aaddr, fb0, fb1, nk) = (0, 0, 0, 0, 0) ∧ f = id ∨
      i = .acadd d a ∧ kind = .acadd u ∧ tiles = [t, u] ∧ guarded = false ∧ own = .engine ∧ ranges = [] ∧ scales = [] ∧
        (baddr, aaddr, fb0, fb1, nk) = (0, 0, 0, 0, 0) ∧ f = id ∨
      i = .acscl d a ∧ kind = .acscl (BitVec.ofNat 32 (c.operand (.typed (mdType c.w.md)) a 0)) ∧ plain ∧
        guarded = false ∧ own = .engine) →
    Issues s c (checksOf i c) → (c.accessHeld = false ∨ ranges = []) → c.tileTurn s = true →
    let o := c.newTop s kind (tiles.headD 0) guarded baddr aaddr fb0 fb1 nk
    let before := fun (r : Replay) (x : TileOp) => !(x.wave == c.key && decide (r.src.ord < x.src.ord))
    let placed := fun (l : List TileOp) => match c.w.replays.head?.filter (fun r => r.flag.isSome) with
      | some r => l.takeWhile (before r) ++ o :: l.dropWhile (before r)
      | none => l ++ [o]
    let fault := c.scratchFault s (i == .acsp d a) ranges scales
    let free := s.engineFree c.w.core = true
    let joined := ({ s.modHalf c.w.block c.w.half (fun h => { h with tops := placed h.tops }) with
      nextId := s.nextId + 1 }).modWave c.key (fun w => (f w).flagUp (hdrSetB c.src.hdr))
    (∀ cause addr x, fault = some (cause, addr, x) → free → exec i s = c.traps s ((bitsOf c.exec).map (fun l =>
      ⟨l, cause, false, x, BitVec.ofNat 64 addr, c.src, false, none⟩))) ∧
    (∀ cause, fault = none → c.ownFault own false tiles = some cause → free → exec i s = c.traps s ((bitsOf c.exec).map (fun l =>
      ⟨l, cause, false, 0, 0, c.src, false, none⟩))) ∧
    ((fault ≠ none ∨ c.ownFault own false tiles ≠ none) → ¬ free → exec i s = .next (c.wait s)) ∧
    (fault = none → c.ownFault own false tiles = none → c.w.isDet = false →
      (o.steps = false ∨ o.rows = 0 ∨ ∀ k ∈ rangeLines (o.stepRanges m), k ∉ (s.half c.w.block c.w.half).empty) →
      exec i s = .next (c.retire joined c.advance)) ∧
    (fault = none → c.ownFault own false tiles = none → c.w.isDet = false →
      o.steps = true → o.rows ≠ 0 → (joined.half c.w.block c.w.half).blocked o = false →
      (∃ k ∈ rangeLines (o.stepRanges m), k ∈ (joined.half c.w.block c.w.half).empty) →
      ((joined.half c.w.block c.w.half).top? o.id).isSome = true →
      exec i s = c.places ((joined.modHalf c.w.block c.w.half (fun h => h.modTop o.id (fun x =>
        { x with since := some s.time }))).modWave c.key (fun w => Ctx.parked { c with w := w } (.tile c.src c.w.half o.id)))) ∧
    (fault = none → c.ownFault own false tiles = none → c.w.isDet = true → free →
      exec i s = .next (c.finish s (c.joinTop (s.noteAccepted c.w.core) o f)))

/-- In part, after R205 to R210, R213: an MMAK completes: it also starts its benchmark record, and waits while one of its tile
runs; ACZ completes and zeroes its tile, behind the earlier operations on it; ACQ completes and takes a tile's token, and REL
gives it back; ACWIN completes and sets windows; BMARK completes and reads a benchmark record. Those that take effect
at their acceptance do so in the tick in which the engine takes no other, and else wait (R194; log entry 51, read from the
spec by inference); a benchmark record that no MMAK has written reads 0 (a choice of the model, log entry 1). -/
def Obligations.TileControl : Prop :=
  ∀ (s : State) (c : Ctx) (d a b : VCode), c.tileTurn s = true →
    let t := c.w.sread d.sNum 1 % 2 ^ 12
    let u := c.w.sread a.sNum 1 % 2 ^ 12
    let free := s.engineFree c.w.core = true
    let took := s.modCore c.w.core (fun k => { k with accepted := some s.time })
    let onHalf := fun (s : State) (f : Half → Half) => s.modHalf c.w.block c.w.half f
    let before := fun (r : Replay) (x : TileOp) => !(x.wave == c.key && decide (r.src.ord < x.src.ord))
    let placed := fun (o : TileOp) (l : List TileOp) => match c.w.replays.head?.filter (fun r => r.flag.isSome) with
      | some r => l.takeWhile (before r) ++ o :: l.dropWhile (before r)
      | none => l ++ [o]
    let joined := fun (s : State) (o : TileOp) (f : Wave → Wave) => ({ onHalf s (fun h => { h with tops := placed o h.tops }) with
      nextId := s.nextId + 1 }).modWave c.key (fun w => (f w).flagUp o.flag)
    (Issues s c (checksOf (.mmak d a b) c) → c.accessHeld = false → c.w.isDet = false →
      let nk := natBits (c.w.sread d.sNum 1) 16 6 + 1
      let o := c.newTop s .mmak t true (BitVec.ofNat 64 (c.w.sread b.sNum 2)) (BitVec.ofNat 64 (c.w.sread a.sNum 2))
        (c.w.s.get (b.sNum + 2)) (c.w.s.get (b.sNum + 3)) nk
      let record : Bench := ⟨true, true, 0, mdSat c.w.md, mdSgnB c.w.md, mdSgnA c.w.md, nk - 1, c.w.index, o.rows, o.aaddr,
        o.baddr, o.fb0, o.fb1⟩
      c.scratchFault s false [(o.aaddr.toNat, nk * o.stepA c.w.rowCount), (o.baddr.toNat, nk * o.stepB)]
        (scaleRanges o.fb0 o.fb1 c.w.rowCount 0 nk o.width) = none → c.ownFault .engine false [t] = none →
      ((∃ x, c.half.bench.get? t = some x ∧ x.run = true) → exec (.mmak d a b) s = .next (c.wait s)) ∧
      ((∀ x, c.half.bench.get? t = some x → x.run = false) →
        (o.rows = 0 ∨ ∀ k ∈ rangeLines (o.stepRanges c.w.rowCount), k ∉ (s.half c.w.block c.w.half).empty) →
        exec (.mmak d a b) s = .next (c.retire (joined (onHalf s (fun h => { h with bench := h.bench.set t record })) o
          (fun w => { w with latch := none })) c.advance))) ∧
    (Issues s c (checksOf (.acz d) c) → c.ownFault .mine false [t] = none →
      let o := { c.newTop s .acz t false 0 0 0 0 0 with flag := none, atEnd := false }
      (c.w.isDet = false → (c.half.blocked o = true ∨ ¬ free) →
        exec (.acz d) s = .next (c.retire (joined s o id) c.advance)) ∧
      (c.half.blocked o = false → free → exec (.acz d) s = .next (c.retire (onHalf took (fun h =>
        h.putTile ((List.range 256).map (fun k => (256 * t + k, 0#32))))) c.advance))) ∧
    (Issues s c (checksOf (.acq d) c) → c.ownFault .free true [t] = none → free → exec (.acq d) s =
      .next (c.retire (onHalf took (fun h => { h with tokens := h.tokens.set t c.w.index })) c.advance)) ∧
    (Issues s c (checksOf (.rel d) c) → c.ownFault .mine true [t] = none → free → exec (.rel d) s =
      .next (c.retire (onHalf took (fun h => { h with tokens := h.tokens.erase t })) c.advance)) ∧
    (∀ (i : Instr) (o : Owner), (i, o) ∈ ([(.acq d, .free), (.rel d, .mine)] : List (Instr × Owner)) →
      Issues s c (checksOf i c) → (¬ free → exec i s = .next (c.wait s)) ∧
      (∀ cause, free → c.ownFault o true [t] = some cause → exec i s = c.traps s (c.tileCauses cause 0 0))) ∧
    (Issues s c (checksOf (.acwin d a b) c) →
      let base := c.operand .raw a 0
      let limit := c.operand .raw b 0
      let named := s.waves.filter (fun e => e.2.block == c.w.block && e.2.live != 0 &&
        (c.w.sread d.sNum 1 == 0xFFFFFFFF || e.2.index == c.w.sread d.sNum 1))
      let legal := c.w.index = 0 ∧ base ≤ limit ∧ limit ≤ c.half.acct ∧ (limit = 0 → base = 0) ∧ named ≠ []
      let owns := ∃ e ∈ named, ∃ t ∈ (c.blk.halves.getD e.2.half Half.none).tokens, t.2 = e.2.index
      (legal → ¬ owns → free → exec (.acwin d a b) s = .next (c.retire (named.foldl (fun s e => s.modWave e.1 (fun x =>
        { x with ab := BitVec.ofNat 32 base, al := BitVec.ofNat 32 limit })) took) c.advance)) ∧
      (legal → ¬ owns → ¬ free → exec (.acwin d a b) s = .next (c.wait s)) ∧
      (legal → owns → exec (.acwin d a b) s = c.traps s (c.tileCauses .accToken 0 0)) ∧
      (¬ legal → exec (.acwin d a b) s = c.traps s (c.tileCauses .accWindow 0 0))) ∧
    (Issues s c (checksOf (.bmark d a) c) → u < c.half.acct → free → exec (.bmark d a) s = .next (c.retire
      (took.modWave c.key (fun w => w.swrite d.sNum 8 ((c.half.bench.get? u).getD Bench.zero).toNat)) c.advance))

/-! ## Privileged instructions -/

/-- In part, after R49, R235, R355, R376 to R381: the words 0xD0 to 0xD7 complete in a wave with privilege. CTXSV saves the
issuing block's unit and gives its descriptor's address, and under another cut what log entry 29 reads from the spec; CTXRS releases a unit held; TLBINV removes its range from every
TLB of its function, and while page walks of the function that began before are under way it waits for them, and their
results enter no TLB (every walk of the function, log entry 119, read from the spec by inference); WFREEZE freezes a wave, or the issuing one, and says what it found; WKILL ends every lane of its
wave, or its whole block with a fatal cause; EASEQ gives the lowest easement that an address meets and their count;
CNTSEL sets a counter and CNTRD reads it. -/
def Obligations.PrivilegedEffects : Prop :=
  ∀ (s : State) (c : Ctx) (d a : VCode) (ctr : BitVec 3),
    let addr := c.addressOf a 0
    let put := fun (t : State) (k x : Nat) =>
      (.next (c.retire (t.modWave c.key (fun w => w.swrite d.sNum k x)) c.advance) : Host.Outcome State Fault Refusal)
    (Issues s c (checksOf (.ctxsv d a) c) →
      let hold := decide (c.operand (.data 1) a 0 % 2 = 1)
      (∀ u, s.cutOf c.w.block = some u → exec (.ctxsv d a) s = put s 2 (if u.method = .save then s.cairnOf u c.w.block else 0)) ∧
      (s.cutOf c.w.block = none → ∀ t u, s.beginSave (s.unitOf c.w.block) 2 hold 0 0 none = some (t, u) →
        exec (.ctxsv d a) s = put t 2 (t.cairnOf u c.w.block)) ∧
      (s.cutOf c.w.block = none → s.beginSave (s.unitOf c.w.block) 2 hold 0 0 none = none →
        exec (.ctxsv d a) s = .next (c.wait s))) ∧
    (Issues s c (checksOf (.ctxrs d a) c) →
      (s.isDesc c.w.part addr = false → exec (.ctxrs d a) s = put s 1 1) ∧
      (∀ u, s.isDesc c.w.part addr = true → s.unitAt c.w.part addr = some u → u.state = .held → u.loose = [] →
        exec (.ctxrs d a) s = put (s.releaseUnit u) 1 0) ∧
      (s.isDesc c.w.part addr = true → (∀ u, s.unitAt c.w.part addr = some u → ¬ (u.state = .held ∧ u.loose = [])) →
        exec (.ctxrs d a) s = put s 1 2)) ∧
    (∀ size : BitVec 8, Issues s c (checksOf (.tlbinv a size) c) →
      let lo := if size = 0xFF then 0 else addr / 2 ^ size.toNat * 2 ^ size.toNat
      let hi := if size = 0xFF then 2 ^ 56 else lo + 2 ^ size.toNat
      let gone := fun (e : TlbEntry) => e.func = c.w.func ∧ e.base < hi ∧ lo < e.base + 2 ^ e.bits
      let clean := fun (t : State) => t.hbm = s.hbm ∧ t.blocks = s.blocks ∧
        (∀ k x, s.cores.get? k = some x → ∃ y, t.cores.get? k = some y ∧ ∀ e, e ∈ y.tlb ↔ e ∈ x.tlb ∧ ¬ gone e) ∧
        (∀ (k : Nat) (x : Die), s.dies[k]? = some x → ∃ y, t.dies[k]? = some y ∧ ∀ e, e ∈ y.l2tlb ↔ e ∈ x.l2tlb ∧ ¬ gone e)
      let i := firstSlice c.gang
      (addr < 2 ^ 56 → c.w.invals.get? i = none → (∀ p ∈ s.walks, p.func ≠ c.w.func) →
        ∃ t, exec (.tlbinv a size) s = .next (c.retire t c.advance) ∧ clean t ∧ t.waves = s.waves) ∧
      (addr < 2 ^ 56 → c.w.invals.get? i = none → (∃ p ∈ s.walks, p.func = c.w.func ∧ p.id < s.nextId) →
        ∃ t, exec (.tlbinv a size) s = .next (c.wait t) ∧ clean t ∧ (∀ p ∈ t.walks, p.func = c.w.func → p.void = true) ∧
          ∃ w, t.waves.get? c.key = some w ∧ w.invals.get? i = some s.nextId) ∧
      (∀ n, addr < 2 ^ 56 → c.w.invals.get? i = some n →
        ((∃ p ∈ s.walks, p.func = c.w.func ∧ p.id < n) → exec (.tlbinv a size) s = .next (c.wait s)) ∧
        ((∀ p ∈ s.walks, p.func = c.w.func → n ≤ p.id) → exec (.tlbinv a size) s =
          .next (c.retire (s.modWave c.key (fun w => { w with invals := w.invals.erase i })) c.advance))) ∧
      (2 ^ 56 ≤ addr → exec (.tlbinv a size) s = c.traps s ((bitsOf c.exec).map (fun l =>
        { laneCause c.src .window l with faddr := BitVec.ofNat 64 addr })))) ∧
    (Issues s c (checksOf (.wfreeze d a) c) →
      let ident := c.operand (.data 2) a 0
      let named := fun (w : Wave) => w.part == c.w.part && !w.ended && w.waveid.toNat == ident
      let target := if ident = 0 then some (c.key, c.w) else s.waves.find? (fun e => named e.2)
      (∀ k w, target = some (k, w) → w.frozen = true → exec (.wfreeze d a) s = put s 1 2) ∧
      (∀ k w, target = some (k, w) → w.frozen = false → exec (.wfreeze d a) s = put (s.freezeWave k) 1 0) ∧
      (target = none → exec (.wfreeze d a) s =
        put s 1 (if ∃ u ∈ s.cuts, ∃ e ∈ u.waves, named e.2 = true then 3 else 1))) ∧
    (Issues s c (checksOf (.wkill 1) c) →
      exec (.wkill 1) s = .next (c.retire (s.fatal c.key (match c.w.handling with
        | some t => if c.w.inHandler then t.summary else .software
        | none => .software)) (fun w => if c.replay then w.dropReplay c.now else w))) ∧
    (Issues s c (checksOf (.wkill 0) c) →
      exec (.wkill 0) s = .next (c.retire (((s.modWave c.key (fun w => { w with
        slices := w.slices.map (fun x => { x with ex := 0xF, park := .none, held := false })
        exitScope := max w.exitScope 3, due := [], causes := [], replay := [] })).noteEnd c.key).settle c.key)
        (fun w => if c.replay then w.dropReplay c.now else w))) ∧
    (Issues s c (checksOf (.easeq d a) c) →
      let met := match s.waveDecoder c.w c.blk addr 1 with
        | .ok l => s.easesMet c.w.core c.w.func l addr 1
        | .error _ => []
      let first := met.head?.map (fun e => (2 ^ 31 + (if e.2.dst then 2 ^ 30 else 0) + e.1, e.2.base.toNat))
      exec (.easeq d a) s = .next (c.retire (s.setWave c.key (((c.w.swrite d.sNum 1 (first.getD (0, 0)).1).swrite (d.sNum + 1) 1
        met.length).swrite (d.sNum + 2) 2 (first.getD (0, 0)).2)) c.advance)) ∧
    (Issues s c (checksOf (.cntsel ctr a) c) →
      let x := c.operand (.data 1) a 0
      let new := fun (n : Counter) => (⟨natBits x 0 8, BitVec.ofNat 4 (natBits x 8 4), if natBits x 31 1 = 1 then 0 else n.count⟩ : Counter)
      exec (.cntsel ctr a) s = .next (c.retire (s.modCore c.w.core (fun k =>
        { k with counters := listUpdate k.counters ctr.toNat new })) c.advance)) ∧
    (Issues s c (checksOf (.cntrd d ctr) c) → exec (.cntrd d ctr) s = .next (c.retire
      (s.setWave c.key (c.w.swrite d.sNum 2 ((s.core c.w.core).counters.getD ctr.toNat ⟨0, 0, 0⟩).count)) c.advance))

/-! ## Frames -/

/-- The frame of the instructions with a vector destination that write nothing else than d, FX and, for ADDC and SUBB, p7:
in every next state, whatever the word met, each lane-register outside the destination and each lane outside the
executing ones keeps its value, as do the scalar registers, MD, the other predicates, every other wave, and every byte
of memory. -/
def Obligations.VectorWordFrame : Prop :=
  ∀ (s t : State) (c : Ctx) (w' : Wave) (d a b : VCode) (n : Fin 192) (i : Instr) (m2 m4 : BitVec 2) (m3 m5 : BitVec 3)
    (m1 : BitVec 1),
    i ∈ ([.add d a b, .sub d a b, .mul d a b, .fma d a b, .fms d a b, .fnma d a b, .min d a b, .max d a b, .abs d a, .neg d a,
      .scale d a b, .rint d a, .frxp d a m1, .cvt d a m3, .enct d a b, .dect d a m2, .mov d a, .sel d a b, .addc d a b,
      .subb d a b, .mulhi d a b, .mulw d a b, .and d a b, .or d a b, .xor d a b, .not d a, .shl d a b, .shr d a b, .sha d a b,
      .rot d a b, .clz d a, .popc d a, .brev d a, .bfe d a b, .bfi d a b, .clmul d a b, .clmulh d a b, .dot4 d a b, .dot2 d a b,
      .shfl d a b, .shflx d a b, .bcast d a b, .wred d a m5, .wscan d a m5, .spsel d a m4, .rcp d a, .rsq d a, .sqrt d a,
      .exp2 d a, .log2 d a, .tanh d a, .div d a b] : List Instr) → d = .v n →
    s.ctx? = some c → exec i s = .next t → t.waves.get? c.key = some w' →
    (∀ r l, l < 64 → (c.exec.getLsbD l = false ∨ ∀ k < 2, r ≠ c.phys (n.val + k) l) →
      w'.v.get (vKey r l) = c.w.v.get (vKey r l)) ∧
    w'.s = c.w.s ∧ w'.md = c.w.md ∧ w'.memOps = c.w.memOps ∧ w'.times = c.w.times ∧ w'.priv = c.w.priv ∧
    (∀ q, (q ≠ 7 ∨ ¬ (i = .addc d a b ∨ i = .subb d a b)) → w'.p.get q = c.w.p.get q) ∧
    (∀ k, k ≠ c.key → t.waves.get? k = s.waves.get? k) ∧
    (∀ (x : Loc) (k : Nat), t.readLoc x k = s.readLoc x k) ∧ t.parts = s.parts ∧ t.time = s.time

/-- The frame of the scalar instructions: in every next state each scalar register other than the destination, or its
pair, keeps its value, and so do every vector register, predicate, FX, MD, every other wave and every byte of memory. -/
def Obligations.ScalarWordFrame : Prop :=
  ∀ (s t : State) (c : Ctx) (w' : Wave) (d a b : SCode) (v : VCode) (n : BitVec 16) (m : BitVec 2) (i : Instr) (k : Nat),
    (i ∈ ([.sadd d a b, .ssub d a b, .smul d a b, .smulh d a b, .sand d a b, .sor d a b, .sxor d a b, .sshl d a b, .sshr d a b,
        .ssha d a b, .smin d a b, .smax d a b, .scmplt d a b, .scmpeq d a b, .scmpltn d a b, .sclz d a, .spopc d a,
        .ssel d a b, .smov d a, .sbfe d a b, .pack d a b, .unpack d a m, .v2s d v b] : List Instr) ∧ k = 1 ∨
      i ∈ ([.sadd64 d a b, .ssub64 d a b, .smul64 d a b, .sshl64 d a b, .sshr64 d a b, .sysrd d n] : List Instr) ∧ k = 2) →
    s.ctx? = some c → exec i s = .next t → t.waves.get? c.key = some w' →
    (∀ r, (r < d.sNum ∨ d.sNum + k ≤ r) → w'.s.get r = c.w.s.get r) ∧
    w'.v = c.w.v ∧ w'.p = c.w.p ∧ w'.fx = c.w.fx ∧ w'.md = c.w.md ∧ w'.memOps = c.w.memOps ∧
    (∀ k, k ≠ c.key → t.waves.get? k = s.waves.get? k) ∧
    (∀ (x : Loc) (k : Nat), t.readLoc x k = s.readLoc x k) ∧ t.parts = s.parts ∧ t.time = s.time

/-- The frame of the memory instructions: a load, a store or an atomic changes no register and no byte of memory when it
issues outside a deterministic launch. -/
def Obligations.MemoryWordFrame : Prop :=
  ∀ (s t : State) (c : Ctx) (w' : Wave) (d a b : VCode) (x y : Bool) (w : BitVec 3) (i : Instr),
    i ∈ ([.ld d a x w, .lda d a x w, .ldx d a x w, .ldsp d a x w, .ldcl d a x y w, .ldds d a x w, .gath d a b, .st d a w,
      .stl d a w, .stx d a w, .sti d a w, .stsp d a w, .stcl d a y w, .stds d a w, .scat d a b, .aadd d a b, .amin d a b,
      .amax d a b, .aand d a b, .aor d a b, .axor d a b, .axchg d a b, .acas d a b, .ainc d a b, .adec d a b, .afadd d a b,
      .aaddn d a b, .spaadd d a b, .spacas d a b, .feempty a, .fefull a] : List Instr) →
    s.ctx? = some c → c.w.isDet = false → exec i s = .next t → t.waves.get? c.key = some w' →
    w'.v = c.w.v ∧ w'.s = c.w.s ∧ w'.p = c.w.p ∧ w'.md = c.w.md ∧ w'.fx = c.w.fx ∧
    (∀ k, k ≠ c.key → t.waves.get? k = s.waves.get? k) ∧
    (∀ (z : Loc) (k : Nat), t.readLoc z k = s.readLoc z k) ∧ t.time = s.time

/-! ## Events of waves -/

/-- In part, after R31, R61, R62, R89, R90, R91, R233, R286: the events that run a wave. A pick begins the clauses of its quadrant
that may begin and takes the gang that the scheduler chooses, whose word is the next step's: among the ready gangs the
one of the last pick inside its clause or the one with the largest ageing count, and one whose count is 64 before all
others; in the second cycle of a gang of more than eight slices only a gang whose next word is scalar-class; and none in
a tick whose slot has issued. A gang whose clause is fetched, legal and ready begins it; a clause that R25 or R26 forbids
traps; a missing line is filled after the ticks of the level that answers, a fetch without a translation sends its miss to
the walkers; a poisoned line or one that faults traps; the results of a special function are written
in a later tick than that of its issue; and a monitor's registration takes its place at its home. -/
def Obligations.WaveEvents : Prop :=
  ∀ (s : State) (core quad k slice : Nat),
    (let u := s.beginQuadrant core quad
     (∀ p, u.choiceNow core quad = some p → ∃ t : State, exec (.issuePick core quad) s = .next t ∧
       t.cur = some ⟨p.1, p.2.1⟩ ∧ t.waves = u.waves ∧ t.time = u.time ∧ ∀ (l : Loc) (n : Nat), t.readLoc l n = u.readLoc l n) ∧
     (u.choiceNow core quad = none → exec (.issuePick core quad) s = .next u)) ∧
    (∀ p, s.choiceNow core quad = some p → p ∈ s.readyGangs core quad ∧
      ¬ ((s.core core).lastTick.getD quad 0 = s.time ∧ (s.core core).last.getD quad none ≠ none) ∧
      ((s.core core).secondCycle quad s.time = true → s.scalarNext p.1 p.2.1 = true) ∧
      ((s.core core).secondCycle quad s.time = false → s.withheld = false)) ∧
    (∀ l : List (Nat × SliceMask × Nat), (l ≠ [] → ∃ p, s.chooseFrom core quad l = some p) ∧
      ∀ p, s.chooseFrom core quad l = some p → p ∈ l ∧
        ((∀ e ∈ l, e.2.2 ≤ 64) → (∃ e ∈ l, e.2.2 = 64) → p.2.2 = 64) ∧
        ((∀ e ∈ l, e.2.2 ≤ p.2.2) ∨ (s.core core).last.getD quad none = some (p.1, p.2.1) ∧ s.insideSame p.1 p.2.1 = true)) ∧
    (∀ (w : Wave) (x : Slice) (cl : List Word), s.waves.get? k = some w → w.slices[slice]? = some x →
      let g := w.gangOf slice
      w.stopped = false → s.passesTurn k w g x = false → s.mayBegin k w g x = true → s.clauseAt w x.pc.toNat = .ok cl → x.word = 0 →
      (clauseIllegal cl = true → exec (.clauseBegin k slice) s =
        .next (s.modWave k (fun w => w.fallDue (clauseTrap w g x.pc cl .illegalClause false false 0)))) ∧
      (clauseIllegal cl = false → s.cutHere w (hdrPP (cl.headD 0)) = false → w.flagsReady cl s.time = true →
        exec (.clauseBegin k slice) s = .next ((s.countClause w x.pc.toNat cl.length (s.time - w.stoodOf g)).modWave k (fun w =>
          { w.mapGang g (fun _ x => { x with cl, word := 1 }) with
            det := w.det.map (fun d => { d with turn := firstSlice g }) })))) ∧
    (∀ (w : Wave) (cl : List Word) (n : Nat), n ∈ hdrWait (cl.headD 0) → w.flagsReady cl s.time = true →
      w.flag n = 0 ∧ w.begins.getD n 0 ≤ s.time) ∧
    (∀ (w : Wave) (g : SliceMask) (x : Slice) (va : Nat), s.missing k slice = some (w, g, x, va) →
      let came := s.useAnswers w.fetcher.who
      let traps := fun (cause : Cause) (malf : Bool) => came.modWave k (fun y =>
        y.fallDue (clauseTrap y g x.pc ((s.fetchWord w x.pc.toNat).toList) cause malf true va))
      let mayTrap := w.orderAllows g = true ∧ (x.word ≠ 0 ∨ w.causesOf g = [])
      (∀ line, s.fetchPlace w va = .ok line →
        let level := s.ilevel w.core w.quad w.part line
        let bad := s.ipoisoned level w.core w.quad w.part line = true
        (w.stoodOf g < fetchTicks level → exec (.fetchFill k slice) s = .next s) ∧
        (fetchTicks level ≤ w.stoodOf g → ¬ bad → exec (.fetchFill k slice) s = .next
          ((came.countAhead w.core w.quad w.part line (s.time - w.stoodOf g)).ifill w.core w.quad w.part line)) ∧
        (fetchTicks level ≤ w.stoodOf g → bad → mayTrap → exec (.fetchFill k slice) s = .next (traps .hwErr false))) ∧
      (∀ cause malf, s.fetchPlace w va = .error (some (cause, malf, false)) →
        (mayTrap → exec (.fetchFill k slice) s = .next (traps cause malf)) ∧
        (¬ mayTrap → exec (.fetchFill k slice) s = .next s)) ∧
      (s.fetchPlace w va = .error none → exec (.fetchFill k slice) s = .next (s.sendMiss w.fetcher w.func va w.fetchNeed))) ∧
    (∀ (w : Wave) (o : SpecialOp), s.waves.get? k = some w → o ∈ w.specials → w.specials.find? (fun x => x.id == o.id) = some o →
      (s.time ≤ o.at_ → exec (.specialComplete k o.id) s = .next s) ∧
      (o.at_ < s.time → exec (.specialComplete k o.id) s = .next ((s.modWave k (fun w =>
        { ((w.vput o.writes).raise o.fx).flagDown s.time o.flag with
          specials := w.specials.filter (fun x => x.id != o.id) })).settle k))) ∧
    (∀ (w : Wave) (l : Loc) (t : Nat), s.waves.get? k = some w → w.monitor = .sent l t →
      s.reached w.core l t = true → s.mayLand l (tieKey w.core w.waveid) = true →
      exec (.monRegistration k) s = .next ((s.land l (tieKey w.core w.waveid)).modWave k (fun w =>
        if 65536 ≤ s.registered l.home ∧ l.home < 8 then w.fireMonitor s.time else { w with monitor := .armed l })))

/-- In part, after R118, R119, R123 to R125, R280, R285, R287, R464: the events that end a wait. The slices of a rejoin
instance whose masks are met go on together; a wave all of whose live slices wait at REGANG takes REJOIN_DEADLOCK; a
barrier that every live wave has reached lets all go on and turns its phase; and a wait whose limit has passed takes
its timeout. -/
def Obligations.WaitsEnd : Prop :=
  ∀ (s : State) (k slice : Nat),
    exec (.regangRelease k) s = .next (s.modWave k (fun w => match w.regangRelease with
      | none => w
      | some (x, m) => w.mapGang m (fun _ y => { y with
          pc := x.pc + 4#64 * BitVec.ofNat 64 (hdrLen (s.headerOf w x)), word := 0, cl := [], stood := 0, redirect := false
          park := .none, rjc := y.rjc + 1, rjt := m, age := 0 }))) ∧
    (∀ (w : Wave) (x : Slice) (m : SliceMask), w.regangRelease = some (x, m) → m ≠ 0 ∧
      ∀ i < 16, m.getLsbD i = true → ∃ y, w.slices[i]? = some y ∧ y.park = .regang ∧ y.pc = x.pc ∧ y.rjc = x.rjc ∧
        ∀ j < 16, (y.rgm.getLsbD j = true ∨ j = i) → w.live.getLsbD j = true → (w.instance_ x).getLsbD j = true) ∧
    (∀ (w : Wave) (x : Slice), s.waves.get? k = some w → w.deadlocked = true → w.slices[firstSlice w.live]? = some x →
      (w.inHandler = true → exec (.rejoinDeadlock k) s = .next (s.fatal k .rejoinDeadlock)) ∧
      (w.inHandler = false → ∃ t w', exec (.rejoinDeadlock k) s = .next t ∧ t = { s with waves := t.waves } ∧
        t.waves.get? k = some w' ∧ (∀ j, j ≠ k → t.waves.get? j = s.waves.get? j) ∧ w'.slices = w.slices ∧
        ∃ d, w'.due = [d] ∧ d.slices = w.live ∧ d.precise = true ∧ d.norply = false ∧ d.src.claddr = x.pc ∧
          d.src.widx = hdrBody (s.headerOf w x) ∧
          d.causes = w.joinCauses w.live (causesIn d.src .rejoinDeadlock (w.lanes w.live Slice.executing)))) ∧
    (∀ (b : Nat) (cluster : Bool) (id : Nat), s.barrierReady b cluster id = true → ∃ t : State,
      exec (.barrierComplete b cluster id) s = .next t ∧ (∀ (l : Loc) (n : Nat), t.readLoc l n = s.readLoc l n) ∧
      (∀ j, t.waves.get? j = (s.waves.get? j).map (fun w => if (s.barrierBlocks b cluster).contains w.block then
        { w with slices := w.slices.map (fun x => if x.park == (if cluster then Park.barc id else Park.barb id)
          then x.goOn else x) } else w))) ∧
    (∀ (b : Nat) (cluster : Bool) (id : Nat), s.barrierReady b cluster id = false → exec (.barrierComplete b cluster id) s = .next s) ∧
    (∀ (w : Wave) (x : Slice) (src : WordRef) (limit deadline : Nat), s.waves.get? k = some w → w.slices[slice]? = some x →
      x.held = false → w.isDet = false → deadline ≤ s.time →
      let only := fun (i : Instr) (w' : Wave) => ∃ t, exec i s = .next t ∧ t = { s with waves := t.waves } ∧
        t.waves.get? k = some w' ∧ ∀ j, j ≠ k → t.waves.get? j = s.waves.get? j
      (x.park = .mwait src limit deadline →
        only (.mwaitLimitExpiry k slice) { w.timeout slice src .mwaitTimeout with monitor := .off }) ∧
      (∀ addr phase, x.park = .barwt src addr phase limit (some deadline) → x.woken = none →
        only (.barwtLimitExpiry k slice) (w.timeout slice src .feTimeout))) ∧
    (∀ (w : Wave) (x : Slice) (src : WordRef) (cause : Cause), w.slices[slice]? = some x →
      let g := w.sliceMask (fun y => !y.ended && y.park == x.park && x.together y)
      w.timeout slice src cause = (w.mapGang g (fun _ y => { y with park := .none })).fallDue
        ⟨g, true, src, causesIn src cause (w.lanes g Slice.executing), true, false⟩) ∧
    (∀ (op unit : Nat) (w : Wave) (o : MemOp) (u : MemUnit), s.findUnit k op unit = some (w, o, u) →
      w.isDet = false → u.phase = .issued → u.since ≠ 0 → s.waitsHere o u = true → u.since + 65536 ≤ s.time →
      exec (.feWaitTimeout (.load k op unit)) s = .next (s.unitTimeout k op unit))

/-! ## Traps, placement and cuts -/

/-- In part, after R169, R347, R348, R351, R353, R368, R464: a due trap that is not retried is delivered. With no handler, or in
one, it is fatal. Otherwise the wave enters its handler, that of the TVEC that stood when the trap was raised: the
slices with a lane in TMASK stand there with those lanes, every other live slice is held, MD is 0, p0 holds TMASK, s127
the frame's address over 1,024, and the wave is privileged; its monitor is kept, fired where the frame's stores reach its
line, and so is PHINT's mark, which only a control transfer ends (log entry 15, read from the spec by inference); the
frame's 1,024 bytes are at the save slot, and the handler's first clause begins once they are globally complete. A frame
whose address does not translate is fatal (a choice of the model, log entry 138). The frame's fields stand at their offsets: the faulting lanes' addresses
and causes, the slices' pcs, rejoin counts and masks, lane masks and park kinds, TMASK, the trapping word, INFO, MD,
p0, s127, FX, the offset tables and paths of a melded region, the alias base, WAVEID and the time. -/
def Obligations.TrapEntry : Prop :=
  (∀ (s : State) (k : Nat) (w w1 : Wave) (t : TrapDue) (p : Partition), s.nextTrap k = some (w, t) → s.heldInPlace w = false →
     s.waves.get? k = some w → s.parts.get? w.part = some p →
     w1 = { w with
       due := w.due.filter (fun x => x != t)
       causes := if t.precise then w.causes else w.causes.filter (fun c => !t.slices.getLsbD (c.lane / 4)) } →
     let s1 := s.modWave k (fun w => w.undue t)
     let tvec := (t.causes.findSome? (·.tvec)).getD p.tvec
     s1.retries w t = false →
     (tvec = 0 ∨ w.inHandler = true → exec (.trapDelivery k) s = .next (s1.fatal k t.summary)) ∧
     (∀ (s2 : State) (cause : Cause) (malf out : Bool), tvec ≠ 0 → w.inHandler = false →
       s1.translate w.func (p.slotBase + 1024 * w.saveSlot) ⟨true, false, true⟩ = (s2, .fault cause malf out) →
       exec (.trapDelivery k) s = .next
         ((if out then s2.waveViolation k (p.slotBase + 1024 * w.saveSlot) else s2).fatal k cause)) ∧
     (∀ (s2 : State) (a : Nat) (un : Bool), tvec ≠ 0 → w.inHandler = false →
       s1.translate w.func (p.slotBase + 1024 * w.saveSlot) ⟨true, false, true⟩ = (s2, .ok a un) →
       ∃ u w', exec (.trapDelivery k) s = .next u ∧ u.waves.get? k = some w' ∧
       u.hbm = s2.hbm.setBytes a (frameBytes (frameFields w1 t p.aliasBase s.time)) ∧ w'.frameAt = s2.gwctRun a 1024 ∧
       w'.inHandler = true ∧ w'.priv = true ∧ w'.handling = some t ∧ w'.md = 0 ∧ w'.mr = false ∧ w'.hintValid = w.hintValid ∧
       w'.latch = none ∧ w'.p.get 0 = t.lanes ∧ (∀ q, q ≠ 0 → w'.p.get q = w.p.get q) ∧
       w'.s.get 127 = BitVec.ofNat 32 ((p.slotBase + 1024 * w.saveSlot) / 1024) ∧ (∀ r, r ≠ 127 → w'.s.get r = w.s.get r) ∧
       w'.v = w.v ∧ w'.fx = w.fx ∧ w'.memOps = w.memOps ∧ w'.due = w1.due ∧ w'.causes = w1.causes ∧
       w'.monitor = .off ∧ w'.fencing = none ∧
       (w'.heldMonitor = some w.monitor ∨ ∃ l, w.monitor = .armed l ∧ Loc.overlaps (.global a false) 1024 l 128 = true ∧
         w'.heldMonitor = some (.firing (.global a false) s.time)) ∧
       ∀ (i : Nat) (x : Slice), i < 16 → w.slices[i]? = some x → ∃ y, w'.slices[i]? = some y ∧ y.ex = x.ex ∧
         y.rs = x.rs ∧ y.rsd = x.rsd ∧ y.rjc = x.rjc ∧
         (t.handlers.getLsbD i = true → y.pc = tvec ∧ y.word = 0 ∧ y.lm = sliceBits t.lanes i ∧ y.held = false ∧
           y.park = .none ∧ y.heldPark = x.park ∧ y.rjt = t.handlers) ∧
         (t.handlers.getLsbD i = false → x.ended = false → y = { x with held := true, heldPark := x.park }))) ∧
  (∀ (w : Wave) (t : TrapDue) (base now : Nat),
     let f := frameFields w t base now
     (∀ x ∈ t.causes, (8 * x.lane, 8, x.faddr.toNat) ∈ f ∧ (0x200 + x.lane, 1, x.cause.code +
       (if x.src.ord = t.src.ord then 0x40 else 0) + (if x.malf then 0x80 else 0)) ∈ f) ∧
     (∀ (i : Nat) (x : Slice), w.slices[i]? = some x → (0x240 + 8 * i, 8, x.pc.toNat) ∈ f ∧
       (0x2C0 + 8 * i, 8, x.rjc.toNat * 2 ^ 16 + x.rjt.toNat) ∈ f ∧ (0x340 + 2 * i, 2, x.rgm.toNat) ∈ f ∧
       (0x360 + i, 1, x.ex.toNat * 16 + x.lm.toNat) ∈ f ∧ (0x370 + i, 1, x.park.kind * 32 + x.rsd) ∈ f) ∧
     (∀ e ∈ ([(0x380, 8, t.lanes.toNat), (0x388, 8, t.src.claddr.toNat), (0x390, 4, t.src.hdr.toNat),
       (0x394, 4, t.src.word.toNat), (0x39C, 4, w.md.toNat), (0x3A0, 8, (w.p.get 0).toNat), (0x3A8, 4, (w.s.get 127).toNat),
       (0x3AC, 4, w.fx.toNat), (0x3B0, 4, w.ot0.toNat), (0x3B4, 4, w.ot1.toNat), (0x3B8, 2, w.mrs.toNat),
       (0x3C0, 8, w.mp.toNat), (0x3C8, 8, base), (0x3D0, 8, w.waveid.toNat), (0x3D8, 8, now)] : List (Nat × Nat × Nat)), e ∈ f) ∧
     (∀ c, t.causes.find? (fun c => c.cause == t.summary) = some c → (0x3E0, 2, c.xinfo) ∈ f) ∧
     (0x398, 4, t.summary.code + (if t.precise then 0 else 2 ^ 5) + (if t.norply then 0 else 2 ^ 8) +
       (if w.melds t.slices then 2 ^ 9 else 0) + t.src.widx * 2 ^ 10) ∈ f)

/-! ## Events of memory, engines and the matrix engines -/

/-- In part, after R31, R231 to R233, R241 to R249, R261, R262, R275, R285: the events of an access. An access that may arrive
performs with the other units of its instruction at the same place (loads of different lanes apart, log entry 125, read
from the spec by inference), and one that may not, or whose line is empty where it waits, does nothing; a load is served by
a valid copy, which a core without an INVL1 since then takes into its L1, or by its home's answer, and once all of a
lane has come back its registers take the value; a store's acknowledgement raises its wave's times and patches the copies
of its die and core; a fill in time is installed; an expired copy is dropped; and a walk that is back answers the misses of
its page, after the page is marked and its leaf has entered the TLBs. -/
def Obligations.MemoryEvents : Prop :=
  ∀ (s : State) (k op unit : Nat),
    (∀ (w : Wave) (o : MemOp) (u : MemUnit), s.findUnit k op unit = some (w, o, u) →
      (s.groupArrives w o u = true → s.waitsHere o u = false → s.tileHolds k w o u = false →
        ((∃ strong acquire, o.kind = .load strong acquire) ∨ (∃ strong release, o.kind = .store strong release) ∨
          ∃ a, o.kind = .atomic a) →
        exec (.homeArrival k op unit) s = .next ((((s.land u.loc (tieKey w.core w.waveid)).performUnits k op
          (samePlace o u)).retireMem k).settle k)) ∧
      (s.groupArrives w o u = false ∨ s.tileHolds k w o u = true ∨ (s.waitsHere o u = true ∧ u.since ≠ 0) → exec (.homeArrival k op unit) s = .next s) ∧
      (s.servedByCopy w o u = none → s.back w o u = true → o.lane u.lane = [u] →
        (∃ strong, o.kind = .load false strong) → o.returns = true →
        exec (.loadComplete k op unit) s = .next ((s.modWave k (fun w => Wave.retireOps { w.vput (unitCells o u) with
          memOps := w.memOps.map (fun p => if p.id == o.id then { p with units := p.units.map (fun v =>
            if v.lane == u.lane && v.phase == .arrived then { v with phase := .done } else v) } else p) } s.time)).settle k)) ∧
      (s.servedByCopy w o u = none → u.out = true → (s.back w o u = false ∨ o.returns = false ∨
          (∀ x y, o.kind ≠ .load x y) ∧ w.takesAnswers = false) →
        exec (.loadComplete k op unit) s = .next s) ∧
      (∀ x copy, s.servedByCopy w o u = some (x, copy) → s.copyPoisoned w u = false →
        let kept := match copy with
          | none => s
          | some e => if u.noL1 then s else s.modCore w.core (fun c =>
              { c with l1 := copyPut l1Lines c.l1 { e with expiry := min e.expiry (e.granted + o.lease) } })
        exec (.loadComplete k op unit) s = .next ((kept.modWave k (fun w => w.setUnit op unit (fun u =>
          { u with phase := .arrived, data := BitVec.ofNat 64 x, since := 0 }))).deliverLane k op u.lane)) ∧
      (s.back w o u = true → o.returns = false → (∃ strong release, o.kind = .store strong release) →
        let passed := if u.loc.offChip then
          (s.patchCopies w.core u.loc u.len u.data.toNat).modWave k (fun w => w.acked u s.time) else s
        exec (.storeAck k op unit) s = .next ((passed.modWave k (fun w =>
          Wave.retireOps (w.setUnit op unit (fun u => { u with phase := .done })) s.time)).settle k)) ∧
      (s.back w o u = false → exec (.storeAck k op unit) s = .next s)) ∧
    (∀ (f : Fill), s.fills.find? (fun x => x.id == f.id && decide (x.granted + 8 < s.time)) = some f →
      s.time + 8 < f.expiry → f.overL2 = false → f.overL1 = false → f.intoL1 = true → s.ackPending f false = false →
      s.ackPending f true = false → exec (.fillArrival f.id) s = .next
        ((({ s with fills := s.fills.filter (fun x => x.id != f.id) } : State).modDie (dieOf f.core) (fun d =>
          { d with l2 := copyPut l2Lines d.l2 ⟨f.line, f.expiry, f.granted, f.bytes, f.poison⟩ })).modCore f.core (fun c =>
            { c with l1 := copyPut l1Lines c.l1 ⟨f.line, f.expiry, f.granted, f.bytes, f.poison⟩ }))) ∧
    (∀ (core line : Nat), exec (.leaseExpiry false core line) s = .next (s.modCore core (fun c =>
      { c with l1 := c.l1.filter (fun e => e.line != line || decide (s.time + 8 < e.expiry)) }))) ∧
    (∀ (die line : Nat), exec (.leaseExpiry true die line) s = .next (s.modDie die (fun d =>
      { d with l2 := d.l2.filter (fun e => e.line != line || decide (s.time + 8 < e.expiry)) }))) ∧
    (∀ (func page : Nat) (p : PageWalk), s.walks.find? (fun p => p.func == func && p.page == page && p.found.isSome &&
        decide (p.at_ + 8 < s.time)) = some p →
      let mine := s.waves.filter (fun e => e.2.func == func && e.2.memOps.any (fun o => o.units.any p.answers))
      let asked := s.misses.filter p.answersMiss
      let t := fun (walk : Walk) => { s with walks := s.walks.filter (fun x => x.id != p.id)
                                             misses := s.misses.filter (fun m => !p.answersMiss m)
                                             answers := s.answers ++ asked.map (fun m => (m, walk)) }
      let cores := (mine.map (fun e => e.2.core) ++ asked.filterMap (fun m => m.client.core)).eraseDups
      (∀ walk, p.found = some walk → (∀ pte place base bits, walk ≠ .leaf pte place base bits) →
        exec (.pageWalkComplete func page) s = .next (mine.foldl (fun s e => s.walkedWave e.1 p walk) (t walk))) ∧
      (∀ pte place base bits, p.found = some (.leaf pte place base bits) → s.allowedBy p pte false = true →
        p.void = false →
        let write := s.allowedBy p pte true
        let entry : TlbEntry := ⟨func, base, bits, BitVec.ofNat 64 (pte ||| 0x40 ||| (if write then 0x80 else 0))⟩
        exec (.pageWalkComplete func page) s = .next (mine.foldl (fun s e => s.walkedWave e.1 p (.leaf pte place base bits))
          (cores.foldl (fun s k => s.tlbEnter k entry) ((t (.leaf pte place base bits)).markPage place write)))) ∧
      (∀ pte place base bits, p.found = some (.leaf pte place base bits) → s.allowedBy p pte false = true →
        p.void = true → exec (.pageWalkComplete func page) s = .next (mine.foldl
          (fun s e => s.walkedWave e.1 p (.leaf pte place base bits))
          ((t (.leaf pte place base bits)).markPage place (s.allowedBy p pte true)))))

/-- In part, after R299 to R301, R303, R307, R309, R311, R312: the events of the copy engines. A segment that is paid and
released performs, and one whose write is globally complete is counted once the barrier that it counts into is not ahead
of it; an indexed row first reads its index; a channel that is told to stop stops (what it writes to STAT: log entry 80,
read from the spec by inference); a chain reads its next record and starts it when two easement entries are its turn, or
stops at one that is not valid or fails; and a bucket is refilled with the ticks since the last, and, refilled, pays its
function's next segment from its tokens or on loan (one payment a tick, log entry 52, the same). What a read brings takes
eight ticks a link before the engine goes on (R237). -/
def Obligations.EngineEvents : Prop :=
  ∀ (s : State) (x : Transfer), s.xfers.find? (fun y => y.id == x.id) = some x → x.buffered = false →
    let going := s.xferStands x = false ∧ s.xferReleased x = true
    (x.chain = false ∨ x.loaded = true →
      (∀ g, x.perf = some g → g ≤ s.time → s.countTurn x = true → exec (.segmentPerform x.id) s = .next (s.countSegment x)) ∧
      (∀ g, x.perf = some g → (s.time < g ∨ s.countTurn x = false) → exec (.segmentPerform x.id) s = .next s) ∧
      (x.perf = none → x.chain = true → x.cancel = true → exec (.segmentPerform x.id) s = .next (s.cancelChain x)) ∧
      (x.perf = none → ¬ (x.chain = true ∧ x.cancel = true) → going → (x.op.indexed = false ∨ x.ridx.isSome = true) →
        x.paid = true → exec (.segmentPerform x.id) s = .next (s.performSegment x)) ∧
      (x.perf = none → ¬ (x.chain = true ∧ x.cancel = true) → going → x.op.indexed = true → x.ridx = none →
        s.ways x (if s.engineNear x (descIdx x.desc + 4 * x.row) then 0 else 2) = true → ∀ t bytes,
        s.readPieces (s.xferDecoder x) (s.orderOf x.wave) x.func (engineKey x.core) x.priv
          [(descIdx x.desc + 4 * x.row, 4)] = (t, .data bytes) →
        exec (.segmentPerform x.id) s = .next (t.modXfer x.id (fun y =>
          { y with ridx := some (leNat bytes), since := none, turn := t.time }))) ∧
      (x.perf = none → x.chain = false → going → x.op.indexed = true → x.ridx = none →
        s.ways x (if s.engineNear x (descIdx x.desc + 4 * x.row) then 0 else 2) = false →
        exec (.segmentPerform x.id) s = .next s)) ∧
    (∀ links, s.ways x links = true ↔ (links = 0 ∨ x.turn + 8 * links < s.time)) ∧
    (x.chain = true → x.loaded = false → x.cancel = true → exec (.chainRecordFetch x.id) s = .next (s.cancelChain x)) ∧
    (x.chain = true → x.loaded = false → x.cancel = false → going → x.want = none →
      s.ways x (if s.engineNear x x.cur.toNat then 0 else 2) = true →
      (∀ t e, s.readRecord x = (t, .error e) → exec (.chainRecordFetch x.id) s = .next (t.lostRecord x e)) ∧
      ∀ (t : State) (m : List Word), s.readRecord x = (t, .ok (some m)) →
        let start := fun (op : XOp) =>
          let y := { x with op, desc := m.take 12, loaded := true, segs := 0, row := 0, off := 0, ridx := none, eased := true,
                            paid := false, since := none, want := none, turn := t.time }
          let u := ((t.addEases x.core (opEases (t.xferDecoder { x with op, desc := m.take 12 }) x.id x.func op (m.take 12))).modXfer
            x.id (fun _ => y)).noteChan y
          match x.wave with
          | some k => if descDst (m.take 12) < 2 ^ 56 then u.modWave k (fun w => { w with idem := false, side := true }) else u
          | none => u
        (natBits (m.getD 14 0).toNat 31 1 = 0 → exec (.chainRecordFetch x.id) s = .next (t.stopChain x false none 0)) ∧
        (∀ c, natBits (m.getD 14 0).toNat 31 1 = 1 → t.recordFault x m = .error c → exec (.chainRecordFetch x.id) s =
          .next ((t.writeStat x (statWord true false true c.code 0)).stopChain x false (some c) 0)) ∧
        (∀ op, natBits (m.getD 14 0).toNat 31 1 = 1 → t.recordFault x m = .ok op →
          (t.recordTurn { x with op, desc := m.take 12 } t.time = true → exec (.chainRecordFetch x.id) s = .next (start op)) ∧
          (t.recordTurn { x with op, desc := m.take 12 } t.time = false → exec (.chainRecordFetch x.id) s = .next
            (t.modXfer x.id (fun _ => { x with op, desc := m.take 12, want := some t.time }))))) ∧
    (∀ engine func part, (s.func func).part = some part →
      let key := engine * 512 + func
      let depth := bktDepth (s.func func).bktcfg
      (s.buckets.get? key = none → exec (.bucketRefill engine func) s =
        .next { s with buckets := s.buckets.set key (s.bucket engine func) }) ∧
      (∀ b, s.buckets.get? key = some b → b.last + 1 = s.time → ∃ y p,
        refillTick depth (bktRate (s.func func).bktcfg) (s.poolCap part) (b, s.pool part engine) = (y, p) ∧
        exec (.bucketRefill engine func) s = .next (s.setBucket part engine func ({ y with last := s.time }, p))) ∧
      (∀ b z, s.buckets.get? key = some b → s.time ≤ b.last → s.mayPay part engine = true → s.payable engine func = some z →
        let bytes := 256 * z.segment.2.2
        let paid := fun (b : Bucket) (p : Nat) => (s.setBucket part engine func ({ b with paidAt := some s.time }, p)).modXfer
          z.id (fun z => { z with paid := true, turn := s.time })
        (bytes ≤ b.tokens → exec (.bucketRefill engine func) s =
          .next (paid { b with tokens := b.tokens - bytes } (s.pool part engine))) ∧
        (b.tokens < bytes → b.loan ≠ .repay → b.debt + bytes ≤ depth → bytes ≤ s.pool part engine →
          exec (.bucketRefill engine func) s =
            .next (paid { b with debt := b.debt + bytes, loan := .opened } (s.pool part engine - bytes))) ∧
        (b.tokens < bytes → (b.loan = .repay ∨ s.pool part engine < bytes) → b.debt + bytes ≤ depth →
          exec (.bucketRefill engine func) s = .next (s.setBucket part engine func (b, s.pool part engine)))))

/-- In part, after R76 to R78, R194, R195, R202, R205, R206, R217: the events of a matrix engine. An operation issued on a
core is accepted when no other on that core comes before it by issue tick, then quadrant, one in a tick, and comes behind
those accepted before; an accepted operation that no earlier one on its tiles holds back applies its next k-step, or, in a
later tick than its issue, takes its effect without k-steps; and one whose steps are done leaves the engine. In a k-step an integer element gains the exact sum of the products of its
row and column, modulo 2^32 or clamped with MD.SAT; every element of the rows updated is written, and no other changes. -/
def Obligations.MatrixEvents : Prop :=
  (∀ (s : State) (b h op : Nat) (x : Half) (o : TileOp), s.top? b h op = some (x, o) → o.accepted = true →
     (o.steps = true → o.done < o.nk → x.blocked o = false → s.reissues o = false →
       exec (.kstepComplete b h op) s = .next (s.stepTop b h o)) ∧
     (o.steps = true → (x.blocked o = true ∨ s.reissues o = true) → exec (.kstepComplete b h op) s = .next s) ∧
     (s.time ≤ o.at_ → exec (.tileOpComplete b h op) s = .next s) ∧
     (o.at_ < s.time → o.steps = true → o.nk ≤ o.done → exec (.tileOpComplete b h op) s = .next (s.dropTop b h o)) ∧
     (o.at_ < s.time → o.steps = false → x.blocked o = false → exec (.tileOpComplete b h op) s = .next (s.applyTop b h o))) ∧
  (∀ (s : State) (core : Nat),
     (s.unaccepted core = [] ∨ (s.core core).accepted = some s.time → exec (.tileAccept core) s = .next s) ∧
     ((s.core core).accepted ≠ some s.time → s.unaccepted core ≠ [] → ∃ o ∈ s.unaccepted core, ∃ t,
       (∀ p ∈ s.unaccepted core, s.acceptKey o ≤ s.acceptKey p) ∧ exec (.tileAccept core) s = .next t ∧
       ∀ (j : Nat) (y : Block), s.blocks.get? j = some y → t.blocks.get? j = some { y with halves := y.halves.map (fun z =>
         if z.core = core then z.accept o.id else z) }) ∧
     (∀ (z : Half) (l r : List TileOp) (o : TileOp), z.tops = l ++ o :: r → (∀ u ∈ l ++ r, u.id ≠ o.id) →
       o.accepted = false → (∀ u ∈ r, u.accepted = false) →
       z.accept o.id = { z with tops := (l.filter TileOp.accepted ++ [{ o with accepted := true }]) ++
         (l.filter (fun u => !u.accepted) ++ r) })) ∧
  ((∀ (bits c : Nat) (sa sb sat : Bool) (terms : List (Nat × Nat × Nat)), c < 2 ^ 32 →
     let num := fun (g : Bool) (v : Nat) => if g then signedOf bits v else (v : Int)
     let sum := signedOf 32 c + (terms.map (fun e => num sa e.2.1 * num sb e.2.2)).sum
     stepInt bits sa sb sat c terms = (if sat then max (-2 ^ 31) (min (2 ^ 31 - 1) sum) % 2 ^ 32 else sum % 2 ^ 32).toNat) ∧
   ∀ (o : TileOp) (h : Half) (m : Nat),
     (∀ e ∈ o.stepCells h m, ∃ i n, i < 16 ∧ n < 16 ∧ o.rows.getLsbD i = true ∧ e.1 = 256 * o.tile + 16 * i + n) ∧
     (∀ i n, i < 16 → n < 16 → o.rows.getLsbD i = true → ∃ x, (256 * o.tile + 16 * i + n, x) ∈ o.stepCells h m) ∧
     (∀ k, (∀ e ∈ o.stepCells h m, e.1 ≠ k) → (h.putTile (o.stepCells h m)).tiles.get k = h.tiles.get k))

/-- In part, after R87, R92: a new wave. Every slice stands at the entry with its lanes present in LM and no history; lanes
without work have exited; v0 and v1 hold a task lane's argument and every other vector register 0; s0 to s9 hold the
launch's values and the rest 0; p0 holds the lanes present; MD, FX, the flags and the melded state are 0, the lease is
1,024 cycles, and the wave has no privilege. -/
def Obligations.NewWaveState : Prop :=
  ∀ (k : Kernel) (entry : DWord) (block index half func part core quad slot lanes saveSlot : Nat) (waveid : DWord)
    (sregs : List Nat) (args : List DWord) (det : Option DetWave), k.width ≤ 2 → args.length ≤ 64 →
    let w := newWave k entry block index half func part core quad slot waveid sregs lanes args saveSlot det
    w.slices.length = k.lanes / 4 ∧ w.width = k.lanes ∧
    (∀ (i : Nat) (x : Slice), w.slices[i]? = some x → x.pc = entry ∧ x.word = 0 ∧ x.cl = [] ∧ x.rsd = 0 ∧
      x.rjc = 0 ∧ x.park = .none ∧ x.held = false ∧
      (∀ j, j < 4 → x.lm.getLsbD j = decide (4 * i + j < lanes) ∧ x.ex.getLsbD j = decide (lanes ≤ 4 * i + j)) ∧
      ∀ j, j < 16 → x.rjt.getLsbD j = decide (j < k.lanes / 4)) ∧
    (∀ r l, l < 64 → w.v.get (vKey r l) = if r < 2 then
      (match args[l]? with
        | some a => BitVec.ofNat 32 (a.toNat / 2 ^ (32 * r))
        | none => 0) else 0) ∧
    (∀ r, w.s.get r = BitVec.ofNat 32 (sregs.getD r 0)) ∧
    (∀ q, w.p.get q = if q = 0 then w.present else 0) ∧ (∀ l, l < 64 → w.present.getLsbD l = decide (l < lanes)) ∧
    w.md = 0 ∧ w.fx = 0 ∧ (∀ n, w.flag n = 0) ∧ w.ot0 = 0 ∧ w.ot1 = 0 ∧ w.mp = 0 ∧ w.mr = false ∧ w.ab = 0 ∧ w.al = 0 ∧
    w.lease = 1024 ∧ w.monitor = .off ∧ w.heldMonitor = none ∧ w.exitScope = 0 ∧ w.idem = false ∧ w.priv = false ∧
    w.inHandler = false ∧ w.memOps = [] ∧ w.due = [] ∧ w.causes = [] ∧ w.waveid = waveid ∧ w.ended = false

/-- In part, after R102, R105, R106, R110, R323, R361 to R364, R374, R384 to R386: the events that place, cut and end
work. The arbiter's choice takes its cores; tasks that fill a wave, or whose oldest is 256 ticks old, become a wave; a
grid that is done tells what started it; a bounded grid whose work waits cuts the units that it needs; a unit at its
cut points is published; a saved unit that has room resumes; and a round whose members are done commits and closes, or,
where no commit that is left can perform, ends their waits (R390). -/
def Obligations.PlacementEvents : Prop :=
  ∀ (s : State) (part gid : Nat) (g : Grid) (p : Partition),
    (∀ first places, s.arbiter part = some (gid, g, p) → s.hasSaved gid = false → g.nextUnit = some first →
      s.placeFor p g g.unitsAtOnce = some places →
      let s0 : State := { s with parts := s.parts.set part (p.movePointer places) }
      exec (.blockPlace part) s = .next (s0.tookRooms (((places.mapIdx (fun i u => (i, u))).foldl (fun s e =>
        s.putUnit gid (first + e.1 * g.launch.setsz) g.launch e.2) (s0.addDieRegions p gid g)).modGrid gid
          (fun g => g.tookUnits first places.length)))) ∧
    (s.arbiter part = none ∨ (s.arbiter part = some (gid, g, p) ∧ s.hasSaved gid = true) →
      exec (.blockPlace part) s = .next s) ∧
    (∀ (die entry : Nat) (k : Kernel) (mine : List Task), s.taskBatch die gid entry = some (k, mine, true) →
      s.grids.get? gid = some g → g.launch.det = false →
      exec (.taskWaveEmit die gid entry) s = .next (s.emitTasks die gid entry)) ∧
    (s.grids.get? gid = some g → s.gridDone gid g = true →
      let s1 : State := { s with grids := s.grids.erase gid, dregions := s.dregions.filter (fun e => e.2.grid != gid) }
      (∀ c, g.fault = some c → exec (.gridComplete gid) s = .next (s1.originEnded g.origin stFaulted c 0)) ∧
      (g.fault = none → g.cutting = true → g.det = none →
        exec (.gridComplete gid) s = .next (s1.originEnded g.origin stCancelled 0 0)) ∧
      (g.fault = none → g.cutting = false → g.det = none → g.launch.ctok = 0 →
        exec (.gridComplete gid) s = .next (s1.originEnded g.origin stOK 0 0)) ∧
      (g.fault = none → g.cutting = false → g.det = none → g.launch.ctok ≠ 0 → ∀ t x,
        s1.readFor g.func g.launch.ctok.toNat 8 = (t, .ok x) → exec (.gridComplete gid) s =
          .next (((t.writeFor g.func g.launch.ctok.toNat 8 (x + 1)).1).originEnded g.origin stOK 0 0))) ∧
    (s.grids.get? gid = some g → s.parts.get? g.part = some p → g.launch.bound ≠ 0 → s.hasWork p gid g = true →
      (s.func g.func).places = true → ∀ victims, s.enough p gid g
        (s.cuts.flatMap (fun u => if u.state == .writing then u.blocks else [])) (s.nameable g.part g.launch.prio) = some victims →
      exec (.preempt gid) s = .next ((victims.map (fun u => (u, countIf (fun v => s.unitDie v == s.unitDie u) victims))).foldl
        (fun s e => s.cutUnit g gid e.1 e.2) s)) ∧
    (∀ u, s.cuts.find? (fun x => x.id == u.id && x.method == .save && x.state == .writing) = some u → u.listOf = none →
      (s.unitCut u = true → exec (.cairnPublish u.id) s = .next (s.publish u)) ∧
      (s.unitCut u = false → exec (.cairnPublish u.id) s = .next s)) ∧
    (∀ u places, s.cuts.find? (fun x => x.id == u.id && x.resumable) = some u → s.arbiter u.part = some (gid, g, p) →
      (∃ v, s.toResume gid = some v ∧ v.id = u.id) → s.placeSaved p g u = some places → ∃ q : Partition,
        q = { p with pointer := q.pointer } ∧
        exec (.cairnResume u.id) s = .next
          (s.tookRooms (({ s with parts := s.parts.set u.part q } : State).restore u g places))) ∧
    (∀ d, s.grids.get? gid = some g → g.det = some d →
      (d.started = false → s.roundReady gid g d = true → exec (.roundEnd gid) s = .next (s.openRound gid)) ∧
      (d.started = true → (∃ e ∈ s.members gid, s.quantumOver e.1 e.2 = false) → exec (.roundEnd gid) s = .next s) ∧
      (d.started = true → (∀ e ∈ s.members gid, s.quantumOver e.1 e.2 = true) →
        let t := s.commitSome gid (((s.members gid).map (fun e => e.2.buffer.length)).foldl (· + ·) 0)
        ∀ y, (t.grids.get? gid).bind (fun g => g.det) = some y →
          (t.committed gid y = true → exec (.roundEnd gid) s = .next (t.closeRound gid)) ∧
          (t.committed gid y = false → t.onlyWaits gid = true → exec (.roundEnd gid) s = .next (t.timeoutCommits gid)) ∧
          (t.committed gid y = false → t.onlyWaits gid = false → exec (.roundEnd gid) s = .next t)))

/-! ## Commands and plats -/

/-- In part, after R23, R56, R315 to R327, R340, R418, R422 to R425: the events of a command queue. QNOTIFY moves a queue's notify
pointer forward within its ring, and any other value sets NERR; a record that may start enters with its words, behind the
records that it follows and, for a plat that runs already or finds no free place, behind that instance or in its place
among those that wait; and each operation does what its rule says and then retires its record or leaves it running, a
SIGNAL until its write has performed. An accepted image takes the lowest free handle (log entry 95), and a restore whose
list is not all HELD cairns has no effect (log entry 94): both are read from the spec by inference. -/
def Obligations.CommandEvents : Prop :=
  ∀ (s : State) (f q n : Nat) (r : Rec),
    let x := (s.func f).queue q
    (∀ v : DWord, s.usable = true → s.hasQueue f q = true →
      (x.notify < v.toNat → v.toNat ≤ x.done + 2 ^ x.size →
        exec (.qnotifyWrite f q v) s = .next (s.modQueue f q (fun x => { x with notify := v.toNat }))) ∧
      (v.toNat ≤ x.notify ∨ x.done + 2 ^ x.size < v.toNat →
        exec (.qnotifyWrite f q v) s = .next (s.modQueue f q (fun x => { x with nerr := true })))) ∧
    (∀ (t : State) (w : List Word), s.mayStart f q = true → s.recordWords f x x.start = (t, .ok w) →
      let y := Rec.ofWords x.start s.time w
      let behind := (natBits y.hdr.toNat 9 1 == 1 || implicitPrev y.opc) && x.recs.any (fun z => z.stage != .retired)
      let run := exec (.recordStart f q) s
      (behind = true → run = .next s) ∧
      (behind = false → s.wantsPlat f y = false → run = .next (t.enterRecord f q y none)) ∧
      (behind = false → s.wantsPlat f y = true → s.platRuns f y = true → run = .next s) ∧
      (behind = false → s.wantsPlat f y = true → s.platRuns f y = false →
        (s.platFree (.record f q) = true → run = .next (({ t with platWait := t.platWait.filter (· != .record f q) } :
          State).enterRecord f q y none)) ∧
        (s.platFree (.record f q) = false → run = .next (if s.platWait.contains (.record f q) then s
          else { s with platWait := s.platWait ++ [.record f q] })))) ∧
    (∀ (t : State) (c : Cause), s.mayStart f q = true → s.recordWords f x x.start = (t, .error c) →
      exec (.recordStart f q) s = .next (if x.loc then t.enterRecord f q (Rec.ofWords x.start s.time []) (some c) else t)) ∧
    (s.begun? f q n 1 = some r → ∀ t, let g := s.startGrid f false r.body (s.queueWgt f q) (s.func f).prioceil (.record f q n) false
      (∀ sub, g = (t, .error sub) → exec (.launchGrid f q n) s = .next (t.retire f q n stRefused sub 0)) ∧
      (∀ id, g = (t, .ok id) → exec (.launchGrid f q n) s = .next (t.running f q n))) ∧
    (s.begun? f q n 2 = some r → ∀ t h, s.platHeader f (r.dword 0x10) 16 = (t, .ok h) →
      (platLegal h = false → exec (.runPlat f q n) s = .next (t.retire f q n stBadRecord 0 0)) ∧
      (platLegal h = true → r.word 0x18 ≤ nodeField h 8 0 32 → exec (.runPlat f q n) s = .next (t.retire f q n 10 0 0)) ∧
      (platLegal h = true → nodeField h 8 0 32 < r.word 0x18 → s.platOn f (r.dword 0x10) = none → s.plats.length < maxPlats →
        exec (.runPlat f q n) s = .next ((t.running f q n).startPlat f (r.dword 0x10) (r.word 0x18) (nodeField h 4 0 13)
          (t.queueWgt f q) (.record f q n) 0))) ∧
    (s.begun? f q n 3 = some r → ∀ t, let y := s.readBundle f (r.dword 0x10) (r.word 0x18)
      (∀ c, y = (t, .fault c) → exec (.bundle f q n) s = .next (t.retire f q n stFaulted c.code 0)) ∧
      (∀ st sub, y = (t, .bad st sub) → exec (.bundle f q n) s = .next (t.retire f q n st sub 0)) ∧
      (∀ l u, y = (t, .ok l) → (l.any SubLaunch.isChain = true → s.chainBehind f q r = false) →
        t.startParts f (t.queueWgt f q) (t.func f).prioceil r.since (.bundleEntry f q n) 0 l = some u → exec (.bundle f q n) s = .next ((u.running f q n).modRec f q n (fun r => { r with parts := openParts l.length })))) ∧
    (s.begun? f q n 4 = some r →
      (∀ t, s.chainBehind f q r = false → s.startChain f (r.dword 0x10) r.since (.record f q n) = some t →
        exec (.copyChain f q n) s = .next (t.running f q n)) ∧
      (s.chainBehind f q r = true ∨ s.startChain f (r.dword 0x10) r.since (.record f q n) = none →
        exec (.copyChain f q n) s = .next s)) ∧
    (∀ k, s.begun? f q n 5 = some r → (s.func f).part = some k →
      (r.dword 0x10 % 65536 ≠ 0 → exec (.modload f q n) s = .next (s.retire f q n 5 0 0)) ∧
      (∀ t st sub, r.dword 0x10 % 65536 = 0 → s.readImage f (r.dword 0x10) = (t, .error (st, sub)) →
        exec (.modload f q n) s = .next (t.retire f q n st sub 0)) ∧
      (∀ t h l p, r.dword 0x10 % 65536 = 0 → s.readImage f (r.dword 0x10) = (t, .ok (h, l)) → t.parts.get? k = some p →
        p.modules.length < 1024 →
        let handle := firstFree (p.modules.map (·.1)) 1025 0
        let m : Module := ⟨r.dword 0x10, imageField h 0x08, imageField h 0x1C, imageField h 0x20, imageField h 0x18, l, f, none⟩
        exec (.modload f q n) s = .next (((t.modPart k (fun p => { p with modules := p.modules.set handle m })).dropImage k f
          (r.dword 0x10) m.size).retire f q n stOK 0 handle))) ∧
    (∀ k, s.begun? f q n 6 = some r → (s.func f).part = some k →
      let handle := natBits (r.word 0x10) 0 10
      let found := (s.parts.get? k).bind (fun p => p.modules.get? handle)
      (found = none → exec (.modunload f q n) s = .next (s.retire f q n stBadRecord 0 0)) ∧
      (∀ m, found = some m → exec (.modunload f q n) s = .next ((s.modPart k (fun p => { p with
        modules := p.modules.set handle { m with unloading := some (m.unloading.getD [] ++ [(f, q, n)]) } })).running f q n))) ∧
    (∀ part handle m l, (s.parts.get? part).bind (fun p => p.modules.get? handle) = some m → m.unloading = some l →
      s.moduleHeld part handle = false → exec (.moduleRelease part handle) s =
        .next (l.foldl (fun s (f, q, n) => s.retire f q n stOK 0 0) (s.eraseModule part handle))) ∧
    (s.rec? f q n = some r → r.opc = 7 → ∀ t,
      let y := s.writeRing f x.loc (r.dword 0x10) 8 (r.dword 0x18)
      let at_ := s.ringPerforms f x.loc (r.dword 0x10)
      let done := fun (t : State) => (if natBits (r.word 0x28) 11 1 = 1
        then t.raiseMsi f (natBits (r.word 0x28) 0 11) else t).retire f q n stOK 0 0
      (∀ c, r.stage = .started → y = (t, .error c) → exec (.signal f q n) s = .next (t.retire f q n stFaulted c.code 0)) ∧
      (r.stage = .started → y = (t, .ok ()) → exec (.signal f q n) s = .next
        (if at_ ≤ t.time then done t else t.modRec f q n (fun r => { r with stage := .waiting (some at_) }))) ∧
      (∀ d, r.stage = .waiting (some d) → exec (.signal f q n) s = .next (if d ≤ s.time then done s else s))) ∧
    (s.begun? f q n 8 = some r → let limit := natBits (r.word 0x28) 16 16
      exec (.waitValue f q n) s = .next (s.waitRead f q n r (.waiting (if limit = 0 then none else some (s.time + 4000 * limit))))) ∧
    (∀ d, s.rec? f q n = some r → r.waiting = some d →
      (r.poke = true ∨ (x.loc = false ∧ r.since + 4000 ≤ s.time) →
        exec (.waitValuePoll f q n) s = .next (s.waitRead f q n r (.waiting d))) ∧
      (∀ t, d = some t → t ≤ s.time → exec (.waitValueTimeout f q n) s = .next (s.retire f q n 8 0 0)) ∧
      (∀ t, d = some t → s.time < t → exec (.waitValueTimeout f q n) s = .next s)) ∧
    let late := ∃ t, (s.func f).switching = some t ∧ t + 200000 < s.time
    (s.begun? f q n 9 = some r → ¬ late → let t := s.modFunc f (fun x => { x with saving := true })
      (t.saveUnits 3 (f, q, n) (t.unitsOfFunc f) = none → exec (.ctxSave f q n) s = .next t) ∧
      (∀ u, t.saveUnits 3 (f, q, n) (t.unitsOfFunc f) = some u →
        let v := ({ u with cuts := u.cuts.map (fun y =>
          if y.func = f ∧ y.method = .save ∧ y.state = .writing ∧ y.reason = 0 ∧ y.listOf = none
          then { y with hold := true, reason := 3, listOf := some (f, q, n) } else y) } : State).running f q n
        ((∀ y ∈ v.cuts, y.listOf ≠ some (f, q, n)) → exec (.ctxSave f q n) s = .next (v.publishList (f, q, n))) ∧
        ((∃ y ∈ v.cuts, y.listOf = some (f, q, n)) → exec (.ctxSave f q n) s = .next v))) ∧
    (∀ i, (i = .ctxSave f q n ∨ i = .ctxRestore f q n) → late → exec i s = .next s) ∧
    (s.begun? f q n 10 = some r → ¬ late → ∀ t u count l, s.readFor f (r.dword 0x10) 8 = (t, .ok count) →
      t.dwordsFor f (r.dword 0x10 + 8) count = (u, .ok l) →
      ((∀ a ∈ l, (u.heldCairn f a).isSome = true) → exec (.ctxRestore f q n) s = .next (((u.publishCairns
        ((l.map (u.heldCairn f)).filterMap id)).modFunc f (fun x => { x with saving := false })).retire f q n stOK 0 0)) ∧
      ((∃ a ∈ l, u.heldCairn f a = none) → exec (.ctxRestore f q n) s = .next (u.retire f q n stBadRecord 0 0))) ∧
    (∀ t, s.rec? f q n = some r → (s.func f).switching = some t → (r.opc = 9 ∨ r.opc = 10) → r.stage ≠ .retired →
      t + 200000 ≤ s.time → exec (.ctxAbort f q n) s = .next ((s.dropCtx (f, q, n) r.opc).retire f q n 6 0 0))

/-- In part, after R331 to R343, R395, R396, R404: the events of a plat. The first ready node starts its payload, or faults
when it is refused, and one that finds no free plat or channel stays first (log entry 100, read from the spec by inference);
an ended payload completes its node in the order of its tick and of ties, after the replicas' digests agree where there are
replicas; a fault retries the node and cancels its cone while retries are left; a cone that is quiet is rearmed; the next
token in the order of arrival and ties reaches its node, behind the ends of payloads that come before it, or is discarded
(the plat at an address: log entry 99, the same); and a replica's message, which comes as a packet to a plat engine's
endpoint (its layout and the outbox: log entries 83 and 154, choices of the model), or its time limit decides a comparison.
A halted instance drops the ends of its payloads. -/
def Obligations.PlatEvents : Prop :=
  ∀ (s : State) (inst node : Nat) (p : PlatInst) (t : State) (w : List Nat),
    (s.plats.get? inst = some p → p.halted = none → (s.func p.func).places = true → s.nodeRec inst node = (t, w) →
      ∀ rest, p.ready = node :: rest →
        ((t.plat inst).dead.isSome = true → exec (.nodeIssue inst) s = .next (t.settled inst)) ∧
        ((t.plat inst).dead = none →
          (∀ u, t.startNode inst node w = (u, .wait) →
            let v := s.modPlat inst (fun p => { p with waitFrom := some (p.waitFrom.getD s.time) })
            exec (.nodeIssue inst) s = .next (if nodeField w 0 24 4 = 4 ∧ v.platWait.contains (.node inst) = false
              then { v with platWait := v.platWait ++ [.node inst] } else v)) ∧
          (∀ u st sub, t.startNode inst node w = (u, .refused st sub) → exec (.nodeIssue inst) s =
            .next (((u.modPlat inst (fun p => { p with waitFrom := none, ready := p.ready.filter (· != node) })).faultNode
              inst node st sub).settled inst)) ∧
          (∀ u outcome ended parts, t.startNode inst node w = (u, .run outcome ended parts) →
            exec (.nodeIssue inst) s = .next ((u.enterNode inst node w outcome ended parts).settled inst)))) ∧
    (∀ x, s.endDue inst node = some (p, x) → s.plats.get? inst = some p ∧ x ∈ p.payloads ∧ x.node = node ∧ x.ended.isSome = true ∧
      x.endedAt ≤ s.time ∧ (∀ y ∈ p.payloads, y.ended.isSome = true → (∀ z ∈ p.waits, z.node ≠ y.node) → y.endedAt ≤ s.time →
        y.node < 65536 → x.node < 65536 → x.endedAt < y.endedAt ∨ (x.endedAt = y.endedAt ∧ x.node ≤ y.node)) ∧
      ∀ k ∈ s.tokens, ∀ q, s.platOn k.func k.plat.toNat = some (inst, q) → x.endedAt ≤ k.at_) ∧
    (∀ x, s.endDue inst node = some (p, x) → p.halted.isSome = true → exec (.nodeComplete inst node) s =
      .next (((s.applied inst node).dropPayload inst node).settled inst)) ∧
    (∀ x, s.endDue inst node = some (p, x) → p.halted = none → (s.applied inst node).nodeRec inst node = (t, w) →
      (nodeState p.gen w ≠ 3 → exec (.nodeComplete inst node) s = .next ((t.dropPayload inst node).settled inst)) ∧
      (nodeState p.gen w = 3 →
        (x.ended = some (stOK, 0) → x.digest = none → exec (.nodeComplete inst node) s = .next ((t.nodeDone inst node).settled inst)) ∧
        (∀ d, x.ended = some (stOK, 0) → x.digest = some d → (t.func p.func).replica = [] →
          exec (.nodeComplete inst node) s = .next ((t.nodeDone inst node).settled inst)) ∧
        (∀ d, x.ended = some (stOK, 0) → x.digest = some d → (t.func p.func).replica ≠ [] →
          exec (.nodeComplete inst node) s = .next (t.beginReplicas inst node d)) ∧
        (∀ st sub, x.ended = some (st, sub) → (st, sub) ≠ (stOK, 0) → (t.plat inst).dead = none →
          (nodeField w 0 16 8 ≤ nodeUsed p.gen w → exec (.nodeFault inst node) s =
            .next (((t.dropPayload inst node).faultNode inst node st sub).settled inst)) ∧
          (∀ u c, nodeUsed p.gen w < nodeField w 0 16 8 → (((t.dropPayload inst node).setFault inst node st sub).setNode inst
              node 7 (nodeUsed p.gen w + 1)).cancelCone inst node = (u, c) → exec (.nodeFault inst node) s =
            .next ((u.modPlat inst (fun p => { p with cones := p.cones.set node c })).settled inst))))) ∧
    (∀ c, s.plats.get? inst = some p → p.cones.get? node = some c → p.mayRearm s.time node c = true →
      exec (.nodeRearm inst node) s = .next ((((((s.modPlat inst (fun p => { p with cones := p.cones.erase node })).resetCone inst
        c).recount inst c).readyCone inst c).readyNode inst node).settled inst)) ∧
    (∀ id k, s.tokens[id]? = some k → let u := s.takeToken id k
      let before := ∃ j q x, s.platOn k.func k.plat.toNat = some (j, q) ∧ q.nextEnded s.time = some x ∧ x.endedAt ≤ k.at_
      (k.at_ ≤ s.time → s.nextToken id k = true → ¬ before →
        (∀ j q, u.platOn k.func k.plat.toNat = some (j, q) →
          (k.gen = q.gen.toNat → k.node < q.nnode → k.func = q.func → exec (.platToken id) s =
            .next (((u.applied j tokenPlace).token j k.node).settled j)) ∧
          (k.gen ≠ q.gen.toNat ∨ q.nnode ≤ k.node ∨ k.func ≠ q.func → exec (.platToken id) s =
            .next (u.strayToken k.func k.plat.toNat))) ∧
        (u.platOn k.func k.plat.toNat = none → exec (.platToken id) s = .next (u.strayToken k.func k.plat.toNat))) ∧
      (s.time < k.at_ ∨ s.nextToken id k = false ∨ before → exec (.platToken id) s = .next s)) ∧
    (∀ (m : ReplicaMsg) (n : Nat) (y : Packet), s.replicaHeads.find? (fun e => ReplicaMsg.ofPacket e.2 == m) = some (n, y) →
      let u := s.modEndpoint n (fun e => { e with oq := e.oq.erase y })
      (u.plats.find? (fun e => e.2.waits.any (fun x => u.means e.2 m x.node)) = none →
        exec (.replicaMessage m) s = .next { u with mail := u.mail ++ [m] }) ∧
      (∀ (k : Nat) (q : PlatInst) (x : ReplicaWait), u.plats.find? (fun e => e.2.waits.any (fun x => u.means e.2 m x.node)) = some (k, q) →
        q.waits.find? (fun x => u.means q m x.node) = some x →
        let z := { x with got := x.got ++ [(m.sdev, m.digest)] }
        (m.sdev ∈ u.replicaPeers q.func → exec (.replicaMessage m) s = .next ((u.modPlat k (fun p => { p with
          waits := p.waits.map (fun v => if v.node = x.node then z else v) })).compareReplicas k z)) ∧
        (m.sdev ∉ u.replicaPeers q.func → exec (.replicaMessage m) s = .next u))) ∧
    (∀ x, s.plats.get? inst = some p →
      let peers := s.replicaPeers p.func
      ((∃ d ∈ peers, ∀ e ∈ x.got, e.1 ≠ d) → s.compareReplicas inst x = s) ∧
      ((∀ d ∈ peers, ∃ e ∈ x.got, e.1 = d) →
        ((∃ e ∈ x.got, e.2 ≠ x.digest) → s.compareReplicas inst x = s.haltPlat inst x) ∧
        ((∀ e ∈ x.got, e.2 = x.digest) → s.compareReplicas inst x = ((s.modPlat inst (fun p =>
          { p with waits := p.waits.filter (fun y => y.node != x.node) })).nodeDone inst x.node).settled inst))) ∧
    (∀ x, s.plats.get? inst = some p → p.waits.find? (fun x => x.node == node) = some x →
      (x.since + 4000 * (s.func p.func).rlimit ≤ s.time → exec (.replicaTimeout inst node) s = .next (s.haltPlat inst x)) ∧
      (s.time < x.since + 4000 * (s.func p.func).rlimit → exec (.replicaTimeout inst node) s = .next s))

/-! ## Fabric, tenancy and firmware -/

/-- In part, after R23, R399 to R410, R412, R413, R460: the events of the fabric. An ESND that is released puts its packet on
its die's link in its turn (log entry 131, read from the spec by inference); an ERCV takes the head packet of its class, or
none, and the count of drops, after what arrives at the switch in its tick; its bytes are written and its flag falls. What
stands first on an inner link long enough, or comes over a trained Traverse link, arrives: a packet is forwarded, with its
sequence number when it comes from inside, or dropped when its function is retired, when it is late or when its port is
fenced or rejoins (the port's state as it arrives: log entry 85, the same), and its watermark counts; a retire beacon's
packets are discarded. Ports train once the device is usable; beacons carry watermarks, toward the dies too; a stalled port
is logged (when the stall of an inner input ends: log entry 147, a choice of the model), and ports are fenced and rejoin;
and a timing beacon that answers this device's last one closes a round trip: time steps forward only. -/
def Obligations.FabricEvents : Prop :=
  ∀ (s : State) (i : Nat) (x : FabricOp) (w : Wave) (b : Block),
    (s.fabops.find? (fun y => y.id == x.id && y.send && !y.injected && !y.buffered) = some x → s.waves.get? x.wave = some w →
      s.blocks.get? w.block = some b → s.released_ x.wave w x.lane x.gang x.after x.scope = true →
      s.interfaceFree w x = true → s.esndTurn w x = true → ∀ t bytes, s.readPieces (s.waveDecoder w b) (s.orderOf (some x.wave))
        w.func (engineKey w.core) w.priv (linePieces (0xF0 * 2 ^ 56 + natBits (x.desc.getD 0 0).toNat 0 20)
          (natBits (x.desc.getD 1 0).toNat 0 9)) = (t, .data bytes) →
      let p := t.packetOf w x bytes
      exec (.esndInject x.id) s = .next ((((t.modFabric (fun f => { f with
        links := f.links ++ [⟨16 + dieOf w.core, some p, t.time, none⟩]
        lastStamp := listUpdate f.lastStamp (dieOf w.core) (fun _ => t.time) })).modInput (16 + dieOf w.core) (fun i =>
        { i with lastSent := t.time })).modFab x.id (fun y => { y with injected := true, atEnd := false, since := none, taken := some p })).fabricDone
          { x with injected := true } true)) ∧
    (s.fabops.find? (fun y => y.id == x.id && !y.send && !y.took && !y.buffered) = some x →
      let n := natBits (x.desc.getD 1 0).toNat 0 12
      let e := s.endpoint n
      let reach := fun (t : State) => { t with landed := (s.landed.set (endpointBank n) (s.ercvKey x)).set switchBank 0 }
      (s.ercvTurn x = false → exec (.ercvAccept x.id) s = .next s) ∧
      (s.ercvTurn x = true → natBits (x.desc.getD 1 0).toNat 31 1 = 1 →
        let p := firstPacket (e.oq.filter (fun p => decide (p.stamp.toNat < s.dw)))
        exec (.ercvAccept x.id) s = .next (reach ((s.modEndpoint n (fun e => { e with
          oq := (p.map e.oq.erase).getD e.oq, odrops := 0 })).modFab x.id (fun y =>
            { y with took := true, taken := p, drops := e.odrops, dwv := s.dw })))) ∧
      (s.ercvTurn x = true → natBits (x.desc.getD 1 0).toNat 31 1 ≠ 1 →
        exec (.ercvAccept x.id) s = .next (reach ((s.modEndpoint n (fun e => { e with
          uq := (e.uq.head?.map e.uq.erase).getD e.uq, udrops := 0 })).modFab x.id (fun y =>
            { y with took := true, taken := e.uq.head?, drops := e.udrops, dwv := 0 }))))) ∧
    (s.fabops.find? (fun y => y.id == x.id && !y.send && y.took) = some x → s.waves.get? x.wave = some w →
      let off := natBits (x.desc.getD 0 0).toNat 0 20
      let l := Loc.scratch w.block w.half off
      s.mayLand l (engineKey w.core) = true → ∃ t,
      exec (.ercvComplete x.id) s = .next (t.fabricDone x false) ∧
        let bytes := ercvHeader x ++ (x.taken.map (fun p => p.payload)).getD []
        t = (linePieces off bytes.length).foldl (fun s e => (s.storeAt (.scratch w.block w.half e.1) e.2
          (leNat ((bytes.drop (e.1 - off)).take e.2))).fillLine (.scratch w.block w.half e.1)) (s.land l (engineKey w.core))) ∧
    (∀ (p : Option Packet) (r : Option Retire),
      (s.landed.get? switchBank ≠ none → s.takeItem i p r = none) ∧
      (i < 16 → s.landed.get? switchBank = none → s.takeItem i p r = if (s.input i).linkup then some s else none) ∧
      (∀ (l m : List LinkItem) (sent : Nat), 16 ≤ i → s.landed.get? switchBank = none → s.fabric.links = l ++ ⟨i, p, sent, r⟩ :: m →
        (∀ y ∈ l, y.input ≠ i) → s.takeItem i p r =
          if sent + 8 < s.time then some (s.modFabric (fun f => { f with links := l ++ m })) else none)) ∧
    (∀ p : Packet, s.takeItem i (some p) none = none → exec (.packetArrival i p) s = .next s) ∧
    (∀ (p : Packet) (t0 : State), s.takeItem i (some p) none = some t0 →
      let x := t0.input i
      let t := t0.leftSwitch p
      let sent := if i < 16 then (t, p) else t.takeSeq p
      let late := p.ordered = true ∧ (x.fenced = true ∨ x.rejoin = true ∨ p.stamp.toNat < x.wmark)
      let counted := t.modInput i (fun x => { x with odrop := min 65535 (x.odrop + 1) })
      let arrives := fun (u : State) => exec (.packetArrival i p) s = .next (u.mark i p.wmark.toNat)
      (t.retired p = true → arrives t) ∧
      (t.retired p = false → ¬ late → arrives (sent.1.forward i sent.2)) ∧
      (t.retired p = false → late → (x.fenced = true ∨ p.ddev ≠ t.fabric.devid ∨ 4064 ≤ p.dep) → arrives counted) ∧
      (t.retired p = false → late → x.fenced = false → p.ddev = t.fabric.devid → p.dep < 4064 →
        arrives (counted.modEndpoint p.dep (fun e => { e with odrops := min 255 (e.odrops + 1) })))) ∧
    (∀ (v : DWord) (r : Option Retire), (s.takeItem i none r = none → exec (.beaconArrival i ⟨v, r⟩) s = .next s) ∧
      ∀ t0, s.takeItem i none r = some t0 → exec (.beaconArrival i ⟨v, r⟩) s = .next (match r with
        | none => t0.mark i v.toNat
        | some x => (t0.mark i v.toNat).takeRetire i x)) ∧
    (∀ v, i < s.fabric.inputs.length → let x := s.input i
      let top := max x.wmark v
      (s.mark i v).input i = { x with wmark := top, rejoin := x.rejoin && decide (top ≤ s.dw)
                                      stall := x.stall && (decide (i < 16) || decide (top + s.fabric.stallLim < s.time)) }) ∧
    (i ≤ 20 → (s.input i).lastSent + 256 ≤ s.time →
      (i < 16 → (s.input i).linkup = true → exec (.beaconSend i) s = .next ((s.emit (.beacon i (s.outMark i))).modInput i
        (fun x => { x with lastSent := s.time, sentMark := s.outMark i }))) ∧
      (i < 16 → (s.input i).linkup = false → exec (.beaconSend i) s = .next s) ∧
      (16 ≤ i → exec (.beaconSend i) s = .next ((s.modInput i (fun x => { x with lastSent := s.time })).modFabric (fun f =>
        { f with links := f.links ++ [⟨i, none, s.time, none⟩] })))) ∧
    (∀ sent mark, s.fabric.toDie[i]? = some (sent, mark) → exec (.beaconSend (21 + i)) s = .next (if s.time < sent + 256 then s
      else s.modFabric (fun f => { f with toDie := listUpdate f.toDie i (fun _ => (s.time, max mark s.dw)) }))) ∧
    (i < 21 → (s.input i).fenced = false → (s.input i).stall = false → (s.input i).wmark + s.fabric.stallLim < s.time →
      exec (.watermarkStall i) s = .next ((s.modInput i (fun x => { x with stall := true })).log (.watermarkStall i))) ∧
    (i < 21 → (s.input i).fenced = false → exec (.portFence i) s =
      .next ((s.modInput i (fun x => { x with fenced := true, rejoin := false })).log (.fence i))) ∧
    (i < 21 → (s.input i).fenced = true → exec (.portUnfence i) s =
      .next ((s.modInput i (fun x => { x with fenced := false, rejoin := true })).log (.unfence i))) ∧
    (i < 16 → s.usable = true → exec (.linkTrained i) s = .next (s.modInput i (fun x => { x with linkup := true }))) ∧
    (s.usable = false → exec (.linkTrained i) s = .next s) ∧
    (i < 16 → (s.input i).tsrc = true → (s.input i).linkup = true → (s.input i).lastTime + 1048576 ≤ s.time → exec (.timeBeacon i) s =
      .next ((s.modInput i (fun x => { x with lastTime := s.time })).emit (.timeBeacon i s.time (s.input i).heard))) ∧
    (∀ t1 t2 t3 t4 : Nat, ∃ t, exec (.timeBeaconArrival i t1 t2 t3 t4) s = .next t ∧ s.time ≤ t.time ∧
      (i < 16 → (s.input i).tsrc = true → (s.input i).linkup = true → t4 = s.time → i < s.fabric.inputs.length →
        t1 ≠ (s.input i).lastTime → t.time = s.time ∧ t.input i = { s.input i with heard := some t4 }) ∧
      (i < 16 → (s.input i).tsrc = true → (s.input i).linkup = true → t4 = s.time → t1 = (s.input i).lastTime →
        let ahead : Int := (((t2 : Int) - t1) - ((s.time : Int) - t3)) / 2
        let near := fun (n : Nat) => decide (n < 16)
        (t.time : Int) = s.time + max 0 ahead ∧ (i < s.fabric.inputs.length → (t.input i).heard = some s.time ∧
          (t.input i).delay = some ((((s.time : Int) - t1) - ((t3 : Int) - t2)) / 2) ∧ (t.input i).lastOff = some ahead.natAbs ∧
          (t.input i).tsync = (near ahead.natAbs && Config.freqLocked s.time && (s.input i).lastOff.any near)))) ∧
    (s.fabric.ppsOn = true → ∃ t, exec .ppsPulse s = .next t ∧ s.time ≤ t.time ∧ t.time < s.time + 4000000000 ∧
      t.time % 4000000000 = 0)

/-- In part, after R109, R311, R312, R395, R398, R406, R409, R421, R422, R429, R431 to R433, R436, R440: the commands of the
mailbox, whose operands the events carry (the masters of a freeze and the page of LOG_READ: log entries 106, 108 and 153,
choices of the model). PART_SET, FUNC_SET and BKTCFG_SET first settle the buckets of the partition, and the TLB entries of
the functions concerned are forgotten (log entry 56, read from the spec by inference). PART_SET, FUNC_SET, BKTCFG_SET, DIE_RESET and LOG_READ answer BAD_ARG for an argument out of range; PART_SET,
FUNC_SET, EPCFG_SET, the end of a freeze, DIE_RESET and TIME_SET answer WRONG_STATE where the machine's state forbids
them, and FW_STAGE DENIED for an image that is not authentic, with no other effect; each with legal arguments,
REPLICA_SET and PWR_SET among them, has its effect and answers 0; and a code that is not listed answers BAD_ARG. -/
def Obligations.MailboxCommands : Prop :=
  ∀ (s : State), s.usable = true →
    let ok := fun (t : State) => Host.Outcome.next (φ := Fault) (ρ := Refusal) (t.modControl (fun c => { c with result := 0 }))
    let no := fun (e : MailResult) => Host.Outcome.next (φ := Fault) (ρ := Refusal) (s.modControl (fun c => { c with result := e.code }))
    (∀ a, (s.partLegal a = false → exec (.partSet a) s = no .badArg) ∧
      (s.partLegal a = true → s.partBusy a.part = true → exec (.partSet a) s = no .wrongState) ∧
      (s.partLegal a = true → s.partBusy a.part = false → exec (.partSet a) s =
        ok (((s.refillAll a.part).setPart a).refillAll a.part))) ∧
    (∀ a, (s.funcLegal a = false → exec (.funcSet a) s = no .badArg) ∧
      (s.funcLegal a = true → (s.func a.func).active = true → exec (.funcSet a) s = no .wrongState) ∧
      (s.funcLegal a = true → (s.func a.func).active = false → exec (.funcSet a) s =
        ok ((((s.refillOf a.func).modFunc a.func (fun x => x.setUp a)).forget (· == a.func)).refillOf a.func))) ∧
    (∀ f, s.refillOf f = match (s.func f).part with
      | some k => s.refillAll k
      | none => s) ∧
    (∀ (f : Nat) (v : DWord), let d := natBits v.toNat 24 24
      (¬ (1 ≤ f ∧ f ≤ 256 ∧ d % 128 = 0 ∧ 128 ≤ d ∧ d ≤ 8388608) → exec (.bktcfgSet f v) s = no .badArg) ∧
      (1 ≤ f → f ≤ 256 → d % 128 = 0 → 128 ≤ d → d ≤ 8388608 → exec (.bktcfgSet f v) s =
        ok ((s.refillOf f).modFunc f (fun x => { x with bktcfg := v &&& 0x0000FFFFFF00FFFF })))) ∧
    (∀ (n : Nat) (v : DWord), n < 4064 → (v.getLsbD 31 = false ∨ (1 ≤ natBits v.toNat 0 9 ∧ natBits v.toNat 0 9 ≤ 256 ∧
        4 ≤ natBits v.toNat 32 4 ∧ natBits v.toNat 32 4 ≤ 12 ∧ 4 ≤ natBits v.toNat 36 4 ∧ natBits v.toNat 36 4 ≤ 12)) →
      ((s.endpoint n).oq ≠ [] ∨ (s.endpoint n).uq ≠ [] → exec (.epcfgSet n v) s = no .wrongState) ∧
      ((s.endpoint n).oq = [] → (s.endpoint n).uq = [] →
        exec (.epcfgSet n v) s = ok (s.modEndpoint n (fun e => { e with cfg := v &&& 0xFFFF00FF800001FF })))) ∧
    (∀ (f : Nat) (l : List (BitVec 16)) (limit : Nat), 1 ≤ f → f ≤ 256 → 2 ≤ l.length → l.length ≤ 4 → 1 ≤ limit → limit ≤ 65535 →
      (∀ e ∈ s.plats, e.2.func ≠ f) →
      exec (.replicaSet f l limit) s = ok (s.modFunc f (fun x => { x with replica := l, rlimit := limit }))) ∧
    (∀ m, (s.isFrozen m = false → ∀ b, exec (.freezeEnd m b) s = no .wrongState) ∧
      (s.isFrozen m = true → exec (.freezeEnd m false) s = ok (s.release m) ∧
        exec (.freezeEnd m true) s = ok ((s.blocksOf m).foldl (fun s b => s.fatalBlock b none .privilege) (s.release m)))) ∧
    (∀ d, (4 ≤ d → exec (.dieReset d) s = no .badArg) ∧
      (d < 4 → s.anyResetting = true → exec (.dieReset d) s = no .wrongState) ∧
      (d < 4 → s.anyResetting = false → exec (.dieReset d) s = ok (s.resetDie d))) ∧
    (∀ n, (15 < n → exec (.logRead n) s = no .badArg) ∧
      (n ≤ 15 → let l := s.control.log.drop (s.control.log.length - n)
        let a := s.control.mbarg.toNat
        (l ≠ [] → s.hostMaps 0 a = true → exec (.logRead n) s = ok (State.emit { s.hostStore a
          ((List.range (256 * l.length)).map (Config.logByte s.free)) with free := s.free + 1 } (.logPage l))) ∧
        (l = [] ∨ s.hostMaps 0 a = false → exec (.logRead n) s = ok (s.emit (.logPage l))))) ∧
    (∀ l : List Byte, l.length ≤ 33554432 → s.control.upstat ≠ 1 →
      (slotVerdict l = .authentic → exec (.fwStage l) s = ok (s.modControl (fun c => c.writeSlot (!c.running) l))) ∧
      (slotVerdict l ≠ .authentic → exec (.fwStage l) s = no .denied)) ∧
    (∀ a : TimeArg, 1024 ≤ a.stalllim → a.stalllim ≤ 2 ^ 31 →
      (a.devid ≠ s.fabric.devid → s.fabric.devidSet = true → exec (.timeSet a) s = no .wrongState) ∧
      ((a.devid = s.fabric.devid ∨ s.fabric.devidSet = false) → exec (.timeSet a) s = ok (s.modFabric (fun x => { x with
        devid := a.devid, stallLim := a.stalllim, ppsOn := a.pps
        inputs := x.inputs.mapIdx (fun i y => if i < 16 then y.setTsrc (a.tsrc.getLsbD i) else y) })))) ∧
    (∀ v : DWord, 500 ≤ psust v → psust v ≤ 2200 → psust v ≤ pexc v → pexc v ≤ 2400 → 1 ≤ texc v → texc v ≤ 10 →
      exec (.pwrSet v) s = ok (s.modControl (fun c => { c with pwrcfg := v &&& 0x0000FFFFFF00FFFF }))) ∧
    (∀ code : BitVec 16, (mailboxListed code.toNat = true → exec (.mailboxUnknownCode code) s = .next s) ∧
      (mailboxListed code.toNat = false → exec (.mailboxUnknownCode code) s = no .badArg))

/-- In part, after R4, R5, R315, R416 to R422, R426, R427, R429, R430, R431, R433 to R438, R440, R441: the events of the
host's registers, with what they read as, of a function's life and of the control die. Choices of the model, or read from
the spec by inference: an EVSZ outside its range (log entry 32), the low bits of EVBASE and MBARG (148), what a function's
reset and the physical function's keep (102, 155), what a start keeps (105), when a start has failed (133), what a corrected
error logs and what a trip keeps (110), when a trip's temperature is looked at (157). Whether a reset die passes bring-up again is open (159). -/
def Obligations.ControlEvents : Prop :=
  ∀ (s : State) (f : Nat),
    let x := s.func f
    (∀ seq : Word, s.usable = true → 1 ≤ f → f ≤ 256 → exec (.evackWrite f seq) s = .next (s.ackFault f seq.toNat)) ∧
    (∀ e rest, x.evwait = e :: rest → x.even = true → (x.evprod + 2 ^ 32 - x.evcons) % 2 ^ 32 ≠ 2 ^ x.evsz →
      let ring := 2 ^ (8 + x.evsz)
      let a := x.evbase.toNat / ring * ring + 256 * (x.evprod % 2 ^ x.evsz)
      let t := (s.hostStore a (e.bytes x.evprod)).modFunc f (fun x =>
        { x with evwait := rest, evprod := (x.evprod + 1) % 2 ^ 32 })
      (s.hostMaps f a = true → exec (.eventRecordWrite f) s = .next (if x.evirq then t.raiseMsi f x.evvec else t)) ∧
      (s.hostMaps f a = false → x.frozen = false → exec (.eventRecordWrite f) s = .next (s.hostFault f a)) ∧
      (s.hostMaps f a = false → x.frozen = true → exec (.eventRecordWrite f) s = .next s)) ∧
    (∀ v : DWord, s.usable = true →
      exec (.registerWrite .mbarg v) s = .next { s with control := { s.control with mbarg := v &&& 0xFFFFFFFFFFFFF000 } } ∧
      (∀ q, exec (.registerWrite (.qro f q) v) s = .next s ∧ exec (.registerWrite (.funcRO f) v) s = .next s ∧
        exec (.registerWrite .unused v) s = .next s) ∧
      (1 ≤ f → f ≤ 256 → exec (.registerWrite (.evcons f) v) s =
        .next (s.modFunc f (fun x => { x with evcons := natBits v.toNat 0 32 })) ∧
        exec (.registerWrite (.evsz f) v) s = .next (s.modFunc f (fun x => x.writeEvsz v.toNat)) ∧
        (x.even = false → exec (.registerWrite (.evbase f) v) s = .next (s.modFunc f (fun x => { x with evbase := v }))) ∧
        s.hostRead f 2 0x20 = some (x.evprod + x.evcons * 2 ^ 32) ∧
        (∀ q : Nat, s.hostRead f 0 (64 * q + 0x18) = some 0 ∧ (s.hasQueue f q = true →
          s.hostRead f 0 (64 * q) = some (x.queue q).base.toNat ∧ s.hostRead f 0 (64 * q + 0x20) = some (x.queue q).start ∧
          s.hostRead f 0 (64 * q + 0x28) = some (x.queue q).done)))) ∧
    (∀ stream, s.usable = true → 1 ≤ f → f ≤ 256 → x.tdst = .configUnlocked → stream < 8 → exec (.lockInterface f stream) s =
      .next (s.modFunc f (fun x => { x with tdst := .configLocked, stream }))) ∧
    (x.tdst = .configLocked → exec (.startInterface f) s = .next (s.modFunc f (fun x => { x with tdst := .run }))) ∧
    (s.usable = true → 1 ≤ f → f ≤ 256 → exec (.stopInterface f) s = .next (s.resetFunc f) ∧ exec (.flr f) s = .next (s.resetFunc f)) ∧
    (s.usable = true → ∃ t, exec (.flr 0) s = .next t ∧ (t.func 0).msix = [] ∧ t.control.mbarg = 0 ∧ t.hbm = s.hbm ∧
      t.waves = s.waves ∧ t.parts = s.parts ∧ ∀ k, k ≠ 0 → t.func k = s.func k) ∧
    (x.locked = true → exec (.tdispError f) s =
      .next (((s.freezeFunc f).modFunc f (fun x => { x with tdst := .error })).postViolation f 2 3 0 0)) ∧
    (x.part ≠ none → x.active = true →
      (x.switching = none → exec (.switchOut f) s = .next (s.modFunc f (fun x => { x with switching := some s.time }))) ∧
      (∀ t, x.switching = some t → x.atBoundary = false → exec (.switchOut f) s = .next s) ∧
      (∀ t, x.switching = some t → x.atBoundary = true →
        let u := ({ s with cuts := s.cuts.map (fun y =>
          if y.func = f ∧ y.method = .save ∧ y.state = .writing ∧ y.reason = 0 ∧ y.listOf = none
          then { y with hold := true } else y) } : State).saveResident f
        let saving := ∃ y ∈ u.cuts, y.func = f ∧ y.method = .save ∧ y.state = .writing
        (saving → exec (.switchOut f) s = .next u) ∧
        (¬ saving → exec (.switchOut f) s = .next (u.modFunc f (fun x => { x with active := false, switching := none }))))) ∧
    (∀ k, x.part = some k → x.active = false → (∀ u ∈ s.cuts, u.func = f → u.reason ≠ 0 ∨ u.hold = false) →
      exec (.switchIn f) s = .next ((s.modFunc f (fun x => { x with active := true, activeAt := s.time })).modPart k (fun p =>
        { p with lastFunc := f }))) ∧
    (∀ p, s.parts.get? f = some p → p.plugin = true → exec (.pluginUnload f) s =
      .next ((s.modPart f (fun p => { p with plugin := false })).log (.pluginUnload f))) ∧
    (∀ d, s.dies[f]? = some d →
      (d.ok = true → s.anyResetting = false → exec (.dieErrorReset f) s = .next ((s.resetDie f).modControl (fun c =>
        { c with dieErrors := c.dieErrors.filter (· != f) }))) ∧
      (d.ok = true → s.anyResetting = true → ∃ t, exec (.dieErrorReset f) s = .next t ∧ f ∈ t.control.dieErrors ∧
        t.dies = s.dies ∧ ∀ k ∈ s.control.dieErrors, k ∈ t.control.dieErrors) ∧
      (d.resetting = true → s.usable = true → s.control.tripped = false →
        let t := { s with free := s.free + 1 }
        (Config.dieTrains s.free = true → exec (.dieReadmit f) s = .next ((s.parts.map (·.1)).foldl State.refillAll
          (((t.modDie f (fun x => { x with ok := true, resetting := false })).unfenceInput (16 + f)).log (.dieAdmit f)))) ∧
        (Config.dieTrains s.free = false → exec (.dieReadmit f) s =
          .next ((t.modDie f (fun x => { x with resetting := false })).log (.dieOut f))))) ∧
    (∀ slot, s.control.phase = .minimal → s.control.upstat ≠ 1 → exec (.uploadGo slot) s =
      .next (s.modControl (fun c => { c with upstat := 1, upslot := slot }))) ∧
    (s.control.upstat = 1 → let l := Memory.bytes s.control.upbuf 0 s.control.uplen
      (slotVerdict l = .authentic → exec .uploadComplete s =
        .next (s.modControl (fun c => { c.writeSlot c.upslot l with upstat := 2 }))) ∧
      (slotVerdict l ≠ .authentic → exec .uploadComplete s = .next (s.modControl (fun c => { c with upstat := 3 })))) ∧
    exec .rsnClear s = .next (s.modControl (fun c => { c with rsn := 0 })) ∧
    (∀ power, let t := s.restart power
      let b := t.control.tryFirst
      slotVerdict (t.control.slot b) = .authentic → exec (.start power) s =
        .next (t.modControl (fun c => { c.note b .authentic with phase := .training b }))) ∧
    (∀ b, s.control.phase = .training b →
      (s.control.began + 40000000000 ≤ s.time → exec .readyTimeout s = .next (s.modControl (fun c => c.failed (some b) none))) ∧
      (∀ dies : BitVec 4, s.control.tripped = false → dies ≠ 0 → exec (.firmwareReady true dies) s =
        .next (((({ s with hbm := [], hpoison := [] } : State).admitDies dies).modFabric (fun x =>
          { x with devidSet := true })).modControl (fun c => { c with phase := .ready b, failcnt := 0, tryFirst := b }))) ∧
      (∀ dies : BitVec 4, s.control.tripped = false → exec (.firmwareReady false dies) s =
        .next (s.modControl (fun c => c.failed (some b) (some 3)))) ∧
      (∀ (ok : Bool) (dies : BitVec 4), s.control.tripped = true → exec (.firmwareReady ok dies) s =
        .next (s.modControl (fun c => c.failed (some b) (some 5)))) ∧
      (s.control.tripped = false → exec (.firmwareReady true 0) s =
        .next ((({ s with hbm := [], hpoison := [] } : State).admitDies 0).modControl (fun c => c.failed (some b) (some 4))))) ∧
    (∀ (c : Control) (ran : Option Bool) (r : Nat),
      let n := min 15 (c.failcnt + 1)
      let tried := { c with failcnt := n, tryFirst := (ran.map (fun b => !b)).getD c.tryFirst }
      c.failed ran (some r) = { tried with phase := .minimal, rsn := r } ∧
      c.failed ran none = if 3 ≤ n then { tried with phase := .minimal, rsn := 2 } else { tried with phase := .off }) ∧
    exec (.configRequest f) s = .next (s.emit (.configReply f (!(s.usable || s.control.phase == .minimal))
      (if s.control.phase = .minimal then 0 else 256))) ∧
    (∀ u, exec (.softError u true) s = .next ((s.modControl (fun c =>
        { c with corrected := listUpdate c.corrected (s.dieStruck u) (fun _ => c.corrected.getD (s.dieStruck u) 0 + 1) })).log
          (.correctedErrors (s.dieStruck u) (s.control.corrected.getD (s.dieStruck u) 0 + 1))) ∧
      exec (.softError u false) s = .next (s.poison u)) ∧
    (f < 8 → s.control.scrubs.getD f 0 + 345600000000000 ≤ s.time → ∃ t, exec (.hbmScrub f) s = .next t ∧
      t.control.scrubs.getD f 0 = s.time ∧ t.hbm = s.hbm) ∧
    (∀ p : PowerSample, (s.sampleDue = false → exec (.powerSample p) s = .next s) ∧
      (s.sampleDue = true → ∃ t, exec (.powerSample p) s = .next t ∧
        let c := s.control
        let since := if psust c.pwrcfg < p.watts then some (c.overSince.getD s.time) else none
        let recent := (p.watts :: c.recent).take 10000
        let maximum := 105 ≤ p.compTemp ∨ 95 ≤ p.memTemp ∨ 105 ≤ p.ctrlTemp
        let more := pexc c.pwrcfg < p.watts ∨ (∃ t, since = some t ∧ t + 4000000 * texc c.pwrcfg < s.time) ∨
          psust c.pwrcfg * recent.length < recent.foldl (· + ·) 0 ∨ 100 ≤ p.compTemp ∨ 90 ≤ p.memTemp ∨ 100 ≤ p.ctrlTemp
        (maximum → t.control.steps = 15) ∧ (¬ maximum → more → t.control.steps = min 15 (c.steps + 1)) ∧
        (¬ maximum → ¬ more → t.control.steps = c.steps - 1) ∧
        t.control.overSince = since ∧ t.control.recent = recent ∧ t.control.temps = [p.compTemp, p.memTemp, p.ctrlTemp] ∧
        t.control.sampledAt = some s.time ∧ t.waves = s.waves ∧ t.hbm = s.hbm)) ∧
    (∀ d, let limit := match d with
        | .compute => 115
        | .memory => 105
        | .control => 115
      let seen := s.control.temps.getD (match d with
        | .compute => 0
        | .memory => 1
        | .control => 2) 0
      (s.control.tripped = true ∨ seen < limit → exec (.thermalTrip d) s = .next s) ∧
      (s.control.tripped = false → limit ≤ seen → ∃ t, exec (.thermalTrip d) s = .next t ∧ t.control.tripped = true ∧
        t.control.rsn = 5 ∧ t.control.trips = s.control.trips ++ [(s.time, d)] ∧ t.hbm = [] ∧ t.privMem = []))
end

