-- ==== Sys2Proof/Laws/Store.lean ====
section
/-! SUPPORT. The laws of the sparse stores, the byte memory and the tables: read after write, writes
elsewhere, and the canonical form that every write keeps. -/

namespace Sys2Proof.Machine

set_option Elab.async false

/-! ## Sparse stores: read after write -/

@[simp] theorem ZMap.get_nil {n : Nat} (a : Nat) : ZMap.get ([] : ZMap n) a = 0 := rfl

theorem ZMap.get_put_same {n : Nat} (m : ZMap n) (a : Nat) (x : BitVec n) : (m.put a x).get a = x := by
  induction m with
  | nil => simp [ZMap.put, ZMap.get]
  | cons e rest ih =>
    obtain ⟨k, v⟩ := e
    by_cases h : k = a
    · simp [ZMap.put, ZMap.get, h]
    · by_cases h' : a < k <;> simp [ZMap.put, ZMap.get, h, h', ih]

theorem ZMap.get_put_other {n : Nat} (m : ZMap n) {a b : Nat} (x : BitVec n) (h : b ≠ a) :
    (m.put a x).get b = m.get b := by
  induction m with
  | nil => simp [ZMap.put, ZMap.get, h.symm]
  | cons e rest ih =>
    obtain ⟨k, v⟩ := e
    by_cases hk : k = a
    · subst hk
      simp [ZMap.put, ZMap.get, h.symm]
    · by_cases h' : a < k
      · simp [ZMap.put, ZMap.get, hk, h', h.symm]
      · simp [ZMap.put, ZMap.get, hk, h', ih]

theorem ZMap.get_filter {n : Nat} (m : ZMap n) (p : Nat → Bool) (b : Nat) :
    ZMap.get (m.filter (fun e => p e.1)) b = if p b then m.get b else 0 := by
  induction m with
  | nil => simp [ZMap.get]
  | cons e rest ih =>
    obtain ⟨k, v⟩ := e
    by_cases hp : p k
    · by_cases hk : k = b
      · subst hk; simp [ZMap.get, hp]
      · simp [ZMap.get, hp, hk, ih]
    · by_cases hk : k = b
      · subst hk
        simp only [hp, Bool.false_eq_true, not_false_eq_true, List.filter_cons_of_neg, ih, if_false]
      · simp [ZMap.get, hp, hk, ih]

/-- A key that has been set reads the value set. -/
@[simp] theorem ZMap.get_set_same {n : Nat} (m : ZMap n) (a : Nat) (x : BitVec n) : (m.set a x).get a = x := by
  unfold ZMap.set
  split
  · next h => rw [ZMap.get_filter m (fun k => k != a)]; simp [h]
  · exact ZMap.get_put_same m a x

/-- A write leaves every other key as it was. -/
theorem ZMap.get_set_other {n : Nat} (m : ZMap n) {a b : Nat} (x : BitVec n) (h : b ≠ a) :
    (m.set a x).get b = m.get b := by
  unfold ZMap.set
  split
  · rw [ZMap.get_filter m (fun k => k != a)]; simp [h]
  · exact ZMap.get_put_other m x h

/-- What a key reads after one write. -/
theorem ZMap.get_set {n : Nat} (m : ZMap n) (a b : Nat) (x : BitVec n) :
    (m.set a x).get b = if b = a then x else m.get b := by
  split
  · next h => rw [h]; exact ZMap.get_set_same m a x
  · next h => exact ZMap.get_set_other m x h

/-- Writes of keys that do not include `b` leave `b` as it was. -/
theorem ZMap.get_setAll_other {n : Nat} (l : List (Nat × BitVec n)) (m : ZMap n) (b : Nat)
    (h : ∀ e ∈ l, e.1 ≠ b) : (m.setAll l).get b = m.get b := by
  induction l generalizing m with
  | nil => rfl
  | cons e rest ih =>
    obtain ⟨a, x⟩ := e
    have hb : b ≠ a := fun hb => h (a, x) (by simp) hb.symm
    rw [ZMap.setAll, ih _ (fun e he => h e (List.mem_cons_of_mem _ he)), ZMap.get_set_other m x hb]

/-- A key written once among several writes reads its value. -/
theorem ZMap.get_setAll_mem {n : Nat} (l : List (Nat × BitVec n)) (m : ZMap n) (a : Nat) (x : BitVec n)
    (hx : (a, x) ∈ l) (hl : ∀ e ∈ l, e.1 = a → e.2 = x) : (m.setAll l).get a = x := by
  induction l generalizing m with
  | nil => cases hx
  | cons e rest ih =>
    obtain ⟨b, y⟩ := e
    by_cases hr : (a, x) ∈ rest
    · exact ih _ hr (fun e he => hl e (List.mem_cons_of_mem _ he))
    · have he : (a, x) = (b, y) := by simpa [hr] using hx
      cases he
      by_cases hm : ∃ e ∈ rest, e.1 = a
      · obtain ⟨e, he, ha⟩ := hm
        have hv := hl e (List.mem_cons_of_mem _ he) ha
        exact absurd (by rw [← ha, ← hv]; exact he) hr
      · rw [ZMap.setAll, ZMap.get_setAll_other _ _ _ (fun e he ha => hm ⟨e, he, ha⟩), ZMap.get_set_same]

/-- Cleared keys read zero, and the others are as they were. -/
theorem ZMap.get_clear {n : Nat} (m : ZMap n) (a len b : Nat) :
    (m.clear a len).get b = if a ≤ b ∧ b < a + len then 0 else m.get b := by
  unfold ZMap.clear
  rw [ZMap.get_filter m (fun k => decide (k < a) || decide (a + len ≤ k))]
  by_cases h : a ≤ b ∧ b < a + len
  · simp [h, show ¬ b < a by omega, show ¬ a + len ≤ b by omega]
  · simp [h, show b < a ∨ a + len ≤ b by omega]

/-! ## The canonical form -/

/-- A bound below every key of a list. -/
def keysAbove {α : Type} (a : Nat) (l : List (Nat × α)) : Prop := ∀ e ∈ l, a < e.1

theorem keysRise_cons {α : Type} (a : Nat) (x : α) (l : List (Nat × α)) :
    keysRise ((a, x) :: l) = true ↔ keysAbove a l ∧ keysRise l = true := by
  induction l generalizing a x with
  | nil => simp [keysRise, keysAbove]
  | cons e rest ih =>
    obtain ⟨b, y⟩ := e
    simp only [keysRise, Bool.and_eq_true, decide_eq_true_eq]
    constructor
    · rintro ⟨hab, hr⟩
      refine ⟨fun e he => ?_, hr⟩
      rcases List.mem_cons.1 he with rfl | he
      · exact hab
      · exact Nat.lt_trans hab (((ih b y).1 hr).1 e he)
    · rintro ⟨hab, hr⟩
      exact ⟨hab (b, y) (by simp), hr⟩

theorem keysRise_filter {α : Type} (l : List (Nat × α)) (p : Nat × α → Bool) (h : keysRise l = true) :
    keysRise (l.filter p) = true := by
  induction l with
  | nil => rfl
  | cons e rest ih =>
    obtain ⟨a, x⟩ := e
    obtain ⟨ha, hr⟩ := (keysRise_cons a x rest).1 h
    by_cases hp : p (a, x)
    · rw [List.filter_cons_of_pos hp, keysRise_cons]
      exact ⟨fun e he => ha e (List.mem_filter.1 he).1, ih hr⟩
    · rw [List.filter_cons_of_neg hp]; exact ih hr

theorem ZMap.put_mem {n : Nat} (m : ZMap n) (a : Nat) (x : BitVec n) (e : Nat × BitVec n) (h : e ∈ m.put a x) :
    e = (a, x) ∨ e ∈ m := by
  induction m with
  | nil => simpa [ZMap.put] using h
  | cons d rest ih =>
    obtain ⟨k, v⟩ := d
    by_cases hk : k = a
    · simp only [ZMap.put, hk, if_true, List.mem_cons] at h ⊢
      tauto
    · by_cases h' : a < k
      · simpa [ZMap.put, hk, h'] using h
      · simp only [ZMap.put, hk, h', if_false, List.mem_cons] at h ⊢
        rcases h with h | h
        · exact .inr (.inl h)
        · rcases ih h with h | h
          · exact .inl h
          · exact .inr (.inr h)

theorem ZMap.keysRise_put {n : Nat} (m : ZMap n) (a : Nat) (x : BitVec n) (h : keysRise m = true) :
    keysRise (m.put a x) = true := by
  induction m with
  | nil => rfl
  | cons e rest ih =>
    obtain ⟨k, v⟩ := e
    obtain ⟨hk, hr⟩ := (keysRise_cons k v rest).1 h
    by_cases h1 : k = a
    · subst h1
      simp only [ZMap.put, if_true]
      exact (keysRise_cons _ _ _).2 ⟨hk, hr⟩
    · by_cases h2 : a < k
      · simp only [ZMap.put, h1, h2, if_false, if_true]
        refine (keysRise_cons _ _ _).2 ⟨fun e he => ?_, h⟩
        rcases List.mem_cons.1 he with rfl | he
        · exact h2
        · exact Nat.lt_trans h2 (hk e he)
      · simp only [ZMap.put, h1, h2, if_false]
        refine (keysRise_cons _ _ _).2 ⟨fun e he => ?_, ih hr⟩
        rcases ZMap.put_mem rest a x e he with rfl | he
        · show k < a
          omega
        · exact hk e he

/-- A write keeps the canonical form: rising keys and no zero entry. -/
theorem ZMap.wf_set {n : Nat} (m : ZMap n) (a : Nat) (x : BitVec n) (h : m.wf = true) : (m.set a x).wf = true := by
  obtain ⟨h1, h2⟩ := Bool.and_eq_true_iff.1 h
  unfold ZMap.set
  split
  · refine Bool.and_eq_true_iff.2 ⟨keysRise_filter _ _ h1, ?_⟩
    exact List.all_eq_true.2 (fun e he => List.all_eq_true.1 h2 e (List.mem_filter.1 he).1)
  · next hx =>
    refine Bool.and_eq_true_iff.2 ⟨ZMap.keysRise_put m a x h1, List.all_eq_true.2 (fun e he => ?_)⟩
    rcases ZMap.put_mem m a x e he with rfl | he
    · simpa using hx
    · exact List.all_eq_true.1 h2 e he

theorem ZMap.wf_setAll {n : Nat} (l : List (Nat × BitVec n)) (m : ZMap n) (h : m.wf = true) : (m.setAll l).wf = true := by
  induction l generalizing m with
  | nil => exact h
  | cons e rest ih => exact ih _ (ZMap.wf_set m e.1 e.2 h)

theorem ZMap.wf_clear {n : Nat} (m : ZMap n) (a len : Nat) (h : m.wf = true) : (m.clear a len).wf = true := by
  obtain ⟨h1, h2⟩ := Bool.and_eq_true_iff.1 h
  refine Bool.and_eq_true_iff.2 ⟨keysRise_filter _ _ h1, ?_⟩
  exact List.all_eq_true.2 (fun e he => List.all_eq_true.1 h2 e (List.mem_filter.1 he).1)

/-- Canonical stores that read alike are equal data. -/
theorem ZMap.ext_wf {n : Nat} (m k : ZMap n) (hm : m.wf = true) (hk : k.wf = true) (h : ∀ a, m.get a = k.get a) : m = k := by
  have below : ∀ (l : ZMap n) (a : Nat), (∀ e ∈ l, a < e.1) → l.get a = 0 := by
    intro l a ha
    induction l with
    | nil => rfl
    | cons e rest ih =>
      obtain ⟨b, v⟩ := e
      have hb : a < b := ha (b, v) (by simp)
      simp only [ZMap.get, show b ≠ a by omega, if_false]
      exact ih (fun e he => ha e (List.mem_cons_of_mem _ he))
  induction m generalizing k with
  | nil =>
    cases k with
    | nil => rfl
    | cons e rest =>
      obtain ⟨b, v⟩ := e
      have hv : v ≠ 0 := by
        have := (Bool.and_eq_true_iff.1 hk).2
        simpa using (List.all_eq_true.1 this) (b, v) (by simp)
      exact absurd (h b).symm (by simpa [ZMap.get] using hv)
  | cons d mrest ih =>
    obtain ⟨a, u⟩ := d
    obtain ⟨hm1, hm2⟩ := Bool.and_eq_true_iff.1 hm
    obtain ⟨ha, hmr⟩ := (keysRise_cons a u mrest).1 hm1
    have hu : u ≠ 0 := by simpa using (List.all_eq_true.1 hm2) (a, u) (by simp)
    cases k with
    | nil => exact absurd (h a) (by simpa [ZMap.get] using hu)
    | cons e krest =>
      obtain ⟨b, v⟩ := e
      obtain ⟨hk1, hk2⟩ := Bool.and_eq_true_iff.1 hk
      obtain ⟨hb, hkr⟩ := (keysRise_cons b v krest).1 hk1
      have hv : v ≠ 0 := by simpa using (List.all_eq_true.1 hk2) (b, v) (by simp)
      have hab : a = b := by
        rcases Nat.lt_trichotomy a b with hlt | heq | hgt
        · exfalso
          have := h a
          simp only [ZMap.get, if_true, show b ≠ a by omega, if_false] at this
          rw [below krest a (fun e he => Nat.lt_trans hlt (hb e he))] at this
          exact hu this
        · exact heq
        · exfalso
          have := h b
          simp only [ZMap.get, if_true, show a ≠ b by omega, if_false] at this
          rw [below mrest b (fun e he => Nat.lt_trans hgt (ha e he))] at this
          exact hv this.symm
      subst hab
      have huv : u = v := by simpa [ZMap.get] using h a
      subst huv
      have hrest : mrest = krest := by
        refine ih krest (Bool.and_eq_true_iff.2 ⟨hmr, ?_⟩) (Bool.and_eq_true_iff.2 ⟨hkr, ?_⟩) (fun c => ?_)
        · exact List.all_eq_true.2 (fun e he => List.all_eq_true.1 hm2 e (List.mem_cons_of_mem _ he))
        · exact List.all_eq_true.2 (fun e he => List.all_eq_true.1 hk2 e (List.mem_cons_of_mem _ he))
        · by_cases hc : a = c
          · subst hc; rw [below mrest a ha, below krest a hb]
          · simpa [ZMap.get, hc] using h c
      rw [hrest]

/-! ## Byte memory -/

@[simp] theorem Memory.byte_setByte_same (m : Memory) (a : Nat) (x : Byte) : (m.setByte a x).byte a = x :=
  ZMap.get_set_same (n := 8) m a x

theorem Memory.byte_setByte_other (m : Memory) {a b : Nat} (x : Byte) (h : b ≠ a) :
    (m.setByte a x).byte b = m.byte b :=
  ZMap.get_set_other (n := 8) m x h

/-- Bytes outside the stored ones are as they were. -/
theorem Memory.byte_setBytes_other (l : List Byte) (m : Memory) (a b : Nat) (h : b < a ∨ a + l.length ≤ b) :
    (m.setBytes a l).byte b = m.byte b := by
  induction l generalizing m a with
  | nil => rfl
  | cons x rest ih =>
    simp only [List.length_cons] at h
    rw [Memory.setBytes, ih _ _ (by omega), Memory.byte_setByte_other m x (by omega)]

/-- A stored byte reads back. -/
theorem Memory.byte_setBytes_at (l : List Byte) (m : Memory) (a i : Nat) (h : i < l.length) :
    (m.setBytes a l).byte (a + i) = l[i] := by
  induction l generalizing m a i with
  | nil => simp at h
  | cons x rest ih =>
    cases i with
    | zero => simp [Memory.setBytes, Memory.byte_setBytes_other rest _ (a + 1) a (by omega)]
    | succ j =>
      have := ih (m.setByte a x) (a + 1) j (by simpa using h)
      simpa [Memory.setBytes, Nat.add_assoc, Nat.add_comm 1 j] using this

@[simp] theorem leBytes_length (n x : Nat) : (leBytes n x).length = n := by
  induction n generalizing x with
  | zero => rfl
  | succ n ih => simp [leBytes, ih]

/-- A store leaves every byte outside its `n` bytes as it was. -/
theorem Memory.byte_store_other (m : Memory) (a n x b : Nat) (h : b < a ∨ a + n ≤ b) :
    (m.store a n x).byte b = m.byte b :=
  Memory.byte_setBytes_other _ m a b (by simpa using h)

theorem Memory.bytes_setBytes (l : List Byte) (m : Memory) (a : Nat) : (m.setBytes a l).bytes a l.length = l := by
  induction l generalizing m a with
  | nil => rfl
  | cons x rest ih =>
    rw [List.length_cons, Memory.bytes, Memory.setBytes, Memory.byte_setBytes_other rest _ (a + 1) a (by omega),
      Memory.byte_setByte_same, ih]

theorem leNat_leBytes (n x : Nat) : leNat (leBytes n x) = x % 256 ^ n := by
  induction n generalizing x with
  | zero => simp [leBytes, leNat, Nat.mod_one]
  | succ n ih =>
    rw [leBytes, leNat, ih, BitVec.toNat_ofNat, show 256 ^ (n + 1) = 256 * 256 ^ n from Nat.pow_succ', Nat.mod_mul]

/-- Read after write (R2): the value stored, in the width of the store. -/
theorem Memory.load_store (m : Memory) (a n x : Nat) : (m.store a n x).load a n = x % 256 ^ n := by
  have := Memory.bytes_setBytes (leBytes n x) m a
  rw [leBytes_length] at this
  rw [Memory.load, Memory.store, this, leNat_leBytes]

/-- A load outside the stored bytes reads what it read before. -/
theorem Memory.load_store_other (m : Memory) (a n x b k : Nat) (h : b + k ≤ a ∨ a + n ≤ b) :
    (m.store a n x).load b k = m.load b k := by
  have : (m.store a n x).bytes b k = m.bytes b k := by
    induction k generalizing b with
    | zero => rfl
    | succ k ih => rw [Memory.bytes, Memory.bytes, Memory.byte_store_other m a n x b (by omega), ih (b + 1) (by omega)]
  rw [Memory.load, Memory.load, this]

theorem Memory.wf_setByte (m : Memory) (a : Nat) (x : Byte) (h : m.wf = true) : (m.setByte a x).wf = true :=
  ZMap.wf_set (n := 8) m a x h

theorem Memory.wf_setBytes (l : List Byte) (m : Memory) (a : Nat) (h : m.wf = true) : (m.setBytes a l).wf = true := by
  induction l generalizing m a with
  | nil => exact h
  | cons x rest ih => exact ih _ _ (Memory.wf_setByte m a x h)

/-- A store keeps the canonical form. -/
theorem Memory.wf_store (m : Memory) (a n x : Nat) (h : m.wf = true) : (m.store a n x).wf = true :=
  Memory.wf_setBytes _ m a h

/-- Clearing keeps the canonical form. -/
theorem Memory.wf_clear (m : Memory) (a len : Nat) (h : m.wf = true) : Memory.wf (ZMap.clear (n := 8) m a len) = true :=
  ZMap.wf_clear (n := 8) m a len h

/-! ## Tables -/

@[simp] theorem Table.get?_nil {α : Type} (a : Nat) : Table.get? ([] : Table α) a = none := rfl

@[simp] theorem Table.get?_set_same {α : Type} (t : Table α) (a : Nat) (x : α) : (t.set a x).get? a = some x := by
  induction t with
  | nil => simp [Table.set, Table.get?]
  | cons e rest ih =>
    obtain ⟨k, v⟩ := e
    by_cases h : k = a
    · simp [Table.set, Table.get?, h]
    · by_cases h' : a < k <;> simp [Table.set, Table.get?, h, h', ih]

theorem Table.get?_set_other {α : Type} (t : Table α) {a b : Nat} (x : α) (h : b ≠ a) : (t.set a x).get? b = t.get? b := by
  induction t with
  | nil => simp [Table.set, Table.get?, h.symm]
  | cons e rest ih =>
    obtain ⟨k, v⟩ := e
    by_cases hk : k = a
    · subst hk; simp [Table.set, Table.get?, h.symm]
    · by_cases h' : a < k
      · simp [Table.set, Table.get?, hk, h', h.symm]
      · simp [Table.set, Table.get?, hk, h', ih]

/-- An update reaches its entry and no other. -/
theorem Table.get?_update {α : Type} (t : Table α) (a b : Nat) (f : α → α) :
    (t.update a f).get? b = if b = a then (t.get? a).map f else t.get? b := by
  induction t with
  | nil => simp [Table.update, Table.get?]
  | cons e rest ih =>
    obtain ⟨k, v⟩ := e
    simp only [Table.update, List.map_cons] at ih ⊢
    by_cases hk : k = a
    · subst hk
      by_cases hb : b = k
      · subst hb; simp [Table.get?]
      · simp [Table.get?, hb, Ne.symm hb]
        simpa [hb] using ih
    · by_cases hb : b = a
      · subst hb
        simp [Table.get?, hk]
        simpa using ih
      · simp only [hk, if_false, Table.get?, hb]
        split
        · rfl
        · simpa [hb] using ih

theorem Table.get?_mapVals {α : Type} (t : Table α) (f : Nat → α → α) (b : Nat) :
    (Table.mapVals t f).get? b = (t.get? b).map (f b) := by
  induction t with
  | nil => rfl
  | cons e rest ih =>
    obtain ⟨k, v⟩ := e
    simp only [Table.mapVals, List.map_cons, Table.get?] at ih ⊢
    split
    · next h => rw [h]; rfl
    · exact ih

end Sys2Proof.Machine
end

