-- ==== Sys2Proof/Laws/State.lean ====
section
/-! SUPPORT. What each shared update of the state leaves in each field: one lemma per field per update,
true by rfl, so that no proof unfolds a record update. -/

namespace Sys2Proof.Machine

set_option Elab.async false

variable (s : State)

/-! ## State.setWave -/

@[simp] theorem State.setWave_time (k : Nat) (w : Wave) : (s.setWave k w).time = s.time := rfl
@[simp] theorem State.setWave_free (k : Nat) (w : Wave) : (s.setWave k w).free = s.free := rfl
@[simp] theorem State.setWave_cur (k : Nat) (w : Wave) : (s.setWave k w).cur = s.cur := rfl
@[simp] theorem State.setWave_inputs (k : Nat) (w : Wave) : (s.setWave k w).inputs = s.inputs := rfl
@[simp] theorem State.setWave_outbox (k : Nat) (w : Wave) : (s.setWave k w).outbox = s.outbox := rfl
@[simp] theorem State.setWave_hbm (k : Nat) (w : Wave) : (s.setWave k w).hbm = s.hbm := rfl
@[simp] theorem State.setWave_hpoison (k : Nat) (w : Wave) : (s.setWave k w).hpoison = s.hpoison := rfl
@[simp] theorem State.setWave_host (k : Nat) (w : Wave) : (s.setWave k w).host = s.host := rfl
@[simp] theorem State.setWave_privMem (k : Nat) (w : Wave) : (s.setWave k w).privMem = s.privMem := rfl
@[simp] theorem State.setWave_leases (k : Nat) (w : Wave) : (s.setWave k w).leases = s.leases := rfl
@[simp] theorem State.setWave_landed (k : Nat) (w : Wave) : (s.setWave k w).landed = s.landed := rfl
@[simp] theorem State.setWave_walks (k : Nat) (w : Wave) : (s.setWave k w).walks = s.walks := rfl
@[simp] theorem State.setWave_misses (k : Nat) (w : Wave) : (s.setWave k w).misses = s.misses := rfl
@[simp] theorem State.setWave_answers (k : Nat) (w : Wave) : (s.setWave k w).answers = s.answers := rfl
@[simp] theorem State.setWave_asker (k : Nat) (w : Wave) : (s.setWave k w).asker = s.asker := rfl
@[simp] theorem State.setWave_fills (k : Nat) (w : Wave) : (s.setWave k w).fills = s.fills := rfl
@[simp] theorem State.setWave_icache (k : Nat) (w : Wave) : (s.setWave k w).icache = s.icache := rfl
@[simp] theorem State.setWave_waves (k : Nat) (w : Wave) : (s.setWave k w).waves = s.waves.set k w := rfl
@[simp] theorem State.setWave_blocks (k : Nat) (w : Wave) : (s.setWave k w).blocks = s.blocks := rfl
@[simp] theorem State.setWave_grids (k : Nat) (w : Wave) : (s.setWave k w).grids = s.grids := rfl
@[simp] theorem State.setWave_regions (k : Nat) (w : Wave) : (s.setWave k w).regions = s.regions := rfl
@[simp] theorem State.setWave_dregions (k : Nat) (w : Wave) : (s.setWave k w).dregions = s.dregions := rfl
@[simp] theorem State.setWave_cores (k : Nat) (w : Wave) : (s.setWave k w).cores = s.cores := rfl
@[simp] theorem State.setWave_dies (k : Nat) (w : Wave) : (s.setWave k w).dies = s.dies := rfl
@[simp] theorem State.setWave_xfers (k : Nat) (w : Wave) : (s.setWave k w).xfers = s.xfers := rfl
@[simp] theorem State.setWave_fabops (k : Nat) (w : Wave) : (s.setWave k w).fabops = s.fabops := rfl
@[simp] theorem State.setWave_buckets (k : Nat) (w : Wave) : (s.setWave k w).buckets = s.buckets := rfl
@[simp] theorem State.setWave_cuts (k : Nat) (w : Wave) : (s.setWave k w).cuts = s.cuts := rfl
@[simp] theorem State.setWave_parts (k : Nat) (w : Wave) : (s.setWave k w).parts = s.parts := rfl
@[simp] theorem State.setWave_funcs (k : Nat) (w : Wave) : (s.setWave k w).funcs = s.funcs := rfl
@[simp] theorem State.setWave_plats (k : Nat) (w : Wave) : (s.setWave k w).plats = s.plats := rfl
@[simp] theorem State.setWave_tokens (k : Nat) (w : Wave) : (s.setWave k w).tokens = s.tokens := rfl
@[simp] theorem State.setWave_mail (k : Nat) (w : Wave) : (s.setWave k w).mail = s.mail := rfl
@[simp] theorem State.setWave_platWait (k : Nat) (w : Wave) : (s.setWave k w).platWait = s.platWait := rfl
@[simp] theorem State.setWave_rooms (k : Nat) (w : Wave) : (s.setWave k w).rooms = s.rooms := rfl
@[simp] theorem State.setWave_fabric (k : Nat) (w : Wave) : (s.setWave k w).fabric = s.fabric := rfl
@[simp] theorem State.setWave_control (k : Nat) (w : Wave) : (s.setWave k w).control = s.control := rfl
@[simp] theorem State.setWave_nextId (k : Nat) (w : Wave) : (s.setWave k w).nextId = s.nextId := rfl

/-! ## State.modWave -/

@[simp] theorem State.modWave_time (k : Nat) (f : Wave → Wave) : (s.modWave k f).time = s.time := rfl
@[simp] theorem State.modWave_free (k : Nat) (f : Wave → Wave) : (s.modWave k f).free = s.free := rfl
@[simp] theorem State.modWave_cur (k : Nat) (f : Wave → Wave) : (s.modWave k f).cur = s.cur := rfl
@[simp] theorem State.modWave_inputs (k : Nat) (f : Wave → Wave) : (s.modWave k f).inputs = s.inputs := rfl
@[simp] theorem State.modWave_outbox (k : Nat) (f : Wave → Wave) : (s.modWave k f).outbox = s.outbox := rfl
@[simp] theorem State.modWave_hbm (k : Nat) (f : Wave → Wave) : (s.modWave k f).hbm = s.hbm := rfl
@[simp] theorem State.modWave_hpoison (k : Nat) (f : Wave → Wave) : (s.modWave k f).hpoison = s.hpoison := rfl
@[simp] theorem State.modWave_host (k : Nat) (f : Wave → Wave) : (s.modWave k f).host = s.host := rfl
@[simp] theorem State.modWave_privMem (k : Nat) (f : Wave → Wave) : (s.modWave k f).privMem = s.privMem := rfl
@[simp] theorem State.modWave_leases (k : Nat) (f : Wave → Wave) : (s.modWave k f).leases = s.leases := rfl
@[simp] theorem State.modWave_landed (k : Nat) (f : Wave → Wave) : (s.modWave k f).landed = s.landed := rfl
@[simp] theorem State.modWave_walks (k : Nat) (f : Wave → Wave) : (s.modWave k f).walks = s.walks := rfl
@[simp] theorem State.modWave_misses (k : Nat) (f : Wave → Wave) : (s.modWave k f).misses = s.misses := rfl
@[simp] theorem State.modWave_answers (k : Nat) (f : Wave → Wave) : (s.modWave k f).answers = s.answers := rfl
@[simp] theorem State.modWave_asker (k : Nat) (f : Wave → Wave) : (s.modWave k f).asker = s.asker := rfl
@[simp] theorem State.modWave_fills (k : Nat) (f : Wave → Wave) : (s.modWave k f).fills = s.fills := rfl
@[simp] theorem State.modWave_icache (k : Nat) (f : Wave → Wave) : (s.modWave k f).icache = s.icache := rfl
@[simp] theorem State.modWave_waves (k : Nat) (f : Wave → Wave) : (s.modWave k f).waves = s.waves.update k f := rfl
@[simp] theorem State.modWave_blocks (k : Nat) (f : Wave → Wave) : (s.modWave k f).blocks = s.blocks := rfl
@[simp] theorem State.modWave_grids (k : Nat) (f : Wave → Wave) : (s.modWave k f).grids = s.grids := rfl
@[simp] theorem State.modWave_regions (k : Nat) (f : Wave → Wave) : (s.modWave k f).regions = s.regions := rfl
@[simp] theorem State.modWave_dregions (k : Nat) (f : Wave → Wave) : (s.modWave k f).dregions = s.dregions := rfl
@[simp] theorem State.modWave_cores (k : Nat) (f : Wave → Wave) : (s.modWave k f).cores = s.cores := rfl
@[simp] theorem State.modWave_dies (k : Nat) (f : Wave → Wave) : (s.modWave k f).dies = s.dies := rfl
@[simp] theorem State.modWave_xfers (k : Nat) (f : Wave → Wave) : (s.modWave k f).xfers = s.xfers := rfl
@[simp] theorem State.modWave_fabops (k : Nat) (f : Wave → Wave) : (s.modWave k f).fabops = s.fabops := rfl
@[simp] theorem State.modWave_buckets (k : Nat) (f : Wave → Wave) : (s.modWave k f).buckets = s.buckets := rfl
@[simp] theorem State.modWave_cuts (k : Nat) (f : Wave → Wave) : (s.modWave k f).cuts = s.cuts := rfl
@[simp] theorem State.modWave_parts (k : Nat) (f : Wave → Wave) : (s.modWave k f).parts = s.parts := rfl
@[simp] theorem State.modWave_funcs (k : Nat) (f : Wave → Wave) : (s.modWave k f).funcs = s.funcs := rfl
@[simp] theorem State.modWave_plats (k : Nat) (f : Wave → Wave) : (s.modWave k f).plats = s.plats := rfl
@[simp] theorem State.modWave_tokens (k : Nat) (f : Wave → Wave) : (s.modWave k f).tokens = s.tokens := rfl
@[simp] theorem State.modWave_mail (k : Nat) (f : Wave → Wave) : (s.modWave k f).mail = s.mail := rfl
@[simp] theorem State.modWave_platWait (k : Nat) (f : Wave → Wave) : (s.modWave k f).platWait = s.platWait := rfl
@[simp] theorem State.modWave_rooms (k : Nat) (f : Wave → Wave) : (s.modWave k f).rooms = s.rooms := rfl
@[simp] theorem State.modWave_fabric (k : Nat) (f : Wave → Wave) : (s.modWave k f).fabric = s.fabric := rfl
@[simp] theorem State.modWave_control (k : Nat) (f : Wave → Wave) : (s.modWave k f).control = s.control := rfl
@[simp] theorem State.modWave_nextId (k : Nat) (f : Wave → Wave) : (s.modWave k f).nextId = s.nextId := rfl

/-! ## State.setBlock -/

@[simp] theorem State.setBlock_time (k : Nat) (b : Block) : (s.setBlock k b).time = s.time := rfl
@[simp] theorem State.setBlock_free (k : Nat) (b : Block) : (s.setBlock k b).free = s.free := rfl
@[simp] theorem State.setBlock_cur (k : Nat) (b : Block) : (s.setBlock k b).cur = s.cur := rfl
@[simp] theorem State.setBlock_inputs (k : Nat) (b : Block) : (s.setBlock k b).inputs = s.inputs := rfl
@[simp] theorem State.setBlock_outbox (k : Nat) (b : Block) : (s.setBlock k b).outbox = s.outbox := rfl
@[simp] theorem State.setBlock_hbm (k : Nat) (b : Block) : (s.setBlock k b).hbm = s.hbm := rfl
@[simp] theorem State.setBlock_hpoison (k : Nat) (b : Block) : (s.setBlock k b).hpoison = s.hpoison := rfl
@[simp] theorem State.setBlock_host (k : Nat) (b : Block) : (s.setBlock k b).host = s.host := rfl
@[simp] theorem State.setBlock_privMem (k : Nat) (b : Block) : (s.setBlock k b).privMem = s.privMem := rfl
@[simp] theorem State.setBlock_leases (k : Nat) (b : Block) : (s.setBlock k b).leases = s.leases := rfl
@[simp] theorem State.setBlock_landed (k : Nat) (b : Block) : (s.setBlock k b).landed = s.landed := rfl
@[simp] theorem State.setBlock_walks (k : Nat) (b : Block) : (s.setBlock k b).walks = s.walks := rfl
@[simp] theorem State.setBlock_misses (k : Nat) (b : Block) : (s.setBlock k b).misses = s.misses := rfl
@[simp] theorem State.setBlock_answers (k : Nat) (b : Block) : (s.setBlock k b).answers = s.answers := rfl
@[simp] theorem State.setBlock_asker (k : Nat) (b : Block) : (s.setBlock k b).asker = s.asker := rfl
@[simp] theorem State.setBlock_fills (k : Nat) (b : Block) : (s.setBlock k b).fills = s.fills := rfl
@[simp] theorem State.setBlock_icache (k : Nat) (b : Block) : (s.setBlock k b).icache = s.icache := rfl
@[simp] theorem State.setBlock_waves (k : Nat) (b : Block) : (s.setBlock k b).waves = s.waves := rfl
@[simp] theorem State.setBlock_blocks (k : Nat) (b : Block) : (s.setBlock k b).blocks = s.blocks.set k b := rfl
@[simp] theorem State.setBlock_grids (k : Nat) (b : Block) : (s.setBlock k b).grids = s.grids := rfl
@[simp] theorem State.setBlock_regions (k : Nat) (b : Block) : (s.setBlock k b).regions = s.regions := rfl
@[simp] theorem State.setBlock_dregions (k : Nat) (b : Block) : (s.setBlock k b).dregions = s.dregions := rfl
@[simp] theorem State.setBlock_cores (k : Nat) (b : Block) : (s.setBlock k b).cores = s.cores := rfl
@[simp] theorem State.setBlock_dies (k : Nat) (b : Block) : (s.setBlock k b).dies = s.dies := rfl
@[simp] theorem State.setBlock_xfers (k : Nat) (b : Block) : (s.setBlock k b).xfers = s.xfers := rfl
@[simp] theorem State.setBlock_fabops (k : Nat) (b : Block) : (s.setBlock k b).fabops = s.fabops := rfl
@[simp] theorem State.setBlock_buckets (k : Nat) (b : Block) : (s.setBlock k b).buckets = s.buckets := rfl
@[simp] theorem State.setBlock_cuts (k : Nat) (b : Block) : (s.setBlock k b).cuts = s.cuts := rfl
@[simp] theorem State.setBlock_parts (k : Nat) (b : Block) : (s.setBlock k b).parts = s.parts := rfl
@[simp] theorem State.setBlock_funcs (k : Nat) (b : Block) : (s.setBlock k b).funcs = s.funcs := rfl
@[simp] theorem State.setBlock_plats (k : Nat) (b : Block) : (s.setBlock k b).plats = s.plats := rfl
@[simp] theorem State.setBlock_tokens (k : Nat) (b : Block) : (s.setBlock k b).tokens = s.tokens := rfl
@[simp] theorem State.setBlock_mail (k : Nat) (b : Block) : (s.setBlock k b).mail = s.mail := rfl
@[simp] theorem State.setBlock_platWait (k : Nat) (b : Block) : (s.setBlock k b).platWait = s.platWait := rfl
@[simp] theorem State.setBlock_rooms (k : Nat) (b : Block) : (s.setBlock k b).rooms = s.rooms := rfl
@[simp] theorem State.setBlock_fabric (k : Nat) (b : Block) : (s.setBlock k b).fabric = s.fabric := rfl
@[simp] theorem State.setBlock_control (k : Nat) (b : Block) : (s.setBlock k b).control = s.control := rfl
@[simp] theorem State.setBlock_nextId (k : Nat) (b : Block) : (s.setBlock k b).nextId = s.nextId := rfl

/-! ## State.modBlock -/

@[simp] theorem State.modBlock_time (k : Nat) (f : Block → Block) : (s.modBlock k f).time = s.time := rfl
@[simp] theorem State.modBlock_free (k : Nat) (f : Block → Block) : (s.modBlock k f).free = s.free := rfl
@[simp] theorem State.modBlock_cur (k : Nat) (f : Block → Block) : (s.modBlock k f).cur = s.cur := rfl
@[simp] theorem State.modBlock_inputs (k : Nat) (f : Block → Block) : (s.modBlock k f).inputs = s.inputs := rfl
@[simp] theorem State.modBlock_outbox (k : Nat) (f : Block → Block) : (s.modBlock k f).outbox = s.outbox := rfl
@[simp] theorem State.modBlock_hbm (k : Nat) (f : Block → Block) : (s.modBlock k f).hbm = s.hbm := rfl
@[simp] theorem State.modBlock_hpoison (k : Nat) (f : Block → Block) : (s.modBlock k f).hpoison = s.hpoison := rfl
@[simp] theorem State.modBlock_host (k : Nat) (f : Block → Block) : (s.modBlock k f).host = s.host := rfl
@[simp] theorem State.modBlock_privMem (k : Nat) (f : Block → Block) : (s.modBlock k f).privMem = s.privMem := rfl
@[simp] theorem State.modBlock_leases (k : Nat) (f : Block → Block) : (s.modBlock k f).leases = s.leases := rfl
@[simp] theorem State.modBlock_landed (k : Nat) (f : Block → Block) : (s.modBlock k f).landed = s.landed := rfl
@[simp] theorem State.modBlock_walks (k : Nat) (f : Block → Block) : (s.modBlock k f).walks = s.walks := rfl
@[simp] theorem State.modBlock_misses (k : Nat) (f : Block → Block) : (s.modBlock k f).misses = s.misses := rfl
@[simp] theorem State.modBlock_answers (k : Nat) (f : Block → Block) : (s.modBlock k f).answers = s.answers := rfl
@[simp] theorem State.modBlock_asker (k : Nat) (f : Block → Block) : (s.modBlock k f).asker = s.asker := rfl
@[simp] theorem State.modBlock_fills (k : Nat) (f : Block → Block) : (s.modBlock k f).fills = s.fills := rfl
@[simp] theorem State.modBlock_icache (k : Nat) (f : Block → Block) : (s.modBlock k f).icache = s.icache := rfl
@[simp] theorem State.modBlock_waves (k : Nat) (f : Block → Block) : (s.modBlock k f).waves = s.waves := rfl
@[simp] theorem State.modBlock_blocks (k : Nat) (f : Block → Block) : (s.modBlock k f).blocks = s.blocks.update k f := rfl
@[simp] theorem State.modBlock_grids (k : Nat) (f : Block → Block) : (s.modBlock k f).grids = s.grids := rfl
@[simp] theorem State.modBlock_regions (k : Nat) (f : Block → Block) : (s.modBlock k f).regions = s.regions := rfl
@[simp] theorem State.modBlock_dregions (k : Nat) (f : Block → Block) : (s.modBlock k f).dregions = s.dregions := rfl
@[simp] theorem State.modBlock_cores (k : Nat) (f : Block → Block) : (s.modBlock k f).cores = s.cores := rfl
@[simp] theorem State.modBlock_dies (k : Nat) (f : Block → Block) : (s.modBlock k f).dies = s.dies := rfl
@[simp] theorem State.modBlock_xfers (k : Nat) (f : Block → Block) : (s.modBlock k f).xfers = s.xfers := rfl
@[simp] theorem State.modBlock_fabops (k : Nat) (f : Block → Block) : (s.modBlock k f).fabops = s.fabops := rfl
@[simp] theorem State.modBlock_buckets (k : Nat) (f : Block → Block) : (s.modBlock k f).buckets = s.buckets := rfl
@[simp] theorem State.modBlock_cuts (k : Nat) (f : Block → Block) : (s.modBlock k f).cuts = s.cuts := rfl
@[simp] theorem State.modBlock_parts (k : Nat) (f : Block → Block) : (s.modBlock k f).parts = s.parts := rfl
@[simp] theorem State.modBlock_funcs (k : Nat) (f : Block → Block) : (s.modBlock k f).funcs = s.funcs := rfl
@[simp] theorem State.modBlock_plats (k : Nat) (f : Block → Block) : (s.modBlock k f).plats = s.plats := rfl
@[simp] theorem State.modBlock_tokens (k : Nat) (f : Block → Block) : (s.modBlock k f).tokens = s.tokens := rfl
@[simp] theorem State.modBlock_mail (k : Nat) (f : Block → Block) : (s.modBlock k f).mail = s.mail := rfl
@[simp] theorem State.modBlock_platWait (k : Nat) (f : Block → Block) : (s.modBlock k f).platWait = s.platWait := rfl
@[simp] theorem State.modBlock_rooms (k : Nat) (f : Block → Block) : (s.modBlock k f).rooms = s.rooms := rfl
@[simp] theorem State.modBlock_fabric (k : Nat) (f : Block → Block) : (s.modBlock k f).fabric = s.fabric := rfl
@[simp] theorem State.modBlock_control (k : Nat) (f : Block → Block) : (s.modBlock k f).control = s.control := rfl
@[simp] theorem State.modBlock_nextId (k : Nat) (f : Block → Block) : (s.modBlock k f).nextId = s.nextId := rfl

/-! ## State.modGrid -/

@[simp] theorem State.modGrid_time (k : Nat) (f : Grid → Grid) : (s.modGrid k f).time = s.time := rfl
@[simp] theorem State.modGrid_free (k : Nat) (f : Grid → Grid) : (s.modGrid k f).free = s.free := rfl
@[simp] theorem State.modGrid_cur (k : Nat) (f : Grid → Grid) : (s.modGrid k f).cur = s.cur := rfl
@[simp] theorem State.modGrid_inputs (k : Nat) (f : Grid → Grid) : (s.modGrid k f).inputs = s.inputs := rfl
@[simp] theorem State.modGrid_outbox (k : Nat) (f : Grid → Grid) : (s.modGrid k f).outbox = s.outbox := rfl
@[simp] theorem State.modGrid_hbm (k : Nat) (f : Grid → Grid) : (s.modGrid k f).hbm = s.hbm := rfl
@[simp] theorem State.modGrid_hpoison (k : Nat) (f : Grid → Grid) : (s.modGrid k f).hpoison = s.hpoison := rfl
@[simp] theorem State.modGrid_host (k : Nat) (f : Grid → Grid) : (s.modGrid k f).host = s.host := rfl
@[simp] theorem State.modGrid_privMem (k : Nat) (f : Grid → Grid) : (s.modGrid k f).privMem = s.privMem := rfl
@[simp] theorem State.modGrid_leases (k : Nat) (f : Grid → Grid) : (s.modGrid k f).leases = s.leases := rfl
@[simp] theorem State.modGrid_landed (k : Nat) (f : Grid → Grid) : (s.modGrid k f).landed = s.landed := rfl
@[simp] theorem State.modGrid_walks (k : Nat) (f : Grid → Grid) : (s.modGrid k f).walks = s.walks := rfl
@[simp] theorem State.modGrid_misses (k : Nat) (f : Grid → Grid) : (s.modGrid k f).misses = s.misses := rfl
@[simp] theorem State.modGrid_answers (k : Nat) (f : Grid → Grid) : (s.modGrid k f).answers = s.answers := rfl
@[simp] theorem State.modGrid_asker (k : Nat) (f : Grid → Grid) : (s.modGrid k f).asker = s.asker := rfl
@[simp] theorem State.modGrid_fills (k : Nat) (f : Grid → Grid) : (s.modGrid k f).fills = s.fills := rfl
@[simp] theorem State.modGrid_icache (k : Nat) (f : Grid → Grid) : (s.modGrid k f).icache = s.icache := rfl
@[simp] theorem State.modGrid_waves (k : Nat) (f : Grid → Grid) : (s.modGrid k f).waves = s.waves := rfl
@[simp] theorem State.modGrid_blocks (k : Nat) (f : Grid → Grid) : (s.modGrid k f).blocks = s.blocks := rfl
@[simp] theorem State.modGrid_grids (k : Nat) (f : Grid → Grid) : (s.modGrid k f).grids = s.grids.update k f := rfl
@[simp] theorem State.modGrid_regions (k : Nat) (f : Grid → Grid) : (s.modGrid k f).regions = s.regions := rfl
@[simp] theorem State.modGrid_dregions (k : Nat) (f : Grid → Grid) : (s.modGrid k f).dregions = s.dregions := rfl
@[simp] theorem State.modGrid_cores (k : Nat) (f : Grid → Grid) : (s.modGrid k f).cores = s.cores := rfl
@[simp] theorem State.modGrid_dies (k : Nat) (f : Grid → Grid) : (s.modGrid k f).dies = s.dies := rfl
@[simp] theorem State.modGrid_xfers (k : Nat) (f : Grid → Grid) : (s.modGrid k f).xfers = s.xfers := rfl
@[simp] theorem State.modGrid_fabops (k : Nat) (f : Grid → Grid) : (s.modGrid k f).fabops = s.fabops := rfl
@[simp] theorem State.modGrid_buckets (k : Nat) (f : Grid → Grid) : (s.modGrid k f).buckets = s.buckets := rfl
@[simp] theorem State.modGrid_cuts (k : Nat) (f : Grid → Grid) : (s.modGrid k f).cuts = s.cuts := rfl
@[simp] theorem State.modGrid_parts (k : Nat) (f : Grid → Grid) : (s.modGrid k f).parts = s.parts := rfl
@[simp] theorem State.modGrid_funcs (k : Nat) (f : Grid → Grid) : (s.modGrid k f).funcs = s.funcs := rfl
@[simp] theorem State.modGrid_plats (k : Nat) (f : Grid → Grid) : (s.modGrid k f).plats = s.plats := rfl
@[simp] theorem State.modGrid_tokens (k : Nat) (f : Grid → Grid) : (s.modGrid k f).tokens = s.tokens := rfl
@[simp] theorem State.modGrid_mail (k : Nat) (f : Grid → Grid) : (s.modGrid k f).mail = s.mail := rfl
@[simp] theorem State.modGrid_platWait (k : Nat) (f : Grid → Grid) : (s.modGrid k f).platWait = s.platWait := rfl
@[simp] theorem State.modGrid_rooms (k : Nat) (f : Grid → Grid) : (s.modGrid k f).rooms = s.rooms := rfl
@[simp] theorem State.modGrid_fabric (k : Nat) (f : Grid → Grid) : (s.modGrid k f).fabric = s.fabric := rfl
@[simp] theorem State.modGrid_control (k : Nat) (f : Grid → Grid) : (s.modGrid k f).control = s.control := rfl
@[simp] theorem State.modGrid_nextId (k : Nat) (f : Grid → Grid) : (s.modGrid k f).nextId = s.nextId := rfl

/-! ## State.modPart -/

@[simp] theorem State.modPart_time (k : Nat) (f : Partition → Partition) : (s.modPart k f).time = s.time := rfl
@[simp] theorem State.modPart_free (k : Nat) (f : Partition → Partition) : (s.modPart k f).free = s.free := rfl
@[simp] theorem State.modPart_cur (k : Nat) (f : Partition → Partition) : (s.modPart k f).cur = s.cur := rfl
@[simp] theorem State.modPart_inputs (k : Nat) (f : Partition → Partition) : (s.modPart k f).inputs = s.inputs := rfl
@[simp] theorem State.modPart_outbox (k : Nat) (f : Partition → Partition) : (s.modPart k f).outbox = s.outbox := rfl
@[simp] theorem State.modPart_hbm (k : Nat) (f : Partition → Partition) : (s.modPart k f).hbm = s.hbm := rfl
@[simp] theorem State.modPart_hpoison (k : Nat) (f : Partition → Partition) : (s.modPart k f).hpoison = s.hpoison := rfl
@[simp] theorem State.modPart_host (k : Nat) (f : Partition → Partition) : (s.modPart k f).host = s.host := rfl
@[simp] theorem State.modPart_privMem (k : Nat) (f : Partition → Partition) : (s.modPart k f).privMem = s.privMem := rfl
@[simp] theorem State.modPart_leases (k : Nat) (f : Partition → Partition) : (s.modPart k f).leases = s.leases := rfl
@[simp] theorem State.modPart_landed (k : Nat) (f : Partition → Partition) : (s.modPart k f).landed = s.landed := rfl
@[simp] theorem State.modPart_walks (k : Nat) (f : Partition → Partition) : (s.modPart k f).walks = s.walks := rfl
@[simp] theorem State.modPart_misses (k : Nat) (f : Partition → Partition) : (s.modPart k f).misses = s.misses := rfl
@[simp] theorem State.modPart_answers (k : Nat) (f : Partition → Partition) : (s.modPart k f).answers = s.answers := rfl
@[simp] theorem State.modPart_asker (k : Nat) (f : Partition → Partition) : (s.modPart k f).asker = s.asker := rfl
@[simp] theorem State.modPart_fills (k : Nat) (f : Partition → Partition) : (s.modPart k f).fills = s.fills := rfl
@[simp] theorem State.modPart_icache (k : Nat) (f : Partition → Partition) : (s.modPart k f).icache = s.icache := rfl
@[simp] theorem State.modPart_waves (k : Nat) (f : Partition → Partition) : (s.modPart k f).waves = s.waves := rfl
@[simp] theorem State.modPart_blocks (k : Nat) (f : Partition → Partition) : (s.modPart k f).blocks = s.blocks := rfl
@[simp] theorem State.modPart_grids (k : Nat) (f : Partition → Partition) : (s.modPart k f).grids = s.grids := rfl
@[simp] theorem State.modPart_regions (k : Nat) (f : Partition → Partition) : (s.modPart k f).regions = s.regions := rfl
@[simp] theorem State.modPart_dregions (k : Nat) (f : Partition → Partition) : (s.modPart k f).dregions = s.dregions := rfl
@[simp] theorem State.modPart_cores (k : Nat) (f : Partition → Partition) : (s.modPart k f).cores = s.cores := rfl
@[simp] theorem State.modPart_dies (k : Nat) (f : Partition → Partition) : (s.modPart k f).dies = s.dies := rfl
@[simp] theorem State.modPart_xfers (k : Nat) (f : Partition → Partition) : (s.modPart k f).xfers = s.xfers := rfl
@[simp] theorem State.modPart_fabops (k : Nat) (f : Partition → Partition) : (s.modPart k f).fabops = s.fabops := rfl
@[simp] theorem State.modPart_buckets (k : Nat) (f : Partition → Partition) : (s.modPart k f).buckets = s.buckets := rfl
@[simp] theorem State.modPart_cuts (k : Nat) (f : Partition → Partition) : (s.modPart k f).cuts = s.cuts := rfl
@[simp] theorem State.modPart_parts (k : Nat) (f : Partition → Partition) : (s.modPart k f).parts = s.parts.update k f := rfl
@[simp] theorem State.modPart_funcs (k : Nat) (f : Partition → Partition) : (s.modPart k f).funcs = s.funcs := rfl
@[simp] theorem State.modPart_plats (k : Nat) (f : Partition → Partition) : (s.modPart k f).plats = s.plats := rfl
@[simp] theorem State.modPart_tokens (k : Nat) (f : Partition → Partition) : (s.modPart k f).tokens = s.tokens := rfl
@[simp] theorem State.modPart_mail (k : Nat) (f : Partition → Partition) : (s.modPart k f).mail = s.mail := rfl
@[simp] theorem State.modPart_platWait (k : Nat) (f : Partition → Partition) : (s.modPart k f).platWait = s.platWait := rfl
@[simp] theorem State.modPart_rooms (k : Nat) (f : Partition → Partition) : (s.modPart k f).rooms = s.rooms := rfl
@[simp] theorem State.modPart_fabric (k : Nat) (f : Partition → Partition) : (s.modPart k f).fabric = s.fabric := rfl
@[simp] theorem State.modPart_control (k : Nat) (f : Partition → Partition) : (s.modPart k f).control = s.control := rfl
@[simp] theorem State.modPart_nextId (k : Nat) (f : Partition → Partition) : (s.modPart k f).nextId = s.nextId := rfl

/-! ## State.modCore -/

@[simp] theorem State.modCore_time (k : Nat) (f : CoreState → CoreState) : (s.modCore k f).time = s.time := rfl
@[simp] theorem State.modCore_free (k : Nat) (f : CoreState → CoreState) : (s.modCore k f).free = s.free := rfl
@[simp] theorem State.modCore_cur (k : Nat) (f : CoreState → CoreState) : (s.modCore k f).cur = s.cur := rfl
@[simp] theorem State.modCore_inputs (k : Nat) (f : CoreState → CoreState) : (s.modCore k f).inputs = s.inputs := rfl
@[simp] theorem State.modCore_outbox (k : Nat) (f : CoreState → CoreState) : (s.modCore k f).outbox = s.outbox := rfl
@[simp] theorem State.modCore_hbm (k : Nat) (f : CoreState → CoreState) : (s.modCore k f).hbm = s.hbm := rfl
@[simp] theorem State.modCore_hpoison (k : Nat) (f : CoreState → CoreState) : (s.modCore k f).hpoison = s.hpoison := rfl
@[simp] theorem State.modCore_host (k : Nat) (f : CoreState → CoreState) : (s.modCore k f).host = s.host := rfl
@[simp] theorem State.modCore_privMem (k : Nat) (f : CoreState → CoreState) : (s.modCore k f).privMem = s.privMem := rfl
@[simp] theorem State.modCore_leases (k : Nat) (f : CoreState → CoreState) : (s.modCore k f).leases = s.leases := rfl
@[simp] theorem State.modCore_landed (k : Nat) (f : CoreState → CoreState) : (s.modCore k f).landed = s.landed := rfl
@[simp] theorem State.modCore_walks (k : Nat) (f : CoreState → CoreState) : (s.modCore k f).walks = s.walks := rfl
@[simp] theorem State.modCore_misses (k : Nat) (f : CoreState → CoreState) : (s.modCore k f).misses = s.misses := rfl
@[simp] theorem State.modCore_answers (k : Nat) (f : CoreState → CoreState) : (s.modCore k f).answers = s.answers := rfl
@[simp] theorem State.modCore_asker (k : Nat) (f : CoreState → CoreState) : (s.modCore k f).asker = s.asker := rfl
@[simp] theorem State.modCore_fills (k : Nat) (f : CoreState → CoreState) : (s.modCore k f).fills = s.fills := rfl
@[simp] theorem State.modCore_icache (k : Nat) (f : CoreState → CoreState) : (s.modCore k f).icache = s.icache := rfl
@[simp] theorem State.modCore_waves (k : Nat) (f : CoreState → CoreState) : (s.modCore k f).waves = s.waves := rfl
@[simp] theorem State.modCore_blocks (k : Nat) (f : CoreState → CoreState) : (s.modCore k f).blocks = s.blocks := rfl
@[simp] theorem State.modCore_grids (k : Nat) (f : CoreState → CoreState) : (s.modCore k f).grids = s.grids := rfl
@[simp] theorem State.modCore_regions (k : Nat) (f : CoreState → CoreState) : (s.modCore k f).regions = s.regions := rfl
@[simp] theorem State.modCore_dregions (k : Nat) (f : CoreState → CoreState) : (s.modCore k f).dregions = s.dregions := rfl
@[simp] theorem State.modCore_dies (k : Nat) (f : CoreState → CoreState) : (s.modCore k f).dies = s.dies := rfl
@[simp] theorem State.modCore_xfers (k : Nat) (f : CoreState → CoreState) : (s.modCore k f).xfers = s.xfers := rfl
@[simp] theorem State.modCore_fabops (k : Nat) (f : CoreState → CoreState) : (s.modCore k f).fabops = s.fabops := rfl
@[simp] theorem State.modCore_buckets (k : Nat) (f : CoreState → CoreState) : (s.modCore k f).buckets = s.buckets := rfl
@[simp] theorem State.modCore_cuts (k : Nat) (f : CoreState → CoreState) : (s.modCore k f).cuts = s.cuts := rfl
@[simp] theorem State.modCore_parts (k : Nat) (f : CoreState → CoreState) : (s.modCore k f).parts = s.parts := rfl
@[simp] theorem State.modCore_funcs (k : Nat) (f : CoreState → CoreState) : (s.modCore k f).funcs = s.funcs := rfl
@[simp] theorem State.modCore_plats (k : Nat) (f : CoreState → CoreState) : (s.modCore k f).plats = s.plats := rfl
@[simp] theorem State.modCore_tokens (k : Nat) (f : CoreState → CoreState) : (s.modCore k f).tokens = s.tokens := rfl
@[simp] theorem State.modCore_mail (k : Nat) (f : CoreState → CoreState) : (s.modCore k f).mail = s.mail := rfl
@[simp] theorem State.modCore_platWait (k : Nat) (f : CoreState → CoreState) : (s.modCore k f).platWait = s.platWait := rfl
@[simp] theorem State.modCore_rooms (k : Nat) (f : CoreState → CoreState) : (s.modCore k f).rooms = s.rooms := rfl
@[simp] theorem State.modCore_fabric (k : Nat) (f : CoreState → CoreState) : (s.modCore k f).fabric = s.fabric := rfl
@[simp] theorem State.modCore_control (k : Nat) (f : CoreState → CoreState) : (s.modCore k f).control = s.control := rfl
@[simp] theorem State.modCore_nextId (k : Nat) (f : CoreState → CoreState) : (s.modCore k f).nextId = s.nextId := rfl

/-! ## State.modFunc -/

@[simp] theorem State.modFunc_time (k : Nat) (f : Func → Func) : (s.modFunc k f).time = s.time := rfl
@[simp] theorem State.modFunc_free (k : Nat) (f : Func → Func) : (s.modFunc k f).free = s.free := rfl
@[simp] theorem State.modFunc_cur (k : Nat) (f : Func → Func) : (s.modFunc k f).cur = s.cur := rfl
@[simp] theorem State.modFunc_inputs (k : Nat) (f : Func → Func) : (s.modFunc k f).inputs = s.inputs := rfl
@[simp] theorem State.modFunc_outbox (k : Nat) (f : Func → Func) : (s.modFunc k f).outbox = s.outbox := rfl
@[simp] theorem State.modFunc_hbm (k : Nat) (f : Func → Func) : (s.modFunc k f).hbm = s.hbm := rfl
@[simp] theorem State.modFunc_hpoison (k : Nat) (f : Func → Func) : (s.modFunc k f).hpoison = s.hpoison := rfl
@[simp] theorem State.modFunc_host (k : Nat) (f : Func → Func) : (s.modFunc k f).host = s.host := rfl
@[simp] theorem State.modFunc_privMem (k : Nat) (f : Func → Func) : (s.modFunc k f).privMem = s.privMem := rfl
@[simp] theorem State.modFunc_leases (k : Nat) (f : Func → Func) : (s.modFunc k f).leases = s.leases := rfl
@[simp] theorem State.modFunc_landed (k : Nat) (f : Func → Func) : (s.modFunc k f).landed = s.landed := rfl
@[simp] theorem State.modFunc_walks (k : Nat) (f : Func → Func) : (s.modFunc k f).walks = s.walks := rfl
@[simp] theorem State.modFunc_misses (k : Nat) (f : Func → Func) : (s.modFunc k f).misses = s.misses := rfl
@[simp] theorem State.modFunc_answers (k : Nat) (f : Func → Func) : (s.modFunc k f).answers = s.answers := rfl
@[simp] theorem State.modFunc_asker (k : Nat) (f : Func → Func) : (s.modFunc k f).asker = s.asker := rfl
@[simp] theorem State.modFunc_fills (k : Nat) (f : Func → Func) : (s.modFunc k f).fills = s.fills := rfl
@[simp] theorem State.modFunc_icache (k : Nat) (f : Func → Func) : (s.modFunc k f).icache = s.icache := rfl
@[simp] theorem State.modFunc_waves (k : Nat) (f : Func → Func) : (s.modFunc k f).waves = s.waves := rfl
@[simp] theorem State.modFunc_blocks (k : Nat) (f : Func → Func) : (s.modFunc k f).blocks = s.blocks := rfl
@[simp] theorem State.modFunc_grids (k : Nat) (f : Func → Func) : (s.modFunc k f).grids = s.grids := rfl
@[simp] theorem State.modFunc_regions (k : Nat) (f : Func → Func) : (s.modFunc k f).regions = s.regions := rfl
@[simp] theorem State.modFunc_dregions (k : Nat) (f : Func → Func) : (s.modFunc k f).dregions = s.dregions := rfl
@[simp] theorem State.modFunc_cores (k : Nat) (f : Func → Func) : (s.modFunc k f).cores = s.cores := rfl
@[simp] theorem State.modFunc_dies (k : Nat) (f : Func → Func) : (s.modFunc k f).dies = s.dies := rfl
@[simp] theorem State.modFunc_xfers (k : Nat) (f : Func → Func) : (s.modFunc k f).xfers = s.xfers := rfl
@[simp] theorem State.modFunc_fabops (k : Nat) (f : Func → Func) : (s.modFunc k f).fabops = s.fabops := rfl
@[simp] theorem State.modFunc_buckets (k : Nat) (f : Func → Func) : (s.modFunc k f).buckets = s.buckets := rfl
@[simp] theorem State.modFunc_cuts (k : Nat) (f : Func → Func) : (s.modFunc k f).cuts = s.cuts := rfl
@[simp] theorem State.modFunc_parts (k : Nat) (f : Func → Func) : (s.modFunc k f).parts = s.parts := rfl
@[simp] theorem State.modFunc_plats (k : Nat) (f : Func → Func) : (s.modFunc k f).plats = s.plats := rfl
@[simp] theorem State.modFunc_tokens (k : Nat) (f : Func → Func) : (s.modFunc k f).tokens = s.tokens := rfl
@[simp] theorem State.modFunc_mail (k : Nat) (f : Func → Func) : (s.modFunc k f).mail = s.mail := rfl
@[simp] theorem State.modFunc_platWait (k : Nat) (f : Func → Func) : (s.modFunc k f).platWait = s.platWait := rfl
@[simp] theorem State.modFunc_rooms (k : Nat) (f : Func → Func) : (s.modFunc k f).rooms = s.rooms := rfl
@[simp] theorem State.modFunc_fabric (k : Nat) (f : Func → Func) : (s.modFunc k f).fabric = s.fabric := rfl
@[simp] theorem State.modFunc_control (k : Nat) (f : Func → Func) : (s.modFunc k f).control = s.control := rfl
@[simp] theorem State.modFunc_nextId (k : Nat) (f : Func → Func) : (s.modFunc k f).nextId = s.nextId := rfl

/-! ## State.modDie -/

@[simp] theorem State.modDie_time (k : Nat) (f : Die → Die) : (s.modDie k f).time = s.time := rfl
@[simp] theorem State.modDie_free (k : Nat) (f : Die → Die) : (s.modDie k f).free = s.free := rfl
@[simp] theorem State.modDie_cur (k : Nat) (f : Die → Die) : (s.modDie k f).cur = s.cur := rfl
@[simp] theorem State.modDie_inputs (k : Nat) (f : Die → Die) : (s.modDie k f).inputs = s.inputs := rfl
@[simp] theorem State.modDie_outbox (k : Nat) (f : Die → Die) : (s.modDie k f).outbox = s.outbox := rfl
@[simp] theorem State.modDie_hbm (k : Nat) (f : Die → Die) : (s.modDie k f).hbm = s.hbm := rfl
@[simp] theorem State.modDie_hpoison (k : Nat) (f : Die → Die) : (s.modDie k f).hpoison = s.hpoison := rfl
@[simp] theorem State.modDie_host (k : Nat) (f : Die → Die) : (s.modDie k f).host = s.host := rfl
@[simp] theorem State.modDie_privMem (k : Nat) (f : Die → Die) : (s.modDie k f).privMem = s.privMem := rfl
@[simp] theorem State.modDie_leases (k : Nat) (f : Die → Die) : (s.modDie k f).leases = s.leases := rfl
@[simp] theorem State.modDie_landed (k : Nat) (f : Die → Die) : (s.modDie k f).landed = s.landed := rfl
@[simp] theorem State.modDie_walks (k : Nat) (f : Die → Die) : (s.modDie k f).walks = s.walks := rfl
@[simp] theorem State.modDie_misses (k : Nat) (f : Die → Die) : (s.modDie k f).misses = s.misses := rfl
@[simp] theorem State.modDie_answers (k : Nat) (f : Die → Die) : (s.modDie k f).answers = s.answers := rfl
@[simp] theorem State.modDie_asker (k : Nat) (f : Die → Die) : (s.modDie k f).asker = s.asker := rfl
@[simp] theorem State.modDie_fills (k : Nat) (f : Die → Die) : (s.modDie k f).fills = s.fills := rfl
@[simp] theorem State.modDie_icache (k : Nat) (f : Die → Die) : (s.modDie k f).icache = s.icache := rfl
@[simp] theorem State.modDie_waves (k : Nat) (f : Die → Die) : (s.modDie k f).waves = s.waves := rfl
@[simp] theorem State.modDie_blocks (k : Nat) (f : Die → Die) : (s.modDie k f).blocks = s.blocks := rfl
@[simp] theorem State.modDie_grids (k : Nat) (f : Die → Die) : (s.modDie k f).grids = s.grids := rfl
@[simp] theorem State.modDie_regions (k : Nat) (f : Die → Die) : (s.modDie k f).regions = s.regions := rfl
@[simp] theorem State.modDie_dregions (k : Nat) (f : Die → Die) : (s.modDie k f).dregions = s.dregions := rfl
@[simp] theorem State.modDie_cores (k : Nat) (f : Die → Die) : (s.modDie k f).cores = s.cores := rfl
@[simp] theorem State.modDie_xfers (k : Nat) (f : Die → Die) : (s.modDie k f).xfers = s.xfers := rfl
@[simp] theorem State.modDie_fabops (k : Nat) (f : Die → Die) : (s.modDie k f).fabops = s.fabops := rfl
@[simp] theorem State.modDie_buckets (k : Nat) (f : Die → Die) : (s.modDie k f).buckets = s.buckets := rfl
@[simp] theorem State.modDie_cuts (k : Nat) (f : Die → Die) : (s.modDie k f).cuts = s.cuts := rfl
@[simp] theorem State.modDie_parts (k : Nat) (f : Die → Die) : (s.modDie k f).parts = s.parts := rfl
@[simp] theorem State.modDie_funcs (k : Nat) (f : Die → Die) : (s.modDie k f).funcs = s.funcs := rfl
@[simp] theorem State.modDie_plats (k : Nat) (f : Die → Die) : (s.modDie k f).plats = s.plats := rfl
@[simp] theorem State.modDie_tokens (k : Nat) (f : Die → Die) : (s.modDie k f).tokens = s.tokens := rfl
@[simp] theorem State.modDie_mail (k : Nat) (f : Die → Die) : (s.modDie k f).mail = s.mail := rfl
@[simp] theorem State.modDie_platWait (k : Nat) (f : Die → Die) : (s.modDie k f).platWait = s.platWait := rfl
@[simp] theorem State.modDie_rooms (k : Nat) (f : Die → Die) : (s.modDie k f).rooms = s.rooms := rfl
@[simp] theorem State.modDie_fabric (k : Nat) (f : Die → Die) : (s.modDie k f).fabric = s.fabric := rfl
@[simp] theorem State.modDie_control (k : Nat) (f : Die → Die) : (s.modDie k f).control = s.control := rfl
@[simp] theorem State.modDie_nextId (k : Nat) (f : Die → Die) : (s.modDie k f).nextId = s.nextId := rfl

/-! ## State.mapWaves -/

@[simp] theorem State.mapWaves_time (sel : Nat → Wave → Bool) (f : Wave → Wave) : (s.mapWaves sel f).time = s.time := rfl
@[simp] theorem State.mapWaves_free (sel : Nat → Wave → Bool) (f : Wave → Wave) : (s.mapWaves sel f).free = s.free := rfl
@[simp] theorem State.mapWaves_cur (sel : Nat → Wave → Bool) (f : Wave → Wave) : (s.mapWaves sel f).cur = s.cur := rfl
@[simp] theorem State.mapWaves_inputs (sel : Nat → Wave → Bool) (f : Wave → Wave) : (s.mapWaves sel f).inputs = s.inputs := rfl
@[simp] theorem State.mapWaves_outbox (sel : Nat → Wave → Bool) (f : Wave → Wave) : (s.mapWaves sel f).outbox = s.outbox := rfl
@[simp] theorem State.mapWaves_hbm (sel : Nat → Wave → Bool) (f : Wave → Wave) : (s.mapWaves sel f).hbm = s.hbm := rfl
@[simp] theorem State.mapWaves_hpoison (sel : Nat → Wave → Bool) (f : Wave → Wave) : (s.mapWaves sel f).hpoison = s.hpoison := rfl
@[simp] theorem State.mapWaves_host (sel : Nat → Wave → Bool) (f : Wave → Wave) : (s.mapWaves sel f).host = s.host := rfl
@[simp] theorem State.mapWaves_privMem (sel : Nat → Wave → Bool) (f : Wave → Wave) : (s.mapWaves sel f).privMem = s.privMem := rfl
@[simp] theorem State.mapWaves_leases (sel : Nat → Wave → Bool) (f : Wave → Wave) : (s.mapWaves sel f).leases = s.leases := rfl
@[simp] theorem State.mapWaves_landed (sel : Nat → Wave → Bool) (f : Wave → Wave) : (s.mapWaves sel f).landed = s.landed := rfl
@[simp] theorem State.mapWaves_walks (sel : Nat → Wave → Bool) (f : Wave → Wave) : (s.mapWaves sel f).walks = s.walks := rfl
@[simp] theorem State.mapWaves_misses (sel : Nat → Wave → Bool) (f : Wave → Wave) : (s.mapWaves sel f).misses = s.misses := rfl
@[simp] theorem State.mapWaves_answers (sel : Nat → Wave → Bool) (f : Wave → Wave) : (s.mapWaves sel f).answers = s.answers := rfl
@[simp] theorem State.mapWaves_asker (sel : Nat → Wave → Bool) (f : Wave → Wave) : (s.mapWaves sel f).asker = s.asker := rfl
@[simp] theorem State.mapWaves_fills (sel : Nat → Wave → Bool) (f : Wave → Wave) : (s.mapWaves sel f).fills = s.fills := rfl
@[simp] theorem State.mapWaves_icache (sel : Nat → Wave → Bool) (f : Wave → Wave) : (s.mapWaves sel f).icache = s.icache := rfl
@[simp] theorem State.mapWaves_blocks (sel : Nat → Wave → Bool) (f : Wave → Wave) : (s.mapWaves sel f).blocks = s.blocks := rfl
@[simp] theorem State.mapWaves_grids (sel : Nat → Wave → Bool) (f : Wave → Wave) : (s.mapWaves sel f).grids = s.grids := rfl
@[simp] theorem State.mapWaves_regions (sel : Nat → Wave → Bool) (f : Wave → Wave) : (s.mapWaves sel f).regions = s.regions := rfl
@[simp] theorem State.mapWaves_dregions (sel : Nat → Wave → Bool) (f : Wave → Wave) : (s.mapWaves sel f).dregions = s.dregions := rfl
@[simp] theorem State.mapWaves_cores (sel : Nat → Wave → Bool) (f : Wave → Wave) : (s.mapWaves sel f).cores = s.cores := rfl
@[simp] theorem State.mapWaves_dies (sel : Nat → Wave → Bool) (f : Wave → Wave) : (s.mapWaves sel f).dies = s.dies := rfl
@[simp] theorem State.mapWaves_xfers (sel : Nat → Wave → Bool) (f : Wave → Wave) : (s.mapWaves sel f).xfers = s.xfers := rfl
@[simp] theorem State.mapWaves_fabops (sel : Nat → Wave → Bool) (f : Wave → Wave) : (s.mapWaves sel f).fabops = s.fabops := rfl
@[simp] theorem State.mapWaves_buckets (sel : Nat → Wave → Bool) (f : Wave → Wave) : (s.mapWaves sel f).buckets = s.buckets := rfl
@[simp] theorem State.mapWaves_cuts (sel : Nat → Wave → Bool) (f : Wave → Wave) : (s.mapWaves sel f).cuts = s.cuts := rfl
@[simp] theorem State.mapWaves_parts (sel : Nat → Wave → Bool) (f : Wave → Wave) : (s.mapWaves sel f).parts = s.parts := rfl
@[simp] theorem State.mapWaves_funcs (sel : Nat → Wave → Bool) (f : Wave → Wave) : (s.mapWaves sel f).funcs = s.funcs := rfl
@[simp] theorem State.mapWaves_plats (sel : Nat → Wave → Bool) (f : Wave → Wave) : (s.mapWaves sel f).plats = s.plats := rfl
@[simp] theorem State.mapWaves_tokens (sel : Nat → Wave → Bool) (f : Wave → Wave) : (s.mapWaves sel f).tokens = s.tokens := rfl
@[simp] theorem State.mapWaves_mail (sel : Nat → Wave → Bool) (f : Wave → Wave) : (s.mapWaves sel f).mail = s.mail := rfl
@[simp] theorem State.mapWaves_platWait (sel : Nat → Wave → Bool) (f : Wave → Wave) : (s.mapWaves sel f).platWait = s.platWait := rfl
@[simp] theorem State.mapWaves_rooms (sel : Nat → Wave → Bool) (f : Wave → Wave) : (s.mapWaves sel f).rooms = s.rooms := rfl
@[simp] theorem State.mapWaves_fabric (sel : Nat → Wave → Bool) (f : Wave → Wave) : (s.mapWaves sel f).fabric = s.fabric := rfl
@[simp] theorem State.mapWaves_control (sel : Nat → Wave → Bool) (f : Wave → Wave) : (s.mapWaves sel f).control = s.control := rfl
@[simp] theorem State.mapWaves_nextId (sel : Nat → Wave → Bool) (f : Wave → Wave) : (s.mapWaves sel f).nextId = s.nextId := rfl

/-! ## State.count -/

@[simp] theorem State.count_time (core : Nat) (quad : Option Nat) (ev n : Nat) : (s.count core quad ev n).time = s.time := rfl
@[simp] theorem State.count_free (core : Nat) (quad : Option Nat) (ev n : Nat) : (s.count core quad ev n).free = s.free := rfl
@[simp] theorem State.count_cur (core : Nat) (quad : Option Nat) (ev n : Nat) : (s.count core quad ev n).cur = s.cur := rfl
@[simp] theorem State.count_inputs (core : Nat) (quad : Option Nat) (ev n : Nat) : (s.count core quad ev n).inputs = s.inputs := rfl
@[simp] theorem State.count_outbox (core : Nat) (quad : Option Nat) (ev n : Nat) : (s.count core quad ev n).outbox = s.outbox := rfl
@[simp] theorem State.count_hbm (core : Nat) (quad : Option Nat) (ev n : Nat) : (s.count core quad ev n).hbm = s.hbm := rfl
@[simp] theorem State.count_hpoison (core : Nat) (quad : Option Nat) (ev n : Nat) : (s.count core quad ev n).hpoison = s.hpoison := rfl
@[simp] theorem State.count_host (core : Nat) (quad : Option Nat) (ev n : Nat) : (s.count core quad ev n).host = s.host := rfl
@[simp] theorem State.count_privMem (core : Nat) (quad : Option Nat) (ev n : Nat) : (s.count core quad ev n).privMem = s.privMem := rfl
@[simp] theorem State.count_leases (core : Nat) (quad : Option Nat) (ev n : Nat) : (s.count core quad ev n).leases = s.leases := rfl
@[simp] theorem State.count_landed (core : Nat) (quad : Option Nat) (ev n : Nat) : (s.count core quad ev n).landed = s.landed := rfl
@[simp] theorem State.count_walks (core : Nat) (quad : Option Nat) (ev n : Nat) : (s.count core quad ev n).walks = s.walks := rfl
@[simp] theorem State.count_misses (core : Nat) (quad : Option Nat) (ev n : Nat) : (s.count core quad ev n).misses = s.misses := rfl
@[simp] theorem State.count_answers (core : Nat) (quad : Option Nat) (ev n : Nat) : (s.count core quad ev n).answers = s.answers := rfl
@[simp] theorem State.count_asker (core : Nat) (quad : Option Nat) (ev n : Nat) : (s.count core quad ev n).asker = s.asker := rfl
@[simp] theorem State.count_fills (core : Nat) (quad : Option Nat) (ev n : Nat) : (s.count core quad ev n).fills = s.fills := rfl
@[simp] theorem State.count_icache (core : Nat) (quad : Option Nat) (ev n : Nat) : (s.count core quad ev n).icache = s.icache := rfl
@[simp] theorem State.count_waves (core : Nat) (quad : Option Nat) (ev n : Nat) : (s.count core quad ev n).waves = s.waves := rfl
@[simp] theorem State.count_blocks (core : Nat) (quad : Option Nat) (ev n : Nat) : (s.count core quad ev n).blocks = s.blocks := rfl
@[simp] theorem State.count_grids (core : Nat) (quad : Option Nat) (ev n : Nat) : (s.count core quad ev n).grids = s.grids := rfl
@[simp] theorem State.count_regions (core : Nat) (quad : Option Nat) (ev n : Nat) : (s.count core quad ev n).regions = s.regions := rfl
@[simp] theorem State.count_dregions (core : Nat) (quad : Option Nat) (ev n : Nat) : (s.count core quad ev n).dregions = s.dregions := rfl
@[simp] theorem State.count_cores (core : Nat) (quad : Option Nat) (ev n : Nat) : (s.count core quad ev n).cores = s.cores.update core (fun c => c.bump quad ev n) := rfl
@[simp] theorem State.count_dies (core : Nat) (quad : Option Nat) (ev n : Nat) : (s.count core quad ev n).dies = s.dies := rfl
@[simp] theorem State.count_xfers (core : Nat) (quad : Option Nat) (ev n : Nat) : (s.count core quad ev n).xfers = s.xfers := rfl
@[simp] theorem State.count_fabops (core : Nat) (quad : Option Nat) (ev n : Nat) : (s.count core quad ev n).fabops = s.fabops := rfl
@[simp] theorem State.count_buckets (core : Nat) (quad : Option Nat) (ev n : Nat) : (s.count core quad ev n).buckets = s.buckets := rfl
@[simp] theorem State.count_cuts (core : Nat) (quad : Option Nat) (ev n : Nat) : (s.count core quad ev n).cuts = s.cuts := rfl
@[simp] theorem State.count_parts (core : Nat) (quad : Option Nat) (ev n : Nat) : (s.count core quad ev n).parts = s.parts := rfl
@[simp] theorem State.count_funcs (core : Nat) (quad : Option Nat) (ev n : Nat) : (s.count core quad ev n).funcs = s.funcs := rfl
@[simp] theorem State.count_plats (core : Nat) (quad : Option Nat) (ev n : Nat) : (s.count core quad ev n).plats = s.plats := rfl
@[simp] theorem State.count_tokens (core : Nat) (quad : Option Nat) (ev n : Nat) : (s.count core quad ev n).tokens = s.tokens := rfl
@[simp] theorem State.count_mail (core : Nat) (quad : Option Nat) (ev n : Nat) : (s.count core quad ev n).mail = s.mail := rfl
@[simp] theorem State.count_platWait (core : Nat) (quad : Option Nat) (ev n : Nat) : (s.count core quad ev n).platWait = s.platWait := rfl
@[simp] theorem State.count_rooms (core : Nat) (quad : Option Nat) (ev n : Nat) : (s.count core quad ev n).rooms = s.rooms := rfl
@[simp] theorem State.count_fabric (core : Nat) (quad : Option Nat) (ev n : Nat) : (s.count core quad ev n).fabric = s.fabric := rfl
@[simp] theorem State.count_control (core : Nat) (quad : Option Nat) (ev n : Nat) : (s.count core quad ev n).control = s.control := rfl
@[simp] theorem State.count_nextId (core : Nat) (quad : Option Nat) (ev n : Nat) : (s.count core quad ev n).nextId = s.nextId := rfl

/-! ## State.emit -/

@[simp] theorem State.emit_time (x : Signal) : (s.emit x).time = s.time := rfl
@[simp] theorem State.emit_free (x : Signal) : (s.emit x).free = s.free := rfl
@[simp] theorem State.emit_cur (x : Signal) : (s.emit x).cur = s.cur := rfl
@[simp] theorem State.emit_inputs (x : Signal) : (s.emit x).inputs = s.inputs := rfl
@[simp] theorem State.emit_outbox (x : Signal) : (s.emit x).outbox = s.outbox ++ [x] := rfl
@[simp] theorem State.emit_hbm (x : Signal) : (s.emit x).hbm = s.hbm := rfl
@[simp] theorem State.emit_hpoison (x : Signal) : (s.emit x).hpoison = s.hpoison := rfl
@[simp] theorem State.emit_host (x : Signal) : (s.emit x).host = s.host := rfl
@[simp] theorem State.emit_privMem (x : Signal) : (s.emit x).privMem = s.privMem := rfl
@[simp] theorem State.emit_leases (x : Signal) : (s.emit x).leases = s.leases := rfl
@[simp] theorem State.emit_landed (x : Signal) : (s.emit x).landed = s.landed := rfl
@[simp] theorem State.emit_walks (x : Signal) : (s.emit x).walks = s.walks := rfl
@[simp] theorem State.emit_misses (x : Signal) : (s.emit x).misses = s.misses := rfl
@[simp] theorem State.emit_answers (x : Signal) : (s.emit x).answers = s.answers := rfl
@[simp] theorem State.emit_asker (x : Signal) : (s.emit x).asker = s.asker := rfl
@[simp] theorem State.emit_fills (x : Signal) : (s.emit x).fills = s.fills := rfl
@[simp] theorem State.emit_icache (x : Signal) : (s.emit x).icache = s.icache := rfl
@[simp] theorem State.emit_waves (x : Signal) : (s.emit x).waves = s.waves := rfl
@[simp] theorem State.emit_blocks (x : Signal) : (s.emit x).blocks = s.blocks := rfl
@[simp] theorem State.emit_grids (x : Signal) : (s.emit x).grids = s.grids := rfl
@[simp] theorem State.emit_regions (x : Signal) : (s.emit x).regions = s.regions := rfl
@[simp] theorem State.emit_dregions (x : Signal) : (s.emit x).dregions = s.dregions := rfl
@[simp] theorem State.emit_cores (x : Signal) : (s.emit x).cores = s.cores := rfl
@[simp] theorem State.emit_dies (x : Signal) : (s.emit x).dies = s.dies := rfl
@[simp] theorem State.emit_xfers (x : Signal) : (s.emit x).xfers = s.xfers := rfl
@[simp] theorem State.emit_fabops (x : Signal) : (s.emit x).fabops = s.fabops := rfl
@[simp] theorem State.emit_buckets (x : Signal) : (s.emit x).buckets = s.buckets := rfl
@[simp] theorem State.emit_cuts (x : Signal) : (s.emit x).cuts = s.cuts := rfl
@[simp] theorem State.emit_parts (x : Signal) : (s.emit x).parts = s.parts := rfl
@[simp] theorem State.emit_funcs (x : Signal) : (s.emit x).funcs = s.funcs := rfl
@[simp] theorem State.emit_plats (x : Signal) : (s.emit x).plats = s.plats := rfl
@[simp] theorem State.emit_tokens (x : Signal) : (s.emit x).tokens = s.tokens := rfl
@[simp] theorem State.emit_mail (x : Signal) : (s.emit x).mail = s.mail := rfl
@[simp] theorem State.emit_platWait (x : Signal) : (s.emit x).platWait = s.platWait := rfl
@[simp] theorem State.emit_rooms (x : Signal) : (s.emit x).rooms = s.rooms := rfl
@[simp] theorem State.emit_fabric (x : Signal) : (s.emit x).fabric = s.fabric := rfl
@[simp] theorem State.emit_control (x : Signal) : (s.emit x).control = s.control := rfl
@[simp] theorem State.emit_nextId (x : Signal) : (s.emit x).nextId = s.nextId := rfl

/-! ## State.log -/

@[simp] theorem State.log_time (e : LogKind) : (s.log e).time = s.time := by unfold State.log; rfl
@[simp] theorem State.log_free (e : LogKind) : (s.log e).free = s.free := by unfold State.log; rfl
@[simp] theorem State.log_cur (e : LogKind) : (s.log e).cur = s.cur := by unfold State.log; rfl
@[simp] theorem State.log_inputs (e : LogKind) : (s.log e).inputs = s.inputs := by unfold State.log; rfl
@[simp] theorem State.log_outbox (e : LogKind) : (s.log e).outbox = s.outbox := by unfold State.log; rfl
@[simp] theorem State.log_hbm (e : LogKind) : (s.log e).hbm = s.hbm := by unfold State.log; rfl
@[simp] theorem State.log_hpoison (e : LogKind) : (s.log e).hpoison = s.hpoison := by unfold State.log; rfl
@[simp] theorem State.log_host (e : LogKind) : (s.log e).host = s.host := by unfold State.log; rfl
@[simp] theorem State.log_privMem (e : LogKind) : (s.log e).privMem = s.privMem := by unfold State.log; rfl
@[simp] theorem State.log_leases (e : LogKind) : (s.log e).leases = s.leases := by unfold State.log; rfl
@[simp] theorem State.log_landed (e : LogKind) : (s.log e).landed = s.landed := by unfold State.log; rfl
@[simp] theorem State.log_walks (e : LogKind) : (s.log e).walks = s.walks := by unfold State.log; rfl
@[simp] theorem State.log_misses (e : LogKind) : (s.log e).misses = s.misses := by unfold State.log; rfl
@[simp] theorem State.log_answers (e : LogKind) : (s.log e).answers = s.answers := by unfold State.log; rfl
@[simp] theorem State.log_asker (e : LogKind) : (s.log e).asker = s.asker := by unfold State.log; rfl
@[simp] theorem State.log_fills (e : LogKind) : (s.log e).fills = s.fills := by unfold State.log; rfl
@[simp] theorem State.log_icache (e : LogKind) : (s.log e).icache = s.icache := by unfold State.log; rfl
@[simp] theorem State.log_waves (e : LogKind) : (s.log e).waves = s.waves := by unfold State.log; rfl
@[simp] theorem State.log_blocks (e : LogKind) : (s.log e).blocks = s.blocks := by unfold State.log; rfl
@[simp] theorem State.log_grids (e : LogKind) : (s.log e).grids = s.grids := by unfold State.log; rfl
@[simp] theorem State.log_regions (e : LogKind) : (s.log e).regions = s.regions := by unfold State.log; rfl
@[simp] theorem State.log_dregions (e : LogKind) : (s.log e).dregions = s.dregions := by unfold State.log; rfl
@[simp] theorem State.log_cores (e : LogKind) : (s.log e).cores = s.cores := by unfold State.log; rfl
@[simp] theorem State.log_dies (e : LogKind) : (s.log e).dies = s.dies := by unfold State.log; rfl
@[simp] theorem State.log_xfers (e : LogKind) : (s.log e).xfers = s.xfers := by unfold State.log; rfl
@[simp] theorem State.log_fabops (e : LogKind) : (s.log e).fabops = s.fabops := by unfold State.log; rfl
@[simp] theorem State.log_buckets (e : LogKind) : (s.log e).buckets = s.buckets := by unfold State.log; rfl
@[simp] theorem State.log_cuts (e : LogKind) : (s.log e).cuts = s.cuts := by unfold State.log; rfl
@[simp] theorem State.log_parts (e : LogKind) : (s.log e).parts = s.parts := by unfold State.log; rfl
@[simp] theorem State.log_funcs (e : LogKind) : (s.log e).funcs = s.funcs := by unfold State.log; rfl
@[simp] theorem State.log_plats (e : LogKind) : (s.log e).plats = s.plats := by unfold State.log; rfl
@[simp] theorem State.log_tokens (e : LogKind) : (s.log e).tokens = s.tokens := by unfold State.log; rfl
@[simp] theorem State.log_mail (e : LogKind) : (s.log e).mail = s.mail := by unfold State.log; rfl
@[simp] theorem State.log_platWait (e : LogKind) : (s.log e).platWait = s.platWait := by unfold State.log; rfl
@[simp] theorem State.log_rooms (e : LogKind) : (s.log e).rooms = s.rooms := by unfold State.log; rfl
@[simp] theorem State.log_fabric (e : LogKind) : (s.log e).fabric = s.fabric := by unfold State.log; rfl
@[simp] theorem State.log_nextId (e : LogKind) : (s.log e).nextId = s.nextId := by unfold State.log; rfl

/-! ## State.modFabric -/

@[simp] theorem State.modFabric_time (f : Fabric → Fabric) : (s.modFabric f).time = s.time := rfl
@[simp] theorem State.modFabric_free (f : Fabric → Fabric) : (s.modFabric f).free = s.free := rfl
@[simp] theorem State.modFabric_cur (f : Fabric → Fabric) : (s.modFabric f).cur = s.cur := rfl
@[simp] theorem State.modFabric_inputs (f : Fabric → Fabric) : (s.modFabric f).inputs = s.inputs := rfl
@[simp] theorem State.modFabric_outbox (f : Fabric → Fabric) : (s.modFabric f).outbox = s.outbox := rfl
@[simp] theorem State.modFabric_hbm (f : Fabric → Fabric) : (s.modFabric f).hbm = s.hbm := rfl
@[simp] theorem State.modFabric_hpoison (f : Fabric → Fabric) : (s.modFabric f).hpoison = s.hpoison := rfl
@[simp] theorem State.modFabric_host (f : Fabric → Fabric) : (s.modFabric f).host = s.host := rfl
@[simp] theorem State.modFabric_privMem (f : Fabric → Fabric) : (s.modFabric f).privMem = s.privMem := rfl
@[simp] theorem State.modFabric_leases (f : Fabric → Fabric) : (s.modFabric f).leases = s.leases := rfl
@[simp] theorem State.modFabric_landed (f : Fabric → Fabric) : (s.modFabric f).landed = s.landed := rfl
@[simp] theorem State.modFabric_walks (f : Fabric → Fabric) : (s.modFabric f).walks = s.walks := rfl
@[simp] theorem State.modFabric_misses (f : Fabric → Fabric) : (s.modFabric f).misses = s.misses := rfl
@[simp] theorem State.modFabric_answers (f : Fabric → Fabric) : (s.modFabric f).answers = s.answers := rfl
@[simp] theorem State.modFabric_asker (f : Fabric → Fabric) : (s.modFabric f).asker = s.asker := rfl
@[simp] theorem State.modFabric_fills (f : Fabric → Fabric) : (s.modFabric f).fills = s.fills := rfl
@[simp] theorem State.modFabric_icache (f : Fabric → Fabric) : (s.modFabric f).icache = s.icache := rfl
@[simp] theorem State.modFabric_waves (f : Fabric → Fabric) : (s.modFabric f).waves = s.waves := rfl
@[simp] theorem State.modFabric_blocks (f : Fabric → Fabric) : (s.modFabric f).blocks = s.blocks := rfl
@[simp] theorem State.modFabric_grids (f : Fabric → Fabric) : (s.modFabric f).grids = s.grids := rfl
@[simp] theorem State.modFabric_regions (f : Fabric → Fabric) : (s.modFabric f).regions = s.regions := rfl
@[simp] theorem State.modFabric_dregions (f : Fabric → Fabric) : (s.modFabric f).dregions = s.dregions := rfl
@[simp] theorem State.modFabric_cores (f : Fabric → Fabric) : (s.modFabric f).cores = s.cores := rfl
@[simp] theorem State.modFabric_dies (f : Fabric → Fabric) : (s.modFabric f).dies = s.dies := rfl
@[simp] theorem State.modFabric_xfers (f : Fabric → Fabric) : (s.modFabric f).xfers = s.xfers := rfl
@[simp] theorem State.modFabric_fabops (f : Fabric → Fabric) : (s.modFabric f).fabops = s.fabops := rfl
@[simp] theorem State.modFabric_buckets (f : Fabric → Fabric) : (s.modFabric f).buckets = s.buckets := rfl
@[simp] theorem State.modFabric_cuts (f : Fabric → Fabric) : (s.modFabric f).cuts = s.cuts := rfl
@[simp] theorem State.modFabric_parts (f : Fabric → Fabric) : (s.modFabric f).parts = s.parts := rfl
@[simp] theorem State.modFabric_funcs (f : Fabric → Fabric) : (s.modFabric f).funcs = s.funcs := rfl
@[simp] theorem State.modFabric_plats (f : Fabric → Fabric) : (s.modFabric f).plats = s.plats := rfl
@[simp] theorem State.modFabric_tokens (f : Fabric → Fabric) : (s.modFabric f).tokens = s.tokens := rfl
@[simp] theorem State.modFabric_mail (f : Fabric → Fabric) : (s.modFabric f).mail = s.mail := rfl
@[simp] theorem State.modFabric_platWait (f : Fabric → Fabric) : (s.modFabric f).platWait = s.platWait := rfl
@[simp] theorem State.modFabric_rooms (f : Fabric → Fabric) : (s.modFabric f).rooms = s.rooms := rfl
@[simp] theorem State.modFabric_fabric (f : Fabric → Fabric) : (s.modFabric f).fabric = f s.fabric := rfl
@[simp] theorem State.modFabric_control (f : Fabric → Fabric) : (s.modFabric f).control = s.control := rfl
@[simp] theorem State.modFabric_nextId (f : Fabric → Fabric) : (s.modFabric f).nextId = s.nextId := rfl

/-! ## State.modControl -/

@[simp] theorem State.modControl_time (f : Control → Control) : (s.modControl f).time = s.time := rfl
@[simp] theorem State.modControl_free (f : Control → Control) : (s.modControl f).free = s.free := rfl
@[simp] theorem State.modControl_cur (f : Control → Control) : (s.modControl f).cur = s.cur := rfl
@[simp] theorem State.modControl_inputs (f : Control → Control) : (s.modControl f).inputs = s.inputs := rfl
@[simp] theorem State.modControl_outbox (f : Control → Control) : (s.modControl f).outbox = s.outbox := rfl
@[simp] theorem State.modControl_hbm (f : Control → Control) : (s.modControl f).hbm = s.hbm := rfl
@[simp] theorem State.modControl_hpoison (f : Control → Control) : (s.modControl f).hpoison = s.hpoison := rfl
@[simp] theorem State.modControl_host (f : Control → Control) : (s.modControl f).host = s.host := rfl
@[simp] theorem State.modControl_privMem (f : Control → Control) : (s.modControl f).privMem = s.privMem := rfl
@[simp] theorem State.modControl_leases (f : Control → Control) : (s.modControl f).leases = s.leases := rfl
@[simp] theorem State.modControl_landed (f : Control → Control) : (s.modControl f).landed = s.landed := rfl
@[simp] theorem State.modControl_walks (f : Control → Control) : (s.modControl f).walks = s.walks := rfl
@[simp] theorem State.modControl_misses (f : Control → Control) : (s.modControl f).misses = s.misses := rfl
@[simp] theorem State.modControl_answers (f : Control → Control) : (s.modControl f).answers = s.answers := rfl
@[simp] theorem State.modControl_asker (f : Control → Control) : (s.modControl f).asker = s.asker := rfl
@[simp] theorem State.modControl_fills (f : Control → Control) : (s.modControl f).fills = s.fills := rfl
@[simp] theorem State.modControl_icache (f : Control → Control) : (s.modControl f).icache = s.icache := rfl
@[simp] theorem State.modControl_waves (f : Control → Control) : (s.modControl f).waves = s.waves := rfl
@[simp] theorem State.modControl_blocks (f : Control → Control) : (s.modControl f).blocks = s.blocks := rfl
@[simp] theorem State.modControl_grids (f : Control → Control) : (s.modControl f).grids = s.grids := rfl
@[simp] theorem State.modControl_regions (f : Control → Control) : (s.modControl f).regions = s.regions := rfl
@[simp] theorem State.modControl_dregions (f : Control → Control) : (s.modControl f).dregions = s.dregions := rfl
@[simp] theorem State.modControl_cores (f : Control → Control) : (s.modControl f).cores = s.cores := rfl
@[simp] theorem State.modControl_dies (f : Control → Control) : (s.modControl f).dies = s.dies := rfl
@[simp] theorem State.modControl_xfers (f : Control → Control) : (s.modControl f).xfers = s.xfers := rfl
@[simp] theorem State.modControl_fabops (f : Control → Control) : (s.modControl f).fabops = s.fabops := rfl
@[simp] theorem State.modControl_buckets (f : Control → Control) : (s.modControl f).buckets = s.buckets := rfl
@[simp] theorem State.modControl_cuts (f : Control → Control) : (s.modControl f).cuts = s.cuts := rfl
@[simp] theorem State.modControl_parts (f : Control → Control) : (s.modControl f).parts = s.parts := rfl
@[simp] theorem State.modControl_funcs (f : Control → Control) : (s.modControl f).funcs = s.funcs := rfl
@[simp] theorem State.modControl_plats (f : Control → Control) : (s.modControl f).plats = s.plats := rfl
@[simp] theorem State.modControl_tokens (f : Control → Control) : (s.modControl f).tokens = s.tokens := rfl
@[simp] theorem State.modControl_mail (f : Control → Control) : (s.modControl f).mail = s.mail := rfl
@[simp] theorem State.modControl_platWait (f : Control → Control) : (s.modControl f).platWait = s.platWait := rfl
@[simp] theorem State.modControl_rooms (f : Control → Control) : (s.modControl f).rooms = s.rooms := rfl
@[simp] theorem State.modControl_fabric (f : Control → Control) : (s.modControl f).fabric = s.fabric := rfl
@[simp] theorem State.modControl_control (f : Control → Control) : (s.modControl f).control = f s.control := rfl
@[simp] theorem State.modControl_nextId (f : Control → Control) : (s.modControl f).nextId = s.nextId := rfl

end Sys2Proof.Machine
end

