-- ==== Sys2Proof/Laws/Issue.lean ====
section
/-! SUPPORT. What the issue of a word does: the spec lemmas of the shared issue operations, of the writes of
the wave's registers, and of the state that an issue leaves. -/

namespace Sys2Proof.Machine

set_option Elab.async false

/-! ## The outcomes of an issue -/

theorem issue_some {s : State} {c : Ctx} (h : s.ctx? = some c) (f : Ctx → Res) :
    issue s f = .next (c.finish s (f c)) := by
  simp [issue, h]

/-- A word whose checks fail traps and has no effect (R43, R347). -/
theorem issueChecked_illegal {s : State} {c : Ctx} {k : Ctx → Checks} {l : List LaneCause} (h : s.ctx? = some c)
    (hf : c.decodeFault (k c) = some l) (f : Ctx → Res) :
    issueChecked s k f = .next (c.finish s (.trap l false)) := by
  simp [issueChecked, issue, h, hf]

/-- An ordinary issue has its effect (R43, R34, R139). -/
theorem issueChecked_issues {s : State} {c : Ctx} {k : Ctx → Checks} (h : Issues s c (k c)) (f : Ctx → Res) :
    issueChecked s k f = .next (c.finish s (f c)) := by
  obtain ⟨hc, hl, hi, hp⟩ := h
  simp [issueChecked, issue, hc, hl, hi, hp]

/-- Whatever a picked gang's word does, the machine goes on. -/
theorem issueChecked_goes_on {s : State} {c : Ctx} (h : s.ctx? = some c) (k : Ctx → Checks) (f : Ctx → Res) :
    ∃ r, issueChecked s k f = .next (c.finish s r) :=
  ⟨_, issue_some h _⟩

/-- No gang stays picked after an issue (R90). -/
@[simp] theorem Ctx.finish_cur (c : Ctx) (s : State) (r : Res) : (c.finish s r).cur = none := by
  cases r with
  | trap l n => cases l <;> cases n <;> rfl
  | _ => rfl

@[simp] theorem Ctx.finish_next (c : Ctx) (s t : State) : c.finish s (.next t) = c.retire t c.advance := rfl
@[simp] theorem Ctx.finish_stall (c : Ctx) (s : State) : c.finish s .stall = c.wait s := rfl
@[simp] theorem Ctx.finish_hold (c : Ctx) (s t : State) : c.finish s (.hold t) = c.wait t := rfl
@[simp] theorem Ctx.finish_jump (c : Ctx) (s t : State) :
    c.finish s (.jump t) = c.retire t (fun w => if c.replay then w.dropReplay c.now else w) := rfl
@[simp] theorem Ctx.finish_trap (c : Ctx) (s : State) (x : LaneCause) (l : List LaneCause) (n : Bool) :
    c.finish s (.trap (x :: l) n) = c.trapped s (x :: l) n := rfl

/-- The wave and the block of the picked gang. -/
theorem ctx?_wave {s : State} {c : Ctx} (h : s.ctx? = some c) : s.waves.get? c.key = some c.w := by
  unfold State.ctx? at h
  split at h
  · cases h
  · split at h
    · cases h
    · split at h
      · cases h
      · cases h; assumption

theorem ctx?_block {s : State} {c : Ctx} (h : s.ctx? = some c) : s.blocks.get? c.w.block = some c.blk := by
  unfold State.ctx? at h
  split at h
  · cases h
  · split at h
    · cases h
    · split at h
      · cases h
      · cases h; assumption

/-! ## What an issue leaves of the state -/

@[simp] theorem Ctx.retire_time (c : Ctx) (s : State) (f : Wave → Wave) : (c.retire s f).time = s.time := rfl
@[simp] theorem Ctx.retire_free (c : Ctx) (s : State) (f : Wave → Wave) : (c.retire s f).free = s.free := rfl
@[simp] theorem Ctx.retire_cur (c : Ctx) (s : State) (f : Wave → Wave) : (c.retire s f).cur = none := rfl
@[simp] theorem Ctx.retire_inputs (c : Ctx) (s : State) (f : Wave → Wave) : (c.retire s f).inputs = s.inputs := rfl
@[simp] theorem Ctx.retire_outbox (c : Ctx) (s : State) (f : Wave → Wave) : (c.retire s f).outbox = s.outbox := rfl
@[simp] theorem Ctx.retire_hbm (c : Ctx) (s : State) (f : Wave → Wave) : (c.retire s f).hbm = s.hbm := rfl
@[simp] theorem Ctx.retire_hpoison (c : Ctx) (s : State) (f : Wave → Wave) : (c.retire s f).hpoison = s.hpoison := rfl
@[simp] theorem Ctx.retire_host (c : Ctx) (s : State) (f : Wave → Wave) : (c.retire s f).host = s.host := rfl
@[simp] theorem Ctx.retire_privMem (c : Ctx) (s : State) (f : Wave → Wave) : (c.retire s f).privMem = s.privMem := rfl
@[simp] theorem Ctx.retire_leases (c : Ctx) (s : State) (f : Wave → Wave) : (c.retire s f).leases = s.leases := rfl
@[simp] theorem Ctx.retire_fills (c : Ctx) (s : State) (f : Wave → Wave) : (c.retire s f).fills = s.fills := rfl
@[simp] theorem Ctx.retire_icache (c : Ctx) (s : State) (f : Wave → Wave) : (c.retire s f).icache = s.icache := rfl
@[simp] theorem Ctx.retire_grids (c : Ctx) (s : State) (f : Wave → Wave) : (c.retire s f).grids = s.grids := rfl
@[simp] theorem Ctx.retire_regions (c : Ctx) (s : State) (f : Wave → Wave) : (c.retire s f).regions = s.regions := rfl
@[simp] theorem Ctx.retire_dregions (c : Ctx) (s : State) (f : Wave → Wave) : (c.retire s f).dregions = s.dregions := rfl
@[simp] theorem Ctx.retire_dies (c : Ctx) (s : State) (f : Wave → Wave) : (c.retire s f).dies = s.dies := rfl
@[simp] theorem Ctx.retire_xfers (c : Ctx) (s : State) (f : Wave → Wave) : (c.retire s f).xfers = s.xfers := rfl
@[simp] theorem Ctx.retire_fabops (c : Ctx) (s : State) (f : Wave → Wave) : (c.retire s f).fabops = s.fabops := rfl
@[simp] theorem Ctx.retire_buckets (c : Ctx) (s : State) (f : Wave → Wave) : (c.retire s f).buckets = s.buckets := rfl
@[simp] theorem Ctx.retire_cuts (c : Ctx) (s : State) (f : Wave → Wave) : (c.retire s f).cuts = s.cuts := rfl
@[simp] theorem Ctx.retire_parts (c : Ctx) (s : State) (f : Wave → Wave) : (c.retire s f).parts = s.parts := rfl
@[simp] theorem Ctx.retire_funcs (c : Ctx) (s : State) (f : Wave → Wave) : (c.retire s f).funcs = s.funcs := rfl
@[simp] theorem Ctx.retire_plats (c : Ctx) (s : State) (f : Wave → Wave) : (c.retire s f).plats = s.plats := rfl
@[simp] theorem Ctx.retire_tokens (c : Ctx) (s : State) (f : Wave → Wave) : (c.retire s f).tokens = s.tokens := rfl
@[simp] theorem Ctx.retire_mail (c : Ctx) (s : State) (f : Wave → Wave) : (c.retire s f).mail = s.mail := rfl
@[simp] theorem Ctx.retire_platWait (c : Ctx) (s : State) (f : Wave → Wave) : (c.retire s f).platWait = s.platWait := rfl
@[simp] theorem Ctx.retire_rooms (c : Ctx) (s : State) (f : Wave → Wave) : (c.retire s f).rooms = s.rooms := rfl
@[simp] theorem Ctx.retire_landed (c : Ctx) (s : State) (f : Wave → Wave) : (c.retire s f).landed = s.landed := rfl
@[simp] theorem Ctx.retire_walks (c : Ctx) (s : State) (f : Wave → Wave) : (c.retire s f).walks = s.walks := rfl
@[simp] theorem Ctx.retire_misses (c : Ctx) (s : State) (f : Wave → Wave) : (c.retire s f).misses = s.misses := rfl
@[simp] theorem Ctx.retire_answers (c : Ctx) (s : State) (f : Wave → Wave) : (c.retire s f).answers = s.answers := rfl
@[simp] theorem Ctx.retire_asker (c : Ctx) (s : State) (f : Wave → Wave) : (c.retire s f).asker = s.asker := rfl
@[simp] theorem Ctx.retire_fabric (c : Ctx) (s : State) (f : Wave → Wave) : (c.retire s f).fabric = s.fabric := rfl
@[simp] theorem Ctx.retire_control (c : Ctx) (s : State) (f : Wave → Wave) : (c.retire s f).control = s.control := rfl
@[simp] theorem Ctx.retire_nextId (c : Ctx) (s : State) (f : Wave → Wave) : (c.retire s f).nextId = s.nextId := rfl

/-- The issuing wave after an issue. -/
theorem Ctx.retire_wave (c : Ctx) (s : State) (f : Wave → Wave) {w : Wave} (h : s.waves.get? c.key = some w) :
    (c.retire s f).waves.get? c.key = some (f (w.counted (s.quantum c.blk))) := by
  unfold Ctx.retire
  rw [Table.get?_update, if_pos rfl, h]
  rfl

/-- Every other wave stays as it was. -/
theorem Ctx.retire_other (c : Ctx) (s : State) (f : Wave → Wave) {k : Nat} (h : k ≠ c.key) :
    (c.retire s f).waves.get? k = s.waves.get? k := by
  unfold Ctx.retire
  rw [Table.get?_update, if_neg h]

/-- The blocks after an issue: the issuing wave's block counts the word and its charge (R330, R361). -/
theorem Ctx.retire_blocks (c : Ctx) (s : State) (f : Wave → Wave) (b : Nat) :
    (c.retire s f).blocks.get? b = if b = c.w.block then (s.blocks.get? c.w.block).map (fun x =>
      { x with reti := x.reti + 1, charge := x.charge + 384 * issueCycles c.gang }) else s.blocks.get? b := by
  unfold Ctx.retire
  rw [Table.get?_update]

/-- The cores after an issue: the issuing core's counters count the word (R381). -/
theorem Ctx.retire_cores (c : Ctx) (s : State) (f : Wave → Wave) (k : Nat) :
    (c.retire s f).cores.get? k = if k = c.w.core then (s.cores.get? c.w.core).map c.tally else s.cores.get? k := by
  unfold Ctx.retire
  rw [Table.get?_update]

/-- An issue leaves the halves of every block as they were. -/
theorem Ctx.retire_half (c : Ctx) (s : State) (f : Wave → Wave) (b h : Nat) : (c.retire s f).half b h = s.half b h := by
  unfold State.half
  rw [Ctx.retire_blocks]
  by_cases hb : b = c.w.block
  · subst hb
    rw [if_pos rfl]
    cases s.blocks.get? c.w.block <;> rfl
  · rw [if_neg hb]

/-- An issue leaves every byte of memory that its effect left (R2, R218). -/
theorem Ctx.retire_readLoc (c : Ctx) (s : State) (f : Wave → Wave) (l : Loc) (n : Nat) :
    (c.retire s f).readLoc l n = s.readLoc l n := by
  cases l with
  | scratch b h off => simp only [State.readLoc, Ctx.retire_half]
  | _ => rfl

/-- A wave written back changes no byte of memory. -/
@[simp] theorem State.setWave_readLoc (s : State) (k : Nat) (w : Wave) (l : Loc) (n : Nat) :
    (s.setWave k w).readLoc l n = s.readLoc l n := by
  cases l <;> rfl

/-- A wave changed where it stands changes no byte of memory. -/
@[simp] theorem State.modWave_readLoc (s : State) (k : Nat) (f : Wave → Wave) (l : Loc) (n : Nat) :
    (s.modWave k f).readLoc l n = s.readLoc l n := by
  cases l <;> rfl

/-! ## Writes of the wave's registers -/

@[simp] theorem Wave.swrite_block (w : Wave) (n k x : Nat) : (w.swrite n k x).block = w.block := rfl
@[simp] theorem Wave.swrite_index (w : Wave) (n k x : Nat) : (w.swrite n k x).index = w.index := rfl
@[simp] theorem Wave.swrite_half (w : Wave) (n k x : Nat) : (w.swrite n k x).half = w.half := rfl
@[simp] theorem Wave.swrite_func (w : Wave) (n k x : Nat) : (w.swrite n k x).func = w.func := rfl
@[simp] theorem Wave.swrite_part (w : Wave) (n k x : Nat) : (w.swrite n k x).part = w.part := rfl
@[simp] theorem Wave.swrite_core (w : Wave) (n k x : Nat) : (w.swrite n k x).core = w.core := rfl
@[simp] theorem Wave.swrite_quad (w : Wave) (n k x : Nat) : (w.swrite n k x).quad = w.quad := rfl
@[simp] theorem Wave.swrite_slot (w : Wave) (n k x : Nat) : (w.swrite n k x).slot = w.slot := rfl
@[simp] theorem Wave.swrite_waveid (w : Wave) (n k x : Nat) : (w.swrite n k x).waveid = w.waveid := rfl
@[simp] theorem Wave.swrite_slices (w : Wave) (n k x : Nat) : (w.swrite n k x).slices = w.slices := rfl
@[simp] theorem Wave.swrite_present (w : Wave) (n k x : Nat) : (w.swrite n k x).present = w.present := rfl
@[simp] theorem Wave.swrite_vgran (w : Wave) (n k x : Nat) : (w.swrite n k x).vgran = w.vgran := rfl
@[simp] theorem Wave.swrite_v (w : Wave) (n k x : Nat) : (w.swrite n k x).v = w.v := rfl
@[simp] theorem Wave.swrite_vpoison (w : Wave) (n k x : Nat) : (w.swrite n k x).vpoison = w.vpoison := rfl
@[simp] theorem Wave.swrite_p (w : Wave) (n k x : Nat) : (w.swrite n k x).p = w.p := rfl
@[simp] theorem Wave.swrite_md (w : Wave) (n k x : Nat) : (w.swrite n k x).md = w.md := rfl
@[simp] theorem Wave.swrite_fx (w : Wave) (n k x : Nat) : (w.swrite n k x).fx = w.fx := rfl
@[simp] theorem Wave.swrite_flags (w : Wave) (n k x : Nat) : (w.swrite n k x).flags = w.flags := rfl
@[simp] theorem Wave.swrite_ot0 (w : Wave) (n k x : Nat) : (w.swrite n k x).ot0 = w.ot0 := rfl
@[simp] theorem Wave.swrite_ot1 (w : Wave) (n k x : Nat) : (w.swrite n k x).ot1 = w.ot1 := rfl
@[simp] theorem Wave.swrite_mp (w : Wave) (n k x : Nat) : (w.swrite n k x).mp = w.mp := rfl
@[simp] theorem Wave.swrite_mr (w : Wave) (n k x : Nat) : (w.swrite n k x).mr = w.mr := rfl
@[simp] theorem Wave.swrite_mrs (w : Wave) (n k x : Nat) : (w.swrite n k x).mrs = w.mrs := rfl
@[simp] theorem Wave.swrite_ab (w : Wave) (n k x : Nat) : (w.swrite n k x).ab = w.ab := rfl
@[simp] theorem Wave.swrite_al (w : Wave) (n k x : Nat) : (w.swrite n k x).al = w.al := rfl
@[simp] theorem Wave.swrite_lease (w : Wave) (n k x : Nat) : (w.swrite n k x).lease = w.lease := rfl
@[simp] theorem Wave.swrite_monitor (w : Wave) (n k x : Nat) : (w.swrite n k x).monitor = w.monitor := rfl
@[simp] theorem Wave.swrite_times (w : Wave) (n k x : Nat) : (w.swrite n k x).times = w.times := rfl
@[simp] theorem Wave.swrite_idem (w : Wave) (n k x : Nat) : (w.swrite n k x).idem = w.idem := rfl
@[simp] theorem Wave.swrite_side (w : Wave) (n k x : Nat) : (w.swrite n k x).side = w.side := rfl
@[simp] theorem Wave.swrite_priv (w : Wave) (n k x : Nat) : (w.swrite n k x).priv = w.priv := rfl
@[simp] theorem Wave.swrite_inHandler (w : Wave) (n k x : Nat) : (w.swrite n k x).inHandler = w.inHandler := rfl
@[simp] theorem Wave.swrite_hintValid (w : Wave) (n k x : Nat) : (w.swrite n k x).hintValid = w.hintValid := rfl
@[simp] theorem Wave.swrite_hint (w : Wave) (n k x : Nat) : (w.swrite n k x).hint = w.hint := rfl
@[simp] theorem Wave.swrite_trapped (w : Wave) (n k x : Nat) : (w.swrite n k x).trapped = w.trapped := rfl
@[simp] theorem Wave.swrite_saveSlot (w : Wave) (n k x : Nat) : (w.swrite n k x).saveSlot = w.saveSlot := rfl
@[simp] theorem Wave.swrite_due (w : Wave) (n k x : Nat) : (w.swrite n k x).due = w.due := rfl
@[simp] theorem Wave.swrite_causes (w : Wave) (n k x : Nat) : (w.swrite n k x).causes = w.causes := rfl
@[simp] theorem Wave.swrite_handling (w : Wave) (n k x : Nat) : (w.swrite n k x).handling = w.handling := rfl
@[simp] theorem Wave.swrite_replay (w : Wave) (n k x : Nat) : (w.swrite n k x).replay = w.replay := rfl
@[simp] theorem Wave.swrite_specials (w : Wave) (n k x : Nat) : (w.swrite n k x).specials = w.specials := rfl
@[simp] theorem Wave.swrite_memOps (w : Wave) (n k x : Nat) : (w.swrite n k x).memOps = w.memOps := rfl
@[simp] theorem Wave.swrite_seq (w : Wave) (n k x : Nat) : (w.swrite n k x).seq = w.seq := rfl
@[simp] theorem Wave.swrite_fencing (w : Wave) (n k x : Nat) : (w.swrite n k x).fencing = w.fencing := rfl
@[simp] theorem Wave.swrite_latch (w : Wave) (n k x : Nat) : (w.swrite n k x).latch = w.latch := rfl
@[simp] theorem Wave.swrite_frozen (w : Wave) (n k x : Nat) : (w.swrite n k x).frozen = w.frozen := rfl
@[simp] theorem Wave.swrite_stopped (w : Wave) (n k x : Nat) : (w.swrite n k x).stopped = w.stopped := rfl
@[simp] theorem Wave.swrite_ended (w : Wave) (n k x : Nat) : (w.swrite n k x).ended = w.ended := rfl
@[simp] theorem Wave.swrite_det (w : Wave) (n k x : Nat) : (w.swrite n k x).det = w.det := rfl

@[simp] theorem Wave.vput_block (w : Wave) (l : List (Nat × Word)) : (w.vput l).block = w.block := rfl
@[simp] theorem Wave.vput_index (w : Wave) (l : List (Nat × Word)) : (w.vput l).index = w.index := rfl
@[simp] theorem Wave.vput_half (w : Wave) (l : List (Nat × Word)) : (w.vput l).half = w.half := rfl
@[simp] theorem Wave.vput_func (w : Wave) (l : List (Nat × Word)) : (w.vput l).func = w.func := rfl
@[simp] theorem Wave.vput_part (w : Wave) (l : List (Nat × Word)) : (w.vput l).part = w.part := rfl
@[simp] theorem Wave.vput_core (w : Wave) (l : List (Nat × Word)) : (w.vput l).core = w.core := rfl
@[simp] theorem Wave.vput_quad (w : Wave) (l : List (Nat × Word)) : (w.vput l).quad = w.quad := rfl
@[simp] theorem Wave.vput_slot (w : Wave) (l : List (Nat × Word)) : (w.vput l).slot = w.slot := rfl
@[simp] theorem Wave.vput_waveid (w : Wave) (l : List (Nat × Word)) : (w.vput l).waveid = w.waveid := rfl
@[simp] theorem Wave.vput_slices (w : Wave) (l : List (Nat × Word)) : (w.vput l).slices = w.slices := rfl
@[simp] theorem Wave.vput_present (w : Wave) (l : List (Nat × Word)) : (w.vput l).present = w.present := rfl
@[simp] theorem Wave.vput_vgran (w : Wave) (l : List (Nat × Word)) : (w.vput l).vgran = w.vgran := rfl
@[simp] theorem Wave.vput_s (w : Wave) (l : List (Nat × Word)) : (w.vput l).s = w.s := rfl
@[simp] theorem Wave.vput_spoison (w : Wave) (l : List (Nat × Word)) : (w.vput l).spoison = w.spoison := rfl
@[simp] theorem Wave.vput_p (w : Wave) (l : List (Nat × Word)) : (w.vput l).p = w.p := rfl
@[simp] theorem Wave.vput_md (w : Wave) (l : List (Nat × Word)) : (w.vput l).md = w.md := rfl
@[simp] theorem Wave.vput_fx (w : Wave) (l : List (Nat × Word)) : (w.vput l).fx = w.fx := rfl
@[simp] theorem Wave.vput_flags (w : Wave) (l : List (Nat × Word)) : (w.vput l).flags = w.flags := rfl
@[simp] theorem Wave.vput_ot0 (w : Wave) (l : List (Nat × Word)) : (w.vput l).ot0 = w.ot0 := rfl
@[simp] theorem Wave.vput_ot1 (w : Wave) (l : List (Nat × Word)) : (w.vput l).ot1 = w.ot1 := rfl
@[simp] theorem Wave.vput_mp (w : Wave) (l : List (Nat × Word)) : (w.vput l).mp = w.mp := rfl
@[simp] theorem Wave.vput_mr (w : Wave) (l : List (Nat × Word)) : (w.vput l).mr = w.mr := rfl
@[simp] theorem Wave.vput_mrs (w : Wave) (l : List (Nat × Word)) : (w.vput l).mrs = w.mrs := rfl
@[simp] theorem Wave.vput_ab (w : Wave) (l : List (Nat × Word)) : (w.vput l).ab = w.ab := rfl
@[simp] theorem Wave.vput_al (w : Wave) (l : List (Nat × Word)) : (w.vput l).al = w.al := rfl
@[simp] theorem Wave.vput_lease (w : Wave) (l : List (Nat × Word)) : (w.vput l).lease = w.lease := rfl
@[simp] theorem Wave.vput_monitor (w : Wave) (l : List (Nat × Word)) : (w.vput l).monitor = w.monitor := rfl
@[simp] theorem Wave.vput_times (w : Wave) (l : List (Nat × Word)) : (w.vput l).times = w.times := rfl
@[simp] theorem Wave.vput_idem (w : Wave) (l : List (Nat × Word)) : (w.vput l).idem = w.idem := rfl
@[simp] theorem Wave.vput_side (w : Wave) (l : List (Nat × Word)) : (w.vput l).side = w.side := rfl
@[simp] theorem Wave.vput_priv (w : Wave) (l : List (Nat × Word)) : (w.vput l).priv = w.priv := rfl
@[simp] theorem Wave.vput_inHandler (w : Wave) (l : List (Nat × Word)) : (w.vput l).inHandler = w.inHandler := rfl
@[simp] theorem Wave.vput_hintValid (w : Wave) (l : List (Nat × Word)) : (w.vput l).hintValid = w.hintValid := rfl
@[simp] theorem Wave.vput_hint (w : Wave) (l : List (Nat × Word)) : (w.vput l).hint = w.hint := rfl
@[simp] theorem Wave.vput_trapped (w : Wave) (l : List (Nat × Word)) : (w.vput l).trapped = w.trapped := rfl
@[simp] theorem Wave.vput_saveSlot (w : Wave) (l : List (Nat × Word)) : (w.vput l).saveSlot = w.saveSlot := rfl
@[simp] theorem Wave.vput_due (w : Wave) (l : List (Nat × Word)) : (w.vput l).due = w.due := rfl
@[simp] theorem Wave.vput_causes (w : Wave) (l : List (Nat × Word)) : (w.vput l).causes = w.causes := rfl
@[simp] theorem Wave.vput_handling (w : Wave) (l : List (Nat × Word)) : (w.vput l).handling = w.handling := rfl
@[simp] theorem Wave.vput_replay (w : Wave) (l : List (Nat × Word)) : (w.vput l).replay = w.replay := rfl
@[simp] theorem Wave.vput_specials (w : Wave) (l : List (Nat × Word)) : (w.vput l).specials = w.specials := rfl
@[simp] theorem Wave.vput_memOps (w : Wave) (l : List (Nat × Word)) : (w.vput l).memOps = w.memOps := rfl
@[simp] theorem Wave.vput_seq (w : Wave) (l : List (Nat × Word)) : (w.vput l).seq = w.seq := rfl
@[simp] theorem Wave.vput_fencing (w : Wave) (l : List (Nat × Word)) : (w.vput l).fencing = w.fencing := rfl
@[simp] theorem Wave.vput_frozen (w : Wave) (l : List (Nat × Word)) : (w.vput l).frozen = w.frozen := rfl
@[simp] theorem Wave.vput_stopped (w : Wave) (l : List (Nat × Word)) : (w.vput l).stopped = w.stopped := rfl
@[simp] theorem Wave.vput_ended (w : Wave) (l : List (Nat × Word)) : (w.vput l).ended = w.ended := rfl
@[simp] theorem Wave.vput_det (w : Wave) (l : List (Nat × Word)) : (w.vput l).det = w.det := rfl

@[simp] theorem Wave.pwrite_block (w : Wave) (n : Nat) (m b : LaneMask) : (w.pwrite n m b).block = w.block := rfl
@[simp] theorem Wave.pwrite_index (w : Wave) (n : Nat) (m b : LaneMask) : (w.pwrite n m b).index = w.index := rfl
@[simp] theorem Wave.pwrite_half (w : Wave) (n : Nat) (m b : LaneMask) : (w.pwrite n m b).half = w.half := rfl
@[simp] theorem Wave.pwrite_func (w : Wave) (n : Nat) (m b : LaneMask) : (w.pwrite n m b).func = w.func := rfl
@[simp] theorem Wave.pwrite_part (w : Wave) (n : Nat) (m b : LaneMask) : (w.pwrite n m b).part = w.part := rfl
@[simp] theorem Wave.pwrite_core (w : Wave) (n : Nat) (m b : LaneMask) : (w.pwrite n m b).core = w.core := rfl
@[simp] theorem Wave.pwrite_quad (w : Wave) (n : Nat) (m b : LaneMask) : (w.pwrite n m b).quad = w.quad := rfl
@[simp] theorem Wave.pwrite_slot (w : Wave) (n : Nat) (m b : LaneMask) : (w.pwrite n m b).slot = w.slot := rfl
@[simp] theorem Wave.pwrite_waveid (w : Wave) (n : Nat) (m b : LaneMask) : (w.pwrite n m b).waveid = w.waveid := rfl
@[simp] theorem Wave.pwrite_slices (w : Wave) (n : Nat) (m b : LaneMask) : (w.pwrite n m b).slices = w.slices := rfl
@[simp] theorem Wave.pwrite_present (w : Wave) (n : Nat) (m b : LaneMask) : (w.pwrite n m b).present = w.present := rfl
@[simp] theorem Wave.pwrite_vgran (w : Wave) (n : Nat) (m b : LaneMask) : (w.pwrite n m b).vgran = w.vgran := rfl
@[simp] theorem Wave.pwrite_v (w : Wave) (n : Nat) (m b : LaneMask) : (w.pwrite n m b).v = w.v := rfl
@[simp] theorem Wave.pwrite_vpoison (w : Wave) (n : Nat) (m b : LaneMask) : (w.pwrite n m b).vpoison = w.vpoison := rfl
@[simp] theorem Wave.pwrite_s (w : Wave) (n : Nat) (m b : LaneMask) : (w.pwrite n m b).s = w.s := rfl
@[simp] theorem Wave.pwrite_spoison (w : Wave) (n : Nat) (m b : LaneMask) : (w.pwrite n m b).spoison = w.spoison := rfl
@[simp] theorem Wave.pwrite_md (w : Wave) (n : Nat) (m b : LaneMask) : (w.pwrite n m b).md = w.md := rfl
@[simp] theorem Wave.pwrite_fx (w : Wave) (n : Nat) (m b : LaneMask) : (w.pwrite n m b).fx = w.fx := rfl
@[simp] theorem Wave.pwrite_flags (w : Wave) (n : Nat) (m b : LaneMask) : (w.pwrite n m b).flags = w.flags := rfl
@[simp] theorem Wave.pwrite_ot0 (w : Wave) (n : Nat) (m b : LaneMask) : (w.pwrite n m b).ot0 = w.ot0 := rfl
@[simp] theorem Wave.pwrite_ot1 (w : Wave) (n : Nat) (m b : LaneMask) : (w.pwrite n m b).ot1 = w.ot1 := rfl
@[simp] theorem Wave.pwrite_mp (w : Wave) (n : Nat) (m b : LaneMask) : (w.pwrite n m b).mp = w.mp := rfl
@[simp] theorem Wave.pwrite_mr (w : Wave) (n : Nat) (m b : LaneMask) : (w.pwrite n m b).mr = w.mr := rfl
@[simp] theorem Wave.pwrite_mrs (w : Wave) (n : Nat) (m b : LaneMask) : (w.pwrite n m b).mrs = w.mrs := rfl
@[simp] theorem Wave.pwrite_ab (w : Wave) (n : Nat) (m b : LaneMask) : (w.pwrite n m b).ab = w.ab := rfl
@[simp] theorem Wave.pwrite_al (w : Wave) (n : Nat) (m b : LaneMask) : (w.pwrite n m b).al = w.al := rfl
@[simp] theorem Wave.pwrite_lease (w : Wave) (n : Nat) (m b : LaneMask) : (w.pwrite n m b).lease = w.lease := rfl
@[simp] theorem Wave.pwrite_monitor (w : Wave) (n : Nat) (m b : LaneMask) : (w.pwrite n m b).monitor = w.monitor := rfl
@[simp] theorem Wave.pwrite_times (w : Wave) (n : Nat) (m b : LaneMask) : (w.pwrite n m b).times = w.times := rfl
@[simp] theorem Wave.pwrite_idem (w : Wave) (n : Nat) (m b : LaneMask) : (w.pwrite n m b).idem = w.idem := rfl
@[simp] theorem Wave.pwrite_side (w : Wave) (n : Nat) (m b : LaneMask) : (w.pwrite n m b).side = w.side := rfl
@[simp] theorem Wave.pwrite_priv (w : Wave) (n : Nat) (m b : LaneMask) : (w.pwrite n m b).priv = w.priv := rfl
@[simp] theorem Wave.pwrite_inHandler (w : Wave) (n : Nat) (m b : LaneMask) : (w.pwrite n m b).inHandler = w.inHandler := rfl
@[simp] theorem Wave.pwrite_hintValid (w : Wave) (n : Nat) (m b : LaneMask) : (w.pwrite n m b).hintValid = w.hintValid := rfl
@[simp] theorem Wave.pwrite_hint (w : Wave) (n : Nat) (m b : LaneMask) : (w.pwrite n m b).hint = w.hint := rfl
@[simp] theorem Wave.pwrite_trapped (w : Wave) (n : Nat) (m b : LaneMask) : (w.pwrite n m b).trapped = w.trapped := rfl
@[simp] theorem Wave.pwrite_saveSlot (w : Wave) (n : Nat) (m b : LaneMask) : (w.pwrite n m b).saveSlot = w.saveSlot := rfl
@[simp] theorem Wave.pwrite_due (w : Wave) (n : Nat) (m b : LaneMask) : (w.pwrite n m b).due = w.due := rfl
@[simp] theorem Wave.pwrite_causes (w : Wave) (n : Nat) (m b : LaneMask) : (w.pwrite n m b).causes = w.causes := rfl
@[simp] theorem Wave.pwrite_handling (w : Wave) (n : Nat) (m b : LaneMask) : (w.pwrite n m b).handling = w.handling := rfl
@[simp] theorem Wave.pwrite_replay (w : Wave) (n : Nat) (m b : LaneMask) : (w.pwrite n m b).replay = w.replay := rfl
@[simp] theorem Wave.pwrite_specials (w : Wave) (n : Nat) (m b : LaneMask) : (w.pwrite n m b).specials = w.specials := rfl
@[simp] theorem Wave.pwrite_memOps (w : Wave) (n : Nat) (m b : LaneMask) : (w.pwrite n m b).memOps = w.memOps := rfl
@[simp] theorem Wave.pwrite_seq (w : Wave) (n : Nat) (m b : LaneMask) : (w.pwrite n m b).seq = w.seq := rfl
@[simp] theorem Wave.pwrite_fencing (w : Wave) (n : Nat) (m b : LaneMask) : (w.pwrite n m b).fencing = w.fencing := rfl
@[simp] theorem Wave.pwrite_latch (w : Wave) (n : Nat) (m b : LaneMask) : (w.pwrite n m b).latch = w.latch := rfl
@[simp] theorem Wave.pwrite_frozen (w : Wave) (n : Nat) (m b : LaneMask) : (w.pwrite n m b).frozen = w.frozen := rfl
@[simp] theorem Wave.pwrite_stopped (w : Wave) (n : Nat) (m b : LaneMask) : (w.pwrite n m b).stopped = w.stopped := rfl
@[simp] theorem Wave.pwrite_ended (w : Wave) (n : Nat) (m b : LaneMask) : (w.pwrite n m b).ended = w.ended := rfl
@[simp] theorem Wave.pwrite_det (w : Wave) (n : Nat) (m b : LaneMask) : (w.pwrite n m b).det = w.det := rfl

@[simp] theorem Wave.raise_block (w : Wave) (f : BitVec 7) : (w.raise f).block = w.block := rfl
@[simp] theorem Wave.raise_index (w : Wave) (f : BitVec 7) : (w.raise f).index = w.index := rfl
@[simp] theorem Wave.raise_half (w : Wave) (f : BitVec 7) : (w.raise f).half = w.half := rfl
@[simp] theorem Wave.raise_func (w : Wave) (f : BitVec 7) : (w.raise f).func = w.func := rfl
@[simp] theorem Wave.raise_part (w : Wave) (f : BitVec 7) : (w.raise f).part = w.part := rfl
@[simp] theorem Wave.raise_core (w : Wave) (f : BitVec 7) : (w.raise f).core = w.core := rfl
@[simp] theorem Wave.raise_quad (w : Wave) (f : BitVec 7) : (w.raise f).quad = w.quad := rfl
@[simp] theorem Wave.raise_slot (w : Wave) (f : BitVec 7) : (w.raise f).slot = w.slot := rfl
@[simp] theorem Wave.raise_waveid (w : Wave) (f : BitVec 7) : (w.raise f).waveid = w.waveid := rfl
@[simp] theorem Wave.raise_slices (w : Wave) (f : BitVec 7) : (w.raise f).slices = w.slices := rfl
@[simp] theorem Wave.raise_present (w : Wave) (f : BitVec 7) : (w.raise f).present = w.present := rfl
@[simp] theorem Wave.raise_vgran (w : Wave) (f : BitVec 7) : (w.raise f).vgran = w.vgran := rfl
@[simp] theorem Wave.raise_v (w : Wave) (f : BitVec 7) : (w.raise f).v = w.v := rfl
@[simp] theorem Wave.raise_vpoison (w : Wave) (f : BitVec 7) : (w.raise f).vpoison = w.vpoison := rfl
@[simp] theorem Wave.raise_s (w : Wave) (f : BitVec 7) : (w.raise f).s = w.s := rfl
@[simp] theorem Wave.raise_spoison (w : Wave) (f : BitVec 7) : (w.raise f).spoison = w.spoison := rfl
@[simp] theorem Wave.raise_p (w : Wave) (f : BitVec 7) : (w.raise f).p = w.p := rfl
@[simp] theorem Wave.raise_md (w : Wave) (f : BitVec 7) : (w.raise f).md = w.md := rfl
@[simp] theorem Wave.raise_flags (w : Wave) (f : BitVec 7) : (w.raise f).flags = w.flags := rfl
@[simp] theorem Wave.raise_ot0 (w : Wave) (f : BitVec 7) : (w.raise f).ot0 = w.ot0 := rfl
@[simp] theorem Wave.raise_ot1 (w : Wave) (f : BitVec 7) : (w.raise f).ot1 = w.ot1 := rfl
@[simp] theorem Wave.raise_mp (w : Wave) (f : BitVec 7) : (w.raise f).mp = w.mp := rfl
@[simp] theorem Wave.raise_mr (w : Wave) (f : BitVec 7) : (w.raise f).mr = w.mr := rfl
@[simp] theorem Wave.raise_mrs (w : Wave) (f : BitVec 7) : (w.raise f).mrs = w.mrs := rfl
@[simp] theorem Wave.raise_ab (w : Wave) (f : BitVec 7) : (w.raise f).ab = w.ab := rfl
@[simp] theorem Wave.raise_al (w : Wave) (f : BitVec 7) : (w.raise f).al = w.al := rfl
@[simp] theorem Wave.raise_lease (w : Wave) (f : BitVec 7) : (w.raise f).lease = w.lease := rfl
@[simp] theorem Wave.raise_monitor (w : Wave) (f : BitVec 7) : (w.raise f).monitor = w.monitor := rfl
@[simp] theorem Wave.raise_times (w : Wave) (f : BitVec 7) : (w.raise f).times = w.times := rfl
@[simp] theorem Wave.raise_idem (w : Wave) (f : BitVec 7) : (w.raise f).idem = w.idem := rfl
@[simp] theorem Wave.raise_side (w : Wave) (f : BitVec 7) : (w.raise f).side = w.side := rfl
@[simp] theorem Wave.raise_priv (w : Wave) (f : BitVec 7) : (w.raise f).priv = w.priv := rfl
@[simp] theorem Wave.raise_inHandler (w : Wave) (f : BitVec 7) : (w.raise f).inHandler = w.inHandler := rfl
@[simp] theorem Wave.raise_hintValid (w : Wave) (f : BitVec 7) : (w.raise f).hintValid = w.hintValid := rfl
@[simp] theorem Wave.raise_hint (w : Wave) (f : BitVec 7) : (w.raise f).hint = w.hint := rfl
@[simp] theorem Wave.raise_trapped (w : Wave) (f : BitVec 7) : (w.raise f).trapped = w.trapped := rfl
@[simp] theorem Wave.raise_saveSlot (w : Wave) (f : BitVec 7) : (w.raise f).saveSlot = w.saveSlot := rfl
@[simp] theorem Wave.raise_due (w : Wave) (f : BitVec 7) : (w.raise f).due = w.due := rfl
@[simp] theorem Wave.raise_causes (w : Wave) (f : BitVec 7) : (w.raise f).causes = w.causes := rfl
@[simp] theorem Wave.raise_handling (w : Wave) (f : BitVec 7) : (w.raise f).handling = w.handling := rfl
@[simp] theorem Wave.raise_replay (w : Wave) (f : BitVec 7) : (w.raise f).replay = w.replay := rfl
@[simp] theorem Wave.raise_specials (w : Wave) (f : BitVec 7) : (w.raise f).specials = w.specials := rfl
@[simp] theorem Wave.raise_memOps (w : Wave) (f : BitVec 7) : (w.raise f).memOps = w.memOps := rfl
@[simp] theorem Wave.raise_seq (w : Wave) (f : BitVec 7) : (w.raise f).seq = w.seq := rfl
@[simp] theorem Wave.raise_fencing (w : Wave) (f : BitVec 7) : (w.raise f).fencing = w.fencing := rfl
@[simp] theorem Wave.raise_latch (w : Wave) (f : BitVec 7) : (w.raise f).latch = w.latch := rfl
@[simp] theorem Wave.raise_frozen (w : Wave) (f : BitVec 7) : (w.raise f).frozen = w.frozen := rfl
@[simp] theorem Wave.raise_stopped (w : Wave) (f : BitVec 7) : (w.raise f).stopped = w.stopped := rfl
@[simp] theorem Wave.raise_ended (w : Wave) (f : BitVec 7) : (w.raise f).ended = w.ended := rfl
@[simp] theorem Wave.raise_det (w : Wave) (f : BitVec 7) : (w.raise f).det = w.det := rfl

@[simp] theorem Wave.record_block (w : Wave) (l : List LaneCause) : (w.record l).block = w.block := rfl
@[simp] theorem Wave.record_index (w : Wave) (l : List LaneCause) : (w.record l).index = w.index := rfl
@[simp] theorem Wave.record_half (w : Wave) (l : List LaneCause) : (w.record l).half = w.half := rfl
@[simp] theorem Wave.record_func (w : Wave) (l : List LaneCause) : (w.record l).func = w.func := rfl
@[simp] theorem Wave.record_part (w : Wave) (l : List LaneCause) : (w.record l).part = w.part := rfl
@[simp] theorem Wave.record_core (w : Wave) (l : List LaneCause) : (w.record l).core = w.core := rfl
@[simp] theorem Wave.record_quad (w : Wave) (l : List LaneCause) : (w.record l).quad = w.quad := rfl
@[simp] theorem Wave.record_slot (w : Wave) (l : List LaneCause) : (w.record l).slot = w.slot := rfl
@[simp] theorem Wave.record_waveid (w : Wave) (l : List LaneCause) : (w.record l).waveid = w.waveid := rfl
@[simp] theorem Wave.record_slices (w : Wave) (l : List LaneCause) : (w.record l).slices = w.slices := rfl
@[simp] theorem Wave.record_present (w : Wave) (l : List LaneCause) : (w.record l).present = w.present := rfl
@[simp] theorem Wave.record_vgran (w : Wave) (l : List LaneCause) : (w.record l).vgran = w.vgran := rfl
@[simp] theorem Wave.record_v (w : Wave) (l : List LaneCause) : (w.record l).v = w.v := rfl
@[simp] theorem Wave.record_vpoison (w : Wave) (l : List LaneCause) : (w.record l).vpoison = w.vpoison := rfl
@[simp] theorem Wave.record_s (w : Wave) (l : List LaneCause) : (w.record l).s = w.s := rfl
@[simp] theorem Wave.record_spoison (w : Wave) (l : List LaneCause) : (w.record l).spoison = w.spoison := rfl
@[simp] theorem Wave.record_p (w : Wave) (l : List LaneCause) : (w.record l).p = w.p := rfl
@[simp] theorem Wave.record_md (w : Wave) (l : List LaneCause) : (w.record l).md = w.md := rfl
@[simp] theorem Wave.record_fx (w : Wave) (l : List LaneCause) : (w.record l).fx = w.fx := rfl
@[simp] theorem Wave.record_flags (w : Wave) (l : List LaneCause) : (w.record l).flags = w.flags := rfl
@[simp] theorem Wave.record_ot0 (w : Wave) (l : List LaneCause) : (w.record l).ot0 = w.ot0 := rfl
@[simp] theorem Wave.record_ot1 (w : Wave) (l : List LaneCause) : (w.record l).ot1 = w.ot1 := rfl
@[simp] theorem Wave.record_mp (w : Wave) (l : List LaneCause) : (w.record l).mp = w.mp := rfl
@[simp] theorem Wave.record_mr (w : Wave) (l : List LaneCause) : (w.record l).mr = w.mr := rfl
@[simp] theorem Wave.record_mrs (w : Wave) (l : List LaneCause) : (w.record l).mrs = w.mrs := rfl
@[simp] theorem Wave.record_ab (w : Wave) (l : List LaneCause) : (w.record l).ab = w.ab := rfl
@[simp] theorem Wave.record_al (w : Wave) (l : List LaneCause) : (w.record l).al = w.al := rfl
@[simp] theorem Wave.record_lease (w : Wave) (l : List LaneCause) : (w.record l).lease = w.lease := rfl
@[simp] theorem Wave.record_monitor (w : Wave) (l : List LaneCause) : (w.record l).monitor = w.monitor := rfl
@[simp] theorem Wave.record_times (w : Wave) (l : List LaneCause) : (w.record l).times = w.times := rfl
@[simp] theorem Wave.record_idem (w : Wave) (l : List LaneCause) : (w.record l).idem = w.idem := rfl
@[simp] theorem Wave.record_side (w : Wave) (l : List LaneCause) : (w.record l).side = w.side := rfl
@[simp] theorem Wave.record_priv (w : Wave) (l : List LaneCause) : (w.record l).priv = w.priv := rfl
@[simp] theorem Wave.record_inHandler (w : Wave) (l : List LaneCause) : (w.record l).inHandler = w.inHandler := rfl
@[simp] theorem Wave.record_hintValid (w : Wave) (l : List LaneCause) : (w.record l).hintValid = w.hintValid := rfl
@[simp] theorem Wave.record_hint (w : Wave) (l : List LaneCause) : (w.record l).hint = w.hint := rfl
@[simp] theorem Wave.record_trapped (w : Wave) (l : List LaneCause) : (w.record l).trapped = w.trapped := rfl
@[simp] theorem Wave.record_saveSlot (w : Wave) (l : List LaneCause) : (w.record l).saveSlot = w.saveSlot := rfl
@[simp] theorem Wave.record_due (w : Wave) (l : List LaneCause) : (w.record l).due = w.due := rfl
@[simp] theorem Wave.record_handling (w : Wave) (l : List LaneCause) : (w.record l).handling = w.handling := rfl
@[simp] theorem Wave.record_replay (w : Wave) (l : List LaneCause) : (w.record l).replay = w.replay := rfl
@[simp] theorem Wave.record_specials (w : Wave) (l : List LaneCause) : (w.record l).specials = w.specials := rfl
@[simp] theorem Wave.record_memOps (w : Wave) (l : List LaneCause) : (w.record l).memOps = w.memOps := rfl
@[simp] theorem Wave.record_seq (w : Wave) (l : List LaneCause) : (w.record l).seq = w.seq := rfl
@[simp] theorem Wave.record_fencing (w : Wave) (l : List LaneCause) : (w.record l).fencing = w.fencing := rfl
@[simp] theorem Wave.record_latch (w : Wave) (l : List LaneCause) : (w.record l).latch = w.latch := rfl
@[simp] theorem Wave.record_frozen (w : Wave) (l : List LaneCause) : (w.record l).frozen = w.frozen := rfl
@[simp] theorem Wave.record_stopped (w : Wave) (l : List LaneCause) : (w.record l).stopped = w.stopped := rfl
@[simp] theorem Wave.record_ended (w : Wave) (l : List LaneCause) : (w.record l).ended = w.ended := rfl
@[simp] theorem Wave.record_det (w : Wave) (l : List LaneCause) : (w.record l).det = w.det := rfl

end Sys2Proof.Machine
end

