-- ==== Sys2Proof/Laws/Access.lean ====
section
/-! SUPPORT. What an access does when it issues: its one spec lemma outside deterministic launches, and the case in
which its gang waits. -/

namespace Sys2Proof.Machine

set_option Elab.async false

@[simp] theorem Wave.flagUp_none (w : Wave) : w.flagUp none = w := rfl

/-- An access that another gang's fence or an acquire holds back waits (R250, R251). -/
theorem Ctx.access_held {s : State} {c : Ctx} (hh : c.accessHeld = true) (kind : MemKind) (size : Nat)
    (sx ret cnt marks : Bool) (asks : List Ask) (mk : Granted → List MemUnit) :
    c.access s kind size sx ret cnt marks asks mk = .stall := by
  unfold Ctx.access
  rw [hh]
  rfl

/-- Outside a deterministic launch, an access that nothing holds back waits for its request slots (R289). -/
theorem Ctx.access_full {s : State} {c : Ctx} (hd : c.w.isDet = false) (hh : c.accessHeld = false) (kind : MemKind)
    (size : Nat) (sx ret cnt marks : Bool) (asks : List Ask) (mk : Granted → List MemUnit)
    (hs : s.slotsFree c.w (c.newOp kind size sx ret cnt ((s.checkAll c.w c.blk c.src asks).1.flatMap mk)) = false) :
    c.access s kind size sx ret cnt marks asks mk = .stall := by
  have hd' : c.w.det = none := by simpa [Wave.isDet] using hd
  simp [Ctx.access, hh, Ctx.prepare, Ctx.awaitWalks, hd, hd', hs]

/-- Outside a deterministic launch, an access that nothing holds back records the causes of the lanes that fail their
checks, and its units join the wave's outstanding accesses and leave the core (R260, R288); with no unit and no flag there is none. -/
theorem Ctx.access_issues {s : State} {c : Ctx} (hd : c.w.isDet = false) (hh : c.accessHeld = false) (kind : MemKind)
    (size : Nat) (sx ret cnt marks : Bool) (asks : List Ask) (mk : Granted → List MemUnit)
    (hs : s.slotsFree c.w (c.newOp kind size sx ret cnt ((s.checkAll c.w c.blk c.src asks).1.flatMap mk)) = true) :
    c.access s kind size sx ret cnt marks asks mk =
      .next ((s.modWave c.key (fun w =>
        { ((if marks then c.sideEffect asks w else w).record (s.checkAll c.w c.blk c.src asks).2).flagUp
            (if cnt then hdrSetA c.src.hdr else none) with
          memOps := w.memOps ++ if (s.checkAll c.w c.blk c.src asks).1.flatMap mk = [] ∧ cnt = false then []
            else [c.newOp kind size sx ret cnt ((s.checkAll c.w c.blk c.src asks).1.flatMap mk)] })).depart c.key) := by
  have hd' : c.w.det = none := by simpa [Wave.isDet] using hd
  have hu : (c.newOp kind size sx ret cnt ((s.checkAll c.w c.blk c.src asks).1.flatMap mk)).units =
    (s.checkAll c.w c.blk c.src asks).1.flatMap mk := rfl
  have hf : (c.newOp kind size sx ret cnt ((s.checkAll c.w c.blk c.src asks).1.flatMap mk)).flag =
    if cnt then hdrSetA c.src.hdr else none := rfl
  simp only [Ctx.access, hh, Ctx.prepare, Ctx.awaitWalks, hd, hd', hs, hu, hf, Bool.false_eq_true, Bool.not_true, if_false,
    List.isEmpty_iff, Bool.and_eq_true, Bool.not_eq_true']

/-- The mark of a store or atomic to global memory on its wave (R265, R365). -/
theorem Ctx.sideEffect_eq (c : Ctx) (asks : List Ask) (w : Wave) :
    c.sideEffect asks w =
      let side := asks.any (fun x => x.addr / 2 ^ 56 == 0 && c.act != 0)
      { w with idem := w.idem && !side, side := w.side || side } := by
  have h : (fun x : Ask => x.addr / 2 ^ 56 == 0 && !(c.act == 0)) = (fun x => x.addr / 2 ^ 56 == 0 && c.act != 0) := by
    funext x
    rfl
  simp only [Ctx.sideEffect, h]
  cases asks.any (fun x => x.addr / 2 ^ 56 == 0 && c.act != 0) <;> simp

@[simp] theorem Wave.record_nil (w : Wave) : w.record [] = w := rfl

/-- A deterministic wave's access that needs a walk sends its misses and waits (R233). -/
theorem Ctx.access_det_walks {s t : State} {c : Ctx} {asks : List Ask} (hh : c.accessHeld = false)
    (ha : c.awaitWalks s asks = some t) (kind : MemKind) (size : Nat) (sx returns counted marks : Bool)
    (mk : Granted → List MemUnit) : c.access s kind size sx returns counted marks asks mk = .hold t := by
  simp [Ctx.access, hh, ha]

/-- A load of a deterministic wave, translated, obtains at once what its wave may see, where no line that it reads is
poisoned, and comes back in a later tick (R31, R387). -/
theorem Ctx.access_det_load {s : State} {c : Ctx} {d : DetWave} (hd : c.w.det = some d) (hh : c.accessHeld = false)
    (strong acquire : Bool) (size : Nat) (sx returns counted marks : Bool) (asks : List Ask) (mk : Granted → List MemUnit)
    (ha : c.awaitWalks s asks = none) :
    let q := c.prepare s true asks
    let o := c.newOp (.load strong acquire) size sx returns counted (q.2.1.flatMap mk)
    let view := q.1.detView c.w.core d
    let units := o.units.map (MemUnit.viewed view s.time)
    (∀ u ∈ o.units, view.lineEmpty u.loc = true ∨ view.poisoned u.loc = false) →
    c.access s (.load strong acquire) size sx returns counted marks asks mk =
      .next (q.1.modWave c.key (fun w =>
        let w := ((if marks then c.sideEffect asks w else w).record q.2.2).flagUp o.flag
        { w with memOps := w.memOps ++ if units.isEmpty && !counted then [] else [{ o with units := units }] })) := by
  intro q o view units h
  have hw : o.units.filter (fun u => !view.lineEmpty u.loc && view.poisoned u.loc) = [] :=
    List.filter_eq_nil_iff.2 (fun u hu => by rcases h u hu with h | h <;> simp [h])
  unfold Ctx.access
  simp only [hh, Bool.false_eq_true, if_false, hd, ha, show MemKind.reads (.load strong acquire) = true from rfl]
  simp only [show c.prepare s true asks = q from rfl,
    show c.newOp (.load strong acquire) size sx returns counted (q.2.1.flatMap mk) = o from rfl,
    show q.1.detView c.w.core d = view from rfl]
  simp only [hw, List.any_nil, Bool.not_false, List.filter_true, List.map_nil, Wave.record_nil]
  rfl

/-- A posted access of a deterministic wave, translated, joins its commit buffer when its lines fit, and else ends the
quantum (R386, R387). -/
theorem Ctx.access_det_buffers {s : State} {c : Ctx} {d : DetWave} (hd : c.w.det = some d) (hh : c.accessHeld = false)
    (kind : MemKind) (hk : ∀ x y, kind ≠ .load x y) (size : Nat) (sx returns counted marks : Bool) (asks : List Ask)
    (mk : Granted → List MemUnit) (ha : c.awaitWalks s asks = none)
    (h : returns = true ∨ ∃ u ∈ (c.prepare s kind.reads asks).2.1.flatMap mk, ∀ x, u.loc ≠ .priv x) :
    let q := c.prepare s kind.reads asks
    let o := c.newOp kind size sx returns counted (q.2.1.flatMap mk)
    c.access s kind size sx returns counted marks asks mk =
      if d.overflows o.units then .hold (s.modWave c.key Wave.endQuantum)
      else .next (q.1.modWave c.key (fun w =>
        let w := ((if marks then c.sideEffect asks w else w).record q.2.2).flagUp (if returns then o.flag else none)
        { w with det := w.det.map (fun d => { d with buffer := d.buffer ++ [.mem o] }) })) := by
  intro q o
  have hp : (o.units.all (fun u => match u.loc with
      | .priv _ => true
      | _ => false) && !returns) = false := by
    rcases h with rfl | ⟨u, hu, hx⟩
    · simp
    · rw [Bool.and_eq_false_iff]
      refine .inl (List.all_eq_false.2 ⟨u, hu, ?_⟩)
      split
      · exact absurd ‹_› (hx _)
      · simp
  unfold Ctx.access
  cases kind <;> first
    | exact absurd rfl (hk _ _)
    | (simp only [hh, hd, ha, Bool.false_eq_true, if_false]
       exact if_neg (fun hA => Bool.false_ne_true (hp.symm.trans hA)))

/-- Before an instruction that a commit must precede, a deterministic wave ends its quantum once (R386). -/
theorem Ctx.afterQuantum_past {c : Ctx} (h : ∀ e, c.w.det = some e → e.past = some c.gang) (s : State) (r : Res) :
    c.afterQuantum s r = r := by
  unfold Ctx.afterQuantum
  split
  · rfl
  · exact if_pos (h _ ‹_›)

theorem Ctx.afterQuantum_ends {c : Ctx} {e : DetWave} (he : c.w.det = some e) (h : e.past ≠ some c.gang) (s : State)
    (r : Res) : c.afterQuantum s r = .hold (s.modWave c.key (fun w =>
      { w with det := w.det.map (fun d => { d with ended := true, past := some c.gang }) })) := by
  unfold Ctx.afterQuantum
  simp only [he, if_neg h]

end Sys2Proof.Machine
end

