-- ==== Sys2Proof/Laws/Decode.lean ====
section
/-! SUPPORT. The fields of a word and the operand codes: what the encoder puts together the decoder takes apart,
and the other way round. -/

namespace Sys2Proof

set_option Elab.async false

/-! ## Fields of a word (R35) -/

@[simp] theorem fieldOp_wordOf (op d a b : BitVec 8) : fieldOp (wordOf op d a b) = op := by
  apply BitVec.eq_of_getLsbD_eq
  intro i hi
  simp only [fieldOp, wordOf, BitVec.getLsbD_extractLsb', BitVec.getLsbD_append, hi, decide_true, Bool.true_and]
  repeat' split
  all_goals first
    | omega
    | (congr 1; omega)

@[simp] theorem fieldD_wordOf (op d a b : BitVec 8) : fieldD (wordOf op d a b) = d := by
  apply BitVec.eq_of_getLsbD_eq
  intro i hi
  simp only [fieldD, wordOf, BitVec.getLsbD_extractLsb', BitVec.getLsbD_append, hi, decide_true, Bool.true_and]
  repeat' split
  all_goals first
    | omega
    | (congr 1; omega)

@[simp] theorem fieldA_wordOf (op d a b : BitVec 8) : fieldA (wordOf op d a b) = a := by
  apply BitVec.eq_of_getLsbD_eq
  intro i hi
  simp only [fieldA, wordOf, BitVec.getLsbD_extractLsb', BitVec.getLsbD_append, hi, decide_true, Bool.true_and]
  repeat' split
  all_goals first
    | omega
    | (congr 1; omega)

@[simp] theorem fieldB_wordOf (op d a b : BitVec 8) : fieldB (wordOf op d a b) = b := by
  apply BitVec.eq_of_getLsbD_eq
  intro i hi
  simp only [fieldB, wordOf, BitVec.getLsbD_extractLsb', BitVec.getLsbD_append, hi, decide_true, Bool.true_and]
  repeat' split
  all_goals first
    | omega
    | (congr 1; omega)

/-- A word is its four fields. -/
theorem wordOf_fields (w : Word) : wordOf (fieldOp w) (fieldD w) (fieldA w) (fieldB w) = w := by
  apply BitVec.eq_of_getLsbD_eq
  intro i hi
  simp only [fieldOp, fieldD, fieldA, fieldB, wordOf, BitVec.getLsbD_extractLsb', BitVec.getLsbD_append]
  by_cases h0 : i < 8
  · simp [h0]
  · by_cases h1 : i - 8 < 8
    · simp [h0, h1, show 8 + (i - 8) = i by omega]
    · by_cases h2 : i - 8 - 8 < 8
      · simp [h0, h1, h2, show 16 + (i - 8 - 8) = i by omega]
      · simp [h0, h1, h2, show i - 8 - 8 - 8 < 8 by omega, show 24 + (i - 8 - 8 - 8) = i by omega]

/-- The decoder on a word given by its fields. -/
theorem decode_wordOf (op d a b : BitVec 8) : decode (wordOf op d a b) = decodeFields op d a b (wordOf op d a b) := by
  simp [decode]

/-! ## Operand codes (R36, R39) -/

@[simp] theorem VCode.ofByte_toByte (c : VCode) : VCode.ofByte c.toByte = c := by
  cases c with
  | v n => revert n; decide +kernel
  | s n => revert n; decide +kernel
  | lit n => revert n; decide +kernel
  | p n => revert n; decide +kernel
  | bad n => revert n; decide +kernel
  | _ => decide +kernel

@[simp] theorem VCode.toByte_ofByte (c : BitVec 8) : (VCode.ofByte c).toByte = c := by
  revert c; decide +kernel

@[simp] theorem SCode.ofByte_toByte (c : SCode) : SCode.ofByte c.toByte = c := by
  cases c with
  | s n => revert n; decide +kernel
  | gap n => revert n; decide +kernel
  | lit n => revert n; decide +kernel
  | special n => revert n; decide +kernel
  | top n => revert n; decide +kernel
  | _ => decide +kernel

@[simp] theorem SCode.toByte_ofByte (c : BitVec 8) : (SCode.ofByte c).toByte = c := by
  revert c; decide +kernel

/-- A vector-class code is the code of one byte only. -/
theorem VCode.toByte_injective {x y : VCode} (h : x.toByte = y.toByte) : x = y := by
  rw [← VCode.ofByte_toByte x, h, VCode.ofByte_toByte]

/-- A scalar-class code is the code of one byte only. -/
theorem SCode.toByte_injective {x y : SCode} (h : x.toByte = y.toByte) : x = y := by
  rw [← SCode.ofByte_toByte x, h, SCode.ofByte_toByte]

/-! ## Direct fields (R35) -/

@[simp] theorem fits_setWidth_1 (x : BitVec 1) : fits 1 (x.setWidth 8) = true := by revert x; decide +kernel
@[simp] theorem extract_setWidth_1 (x : BitVec 1) : (x.setWidth 8).extractLsb' 0 1 = x := by revert x; decide +kernel
@[simp] theorem fits_setWidth_2 (x : BitVec 2) : fits 2 (x.setWidth 8) = true := by revert x; decide +kernel
@[simp] theorem extract_setWidth_2 (x : BitVec 2) : (x.setWidth 8).extractLsb' 0 2 = x := by revert x; decide +kernel
@[simp] theorem fits_setWidth_3 (x : BitVec 3) : fits 3 (x.setWidth 8) = true := by revert x; decide +kernel
@[simp] theorem extract_setWidth_3 (x : BitVec 3) : (x.setWidth 8).extractLsb' 0 3 = x := by revert x; decide +kernel
@[simp] theorem fits_setWidth_4 (x : BitVec 4) : fits 4 (x.setWidth 8) = true := by revert x; decide +kernel
@[simp] theorem extract_setWidth_4 (x : BitVec 4) : (x.setWidth 8).extractLsb' 0 4 = x := by revert x; decide +kernel
@[simp] theorem fits_setWidth_5 (x : BitVec 5) : fits 5 (x.setWidth 8) = true := by revert x; decide +kernel
@[simp] theorem extract_setWidth_5 (x : BitVec 5) : (x.setWidth 8).extractLsb' 0 5 = x := by revert x; decide +kernel
@[simp] theorem fits_zero (n : Nat) : fits n 0#8 = true := by simp [fits]

/-- A memory word's direct field: SX, X and W (R259). -/
@[simp] theorem memField_zero (sx : Bool) (w : BitVec 3) : (BitVec.ofBool sx ++ 0#4 ++ w).extractLsb' 3 4 = 0#4 := by
  revert sx w; decide +kernel
@[simp] theorem memField_sx (sx : Bool) (w : BitVec 3) : (BitVec.ofBool sx ++ 0#4 ++ w)[7] = sx := by
  revert sx w; decide +kernel
@[simp] theorem memField_w (sx : Bool) (w : BitVec 3) : (BitVec.ofBool sx ++ 0#4 ++ w).extractLsb' 0 3 = w := by
  revert sx w; decide +kernel
@[simp] theorem clusterField_zero (sx x : Bool) (w : BitVec 3) :
    (BitVec.ofBool sx ++ BitVec.ofBool x ++ 0#3 ++ w).extractLsb' 3 3 = 0#3 := by
  revert sx x w; decide +kernel
@[simp] theorem clusterField_sx (sx x : Bool) (w : BitVec 3) :
    (BitVec.ofBool sx ++ BitVec.ofBool x ++ 0#3 ++ w)[7] = sx := by
  revert sx x w; decide +kernel
@[simp] theorem clusterField_x (sx x : Bool) (w : BitVec 3) :
    (BitVec.ofBool sx ++ BitVec.ofBool x ++ 0#3 ++ w)[6] = x := by
  revert sx x w; decide +kernel
@[simp] theorem clusterField_w (sx x : Bool) (w : BitVec 3) :
    (BitVec.ofBool sx ++ BitVec.ofBool x ++ 0#3 ++ w).extractLsb' 0 3 = w := by
  revert sx x w; decide +kernel

@[simp] theorem storeField_zero (x : Bool) (w : BitVec 3) :
    (0#1 ++ BitVec.ofBool x ++ 0#3 ++ w).extractLsb' 3 3 = 0#3 := by
  revert x w; decide +kernel
@[simp] theorem storeField_top (x : Bool) (w : BitVec 3) :
    (0#1 ++ BitVec.ofBool x ++ 0#3 ++ w).extractLsb' 7 1 = 0#1 := by
  revert x w; decide +kernel
@[simp] theorem storeField_x (x : Bool) (w : BitVec 3) : (0#1 ++ BitVec.ofBool x ++ 0#3 ++ w)[6] = x := by
  revert x w; decide +kernel
@[simp] theorem storeField_w (x : Bool) (w : BitVec 3) :
    (0#1 ++ BitVec.ofBool x ++ 0#3 ++ w).extractLsb' 0 3 = w := by
  revert x w; decide +kernel

/-- Two parts of a direct field that spans two bytes. -/
@[simp] theorem halves_12 (x : BitVec 12) : x.extractLsb' 8 4 ++ x.extractLsb' 0 8 = x := by
  revert x; decide +kernel
@[simp] theorem halves_16 (x : BitVec 16) : x.extractLsb' 8 8 ++ x.extractLsb' 0 8 = x := by
  apply BitVec.eq_of_getLsbD_eq
  intro i hi
  rw [BitVec.getLsbD_append]
  by_cases h : i < 8
  · simp [h]
  · simp [h, show 8 + (i - 8) = i by omega, show i - 8 < 8 by omega]

/-- PHINT's first field (R368). -/
@[simp] theorem hintField (k : BitVec 2) : (0x38#6 ++ k).extractLsb' 2 6 = 0x38#6 := by revert k; decide +kernel
@[simp] theorem hintField_low (k : BitVec 2) : (0x38#6 ++ k).extractLsb' 0 2 = k := by revert k; decide +kernel

/-! ## Reserved opcodes (R49) -/

/-- The opcodes that R49 reserves, one by one. -/
theorem opcodeReserved_iff (op : BitVec 8) : opcodeReserved op = true ↔
    op ∈ ([0x1F, 0x7F, 0x9E, 0x9F, 0xAC, 0xAD, 0xAE, 0xAF, 0xBC, 0xBD, 0xBE, 0xBF, 0xCE, 0xCF] : List (BitVec 8)) ∨
      0xD8 ≤ op.toNat := by
  revert op; decide +kernel

/-- A word of a reserved opcode is RESERVED_OPCODE, whatever its other fields (R49). -/
theorem decodeFields_reserved {op : BitVec 8} (h : opcodeReserved op = true) (d a b : BitVec 8) (w : Word) :
    decodeFields op d a b w = .ok (.reservedOpcode w) := by
  rcases (opcodeReserved_iff op).1 h with h | h
  · simp only [List.mem_cons, List.not_mem_nil, or_false] at h
    rcases h with rfl | rfl | rfl | rfl | rfl | rfl | rfl | rfl | rfl | rfl | rfl | rfl | rfl | rfl <;> rfl
  · unfold decodeFields
    have h2 := op.isLt
    split <;> first
      | omega
      | rfl
      | (unfold decodeRowD; split <;> first | omega | rfl)

end Sys2Proof
end

