-- ==== Sys2Proof/Laws/Exec.lean ====
section
/-! SUPPORT. Every encoded word is one issue behind its checks, and every event has a next state. -/

namespace Sys2Proof.Machine

set_option Elab.async false

/-- An encoded word of the table other than a reserved opcode is issued behind the checks of `checksOf`. -/
theorem exec_encoded (i : Instr) (h : i.encoded = true) (hr : ∀ w, i ≠ .reservedOpcode w) :
    ∃ f : State → Ctx → Res, ∀ s, exec i s = issueChecked s (checksOf i) (f s) := by
  cases i <;> first
    | exact ⟨_, fun _ => rfl⟩
    | exact absurd rfl (hr _)
    | cases h

/-- An event always has a next state. -/
theorem exec_event (i : Instr) (h : i.encoded = false) (s : State) : ∃ t, exec i s = .next t := by
  cases i <;> first
    | exact ⟨_, rfl⟩
    | cases h

/-- The machine goes on after every word of a picked gang. -/
theorem exec_goes_on (i : Instr) {s : State} {c : Ctx} (h : s.ctx? = some c) : ∃ t, exec i s = .next t := by
  by_cases he : i.encoded = true
  · by_cases hr : ∃ w, i = .reservedOpcode w
    · obtain ⟨w, rfl⟩ := hr
      exact ⟨_, issue_some h _⟩
    · obtain ⟨f, hf⟩ := exec_encoded i he (fun w hw => hr ⟨w, hw⟩)
      exact ⟨_, (hf s).trans (issue_some h _)⟩
  · exact exec_event i (by simpa using he) s

end Sys2Proof.Machine
end

