-- ==== Sys2Proof/Laws/Movers.lean ====
section
/-! SUPPORT. What one move of a quiet step does: an event of the package, the oldest input, time that passes, or a
copy dropped; and that every step goes on. -/

namespace Sys2Proof.Machine

set_option Elab.async false

/-- A free walker's start changes only the walks and the next identifier. -/
theorem State.startWalk_eq (s : State) : ∃ (walks : List PageWalk) (n : Nat), s.startWalk = { s with walks := walks, nextId := n } := by
  unfold State.startWalk
  dsimp only
  generalize (sortOn _ _).head? = r
  obtain _ | ⟨a, b, f, page⟩ := r
  · exact ⟨s.walks, s.nextId, rfl⟩
  dsimp only
  split
  all_goals first
    | exact ⟨s.walks, s.nextId, rfl⟩
    | exact ⟨_, _, rfl⟩

/-- A move is an event, the oldest input, one tick that passes, news that reaches a wave, a walk's progress, or a drop of
copies. -/
theorem Move.run_cases (m : Move) (s : State) : (∃ i : Instr, i.encoded = false ∧ m.run s = exec i s) ∨
    m.run s = s.takeInput ∨ m.run s = .next s.tick.tryGangs ∨ (∃ k, m.run s = .next (s.wakeWave k)) ∨
    ∃ (cores : Table CoreState) (dies : List Die) (walks : List PageWalk) (n : Nat),
      m.run s = .next { s with cores := cores, dies := dies, walks := walks, nextId := n } := by
  cases m with
  | issuePick core quad => exact .inl ⟨.issuePick core quad, rfl, rfl⟩
  | clauseBegin wave slice => exact .inl ⟨.clauseBegin wave slice, rfl, rfl⟩
  | fetchFill wave slice => exact .inl ⟨.fetchFill wave slice, rfl, rfl⟩
  | regangRelease wave => exact .inl ⟨.regangRelease wave, rfl, rfl⟩
  | rejoinDeadlock wave => exact .inl ⟨.rejoinDeadlock wave, rfl, rfl⟩
  | barrierComplete block cluster id => exact .inl ⟨.barrierComplete block cluster id, rfl, rfl⟩
  | specialComplete wave op => exact .inl ⟨.specialComplete wave op, rfl, rfl⟩
  | loadComplete wave op unit => exact .inl ⟨.loadComplete wave op unit, rfl, rfl⟩
  | homeArrival wave op unit => exact .inl ⟨.homeArrival wave op unit, rfl, rfl⟩
  | storeAck wave op unit => exact .inl ⟨.storeAck wave op unit, rfl, rfl⟩
  | fillArrival fill => exact .inl ⟨.fillArrival fill, rfl, rfl⟩
  | leaseExpiry l2 owner line => exact .inl ⟨.leaseExpiry l2 owner line, rfl, rfl⟩
  | monRegistration wave => exact .inl ⟨.monRegistration wave, rfl, rfl⟩
  | feWaitTimeout who => exact .inl ⟨.feWaitTimeout who, rfl, rfl⟩
  | mwaitLimitExpiry wave slice => exact .inl ⟨.mwaitLimitExpiry wave slice, rfl, rfl⟩
  | barwtLimitExpiry wave slice => exact .inl ⟨.barwtLimitExpiry wave slice, rfl, rfl⟩
  | pageWalkComplete func page => exact .inl ⟨.pageWalkComplete func page, rfl, rfl⟩
  | tileAccept core => exact .inl ⟨.tileAccept core, rfl, rfl⟩
  | kstepComplete block half op => exact .inl ⟨.kstepComplete block half op, rfl, rfl⟩
  | tileOpComplete block half op => exact .inl ⟨.tileOpComplete block half op, rfl, rfl⟩
  | trapDelivery wave => exact .inl ⟨.trapDelivery wave, rfl, rfl⟩
  | blockPlace part => exact .inl ⟨.blockPlace part, rfl, rfl⟩
  | taskWaveEmit die grid entry => exact .inl ⟨.taskWaveEmit die grid entry, rfl, rfl⟩
  | gridComplete grid => exact .inl ⟨.gridComplete grid, rfl, rfl⟩
  | preempt grid => exact .inl ⟨.preempt grid, rfl, rfl⟩
  | cairnPublish unit => exact .inl ⟨.cairnPublish unit, rfl, rfl⟩
  | cairnResume unit => exact .inl ⟨.cairnResume unit, rfl, rfl⟩
  | roundEnd grid => exact .inl ⟨.roundEnd grid, rfl, rfl⟩
  | bucketRefill engine func => exact .inl ⟨.bucketRefill engine func, rfl, rfl⟩
  | segmentPerform id => exact .inl ⟨.segmentPerform id, rfl, rfl⟩
  | chainRecordFetch id => exact .inl ⟨.chainRecordFetch id, rfl, rfl⟩
  | esndInject id => exact .inl ⟨.esndInject id, rfl, rfl⟩
  | ercvAccept id => exact .inl ⟨.ercvAccept id, rfl, rfl⟩
  | recordStart f q => exact .inl ⟨.recordStart f q, rfl, rfl⟩
  | launchGrid f q n => exact .inl ⟨.launchGrid f q n, rfl, rfl⟩
  | runPlat f q n => exact .inl ⟨.runPlat f q n, rfl, rfl⟩
  | bundle f q n => exact .inl ⟨.bundle f q n, rfl, rfl⟩
  | copyChain f q n => exact .inl ⟨.copyChain f q n, rfl, rfl⟩
  | modload f q n => exact .inl ⟨.modload f q n, rfl, rfl⟩
  | modunload f q n => exact .inl ⟨.modunload f q n, rfl, rfl⟩
  | moduleRelease part handle => exact .inl ⟨.moduleRelease part handle, rfl, rfl⟩
  | signal f q n => exact .inl ⟨.signal f q n, rfl, rfl⟩
  | waitValue f q n => exact .inl ⟨.waitValue f q n, rfl, rfl⟩
  | waitValuePoll f q n => exact .inl ⟨.waitValuePoll f q n, rfl, rfl⟩
  | waitValueTimeout f q n => exact .inl ⟨.waitValueTimeout f q n, rfl, rfl⟩
  | ctxSave f q n => exact .inl ⟨.ctxSave f q n, rfl, rfl⟩
  | ctxRestore f q n => exact .inl ⟨.ctxRestore f q n, rfl, rfl⟩
  | ctxAbort f q n => exact .inl ⟨.ctxAbort f q n, rfl, rfl⟩
  | nodeIssue inst => exact .inl ⟨.nodeIssue inst, rfl, rfl⟩
  | nodeComplete inst node => exact .inl ⟨.nodeComplete inst node, rfl, rfl⟩
  | nodeFault inst node => exact .inl ⟨.nodeFault inst node, rfl, rfl⟩
  | nodeRearm inst node => exact .inl ⟨.nodeRearm inst node, rfl, rfl⟩
  | platToken id => exact .inl ⟨.platToken id, rfl, rfl⟩
  | replicaMessage m => exact .inl ⟨.replicaMessage m, rfl, rfl⟩
  | replicaTimeout inst node => exact .inl ⟨.replicaTimeout inst node, rfl, rfl⟩
  | uploadComplete => exact .inl ⟨.uploadComplete, rfl, rfl⟩
  | eventRecordWrite f => exact .inl ⟨.eventRecordWrite f, rfl, rfl⟩
  | readyTimeout => exact .inl ⟨.readyTimeout, rfl, rfl⟩
  | hbmScrub mem => exact .inl ⟨.hbmScrub mem, rfl, rfl⟩
  | switchOut f => exact .inl ⟨.switchOut f, rfl, rfl⟩
  | switchIn f => exact .inl ⟨.switchIn f, rfl, rfl⟩
  | dieErrorReset die => exact .inl ⟨.dieErrorReset die, rfl, rfl⟩
  | powerSample p => exact .inl ⟨.powerSample p, rfl, rfl⟩
  | thermalTrip die => exact .inl ⟨.thermalTrip die, rfl, rfl⟩
  | wake wave => exact .inr (.inr (.inr (.inl ⟨wave, rfl⟩)))
  | packetArrival input pkt => exact .inl ⟨.packetArrival input pkt, rfl, rfl⟩
  | beaconSend link => exact .inl ⟨.beaconSend link, rfl, rfl⟩
  | beaconArrival input w => exact .inl ⟨.beaconArrival input w, rfl, rfl⟩
  | watermarkStall input => exact .inl ⟨.watermarkStall input, rfl, rfl⟩
  | timeBeacon port => exact .inl ⟨.timeBeacon port, rfl, rfl⟩
  | ercvComplete id => exact .inl ⟨.ercvComplete id, rfl, rfl⟩
  | takeInput => exact .inr (.inl rfl)
  | startWalk =>
    obtain ⟨walks, n, h⟩ := s.startWalk_eq
    exact .inr (.inr (.inr (.inr ⟨s.cores, s.dies, walks, n, by simp only [Move.run, h]⟩)))
  | readWalk id => exact .inr (.inr (.inr (.inr ⟨_, _, _, _, rfl⟩)))
  | pass => exact .inr (.inr (.inl rfl))
  | dropL1 core line => exact .inr (.inr (.inr (.inr ⟨_, _, _, _, rfl⟩)))
  | dropL2 die line => exact .inr (.inr (.inr (.inr ⟨_, _, _, _, rfl⟩)))
  | dropReads core => exact .inr (.inr (.inr (.inr ⟨_, _, _, _, rfl⟩)))
  | dropTlb core i => exact .inr (.inr (.inr (.inr ⟨_, _, _, _, rfl⟩)))
  | dropL2Tlb die i => exact .inr (.inr (.inr (.inr ⟨_, _, _, _, rfl⟩)))

/-- Taking an input goes on. -/
theorem State.takeInput_goes_on (s : State) (h : ∀ (i : Instr) (t : State), Instr.fromOutside i = true → ∃ u, exec i t = .next u) :
    ∃ t, s.takeInput = .next t := by
  unfold State.takeInput
  split
  · exact ⟨_, rfl⟩
  · split
    · exact ⟨_, rfl⟩
    · simp only
      split
      · exact h _ _ ‹_›
      · exact ⟨_, rfl⟩

/-- An input from outside is an event. -/
theorem Instr.fromOutside_event (i : Instr) (h : Instr.fromOutside i = true) : i.encoded = false := by
  cases i <;> first
    | rfl
    | cases h

/-- Every move goes on. -/
theorem Move.run_goes_on (m : Move) (s : State) : ∃ t, m.run s = .next t := by
  rcases m.run_cases s with ⟨i, hi, h⟩ | h | h | ⟨_, h⟩ | ⟨_, _, _, _, h⟩
  · rw [h]; exact exec_event i hi s
  · rw [h]; exact s.takeInput_goes_on (fun i t hi => exec_event i (Instr.fromOutside_event i hi) t)
  · exact ⟨_, h⟩
  · exact ⟨_, h⟩
  · exact ⟨_, h⟩

/-- Every move that is made goes on. -/
theorem State.make_goes_on (s : State) (m : Move) : ∃ t, s.make m = .next t := by
  unfold State.make
  split
  · exact m.run_goes_on s
  · exact ⟨_, rfl⟩

end Sys2Proof.Machine
end

