-- ==== Sys2Proof/Laws/PerInstr.lean ====
section
/-! SUPPORT. Facts about every instruction, one lemma per constructor: RoundTrip says that decoding the word of a
well-formed encoded instruction gives the instruction back. -/

namespace Sys2Proof.Laws

set_option Elab.async false

/-- Decoding an encoded instruction's word gives the instruction (R35, R36, R39, R48, R49). -/
def RoundTrip.Statement (i : Instr) : Prop :=
  i.encoded = true → i.wellFormed = true → decode (encode i) = .ok i

theorem RoundTrip.nop : RoundTrip.Statement (.nop) := by
  intro _ _; simp [encode, decode_wordOf, decodeFields, decodeRow0, checkFields]
theorem RoundTrip.mode (a b : VCode) : RoundTrip.Statement (.mode a b) := by
  intro _ _; simp [encode, decode_wordOf, decodeFields, decodeRow0, checkFields]
theorem RoundTrip.br (a : VCode) : RoundTrip.Statement (.br a) := by
  intro _ _; simp [encode, decode_wordOf, decodeFields, decodeRow0, checkFields]
theorem RoundTrip.brx (a : VCode) : RoundTrip.Statement (.brx a) := by
  intro _ _; simp [encode, decode_wordOf, decodeFields, decodeRow0, checkFields]
theorem RoundTrip.brs (cond : BitVec 2) (a b : VCode) : RoundTrip.Statement (.brs cond a b) := by
  intro _ _; simp [encode, decode_wordOf, decodeFields, decodeRow0, checkFields]
theorem RoundTrip.brv (cond : BitVec 4) (a b : VCode) : RoundTrip.Statement (.brv cond a b) := by
  intro _ _; simp [encode, decode_wordOf, decodeFields, decodeRow0, checkFields]
theorem RoundTrip.join : RoundTrip.Statement (.join) := by
  intro _ _; simp [encode, decode_wordOf, decodeFields, decodeRow0, checkFields]
theorem RoundTrip.regang (a : VCode) : RoundTrip.Statement (.regang a) := by
  intro _ _; simp [encode, decode_wordOf, decodeFields, decodeRow0, checkFields]
theorem RoundTrip.meld (a b : VCode) : RoundTrip.Statement (.meld a b) := by
  intro _ _; simp [encode, decode_wordOf, decodeFields, decodeRow0, checkFields]
theorem RoundTrip.melde : RoundTrip.Statement (.melde) := by
  intro _ _; simp [encode, decode_wordOf, decodeFields, decodeRow0, checkFields]
theorem RoundTrip.call (d a : VCode) : RoundTrip.Statement (.call d a) := by
  intro _ _; simp [encode, decode_wordOf, decodeFields, decodeRow0, checkFields]
theorem RoundTrip.calli (d a : VCode) : RoundTrip.Statement (.calli d a) := by
  intro _ _; simp [encode, decode_wordOf, decodeFields, decodeRow0, checkFields]
theorem RoundTrip.ret (a : VCode) : RoundTrip.Statement (.ret a) := by
  intro _ _; simp [encode, decode_wordOf, decodeFields, decodeRow0, checkFields]
theorem RoundTrip.exit (a : VCode) : RoundTrip.Statement (.exit a) := by
  intro _ _; simp [encode, decode_wordOf, decodeFields, decodeRow0, checkFields]
theorem RoundTrip.yield : RoundTrip.Statement (.yield) := by
  intro _ _; simp [encode, decode_wordOf, decodeFields, decodeRow0, checkFields]
theorem RoundTrip.waitf (flags : BitVec 12) : RoundTrip.Statement (.waitf flags) := by
  intro _ _; simp [encode, decode_wordOf, decodeFields, decodeRow0, checkFields]
theorem RoundTrip.mon (a : VCode) : RoundTrip.Statement (.mon a) := by
  intro _ _; simp [encode, decode_wordOf, decodeFields, decodeRow1, checkFields]
theorem RoundTrip.mwait (a : VCode) : RoundTrip.Statement (.mwait a) := by
  intro _ _; simp [encode, decode_wordOf, decodeFields, decodeRow1, checkFields]
theorem RoundTrip.trap (a : VCode) : RoundTrip.Statement (.trap a) := by
  intro _ _; simp [encode, decode_wordOf, decodeFields, decodeRow1, checkFields]
theorem RoundTrip.tret : RoundTrip.Statement (.tret) := by
  intro _ _; simp [encode, decode_wordOf, decodeFields, decodeRow1, checkFields]
theorem RoundTrip.phint (k : BitVec 2) : RoundTrip.Statement (.phint k) := by
  intro _ _; simp [encode, decode_wordOf, decodeFields, decodeRow1, checkFields]
theorem RoundTrip.idemb : RoundTrip.Statement (.idemb) := by
  intro _ _; simp [encode, decode_wordOf, decodeFields, decodeRow1, checkFields]
theorem RoundTrip.ideme : RoundTrip.Statement (.ideme) := by
  intro _ _; simp [encode, decode_wordOf, decodeFields, decodeRow1, checkFields]
theorem RoundTrip.ipf (level : BitVec 2) (a : VCode) (count : BitVec 5) : RoundTrip.Statement (.ipf level a count) := by
  intro _ _; simp [encode, decode_wordOf, decodeFields, decodeRow1, checkFields]
theorem RoundTrip.spawn (a b : VCode) : RoundTrip.Statement (.spawn a b) := by
  intro _ _; simp [encode, decode_wordOf, decodeFields, decodeRow1, checkFields]
theorem RoundTrip.launch (d a : VCode) : RoundTrip.Statement (.launch d a) := by
  intro _ _; simp [encode, decode_wordOf, decodeFields, decodeRow1, checkFields]
theorem RoundTrip.gfire (a b : VCode) : RoundTrip.Statement (.gfire a b) := by
  intro _ _; simp [encode, decode_wordOf, decodeFields, decodeRow1, checkFields]
theorem RoundTrip.barb (id : BitVec 4) : RoundTrip.Statement (.barb id) := by
  intro _ _; simp [encode, decode_wordOf, decodeFields, decodeRow1, checkFields]
theorem RoundTrip.barc (id : BitVec 2) : RoundTrip.Statement (.barc id) := by
  intro _ _; simp [encode, decode_wordOf, decodeFields, decodeRow1, checkFields]
theorem RoundTrip.quant : RoundTrip.Statement (.quant) := by
  intro _ _; simp [encode, decode_wordOf, decodeFields, decodeRow1, checkFields]
theorem RoundTrip.digest (a : VCode) (count : BitVec 3) : RoundTrip.Statement (.digest a count) := by
  intro _ _; simp [encode, decode_wordOf, decodeFields, decodeRow1, checkFields]
theorem RoundTrip.reservedOpcode (word : Word) : RoundTrip.Statement (.reservedOpcode word) := by
  intro _ h; exact decodeFields_reserved h _ _ _ _
theorem RoundTrip.add (d a b : VCode) : RoundTrip.Statement (.add d a b) := by
  intro _ _; simp [encode, decode_wordOf, decodeFields, decodeRow2]
theorem RoundTrip.sub (d a b : VCode) : RoundTrip.Statement (.sub d a b) := by
  intro _ _; simp [encode, decode_wordOf, decodeFields, decodeRow2]
theorem RoundTrip.mul (d a b : VCode) : RoundTrip.Statement (.mul d a b) := by
  intro _ _; simp [encode, decode_wordOf, decodeFields, decodeRow2]
theorem RoundTrip.fma (d a b : VCode) : RoundTrip.Statement (.fma d a b) := by
  intro _ _; simp [encode, decode_wordOf, decodeFields, decodeRow2]
theorem RoundTrip.fms (d a b : VCode) : RoundTrip.Statement (.fms d a b) := by
  intro _ _; simp [encode, decode_wordOf, decodeFields, decodeRow2]
theorem RoundTrip.fnma (d a b : VCode) : RoundTrip.Statement (.fnma d a b) := by
  intro _ _; simp [encode, decode_wordOf, decodeFields, decodeRow2]
theorem RoundTrip.min (d a b : VCode) : RoundTrip.Statement (.min d a b) := by
  intro _ _; simp [encode, decode_wordOf, decodeFields, decodeRow2]
theorem RoundTrip.max (d a b : VCode) : RoundTrip.Statement (.max d a b) := by
  intro _ _; simp [encode, decode_wordOf, decodeFields, decodeRow2]
theorem RoundTrip.abs (d a : VCode) : RoundTrip.Statement (.abs d a) := by
  intro _ _; simp [encode, decode_wordOf, decodeFields, decodeRow2, checkFields]
theorem RoundTrip.neg (d a : VCode) : RoundTrip.Statement (.neg d a) := by
  intro _ _; simp [encode, decode_wordOf, decodeFields, decodeRow2, checkFields]
theorem RoundTrip.rcp (d a : VCode) : RoundTrip.Statement (.rcp d a) := by
  intro _ _; simp [encode, decode_wordOf, decodeFields, decodeRow2, checkFields]
theorem RoundTrip.rsq (d a : VCode) : RoundTrip.Statement (.rsq d a) := by
  intro _ _; simp [encode, decode_wordOf, decodeFields, decodeRow2, checkFields]
theorem RoundTrip.sqrt (d a : VCode) : RoundTrip.Statement (.sqrt d a) := by
  intro _ _; simp [encode, decode_wordOf, decodeFields, decodeRow2, checkFields]
theorem RoundTrip.exp2 (d a : VCode) : RoundTrip.Statement (.exp2 d a) := by
  intro _ _; simp [encode, decode_wordOf, decodeFields, decodeRow2, checkFields]
theorem RoundTrip.log2 (d a : VCode) : RoundTrip.Statement (.log2 d a) := by
  intro _ _; simp [encode, decode_wordOf, decodeFields, decodeRow2, checkFields]
theorem RoundTrip.tanh (d a : VCode) : RoundTrip.Statement (.tanh d a) := by
  intro _ _; simp [encode, decode_wordOf, decodeFields, decodeRow2, checkFields]
theorem RoundTrip.cmpeq (d a b : VCode) : RoundTrip.Statement (.cmpeq d a b) := by
  intro _ _; simp [encode, decode_wordOf, decodeFields, decodeRow3]
theorem RoundTrip.cmpne (d a b : VCode) : RoundTrip.Statement (.cmpne d a b) := by
  intro _ _; simp [encode, decode_wordOf, decodeFields, decodeRow3]
theorem RoundTrip.cmplt (d a b : VCode) : RoundTrip.Statement (.cmplt d a b) := by
  intro _ _; simp [encode, decode_wordOf, decodeFields, decodeRow3]
theorem RoundTrip.cmple (d a b : VCode) : RoundTrip.Statement (.cmple d a b) := by
  intro _ _; simp [encode, decode_wordOf, decodeFields, decodeRow3]
theorem RoundTrip.cmpun (d a b : VCode) : RoundTrip.Statement (.cmpun d a b) := by
  intro _ _; simp [encode, decode_wordOf, decodeFields, decodeRow3]
theorem RoundTrip.classify (d a b : VCode) : RoundTrip.Statement (.classify d a b) := by
  intro _ _; simp [encode, decode_wordOf, decodeFields, decodeRow3]
theorem RoundTrip.sel (d a b : VCode) : RoundTrip.Statement (.sel d a b) := by
  intro _ _; simp [encode, decode_wordOf, decodeFields, decodeRow3]
theorem RoundTrip.cvt (d a : VCode) (part : BitVec 3) : RoundTrip.Statement (.cvt d a part) := by
  intro _ _; simp [encode, decode_wordOf, decodeFields, decodeRow3, checkFields]
theorem RoundTrip.scale (d a b : VCode) : RoundTrip.Statement (.scale d a b) := by
  intro _ _; simp [encode, decode_wordOf, decodeFields, decodeRow3]
theorem RoundTrip.rint (d a : VCode) : RoundTrip.Statement (.rint d a) := by
  intro _ _; simp [encode, decode_wordOf, decodeFields, decodeRow3, checkFields]
theorem RoundTrip.frxp (d a : VCode) (part : BitVec 1) : RoundTrip.Statement (.frxp d a part) := by
  intro _ _; simp [encode, decode_wordOf, decodeFields, decodeRow3, checkFields]
theorem RoundTrip.div (d a b : VCode) : RoundTrip.Statement (.div d a b) := by
  intro _ _; simp [encode, decode_wordOf, decodeFields, decodeRow3]
theorem RoundTrip.enct (d a b : VCode) : RoundTrip.Statement (.enct d a b) := by
  intro _ _; simp [encode, decode_wordOf, decodeFields, decodeRow3]
theorem RoundTrip.dect (d a : VCode) (byte : BitVec 2) : RoundTrip.Statement (.dect d a byte) := by
  intro _ _; simp [encode, decode_wordOf, decodeFields, decodeRow3, checkFields]
theorem RoundTrip.mov (d a : VCode) : RoundTrip.Statement (.mov d a) := by
  intro _ _; simp [encode, decode_wordOf, decodeFields, decodeRow3, checkFields]
theorem RoundTrip.fxr (d a : VCode) : RoundTrip.Statement (.fxr d a) := by
  intro _ _; simp [encode, decode_wordOf, decodeFields, decodeRow3, checkFields]
theorem RoundTrip.addc (d a b : VCode) : RoundTrip.Statement (.addc d a b) := by
  intro _ _; simp [encode, decode_wordOf, decodeFields, decodeRow4]
theorem RoundTrip.subb (d a b : VCode) : RoundTrip.Statement (.subb d a b) := by
  intro _ _; simp [encode, decode_wordOf, decodeFields, decodeRow4]
theorem RoundTrip.mulhi (d a b : VCode) : RoundTrip.Statement (.mulhi d a b) := by
  intro _ _; simp [encode, decode_wordOf, decodeFields, decodeRow4]
theorem RoundTrip.mulw (d a b : VCode) : RoundTrip.Statement (.mulw d a b) := by
  intro _ _; simp [encode, decode_wordOf, decodeFields, decodeRow4]
theorem RoundTrip.and (d a b : VCode) : RoundTrip.Statement (.and d a b) := by
  intro _ _; simp [encode, decode_wordOf, decodeFields, decodeRow4]
theorem RoundTrip.or (d a b : VCode) : RoundTrip.Statement (.or d a b) := by
  intro _ _; simp [encode, decode_wordOf, decodeFields, decodeRow4]
theorem RoundTrip.xor (d a b : VCode) : RoundTrip.Statement (.xor d a b) := by
  intro _ _; simp [encode, decode_wordOf, decodeFields, decodeRow4]
theorem RoundTrip.not (d a : VCode) : RoundTrip.Statement (.not d a) := by
  intro _ _; simp [encode, decode_wordOf, decodeFields, decodeRow4, checkFields]
theorem RoundTrip.shl (d a b : VCode) : RoundTrip.Statement (.shl d a b) := by
  intro _ _; simp [encode, decode_wordOf, decodeFields, decodeRow4]
theorem RoundTrip.shr (d a b : VCode) : RoundTrip.Statement (.shr d a b) := by
  intro _ _; simp [encode, decode_wordOf, decodeFields, decodeRow4]
theorem RoundTrip.sha (d a b : VCode) : RoundTrip.Statement (.sha d a b) := by
  intro _ _; simp [encode, decode_wordOf, decodeFields, decodeRow4]
theorem RoundTrip.rot (d a b : VCode) : RoundTrip.Statement (.rot d a b) := by
  intro _ _; simp [encode, decode_wordOf, decodeFields, decodeRow4]
theorem RoundTrip.clz (d a : VCode) : RoundTrip.Statement (.clz d a) := by
  intro _ _; simp [encode, decode_wordOf, decodeFields, decodeRow4, checkFields]
theorem RoundTrip.popc (d a : VCode) : RoundTrip.Statement (.popc d a) := by
  intro _ _; simp [encode, decode_wordOf, decodeFields, decodeRow4, checkFields]
theorem RoundTrip.brev (d a : VCode) : RoundTrip.Statement (.brev d a) := by
  intro _ _; simp [encode, decode_wordOf, decodeFields, decodeRow4, checkFields]
theorem RoundTrip.bfe (d a b : VCode) : RoundTrip.Statement (.bfe d a b) := by
  intro _ _; simp [encode, decode_wordOf, decodeFields, decodeRow4]
theorem RoundTrip.bfi (d a b : VCode) : RoundTrip.Statement (.bfi d a b) := by
  intro _ _; simp [encode, decode_wordOf, decodeFields, decodeRow5]
theorem RoundTrip.clmul (d a b : VCode) : RoundTrip.Statement (.clmul d a b) := by
  intro _ _; simp [encode, decode_wordOf, decodeFields, decodeRow5]
theorem RoundTrip.clmulh (d a b : VCode) : RoundTrip.Statement (.clmulh d a b) := by
  intro _ _; simp [encode, decode_wordOf, decodeFields, decodeRow5]
theorem RoundTrip.dot4 (d a b : VCode) : RoundTrip.Statement (.dot4 d a b) := by
  intro _ _; simp [encode, decode_wordOf, decodeFields, decodeRow5]
theorem RoundTrip.dot2 (d a b : VCode) : RoundTrip.Statement (.dot2 d a b) := by
  intro _ _; simp [encode, decode_wordOf, decodeFields, decodeRow5]
theorem RoundTrip.shfl (d a b : VCode) : RoundTrip.Statement (.shfl d a b) := by
  intro _ _; simp [encode, decode_wordOf, decodeFields, decodeRow5]
theorem RoundTrip.shflx (d a b : VCode) : RoundTrip.Statement (.shflx d a b) := by
  intro _ _; simp [encode, decode_wordOf, decodeFields, decodeRow5]
theorem RoundTrip.bcast (d a b : VCode) : RoundTrip.Statement (.bcast d a b) := by
  intro _ _; simp [encode, decode_wordOf, decodeFields, decodeRow5]
theorem RoundTrip.wred (d a : VCode) (op : BitVec 3) : RoundTrip.Statement (.wred d a op) := by
  intro _ _; simp [encode, decode_wordOf, decodeFields, decodeRow5, checkFields]
theorem RoundTrip.wscan (d a : VCode) (op : BitVec 3) : RoundTrip.Statement (.wscan d a op) := by
  intro _ _; simp [encode, decode_wordOf, decodeFields, decodeRow5, checkFields]
theorem RoundTrip.ballot (d a : VCode) : RoundTrip.Statement (.ballot d a) := by
  intro _ _; simp [encode, decode_wordOf, decodeFields, decodeRow5, checkFields]
theorem RoundTrip.pand (d a b : VCode) : RoundTrip.Statement (.pand d a b) := by
  intro _ _; simp [encode, decode_wordOf, decodeFields, decodeRow5]
theorem RoundTrip.por (d a b : VCode) : RoundTrip.Statement (.por d a b) := by
  intro _ _; simp [encode, decode_wordOf, decodeFields, decodeRow5]
theorem RoundTrip.pxor (d a b : VCode) : RoundTrip.Statement (.pxor d a b) := by
  intro _ _; simp [encode, decode_wordOf, decodeFields, decodeRow5]
theorem RoundTrip.spsel (d a : VCode) (part : BitVec 2) : RoundTrip.Statement (.spsel d a part) := by
  intro _ _; simp [encode, decode_wordOf, decodeFields, decodeRow5, checkFields]
theorem RoundTrip.spcmp (d a b : VCode) : RoundTrip.Statement (.spcmp d a b) := by
  intro _ _; simp [encode, decode_wordOf, decodeFields, decodeRow5]
theorem RoundTrip.sadd (d a b : SCode) : RoundTrip.Statement (.sadd d a b) := by
  intro _ _; simp [encode, decode_wordOf, decodeFields, decodeRow6]
theorem RoundTrip.ssub (d a b : SCode) : RoundTrip.Statement (.ssub d a b) := by
  intro _ _; simp [encode, decode_wordOf, decodeFields, decodeRow6]
theorem RoundTrip.smul (d a b : SCode) : RoundTrip.Statement (.smul d a b) := by
  intro _ _; simp [encode, decode_wordOf, decodeFields, decodeRow6]
theorem RoundTrip.smulh (d a b : SCode) : RoundTrip.Statement (.smulh d a b) := by
  intro _ _; simp [encode, decode_wordOf, decodeFields, decodeRow6]
theorem RoundTrip.sand (d a b : SCode) : RoundTrip.Statement (.sand d a b) := by
  intro _ _; simp [encode, decode_wordOf, decodeFields, decodeRow6]
theorem RoundTrip.sor (d a b : SCode) : RoundTrip.Statement (.sor d a b) := by
  intro _ _; simp [encode, decode_wordOf, decodeFields, decodeRow6]
theorem RoundTrip.sxor (d a b : SCode) : RoundTrip.Statement (.sxor d a b) := by
  intro _ _; simp [encode, decode_wordOf, decodeFields, decodeRow6]
theorem RoundTrip.sshl (d a b : SCode) : RoundTrip.Statement (.sshl d a b) := by
  intro _ _; simp [encode, decode_wordOf, decodeFields, decodeRow6]
theorem RoundTrip.sshr (d a b : SCode) : RoundTrip.Statement (.sshr d a b) := by
  intro _ _; simp [encode, decode_wordOf, decodeFields, decodeRow6]
theorem RoundTrip.ssha (d a b : SCode) : RoundTrip.Statement (.ssha d a b) := by
  intro _ _; simp [encode, decode_wordOf, decodeFields, decodeRow6]
theorem RoundTrip.smin (d a b : SCode) : RoundTrip.Statement (.smin d a b) := by
  intro _ _; simp [encode, decode_wordOf, decodeFields, decodeRow6]
theorem RoundTrip.smax (d a b : SCode) : RoundTrip.Statement (.smax d a b) := by
  intro _ _; simp [encode, decode_wordOf, decodeFields, decodeRow6]
theorem RoundTrip.scmplt (d a b : SCode) : RoundTrip.Statement (.scmplt d a b) := by
  intro _ _; simp [encode, decode_wordOf, decodeFields, decodeRow6]
theorem RoundTrip.scmpeq (d a b : SCode) : RoundTrip.Statement (.scmpeq d a b) := by
  intro _ _; simp [encode, decode_wordOf, decodeFields, decodeRow6]
theorem RoundTrip.ssel (d a b : SCode) : RoundTrip.Statement (.ssel d a b) := by
  intro _ _; simp [encode, decode_wordOf, decodeFields, decodeRow6]
theorem RoundTrip.smov (d a : SCode) : RoundTrip.Statement (.smov d a) := by
  intro _ _; simp [encode, decode_wordOf, decodeFields, decodeRow6, checkFields]
theorem RoundTrip.sadd64 (d a b : SCode) : RoundTrip.Statement (.sadd64 d a b) := by
  intro _ _; simp [encode, decode_wordOf, decodeFields, decodeRow7]
theorem RoundTrip.ssub64 (d a b : SCode) : RoundTrip.Statement (.ssub64 d a b) := by
  intro _ _; simp [encode, decode_wordOf, decodeFields, decodeRow7]
theorem RoundTrip.smul64 (d a b : SCode) : RoundTrip.Statement (.smul64 d a b) := by
  intro _ _; simp [encode, decode_wordOf, decodeFields, decodeRow7]
theorem RoundTrip.sshl64 (d a b : SCode) : RoundTrip.Statement (.sshl64 d a b) := by
  intro _ _; simp [encode, decode_wordOf, decodeFields, decodeRow7]
theorem RoundTrip.sshr64 (d a b : SCode) : RoundTrip.Statement (.sshr64 d a b) := by
  intro _ _; simp [encode, decode_wordOf, decodeFields, decodeRow7]
theorem RoundTrip.sclz (d a : SCode) : RoundTrip.Statement (.sclz d a) := by
  intro _ _; simp [encode, decode_wordOf, decodeFields, decodeRow7, checkFields]
theorem RoundTrip.spopc (d a : SCode) : RoundTrip.Statement (.spopc d a) := by
  intro _ _; simp [encode, decode_wordOf, decodeFields, decodeRow7, checkFields]
theorem RoundTrip.v2s (d : SCode) (a : VCode) (b : SCode) : RoundTrip.Statement (.v2s d a b) := by
  intro _ _; simp [encode, decode_wordOf, decodeFields, decodeRow7]
theorem RoundTrip.sysrd (d : SCode) (index : BitVec 16) : RoundTrip.Statement (.sysrd d index) := by
  intro _ _; simp [encode, decode_wordOf, decodeFields, decodeRow7]
theorem RoundTrip.syswr (index : BitVec 16) (b : SCode) : RoundTrip.Statement (.syswr index b) := by
  intro _ _; simp [encode, decode_wordOf, decodeFields, decodeRow7]
theorem RoundTrip.scmpltn (d a b : SCode) : RoundTrip.Statement (.scmpltn d a b) := by
  intro _ _; simp [encode, decode_wordOf, decodeFields, decodeRow7]
theorem RoundTrip.pack (d a b : SCode) : RoundTrip.Statement (.pack d a b) := by
  intro _ _; simp [encode, decode_wordOf, decodeFields, decodeRow7]
theorem RoundTrip.unpack (d a : SCode) (mode : BitVec 2) : RoundTrip.Statement (.unpack d a mode) := by
  intro _ _; simp [encode, decode_wordOf, decodeFields, decodeRow7, checkFields]
theorem RoundTrip.pset (d : VCode) (a : SCode) : RoundTrip.Statement (.pset d a) := by
  intro _ _; simp [encode, decode_wordOf, decodeFields, decodeRow7, checkFields]
theorem RoundTrip.sbfe (d a b : SCode) : RoundTrip.Statement (.sbfe d a b) := by
  intro _ _; simp [encode, decode_wordOf, decodeFields, decodeRow7]
theorem RoundTrip.ld (d a : VCode) (sx : Bool) (w : BitVec 3) : RoundTrip.Statement (.ld d a sx w) := by
  intro _ _; simp [encode, decode_wordOf, decodeFields, decodeRow8, checkFields]
theorem RoundTrip.lda (d a : VCode) (sx : Bool) (w : BitVec 3) : RoundTrip.Statement (.lda d a sx w) := by
  intro _ _; simp [encode, decode_wordOf, decodeFields, decodeRow8, checkFields]
theorem RoundTrip.ldx (d a : VCode) (sx : Bool) (w : BitVec 3) : RoundTrip.Statement (.ldx d a sx w) := by
  intro _ _; simp [encode, decode_wordOf, decodeFields, decodeRow8, checkFields]
theorem RoundTrip.st (d a : VCode) (w : BitVec 3) : RoundTrip.Statement (.st d a w) := by
  intro _ _; simp [encode, decode_wordOf, decodeFields, decodeRow8, checkFields]
theorem RoundTrip.stl (d a : VCode) (w : BitVec 3) : RoundTrip.Statement (.stl d a w) := by
  intro _ _; simp [encode, decode_wordOf, decodeFields, decodeRow8, checkFields]
theorem RoundTrip.stx (d a : VCode) (w : BitVec 3) : RoundTrip.Statement (.stx d a w) := by
  intro _ _; simp [encode, decode_wordOf, decodeFields, decodeRow8, checkFields]
theorem RoundTrip.sti (d a : VCode) (w : BitVec 3) : RoundTrip.Statement (.sti d a w) := by
  intro _ _; simp [encode, decode_wordOf, decodeFields, decodeRow8, checkFields]
theorem RoundTrip.ldsp (d a : VCode) (sx : Bool) (w : BitVec 3) : RoundTrip.Statement (.ldsp d a sx w) := by
  intro _ _; simp [encode, decode_wordOf, decodeFields, decodeRow8, checkFields]
theorem RoundTrip.stsp (d a : VCode) (w : BitVec 3) : RoundTrip.Statement (.stsp d a w) := by
  intro _ _; simp [encode, decode_wordOf, decodeFields, decodeRow8, checkFields]
theorem RoundTrip.ldcl (d a : VCode) (sx strong : Bool) (w : BitVec 3) : RoundTrip.Statement (.ldcl d a sx strong w) := by
  intro _ _; simp [encode, decode_wordOf, decodeFields, decodeRow8, checkFields]
theorem RoundTrip.stcl (d a : VCode) (strong : Bool) (w : BitVec 3) : RoundTrip.Statement (.stcl d a strong w) := by
  intro _ _; simp [encode, decode_wordOf, decodeFields, decodeRow8, checkFields]
theorem RoundTrip.ldds (d a : VCode) (sx : Bool) (w : BitVec 3) : RoundTrip.Statement (.ldds d a sx w) := by
  intro _ _; simp [encode, decode_wordOf, decodeFields, decodeRow8, checkFields]
theorem RoundTrip.stds (d a : VCode) (w : BitVec 3) : RoundTrip.Statement (.stds d a w) := by
  intro _ _; simp [encode, decode_wordOf, decodeFields, decodeRow8, checkFields]
theorem RoundTrip.gath (d a b : VCode) : RoundTrip.Statement (.gath d a b) := by
  intro _ _; simp [encode, decode_wordOf, decodeFields, decodeRow8]
theorem RoundTrip.scat (d a b : VCode) : RoundTrip.Statement (.scat d a b) := by
  intro _ _; simp [encode, decode_wordOf, decodeFields, decodeRow8]
theorem RoundTrip.pfd (level : BitVec 1) (a : VCode) : RoundTrip.Statement (.pfd level a) := by
  intro _ _; simp [encode, decode_wordOf, decodeFields, decodeRow8, checkFields]
theorem RoundTrip.aadd (d a b : VCode) : RoundTrip.Statement (.aadd d a b) := by
  intro _ _; simp [encode, decode_wordOf, decodeFields, decodeRow9]
theorem RoundTrip.amin (d a b : VCode) : RoundTrip.Statement (.amin d a b) := by
  intro _ _; simp [encode, decode_wordOf, decodeFields, decodeRow9]
theorem RoundTrip.amax (d a b : VCode) : RoundTrip.Statement (.amax d a b) := by
  intro _ _; simp [encode, decode_wordOf, decodeFields, decodeRow9]
theorem RoundTrip.aand (d a b : VCode) : RoundTrip.Statement (.aand d a b) := by
  intro _ _; simp [encode, decode_wordOf, decodeFields, decodeRow9]
theorem RoundTrip.aor (d a b : VCode) : RoundTrip.Statement (.aor d a b) := by
  intro _ _; simp [encode, decode_wordOf, decodeFields, decodeRow9]
theorem RoundTrip.axor (d a b : VCode) : RoundTrip.Statement (.axor d a b) := by
  intro _ _; simp [encode, decode_wordOf, decodeFields, decodeRow9]
theorem RoundTrip.axchg (d a b : VCode) : RoundTrip.Statement (.axchg d a b) := by
  intro _ _; simp [encode, decode_wordOf, decodeFields, decodeRow9]
theorem RoundTrip.acas (d a b : VCode) : RoundTrip.Statement (.acas d a b) := by
  intro _ _; simp [encode, decode_wordOf, decodeFields, decodeRow9]
theorem RoundTrip.ainc (d a b : VCode) : RoundTrip.Statement (.ainc d a b) := by
  intro _ _; simp [encode, decode_wordOf, decodeFields, decodeRow9]
theorem RoundTrip.adec (d a b : VCode) : RoundTrip.Statement (.adec d a b) := by
  intro _ _; simp [encode, decode_wordOf, decodeFields, decodeRow9]
theorem RoundTrip.afadd (d a b : VCode) : RoundTrip.Statement (.afadd d a b) := by
  intro _ _; simp [encode, decode_wordOf, decodeFields, decodeRow9]
theorem RoundTrip.aaddn (d a b : VCode) : RoundTrip.Statement (.aaddn d a b) := by
  intro _ _; simp [encode, decode_wordOf, decodeFields, decodeRow9]
theorem RoundTrip.spaadd (d a b : VCode) : RoundTrip.Statement (.spaadd d a b) := by
  intro _ _; simp [encode, decode_wordOf, decodeFields, decodeRow9]
theorem RoundTrip.spacas (d a b : VCode) : RoundTrip.Statement (.spacas d a b) := by
  intro _ _; simp [encode, decode_wordOf, decodeFields, decodeRow9]
theorem RoundTrip.fence : RoundTrip.Statement (.fence) := by
  intro _ _; simp [encode, decode_wordOf, decodeFields, decodeRowA, checkFields]
theorem RoundTrip.fencel (scope : BitVec 3) : RoundTrip.Statement (.fencel scope) := by
  intro _ _; simp [encode, decode_wordOf, decodeFields, decodeRowA, checkFields]
theorem RoundTrip.invl1 : RoundTrip.Statement (.invl1) := by
  intro _ _; simp [encode, decode_wordOf, decodeFields, decodeRowA, checkFields]
theorem RoundTrip.lease (a : VCode) : RoundTrip.Statement (.lease a) := by
  intro _ _; simp [encode, decode_wordOf, decodeFields, decodeRowA, checkFields]
theorem RoundTrip.barinit (a b : VCode) : RoundTrip.Statement (.barinit a b) := by
  intro _ _; simp [encode, decode_wordOf, decodeFields, decodeRowA, checkFields]
theorem RoundTrip.barexp (a b : VCode) : RoundTrip.Statement (.barexp a b) := by
  intro _ _; simp [encode, decode_wordOf, decodeFields, decodeRowA, checkFields]
theorem RoundTrip.bararr (a b : VCode) : RoundTrip.Statement (.bararr a b) := by
  intro _ _; simp [encode, decode_wordOf, decodeFields, decodeRowA, checkFields]
theorem RoundTrip.bartry (d a b : VCode) : RoundTrip.Statement (.bartry d a b) := by
  intro _ _; simp [encode, decode_wordOf, decodeFields, decodeRowA]
theorem RoundTrip.barwt (phase : BitVec 1) (a b : VCode) : RoundTrip.Statement (.barwt phase a b) := by
  intro _ _; simp [encode, decode_wordOf, decodeFields, decodeRowA, checkFields]
theorem RoundTrip.feempty (a : VCode) : RoundTrip.Statement (.feempty a) := by
  intro _ _; simp [encode, decode_wordOf, decodeFields, decodeRowA, checkFields]
theorem RoundTrip.fefull (a : VCode) : RoundTrip.Statement (.fefull a) := by
  intro _ _; simp [encode, decode_wordOf, decodeFields, decodeRowA, checkFields]
theorem RoundTrip.fetest (d a : VCode) : RoundTrip.Statement (.fetest d a) := by
  intro _ _; simp [encode, decode_wordOf, decodeFields, decodeRowA, checkFields]
theorem RoundTrip.xcpy (a : VCode) : RoundTrip.Statement (.xcpy a) := by
  intro _ _; simp [encode, decode_wordOf, decodeFields, decodeRowB, checkFields]
theorem RoundTrip.xtile (a : VCode) : RoundTrip.Statement (.xtile a) := by
  intro _ _; simp [encode, decode_wordOf, decodeFields, decodeRowB, checkFields]
theorem RoundTrip.xgath (a : VCode) : RoundTrip.Statement (.xgath a) := by
  intro _ _; simp [encode, decode_wordOf, decodeFields, decodeRowB, checkFields]
theorem RoundTrip.xscat (a : VCode) : RoundTrip.Statement (.xscat a) := by
  intro _ _; simp [encode, decode_wordOf, decodeFields, decodeRowB, checkFields]
theorem RoundTrip.xred (a : VCode) : RoundTrip.Statement (.xred a) := by
  intro _ _; simp [encode, decode_wordOf, decodeFields, decodeRowB, checkFields]
theorem RoundTrip.xchain (ch : BitVec 4) (a : VCode) : RoundTrip.Statement (.xchain ch a) := by
  intro _ _; simp [encode, decode_wordOf, decodeFields, decodeRowB, checkFields]
theorem RoundTrip.xcancel (ch : BitVec 4) : RoundTrip.Statement (.xcancel ch) := by
  intro _ _; simp [encode, decode_wordOf, decodeFields, decodeRowB, checkFields]
theorem RoundTrip.xstat (d : VCode) (ch : BitVec 4) : RoundTrip.Statement (.xstat d ch) := by
  intro _ _; simp [encode, decode_wordOf, decodeFields, decodeRowB, checkFields]
theorem RoundTrip.esnd (a : VCode) : RoundTrip.Statement (.esnd a) := by
  intro _ _; simp [encode, decode_wordOf, decodeFields, decodeRowB, checkFields]
theorem RoundTrip.ercv (a : VCode) : RoundTrip.Statement (.ercv a) := by
  intro _ _; simp [encode, decode_wordOf, decodeFields, decodeRowB, checkFields]
theorem RoundTrip.estamp (d : VCode) : RoundTrip.Statement (.estamp d) := by
  intro _ _; simp [encode, decode_wordOf, decodeFields, decodeRowB, checkFields]
theorem RoundTrip.ewmark (d : VCode) (sel : BitVec 5) : RoundTrip.Statement (.ewmark d sel) := by
  intro _ _; simp [encode, decode_wordOf, decodeFields, decodeRowB, checkFields]
theorem RoundTrip.mma (d a b : VCode) : RoundTrip.Statement (.mma d a b) := by
  intro _ _; simp [encode, decode_wordOf, decodeFields, decodeRowC]
theorem RoundTrip.mmar (d a b : VCode) : RoundTrip.Statement (.mmar d a b) := by
  intro _ _; simp [encode, decode_wordOf, decodeFields, decodeRowC]
theorem RoundTrip.mmak (d a b : VCode) : RoundTrip.Statement (.mmak d a b) := by
  intro _ _; simp [encode, decode_wordOf, decodeFields, decodeRowC]
theorem RoundTrip.mmas (d a b : VCode) : RoundTrip.Statement (.mmas d a b) := by
  intro _ _; simp [encode, decode_wordOf, decodeFields, decodeRowC]
theorem RoundTrip.acq (d : VCode) : RoundTrip.Statement (.acq d) := by
  intro _ _; simp [encode, decode_wordOf, decodeFields, decodeRowC, checkFields]
theorem RoundTrip.rel (d : VCode) : RoundTrip.Statement (.rel d) := by
  intro _ _; simp [encode, decode_wordOf, decodeFields, decodeRowC, checkFields]
theorem RoundTrip.acld (d a : VCode) : RoundTrip.Statement (.acld d a) := by
  intro _ _; simp [encode, decode_wordOf, decodeFields, decodeRowC, checkFields]
theorem RoundTrip.acst (d a : VCode) : RoundTrip.Statement (.acst d a) := by
  intro _ _; simp [encode, decode_wordOf, decodeFields, decodeRowC, checkFields]
theorem RoundTrip.acz (d : VCode) : RoundTrip.Statement (.acz d) := by
  intro _ _; simp [encode, decode_wordOf, decodeFields, decodeRowC, checkFields]
theorem RoundTrip.acsp (d a : VCode) : RoundTrip.Statement (.acsp d a) := by
  intro _ _; simp [encode, decode_wordOf, decodeFields, decodeRowC, checkFields]
theorem RoundTrip.acwin (d a b : VCode) : RoundTrip.Statement (.acwin d a b) := by
  intro _ _; simp [encode, decode_wordOf, decodeFields, decodeRowC]
theorem RoundTrip.bmark (d a : VCode) : RoundTrip.Statement (.bmark d a) := by
  intro _ _; simp [encode, decode_wordOf, decodeFields, decodeRowC, checkFields]
theorem RoundTrip.acadd (d a : VCode) : RoundTrip.Statement (.acadd d a) := by
  intro _ _; simp [encode, decode_wordOf, decodeFields, decodeRowC, checkFields]
theorem RoundTrip.acscl (d a : VCode) : RoundTrip.Statement (.acscl d a) := by
  intro _ _; simp [encode, decode_wordOf, decodeFields, decodeRowC, checkFields]
theorem RoundTrip.ctxsv (d a : VCode) : RoundTrip.Statement (.ctxsv d a) := by
  intro _ _; simp [encode, decode_wordOf, decodeFields, decodeRowD, checkFields]
theorem RoundTrip.ctxrs (d a : VCode) : RoundTrip.Statement (.ctxrs d a) := by
  intro _ _; simp [encode, decode_wordOf, decodeFields, decodeRowD, checkFields]
theorem RoundTrip.tlbinv (a : VCode) (size : BitVec 8) : RoundTrip.Statement (.tlbinv a size) := by
  intro _ _; simp [encode, decode_wordOf, decodeFields, decodeRowD, checkFields]
theorem RoundTrip.wfreeze (d a : VCode) : RoundTrip.Statement (.wfreeze d a) := by
  intro _ _; simp [encode, decode_wordOf, decodeFields, decodeRowD, checkFields]
theorem RoundTrip.wkill (fatal : BitVec 1) : RoundTrip.Statement (.wkill fatal) := by
  intro _ _; simp [encode, decode_wordOf, decodeFields, decodeRowD, checkFields]
theorem RoundTrip.easeq (d a : VCode) : RoundTrip.Statement (.easeq d a) := by
  intro _ _; simp [encode, decode_wordOf, decodeFields, decodeRowD, checkFields]
theorem RoundTrip.cntrd (d : VCode) (ctr : BitVec 3) : RoundTrip.Statement (.cntrd d ctr) := by
  intro _ _; simp [encode, decode_wordOf, decodeFields, decodeRowD, checkFields]
theorem RoundTrip.cntsel (ctr : BitVec 3) (a : VCode) : RoundTrip.Statement (.cntsel ctr a) := by
  intro _ _; simp [encode, decode_wordOf, decodeFields, decodeRowD, checkFields]
theorem RoundTrip.issuePick (core quad : Nat) : RoundTrip.Statement (.issuePick core quad) := by
  intro h; cases h
theorem RoundTrip.clauseBegin (wave slice : Nat) : RoundTrip.Statement (.clauseBegin wave slice) := by
  intro h; cases h
theorem RoundTrip.fetchFill (wave slice : Nat) : RoundTrip.Statement (.fetchFill wave slice) := by
  intro h; cases h
theorem RoundTrip.regangRelease (wave : Nat) : RoundTrip.Statement (.regangRelease wave) := by
  intro h; cases h
theorem RoundTrip.rejoinDeadlock (wave : Nat) : RoundTrip.Statement (.rejoinDeadlock wave) := by
  intro h; cases h
theorem RoundTrip.barrierComplete (block : Nat) (cluster : Bool) (id : Nat) : RoundTrip.Statement (.barrierComplete block cluster id) := by
  intro h; cases h
theorem RoundTrip.specialComplete (wave op : Nat) : RoundTrip.Statement (.specialComplete wave op) := by
  intro h; cases h
theorem RoundTrip.loadComplete (wave op unit : Nat) : RoundTrip.Statement (.loadComplete wave op unit) := by
  intro h; cases h
theorem RoundTrip.homeArrival (wave op unit : Nat) : RoundTrip.Statement (.homeArrival wave op unit) := by
  intro h; cases h
theorem RoundTrip.storeAck (wave op unit : Nat) : RoundTrip.Statement (.storeAck wave op unit) := by
  intro h; cases h
theorem RoundTrip.fillArrival (fill : Nat) : RoundTrip.Statement (.fillArrival fill) := by
  intro h; cases h
theorem RoundTrip.leaseExpiry (l2 : Bool) (owner line : Nat) : RoundTrip.Statement (.leaseExpiry l2 owner line) := by
  intro h; cases h
theorem RoundTrip.monRegistration (wave : Nat) : RoundTrip.Statement (.monRegistration wave) := by
  intro h; cases h
theorem RoundTrip.feWaitTimeout (who : FeWaiter) : RoundTrip.Statement (.feWaitTimeout who) := by
  intro h; cases h
theorem RoundTrip.mwaitLimitExpiry (wave slice : Nat) : RoundTrip.Statement (.mwaitLimitExpiry wave slice) := by
  intro h; cases h
theorem RoundTrip.barwtLimitExpiry (wave slice : Nat) : RoundTrip.Statement (.barwtLimitExpiry wave slice) := by
  intro h; cases h
theorem RoundTrip.pageWalkComplete (func page : Nat) : RoundTrip.Statement (.pageWalkComplete func page) := by
  intro h; cases h
theorem RoundTrip.tileAccept (core : Nat) : RoundTrip.Statement (.tileAccept core) := by
  intro h; cases h
theorem RoundTrip.kstepComplete (block half op : Nat) : RoundTrip.Statement (.kstepComplete block half op) := by
  intro h; cases h
theorem RoundTrip.tileOpComplete (block half op : Nat) : RoundTrip.Statement (.tileOpComplete block half op) := by
  intro h; cases h
theorem RoundTrip.trapDelivery (wave : Nat) : RoundTrip.Statement (.trapDelivery wave) := by
  intro h; cases h
theorem RoundTrip.blockPlace (part : Nat) : RoundTrip.Statement (.blockPlace part) := by
  intro h; cases h
theorem RoundTrip.taskWaveEmit (die grid entry : Nat) : RoundTrip.Statement (.taskWaveEmit die grid entry) := by
  intro h; cases h
theorem RoundTrip.gridComplete (grid : Nat) : RoundTrip.Statement (.gridComplete grid) := by
  intro h; cases h
theorem RoundTrip.preempt (grid : Nat) : RoundTrip.Statement (.preempt grid) := by
  intro h; cases h
theorem RoundTrip.cairnPublish (unit : Nat) : RoundTrip.Statement (.cairnPublish unit) := by
  intro h; cases h
theorem RoundTrip.cairnResume (unit : Nat) : RoundTrip.Statement (.cairnResume unit) := by
  intro h; cases h
theorem RoundTrip.roundEnd (grid : Nat) : RoundTrip.Statement (.roundEnd grid) := by
  intro h; cases h
theorem RoundTrip.bucketRefill (engine func : Nat) : RoundTrip.Statement (.bucketRefill engine func) := by
  intro h; cases h
theorem RoundTrip.segmentPerform (id : Nat) : RoundTrip.Statement (.segmentPerform id) := by
  intro h; cases h
theorem RoundTrip.chainRecordFetch (id : Nat) : RoundTrip.Statement (.chainRecordFetch id) := by
  intro h; cases h
theorem RoundTrip.esndInject (id : Nat) : RoundTrip.Statement (.esndInject id) := by
  intro h; cases h
theorem RoundTrip.ercvAccept (id : Nat) : RoundTrip.Statement (.ercvAccept id) := by
  intro h; cases h
theorem RoundTrip.qnotifyWrite (f q : Nat) (v : DWord) : RoundTrip.Statement (.qnotifyWrite f q v) := by
  intro h; cases h
theorem RoundTrip.recordStart (f q : Nat) : RoundTrip.Statement (.recordStart f q) := by
  intro h; cases h
theorem RoundTrip.launchGrid (f q n : Nat) : RoundTrip.Statement (.launchGrid f q n) := by
  intro h; cases h
theorem RoundTrip.runPlat (f q n : Nat) : RoundTrip.Statement (.runPlat f q n) := by
  intro h; cases h
theorem RoundTrip.bundle (f q n : Nat) : RoundTrip.Statement (.bundle f q n) := by
  intro h; cases h
theorem RoundTrip.copyChain (f q n : Nat) : RoundTrip.Statement (.copyChain f q n) := by
  intro h; cases h
theorem RoundTrip.modload (f q n : Nat) : RoundTrip.Statement (.modload f q n) := by
  intro h; cases h
theorem RoundTrip.modunload (f q n : Nat) : RoundTrip.Statement (.modunload f q n) := by
  intro h; cases h
theorem RoundTrip.moduleRelease (part handle : Nat) : RoundTrip.Statement (.moduleRelease part handle) := by
  intro h; cases h
theorem RoundTrip.signal (f q n : Nat) : RoundTrip.Statement (.signal f q n) := by
  intro h; cases h
theorem RoundTrip.waitValue (f q n : Nat) : RoundTrip.Statement (.waitValue f q n) := by
  intro h; cases h
theorem RoundTrip.waitValuePoll (f q n : Nat) : RoundTrip.Statement (.waitValuePoll f q n) := by
  intro h; cases h
theorem RoundTrip.waitValueTimeout (f q n : Nat) : RoundTrip.Statement (.waitValueTimeout f q n) := by
  intro h; cases h
theorem RoundTrip.ctxSave (f q n : Nat) : RoundTrip.Statement (.ctxSave f q n) := by
  intro h; cases h
theorem RoundTrip.ctxRestore (f q n : Nat) : RoundTrip.Statement (.ctxRestore f q n) := by
  intro h; cases h
theorem RoundTrip.ctxAbort (f q n : Nat) : RoundTrip.Statement (.ctxAbort f q n) := by
  intro h; cases h
theorem RoundTrip.nodeIssue (inst : Nat) : RoundTrip.Statement (.nodeIssue inst) := by
  intro h; cases h
theorem RoundTrip.nodeComplete (inst node : Nat) : RoundTrip.Statement (.nodeComplete inst node) := by
  intro h; cases h
theorem RoundTrip.nodeFault (inst node : Nat) : RoundTrip.Statement (.nodeFault inst node) := by
  intro h; cases h
theorem RoundTrip.nodeRearm (inst node : Nat) : RoundTrip.Statement (.nodeRearm inst node) := by
  intro h; cases h
theorem RoundTrip.platToken (id : Nat) : RoundTrip.Statement (.platToken id) := by
  intro h; cases h
theorem RoundTrip.replicaMessage (m : ReplicaMsg) : RoundTrip.Statement (.replicaMessage m) := by
  intro h; cases h
theorem RoundTrip.replicaTimeout (inst node : Nat) : RoundTrip.Statement (.replicaTimeout inst node) := by
  intro h; cases h
theorem RoundTrip.partSet (arg : PartArg) : RoundTrip.Statement (.partSet arg) := by
  intro h; cases h
theorem RoundTrip.funcSet (arg : FuncArg) : RoundTrip.Statement (.funcSet arg) := by
  intro h; cases h
theorem RoundTrip.bktcfgSet (f : Nat) (v : DWord) : RoundTrip.Statement (.bktcfgSet f v) := by
  intro h; cases h
theorem RoundTrip.epcfgSet (ep : Nat) (v : DWord) : RoundTrip.Statement (.epcfgSet ep v) := by
  intro h; cases h
theorem RoundTrip.replicaSet (f : Nat) (devids : List (BitVec 16)) (limit : Nat) :
    RoundTrip.Statement (.replicaSet f devids limit) := by
  intro h; cases h
theorem RoundTrip.freezeEnd (m : Master) (endBlock : Bool) : RoundTrip.Statement (.freezeEnd m endBlock) := by
  intro h; cases h
theorem RoundTrip.dieReset (die : Nat) : RoundTrip.Statement (.dieReset die) := by
  intro h; cases h
theorem RoundTrip.logRead (count : Nat) : RoundTrip.Statement (.logRead count) := by
  intro h; cases h
theorem RoundTrip.fwStage (image : List Byte) : RoundTrip.Statement (.fwStage image) := by
  intro h; cases h
theorem RoundTrip.timeSet (arg : TimeArg) : RoundTrip.Statement (.timeSet arg) := by
  intro h; cases h
theorem RoundTrip.pwrSet (v : DWord) : RoundTrip.Statement (.pwrSet v) := by
  intro h; cases h
theorem RoundTrip.mailboxUnknownCode (code : BitVec 16) : RoundTrip.Statement (.mailboxUnknownCode code) := by
  intro h; cases h
theorem RoundTrip.uploadGo (slot : Bool) : RoundTrip.Statement (.uploadGo slot) := by
  intro h; cases h
theorem RoundTrip.uploadComplete : RoundTrip.Statement (.uploadComplete) := by
  intro h; cases h
theorem RoundTrip.rsnClear : RoundTrip.Statement (.rsnClear) := by
  intro h; cases h
theorem RoundTrip.evackWrite (f : Nat) (seq : Word) : RoundTrip.Statement (.evackWrite f seq) := by
  intro h; cases h
theorem RoundTrip.eventRecordWrite (f : Nat) : RoundTrip.Statement (.eventRecordWrite f) := by
  intro h; cases h
theorem RoundTrip.registerWrite (r : HostReg) (v : DWord) : RoundTrip.Statement (.registerWrite r v) := by
  intro h; cases h
theorem RoundTrip.start (powerOn : Bool) : RoundTrip.Statement (.start powerOn) := by
  intro h; cases h
theorem RoundTrip.readyTimeout : RoundTrip.Statement (.readyTimeout) := by
  intro h; cases h
theorem RoundTrip.firmwareReady (memOk : Bool) (dies : BitVec 4) : RoundTrip.Statement (.firmwareReady memOk dies) := by
  intro h; cases h
theorem RoundTrip.configRequest (func : Nat) : RoundTrip.Statement (.configRequest func) := by
  intro h; cases h
theorem RoundTrip.linkTrained (port : Nat) : RoundTrip.Statement (.linkTrained port) := by
  intro h; cases h
theorem RoundTrip.dieErrorReset (die : Nat) : RoundTrip.Statement (.dieErrorReset die) := by
  intro h; cases h
theorem RoundTrip.dieReadmit (die : Nat) : RoundTrip.Statement (.dieReadmit die) := by
  intro h; cases h
theorem RoundTrip.softError (unit : SoftUnit) (corrected : Bool) : RoundTrip.Statement (.softError unit corrected) := by
  intro h; cases h
theorem RoundTrip.hbmScrub (mem : Nat) : RoundTrip.Statement (.hbmScrub mem) := by
  intro h; cases h
theorem RoundTrip.powerSample (p : PowerSample) : RoundTrip.Statement (.powerSample p) := by
  intro h; cases h
theorem RoundTrip.thermalTrip (die : DieKind) : RoundTrip.Statement (.thermalTrip die) := by
  intro h; cases h
theorem RoundTrip.flr (f : Nat) : RoundTrip.Statement (.flr f) := by
  intro h; cases h
theorem RoundTrip.lockInterface (f stream : Nat) : RoundTrip.Statement (.lockInterface f stream) := by
  intro h; cases h
theorem RoundTrip.startInterface (f : Nat) : RoundTrip.Statement (.startInterface f) := by
  intro h; cases h
theorem RoundTrip.stopInterface (f : Nat) : RoundTrip.Statement (.stopInterface f) := by
  intro h; cases h
theorem RoundTrip.tdispError (f : Nat) : RoundTrip.Statement (.tdispError f) := by
  intro h; cases h
theorem RoundTrip.switchOut (f : Nat) : RoundTrip.Statement (.switchOut f) := by
  intro h; cases h
theorem RoundTrip.switchIn (f : Nat) : RoundTrip.Statement (.switchIn f) := by
  intro h; cases h
theorem RoundTrip.pluginUnload (part : Nat) : RoundTrip.Statement (.pluginUnload part) := by
  intro h; cases h
theorem RoundTrip.packetArrival (input : Nat) (pkt : Packet) : RoundTrip.Statement (.packetArrival input pkt) := by
  intro h; cases h
theorem RoundTrip.beaconSend (link : Nat) : RoundTrip.Statement (.beaconSend link) := by
  intro h; cases h
theorem RoundTrip.beaconArrival (input : Nat) (w : Beacon) : RoundTrip.Statement (.beaconArrival input w) := by
  intro h; cases h
theorem RoundTrip.watermarkStall (input : Nat) : RoundTrip.Statement (.watermarkStall input) := by
  intro h; cases h
theorem RoundTrip.portFence (input : Nat) : RoundTrip.Statement (.portFence input) := by
  intro h; cases h
theorem RoundTrip.portUnfence (input : Nat) : RoundTrip.Statement (.portUnfence input) := by
  intro h; cases h
theorem RoundTrip.timeBeacon (port : Nat) : RoundTrip.Statement (.timeBeacon port) := by
  intro h; cases h
theorem RoundTrip.timeBeaconArrival (port : Nat) (t1 t2 t3 t4 : Nat) : RoundTrip.Statement (.timeBeaconArrival port t1 t2 t3 t4) := by
  intro h; cases h
theorem RoundTrip.ppsPulse : RoundTrip.Statement (.ppsPulse) := by
  intro h; cases h
theorem RoundTrip.ercvComplete (id : Nat) : RoundTrip.Statement (.ercvComplete id) := by
  intro h; cases h

end Sys2Proof.Laws
end

