-- ==== Sys2Proof/Laws/Registers.lean ====
section
/-! SUPPORT. What a write of scalar registers, of vector registers and of predicates changes, and what it
leaves (R2, R41, R135, R163, R164). -/

namespace Sys2Proof.Machine

set_option Elab.async false

/-! ## Masks -/

theorem mem_bitsOf {n : Nat} {m : BitVec n} {i : Nat} : i ∈ bitsOf m ↔ i < n ∧ m.getLsbD i = true := by
  simp [bitsOf]

/-! ## Scalar registers -/

/-- A scalar register after a write of `k` registers from `n` (R2). -/
theorem Wave.swrite_get (w : Wave) (n k x r : Nat) :
    (w.swrite n k x).s.get r = if n ≤ r ∧ r < n + k then BitVec.ofNat 32 (x / 2 ^ (32 * (r - n))) else w.s.get r := by
  unfold Wave.swrite
  dsimp only
  split
  · next h =>
    apply ZMap.get_setAll_mem
    · exact List.mem_map.2 ⟨r - n, List.mem_range.2 (by omega), by rw [show n + (r - n) = r by omega]⟩
    · intro e he her
      obtain ⟨i, -, rfl⟩ := List.mem_map.1 he
      dsimp only at her ⊢
      rw [show i = r - n by omega]
  · next h =>
    apply ZMap.get_setAll_other
    intro e he her
    obtain ⟨i, hi, rfl⟩ := List.mem_map.1 he
    have := List.mem_range.1 hi
    exact h ⟨by dsimp only at her; omega, by dsimp only at her; omega⟩

/-- A written scalar register holds no poison; every other keeps its own. -/
theorem Wave.swrite_spoison_mem (w : Wave) (n k x r : Nat) :
    r ∈ (w.swrite n k x).spoison ↔ r ∈ w.spoison ∧ ¬ (n ≤ r ∧ r < n + k) := by
  simp [Wave.swrite]
  intro _
  omega

/-! ## Vector registers -/

/-- The lane-registers of lane `l` and register `r`, two of which are one only for the same lane. -/
theorem vKey_lane {r q l m : Nat} (hl : l < 64) (hm : m < 64) (h : vKey r l = vKey q m) : r = q ∧ l = m := by
  unfold vKey at h
  omega

/-- Renaming keeps the registers of one group apart (R127). -/
theorem Ctx.phys_inj (c : Ctx) {n k i j l : Nat} (hk : k ≤ 32) (hi : i < k) (hj : j < k)
    (h : c.phys (n + i) l = c.phys (n + j) l) : i = j := by
  unfold Ctx.phys at h
  split at h
  · have : (n + i) % 32 = (n + j) % 32 := by
      have h1 := congrArg (· % 32) h
      simpa [Nat.add_mod] using h1
    omega
  · omega

/-- A lane-register that a vector write names holds its part of the lane's result (R41). -/
theorem Ctx.vwrite_get (c : Ctx) (w : Wave) (n k : Nat) (m : LaneMask) (f : Nat → Nat) {l i : Nat} (hk : k ≤ 32)
    (hl : l ∈ bitsOf m) (hi : i < k) :
    (c.vwrite w n k m f).v.get (vKey (c.phys (n + i) l) l) = BitVec.ofNat 32 (f l / 2 ^ (32 * i)) := by
  apply ZMap.get_setAll_mem
  · exact List.mem_flatMap.2 ⟨l, hl, List.mem_map.2 ⟨i, List.mem_range.2 hi, rfl⟩⟩
  · intro e he her
    obtain ⟨l', hl', he⟩ := List.mem_flatMap.1 he
    obtain ⟨i', hi', rfl⟩ := List.mem_map.1 he
    obtain ⟨hr, rfl⟩ := vKey_lane (mem_bitsOf.1 hl').1 (mem_bitsOf.1 hl).1 her
    have := c.phys_inj hk (List.mem_range.1 hi') hi hr
    subst this
    rfl

/-- A lane-register that a vector write does not name stays as it was. -/
theorem Ctx.vwrite_get_other (c : Ctx) (w : Wave) (n k : Nat) (m : LaneMask) (f : Nat → Nat) {key : Nat}
    (h : ∀ l ∈ bitsOf m, ∀ i < k, key ≠ vKey (c.phys (n + i) l) l) : (c.vwrite w n k m f).v.get key = w.v.get key := by
  apply ZMap.get_setAll_other
  intro e he her
  obtain ⟨l, hl, he⟩ := List.mem_flatMap.1 he
  obtain ⟨i, hi, rfl⟩ := List.mem_map.1 he
  exact h l hl i (List.mem_range.1 hi) her.symm

/-- A write keeps the vector file canonical. -/
theorem Wave.vput_wf (w : Wave) (l : List (Nat × Word)) (h : w.v.wf = true) : (w.vput l).v.wf = true :=
  ZMap.wf_setAll l w.v h

/-- A write keeps the scalar file canonical. -/
theorem Wave.swrite_wf (w : Wave) (n k x : Nat) (h : w.s.wf = true) : (w.swrite n k x).s.wf = true :=
  ZMap.wf_setAll _ w.s h

/-! ## Predicates -/

/-- A predicate write changes its own predicate, in the lanes of its mask that the wave has (R164). -/
theorem Wave.pwrite_get (w : Wave) (n q : Nat) (m b : LaneMask) :
    (w.pwrite n m b).p.get q =
      if q = n then (w.p.get n &&& ~~~(m &&& w.widthMask)) ||| (b &&& (m &&& w.widthMask)) else w.p.get q :=
  ZMap.get_set _ _ _ _

end Sys2Proof.Machine
end

