-- ==== Sys2Proof/Tests/Slice0.lean ====
section
/-! SUPPORT. Tests on fixed values: words that the spec assembles, ill-formed terms, one step on small states whose
results the spec gives, and for every statement of Certificates a state and operands that meet its hypotheses. -/

namespace Sys2Proof.Tests

open Sys2Proof Sys2Proof.Machine

set_option Elab.async false

/-! ## Decoding: the words that the spec assembles -/

/-- A v register. -/
abbrev v (n : Fin 192) : VCode := .v n
/-- A scalar register of a vector-class field. -/
abbrev r (n : Fin 32) : VCode := .s n
/-- A literal of a vector-class field. -/
abbrev l (n : Fin 8) : VCode := .lit n
/-- A scalar register of a scalar-class field. -/
abbrev q (n : Fin 128) : SCode := .s n

/-- Control: `ret s20`, `waitf f0|f3|f9`, `mon s20`, `mwait l0`, `trap l0`, `phint l0`, `spawn s3, v4`,
`launch s5, s20`, `gfire s20, s22` and `digest v4, 2`. -/
theorem test_decode_control :
    decode 0x0C00D400 = .ok (.ret (r 20)) ∧ decode 0x0F090200 = .ok (.waitf 0x209) ∧
    decode 0x1000D400 = .ok (.mon (r 20)) ∧ decode 0x1100E000 = .ok (.mwait (l 0)) ∧
    decode 0x1200E000 = .ok (.trap (l 0)) ∧ decode 0x1400E000 = .ok (.phint 0) ∧
    decode 0x1800C304 = .ok (.spawn (r 3) (v 4)) ∧ decode 0x19C5D400 = .ok (.launch (r 5) (r 20)) ∧
    decode 0x1A00D4D6 = .ok (.gfire (r 20) (r 22)) ∧ decode 0x1E000402 = .ok (.digest (v 4) 2) := by decide +kernel

/-- Vector arithmetic. -/
theorem test_decode_vector :
    decode 0x23040102 = .ok (.fma (v 4) (v 1) (v 2)) ∧ decode 0x260903C2 = .ok (.min (v 9) (v 3) (r 2)) ∧
    decode 0x3B060203 = .ok (.div (v 6) (v 2) (v 3)) ∧ decode 0x32F20102 = .ok (.cmplt (.p 2) (v 1) (v 2)) ∧
    decode 0x36040102 = .ok (.sel (v 4) (v 1) (v 2)) ∧ decode 0x3E08E000 = .ok (.mov (v 8) (l 0)) ∧
    decode 0x37040101 = .ok (.cvt (v 4) (v 1) 1) ∧ decode 0x3C0601C3 = .ok (.enct (v 6) (v 1) (r 3)) ∧
    decode 0x3D070602 = .ok (.dect (v 7) (v 6) 2) ∧ decode 0x380505C0 = .ok (.scale (v 5) (v 5) (r 0)) ∧
    decode 0x39020100 = .ok (.rint (v 2) (v 1)) := by decide +kernel

/-- Integer, bit and lane instructions. -/
theorem test_decode_integer :
    decode 0x480301C0 = .ok (.shl (v 3) (v 1) (r 0)) ∧ decode 0x4D020100 = .ok (.popc (v 2) (v 1)) ∧
    decode 0x4F0201E0 = .ok (.bfe (v 2) (v 1) (l 0)) ∧ decode 0x53060102 = .ok (.dot4 (v 6) (v 1) (v 2)) ∧
    decode 0x58C30200 = .ok (.wred (r 3) (v 2) 0) ∧ decode 0x5AC6F200 = .ok (.ballot (r 6) (.p 2)) ∧
    decode 0x5ADEF100 = .ok (.ballot (r 30) (.p 1)) := by decide +kernel

/-- Scalar instructions. -/
theorem test_decode_scalar :
    decode 0x78080008 = .ok (.sysrd (q 8) 8) ∧ decode 0x78140104 = .ok (.sysrd (q 20) 0x104) ∧
    decode 0x7903000A = .ok (.syswr 0x300 (q 10)) ∧ decode 0x7A0207E0 = .ok (.scmpltn (q 2) (q 7) (.lit 0)) ∧
    decode 0x700A0AE0 = .ok (.sadd64 (q 10) (q 10) (.lit 0)) ∧ decode 0x770C05E0 = .ok (.v2s (q 12) (v 5) (.lit 0)) ∧
    decode 0x7DF30600 = .ok (.pset (.p 3) (q 6)) := by decide +kernel

/-- Matrix instructions. -/
theorem test_decode_matrix :
    decode 0xC0D400D6 = .ok (.mma (r 20) (v 0) (r 22)) ∧ decode 0xC1D504D8 = .ok (.mmar (r 21) (v 4) (r 24)) ∧
    decode 0xC3D400D6 = .ok (.mmas (r 20) (v 0) (r 22)) ∧ decode 0xC2D4DAD6 = .ok (.mmak (r 20) (r 26) (r 22)) ∧
    decode 0xCBC8D400 = .ok (.bmark (r 8) (r 20)) ∧ decode 0xC4D40000 = .ok (.acq (r 20)) ∧
    decode 0xC5D40000 = .ok (.rel (r 20)) ∧ decode 0xCAC6C7E0 = .ok (.acwin (r 6) (r 7) (l 0)) ∧
    decode 0xC608D400 = .ok (.acld (v 8) (r 20)) ∧ decode 0xC7D40C00 = .ok (.acst (r 20) (v 12)) ∧
    decode 0xC8D40000 = .ok (.acz (r 20)) ∧ decode 0xC9D4DA00 = .ok (.acsp (r 20) (r 26)) ∧
    decode 0xCCD4D500 = .ok (.acadd (r 20) (r 21)) ∧ decode 0xCDD4E000 = .ok (.acscl (r 20) (l 0)) := by decide +kernel

/-- Memory instructions. -/
theorem test_decode_memory :
    decode 0x80040002 = .ok (.ld (v 4) (v 0) false 2) ∧ decode 0x8404D402 = .ok (.stl (v 4) (r 20) 2) ∧
    decode 0x8706C302 = .ok (.ldsp (v 6) (r 3) false 2) ∧ decode 0x8A020142 = .ok (.stcl (v 2) (v 1) true 2) ∧
    decode 0x8D04D402 = .ok (.gath (v 4) (r 20) (v 2)) ∧ decode 0x8F010000 = .ok (.pfd 1 (v 0)) ∧
    decode 0xA1030000 = .ok (.fencel 3) ∧ decode 0xA300E000 = .ok (.lease (l 0)) ∧
    decode 0xA400D4E0 = .ok (.barinit (r 20) (l 0)) ∧ decode 0xA7F2D4E8 = .ok (.bartry (.p 2) (r 20) .zero) ∧
    decode 0xA800D4E0 = .ok (.barwt 0 (r 20) (l 0)) ∧ decode 0xAA000000 = .ok (.fefull (v 0)) ∧
    decode 0xABF20000 = .ok (.fetest (.p 2) (v 0)) := by decide +kernel

/-- Copy engines and the fabric. -/
theorem test_decode_engine :
    decode 0xB100C800 = .ok (.xtile (r 8)) ∧ decode 0xB503CA00 = .ok (.xchain 3 (r 10)) ∧
    decode 0xB6050000 = .ok (.xcancel 5) ∧ decode 0xB7CC0300 = .ok (.xstat (r 12) 3) ∧
    decode 0xBAD40000 = .ok (.estamp (r 20)) ∧ decode 0xBBD40300 = .ok (.ewmark (r 20) 3) := by decide +kernel

/-- Privileged instructions. -/
theorem test_decode_privileged :
    decode 0xD401_0000 = .ok (.wkill 1) ∧ decode 0xD0D4E900 = .ok (.ctxsv (r 20) .one) ∧
    decode 0xD1C5D400 = .ok (.ctxrs (r 5) (r 20)) ∧ decode 0xD3C5D400 = .ok (.wfreeze (r 5) (r 20)) ∧
    decode 0xD200D410 = .ok (.tlbinv (r 20) 16) ∧ decode 0xD5CCD400 = .ok (.easeq (r 12) (r 20)) ∧
    decode 0xD703E000 = .ok (.cntsel 3 (l 0)) ∧ decode 0xD6D40300 = .ok (.cntrd (r 20) 3) := by decide +kernel

/-- A reserved opcode, a reserved operand code, a fixed field that is not zero, and a conversion's part out of range. -/
theorem test_decode_refuses :
    decode 0x1F000000 = .ok (.reservedOpcode 0x1F000000) ∧ decode 0xFFFFFFFF = .ok (.reservedOpcode 0xFFFFFFFF) ∧
    (decode 0x00000001).toOption = none ∧ (decode 0xB6100000).toOption = none ∧
    (decode 0xC4D40001).toOption = none ∧ (decode 0x7C0101_04).toOption = none := by decide +kernel

/-- The header that R29 assembles: PP 1, SETB 15, SETA 1, WAIT 9, no literals and three body words. -/
theorem test_header : hdrPP 0x4F100903 = true ∧ hdrSetB 0x4F100903 = none ∧ hdrSetA 0x4F100903 = some 1 ∧
    hdrWait 0x4F100903 = [0, 3] ∧ hdrNlit 0x4F100903 = 0 ∧ hdrBody 0x4F100903 = 3 := by decide +kernel

/-! ## Well-formed instructions -/

/-- Every check of a field refuses a term that breaks it: operand classes (R36, R39, R41), even pairs (R40), bases and
descriptors, and direct fields out of their range. -/
theorem test_wellFormed_refuses : ∀ i ∈ ([.mode (v 1) .zero, .mode .zero (.p 0), .br (r 0), .brx (l 1), .brs 0 (l 0) (l 0),
    .brs 0 (r 0) .zero, .brv 0 .one (l 0), .brv 0 (l 0) .one, .regang (v 1), .meld (r 1) (r 2), .meld (.p 1) (r 31), .call (r 1) (l 0),
    .calli (r 2) (r 3), .ret (r 1), .exit .zero, .mon (v 2), .mon (r 3), .mwait (r 0), .trap .one, .phint 3, .ipf 3 (r 0) 1,
    .ipf 0 (r 0) 0, .ipf 0 (r 0) 17, .ipf 0 .zero 1, .spawn (.bad 0) (v 2), .spawn (v 2) (v 3), .launch (v 1) (r 2), .gfire (r 2) (r 3),
    .digest (r 1) 1, .digest (v 1) 0, .digest (v 1) 5, .reservedOpcode 0] : List Instr), i.wellFormed = false := by decide +kernel

theorem test_wellFormed_refuses_vector : ∀ i ∈ ([.add (r 1) (v 1) (v 2), .add (v 1) (.bad 0) (v 2), .add (v 1) (v 2) (.bad 7), .neg (.p 1) (v 1),
    .cmplt (r 1) (v 1) (v 2), .fxr (.p 1) .zero, .fxr (v 1) (v 2), .bcast (v 1) (v 2) (v 3), .wred (.p 1) (v 2) 0, .wred (v 1) (v 2) 6,
    .wscan (r 1) (v 2) 0, .wscan (v 1) (v 2) 6, .ballot (r 1) (v 2), .pand (v 1) (.p 1) (.p 2), .por (.p 1) (v 1) (.p 2),
    .spsel (v 1) (v 2) 3, .spcmp (v 1) (v 2) (v 3)] : List Instr), i.wellFormed = false := by decide +kernel

theorem test_wellFormed_refuses_scalar : ∀ i ∈ ([.sadd .zero (q 1) (q 2), .sadd (q 1) (.gap 0) (q 2), .sadd (q 1) (q 2) (.special 0),
    .smov (q 1) (.top 0), .sadd64 (q 1) (q 2) (q 4), .v2s (q 1) (r 1) (q 2), .sysrd .one 0, .pset (r 1) (q 2)] : List Instr),
    i.wellFormed = false := by decide +kernel

theorem test_wellFormed_refuses_memory : ∀ i ∈ ([.ld (r 1) (v 2) false 2, .ld (v 1) (v 3) false 2, .ld (v 1) (r 3) false 2, .ld (v 1) (v 2) false 5,
    .lda (v 1) (v 2) false 4, .st (.bad 1) (v 2) 2, .stl (v 1) (v 2) 4, .ldsp (v 1) (.bad 0) false 2, .gath (v 1) (v 2) (v 3), .pfd 0 (v 1),
    .aadd (r 1) (v 2) (v 3), .aadd (v 1) .zero (v 3), .fencel 5, .lease .one, .barinit (v 2) .one, .barinit (r 2) .zero, .barexp (r 2) .one,
    .bartry (v 1) (r 2) .zero, .barwt 0 (r 2) .one, .fetest (v 1) (v 2)] : List Instr), i.wellFormed = false := by decide +kernel

theorem test_wellFormed_refuses_engines : ∀ i ∈ ([.xcpy (r 2), .xtile (r 24), .xchain 0 (v 2), .xstat (r 2) 0, .esnd (r 2), .estamp (r 1),
    .ewmark (r 2) 17, .mma (v 1) (v 2) (r 4), .mma (r 1) (v 3) (r 4), .mma (r 1) (v 2) (r 30), .mmak (r 1) (r 3) (r 4), .acsp (r 1) (r 3),
    .acwin (r 1) (v 1) .zero, .bmark (r 26) (r 1), .bmark (r 3) (r 1), .acscl (r 1) .laneid, .ctxsv (r 1) .zero, .ctxrs (r 1) (v 2),
    .tlbinv (r 2) 15, .tlbinv (r 2) 57, .wfreeze (r 1) (r 3), .easeq (r 2) (r 4), .cntrd (r 1) 0, .cntsel 0 .zero] : List Instr),
    i.wellFormed = false := by decide +kernel

theorem test_wellFormed_refuses_events : ∀ i ∈ ([.issuePick 144 0, .issuePick 0 4, .tileAccept 144, .epcfgSet 4096 0, .dieReset 4,
    .linkTrained 16, .beaconSend 25, .hbmScrub 8, .portFence 21, .timeBeacon 16] : List Instr), i.wellFormed = false := by decide +kernel

/-! ## One step on small states -/

/-- The state after reset with an instruction placed, and its wave and its block changed. -/
def placed (i : Instr) (f : Wave → Wave := id) (g : Block → Block := id) : State :=
  ((State.reset.placeWord (encode i)).modWave 1 f).modBlock 2 g

/-- The state that a step answers. -/
def stepped (s : State) : State :=
  match step s with
  | .next t => t
  | _ => State.reset

/-- The placed wave after one step of an instruction. -/
def after (i : Instr) (f : Wave → Wave := id) (g : Block → Block := id) : Wave := ((stepped (placed i f g)).waves.get? 1).getD (newWave wordKernel 0 0 0 0 0 0 0 0 0 0 [] 0 [] 0 none)

/-- A wave with MD.TYPE. -/
def typed (n : Nat) (w : Wave) : Wave := { w with md := BitVec.ofNat 32 (16 * n) }

/-- A wave with v registers of lane 0. -/
def withV (l : List (Nat × Word)) (w : Wave) : Wave := { w with v := l.foldl (fun m e => m.set (vKey e.1 0) e.2) w.v }

/-- A wave with s registers. -/
def withS (l : List (Nat × Word)) (w : Wave) : Wave := { w with s := l.foldl (fun m e => m.set e.1 e.2) w.s }

/-- Lane 0 of a v register. -/
def lane0 (w : Wave) (n : Nat) : Word := w.v.get (vKey n 0)

/-- A block with four tiles and 64 lines of scratchpad for each core. -/
def roomy (b : Block) : Block := { b with halves := b.halves.map (fun h => { h with acct := 4, scrl := 64 }) }

/-- R66: 1.0 + 2.0 = 3.0; R76: integers wrap, and clamp with SAT, which sets SA. -/
theorem test_add : lane0 (after (.add (v 1) (v 2) (v 3)) (withV [(2, 0x3F800000), (3, 0x40000000)])) 1 = 0x40400000 ∧
    lane0 (after (.add (v 1) (v 2) (v 3)) (fun w => typed 9 (withV [(2, 0x7FFFFFFF), (3, 1)] w))) 1 = 0x80000000 := by
  decide +kernel

theorem test_add_clamps : let w := after (.add (v 1) (v 2) (v 3)) (fun w => { withV [(2, 0x7FFFFFFF), (3, 1)] w with md := 0x8090 })
    lane0 w 1 = 0x7FFFFFFF ∧ w.fx = fxSA := by decide +kernel

/-- -1 - 1, and 3 * -2 in S32. -/
theorem test_sub : lane0 (after (.sub (v 1) (v 2) (v 3)) (fun w => typed 9 (withV [(2, 0xFFFFFFFF), (3, 1)] w))) 1 = 0xFFFFFFFE := by
  decide +kernel

theorem test_mul : lane0 (after (.mul (v 1) (v 2) (v 3)) (fun w => typed 9 (withV [(2, 3), (3, 0xFFFFFFFE)] w))) 1 = 0xFFFFFFFA := by
  decide +kernel

/-- R146: FMA is a*b + d, FMS a*b - d, FNMA d - a*b: 3*4 with 5. -/
theorem test_fma : lane0 (after (.fma (v 1) (v 2) (v 3)) (fun w => typed 9 (withV [(1, 5), (2, 3), (3, 4)] w))) 1 = 17 ∧
    lane0 (after (.fms (v 1) (v 2) (v 3)) (fun w => typed 9 (withV [(1, 5), (2, 3), (3, 4)] w))) 1 = 7 ∧
    lane0 (after (.fnma (v 1) (v 2) (v 3)) (fun w => typed 9 (withV [(1, 5), (2, 3), (3, 4)] w))) 1 = 0xFFFFFFF9 := by decide +kernel

/-- -1 against 1, signed and unsigned. -/
theorem test_min_max : lane0 (after (.min (v 1) (v 2) (v 3)) (fun w => typed 9 (withV [(2, 0xFFFFFFFF), (3, 1)] w))) 1 = 0xFFFFFFFF ∧
    lane0 (after (.min (v 1) (v 2) (v 3)) (fun w => typed 10 (withV [(2, 0xFFFFFFFF), (3, 1)] w))) 1 = 1 ∧
    lane0 (after (.max (v 1) (v 2) (v 3)) (fun w => typed 9 (withV [(2, 0xFFFFFFFF), (3, 1)] w))) 1 = 1 := by decide +kernel

theorem test_abs_neg : lane0 (after (.abs (v 1) (v 2)) (withV [(2, 0xBF800000)])) 1 = 0x3F800000 ∧
    lane0 (after (.neg (v 1) (v 2)) (withV [(2, 0x3F800000)])) 1 = 0xBF800000 := by decide +kernel

/-- A special function waits for SPECIAL_COMPLETE: nothing is written, and one operation is outstanding (R148). -/
theorem test_rcp_waits : let w := after (.rcp (v 1) (v 2)) (withV [(1, 7), (2, 0x40000000)])
    lane0 w 1 = 7 ∧ w.specials.length = 1 := by decide +kernel

/-- -1 < 1 in lane 0, 0 < 0 elsewhere; a v destination takes all ones. -/
theorem test_cmplt : (after (.cmplt (.p 2) (v 1) (v 2)) (fun w => typed 9 (withV [(1, 0xFFFFFFFF), (2, 1)] w))).p.get 2 = 1 ∧
    lane0 (after (.cmplt (v 4) (v 1) (v 2)) (fun w => typed 9 (withV [(1, 0xFFFFFFFF), (2, 1)] w))) 4 = 0xFFFFFFFF := by decide +kernel

/-- R64: a NaN is unordered with anything. -/
theorem test_cmpun : (after (.cmpun (.p 2) (v 1) (v 2)) (withV [(1, 0x7FC00000)])).p.get 2 = 1 := by decide +kernel

/-- R64, R70: 1.0 is 0x3C00 as F16, and 0x40 as T8. -/
theorem test_cvt : (lane0 (after (.cvt (v 1) (v 2) 0) (fun w => { withV [(2, 0x3F800000)] w with md := 0x100 })) 1).setWidth 16 = 0x3C00#16 ∧
    (lane0 (after (.cvt (v 1) (v 2) 0) (fun w => { withV [(2, 0x3F800000)] w with md := 0x300 })) 1).setWidth 8 = 0x40#8 := by
  decide +kernel

/-- 2.5 rounds to 2, to the even neighbour; FRXP gives its exponent 1; SCALE by 3 gives 20. -/
theorem test_rint : lane0 (after (.rint (v 1) (v 2)) (withV [(2, 0x40200000)])) 1 = 0x40000000 ∧
    lane0 (after (.frxp (v 1) (v 2) 1) (withV [(2, 0x40200000)])) 1 = 1 ∧
    lane0 (after (.scale (v 1) (v 2) (v 3)) (withV [(2, 0x40200000), (3, 3)])) 1 = 0x41A00000 := by decide +kernel

/-- R152, R153: SEL by the guard, which is p0's lanes; MOV leaves a NaN's pattern as it is. -/
theorem test_sel_mov : lane0 (after (.sel (v 1) (v 2) (v 3)) (fun w => { withV [(2, 5), (3, 6)] w with md := 0x8 })) 1 = 6 ∧
    lane0 (after (.mov (v 1) (v 2)) (withV [(2, 0xFFC12345)])) 1 = 0xFFC12345 := by decide +kernel

/-- R161: FXR gives the old flags and clears those that its operand names. -/
theorem test_fxr : let w := after (.fxr (v 1) .one) (fun w => { w with fx := 0x41 })
    lane0 w 1 = 0x41 ∧ w.fx = 0x40 := by decide +kernel

/-- R171's table at S32: a logical and an arithmetic shift, a shift by the width, a rotation, a reversal and counts. -/
theorem test_shifts : lane0 (after (.shl (v 1) (v 2) (v 3)) (fun w => typed 9 (withV [(2, 1), (3, 32)] w))) 1 = 0 ∧
    lane0 (after (.sha (v 1) (v 2) (v 3)) (fun w => typed 9 (withV [(2, 0x80000000), (3, 40)] w))) 1 = 0xFFFFFFFF ∧
    lane0 (after (.rot (v 1) (v 2) (v 3)) (fun w => typed 9 (withV [(2, 0x80000001), (3, 1)] w))) 1 = 3 := by decide +kernel

theorem test_counts : lane0 (after (.clz (v 1) (v 2)) (typed 9)) 1 = 32 ∧
    lane0 (after (.popc (v 1) (v 2)) (fun w => typed 9 (withV [(2, 0xF000000F)] w))) 1 = 8 ∧
    lane0 (after (.brev (v 1) (v 2)) (fun w => typed 9 (withV [(2, 1)] w))) 1 = 0x80000000 := by decide +kernel

/-- R172: 0xFFFFFFFF + 0 + carry is 0 with a carry; 0 - 0 - borrow is all ones with a borrow. -/
theorem test_carry : let w := after (.addc (v 1) (v 2) (v 3)) (fun w => { withV [(2, 0xFFFFFFFF)] w with p := w.p.set 7 1 })
    let x := after (.subb (v 1) (v 2) (v 3)) (fun w => { w with p := w.p.set 7 1 })
    lane0 w 1 = 0 ∧ (w.p.get 7).getLsbD 0 = true ∧ lane0 x 1 = 0xFFFFFFFF ∧ (x.p.get 7).getLsbD 0 = true := by decide +kernel

/-- R173's example: 0x0003FFFF and 0x00020005 as S16. -/
theorem test_mulw : let w := after (.mulw (v 6) (v 1) (v 2)) (fun w => typed 7 (withV [(1, 0x0003FFFF), (2, 0x00020005)] w))
    lane0 w 6 = 0xFFFFFFFB ∧ lane0 w 7 = 6 := by decide +kernel

theorem test_mulhi : lane0 (after (.mulhi (v 1) (v 2) (v 3)) (fun w => typed 9 (withV [(2, 0xFFFFFFFF), (3, 2)] w))) 1 = 0xFFFFFFFF := by
  decide +kernel

/-- R174's example: bits [11:4] as a signed byte; and a field inserted. -/
theorem test_bfe : lane0 (after (.bfe (v 2) (v 1) (v 3)) (withV [(1, 0xF80), (3, 0x00010804)])) 2 = 0xFFFFFFF8 ∧
    lane0 (after (.bfi (v 2) (v 1) (v 3)) (withV [(1, 0xF), (2, 0x12345678), (3, 0x00000404)])) 2 = 0x123456F8 := by decide +kernel

/-- R175's example. -/
theorem test_clmul : lane0 (after (.clmul (v 1) (v 2) (v 3)) (withV [(2, 3), (3, 3)])) 1 = 5 ∧
    lane0 (after (.clmulh (v 1) (v 2) (v 3)) (withV [(2, 0x80000000), (3, 2)])) 1 = 1 := by decide +kernel

/-- R176: unsigned operands 1*5 + 2*6 + 3*7 + 4*8, added to 1. -/
theorem test_dot4 : lane0 (after (.dot4 (v 1) (v 2) (v 3)) (fun w => typed 6 (withV [(1, 1), (2, 0x04030201), (3, 0x08070605)] w))) 1 = 71 := by
  decide +kernel

/-- R177 and R178: a swap of neighbours, and the sum of the lanes' numbers 0 to 15. -/
theorem test_shflx : lane0 (after (.shflx (v 3) .laneid .one) (typed 9)) 3 = 1 := by decide +kernel

theorem test_wred : (after (.wred (r 3) .laneid 0) (typed 9)).s.get 3 = 120 ∧
    (after (.wscan (v 3) .laneid 0) (typed 9)).v.get (vKey 3 15) = 120 := by decide +kernel

/-- R179, R180: lanes whose word is not zero; the exclusive or of predicates. -/
theorem test_ballot : (after (.ballot (r 6) (v 1)) (withV [(1, 2)])).s.get 6 = 1 ∧
    (after (.pxor (.p 1) (.p 2) .one) (fun w => { w with p := w.p.set 2 0xF })).p.get 1 = 0xFFF0 := by decide +kernel

/-! ### Scalar instructions -/

theorem test_sadd : (after (.sadd (q 1) (q 2) (q 3)) (withS [(2, 0xFFFFFFFF), (3, 2)])).s.get 1 = 1 ∧
    (after (.ssub (q 1) (q 2) (q 3)) (withS [(3, 1)])).s.get 1 = 0xFFFFFFFF := by decide +kernel

/-- -1 times 1 has the high word -1. -/
theorem test_smulh : (after (.smulh (q 1) (q 2) (q 3)) (withS [(2, 0xFFFFFFFF), (3, 1)])).s.get 1 = 0xFFFFFFFF := by decide +kernel

/-- A shift amount of 32 gives 0, and an arithmetic one clamps at 31. -/
theorem test_sshl : (after (.sshl (q 1) (q 2) (q 3)) (withS [(2, 1), (3, 32)])).s.get 1 = 0 ∧
    (after (.ssha (q 1) (q 2) (q 3)) (withS [(2, 0x80000000), (3, 99)])).s.get 1 = 0xFFFFFFFF := by decide +kernel

theorem test_scmp : (after (.scmplt (q 1) (q 2) (q 3)) (withS [(2, 0xFFFFFFFF)])).s.get 1 = 1 ∧
    (after (.scmpltn (q 1) (q 2) (q 3)) (withS [(2, 0xFFFFFFFF)])).s.get 1 = 0 := by decide +kernel

theorem test_sclz : (after (.sclz (q 1) (q 2))).s.get 1 = 32 ∧
    (after (.spopc (q 1) (q 2)) (withS [(2, 0x80000001)])).s.get 1 = 2 := by decide +kernel

/-- A carry into the high word; a shift of a pair by 32. -/
theorem test_sadd64 : let w := after (.sadd64 (q 2) (q 4) (q 6)) (withS [(4, 0xFFFFFFFF), (6, 1)])
    let x := after (.sshl64 (q 2) (q 4) (q 7)) (withS [(4, 5), (7, 32)])
    w.s.get 2 = 0 ∧ w.s.get 3 = 1 ∧ x.s.get 2 = 0 ∧ x.s.get 3 = 5 := by decide +kernel

theorem test_pack : (after (.pack (q 1) (q 2) (q 3)) (withS [(2, 0x11112222), (3, 0x33334444)])).s.get 1 = 0x44442222 ∧
    (after (.unpack (q 1) (q 2) 2) (withS [(2, 0x8000)])).s.get 1 = 0xFFFF8000 := by decide +kernel

/-- The lane's number is taken modulo the wave's width. -/
theorem test_v2s : (after (.v2s (q 1) (v 2) (q 3)) (fun w => withS [(3, 16)] (withV [(2, 9)] w))).s.get 1 = 9 ∧
    (after (.pset (.p 3) (q 6)) (withS [(6, 0xFFFFFF0F)])).p.get 3 = 0xFF0F := by decide +kernel

/-- R166: SYSRD of WAVEID writes a pair, and SYSWR of FX clears the bits that are 1. -/
theorem test_sysrd : let w := after (.sysrd (q 2) 2) (fun w => { w with waveid := 0x100000012 })
    w.s.get 2 = 0x12 ∧ w.s.get 3 = 1 ∧ (after (.syswr 1 (q 4)) (fun w => withS [(4, 1)] { w with fx := 3 })).fx = 2 := by decide +kernel

/-! ### Control -/

/-- R46: the bits that the mask names; a scope of 5 is ILLEGAL_MODE, and MD stays. -/
theorem test_mode : (after (.mode (r 1) (r 2)) (withS [(1, 0xFFFF), (2, 0x90)])).md = 0x90 ∧
    (after (.mode (r 1) (r 2)) (withS [(1, 0x280000), (2, 0x280000)])).md = 0 ∧
    ((after (.mode (r 1) (r 2)) (withS [(1, 0x280000), (2, 0x280000)])).due.flatMap (fun t => t.causes.map (·.cause))) =
      List.replicate 16 .illegalMode := by decide +kernel

/-- R115: CALLI's link is the next clause, after a header, one body word and eight literals; the slices stand at the
target. -/
theorem test_calli : let w := after (.calli (r 2) (r 4)) (withS [(4, 0x100)])
    w.s.get 2 = 40 ∧ w.s.get 3 = 0 ∧ w.slices.map (·.pc) = List.replicate 4 0x100 := by decide +kernel

/-- R114: a target that is no multiple of 4 traps, and the slices stay. -/
theorem test_ret_misaligned : let w := after (.ret (r 4)) (withS [(4, 0x102)])
    (w.due.map (fun t => t.causes.map (·.cause))) = [List.replicate 16 .misaligned] ∧
      w.slices.map (·.pc) = List.replicate 4 0 := by decide +kernel

/-- R116: with p1 set in lane 0 alone, its slice takes the branch with lane 0, and keeps lanes 1 to 3 pending. -/
theorem test_brv : let w := after (.brv 1 (l 0) (l 1)) (fun w => { w with p := w.p.set 1 1 })
    w.slices.map (fun x => (x.lm, x.rsd, x.top.pend)) = [(1, 1, 0xE), (0xF, 1, 0), (0xF, 1, 0), (0xF, 1, 0)] := by decide +kernel

/-- R117: JOIN pops an entry with nothing pending. -/
theorem test_join : let w := after .join (fun w => { w with
      slices := w.slices.map (fun x => { x with rs := [⟨8, 16, 0, 0x7⟩], rsd := 1, lm := 1 }) })
    w.slices.map (fun x => (x.pc, x.lm, x.rsd)) = List.replicate 4 (16, 7, 0) := by decide +kernel

/-- R118, R121: REGANG parks its gang, and YIELD sends it to the next clause. -/
theorem test_regang : (after (.regang (r 1)) (withS [(1, 0xF)])).slices.map (fun x => (x.park, x.rgm)) = List.replicate 4 (.regang, 0xF) ∧
    (after .yield).slices.map (·.pc) = List.replicate 4 40 := by decide +kernel

/-- R120: EXIT at scope 0 ends every lane. -/
theorem test_exit : (after (.exit (l 0))).slices.map (·.ex) = List.replicate 4 0xF := by decide +kernel

/-- R354: SOFTWARE with its code in every lane in `act`. -/
theorem test_trap : ((after (.trap (r 1)) (withS [(1, 0x12345)])).due.flatMap (fun t => t.causes.map (fun x => (x.cause, x.xinfo)))) =
    List.replicate 16 (.software, 0x2345) := by decide +kernel

/-- R49: a reserved opcode takes ILLEGAL_INSTR. -/
theorem test_reserved : ((after (.reservedOpcode 0x1F000000)).due.flatMap (fun t => t.causes.map (·.cause))) =
    List.replicate 16 .illegalInstr := by decide +kernel

/-- R49: a privileged word takes PRIVILEGE in a wave without privilege, and CNTSEL sets a counter in one with it. -/
theorem test_privilege : ((after (.cntsel 3 (r 2))).due.flatMap (fun t => t.causes.map (·.cause))) = List.replicate 16 .privilege ∧
    (after (.cntsel 3 (r 2)) (fun w => { w with priv := true })).due = [] := by decide +kernel

/-- R123: four gangs of one wave that is alone in its block arrive. -/
theorem test_barb : (after (.barb 2)).slices.map (·.park) = List.replicate 4 (.barb 2) := by decide +kernel

/-! ### Memory -/

/-- R262: a load asks for one unit a lane; nothing is written yet. -/
theorem test_ldsp : let w := after (.ldsp (v 1) (v 2) false 2) (withV [(1, 7)]) roomy
    (w.memOps.map (fun o => o.units.length)) = [16] ∧ lane0 w 1 = 7 := by decide +kernel

/-- R276: LEASE 0 stands for 1,024. -/
theorem test_lease : (after (.lease (r 1)) (withS [(1, 9)])).lease = 9 ∧ (after (.lease .zero) (fun w => { w with lease := 5 })).lease = 1024 := by
  decide +kernel

/-- R269's table, and a barrier object that two arrivals complete (R278). -/
theorem test_atomics : atomicNew .add .n32 ⟨0, false, false⟩ 0xFFFFFFFF 2 0 % 2 ^ 32 = 1 ∧
    atomicNew .inc .n32 ⟨0, false, false⟩ 5 5 0 = 0 ∧ atomicNew .dec .n32 ⟨0, false, false⟩ 0 9 0 = 9 ∧
    atomicNew .cas .n32 ⟨0, false, false⟩ 3 3 8 = 8 := by decide +kernel

theorem test_barrier_object : (BarObj.arrive 1 (BarObj.arrive 1 ⟨false, 0, 2, 0, 0⟩)) = ⟨true, 0, 2, 0, 0⟩ := by decide +kernel

/-- R2: bytes are little-endian. -/
theorem test_memory : Memory.byte (Memory.store [] 16 4 0x11223344) 16 = 0x44 ∧
    Memory.load (Memory.store [] 16 4 0x11223344) 16 4 = 0x11223344 ∧
    Memory.store (Memory.store [] 16 4 0x11223344) 16 4 0 = [] := by decide +kernel

/-! ## Witnesses: a state and operands that meet the hypotheses of each statement -/

/-- The picked gang's word issues, and its state has a property. -/
def issuesWith (s : State) (i : Instr) (p : State → Ctx → Bool) : Bool :=
  match s.ctx? with
  | none => false
  | some c => (c.decodeFault (checksOf i c)).isNone && (c.interlock s (checksOf i c)).isNone &&
      c.poisoned (checksOf i c) == 0 && p s c

/-- The picked gang's word issues. -/
def issuesNow (s : State) (i : Instr) : Bool := issuesWith s i (fun _ _ => true)

/-- What `issuesWith` evaluates is the hypothesis of the statements. -/
theorem issuesWith_issues {s : State} {i : Instr} {p : State → Ctx → Bool} (h : issuesWith s i p = true) :
    ∃ c, Issues s c (checksOf i c) ∧ p s c = true := by
  unfold issuesWith at h
  split at h
  · cases h
  · next c hc =>
    simp only [Bool.and_eq_true, Option.isNone_iff_eq_none, beq_iff_eq] at h
    exact ⟨c, ⟨hc, h.1.1.1, h.1.1.2, h.1.2⟩, h.2⟩

/-- The picked gang of a state has a property. -/
def picked (s : State) (p : State → Ctx → Bool) : Bool :=
  match s.ctx? with
  | none => false
  | some c => p s c

/-- The placed wave in a deterministic launch, at the start of its turn. -/
def inRound (w : Wave) : Wave := { w with det := some ⟨0, 0, 0, false, 0, none, 0, []⟩ }

/-- The same wave past the end of a quantum. -/
def pastQuantum (w : Wave) : Wave := { w with det := some ⟨0, 0, 0, false, 0, some 0xF, 0, []⟩ }

/-- The placed gang in a melded region. -/
def inMeld (w : Wave) : Wave := { w with mr := true, mrs := 0xF }

/-- A special function of the wave outstanding. -/
def busy (w : Wave) : Wave := { w with specials := [⟨0, 0, none, [], 0, 0xF⟩] }

/-- An access of a lane and v2 on its way. -/
def outstanding (k : MemKind) (returns : Bool) (lane : Nat) (w : Wave) : Wave :=
  { w with memOps := [⟨9, 0, k, 0, 4, false, returns, none, false, true, 1, ⟨0, 0, 0, 0, 0, []⟩, 1,
    [⟨lane, 0, 4, 0, .priv 0, .issued, 0, 0, 2, 0, 0, none, none, 0, false, false⟩]⟩] }

/-- A tile operation of the placed wave on tile 0. -/
def aczTop (k : TileKind) : TileOp :=
  ⟨77, k, 0, 1, 0, 1, 1, 1, 0, 0, 0, 0, 0, 0, false, none, false, 1, ⟨0, 0, 0, 0, 0, []⟩, none, 0⟩

/-- The placed wave with privilege. -/
def privileged (w : Wave) : Wave := { w with priv := true }

/-! ### Words and steps -/

theorem witness_DecodeAndEncodeAgree : (Instr.add (v 1) (v 2) (v 3)).encoded = true ∧
    (Instr.add (v 1) (v 2) (v 3)).wellFormed = true ∧ decode 0x20010203 = .ok (.add (v 1) (v 2) (v 3)) := by decide +kernel

theorem witness_ReservedAndPrivilegedOpcodes : decode 0x1F000000 = .ok (.reservedOpcode 0x1F000000) ∧
    picked (placed (.reservedOpcode 0x1F000000)) (fun _ _ => true) = true ∧
    0xD0 ≤ (fieldOp 0xD401_0000).toNat ∧ decode 0xD401_0000 = .ok (.wkill 1) ∧
    picked (placed (.wkill 1)) (fun _ c => (checksOf (.wkill 1) c).ok && !c.w.priv) = true := by decide +kernel

theorem witness_StepRunsDecoded : picked (placed .nop) (fun _ c => decide (decode c.src.word = .ok .nop)) = true ∧
    picked (State.reset.placeWord 0x00000001) (fun _ c => (decode c.src.word).toOption.isNone) = true := by decide +kernel

theorem witness_QuietStepIsOneEvent : State.reset.cur = none := by decide +kernel

theorem witness_StepNeverStops : Instr.nop.encoded = true ∧ picked (placed .nop) (fun _ _ => true) = true := by decide +kernel

theorem witness_MemoryFormIsKeptByEveryStep : (placed .nop).memoryCanonical ∧
    (match step (placed .nop) with
      | .next _ => true
      | _ => false) = true := by unfold State.memoryCanonical; decide +kernel

/-! ### Issue -/

/-- An odd pair, no privilege, registers beyond the allocation, and a word that no melded region may hold. -/
theorem witness_DecodeFaults :
    picked (placed (.sadd64 (q 1) (q 2) (q 4))) (fun _ c => !(checksOf (.sadd64 (q 1) (q 2) (q 4)) c).ok &&
      (c.decodeFault (checksOf (.sadd64 (q 1) (q 2) (q 4)) c)).isSome) = true ∧
    picked (placed (.wkill 1)) (fun _ c => (checksOf (.wkill 1) c).ok && (checksOf (.wkill 1) c).priv && !c.w.priv &&
      (c.decodeFault (checksOf (.wkill 1) c)).isSome) = true ∧
    picked (placed (.mov (v 191) (v 2)) (fun w => { w with vgran := 1 })) (fun _ c => (checksOf (.mov (v 191) (v 2)) c).ok &&
      !(checksOf (.mov (v 191) (v 2)) c).priv && c.exec.getLsbD 0 && (checksOf (.mov (v 191) (v 2)) c).regs.contains (191, 1) &&
      decide (8 * c.w.vgran ≤ c.phys 191 0)) = true ∧
    picked (placed .yield inMeld) (fun _ c => (checksOf .yield c).ok && (checksOf .yield c).regs.isEmpty && c.melded &&
      !(checksOf .yield c).meld && (c.decodeFault (checksOf .yield c)).isSome) = true ∧
    picked (placed (.mma (r 10) (v 2) (r 4)) id roomy) (fun _ c => let k := checksOf (.mma (r 10) (v 2) (r 4)) c
      k.ok && !k.priv && !c.melded && k.value.isSome && c.decodeFault k == k.value.map (fun y => causesIn c.src y c.exec)) = true := by
  decide +kernel

theorem witness_PoisonedReadsRecordHwErr :
    picked (placed (.mov (v 1) (v 2)) (fun w => { w with vpoison := (List.range 16).map (vKey 2) })) (fun s c =>
      let k := checksOf (.mov (v 1) (v 2)) c;
      (c.decodeFault k).isNone && (c.interlock s k).isNone && c.poisoned k == c.exec && c.exec != 0) = true := by decide +kernel

/-- A gang of one slice at its clause's last word, another slice beside it; and a gang that has a word left. -/
theorem witness_IssueAdvances :
    picked { placed .nop with cur := some ⟨1, 1⟩ } (fun s c => !c.replay && c.gang.getLsbD 0 && !c.gang.getLsbD 1 &&
      c.w.slices.length == 4 && decide (hdrBody c.src.hdr ≤ c.src.widx) && s.waves.get? c.key == some c.w &&
      s.blocks.get? c.w.block == some c.blk) = true ∧
    picked (placed .nop (fun w => { w with slices := w.slices.map (fun x => { x with cl := 0x000000F2 :: x.cl.drop 1 }) })) (fun _ c =>
      !c.replay && c.gang.getLsbD 0 && decide (c.src.widx < hdrBody c.src.hdr)) = true := by decide +kernel

theorem witness_RegisterWrites : (1#64).getLsbD 0 = true ∧ (1#64).getLsbD 1 = false ∧
    picked (placed .nop) (fun _ c => c.phys 3 0 != 4 && c.w.p.get 1 == 0) = true := by decide +kernel

theorem witness_MemoryIsLittleEndian : Memory.wf [] = true ∧ Memory.wf (Memory.store [] 16 4 1) = true := by decide +kernel

/-- Scratchpad of the placed block, a region, a die's scratchpad, global and private memory; places that do not overlap. -/
theorem witness_PlacesReadBackTheirStores :
    (∃ y, (placed .nop).blocks.get? 2 = some y ∧ 0 < y.halves.length) ∧
    (∃ y, ({ State.reset with regions := [(5, ⟨0, 0, 0, 0, 0, 0, 4096, [], [], [], [], false⟩)] } : State).regions.get? 5 = some y) ∧
    (∃ y, ({ State.reset with dregions := [(6, ⟨0, 0, 4096, [], []⟩)] } : State).dregions.get? 6 = some y) ∧
    (Loc.scratch 2 0 0).overlaps 4 (Loc.scratch 2 0 4) 4 = false ∧ (Loc.global 0 false).overlaps 4 (Loc.priv 0) 4 = false := by
  refine ⟨⟨_, rfl, ?_⟩, ⟨_, rfl⟩, ⟨_, rfl⟩, ?_, ?_⟩ <;> decide +kernel

/-! ### Vector arithmetic -/

theorem witness_ArithmeticResults : ∀ i ∈ ([.add (v 1) (v 2) (v 3), .sub (v 1) (v 2) (v 3), .mul (v 1) (v 2) (v 3), .fma (v 1) (v 2) (v 3),
    .fms (v 1) (v 2) (v 3), .fnma (v 1) (v 2) (v 3), .min (v 1) (v 2) (v 3), .max (v 1) (v 2) (v 3), .abs (v 1) (v 2), .neg (v 1) (v 2)] :
    List Instr), issuesNow (placed i) i = true := by decide +kernel

/-- In range, below and above the type's range. -/
theorem witness_ArithmeticElements : Ty.s8.isInt = true ∧
    (let x := fun a b => intArith .add (intOf .s8 a) (intOf .s8 b) 0;
      Ty.s8.intMin ≤ x 127 0 ∧ x 127 0 ≤ Ty.s8.intMax ∧ x 128 255 < Ty.s8.intMin ∧ Ty.s8.intMax < x 127 1) ∧
    3 < Ty.s8.count ∧ (255 < 2 ^ Ty.s8.bits) := by decide +kernel

theorem witness_SpecialFunctionResults : ∀ i ∈ ([.rcp (v 1) (v 2), .rsq (v 1) (v 2), .sqrt (v 1) (v 2), .exp2 (v 1) (v 2), .log2 (v 1) (v 2),
    .tanh (v 1) (v 2), .div (v 1) (v 2) (v 3)] : List Instr),
    issuesWith (placed i) i (fun _ c => !c.w.isDet) = true ∧ issuesWith (placed i inRound) i (fun _ c => c.w.isDet) = true := by
  decide +kernel

theorem witness_CompareResults : ∀ i ∈ ([v 1, .p 1] : List VCode).flatMap (fun d => ([.cmpeq d (v 2) (v 3), .cmpne d (v 2) (v 3),
    .cmplt d (v 2) (v 3), .cmple d (v 2) (v 3), .cmpun d (v 2) (v 3), .classify d (v 2) (v 3)] : List Instr)),
    issuesNow (placed i) i = true := by decide +kernel

theorem witness_ConvertResults : (∀ i ∈ ([.cvt (v 1) (v 2) 0, .scale (v 1) (v 2) (v 3), .rint (v 1) (v 2), .frxp (v 1) (v 2) 0,
    .frxp (v 1) (v 2) 1] : List Instr), issuesNow (placed i) i = true) ∧
    (∀ i ∈ ([.enct (v 1) (v 2) (v 3), .dect (v 1) (v 2) 0] : List Instr), issuesNow (placed i (fun w => { w with md := 0x300 })) i = true) := by
  decide +kernel

theorem witness_MoveResults : (∀ i ∈ ([.mov (v 1) (v 2), .sel (v 1) (v 2) (v 3)] : List Instr), issuesNow (placed i) i = true) ∧
    (∀ i ∈ ([.fxr (v 1) .zero, .fxr (r 3) .zero] : List Instr), issuesWith (placed i) i (fun _ c => c.fxQuiet) = true ∧
      issuesWith (placed i busy) i (fun _ c => !c.fxQuiet) = true) ∧
    issuesWith (placed (.fxr (v 1) .zero) id (fun b => { roomy b with halves := (roomy b).halves.map (fun h => { h with tops := [aczTop .mmak] }) }))
      (.fxr (v 1) .zero) (fun _ c => c.fxQuiet) = true ∧
    issuesWith (placed (.fxr (v 1) .zero) id (fun b => { roomy b with halves := (roomy b).halves.map (fun h => { h with tops := [aczTop (.acld 1)] }) }))
      (.fxr (v 1) .zero) (fun _ c => !c.fxQuiet) = true := by decide +kernel

/-! ### Integer, bit and lane instructions -/

theorem witness_BitwiseResults : ∀ i ∈ ([.and (v 1) (v 2) (v 3), .or (v 1) (v 2) (v 3), .xor (v 1) (v 2) (v 3), .not (v 1) (v 2),
    .shl (v 1) (v 2) (v 3), .shr (v 1) (v 2) (v 3), .sha (v 1) (v 2) (v 3), .rot (v 1) (v 2) (v 3), .clz (v 1) (v 2), .popc (v 1) (v 2),
    .brev (v 1) (v 2)] : List Instr), issuesNow (placed i (typed 9)) i = true := by decide +kernel

/-- At the ends of each range: a shift by 0, by w - 1 and by w; a field that ends at bit 31, and one of no bits. -/
theorem witness_BitTables : (0 < 64 ∧ 64 ≤ 64 ∧ 2 ^ 64 - 1 < 2 ^ 64) ∧ (0xFFFFFFFF < 2 ^ 32) ∧
    natBits 0x0001_011F 0 5 = 31 ∧ natBits 0x0001_011F 8 6 = 1 ∧ natBits 0x0001_011F 16 1 = 1 ∧ natBits 0x1F 8 6 = 0 := by decide +kernel

theorem witness_CarryChain : ∀ i ∈ ([.addc (v 1) (v 2) (v 3), .subb (v 1) (v 2) (v 3)] : List Instr),
    issuesWith (placed i) i (fun _ c => c.act.getLsbD 0 && !c.act.getLsbD 16 && decide (0 < c.w.width)) = true := by decide +kernel

theorem witness_WideIntegerResults : (∀ i ∈ ([.mulhi (v 1) (v 2) (v 3), .mulw (v 2) (v 4) (v 6), .bfe (v 1) (v 2) (v 3),
    .bfi (v 1) (v 2) (v 3), .clmul (v 1) (v 2) (v 3), .clmulh (v 1) (v 2) (v 3)] : List Instr), issuesNow (placed i (typed 9)) i = true) ∧
    issuesNow (placed (.dot4 (v 1) (v 2) (v 3)) (typed 5)) (.dot4 (v 1) (v 2) (v 3)) = true ∧
    issuesNow (placed (.dot2 (v 1) (v 2) (v 3)) (typed 7)) (.dot2 (v 1) (v 2) (v 3)) = true := by decide +kernel

theorem witness_LaneAndPredicateResults : (∀ i ∈ ([.shfl (v 1) (v 2) (v 3), .shflx (v 1) (v 2) (v 3), .bcast (v 1) (v 2) .zero,
    .wred (v 1) (v 2) 0, .wred (r 1) (v 2) 5, .wscan (v 1) (v 2) 0, .ballot (r 2) (v 2), .pand (.p 1) (.p 2) (.p 3),
    .por (.p 1) (.p 2) (.p 3), .pxor (.p 1) (.p 2) (.p 3)] : List Instr), issuesNow (placed i (typed 9)) i = true) ∧
    (∀ i ∈ ([.spsel (v 1) (v 2) 0, .spsel (v 1) (v 2) 1, .spsel (v 1) (v 2) 2, .spcmp (.p 1) (v 2) (v 3)] : List Instr),
      issuesNow (placed i (typed 5)) i = true) := by decide +kernel

/-! ### Scalar instructions -/

theorem witness_ScalarArithmetic : ∀ i ∈ ([.sadd (q 1) (q 2) (q 3), .ssub (q 1) (q 2) (q 3), .smul (q 1) (q 2) (q 3),
    .smulh (q 1) (q 2) (q 3), .sand (q 1) (q 2) (q 3), .sor (q 1) (q 2) (q 3), .sxor (q 1) (q 2) (q 3), .sshl (q 1) (q 2) (q 3),
    .sshr (q 1) (q 2) (q 3), .ssha (q 1) (q 2) (q 3), .smin (q 1) (q 2) (q 3), .smax (q 1) (q 2) (q 3), .scmplt (q 1) (q 2) (q 3),
    .scmpeq (q 1) (q 2) (q 3), .scmpltn (q 1) (q 2) (q 3), .sclz (q 1) (q 2), .spopc (q 127) (q 127)] : List Instr),
    issuesNow (placed i) i = true := by decide +kernel

theorem witness_ScalarArithmetic64 : (∀ i ∈ ([.sadd64 (q 2) (q 4) (q 6), .ssub64 (q 2) (q 4) (q 6), .smul64 (q 2) (q 4) (q 6),
    .sshl64 (q 2) (q 4) (q 5), .sshr64 (q 126) (q 4) (q 5)] : List Instr), issuesNow (placed i) i = true) ∧
    picked (placed (.sadd64 (q 1) (q 2) (q 4))) (fun _ _ => true) = true := by decide +kernel

/-- V2S of a lane that is there, of one that has exited, and of one whose register is poisoned. -/
theorem witness_ScalarMoves : (∀ i ∈ ([.ssel (q 1) (q 2) (q 3), .smov (q 1) (q 2), .sbfe (q 1) (q 2) (q 3), .pack (q 1) (q 2) (q 3),
    .unpack (q 1) (q 2) 0, .unpack (q 1) (q 2) 1, .unpack (q 1) (q 2) 2, .unpack (q 1) (q 2) 3, .pset (.p 1) (q 2)] : List Instr),
    issuesNow (placed i) i = true) ∧
    (let gone := fun (c : Ctx) => (c.w.lanes (BitVec.allOnes 16) (fun x => x.ex)).getLsbD (c.scalar false (q 3) % c.w.width);
      issuesWith (placed (.v2s (q 1) (v 2) (q 3))) (.v2s (q 1) (v 2) (q 3)) (fun _ c => !gone c && !c.w.vpoison.contains (vKey 2 0)) = true ∧
      issuesWith (placed (.v2s (q 1) (v 2) (q 3)) (fun w => { w with vpoison := [vKey 2 0] })) (.v2s (q 1) (v 2) (q 3))
        (fun _ c => !gone c && c.w.vpoison.contains (vKey 2 0)) = true ∧
      issuesWith (placed (.v2s (q 1) (v 2) (q 3)) (fun w => { w with slices := w.slices.mapIdx (fun i x => if i = 0 then { x with ex := 1 } else x) }))
        (.v2s (q 1) (v 2) (q 3)) (fun _ c => gone c) = true ∧
      issuesWith { placed (.v2s (q 1) (v 2) (q 3)) (fun w => withS [(3, 4)] (inRound (outstanding (.load false false) true 4 w))) with
        cur := some ⟨1, 1⟩ } (.v2s (q 1) (v 2) (q 3)) (fun s c => !gone c && c.w.isDet && (c.waitOn s (fun keys => keys.contains (vKey 2 4))).isSome) = true ∧
      issuesWith (placed (.v2s (q 1) (v 2) (q 3)) inRound) (.v2s (q 1) (v 2) (q 3))
        (fun s c => !gone c && c.w.isDet && (c.waitOn s (fun keys => keys.contains (vKey 2 0))).isNone) = true) := by decide +kernel

/-- An index of no register; FX with and without an operation outstanding; TVEC; a read-only register. -/
theorem witness_SystemRegisters : SysReg.ofIndex 0x3 = none ∧ picked (placed (.sysrd (q 2) 3)) (fun _ _ => true) = true ∧
    issuesWith (placed (.sysrd (q 2) 1)) (.sysrd (q 2) 1) (fun _ c => c.fxQuiet) = true ∧
    issuesWith (placed (.sysrd (q 2) 1) busy) (.sysrd (q 2) 1) (fun _ c => !c.fxQuiet) = true ∧
    issuesWith (placed (.syswr 1 (q 2)) busy) (.syswr 1 (q 2)) (fun _ c => !c.fxQuiet) = true ∧
    issuesNow (placed (.sysrd (q 2) 4)) (.sysrd (q 2) 4) = true ∧
    issuesWith (placed (.syswr 1 (q 2))) (.syswr 1 (q 2)) (fun _ c => c.fxQuiet) = true ∧
    picked (placed (.sysrd (q 2) 0x300)) (fun _ c => !c.melded && !c.w.priv) = true ∧
    SysReg.ofIndex 0x300 = some .tvec ∧ SysReg.isPrivileged .tvec = true ∧ (scalarDst (SysReg.wide .tvec) (q 2)).ok = true ∧
    issuesNow (placed (.syswr 0x300 (q 2)) privileged) (.syswr 0x300 (q 2)) = true ∧
    issuesNow (placed (.syswr 8 (q 2))) (.syswr 8 (q 2)) = true ∧ SysReg.ofIndex 8 = some .wstat := by decide +kernel

/-! ### Control -/

/-- A literal word of the placed clause. -/
def withL (k n : Nat) (w : Wave) : Wave :=
  { w with slices := w.slices.map (fun x => { x with cl := listUpdate x.cl (k + 2) (fun _ => BitVec.ofNat 32 n) }) }

/-- Every slice of the placed wave changed. -/
def inSlices (f : Slice → Slice) (w : Wave) : Wave := { w with slices := w.slices.map f }

/-- v registers of every lane. -/
def withVs (l : List (Nat × Word)) (w : Wave) : Wave :=
  { w with v := (l.flatMap (fun e => (List.range 16).map (fun x => (vKey e.1 x, e.2)))).foldl (fun m e => m.set e.1 e.2) w.v }

/-- A state in which the picked gang is slice 0 alone. -/
def alone (s : State) : State := { s with cur := some ⟨1, 1⟩ }

/-- Legal and illegal modes, inside and outside a melded region, and legal and illegal offset tables. -/
theorem witness_WaveModes : (∀ i ∈ ([.nop, .mode .zero .zero, .idemb, .ideme, .phint 0, .quant, .digest (v 1) 1, .digest (v 1) 4,
    .meld (.p 1) (r 2)] : List Instr), issuesNow (placed i) i = true) ∧
    issuesNow (placed (.mode (l 0) (l 0)) (withL 0 0x400000)) (.mode (l 0) (l 0)) = true ∧
    issuesNow (placed (.mode (l 0) (l 0)) (withL 0 0x50000)) (.mode (l 0) (l 0)) = true ∧
    issuesWith (placed .melde inMeld) .melde (fun _ c => c.melded) = true ∧ issuesWith (placed .melde) .melde (fun _ c => !c.melded) = true ∧
    issuesNow (placed (.meld (.p 1) (r 2)) (fun w => { w with mr := true })) (.meld (.p 1) (r 2)) = true ∧
    issuesWith (placed (.meld (.p 1) (r 2)) (withS [(2, 0x40000)])) (.meld (.p 1) (r 2)) (fun _ c => c.w.sread 2 1 == 0x40000) = true ∧
    issuesWith (placed (.meld (.p 1) (r 2)) (withS [(3, 6)])) (.meld (.p 1) (r 2)) (fun _ c => natBits (c.w.sread 3 1) 0 3 == 6) = true := by
  decide +kernel

/-- Each transfer to a legal target, taken and not taken; a target that is no multiple of 4; and one above the window. -/
theorem witness_UniformTransfers : (∀ i ∈ ([.br (l 0), .brx (l 0), .brs 0 (r 1) (l 0), .brs 1 (r 1) (l 0), .call (r 2) (l 0),
    .calli (r 2) (r 4), .ret (r 4)] : List Instr), issuesNow (placed i) i = true) ∧
    issuesNow (placed (.brx (l 0)) (withL 0 2)) (.brx (l 0)) = true ∧ issuesNow (placed (.ret (r 4)) (withS [(4, 3)])) (.ret (r 4)) = true ∧
    issuesNow (placed (.brx (l 0)) (withL 1 0x01000000)) (.brx (l 0)) = true ∧
    picked (alone (placed .nop)) (fun _ c => c.gang.getLsbD 0 && !c.gang.getLsbD 1 && c.w.slices.length == 4) = true := by decide +kernel

/-- Stacks with room and full ones; JOIN on an empty stack, with lanes pending, and with none. -/
theorem witness_DivergeAndJoin : let e := fun (n : BitVec 4) (x : Slice) => { x with rsd := 1, rs := [⟨40, 80, n, 0xF⟩] ++ x.rs.drop 1 };
    issuesNow (placed (.brv 1 (l 0) (l 1)) (fun w => { w with p := w.p.set 1 0xF5 })) (.brv 1 (l 0) (l 1)) = true ∧
    issuesWith (placed (.brv 9 (l 0) (l 1)) (inSlices (fun x => { x with rsd := 16 }))) (.brv 9 (l 0) (l 1))
      (fun _ c => c.w.sliceMask (fun x => x.rsd == 16) &&& c.gang != 0) = true ∧
    issuesNow (placed .join) .join = true ∧ issuesNow (placed .join (inSlices (e 3))) .join = true ∧
    issuesNow (placed .join (inSlices (e 0))) .join = true := by decide +kernel

/-- A scratchpad line, and a state in which the registers 2 and 3 hold its address. -/
def spadS : Wave → Wave := withS [(2, 0), (3, 0xF0000000)]

/-- The same for the registers 4 and 5 of every lane, and 2 and 3. -/
def spadV : Wave → Wave := withVs [(2, 0), (3, 0xF0000000), (4, 0), (5, 0xF0000000)]

theorem witness_WaitsAndParks : (∀ i ∈ ([.regang (r 1), .yield, .barb 15, .barc 3] : List Instr), issuesNow (placed i) i = true) ∧
    issuesWith (placed (.waitf 0x801)) (.waitf 0x801) (fun _ c => c.w.flag 0 == 0 && c.w.flag 11 == 0) = true ∧
    issuesWith (placed (.waitf 0x801) (fun w => { w with flags := listUpdate w.flags 11 (fun _ => 1) })) (.waitf 0x801)
      (fun _ c => c.w.flag 11 == 1 && !c.w.isDet) = true ∧
    issuesWith (placed (.mon (r 2)) spadS roomy) (.mon (r 2)) (fun s c => match s.check c.w c.blk c.src
        ⟨(bitsOf c.exec).headD 0, c.addressOf (r 2) 0, 1, 1, [0x00, 0xF0, 0xF1, 0xF2], false, .unchecked⟩ with
      | .ok g => g.loc == .scratch 2 0 0
      | .error _ => false) = true ∧
    issuesNow (placed (.mwait (l 0))) (.mwait (l 0)) = true ∧
    issuesWith (placed (.mwait (l 0)) (withL 0 9)) (.mwait (l 0)) (fun _ c => !c.w.isDet && c.operand (.data 1) (l 0) 0 == 9 &&
      c.w.monitor == .off) = true ∧
    issuesWith (placed (.mwait (l 0)) (fun w => { withL 0 9 w with monitor := .armed (.priv 0) })) (.mwait (l 0)) (fun _ c =>
      c.operand (.data 1) (l 0) 0 == 9 && c.w.monitor == .armed (.priv 0)) = true ∧
    (∀ cluster ∈ [false, true], (let t := placed .nop (inSlices (fun x => { x with park := barrierPark cluster 3 }));
      (t.waves.get? 1).any (fun w => w.arrivedAt (barrierPark cluster 3) && (t.blocks.get? w.block).any (fun b =>
        ((b.barriers cluster)[3]?).isSome)) = true)) := by decide +kernel

theorem witness_EndsAndTraps :
    issuesWith (placed (.exit (l 0))) (.exit (l 0)) (fun _ c => (c.w.causesOf c.gang).isEmpty && c.performedAt c.exec 0) = true ∧
    issuesWith (placed (.exit (l 0)) (withL 0 4)) (.exit (l 0)) (fun _ c => (c.w.causesOf c.gang).isEmpty && c.performedAt c.exec 4) = true ∧
    issuesWith (placed (.exit (l 0)) (withL 0 5)) (.exit (l 0)) (fun _ c => c.operand (.data 1) (l 0) 0 == 5) = true ∧
    issuesWith (placed (.trap .zero)) (.trap .zero) (fun _ c => c.act != 0) = true ∧
    issuesWith (placed .tret) .tret (fun _ c => !c.w.inHandler) = true ∧
    issuesWith (placed .tret (fun w => { w with inHandler := true, priv := true })) .tret (fun _ c => c.w.inHandler &&
      (c.w.causesOf c.gang).isEmpty) = true ∧
    issuesWith (placed .tret (fun w => { w with inHandler := true, priv := true, causes := [laneCause ⟨0, 0, 0, 0, 0, []⟩ .window 0] })) .tret
      (fun _ c => c.w.inHandler && (c.w.deferredOf c.gang).isSome) = true ∧
    issuesWith (placed (.exit (l 0)) (outstanding (.store false false) false 0)) (.exit (l 0)) (fun _ c => !c.w.isDet &&
      (c.w.causesOf c.gang).isEmpty && !c.performedAt c.exec 0) = true := by decide +kernel

/-! ### Memory -/

/-- The lanes' requests of an access. -/
def asksOf (c : Ctx) (addr : Nat → Nat) (n : Nat) (windows : List Nat) (write : Bool) (k : EaseClass) : List Ask :=
  (bitsOf c.act).map (fun x => ⟨x, addr x % 2 ^ 64, n, n, windows, write, k⟩)

/-- An access may issue: nothing holds it back, and its request slots are free. -/
def mayGo (s : State) (c : Ctx) (asks : List Ask) (k : MemKind) (sx returns counted strong : Bool) (n : Nat) : Bool :=
  !c.w.isDet && !c.accessHeld && s.slotsFree c.w (c.newOp k n sx returns counted
    ((s.checkAll c.w c.blk c.src asks).1.flatMap (fun g => unitsOf g strong n 0 0 (c.phys 8 g.ask.lane))))

/-- An access of the placed deterministic wave sees every place full and sound. -/
def seesAll (s : State) (c : Ctx) (asks : List Ask) (reads strong : Bool) (n : Nat) : Bool :=
  c.w.isDet && !c.accessHeld && (c.awaitWalks s asks).isNone && (match c.w.det with
    | some e =>
      let q := c.prepare s reads asks
      let view := q.1.detView c.w.core e
      let units := q.2.1.flatMap (fun g => unitsOf g strong n 0 0 (c.phys 8 g.ask.lane))
      units.length == 16 && units.all (fun u => !view.lineEmpty u.loc && !view.poisoned u.loc)
    | none => false)

/-- Another gang's fence under way. -/
def fenced (w : Wave) : Wave := { w with fencing := some 0x8000 }

/-- A deterministic wave that has buffered stores to 257 lines. -/
def crowded (w : Wave) : Wave := { w with det := some ⟨0, 0, 0, false, 0, none, 0, (List.range 257).map (fun i =>
  .mem ⟨i, 0, .store false false, 0, 4, false, false, none, false, false, 0xF, ⟨0, 0, 0, 0, 0, []⟩, 1,
    [⟨0, 0, 4, 0, .scratch 2 0 (128 * i), .issued, 0, 0, 0, 0, 0, none, none, 0, false, false⟩]⟩)⟩ }

/-- The loads and then the stores: issuing, held back, and buffered or served in a deterministic launch. -/
theorem witness_LoadsAndStoresIssue :
    (∀ x ∈ ([(.ld (v 8) (v 4) false 2, false, false), (.lda (v 8) (v 4) false 2, true, true), (.ldx (v 8) (v 4) true 0, true, false)] :
      List (Instr × Bool × Bool)), issuesWith (placed x.1 spadV roomy) x.1 (fun s c =>
        mayGo s c (asksOf c (c.addressOf (v 4)) 4 [0, 0xF0, 0xF1, 0xF2, 0xF3] false .load) (.load x.2.1 x.2.2) false true true x.2.1 4) = true) ∧
    (∀ x ∈ ([(.ldsp (v 8) (v 6) false 2, 0xF0), (.ldcl (v 8) (v 6) false false 2, 0xF1), (.ldds (v 8) (v 6) false 2, 0xF2)] :
      List (Instr × Nat)), issuesWith (placed x.1 id roomy) x.1 (fun s c =>
        mayGo s c (asksOf c (fun l => x.2 * 2 ^ 56 + c.operand .raw (v 6) l) 4 [x.2] false .load) (.load false false) false true true false 4) = true) ∧
    issuesWith (placed (.gath (v 8) (r 2) (v 6)) spadS roomy) (.gath (v 8) (r 2) (v 6)) (fun s c =>
      mayGo s c (asksOf c (fun l => ((c.addressOf (r 2) l + signedOf 32 (c.operand .raw (v 6) l) * 4) % 2 ^ 64).toNat) 4
        [0, 0xF0, 0xF1, 0xF2, 0xF3] false .load) (.load false false) false true true false 4) = true ∧
    issuesWith (placed (.ld (v 8) (v 4) false 2) fenced) (.ld (v 8) (v 4) false 2) (fun _ c => !c.w.isDet && c.accessHeld) = true ∧
    issuesWith (placed (.ld (v 8) (v 4) false 2) (fun w => inRound (spadV w)) roomy) (.ld (v 8) (v 4) false 2) (fun s c =>
      seesAll s c (asksOf c (c.addressOf (v 4)) 4 [0, 0xF0, 0xF1, 0xF2, 0xF3] false .load) true false 4) = true ∧
    (∀ x ∈ ([(.st (v 8) (v 4) 2, false, false), (.stl (v 8) (v 4) 2, true, true), (.stx (v 8) (v 4) 2, true, false),
        (.sti (v 8) (v 4) 2, false, false)] : List (Instr × Bool × Bool)), issuesWith (placed x.1 spadV roomy) x.1 (fun s c =>
      mayGo s c (asksOf c (c.addressOf (v 4)) 4 [0, 0xF0, 0xF1, 0xF2, 0xF3] true .store) (.store x.2.1 x.2.2) false false false x.2.1 4) = true) ∧
    (∀ x ∈ ([(.stsp (v 8) (v 6) 2, 0xF0), (.stcl (v 8) (v 6) false 2, 0xF1), (.stds (v 8) (v 6) 2, 0xF2)] : List (Instr × Nat)),
      issuesWith (placed x.1 id roomy) x.1 (fun s c =>
        mayGo s c (asksOf c (fun l => x.2 * 2 ^ 56 + c.operand .raw (v 6) l) 4 [x.2] true .store) (.store false false) false false false false 4) = true) ∧
    issuesNow (placed (.scat (v 8) (r 2) (v 6)) spadS roomy) (.scat (v 8) (r 2) (v 6)) = true ∧
    issuesWith (placed (.st (v 8) (v 4) 2) fenced) (.st (v 8) (v 4) 2) (fun _ c => !c.w.isDet && c.accessHeld) = true ∧
    issuesWith (placed (.st (v 8) (v 4) 2) (fun w => inRound (spadV w)) roomy) (.st (v 8) (v 4) 2) (fun s c =>
      seesAll s c (asksOf c (c.addressOf (v 4)) 4 [0, 0xF0, 0xF1, 0xF2, 0xF3] true .store) false false 4) = true := by decide +kernel

/-- Deterministic accesses that wait for the walks of their pages, a load at an empty line, and stores to private memory
alone. -/
theorem witness_LoadsAndStoresIssue_waits :
    (∀ x ∈ ([(.ld (v 8) (v 4) false 2, false), (.st (v 8) (v 4) 2, true)] : List (Instr × Bool)),
      issuesWith (placed x.1 inRound) x.1 (fun s c => !c.accessHeld &&
        (c.awaitWalks s (asksOf c (c.addressOf (v 4)) 4 [0, 0xF0, 0xF1, 0xF2, 0xF3] x.2 (if x.2 then .store else .load))).isSome) = true) ∧
    issuesWith ((placed (.ld (v 8) (v 4) false 2) (fun w => inRound (spadV w)) roomy).modHalf 2 0 (fun h => { h with empty := [0] }))
      (.ld (v 8) (v 4) false 2) (fun s c => !c.accessHeld && c.w.det.any (fun e => (s.detView c.w.core e).lineEmpty (.scratch 2 0 0))) = true ∧
    issuesWith ((placed (.st (v 8) (v 4) 2) (fun w => inRound (withVs [(4, 0), (5, 0xF3000000)] w)) roomy).modGrid 3 (fun g =>
        { g with launch := { g.launch with privsz := 16 } })) (.st (v 8) (v 4) 2) (fun s c =>
      let asks := asksOf c (c.addressOf (v 4)) 4 [0, 0xF0, 0xF1, 0xF2, 0xF3] true .store;
      let q := c.prepare s false asks;
      !c.accessHeld && (c.awaitWalks s asks).isNone && q.2.1.length == 16 && (q.2.1.flatMap (fun g => unitsOf g false 4 0 0 0)).all (fun u =>
        match u.loc with
        | .priv _ => true
        | _ => false)) = true := by decide +kernel

/-- A deterministic wave whose stores would touch more than 256 lines. -/
theorem witness_LoadsAndStoresIssue_full : issuesWith (placed (.st (v 8) (v 4) 2) (fun w => crowded (spadV w)) roomy) (.st (v 8) (v 4) 2)
    (fun _ c => match c.w.det with
      | some e => !e.buffer.isEmpty && decide (256 < e.lines.length)
      | none => false) = true := by decide +kernel

theorem witness_AtomicsIssue : (∀ x ∈ ([(.aadd (v 8) (v 4) (v 6), .add, 9), (.amin (v 8) (v 4) (v 6), .min, 9), (.amax (v 8) (v 4) (v 6), .max, 9),
      (.aand (v 8) (v 4) (v 6), .and, 9), (.aor (v 8) (v 4) (v 6), .or, 9), (.axor (v 8) (v 4) (v 6), .xor, 9), (.axchg (v 8) (v 4) (v 6), .xchg, 9),
      (.acas (v 8) (v 4) (v 6), .cas, 9), (.ainc (v 8) (v 4) (v 6), .inc, 10), (.adec (v 8) (v 4) (v 6), .dec, 10), (.afadd (v 8) (v 4) (v 6), .fadd, 0),
      (.aaddn (v 8) (v 4) (v 6), .addn, 9)] : List (Instr × AtomicOp × Nat)), issuesWith (placed x.1 (typed x.2.2)) x.1 (fun s c =>
        mayGo s c (asksOf c (c.addressOf (v 4)) 4 [0x00] true .store) (.atomic x.2.1) false true true true 4) = true) ∧
    (∀ x ∈ ([(.spaadd (v 8) (v 4) (v 6), .add), (.spacas (v 8) (v 4) (v 6), .cas)] : List (Instr × AtomicOp)),
      issuesWith (placed x.1 (fun w => typed 9 (spadV w)) roomy) x.1 (fun s c =>
        mayGo s c (asksOf c (c.addressOf (v 4)) 4 [0xF0, 0xF1, 0xF2] true .store) (.atomic x.2) false true true true 4) = true) ∧
    issuesWith (placed (.spaadd .zero (v 4) (v 6)) (fun w => inRound (typed 9 (spadV w))) roomy) (.spaadd .zero (v 4) (v 6)) (fun s c =>
      seesAll s c (asksOf c (c.addressOf (v 4)) 4 [0xF0, 0xF1, 0xF2] true .store) true true 4) = true ∧
    (∀ x ∈ ([(.feempty (v 4), false), (.fefull (v 4), true)] : List (Instr × Bool)), issuesWith (placed x.1 spadV roomy) x.1 (fun s c =>
        mayGo s c (asksOf c (c.addressOf (v 4)) 1 [0xF0, 0xF1] true .unchecked) (.fe x.2) false false false false 1) = true ∧
      issuesWith (placed x.1 (fun w => inRound (spadV w)) roomy) x.1 (fun s c =>
        seesAll s c (asksOf c (c.addressOf (v 4)) 1 [0xF0, 0xF1] true .unchecked) false false 1) = true) := by decide +kernel

theorem witness_AccessesPerform : (∃ y, (placed .nop id roomy).blocks.get? 2 = some y ∧ 0 < y.halves.length) ∧
    (Loc.scratch 2 0 0).inCluster = true ∧ (0xFFFFFFFF < 2 ^ Ty.s32.bits) := by
  refine ⟨⟨_, rfl, ?_⟩, ?_⟩ <;> decide +kernel

theorem witness_FencesComplete : let quiet := fun (c : Ctx) => c.w.memOps.isEmpty && c.w.fencing.isNone && decide (c.w.times.system ≤ c.now);
    issuesWith (placed .fence) .fence (fun s c => !c.w.isDet && quiet c && (s.tileAccesses c.key c.w).isEmpty) = true ∧
    issuesWith (placed .fence (outstanding (.store false false) false 0)) .fence (fun _ c => c.w.fencing.isNone && c.w.memOps.any (fun o =>
      o.kind.isAccess && o.units.any (fun u => decide (u.lane < 64) && u.out))) = true ∧
    issuesWith (placed .fence (fun w => { pastQuantum w with md := 0x4000 })) .fence (fun s c => quiet c && (match c.w.det with
        | some e => e.past == some c.gang
        | none => false) && s.injected c.key c.w (BitVec.allOnes 16)) = true ∧
    issuesWith (placed .fence (fun w => { w with times := ⟨9, 9, 9, 9, 9⟩ })) .fence (fun _ c => decide (c.now < c.w.times.at_ (mdScope c.w.md))) = true ∧
    issuesWith (placed (.fencel 4)) (.fencel 4) (fun s c => quiet c && s.injected c.key c.w c.gang && (s.tileAccesses c.key c.w).isEmpty) = true ∧
    (∀ i ∈ ([.fence, .fencel 0, .bartry (.p 1) (r 2) .zero, .barwt 1 (r 2) .zero] : List Instr),
      issuesWith (placed i (fun w => inRound (spadS w)) roomy) i (fun _ c => c.w.isDet) = true) ∧
    issuesWith (placed (.mwait (l 0)) (fun w => inRound (withL 0 9 w))) (.mwait (l 0)) (fun _ c => c.operand (.data 1) (l 0) 0 == 9) = true ∧
    issuesNow (placed .invl1) .invl1 = true ∧ issuesNow (placed (.lease .zero)) (.lease .zero) = true ∧
    issuesWith (placed (.lease (l 0)) (withL 0 1024)) (.lease (l 0)) (fun _ c => c.operand (.data 1) (l 0) 0 == 1024) = true ∧
    issuesWith (placed (.lease (l 0)) (withL 0 1025)) (.lease (l 0)) (fun _ c => c.operand (.data 1) (l 0) 0 == 1025) = true := by decide +kernel

/-- The place of the barrier object that the registers 2 and 3 name. -/
def atZero (s : State) (c : Ctx) : Bool := match c.barrierAt s (r 2) with
  | .ok g => g == .scratch 2 0 0
  | .error _ => false

theorem witness_BarrierObjects :
    (∀ x ∈ ([(.barinit (r 2) (l 0), .barInit), (.barexp (r 2) (l 0), .barExp), (.bararr (r 2) (l 0), .barArr)] : List (Instr × MemKind)),
      (∀ n ∈ [1, 65535], issuesWith (placed x.1 (fun w => withL 0 n (spadS w)) roomy) x.1 (fun s c => atZero s c && !c.accessHeld && !c.w.isDet &&
        s.slotsFree c.w (c.newOp x.2 16 false false false [⟨0, 0, 16, BitVec.ofNat 64 (c.addressOf (r 2) 0), .scratch 2 0 0, .issued,
          BitVec.ofNat 64 n, 0, 0, 0, 0, none, none, 0, false, false⟩])) = true) ∧
      issuesWith (placed x.1 (fun w => inRound (withL 0 1 (spadS w))) roomy) x.1 (fun s c => atZero s c && !c.accessHeld) = true) ∧
    (∀ n ∈ [0, 65536], issuesWith (placed (.barinit (r 2) (l 0)) (fun w => withL 0 n (spadS w)) roomy) (.barinit (r 2) (l 0))
      (fun _ c => c.operand (.data 1) (l 0) 0 == n) = true) ∧
    (∀ f ∈ ([id, pastQuantum] : List (Wave → Wave)), issuesWith (placed (.bartry (.p 1) (r 2) .one) (fun w => f (spadS w)) roomy)
      (.bartry (.p 1) (r 2) .one) (fun s c => atZero s c && !c.accessHeld && (c.phaseAt s (r 2) (.scratch 2 0 0)).toOption.isSome) = true) ∧
    issuesWith (placed (.bartry (.p 1) (r 2) .one) (fun w => fenced (spadS w)) roomy) (.bartry (.p 1) (r 2) .one)
      (fun s c => atZero s c && c.accessHeld && !c.w.isDet && (c.phaseAt s (r 2) (.scratch 2 0 0)).toOption.isNone) = true ∧
    (∀ i ∈ ([.barwt 0 (r 2) .zero, .barwt 1 (r 2) .zero] : List Instr), issuesWith (placed i spadS roomy) i (fun s c => atZero s c &&
      (c.phaseAt s (r 2) (.scratch 2 0 0)).toOption.any (fun e => !e.2)) = true) ∧
    issuesWith (placed (.fetest (.p 1) (v 2)) spadV roomy) (.fetest (.p 1) (v 2)) (fun s c => !c.accessHeld && c.w.memOps.isEmpty &&
      (match (s.checkAll c.w c.blk c.src ((bitsOf c.act).map (fun l => ⟨l, c.addressOf (v 2) l % 2 ^ 64, 1, 1, [0xF0, 0xF1], false, .unchecked⟩))).1 with
        | [] => false
        | l => (c.readAt s true (l.flatMap (fun g => unitsOf g false 1 0 0 0))).toOption.isSome)) = true ∧
    (∃ y, (placed .nop id roomy).blocks.get? 2 = some y ∧ 0 < y.halves.length) := by
  refine ⟨?_, ?_, ?_, ?_, ?_, ?_, _, rfl, ?_⟩ <;> decide +kernel

/-- A read of a barrier object in another core's slot: not yet sent, on its way, and back. -/
theorem witness_BarrierObjects_far : let far := fun (b : Block) => { roomy b with halves := (roomy b).halves.map (fun h => { h with core := 1 }) };
    let probe := fun (c : Ctx) (p : UnitPhase) (n : Nat) => c.newOp (.probe false) 1 false false false
      [⟨(bitsOf c.exec).headD 0, 0, 16, BitVec.ofNat 64 (c.addressOf (r 2) 0), .scratch 2 0 0, p, 0, 0, 0, 0, n, none, none, 0, false, false⟩];
    let asked := fun (s : State) (c : Ctx) (p : UnitPhase) (n : Nat) =>
      { c with w := { c.w with memOps := [probe c p n] } }.phaseAt { s with time := 20 } (r 2) (.scratch 2 0 0);
    issuesWith (placed (.bartry (.p 1) (r 2) .one) spadS far) (.bartry (.p 1) (r 2) .one) (fun s c => atZero s c && !c.accessHeld &&
      !c.w.isDet && s.remote c.w.core (.scratch 2 0 0) && s.slotsFree c.w (probe c .issued 0) &&
      (match c.phaseAt s (r 2) (.scratch 2 0 0) with
        | .error (.hold _) => true
        | _ => false) &&
      (match asked s c .issued 0 with
        | .error .stall => true
        | _ => false) &&
      (asked s c .arrived 1).toOption.isSome) = true := by decide +kernel

/-- A state with a partition of the first core, a module of one kernel, and identity page tables of function 1. -/
def served (s : State) : State :=
  { s with
    hbm := ((s.hbm.store 0x1000 8 0x2001).store 0x2000 8 0x3001).store 0x3000 8 0xDF
    parts := s.parts.set 0 { Partition.empty with
      cores := [0, 1], grants := [(0, 2 ^ 39)], cairnBase := 0x10000000, cairnSize := 0x10000000
      modules := [(0, ⟨0x5000, 0x1000, 0x5000, 0x1000, 0, [{ wordKernel with entry := 0x5000 }], 1, none⟩)] }
    funcs := s.funcs.set 1 { Func.reset with part := some 0, active := true, root := 0x1000 } }

theorem witness_TasksAndPrefetches : (∀ i ∈ ([.pfd 0 (v 2), .pfd 1 (v 2), .ipf 0 (r 2) 1, .ipf 2 (r 2) 16] : List Instr),
      issuesNow (placed i) i = true) ∧
    issuesWith (served (placed (.ipf 2 (r 2) 1) (fun w => { w with priv := false }))) (.ipf 2 (r 2) 1) (fun s c =>
      match s.codeLine c.w ((c.wordTarget (r 2)).toNat / 64 * 64) with
      | some (t, line) => !t.hpoison.contains (line / 2)
      | none => false) = true ∧
    issuesWith (placed (.ipf 2 (r 2) 1) (fun w => { w with priv := false, func := 2 })) (.ipf 2 (r 2) 1) (fun s c =>
      (s.codeLine c.w ((c.wordTarget (r 2)).toNat / 64 * 64)).isNone) = true ∧
    issuesWith (placed (.gfire (r 2) (r 4))) (.gfire (r 2) (r 4)) (fun _ c => c.act != 0 && !c.accessHeld && c.addressOf (r 2) 0 == 0) = true ∧
    issuesWith (placed (.gfire (r 2) (r 4)) (fun w => { w with md := 0x8 })) (.gfire (r 2) (r 4)) (fun _ c => c.act == 0) = true ∧
    issuesWith (served (placed (.spawn (v 2) (v 4)))) (.spawn (v 2) (v 4)) (fun s c => c.act != 0 && !c.accessHeld &&
      decide (s.taskLoad (dieOf c.w.core) + (bitsOf c.act).length ≤ 16384) &&
      !c.behind s (fun w y => dieOf w.core == dieOf c.w.core && opcodeOf y == opcodeOf c.src.word) &&
      (bitsOf c.act).all (fun l => (s.spawnFault c.w.part (c.operand .raw (v 2) l) (c.addressOf (v 4) l)).isNone)) = true ∧
    issuesWith (served (placed (.launch (r 2) (r 4)))) (.launch (r 2) (r 4)) (fun s c => c.act != 0 && c.addressOf (r 4) 0 == 0 &&
      !c.accessHeld && s.accessesDone c.key c.w c.gang c.act && c.performedAt c.act (max 3 (mdScope c.w.md)) && !c.w.isDet &&
      !c.behind s (fun w y => w.part == c.w.part && opcodeOf y == opcodeOf c.src.word) &&
      decide (s.launchesWaiting c.w.part < 4096) && (s.func c.w.func).switching.isNone && (s.func c.w.func).active &&
      (let s1 := s.modWave c.key (fun w => { w with idem := false, side := true });
       match s1.enginePlace globalDecoder c.w.func c.w.priv false 0 64 with
       | (t, .ok g) => !t.poisoned g
       | _ => false)) = true ∧
    issuesWith (placed (.launch (r 2) (r 4)) (withS [(4, 8)])) (.launch (r 2) (r 4)) (fun _ c => c.act != 0 && c.addressOf (r 4) 0 % 64 != 0) = true := by
  decide +kernel

/-! ### Engines, matrix and privileged -/

/-- A descriptor of one row of 64 bytes from scratchpad 0 to scratchpad 128, in the registers from s4. -/
def copyDesc : List (Nat × Word) := [(4, 0), (5, 0xF0000000), (6, 128), (7, 0xF0000000), (8, 64), (9, 1)]

/-- A descriptor in the registers whose checks are met, and one whose length is 0. -/
theorem witness_EnginesStart_copies :
    (∀ x ∈ ([(.xcpy (r 4), .cpy), (.xtile (r 4), .tile), (.xgath (r 4), .gath), (.xscat (r 4), .scat)] : List (Instr × XOp)),
      ∀ f ∈ ([id, inRound] : List (Wave → Wave)), issuesWith (placed x.1 (fun w => f (withS copyDesc w)) roomy) x.1 (fun s c => c.act != 0 &&
        c.easeTurn s 2 && (s.descFault (s.waveDecoder c.w c.blk) x.2
          ((List.range 12).map (fun i => c.w.s.get (4 + i)))).isNone) = true) ∧
    issuesWith (placed (.xred (r 4)) (withS (copyDesc ++ [(7, 0)])) roomy) (.xred (r 4)) (fun s c => c.act != 0 &&
      (s.descFault (s.waveDecoder c.w c.blk) .red ((List.range 12).map (fun i => c.w.s.get (4 + i)))).isNone) = true ∧
    issuesWith (placed (.xcpy (r 4)) (fun w => { withS copyDesc w with md := 0x8 })) (.xcpy (r 4)) (fun _ c => c.act == 0) = true ∧
    issuesWith ((placed (.xcpy (r 4)) (withS copyDesc) roomy).modCore 0 (fun k => { k with
      eases := (List.range 63).map (fun i => (i, ⟨100 + i, false, 1, 0, []⟩)) })) (.xcpy (r 4)) (fun s c => c.act != 0 && !c.easeTurn s 2 &&
        (s.descFault (s.waveDecoder c.w c.blk) .cpy ((List.range 12).map (fun i => c.w.s.get (4 + i)))).isNone) = true ∧
    issuesWith (placed (.xcpy (r 4))) (.xcpy (r 4)) (fun s c => c.act != 0 && (s.descFault (s.waveDecoder c.w c.blk) .cpy
      ((List.range 12).map (fun i => c.w.s.get (4 + i)))).isSome) = true := by decide +kernel

theorem witness_EnginesStart_chains :
    issuesWith (placed (.xchain 15 (r 4))) (.xchain 15 (r 4)) (fun s c => c.act != 0 && c.addressOf (r 4) 0 == 0 && !c.w.isDet &&
      s.chanFree c.w.block 15 c.w.core && !c.behind s (fun w y => w.core == c.w.core && s.wantsChannel w y) &&
      !s.chainWaits c.w.core ((c.w.stalledSince c.gang).getD c.now)) = true ∧
    issuesWith (placed (.xchain 0 (r 4)) inRound) (.xchain 0 (r 4)) (fun _ c => c.act != 0 && c.w.isDet) = true ∧
    issuesWith (placed (.xchain 0 (r 4)) id (fun b => { b with chans := List.replicate 16 { Channel.stopped with run := true } })) (.xchain 0 (r 4))
      (fun s c => c.act != 0 && !s.chanFree c.w.block 0 c.w.core) = true ∧
    issuesWith (placed (.xchain 0 (r 4)) (fun w => { w with md := 0x8 })) (.xchain 0 (r 4)) (fun _ c => c.act == 0) = true ∧
    issuesWith (placed (.xchain 0 (r 4)) (withS [(4, 8)])) (.xchain 0 (r 4)) (fun _ c => c.act != 0 && c.addressOf (r 4) 0 % 64 != 0) = true ∧
    issuesWith (placed (.xchain 0 (r 4)) (withS [(5, 0xF1000000)])) (.xchain 0 (r 4)) (fun _ c => c.act != 0 &&
      c.addressOf (r 4) 0 / 2 ^ 56 == 0xF1) = true ∧
    issuesNow (placed (.xcancel 3)) (.xcancel 3) = true ∧ issuesNow (placed (.xcancel 3) inRound) (.xcancel 3) = true ∧
    issuesNow (placed (.xstat (r 4) 0)) (.xstat (r 4) 0) = true ∧
    issuesWith (placed (.xstat (r 4) 0) inRound) (.xstat (r 4) 0) (fun _ c => c.w.isDet) = true := by decide +kernel

/-- An endpoint of function 1 enabled; and none. -/
theorem witness_EnginesStart_fabric : let up := fun (s : State) => s.modEndpoint 0 (fun e => { e with cfg := 0x80000001 });
    issuesWith (up (placed (.esnd (r 4)) (withS [(5, 256)]) roomy)) (.esnd (r 4)) (fun s c => c.act != 0 && c.easeTurn s 1 &&
      (s.esndFault c.w c.blk ((List.range 4).map (fun i => c.w.s.get (4 + i)))).isNone) = true ∧
    issuesWith (up (placed (.ercv (r 4)) id roomy)) (.ercv (r 4)) (fun s c => c.act != 0 && c.easeTurn s 1 &&
      (s.ercvFault c.w c.blk ((List.range 4).map (fun i => c.w.s.get (4 + i)))).isNone) = true ∧
    issuesWith (placed (.esnd (r 4)) id roomy) (.esnd (r 4)) (fun s c => c.act != 0 &&
      (s.esndFault c.w c.blk ((List.range 4).map (fun i => c.w.s.get (4 + i)))).isSome) = true ∧
    issuesWith ((up (placed (.ercv (r 4)) id roomy)).modCore 0 (fun k => { k with
      eases := (List.range 64).map (fun i => (i, ⟨100 + i, false, 1, 0, []⟩)) })) (.ercv (r 4)) (fun s c => c.act != 0 && !c.easeTurn s 1 &&
        (s.ercvFault c.w c.blk ((List.range 4).map (fun i => c.w.s.get (4 + i)))).isNone) = true ∧
    (∀ i ∈ ([.esnd (r 4), .ercv (r 4)] : List Instr), issuesWith (placed i (fun w => { w with md := 0x8 })) i (fun _ c => c.act == 0) = true) ∧
    issuesWith (up (placed (.ercv (r 4)) inRound roomy)) (.ercv (r 4)) (fun s c => c.act != 0 && c.w.isDet &&
      (s.ercvFault c.w c.blk ((List.range 4).map (fun i => c.w.s.get (4 + i)))).isNone) = true ∧
    issuesNow (placed (.estamp (r 4))) (.estamp (r 4)) = true ∧
    (∀ n ∈ [0, 1, 16], issuesNow (placed (.ewmark (r 4) n)) (.ewmark (r 4) n) = true) := by decide +kernel

/-- The format words of b + 2 and b + 3 and a scratchpad address at b, for b = s4, and another at s8. -/
def formats (w : Wave) : Wave :=
  { withS [(4, 0), (5, 0xF0000000), (6, 0x1C000000), (7, 0x1C000000), (8, 0), (9, 0xF0000000), (10, 0)] w with al := 4 }

/-- The operations pass their checks; a tile beyond the block's; and a tile in token mode that no wave has acquired. -/
theorem witness_TileOperationsAccepted :
    (∀ x ∈ ([(.mma (r 10) (v 2) (r 4), .engine), (.mmar (r 10) (v 2) (r 4), .engine), (.mmas (r 10) (v 2) (r 4), .engine),
        (.acld (v 4) (r 10), .mine), (.acst (r 10) (v 4), .mine), (.acadd (r 10) (r 11), .engine),
        (.acscl (r 10) .one, .engine)] : List (Instr × Owner)),
      (issuesWith (placed x.1 formats roomy) x.1 (fun s c => !c.w.isDet && !c.accessHeld && c.tileTurn s &&
        (c.scratchFault s false [(0xF0 * 2 ^ 56, 1024)] []).isNone &&
        (c.ownFault x.2 false [0]).isNone && (s.half c.w.block c.w.half).empty.isEmpty) = true ∧
      issuesWith (placed x.1 (fun w => inRound (formats w)) roomy) x.1 (fun s c => c.w.isDet && c.tileTurn s &&
        (c.scratchFault s false [(0xF0 * 2 ^ 56, 1024)] []).isNone && (c.ownFault x.2 false [0]).isNone && s.engineFree c.w.core) = true)) ∧
    issuesWith (placed (.acsp (r 10) (r 4)) formats roomy) (.acsp (r 10) (r 4)) (fun s c =>
      (c.scratchFault s true [(0xF0 * 2 ^ 56, 32 * (mdType2 c.w.md).bits)] []).isNone && (c.ownFault .mine false [0]).isNone) = true ∧
    issuesWith (placed (.acsp (r 10) (r 12)) formats roomy) (.acsp (r 10) (r 12)) (fun s c => (c.scratchFault s true [(0, 32)] []).isSome) = true ∧
    issuesWith (placed (.acld (v 4) (r 10)) (fun w => withS [(10, 4)] (formats w)) roomy) (.acld (v 4) (r 10)) (fun _ c =>
      c.ownFault .mine false [4] == some .accWindow) = true ∧
    (∀ n ∈ ([none, some 0] : List (Option Nat)), issuesWith ((placed (.acld (v 4) (r 10)) (fun w => { formats w with al := 0 }) roomy).modCore 0
      (fun k => { k with accepted := n })) (.acld (v 4) (r 10)) (fun s c => c.tileTurn s &&
        c.ownFault .mine false [0] == some .accToken && s.engineFree c.w.core == n.isNone) = true) := by decide +kernel

/-- A tile that the placed wave has acquired, and one that its half holds back. -/
def owned (b : Block) : Block := { roomy b with halves := (roomy b).halves.map (fun h => { h with tokens := h.tokens.set 0 0 }) }

theorem witness_TileControl : let tokens := fun (w : Wave) => { formats w with al := 0 };
    let running : Bench := { Bench.zero with run := true };
    issuesWith (placed (.mmak (r 10) (r 8) (r 4)) formats roomy) (.mmak (r 10) (r 8) (r 4)) (fun s c => !c.w.isDet && !c.accessHeld && c.tileTurn s &&
      (c.scratchFault s false [(0xF0 * 2 ^ 56, 1024)] []).isNone && (c.ownFault .engine false [0]).isNone && c.half.bench.isEmpty) = true ∧
    issuesWith (placed (.mmak (r 10) (r 8) (r 4)) formats (fun b => { roomy b with halves := (roomy b).halves.map (fun h =>
      { h with bench := h.bench.set 0 running }) })) (.mmak (r 10) (r 8) (r 4)) (fun _ c => c.half.bench.get? 0 == some running) = true ∧
    issuesWith (placed (.acz (r 10)) tokens owned) (.acz (r 10)) (fun s c => (c.ownFault .mine false [0]).isNone && s.engineFree c.w.core &&
      !c.half.blocked { c.newTop s .acz 0 false 0 0 0 0 0 with flag := none, atEnd := false }) = true ∧
    issuesWith (placed (.acz (r 10)) tokens (fun b => { owned b with halves := (owned b).halves.map (fun h => { h with
        tops := [aczTop .acz] }) })) (.acz (r 10))
      (fun s c => (c.ownFault .mine false [0]).isNone && c.half.blocked { c.newTop s .acz 0 false 0 0 0 0 0 with flag := none, atEnd := false }) = true ∧
    issuesWith (placed (.acq (r 10)) tokens roomy) (.acq (r 10)) (fun s c => (c.ownFault .free true [0]).isNone && s.engineFree c.w.core) = true ∧
    issuesWith (placed (.rel (r 10)) tokens owned) (.rel (r 10)) (fun s c => (c.ownFault .mine true [0]).isNone && s.engineFree c.w.core) = true ∧
    issuesWith (placed (.rel (r 10)) tokens roomy) (.rel (r 10)) (fun s c => (c.ownFault .mine true [0]).isSome && s.engineFree c.w.core) = true ∧
    issuesWith ((placed (.acq (r 10)) tokens roomy).modCore 0 (fun k => { k with accepted := some 0 })) (.acq (r 10)) (fun s c =>
      !s.engineFree c.w.core) = true ∧
    issuesWith (placed (.acwin (r 10) (l 0) (l 1)) (fun w => withL 1 4 (tokens w)) roomy) (.acwin (r 10) (l 0) (l 1)) (fun s c =>
      s.engineFree c.w.core && c.w.index == 0 && c.operand .raw (l 0) 0 == 0 && c.operand .raw (l 1) 0 == c.half.acct && c.half.tokens.isEmpty) = true ∧
    issuesWith (placed (.acwin (r 10) (l 0) (l 1)) tokens owned) (.acwin (r 10) (l 0) (l 1)) (fun _ c => c.half.tokens.get? 0 == some c.w.index) = true ∧
    issuesWith (placed (.acwin (r 10) (l 0) (l 1)) (fun w => withL 1 5 (tokens w)) roomy) (.acwin (r 10) (l 0) (l 1)) (fun _ c =>
      decide (c.half.acct < c.operand .raw (l 1) 0)) = true ∧
    issuesWith (placed (.bmark (r 12) (r 10)) formats roomy) (.bmark (r 12) (r 10)) (fun s c => decide (0 < c.half.acct) && s.engineFree c.w.core) = true := by
  decide +kernel

/-- A cut unit of the placed block in some state, of descriptor 0. -/
def cutting (st : CairnState) (m : Method) (bs : List Nat) : CutUnit :=
  ⟨50, 0, 1, 3, bs, m, 2, true, st, [0], [], 0, 0, 0, none, [], [], [], [], [], []⟩

theorem witness_PrivilegedEffects_saves : let at_ := withS [(4, 0x10000000)];
    issuesWith (served (placed (.ctxsv (r 2) .one) privileged roomy)) (.ctxsv (r 2) .one) (fun s c => (s.cutOf c.w.block).isNone &&
      (s.beginSave (s.unitOf c.w.block) 2 true 0 0 none).isSome) = true ∧
    issuesWith (placed (.ctxsv (r 2) .zero) privileged) (.ctxsv (r 2) .zero) (fun s c => (s.cutOf c.w.block).isNone &&
      (s.beginSave (s.unitOf c.w.block) 2 false 0 0 none).isNone) = true ∧
    issuesWith { placed (.ctxsv (r 2) .zero) privileged with cuts := [cutting .writing .save [2]] } (.ctxsv (r 2) .zero)
      (fun s c => (s.cutOf c.w.block).isSome) = true ∧
    issuesWith (served (placed (.ctxrs (r 2) (r 4)) privileged)) (.ctxrs (r 2) (r 4)) (fun s c => !s.isDesc c.w.part (c.addressOf (r 4) 0)) = true ∧
    issuesWith { served (placed (.ctxrs (r 2) (r 4)) (fun w => privileged (at_ w))) with cuts := [cutting .held .save []] } (.ctxrs (r 2) (r 4))
      (fun s c => s.isDesc c.w.part (c.addressOf (r 4) 0) && (match s.unitAt c.w.part (c.addressOf (r 4) 0) with
        | some u => u.state == .held && u.loose.isEmpty
        | none => false)) = true ∧
    issuesWith (served (placed (.ctxrs (r 2) (r 4)) (fun w => privileged (at_ w)))) (.ctxrs (r 2) (r 4)) (fun s c =>
      s.isDesc c.w.part (c.addressOf (r 4) 0) && (s.unitAt c.w.part (c.addressOf (r 4) 0)).isNone) = true := by decide +kernel

theorem witness_PrivilegedEffects :
    (∀ n ∈ ([16, 56, 0xFF] : List (BitVec 8)), issuesWith (placed (.tlbinv (r 4) n) privileged) (.tlbinv (r 4) n) (fun s c =>
      decide (c.addressOf (r 4) 0 < 2 ^ 56) && (c.w.invals.get? (firstSlice c.gang)).isNone && s.walks.isEmpty) = true) ∧
    (∀ n ∈ ([none, some 1, some 99] : List (Option Nat)), issuesWith { placed (.tlbinv (r 4) 16) (fun w => { privileged w with
        invals := n.toList.map (fun x => (0, x)) }) with walks := [⟨2, 1, 0, 0, 0, 0, none, false⟩] } (.tlbinv (r 4) 16) (fun s c =>
      decide (c.addressOf (r 4) 0 < 2 ^ 56) && c.w.invals.get? (firstSlice c.gang) == n && s.walks.all (fun p => p.func == c.w.func &&
        decide (p.id < s.nextId))) = true) ∧
    issuesWith (placed (.tlbinv (r 4) 16) (fun w => privileged (withS [(5, 0x01000000)] w))) (.tlbinv (r 4) 16) (fun _ c =>
      c.addressOf (r 4) 0 == 2 ^ 56) = true ∧
    issuesWith (placed (.wfreeze (r 2) (r 4)) privileged) (.wfreeze (r 2) (r 4)) (fun _ c => c.operand (.data 2) (r 4) 0 == 0 && !c.w.frozen) = true ∧
    issuesWith (placed (.wfreeze (r 2) (r 4)) (fun w => { privileged w with frozen := true })) (.wfreeze (r 2) (r 4)) (fun _ c => c.w.frozen) = true ∧
    issuesWith (placed (.wfreeze (r 2) (r 4)) (fun w => privileged (withS [(4, 999)] w))) (.wfreeze (r 2) (r 4)) (fun s c =>
      c.operand (.data 2) (r 4) 0 == 999 && (s.waves.find? (fun e => e.2.waveid.toNat == 999)).isNone) = true ∧
    issuesNow (placed (.wkill 1) privileged) (.wkill 1) = true ∧
    issuesNow (placed (.wkill 0) privileged) (.wkill 0) = true ∧
    issuesNow (placed (.easeq (r 4) (r 2)) privileged) (.easeq (r 4) (r 2)) = true ∧
    issuesNow (placed (.cntsel 7 (r 2)) privileged) (.cntsel 7 (r 2)) = true ∧
    issuesNow (placed (.cntrd (r 2) 7) privileged) (.cntrd (r 2) 7) = true := by decide +kernel

/-! ### Frames -/

/-- The step of the placed word answers a next state in which its wave still is. -/
def goesOn (i : Instr) (f : Wave → Wave := id) (g : Block → Block := id) : Bool :=
  match exec i (placed i f g) with
  | .next t => (t.waves.get? 1).isSome && picked (placed i f g) (fun _ c => c.key == 1)
  | _ => false

theorem witness_VectorWordFrame : goesOn (.add (v 1) (v 2) (v 3)) = true ∧ goesOn (.addc (v 1) (v 2) (v 3)) = true := by decide +kernel

theorem witness_ScalarWordFrame : goesOn (.sadd (q 1) (q 2) (q 3)) = true ∧ goesOn (.sadd64 (q 2) (q 4) (q 6)) = true := by decide +kernel

theorem witness_MemoryWordFrame : goesOn (.ld (v 8) (v 4) false 2) spadV roomy = true ∧ goesOn (.st (v 8) (v 4) 2) spadV roomy = true ∧
    picked (placed (.st (v 8) (v 4) 2)) (fun _ c => !c.w.isDet) = true := by decide +kernel

/-! ### Events of waves -/

/-- The first wave of a state. -/
def wave1 (s : State) (p : Wave → Bool) : Bool := (s.waves.get? 1).any p

/-- The first page in the core's TLB. -/
def mapped (s : State) : State := s.modCore 0 (fun c => { c with tlb := [⟨1, 0, 16, 0xDF⟩] })

/-- The placed wave before a clause at 0x5000, of function 1's code, whose line is in its caches and page in its TLB when words are given. -/
def before (cl : List Word) (f : Wave → Wave := id) : State :=
  let s := served (placed .nop (fun w => { f (inSlices (fun x => { x with pc := 0x5000, word := 0, cl := [] }) w) with priv := false }))
  if cl.isEmpty then s else
  { mapped s with icache := [⟨0, 0, 0, 0x5000 / 64, cl.flatMap (fun w => leBytes 4 w.toNat) ++ List.replicate 24 0, false, 0, false⟩] }

theorem witness_WaveEvents : let may := fun (s : State) (cl : List Word) => wave1 s (fun w => match w.slices[0]? with
      | some x => s.mayBegin 1 w (w.gangOf 0) x && decide (x.word = 0) && !w.stopped && (match s.clauseAt w x.pc.toNat with
        | .ok l => decide (l = cl)
        | .error _ => false)
      | none => false);
    ((State.reset.modCore 0 id).cores.get? 0).any (fun x => decide (0 < x.lastTick.length)) = true ∧
    (may (before (wordClause 0x1)) (wordClause 0x1) = true ∧ clauseIllegal (wordClause 0x1) = false ∧
      wave1 (before (wordClause 0x1)) (fun w => w.flagsReady (wordClause 0x1) 0 && !(before (wordClause 0x1)).cutHere w false) = true) ∧
    (may (before [0, 0]) [0] = true ∧ clauseIllegal [0] = true) ∧
    (∀ n ∈ [0, 200], (let s := mapped (before [] (inSlices (fun x => { x with stood := n })));
      (s.missing 1 0).any (fun (w, g, x, va) => match s.fetchPlace w va with
        | .ok line => s.ilevel w.core w.quad w.part line == 3 && w.stoodOf g == n && !s.ipoisoned 3 w.core w.quad w.part line &&
            !({ s with hpoison := [line / 2] } : State).hpoison.isEmpty && ({ s with hpoison := [line / 2] } : State).ipoisoned 3 w.core w.quad w.part line &&
            w.orderAllows g && decide (x.word = 0) && (w.causesOf g).isEmpty
        | .error _ => false) = true)) ∧
    (let s := before [] (inSlices (fun x => { x with pc := 0x0100000000000000 }));
      (s.missing 1 0).any (fun (w, g, x, va) => w.orderAllows g && decide (x.word = 0) && (w.causesOf g).isEmpty &&
        (match s.fetchPlace w va with
          | .error (some (_, _, out)) => !out
          | _ => false)) = true) ∧
    (let s := before []; (s.missing 1 0).any (fun (w, _, _, va) => match s.fetchPlace w va with
      | .error none => true
      | _ => false) = true) ∧
    (∀ n ∈ [0, 1], wave1 { placed .nop busy with time := n } (fun w => (w.specials.find? (fun o => o.id == 0)).any (fun o => o.at_ == 0))) ∧
    (let s := (placed .nop (fun w => { w with monitor := .sent (.priv 0) 0 }));
      ({ s with time := 9 } : State).reached 0 (.priv 0) 0 = true ∧ s.mayLand (.priv 0) (tieKey 0 0) = true) ∧
    (let s : State := { placed .nop with cur := none };
      (s.choiceNow 0 0).any (fun p => p.1 == 1 && p.2.1 == 0xF && p.2.2 == 0) = true ∧ s.choiceNow 0 1 = none) := by decide +kernel

/-- Waves of which every slice waits: at one REGANG that names them all, at REGANG clauses that differ, at a barrier, and
at waits whose limits have passed. -/
theorem witness_WaitsEnd : let w0 := (placed .nop).waves.get? 1;
    let met : Wave → Wave := fun w => { w with slices := w.slices.map (fun x => { x with park := .regang, rgm := 0xF }) };
    let stuck : Wave → Wave := fun w => { w with slices := w.slices.mapIdx (fun i x => { x with park := .regang, rgm := 0xF, pc := BitVec.ofNat 64 (80 * i) }) };
    let src : WordRef := ⟨0, 0, 0, 0, 0, []⟩;
    (w0.any (fun w => (met w).regangRelease.any (fun e => e.2 == 0xF)) = true) ∧ (w0.any (fun w => (stuck w).deadlocked) = true) ∧
    w0.any (fun w => let x := stuck { w with inHandler := true }; x.deadlocked && (x.slices[firstSlice x.live]?).isSome) = true ∧
    (placed .nop).waves.length = 1 ∧
    ({ placed .nop (inSlices (fun x => { x with park := .barb 3 })) with time := 1000 } : State).barrierReady 2 false 3 = true ∧
    ({ placed .nop (inSlices (fun x => { x with park := .barc 3 })) with time := 1000 } : State).barrierReady 2 true 3 = true ∧
    (placed .nop).barrierReady 2 false 3 = false ∧
    wave1 (placed .nop (inSlices (fun x => { x with park := .mwait src 1 0 }))) (fun w => !w.inHandler && !w.isDet &&
      (w.slices.head?).any (fun x => x.park == .mwait src 1 0)) = true ∧
    wave1 (placed .nop (inSlices (fun x => { x with park := .barwt src 0 true 1 (some 0) }))) (fun w => !w.inHandler && !w.isDet) = true := by
  decide +kernel

/-- A scratchpad load that has waited for 65,536 ticks at a line that is empty. -/
theorem witness_WaitsEnd_load :
    let s0 := stepped (placed (.ld (v 8) (v 4) false 2) spadV roomy);
    let s1 := (s0.modWave 1 (fun w => { w with memOps := w.memOps.map (fun o => { o with units := o.units.map (fun u => { u with since := 1 }) }) })).modHalf
      2 0 (fun h => { h with empty := [0] });
    let s : State := { s1 with time := 65537 };
    wave1 s (fun w => (w.memOps.head?).any (fun o => (s.findUnit 1 o.id 0).any (fun (w, o, u) => !w.inHandler && !w.isDet &&
      u.phase == .issued && u.since != 0 && s.waitsHere o u && decide (u.since + 65536 ≤ s.time)))) = true := by decide +kernel

/-- A due trap with a handler, with none, and inside a handler. -/
theorem witness_TrapEntry : let t := fun (w : Wave) => clauseTrap w 0xF 0x5000 [] .illegalClause false false 0;
    let due : Wave → Wave := fun w => { w with due := [t w] };
    let trapped : State → DWord → Nat → State := fun s tvec slot =>
      { s with parts := s.parts.set 0 { (s.parts.get? 0).getD Partition.empty with tvec := tvec, slotBase := slot } };
    let ok := fun (s : State) (inside : Bool) => wave1 s (fun w => (s.nextTrap 1).any (fun e => e.2 == t w && !s.heldInPlace w &&
      w.inHandler == inside && !(s.modWave 1 (fun w => w.undue e.2)).retries (w.undue e.2) e.2));
    ok (trapped (before (wordClause 1) due) 0 0) false = true ∧ ok (trapped (before (wordClause 1) due) 0x6000 0x8000) false = true ∧
    ok (trapped (before (wordClause 1) (fun w => { due w with inHandler := true })) 0x6000 0x8000) true = true ∧
    (match (trapped (before (wordClause 1) due) 0x6000 0x8000).translate 1 0x8000 ⟨true, false, true⟩ with
      | (_, .ok a _) => a == 0x8000
      | _ => false) = true ∧
    (let s := trapped (before (wordClause 1) due) 0x6000 0x400000000;
      ok s false = true ∧ (match (s.modWave 1 (fun w => w.undue (t w))).translate 1 0x400000000 ⟨true, false, true⟩ with
        | (_, .fault _ _ _) => true
        | _ => false) = true) := by decide +kernel

/-! ### Events of memory and engines -/

/-- The placed word issued, the units of its wave's accesses changed, and 20 ticks past. -/
def issued (i : Instr) (f : Wave → Wave := id) (u : MemUnit → MemUnit := id) : State :=
  { (stepped (placed i f roomy)).modWave 1 (fun w => { w with memOps := w.memOps.map (fun o => { o with units := o.units.map u }) }) with
    time := 20 }

/-- The first unit of the first access of the placed wave. -/
def unit0 (s : State) (p : Wave → MemOp → MemUnit → Bool) : Bool :=
  wave1 s (fun w => (w.memOps.head?).any (fun o => (s.findUnit 1 o.id 0).any (fun (w, o, u) => p w o u)))

theorem witness_MemoryEvents_units :
    (∀ i ∈ ([.ld (v 8) (v 4) false 2, .st (v 8) (v 4) 2] : List Instr), (let s := issued i spadV;
      unit0 s (fun w o u => s.groupArrives w o u && !s.waitsHere o u && !s.tileHolds 1 w o u) = true)) ∧
    (let s := issued (.spaadd (v 8) (v 4) (v 6)) (fun w => typed 9 (spadV w));
      unit0 s (fun w o u => s.groupArrives w o u && !s.waitsHere o u && !s.tileHolds 1 w o u) = true) ∧
    (let s := issued (.ld (v 8) (v 4) false 2); unit0 s (fun w o u => !s.groupArrives w o u) = true) ∧
    (let s := (issued (.ld (v 8) (v 4) false 2) spadV (fun u => { u with since := 5 })).modHalf 2 0 (fun h => { h with empty := [0] });
      unit0 s (fun w o u => s.groupArrives w o u && s.waitsHere o u && u.since == 5) = true) ∧
    (∀ n ∈ [1, 20], (let s := issued (.ld (v 8) (v 4) false 2) spadV (fun u => { u with phase := .arrived, since := n });
      unit0 s (fun w o u => (s.servedByCopy w o u).isNone && s.back w o u == decide (n = 1) && w.takesAnswers && u.out &&
        o.lane u.lane == [u] && o.kind == .load false false && o.returns) = true)) ∧
    (∀ n ∈ [1, 20], (let s := issued (.st (v 8) (v 4) 2) spadV (fun u => { u with phase := .arrived, since := n });
      unit0 s (fun w o u => s.back w o u == decide (n = 1) && !o.returns) = true)) ∧
    (let s := (issued (.ld (v 8) (v 4) false 2) id (fun u => { u with loc := .global 256 false })).modCore 0 (fun c =>
        { c with l1 := [⟨2, 1000, 0, List.replicate 128 7, false⟩] });
      unit0 s (fun w o u => !s.copyPoisoned w u && (match s.servedByCopy w o u with
        | some (x, none) => x == 0x07070707
        | _ => false)) = true) := by decide +kernel

/-- A fill in time, and walks that are back: of a page that is not there, and of one that the access may use. -/
theorem witness_MemoryEvents_fills : let f : Fill := ⟨7, 0, 2, 0, 1000, List.replicate 128 0, false, true, false, false⟩;
    let s : State := { placed .nop with fills := [f], time := 20 };
    (s.fills.find? (fun x => x.id == 7 && decide (x.granted + 8 < s.time)) = some f ∧ s.time + 8 < f.expiry ∧ s.ackPending f false = false ∧
      s.ackPending f true = false) ∧
    f.overL2 = false ∧ f.overL1 = false ∧ f.intoL1 = true ∧
    (∀ e ∈ ([(.notPresent false, false), (.leaf 0xDF 0x3000 0 16, false), (.leaf 0xDF 0x3000 0 16, true)] : List (Walk × Bool)),
      (let p : PageWalk := ⟨3, 1, 0, 2, 0x3000, 1, some e.1, e.2⟩;
      let t : State := { served (issued (.ld (v 8) (v 4) false 2)) with walks := [p] };
      t.walks.find? (fun p => p.func == 1 && p.page == 0 && p.found.isSome && decide (p.at_ + 8 < t.time)) = some p ∧
      t.allowedBy p 0xDF false = true ∧ unit0 t (fun w _ u => w.func == 1 && p.answers u) = true)) := by decide +kernel

/-- The transfer of the placed XCPY, at each of its stages, and the chain of the placed XCHAIN. -/
theorem witness_EngineEvents : let s := stepped (placed (.xcpy (r 4)) (withS copyDesc) roomy);
    let x := fun (s : State) => s.xfers.head?;
    let with_ : State → (Transfer → Transfer) → State := fun s f => { s with xfers := s.xfers.map f };
    let is := fun (s : State) (p : Transfer → Bool) => (x s).any (fun y => !y.buffered && (s.xfers.find? (fun z => z.id == y.id)) == some y && p y);
    let stands := fun (s : State) (y : Transfer) => !s.xferStands y && s.xferReleased y;
    is (with_ s (fun y => { y with perf := some 0 })) (fun y => y.perf == some 0 && !y.chain && s.countTurn y) = true ∧
    is (with_ s (fun y => { y with perf := some 9 })) (fun y => y.perf == some 9 && !y.chain && decide (s.time < 9)) = true ∧
    is (with_ s (fun y => { y with paid := true })) (fun y => y.perf == none && !y.op.indexed && y.paid && stands s y) = true ∧
    (let g := stepped (placed (.xgath (r 4)) (withS (copyDesc ++ [(15, 0xF0000000)])) roomy);
      let far := with_ g (fun y => { y with desc := listUpdate y.desc 11 (fun _ => 0), turn := g.time });
      is far (fun y => y.perf == none && !y.chain && stands far y && y.op.indexed && y.ridx == none &&
        !far.ways y (if far.engineNear y (descIdx y.desc + 4 * y.row) then 0 else 2)) = true ∧
      is g (fun y => y.perf == none && y.op.indexed && y.ridx == none && stands g y && g.ways y (if g.engineNear y (descIdx y.desc + 4 * y.row) then 0 else 2) &&
        (match g.readPieces (g.xferDecoder y) (g.orderOf y.wave) y.func (engineKey y.core) y.priv [(descIdx y.desc + 4 * y.row, 4)] with
          | (_, .data _) => true
          | _ => false)) = true) ∧
    (let c := stepped (placed (.xchain 0 (r 4)) (withS [(5, 0xF0000000)]) roomy);
      is (with_ c (fun y => { y with loaded := true, cancel := true })) (fun y => y.chain && y.cancel && y.perf == none) = true ∧
      is (with_ c (fun y => { y with cancel := true })) (fun y => y.chain && y.cancel && !y.loaded) = true ∧
      is c (fun y => y.chain && !y.loaded && !y.cancel && stands c y && y.want.isNone && c.ways y (if c.engineNear y y.cur.toNat then 0 else 2) && (match c.readRecord y with
        | (_, .ok (some m)) => natBits (m.getD 14 0).toNat 31 1 == 0
        | _ => false)) = true ∧
      is (with_ c (fun y => { y with cur := 0xF000000000002000 })) (fun y => stands c y && (match (with_ c (fun y => { y with
          cur := 0xF000000000002000 })).readRecord y with
        | (_, .error _) => true
        | _ => false)) = true ∧
      (let record := fun (len : Nat) => c.storeAt (.scratch 2 0 56) 4 0x80000000 |>.storeAt (.scratch 2 0 0) 8 0xF000000000000000
        |>.storeAt (.scratch 2 0 8) 8 0xF000000000000100 |>.storeAt (.scratch 2 0 16) 4 len |>.storeAt (.scratch 2 0 20) 4 1;
      (∀ n ∈ [2, 63], (let r := (record 64).modCore 0 (fun k => { k with eases := (List.range n).map (fun i => (i, ⟨100 + i, false, 1, 0, []⟩)) });
        is r (fun y => (match r.readRecord y with
          | (t, .ok (some m)) => natBits (m.getD 14 0).toNat 31 1 == 1 && (t.recordFault y m).toOption == some .cpy &&
              t.recordTurn { y with op := .cpy, desc := m.take 12 } t.time == decide (n = 2)
          | _ => false)) = true)) ∧
      (is (record 0) (fun y => (match (record 0).readRecord y with
        | (t, .ok (some m)) => natBits (m.getD 14 0).toNat 31 1 == 1 && (t.recordFault y m).toOption.isNone
        | _ => false)) = true))) := by decide +kernel

/-- A bucket that has none of its own yet, one that is due, and refilled ones that pay from tokens, on loan, or not. -/
theorem witness_EngineEvents_buckets : let s := served (stepped (placed (.xcpy (r 4)) (withS copyDesc) roomy));
    let set_ : State → Bucket → State := fun s b => { s with buckets := [(1, b)] };
    (s.func 1).part = some 0 ∧ s.buckets.get? 1 = none ∧
    ({ set_ s ⟨0, 0, .none, 8, none⟩ with time := 9 } : State).buckets.get? 1 = some ⟨0, 0, .none, 8, none⟩ ∧
    (∀ b ∈ ([⟨16384, 0, .none, 0, none⟩, ⟨0, 0, .none, 0, none⟩, ⟨0, 0, .repay, 0, none⟩] : List Bucket), (let t := set_ s b;
      t.mayPay 0 0 = true ∧ (t.payable 0 1).any (fun z => decide (256 * z.segment.2.2 = 16384)) = true ∧
      b.debt + 16384 ≤ bktDepth (t.func 1).bktcfg)) ∧
    (let t := (set_ s ⟨0, 0, .none, 0, none⟩).modPart 0 (fun p => { p with pools := [(0, 16384)] }); 16384 ≤ t.pool 0 0) := by decide +kernel

/-- The placed MMA, accepted, with its step to do, held back and done; and ACSCL's operation. -/
theorem witness_MatrixEvents : let s := stepped (placed (.mma (r 10) (v 2) (r 4)) formats roomy);
    let with_ := fun (s : State) (f : TileOp → TileOp) => s.modHalf 2 0 (fun h => { h with tops := h.tops.map f });
    let is := fun (s : State) (p : Half → TileOp → Bool) => ((s.half 2 0).tops.getLast?).any (fun o => (s.top? 2 0 o.id).any (fun (h, o) => p h o));
    let go : TileOp → TileOp := fun o => { o with accepted := true };
    let late := fun (s : State) => ({ s with time := 9 } : State);
    is (with_ s go) (fun h o => o.accepted && o.steps && decide (o.done < o.nk) && !h.blocked o && !(with_ s go).reissues o &&
      decide ((with_ s go).time ≤ o.at_)) = true ∧
    is (late (with_ s (fun o => { go o with done := o.nk }))) (fun _ o => decide (o.at_ < 9) && o.accepted && o.steps && decide (o.nk ≤ o.done)) = true ∧
    is ((with_ s go).modHalf 2 0 (fun h => { h with tops := h.tops ++ h.tops.map (fun o => { o with id := o.id + 1 }) })) (fun h o =>
      o.accepted && o.steps && h.blocked o) = true ∧
    (let a := stepped (placed (.acscl (r 10) .one) formats roomy); is (late (with_ a go)) (fun h o => decide (o.at_ < 9) && o.accepted && !o.steps && !h.blocked o) = true) ∧
    ((s.unaccepted 0).length = 1 ∧ s.unaccepted 1 = [] ∧ (s.core 0).accepted ≠ some s.time) ∧
    ((s.modCore 0 (fun k => { k with accepted := some 0 })).core 0).accepted = some s.time ∧ (0xFFFFFFFF < 2 ^ 32) := by decide +kernel

theorem witness_NewWaveState : wordKernel.width ≤ 2 ∧ ([] : List DWord).length ≤ 64 := by decide +kernel

/-! ### Placement, commands and plats -/

/-- Words stored at a physical address. -/
def poked (a : Nat) (l : List Nat) (s : State) : State :=
  { s with hbm := (l.mapIdx (fun i x => (a + 4 * i, x))).foldl (fun m e => Memory.store m e.1 4 e.2) s.hbm }

/-- A usable machine: its dies admitted, and function 1 running in the partition of `served`, with an enabled queue 0. -/
def machine (f : Func → Func := id) : State :=
  let s := served State.reset
  { s with
    control := { s.control with phase := .ready false }
    dies := List.replicate 4 { Die.reset with ok := true }
    funcs := [(1, f { s.func 1 with active := true, frozen := false, prioceil := 7, queues := [(0, { Queue.reset with base := 0x9000, loc := true, en := true, notify := 1 })] })] }

/-- A grid of one block of that function. -/
def grid1 : Grid :=
  { func := 1, part := 0, launch := wordLaunch, kernel := wordKernel, wgt := 1, origin := .device, seqno := 0, arrived := 0
    next := 0, returned := [], endedBlocks := 0, placed := false, fault := none, cutting := false, parent := none, task := none, det := none, releaseAt := 0 }

/-- The machine with a grid under key 9. -/
def gridded (g : Grid → Grid := id) : State := { machine with grids := [(9, g grid1)] }

/-- A deterministic grid's record. -/
def detGrid (started : Bool) : DetGrid := ⟨0, 1, started, 0, [], [], [], 0⟩

theorem witness_PlacementEvents : let all : Grid → Grid := fun g => { g with next := g.launch.blocks };
    (((gridded).arbiter 0).any (fun (gid, g, p) => gid == 9 && !(gridded).hasSaved gid && g.nextUnit == some 0 &&
      ((gridded).placeFor p g g.unitsAtOnce).isSome) = true) ∧
    (machine).arbiter 0 = none ∧
    (let t : Nat → Task := fun n => ⟨9, 0, 0, n, 0, 0⟩;
      let s : State := { gridded with time := 256, dies := [{ Die.reset with ok := true, tasks := [t 0] }] };
      (s.taskBatch 0 9 0).any (fun (_, l, b) => l.length == 1 && b) = true) ∧
    (∀ g ∈ ([all, fun g => { all g with fault := some 3 }, fun g => { all g with cutting := true },
        fun g => { all g with launch := { g.launch with ctok := 0x10000 } }] : List (Grid → Grid)),
      ((gridded g).grids.get? 9).any ((gridded g).gridDone 9) = true) ∧
    (match (gridded all).readFor 1 0x10000 8 with
      | (_, .ok _) => true
      | _ => false) = true ∧
    (let s := gridded (fun g => { g with launch := { g.launch with bound := 100 } });
      (s.grids.get? 9).any (fun g => (s.parts.get? 0).any (fun p => g.launch.bound != 0 && s.hasWork p 9 g && (s.func 1).places &&
        (s.enough p 9 g [] (s.nameable 0 g.launch.prio)).isSome)) = true) ∧
    (let s : State := { gridded with cuts := [cutting .writing .save [2]] }; s.cuts.all (fun u => u.listOf.isNone && s.unitCut u)) = true ∧
    (let s : State := { placed .nop with cuts := [cutting .writing .save [2]] }; s.cuts.all (fun u => !s.unitCut u)) = true ∧
    (let u : CutUnit := { cutting .published .save [2] with grid := 9 };
      let s : State := { gridded all with cuts := [u] };
      (s.arbiter 0).any (fun (gid, g, p) => gid == 9 && u.resumable && (s.toResume 9) == some u && (s.placeSaved p g u).isSome) = true) ∧
    (let s : Bool → DetWave → State := fun b d => { placed .nop (fun w => { w with det := some d }) with
        cur := none
        grids := [(3, { grid1 with next := 1, placed := true, det := some (detGrid b) })] };
      let g : Bool → Grid := fun b => { grid1 with next := 1, placed := true, det := some (detGrid b) };
      let open_ : DetWave := ⟨0, 0, 0, false, 0, none, 0, []⟩;
      (s false open_).roundReady 3 (g false) (detGrid false) = true ∧
      ((s true open_).members 3).any (fun e => !(s true open_).quantumOver e.1 e.2) = true ∧
      let done_ := s true { open_ with ended := true };
      let held : State := { (placed .nop (fun w => outstanding (.store false false) false 0 { w with det := some { open_ with ended := true } })) with
        cur := none
        grids := done_.grids };
      let asks := held.modWave 1 (fun w => { w with memOps := w.memOps.map (fun o => { o with units := o.units.map (fun u => { u with since := 1, phase := .issued }) }) });
      (done_.commitSome 3 0).committed 3 (detGrid true) = true ∧
      (asks.commitSome 3 0).committed 3 (detGrid true) = false ∧ (asks.commitSome 3 0).onlyWaits 3 = true ∧
      (let far := { done_ with xfers := (stepped (placed (.xcpy (r 4)) (withS copyDesc) roomy)).xfers };
        (far.commitSome 3 0).committed 3 (detGrid true) = false ∧ (far.commitSome 3 0).onlyWaits 3 = false) ∧
      (((s true { open_ with ended := true }).members 3).all (fun e => (s true { open_ with ended := true }).quantumOver e.1 e.2 && e.2.buffer.isEmpty) &&
        !(s true { open_ with ended := true }).committing 3) = true) := by decide +kernel

/-- A record that has started, its words from 0x10 on given. -/
def rec0 (opc : Nat) (body : List Nat) : Rec :=
  { seq := 0, hdr := BitVec.ofNat 32 opc, tag := 0, caddr := 0, body := body.map (BitVec.ofNat 32), stage := .started, poke := false
    since := 0, parts := [], units := [], abortAt := none }

/-- The machine with that record in queue 0 of function 1. -/
def started (opc : Nat) (body : List Nat) (f : Rec → Rec := id) (g : Func → Func := id) : State :=
  machine (fun x => g { x with queues := [(0, { x.queue 0 with start := 1, recs := [f (rec0 opc body)] })] })

/-- The record of `started` with its opcode. -/
def begun (s : State) (opc : Nat) (p : Rec → Bool := fun _ => true) : Bool := (s.begun? 1 0 0 opc).any p

/-- Values within and beyond the ring; a record that may start, and one that waits for another; and each operation's
record with the outcomes of its checks. -/
theorem witness_CommandEvents : (machine.usable = true ∧ machine.hasQueue 1 0 = true ∧ ((machine.func 1).queue 0).notify < 16 ∧
      16 ≤ ((machine.func 1).queue 0).done + 2 ^ ((machine.func 1).queue 0).size) ∧
    (machine.mayStart 1 0 = true ∧ (match machine.recordWords 1 ((machine.func 1).queue 0) 0 with
      | (_, .ok w) => w.length == 16
      | _ => false) = true) ∧
    (let s := started 0x201 [] (fun r => { r with hdr := 1, stage := .running }) (fun x => { x with
        queues := [(0, { x.queue 0 with notify := 2 })] });
      (poked 0x9040 [0x201] s).mayStart 1 0 = true ∧ (match (poked 0x9040 [0x201] s).recordWords 1 (((poked 0x9040 [0x201] s).func 1).queue 0) 1 with
        | (_, .ok w) => (natBits (w.headD 0).toNat 9 1 == 1 && (((poked 0x9040 [0x201] s).func 1).queue 0).recs.any (fun z => z.stage != .retired))
        | _ => false) = true) ∧
    begun (started 1 []) 1 = true ∧
    (begun (started 2 [0x10000, 0, 0]) 2 = true ∧ (match (started 2 [0x10000, 0, 0]).platHeader 1 0x10000 16 with
      | (_, .ok h) => !platLegal h
      | _ => false) = true ∧
      (let s := poked 0x10000 [0x504C4154, 4] (started 2 [0x10000, 0, 0]); (match s.platHeader 1 0x10000 16 with
        | (_, .ok h) => platLegal h && decide (nodeField h 8 0 32 ≤ 0)
        | _ => false) = true) ∧
      (let s := poked 0x10000 [0x504C4154, 4, 1] (started 2 [0x10000, 0, 2]); begun s 2 (fun r => r.word 0x18 == 2) = true ∧ (match s.platHeader 1 0x10000 16 with
        | (_, .ok h) => platLegal h && decide (nodeField h 8 0 32 < 2) && (s.platOn 1 0x10000).isNone && decide (s.plats.length < maxPlats)
        | _ => false) = true)) ∧
    (begun (started 3 [0x10000, 0, 1]) 3 = true ∧ (match (started 3 [0, 0x01000000, 1]).readBundle 1 (2 ^ 56) 1 with
        | (_, .fault _) => true
        | _ => false) = true ∧ (match (started 3 [0x10000, 0, 1]).readBundle 1 0x10000 1 with
        | (_, .bad _ _) => true
        | _ => false) = true ∧ (match (started 3 [0x10000, 0, 0]).readBundle 1 0x10000 0 with
        | (_, .ok l) => l.isEmpty
        | _ => false) = true) ∧
    (begun (started 4 [0x10000]) 4 (fun r => !(started 4 [0x10000]).chainBehind 1 0 r) = true ∧ ((started 4 [0x10000]).startChain 1 0x10000 0 (.record 1 0 0)).isSome = true ∧
      (({ started 4 [0x10000] with dies := [] } : State).startChain 1 0x10000 0 (.record 1 0 0)).isNone = true) ∧
    (begun (started 5 [0x10008]) 5 (fun r => r.dword 0x10 % 65536 != 0) = true ∧ begun (started 5 [0x10000]) 5 = true ∧
      (match (started 5 [0x10000]).readImage 1 0x10000 with
        | (_, .error _) => true
        | _ => false) = true) ∧
    (begun (started 6 [1]) 6 = true ∧ ((started 6 [1]).parts.get? 0).any (fun p => (p.modules.get? 1).isNone && (p.modules.get? 0).isSome) = true) ∧
    begun (started 7 [0x10000, 0, 5]) 7 = true ∧ begun (started 8 [0x10000]) 8 = true ∧
    ((started 8 [0x10000] (fun r => { r with stage := .waiting (some 0), poke := true })).rec? 1 0 0).any (fun r => r.waiting == some (some 0) && r.poke) = true := by
  decide +kernel

/-- An image of one kernel at 0x10000. -/
def imaged (s : State) : State :=
  poked 0x10040 [0, 0x0100] (poked 0x10000 [0x4D4C444D, 0x5A1C93E7, 0x1000, 1, 0x40, 0, 0x40, 0x80, 0x40] s)

theorem witness_CommandEvents_more :
    (match (imaged (started 5 [0x10000])).readImage 1 0x10000 with
      | (t, .ok _) => (t.parts.get? 0).any (fun p => decide (p.modules.length < 1024))
      | _ => false) = true ∧
    (let s := machine; let t := s.modPart 0 (fun p => { p with modules := p.modules.set 0 ⟨0, 0, 0, 0, 0, [], 1, some [(1, 0, 0)]⟩ });
      ((t.parts.get? 0).bind (fun p => p.modules.get? 0)).any (fun m => m.unloading == some [(1, 0, 0)]) = true ∧ t.moduleHeld 0 0 = false) ∧
    (begun (started 9 [0x10000]) 9 = true ∧ ((started 9 [0x10000]).modFunc 1 (fun x => { x with saving := true })).unitsOfFunc 1 = []) ∧
    (let s : State := { started 9 [0x10000] with blocks := (placed .nop).blocks, waves := (placed .nop).waves, grids := [(3, grid1)] };
      let t := s.modFunc 1 (fun x => { x with saving := true });
      t.unitsOfFunc 1 = [[2]] ∧ (t.saveUnits 3 (1, 0, 0) (t.unitsOfFunc 1)).isSome = true) ∧
    (begun (started 10 [0x10000]) 10 = true ∧ (match (started 10 [0x10000]).readFor 1 0x10000 8 with
      | (t, .ok n) => n == 0 && (match t.dwordsFor 1 0x10008 0 with
        | (_, .ok l) => l.isEmpty
        | _ => false)
      | _ => false) = true) ∧
    (let s := poked 0x10000 [1] (started 10 [0x10000]); (match s.readFor 1 0x10000 8 with
      | (t, .ok n) => n == 1 && (match t.dwordsFor 1 0x10008 1 with
        | (u, .ok l) => l == [0] && (u.heldCairn 1 0).isNone
        | _ => false)
      | _ => false) = true) ∧
    (let s : State := { started 9 [0x10000] (fun r => { r with stage := .running }) (fun x => { x with switching := some 0 }) with time := 200000 };
      (s.rec? 1 0 0).any (fun r => r.opc == 9 && r.stage != .retired) = true ∧ (s.func 1).switching = some 0) := by decide +kernel

/-- A ring page that is not there; a RUN_PLAT whose plat is free, runs already, or waits for a place; a chain behind
another; a SIGNAL whose write is on its way; and a CTX_SAVE of a function whose unit is already being saved, in time and late. -/
theorem witness_CommandEvents_waits :
    (let s := machine (fun x => { x with queues := [(0, { x.queue 0 with base := 0x400000000 })] });
      s.mayStart 1 0 = true ∧ (match s.recordWords 1 ((s.func 1).queue 0) 0 with
        | (_, .error _) => true
        | _ => false) = true) ∧
    (let s := poked 0x10000 [0x504C4154, 4, 1] (poked 0x9000 [2, 0, 0, 0, 0x10000, 0, 2] machine);
      let full : State := { s with plats := (List.range 512).map (fun i => (100 + i, ⟨2, BitVec.ofNat 64 (0x20000 + 64 * i), 1, 4, 1, .device, 0, [], [], [], [], [], none, none, none⟩)) };
      let on : State := { s with plats := [(5, ⟨1, 0x10000, 1, 4, 1, .device, 0, [], [], [], [], [], none, none, none⟩)] };
      let first := fun (s : State) (p : Rec → Bool) => s.mayStart 1 0 && (match s.recordWords 1 ((s.func 1).queue 0) 0 with
        | (_, .ok w) => p (Rec.ofWords 0 s.time w)
        | _ => false);
      first s (fun y => s.wantsPlat 1 y && !s.platRuns 1 y && s.platFree (.record 1 0)) = true ∧
      first on (fun y => on.wantsPlat 1 y && on.platRuns 1 y) = true ∧
      first full (fun y => full.wantsPlat 1 y && !full.platRuns 1 y && !full.platFree (.record 1 0)) = true) ∧
    (let s := started 4 [0x10000] (fun r => { r with seq := 1 }) (fun x => { x with queues := [(0, { x.queue 0 with start := 2, recs := rec0 4 [] :: (x.queue 0).recs })] });
      (s.begun? 1 0 1 4).any (fun r => s.chainBehind 1 0 r) = true) ∧
    (∀ n ∈ [0, 9], (let s := started 7 [0x11000] (fun r => { r with stage := .waiting (some n) });
      (s.rec? 1 0 0).any (fun r => decide (r.opc = 7) && decide (r.stage = .waiting (some n))) = true)) ∧
    (begun (started 7 [0x11000]) 7 = true ∧ (match (started 7 [0x11000]).writeRing 1 true 0x11000 8 0 with
      | (_, .ok ()) => true
      | _ => false) = true ∧ (match (started 7 [0, 0x01000000]).writeRing 1 true (2 ^ 56) 8 0 with
      | (_, .error _) => true
      | _ => false) = true) ∧
    (let s : State := { started 9 [0x10000] with cuts := [{ cutting .writing .save [2] with func := 1, reason := 0 }] };
      begun s 9 = true ∧ s.unitsOfFunc 1 = [] ∧ s.cuts.any (fun y => decide (y.func = 1) && decide (y.reason = 0) && y.listOf.isNone) = true) ∧
    (let s : State := { started 9 [0x10000] id (fun x => { x with switching := some 0 }) with time := 200001 };
      begun s 9 = true ∧ (s.func 1).switching = some 0 ∧ 0 + 200000 < s.time) := by decide +kernel

/-- A plat at 0x10000 of function 1 whose node 0 writes a word at 0x11000 (kind 3), and its instance under key 5. -/
def platted (node : List Nat) (f : PlatInst → PlatInst := id) : State :=
  { poked 0x10040 node (machine) with plats := [(5, f ⟨1, 0x10000, 1, 4, 1, .device, 0, [0], [], [], [], [], none, none, none⟩)] }

/-- Node 0's words at 0x00 to 0x2C: kind, state and retries in the first; then the count, its generation, the state's
generation, the successors, the rest, and the payload. -/
def node0 (kind state retries : Nat) (pay : Nat) : List Nat :=
  [kind * 2 ^ 24 + state * 2 ^ 28 + retries * 2 ^ 16, 0, 1, 1, 0, 0, 0, 0, pay, 0, 0, 0]

/-- The instance's node 0 issues: its payload runs, is refused, or waits; it completes, and faults with and without a
retry left; a cone is rearmed; a token and a message reach their instance and miss it; and a comparison's time limit. -/
theorem witness_PlatEvents :
    let is := fun (s : State) (p : PlatInst → List Nat → Bool) => (s.plats.get? 5).any (fun i => i.halted.isNone && p i (s.nodeRec 5 0).2);
    let ended := fun (st : Nat) (d : Option (List Byte)) (i : PlatInst) => { i with payloads := [⟨0, 0, d, [], false, some (st, 0), false, 0⟩] };
    (let s := platted (node0 3 2 0 0x11000); is s (fun i w => i.ready == [0] && (s.func 1).places && (match (s.nodeRec 5 0).1.startNode 5 0 w with
      | (_, .run _ _ _) => true
      | _ => false)) = true) ∧
    (let s := platted (node0 7 2 0 0); is s (fun _ w => match (s.nodeRec 5 0).1.startNode 5 0 w with
      | (_, .refused _ _) => true
      | _ => false) = true) ∧
    (let s : State := { platted (node0 2 2 0 0) with dies := [] }; is s (fun _ w => match (s.nodeRec 5 0).1.startNode 5 0 w with
      | (_, .wait) => true
      | _ => false) = true) ∧
    (∀ d ∈ ([none, some []] : List (Option (List Byte))), (let s := platted (node0 0 3 0 0) (ended stOK d);
      is s (fun i w => (i.nextEnded s.time).any (fun x => x.node == 0 && x.ended == some (stOK, 0)) && nodeState i.gen w == 3) = true)) ∧
    (∀ n ∈ [0, 255], (let s := platted (node0 0 3 n 0) (ended stFaulted none);
      is s (fun i w => (i.nextEnded s.time).any (fun x => x.ended == some (stFaulted, 0)) && nodeState i.gen w == 3 && nodeUsed i.gen w == 0 &&
        nodeField w 0 16 8 == n) = true)) ∧
    (let s := platted (node0 0 7 0 0) (fun i => { i with cones := [(0, [1])] }); is s (fun i _ => (i.cones.get? 0).any (i.mayRearm s.time 0)) = true) ∧
    (let s : State := { platted (node0 0 1 0 0) with tokens := [⟨1, 0x10000, 0, 1, 5, 0⟩, ⟨1, 0x20000, 0, 1, 5, 1⟩] };
      let other : State := { s with tokens := [⟨1, 0x20000, 0, 1, 5, 1⟩] };
      ((s.platOn 1 0x10000).any (fun (_, q) => q.gen.toNat == 1 && decide (0 < q.nnode) && q.func == 1 && (q.nextEnded s.time).isNone) = true) ∧
      s.platOn 1 0x20000 = none ∧ s.nextToken 0 ⟨1, 0x10000, 0, 1, 5, 0⟩ = true ∧ s.nextToken 1 ⟨1, 0x20000, 0, 1, 5, 1⟩ = false ∧
      other.nextToken 0 ⟨1, 0x20000, 0, 1, 5, 1⟩ = true ∧ other.platOn 1 0x20000 = none ∧
      (platted (node0 0 3 0 0) (ended stOK none)).platOn 1 0x10000 ≠ none) ∧
    (let s := (platted (node0 0 3 0 0) (fun i => { i with waits := [⟨0, [], 0, []⟩] })).modFunc 1 (fun x => { x with replica := [0, 1], rlimit := 1 });
      let m : ReplicaMsg := ⟨1, (s.func 1).key, 0x10000, 1, 0, []⟩;
      (s.plats.find? (fun e => e.2.waits.any (fun x => s.means e.2 m x.node))).isSome = true ∧
      (s.replicaPeers 1).contains 1 = true ∧ s.plats.find? (fun e => e.2.waits.any (fun x => s.means e.2 { m with gen := 2 } x.node)) = none ∧
      is s (fun i _ => i.waits.any (fun x => x.node == 0 && decide (s.time < x.since + 4000 * (s.func 1).rlimit))) = true ∧
      is ({ s with time := 4000 } : State) (fun i _ => i.waits.any (fun x => decide (x.since + 4000 * (s.func 1).rlimit ≤ 4000))) = true) ∧
    (let m : Packet := ⟨true, 0, 0, 0, 1, 0, 0, 4064, 0, List.replicate 48 0, 1, 0⟩;
      let s := (machine).modEndpoint 4064 (fun e => { e with oq := [m] });
      ((s.modFabric (fun x => { x with inputs := x.inputs.map (fun i => { i with wmark := 1 }) })).replicaHeads.find? (fun e => ReplicaMsg.ofPacket e.2 == ReplicaMsg.ofPacket m)).isSome = true) := by
  decide +kernel

/-- An ordered packet with a stamp. -/
def packet (stamp : Nat) : Packet := ⟨true, BitVec.ofNat 64 stamp, 0, 0, 1, 0, 0, 0, 0, [], 0, 0⟩

/-- Each operation of the fabric at each of its stages, and the inputs of the switch at each of their conditions. -/
theorem witness_FabricEvents :
    let up := fun (s : State) => s.modEndpoint 0 (fun e => { e with cfg := 0x80000001 });
    let sent : State := { stepped (up (placed (.esnd (r 4)) (withS [(5, 256)]) roomy)) with time := 1 };
    let got : State := { stepped (up (placed (.ercv (r 4)) id roomy)) with time := 9 };
    (sent.fabops.all (fun x => (sent.waves.get? x.wave).any (fun w => sent.esndTurn w x)) = true) ∧
    (sent.fabops.any (fun x => x.send && !x.injected && !x.buffered && (sent.waves.get? x.wave).any (fun w =>
      (sent.blocks.get? w.block).any (fun b => sent.released_ x.wave w x.lane x.gang x.after x.scope &&
        sent.interfaceFree w x && (match sent.readPieces (sent.waveDecoder w b) (sent.orderOf (some x.wave))
            w.func (engineKey w.core) w.priv (linePieces (0xF0 * 2 ^ 56 + natBits (x.desc.getD 0 0).toNat 0 20) (natBits (x.desc.getD 1 0).toNat 0 9)) with
          | (_, .data _) => true
          | _ => false)))) = true) ∧
    (got.fabops.any (fun x => !x.send && !x.took && !x.buffered && got.ercvTurn x) = true) ∧
    (({ got with time := 8 } : State).fabops.any (fun x => !({ got with time := 8 } : State).ercvTurn x) = true) ∧
    (let ordered : State := { stepped (up (placed (.ercv (r 4)) (withS [(5, 0x80000000)]) roomy)) with time := 9 };
      ordered.fabops.any (fun x => ordered.ercvTurn x && natBits (x.desc.getD 1 0).toNat 31 1 == 1) = true) ∧
    (({ got with fabops := got.fabops.map (fun x => { x with took := true }) } : State).fabops.any (fun x => !x.send && x.took &&
      (got.waves.get? x.wave).any (fun w => got.mayLand (.scratch w.block w.half (natBits (x.desc.getD 0 0).toNat 0 20)) (engineKey w.core))) = true) ∧
    (let s := State.reset; (s.leftSwitch (packet 0)).retired (packet 0) = false ∧ (s.input 15).fenced = false ∧ (s.input 15).wmark = 0 ∧
      (s.input 15).rejoin = false ∧ ((s.modInput 15 (fun i => { i with wmark := 5 })).input 15).wmark = 5) ∧
    (let p := packet 7;
      let m : Retire := ⟨0, 1, 0, 9⟩;
      let s : State := ({ State.reset with time := 9 } : State).modFabric (fun f => { f with links := [⟨17, some p, 0, none⟩, ⟨18, none, 0, some m⟩] });
      let up := s.modInput 3 (fun i => { i with linkup := true });
      s.takeItem 17 (some p) none ≠ none ∧ s.takeItem 18 none (some m) ≠ none ∧ s.takeItem 16 (some p) none = none ∧ s.takeItem 3 (some p) none = none ∧
      up.takeItem 3 (some p) none ≠ none ∧ up.takeItem 3 none (some m) ≠ none ∧ up.takeItem 3 none none ≠ none ∧
      ({ up with landed := up.landed.set switchBank 0 } : State).takeItem 3 none none = none ∧
      (({ s with time := 8 } : State).takeItem 17 (some p) none = none) ∧
      (p.ordered = true ∧ ((s.modInput 17 (fun i => { i with rejoin := true })).input 17).rejoin = true ∧ p.dep < 4064 ∧ p.ddev = s.fabric.devid ∧
        { p with ddev := 1 }.ddev ≠ s.fabric.devid) ∧
      s.fabric.toDie.length = 4 ∧ 256 ≤ ({ s with time := 256 } : State).time) ∧
    (let s := (machine).modFunc 1 (fun x => { x with retire := some 9 }); s.retired { packet 0 with func := 1, sdev := s.fabric.devid } = true) ∧
    ((State.reset.modInput 15 (fun i => { i with fenced := true })).input 15).fenced = true ∧
    (let s : State := { State.reset with time := 2 ^ 33 }; (∀ i ∈ [0, 15, 16, 20], (s.input i).lastSent + 256 ≤ s.time ∧ (s.input i).fenced = false ∧
        (s.input i).stall = false ∧ (s.input i).wmark + s.fabric.stallLim < s.time) ∧
      ((s.modInput 3 (fun i => { i with tsrc := true, linkup := true })).input 3).tsrc = true ∧ (s.input 3).linkup = false ∧
      ((s.modInput 3 (fun i => { i with tsrc := true, linkup := true })).input 3).linkup = true ∧ s.usable = false ∧
      (machine).usable = true ∧ (s.input 3).lastTime + 1048576 ≤ s.time) ∧
    ((State.reset.modFabric (fun f => { f with ppsOn := true })).fabric.ppsOn = true) := by decide +kernel

/-- Arguments that each command takes, and arguments and states that it refuses. -/
theorem witness_MailboxCommands : let s : State := { machine with parts := [], dies := List.replicate 4 Die.reset };
    let a : PartArg := ⟨15, [0, 1], [(0, 2 ^ 34)], [0, 0, 0, 0], 0, 262144, 0, 0, 0⟩;
    let fa : FuncArg := ⟨256, none, 0, 0, 7, false, 0⟩;
    (machine).usable = true ∧ s.partLegal a = true ∧ s.partLegal { a with part := 16 } = false ∧ s.partBusy 15 = false ∧
    (let b := { s with grids := [(1, { grid1 with part := 15 })] }; b.partLegal a = true ∧ b.partBusy 15 = true) ∧
    s.funcLegal fa = true ∧ s.funcLegal { fa with func := 257 } = false ∧ (s.func 256).active = false ∧ s.funcLegal { fa with func := 1 } = true ∧
    (s.func 1).active = true ∧ (s.endpoint 4063).oq = [] ∧ (s.endpoint 4063).uq = [] ∧
    ((s.modEndpoint 0 (fun e => { e with oq := [packet 0] })).endpoint 0).oq ≠ [] ∧ s.plats = [] ∧
    s.isFrozen (.core 0) = false ∧ (s.modCore 0 (fun c => { c with frozen := true })).isFrozen (.core 0) = true ∧
    s.anyResetting = false ∧ ({ s with dies := [{ Die.reset with resetting := true }] } : State).anyResetting = true ∧ s.control.upstat ≠ 1 ∧
    s.fabric.devidSet = false ∧ ((s.modFabric (fun x => { x with devidSet := true })).fabric.devidSet = true) ∧
    (psust 0x01F4010001F4 = 500 ∧ pexc 0x01F4010001F4 = 500 ∧ texc 0x01F4010001F4 = 1) ∧
    (psust 0x09600A000898 = 2200 ∧ pexc 0x09600A000898 = 2400 ∧ texc 0x09600A000898 = 10) ∧
    mailboxListed 11 = true ∧ mailboxListed 12 = false := by decide +kernel

/-- The states in which the control die's events act. What an image's verdict is stays free (log entry 8), so one of its
two clauses is met by every image. -/
theorem witness_ControlEvents : let s := machine;
    s.usable = true ∧ ((s.modFunc 1 (fun x => { x with even := true, evwait := [⟨1, 0, []⟩] })).func 1).evwait ≠ [] ∧
    ((s.func 1).evprod + 2 ^ 32 - (s.func 1).evcons) % 2 ^ 32 ≠ 2 ^ (s.func 1).evsz ∧ (s.func 1).tdst = .configUnlocked ∧
    ((s.modFunc 1 (fun x => { x with tdst := .configLocked })).func 1).locked = true ∧
    ((s.func 1).part ≠ none ∧ (s.func 1).active = true ∧ (s.func 1).switching = none ∧ (s.func 1).atBoundary = true) ∧
    ((s.modFunc 1 (fun x => { x with active := false })).func 1).active = false ∧ s.cuts = [] ∧
    (s.parts.get? 0).any (fun p => p.plugin) = true ∧ ((s.dies[3]?).any (fun d => d.ok) = true ∧ s.anyResetting = false) ∧
    (let t := s.resetDie 3; (t.dies[3]?).any (fun d => d.resetting) = true ∧ t.usable = true ∧ t.control.tripped = false) ∧
    (let t : State := { s with control := { s.control with phase := .minimal } }; t.control.phase = .minimal ∧ t.control.upstat ≠ 1) ∧
    ({ s.control with upstat := 1 } : Control).upstat = 1 ∧
    (let t : State := { s with time := 40000000000, control := { s.control with phase := .training true } };
      t.control.began + 40000000000 ≤ t.time ∧ t.control.tripped = false) ∧
    (let t : State := { s with time := 345600000000000 }; t.control.scrubs.getD 7 0 + 345600000000000 ≤ t.time) ∧
    (s.func 1).even = false ∧ s.sampleDue = true ∧ (s.modControl (fun c => { c with sampledAt := some 0 })).sampleDue = false ∧
    (∀ n : Nat, n < 3 → s.hasQueue 1 n = true) ∧ maximumSample ⟨0, 105, 0, 0⟩ = true ∧
    (let t := s.modFunc 1 (fun x => { x with switching := some 0 }); (t.func 1).switching = some 0 ∧ (t.func 1).atBoundary = true ∧
      ((t.modQueue 1 0 (fun x => { x with recs := [rec0 9 []] })).func 1).atBoundary = false) ∧
    (let t : State := { s with cuts := [{ cutting .writing .save [2] with func := 1 }] }; t.cuts.any (fun y => decide (y.func = 1) && y.method == .save &&
      y.state == .writing) = true) ∧
    (let t : State := { s with dies := [{ Die.reset with ok := true }, { Die.reset with resetting := true }] };
      (t.dies[0]?).any (fun d => d.ok) = true ∧ t.anyResetting = true) ∧
    (let t := s.modControl (fun c => { c with temps := [115, 105, 115] }); t.control.tripped = false ∧ t.control.temps = [115, 105, 115]) ∧
    (s.control.temps.getD 0 0 < 115 ∧ (let t := s.modControl (fun c => { c with tripped := true }); t.control.tripped = true)) := by decide +kernel

end Sys2Proof.Tests
end

