-- ==== Sys2Proof/Proofs/ReservedOpcodes.lean ====
section
/-! Reserved and privileged opcodes (R49): where the decoder answers RESERVED_OPCODE, which instructions the opcodes 0xD0 to
0xD7 hold, and the traps that their words take. -/

namespace Sys2Proof

/-! ## Where the decoder answers RESERVED_OPCODE -/

/-- Checked fields give the instruction they were checked for, or an error. -/
theorem checkFields_eq_ok {m : String} {d a b : Bool} {i j : Instr} :
    checkFields m d a b i = .ok j ↔ (d = true ∧ a = true ∧ b = true) ∧ i = j := by
  cases d <;> cases a <;> cases b <;> simp [checkFields]

/-- The number of opcodes that R48 assigns under each high digit: R49 reserves the low digits from there on. -/
def assignedInRow : Nat → Nat
  | 1 | 7 => 15
  | 9 | 12 => 14
  | 10 | 11 => 12
  | 13 => 8
  | 14 | 15 => 0
  | _ => 16

theorem opcodeReserved_iff_assignedInRow (op : BitVec 8) :
    opcodeReserved op = true ↔ assignedInRow (op.toNat / 16) ≤ op.toNat % 16 := by
  revert op; decide +kernel

/-- The fields decode to RESERVED_OPCODE only by the last arm of a row, which is reached by no assigned low digit. -/
theorem opcodeReserved_of_decodeFields {op d a b : BitVec 8} {w v : Word}
    (h : decodeFields op d a b w = .ok (.reservedOpcode v)) : opcodeReserved op = true ∧ v = w := by
  rw [opcodeReserved_iff_assignedInRow]
  unfold decodeFields at h
  split at h
  case h_15 =>
    simp only [imp_false] at *
    have hrow : op.toNat / 16 = 14 ∨ op.toNat / 16 = 15 := by omega
    cases h
    rcases hrow with hrow | hrow <;> simp [hrow, assignedInRow]
  all_goals
    rename_i hrow
    rw [hrow]
    simp only [decodeRow0, decodeRow1, decodeRow2, decodeRow3, decodeRow4, decodeRow5, decodeRow6, decodeRow7,
      decodeRow8, decodeRow9, decodeRowA, decodeRowB, decodeRowC, decodeRowD] at h
    split at h
  all_goals
    simp only [checkFields_eq_ok, Except.ok.injEq, Instr.reservedOpcode.injEq, reduceCtorEq, and_false] at h
  all_goals
    simp only [imp_false] at *
    exact ⟨by simp only [assignedInRow]; omega, h.symm⟩

/-- A word decodes to RESERVED_OPCODE exactly when its opcode is reserved, and carries itself (R49). -/
theorem decode_eq_reservedOpcode_iff {w v : Word} :
    decode w = .ok (.reservedOpcode v) ↔ opcodeReserved (fieldOp w) = true ∧ v = w := by
  constructor
  · exact opcodeReserved_of_decodeFields
  · rintro ⟨hop, rfl⟩
    exact decodeFields_reserved hop _ _ _ _

end Sys2Proof

namespace Sys2Proof.Machine

/-! ## The opcodes that need privilege -/

@[simp] theorem Checks.and_priv (x y : Checks) : (x.and y).priv = (x.priv || y.priv) := rfl
@[simp] theorem Checks.all_cons_priv (x : Checks) (l : List Checks) :
    (Checks.all (x :: l)).priv = (x.priv || (Checks.all l).priv) := rfl
@[simp] theorem Checks.privileged_priv : Checks.privileged.priv = true := rfl

/-- The instructions of the opcodes 0xD0 to 0xD7 (R49): encoded words that need privilege. -/
theorem privileged_of_decodeRowD {lo : Nat} {d a b : BitVec 8} {w : Word} {i : Instr} (hlo : lo < 8)
    (h : decodeRowD lo d a b w = .ok i) : i.encoded = true ∧ ∀ c, (checksOf i c).priv = true := by
  unfold decodeRowD at h
  split at h
  case h_9 =>
    simp only [imp_false] at *
    omega
  all_goals
    obtain ⟨-, rfl⟩ := checkFields_eq_ok.1 h
    refine ⟨rfl, fun c => ?_⟩
  · simp [checksOf, ctxsvChecks]
  · simp [checksOf, ctxrsChecks]
  · simp [checksOf, tlbinvChecks]
  · simp [checksOf, wfreezeChecks]
  · simp [checksOf]
  · simp [checksOf, easeqChecks]
  · simp [checksOf, cntrdChecks]
  · simp [checksOf, cntselChecks]

theorem privileged_of_decode {w : Word} {i : Instr} (hlo : 0xD0 ≤ (fieldOp w).toNat) (hhi : (fieldOp w).toNat ≤ 0xD7)
    (h : decode w = .ok i) : i.encoded = true ∧ ∀ c, (checksOf i c).priv = true := by
  have hrow : (fieldOp w).toNat / 16 = 13 := by omega
  simp only [decode, decodeFields, hrow] at h
  exact privileged_of_decodeRowD (by omega) h

/-- An opcode from 0xD0 to 0xD7 is assigned. -/
theorem ne_reservedOpcode_of_decode {w : Word} {i : Instr} (hlo : 0xD0 ≤ (fieldOp w).toNat)
    (hhi : (fieldOp w).toNat ≤ 0xD7) (h : decode w = .ok i) (v : Word) : i ≠ .reservedOpcode v := by
  rintro rfl
  obtain ⟨hop, -⟩ := decode_eq_reservedOpcode_iff.1 h
  have hrow : (fieldOp w).toNat / 16 = 13 := by omega
  rw [opcodeReserved_iff_assignedInRow, hrow] at hop
  simp only [assignedInRow] at hop
  omega

/-! ## The traps -/

/-- Legal operands leave PRIVILEGE as the first decode cause of a privileged word in a wave without privilege (R43). -/
theorem Ctx.decodeFault_privilege {c : Ctx} {k : Checks} (hok : k.ok = true) (hp : k.priv = true)
    (hw : c.w.priv = false) : c.decodeFault k = some (causesIn c.src .privilege c.exec) := by
  simp [Ctx.decodeFault, hok, hp, hw]

/-- An encoded word whose decode checks fail traps with the causes that they give (R43, R347). -/
theorem exec_of_decodeFault {i : Instr} {s : State} {c : Ctx} {l : List LaneCause} (he : i.encoded = true)
    (hr : ∀ v, i ≠ .reservedOpcode v) (hc : s.ctx? = some c) (hf : c.decodeFault (checksOf i c) = some l) :
    exec i s = c.traps s l := by
  obtain ⟨f, hexec⟩ := exec_encoded i he hr
  rw [hexec]
  exact issueChecked_illegal hc hf _

/-- Every executing lane of a RESERVED_OPCODE word takes ILLEGAL_INSTR (R49). -/
theorem exec_reservedOpcode {s : State} {c : Ctx} (hc : s.ctx? = some c) (w : Word) :
    exec (.reservedOpcode w) s = c.traps s (causesIn c.src .illegalInstr c.exec) :=
  issue_some hc _

/-- Settles O3: the decoder's rows give the reserved opcodes, and the first failing decode check gives the trap. -/
theorem reservedAndPrivilegedOpcodes : Obligations.ReservedAndPrivilegedOpcodes := by
  refine ⟨fun w => ?_, rfl, fun w v h => (decode_eq_reservedOpcode_iff.1 h).2,
    fun s c w hc => exec_reservedOpcode hc w, fun s c w i hlo hhi hdec hc hok hpriv => ?_⟩
  · rw [← opcodeReserved_iff, decode_eq_reservedOpcode_iff]
    simp
  · obtain ⟨henc, hneeds⟩ := privileged_of_decode hlo hhi hdec
    exact exec_of_decodeFault henc (ne_reservedOpcode_of_decode hlo hhi hdec) hc
      (Ctx.decodeFault_privilege hok (hneeds c) hpriv)

end Sys2Proof.Machine
end

