-- ==== Sys2Proof/Proofs/ScalarArithmetic.lean ====
section
/-! The scalar arithmetic (R183, R184). The model computes each result on natural numbers below 2^w, the rules speak of
integers reduced modulo 2^w: first the two are shown to agree, operation by operation; then what a scalar-class word does
when it issues, and when its operands are illegal. -/

namespace Sys2Proof

/-! ## Words with a zero field b -/

/-- A unary member's word decodes to its instruction exactly when field b is zero (R183). -/
theorem decode_zeroFieldB {op d a b : BitVec 8} {m : String} {i : Instr}
    (h : decodeFields op d a b (wordOf op d a b) = checkFields m true true (fits 0 b) i) :
    (b = 0 → decode (wordOf op d a b) = .ok i) ∧ (b ≠ 0 → ∃ e, decode (wordOf op d a b) = .error e) := by
  rw [decode_wordOf, h]
  refine ⟨fun hb => ?_, fun hb => ⟨.fieldB m, ?_⟩⟩
  · simp [checkFields, hb]
  · have hfits : fits 0 b = false := by simpa [fits] using hb
    simp [checkFields, hfits]

end Sys2Proof

namespace Sys2Proof.Machine

/-! ## Results as integers modulo 2^w -/

theorem intBits_eq (w : Nat) (v : Int) : intBits w v = (v % 2 ^ w).toNat := by simp [intBits]

theorem intBits_lt (w : Nat) (v : Int) : intBits w v < 2 ^ w := by
  have hpos : (0 : Int) < 2 ^ w := by positivity
  have hlt := Int.emod_lt_of_pos v hpos
  rw [intBits_eq, Int.toNat_lt (Int.emod_nonneg v hpos.ne')]
  exact_mod_cast hlt

theorem intBits_mod (w : Nat) (v : Int) : intBits w v % 2 ^ w = intBits w v := Nat.mod_eq_of_lt (intBits_lt w v)

/-- A natural number and an integer congruent to it reduce to the same word. -/
theorem mod_eq_intBits {w n : Nat} {v : Int} (h : (n : Int) ≡ v [ZMOD 2 ^ w]) : n % 2 ^ w = intBits w v := by
  rw [intBits_eq, ← h.eq]
  norm_cast

theorem mod_eq_intBits_natCast (w n : Nat) : n % 2 ^ w = intBits w n := mod_eq_intBits rfl

theorem modEq_signedOf (w x : Nat) : (x : Int) ≡ signedOf w x [ZMOD 2 ^ w] := by
  have hx : (x : Int) ≡ (x % 2 ^ w : Nat) [ZMOD 2 ^ w] := by
    push_cast
    exact (Int.mod_modEq _ _).symm
  unfold signedOf
  dsimp only
  split
  · exact hx.trans (by simp [Int.ModEq])
  · exact hx

theorem mod_eq_intBits_signedOf (w x : Nat) : x % 2 ^ w = intBits w (signedOf w x) := mod_eq_intBits (modEq_signedOf w x)

/-- A comparison's result is 0 or 1. -/
theorem ite_mod_eq_intBits {w : Nat} (p : Prop) [Decidable p] :
    (if p then 1 else 0 : Nat) % 2 ^ w = intBits w (if p then 1 else 0) := by
  rw [mod_eq_intBits_natCast]
  push_cast
  rfl

/-! ## The operations -/

theorem subMod_mod (w a b : Nat) : subMod w a b % 2 ^ w = intBits w (a - b) := by
  have hb : b % 2 ^ w ≤ 2 ^ w := (Nat.mod_lt b (by positivity)).le
  rw [subMod, Nat.mod_mod]
  apply mod_eq_intBits
  push_cast [hb]
  calc (a + (2 ^ w - b % 2 ^ w) : Int)
      ≡ a + (0 - b) [ZMOD 2 ^ w] :=
        .add_left _ (.sub (by simp [Int.ModEq]) (Int.mod_modEq _ _))
    _ = a - b := by ring

theorem mulHigh_mod (w : Nat) (p : Int) : intBits w (p / (2 ^ w : Nat)) % 2 ^ w = intBits w (p / 2 ^ w) := by
  rw [intBits_mod]
  norm_cast

theorem elemBit_shl_mod (w a n : Nat) :
    elemBit .shl w a n % 2 ^ w = intBits w (if w ≤ n then 0 else (a : Int) * 2 ^ n) := by
  simp only [elemBit]
  split
  · exact mod_eq_intBits_natCast w 0
  · rw [Nat.mod_mod, mod_eq_intBits_natCast]
    push_cast
    rfl

theorem elemBit_shr_mod {w a : Nat} (ha : a < 2 ^ w) (n : Nat) :
    elemBit .shr w a n % 2 ^ w = intBits w (if w ≤ n then 0 else (a / 2 ^ n : Nat)) := by
  simp only [elemBit, Nat.mod_eq_of_lt ha]
  split
  · exact mod_eq_intBits_natCast w 0
  · exact mod_eq_intBits_natCast w _

/-- An arithmetic shift by `w` or more acts as one by `w - 1`. -/
theorem elemBit_sha_mod (w a n : Nat) :
    elemBit .sha w a n % 2 ^ w = intBits w (signedOf w a / 2 ^ min n (w - 1)) := by
  have hn : (if w ≤ n then w - 1 else n) = min n (w - 1) := by split <;> omega
  simp only [elemBit, hn, intBits_mod]
  push_cast
  rfl

/-- The leading zero bits of a nonzero value are those above its highest set bit. -/
theorem leadingZeros_mod {w x : Nat} (hx : x < 2 ^ w) :
    leadingZeros w x % 2 ^ w = intBits w (if x = 0 then (w : Int) else w - 1 - x.log2) := by
  rw [mod_eq_intBits_natCast, leadingZeros, Nat.mod_eq_of_lt hx]
  split
  · rfl
  · next h0 =>
    have hlog : x.log2 < w := (Nat.log2_lt h0).2 hx
    congr 1
    omega

theorem popCount_eq_length_filter (x w : Nat) : popCount x w = ((List.range w).filter (fun k => x.testBit k)).length := by
  induction w with
  | zero => rfl
  | succ w ih =>
    have hbit : natBits x w 1 = (x.testBit w).toNat := by
      rw [Nat.toNat_testBit]
      rfl
    rw [popCount, ih, hbit, List.range_succ, List.filter_append, List.length_append]
    cases hw : x.testBit w <;> simp [hw]

theorem popCount_mod (w x : Nat) :
    popCount x w % 2 ^ w = intBits w ((List.range w).filter (fun k => x.testBit k)).length := by
  rw [popCount_eq_length_filter, mod_eq_intBits_natCast]

/-- The lesser of two signed values is the signed value of one of them. -/
theorem signedMin_mod (w x y : Nat) :
    (if signedOf w x ≤ signedOf w y then x else y) % 2 ^ w = intBits w (min (signedOf w x) (signedOf w y)) := by
  rw [Int.min_def]
  split
  · exact mod_eq_intBits_signedOf w x
  · exact mod_eq_intBits_signedOf w y

theorem signedMax_mod (w x y : Nat) :
    (if signedOf w x ≤ signedOf w y then y else x) % 2 ^ w = intBits w (max (signedOf w x) (signedOf w y)) := by
  rw [Int.max_def]
  split
  · exact mod_eq_intBits_signedOf w y
  · exact mod_eq_intBits_signedOf w x

/-! ## Scalar operands -/

/-- Consecutive words joined, the first lowest (R2). -/
theorem foldr_words_lt (f : Nat → Word) (l : List Nat) :
    l.foldr (fun i acc => (f i).toNat + 2 ^ 32 * acc) 0 < 2 ^ (32 * l.length) := by
  induction l with
  | nil => exact Nat.one_pos
  | cons i l ih =>
    have hi := (f i).isLt
    rw [List.foldr_cons, List.length_cons, Nat.mul_succ, Nat.pow_add]
    omega

theorem Wave.sread_lt (w : Wave) (n k : Nat) : w.sread n k < 2 ^ (32 * k) := by
  simpa [Wave.sread] using foldr_words_lt (fun i => w.s.get (n + i)) (List.range k)

theorem Ctx.lit_lt (c : Ctx) (j k l : Nat) : c.lit j k l < 2 ^ (32 * k) := by
  simpa [Ctx.lit] using foldr_words_lt (fun i => c.src.lits.getD (c.litSlot j l + i) 0) (List.range k)

/-- A scalar-class operand has 32 bits, or 64 where it is read as a pair (R39). -/
theorem Ctx.scalar_lt (c : Ctx) (wide : Bool) (code : SCode) : c.scalar wide code < 2 ^ (if wide then 64 else 32) := by
  have hword (x : Nat) : x % 2 ^ 32 < 2 ^ (if wide then 64 else 32) :=
    (Nat.mod_lt x (by norm_num)).trans_le (Nat.pow_le_pow_right two_pos (by cases wide <;> simp))
  cases code with
  | s n => cases wide <;> exact c.w.sread_lt n _
  | lit j => cases wide <;> exact c.lit_lt j _ 0
  | waveid => exact hword _
  | timelo => exact hword _
  | _ => cases wide <;> norm_num [Ctx.scalar]

/-! ## Issues and traps of the scalar-class words -/

section
variable {s : State} {c : Ctx} {d a b : SCode} {v : Int}

/-- A 32-bit result of two operands is written whole into S[d] (R183). -/
theorem scalarOp_writes {f : Nat → Nat → Nat} (h : Issues s c (scalarOpChecks d a b c))
    (hf : f (c.scalar false a) (c.scalar false b) % 2 ^ 32 = intBits 32 v) :
    scalarOp f d a b s = c.leavesWave s (c.w.swrite d.sNum 1 (v % 2 ^ 32).toNat) := by
  rw [← intBits_eq, ← hf]
  exact issueChecked_issues h _

theorem scalarUnary_writes {f : Nat → Nat} (h : Issues s c (scalarUnaryChecks d a c))
    (hf : f (c.scalar false a) % 2 ^ 32 = intBits 32 v) :
    scalarUnary f d a s = c.leavesWave s (c.w.swrite d.sNum 1 (v % 2 ^ 32).toNat) := by
  rw [← intBits_eq, ← hf]
  exact issueChecked_issues h _

/-- A 64-bit result is written into the pair at S[d] (R184). -/
theorem scalarOp64_writes {wideB : Bool} {f : Nat → Nat → Nat} (h : Issues s c (scalarOp64Checks wideB d a b c))
    (hf : f (c.scalar true a) (c.scalar wideB b) % 2 ^ 64 = intBits 64 v) :
    scalarOp64 wideB f d a b s = c.leavesWave s (c.w.swrite d.sNum 2 (v % 2 ^ 64).toNat) := by
  rw [← intBits_eq, ← hf]
  exact issueChecked_issues h _

/-- Illegal operands are the first decode cause: every executing lane takes ILLEGAL_OPERAND (R43). -/
theorem exec_illegalOperand {i : Instr} (he : i.encoded = true) (hr : ∀ w, i ≠ .reservedOpcode w)
    (hc : s.ctx? = some c) (hok : (checksOf i c).ok = false) :
    exec i s = c.traps s (causesIn c.src .illegalOperand c.exec) :=
  exec_of_decodeFault he hr hc (by simp [Ctx.decodeFault, hok])

@[simp] theorem Checks.and_ok (x y : Checks) : (x.and y).ok = (x.ok && y.ok) := rfl
@[simp] theorem Checks.all_cons_ok (x : Checks) (l : List Checks) :
    (Checks.all (x :: l)).ok = (x.ok && (Checks.all l).ok) := rfl
@[simp] theorem Checks.all_nil_ok : (Checks.all []).ok = true := rfl
@[simp] theorem Checks.when_ok (p : Bool) : (Checks.when p).ok = p := rfl
@[simp] theorem Checks.scalarClass_ok : Checks.scalarClass.ok = true := rfl
@[simp] theorem scalarDst_ok (wide : Bool) (code : SCode) :
    (scalarDst wide code).ok = (code.isS && (!wide || code.sNum % 2 == 0)) := rfl
@[simp] theorem Ctx.scalarSource_ok (wide : Bool) (code : SCode) :
    (c.scalarSource wide code).ok = c.scalarOk wide code := rfl

theorem scalarOpChecks_not_ok (h : d.isS = false) (a b : SCode) (c : Ctx) :
    (scalarOpChecks d a b c).ok = false := by
  simp [scalarOpChecks, h]

theorem scalarUnaryChecks_not_ok (h : d.isS = false) (a : SCode) (c : Ctx) :
    (scalarUnaryChecks d a c).ok = false := by
  simp [scalarUnaryChecks, h]

/-- A code that names no pair: an odd s register or an odd literal (R40). -/
def OddCode (x : SCode) : Prop :=
  (∃ n : Fin 128, x = .s n ∧ n.val % 2 = 1) ∨ ∃ k : Fin 8, x = .lit k ∧ k.val % 2 = 1

theorem OddCode.not_scalarDst_ok {x : SCode} (h : OddCode x) : (scalarDst true x).ok = false := by
  obtain ⟨n, rfl, hn⟩ | ⟨k, rfl, -⟩ := h
  · simp [SCode.isS, SCode.sNum, hn]
  · simp [SCode.isS]

theorem OddCode.not_scalarOk {x : SCode} (h : OddCode x) (c : Ctx) : c.scalarOk true x = false := by
  obtain ⟨n, rfl, hn⟩ | ⟨k, rfl, hk⟩ := h
  · simp [Ctx.scalarOk, hn]
  · simp [Ctx.scalarOk, hk]

/-- One operand that is no pair where a pair is needed makes the word illegal. -/
theorem scalarOp64Checks_not_ok {wideB : Bool}
    (h : (scalarDst true d).ok = false ∨ c.scalarOk true a = false ∨ c.scalarOk wideB b = false) :
    (scalarOp64Checks wideB d a b c).ok = false := by
  obtain h | h | h := h
  · simp [scalarOp64Checks, h, -scalarDst_ok]
  · simp [scalarOp64Checks, h]
  · simp [scalarOp64Checks, h]

/-- A 64-bit shift takes its amount from any s register (R184). -/
theorem scalarOp64Checks_ok_shift {d a : Fin 128} (hd : d.val % 2 = 0) (ha : a.val % 2 = 0) (b : Fin 128) :
    (scalarOp64Checks false (.s d) (.s a) (.s b) c).ok = true := by
  simp [scalarOp64Checks, SCode.isS, SCode.sNum, Ctx.scalarOk, hd, ha]

end

/-! ## The obligations -/

/-- Settles O26: each operation agrees with its integer value modulo 2^32, and the issue writes it. -/
theorem scalarArithmetic : Obligations.ScalarArithmetic := by
  refine ⟨fun d a b op i h => ?_, fun d a b op i h => ?_, rfl, fun s c d a b i hd hi hc => ?_, ?_⟩
  · rw [decode_wordOf]
    simp only [List.mem_cons, Prod.mk.injEq, List.not_mem_nil, or_false] at h
    rcases h with ⟨rfl, rfl⟩ | ⟨rfl, rfl⟩ | ⟨rfl, rfl⟩ | ⟨rfl, rfl⟩ | ⟨rfl, rfl⟩ | ⟨rfl, rfl⟩ | ⟨rfl, rfl⟩ |
      ⟨rfl, rfl⟩ | ⟨rfl, rfl⟩ | ⟨rfl, rfl⟩ | ⟨rfl, rfl⟩ | ⟨rfl, rfl⟩ | ⟨rfl, rfl⟩ | ⟨rfl, rfl⟩ | ⟨rfl, rfl⟩ <;> rfl
  · simp only [List.mem_cons, Prod.mk.injEq, List.not_mem_nil, or_false] at h
    rcases h with ⟨rfl, rfl⟩ | ⟨rfl, rfl⟩
    · exact decode_zeroFieldB (m := "SCLZ") rfl
    · exact decode_zeroFieldB (m := "SPOPC") rfl
  · have hop := scalarOpChecks_not_ok hd a b c
    have hun := scalarUnaryChecks_not_ok hd a c
    simp only [List.mem_cons, List.not_mem_nil, or_false] at hi
    rcases hi with rfl | rfl | rfl | rfl | rfl | rfl | rfl | rfl | rfl | rfl | rfl | rfl | rfl | rfl | rfl | rfl | rfl
    iterate 15 exact exec_illegalOperand rfl nofun hc hop
    iterate 2 exact exec_illegalOperand rfl nofun hc hun
  · intro s c d a b i v x y sx sy hi hk
    have hx : x < 2 ^ 32 := c.scalar_lt false a
    simp only [List.mem_cons, Prod.mk.injEq, List.not_mem_nil, or_false] at hi
    rcases hi with ⟨rfl, rfl⟩ | ⟨rfl, rfl⟩ | ⟨rfl, rfl⟩ | ⟨rfl, rfl⟩ | ⟨rfl, rfl⟩ | ⟨rfl, rfl⟩ | ⟨rfl, rfl⟩ |
      ⟨rfl, rfl⟩ | ⟨rfl, rfl⟩ | ⟨rfl, rfl⟩ | ⟨rfl, rfl⟩ | ⟨rfl, rfl⟩ | ⟨rfl, rfl⟩ | ⟨rfl, rfl⟩ | ⟨rfl, rfl⟩ |
      ⟨rfl, rfl⟩ | ⟨rfl, rfl⟩
    · exact show execSadd d a b s = _ from scalarOp_writes hk (mod_eq_intBits_natCast 32 (x + y))
    · exact show execSsub d a b s = _ from scalarOp_writes hk (subMod_mod 32 x y)
    · exact show execSmul d a b s = _ from scalarOp_writes hk (mod_eq_intBits_natCast 32 (x * y))
    · exact show execSmulh d a b s = _ from scalarOp_writes hk (mulHigh_mod 32 (sx * sy))
    · exact show execSand d a b s = _ from scalarOp_writes hk (mod_eq_intBits_natCast 32 (x &&& y))
    · exact show execSor d a b s = _ from scalarOp_writes hk (mod_eq_intBits_natCast 32 (x ||| y))
    · exact show execSxor d a b s = _ from scalarOp_writes hk (mod_eq_intBits_natCast 32 (x ^^^ y))
    · exact show execSshl d a b s = _ from scalarOp_writes hk (elemBit_shl_mod 32 x y)
    · exact show execSshr d a b s = _ from scalarOp_writes hk (elemBit_shr_mod hx y)
    · exact show execSsha d a b s = _ from scalarOp_writes hk (elemBit_sha_mod 32 x y)
    · exact show execSmin d a b s = _ from scalarOp_writes hk (signedMin_mod 32 x y)
    · exact show execSmax d a b s = _ from scalarOp_writes hk (signedMax_mod 32 x y)
    · exact show execScmplt d a b s = _ from scalarOp_writes hk (ite_mod_eq_intBits (sx < sy))
    · exact show execScmpeq d a b s = _ from scalarOp_writes hk (ite_mod_eq_intBits (x = y))
    · exact show execScmpltn d a b s = _ from scalarOp_writes hk (ite_mod_eq_intBits (x < y))
    · exact show execSclz d a s = _ from scalarUnary_writes hk (leadingZeros_mod hx)
    · exact show execSpopc d a s = _ from scalarUnary_writes hk (popCount_mod 32 x)

/-- Settles O27: each operation agrees with its integer value modulo 2^64, and the checks of a pair refuse an odd code. -/
theorem scalarArithmetic64 : Obligations.ScalarArithmetic64 := by
  refine ⟨fun d a b op i h => ?_, rfl, ?_, fun c d a b i hd ha hi => ?_, fun s c d a b x i hx hi hc => ?_⟩
  · rw [decode_wordOf]
    simp only [List.mem_cons, Prod.mk.injEq, List.not_mem_nil, or_false] at h
    rcases h with ⟨rfl, rfl⟩ | ⟨rfl, rfl⟩ | ⟨rfl, rfl⟩ | ⟨rfl, rfl⟩ | ⟨rfl, rfl⟩ <;> rfl
  · intro s c d a b i v x y n hi hk
    have hx : x < 2 ^ 64 := c.scalar_lt true a
    simp only [List.mem_cons, Prod.mk.injEq, List.not_mem_nil, or_false] at hi
    rcases hi with ⟨rfl, rfl⟩ | ⟨rfl, rfl⟩ | ⟨rfl, rfl⟩ | ⟨rfl, rfl⟩ | ⟨rfl, rfl⟩
    · exact show execSadd64 d a b s = _ from scalarOp64_writes hk (mod_eq_intBits_natCast 64 (x + y))
    · exact show execSsub64 d a b s = _ from scalarOp64_writes hk (subMod_mod 64 x y)
    · exact show execSmul64 d a b s = _ from scalarOp64_writes hk (mod_eq_intBits_natCast 64 (x * y))
    · exact show execSshl64 d a b s = _ from scalarOp64_writes hk (elemBit_shl_mod 64 x n)
    · exact show execSshr64 d a b s = _ from scalarOp64_writes hk (elemBit_shr_mod hx n)
  · simp only [List.mem_cons, List.not_mem_nil, or_false] at hi
    rcases hi with rfl | rfl
    · exact scalarOp64Checks_ok_shift hd ha b
    · exact scalarOp64Checks_ok_shift hd ha b
  · have hdst := OddCode.not_scalarDst_ok hx
    have hsrc := OddCode.not_scalarOk hx c
    simp only [List.mem_cons, List.not_mem_nil, or_false] at hi
    rcases hi with rfl | rfl | rfl | rfl | rfl | rfl | rfl | rfl | rfl | rfl | rfl | rfl | rfl
    -- the odd code stands in field d, then in field a, then in field b
    iterate 5 exact exec_illegalOperand rfl nofun hc (scalarOp64Checks_not_ok (.inl hdst))
    iterate 5 exact exec_illegalOperand rfl nofun hc (scalarOp64Checks_not_ok (.inr (.inl hsrc)))
    iterate 3 exact exec_illegalOperand rfl nofun hc (scalarOp64Checks_not_ok (.inr (.inr hsrc)))

end Sys2Proof.Machine
end

