-- ==== Sys2Proof/Proofs/EncodedWords.lean ====
section
/-! Decoding and encoding (R35, R36, R39, R48, R49): the word of an instruction decodes to it, and a word that decodes is
the word of what it decodes to. -/

namespace Sys2Proof

/-! ## Direct fields read back -/

theorem fits_zero_iff {c : BitVec 8} : fits 0 c = true ↔ c = 0 := by revert c; decide +kernel

/-- A direct field that fits its low bits is those bits extended with zeros (R35). -/
theorem setWidth_extract_of_fits {n : Nat} {c : BitVec 8} (h : fits n c = true) : (c.extractLsb' 0 n).setWidth 8 = c := by
  have hs : c >>> n = 0 := by simpa [fits] using h
  refine BitVec.eq_of_getLsbD_eq fun i hi => ?_
  have hbit := congrArg (fun x : BitVec 8 => x.getLsbD (i - n)) hs
  simp only [BitVec.getLsbD_ushiftRight] at hbit
  by_cases hin : i < n
  · simp [hi, hin]
  · rw [show n + (i - n) = i by omega] at hbit
    simp [hin, hbit]

/-- PHINT's literal code lies in the low bits of field a (R368). -/
theorem hintField_eq {a : BitVec 8} (h : a.extractLsb' 2 6 = 56#6) : 56#6 ++ a.extractLsb' 0 2 = a := by
  revert a; decide +kernel

/-- A memory word's direct field is SX, zeros and W (R259). -/
theorem memField_eq {b : BitVec 8} (h : b.extractLsb' 3 4 = 0#4) :
    BitVec.ofBool b[7] ++ 0#4 ++ b.extractLsb' 0 3 = b := by
  revert b; decide +kernel

theorem clusterField_eq {b : BitVec 8} (h : b.extractLsb' 3 3 = 0#3) :
    BitVec.ofBool b[7] ++ BitVec.ofBool b[6] ++ 0#3 ++ b.extractLsb' 0 3 = b := by
  revert b; decide +kernel

theorem storeField_eq {b : BitVec 8} (h : b.extractLsb' 7 1 = 0#1) (h' : b.extractLsb' 3 3 = 0#3) :
    0#1 ++ BitVec.ofBool b[6] ++ 0#3 ++ b.extractLsb' 0 3 = b := by
  revert b; decide +kernel

theorem append_extract_low {m n : Nat} (x : BitVec m) (y : BitVec n) : (x ++ y).extractLsb' 0 n = y := by
  refine BitVec.eq_of_getLsbD_eq fun i hi => ?_
  simp [BitVec.getLsbD_append, hi]

theorem append_extract_high {m n : Nat} (x : BitVec m) (y : BitVec n) : (x ++ y).extractLsb' n m = x := by
  refine BitVec.eq_of_getLsbD_eq fun i hi => ?_
  simp [BitVec.getLsbD_append, hi]

/-- WAITF's flags lie in fields a and d, and the index of a system register in two fields. -/
theorem flagsField_low (x : BitVec 4) (y : BitVec 8) : (x ++ y : BitVec 12).extractLsb' 0 8 = y := append_extract_low x y
theorem flagsField_high (x : BitVec 4) (y : BitVec 8) : (x ++ y : BitVec 12).extractLsb' 8 4 = x := append_extract_high x y
theorem indexField_low (x y : BitVec 8) : (x ++ y : BitVec 16).extractLsb' 0 8 = y := append_extract_low x y
theorem indexField_high (x y : BitVec 8) : (x ++ y : BitVec 16).extractLsb' 8 8 = x := append_extract_high x y

/-! ## A word that decodes -/

/-- An instruction that a row answers when its fields pass their checks is encoded by the word, when it is so for fields
that pass. -/
theorem encodes_of_checkFields {m : String} {x y z : Bool} {i j : Instr} {v : Word} (h : checkFields m x y z i = .ok j)
    (he : i.encoded = true) (hw : x = true → y = true → z = true → encode i = v) : j.encoded = true ∧ encode j = v := by
  obtain ⟨⟨hx, hy, hz⟩, rfl⟩ := checkFields_eq_ok.1 h
  exact ⟨he, hw hx hy hz⟩

theorem opcode_eq_of_digits {op : BitVec 8} {hi lo : Nat} (h : op.toNat / 16 = hi) (l : op.toNat % 16 = lo) :
    op = BitVec.ofNat 8 (16 * hi + lo) := by
  apply BitVec.eq_of_toNat_eq
  rw [BitVec.toNat_ofNat]
  omega

/-- The fields that decode to an instruction are the fields of its word: in every row, the last arm is a reserved opcode,
which keeps the whole word, and any other arm has read every bit that its checks leave free. -/

theorem encode_of_decodeFields {op d a b : BitVec 8} {i : Instr} (h : decodeFields op d a b (wordOf op d a b) = .ok i) :
    i.encoded = true ∧ encode i = wordOf op d a b := by
  unfold decodeFields at h
  split at h
  case h_15 =>
    cases h
    exact ⟨rfl, rfl⟩
  all_goals
    rename_i hrow
    simp only [decodeRow0, decodeRow1, decodeRow2, decodeRow3, decodeRow4, decodeRow5, decodeRow6, decodeRow7,
      decodeRow8, decodeRow9, decodeRowA, decodeRowB, decodeRowC, decodeRowD] at h
    split at h
  all_goals first
    | (have hop := opcode_eq_of_digits hrow ‹op.toNat % 16 = _›
       subst hop
       first
         | (cases h; exact ⟨rfl, by simp [encode, indexField_low, indexField_high]⟩)
         | exact encodes_of_checkFields h rfl (by
             simp +contextual [encode, fits_zero_iff, setWidth_extract_of_fits, hintField_eq, memField_eq,
               clusterField_eq, storeField_eq, flagsField_low, flagsField_high]))
    | (cases h; exact ⟨rfl, rfl⟩)

/-- A word is the word of the instruction that it decodes to. -/
theorem encode_of_decode {w : Word} {i : Instr} (h : decode w = .ok i) : i.encoded = true ∧ encode i = w := by
  have hw := wordOf_fields w
  rw [← hw, decode_wordOf] at h
  rw [← hw]
  exact encode_of_decodeFields h

/-! ## An instruction's word -/

open Laws in
/-- Every instruction's word decodes to it; an event has none. -/
theorem decode_encode (i : Instr) : RoundTrip.Statement i := by
  cases i with
  | nop => exact RoundTrip.nop
  | mode a b => exact RoundTrip.mode a b
  | br a => exact RoundTrip.br a
  | brx a => exact RoundTrip.brx a
  | brs cond a b => exact RoundTrip.brs cond a b
  | brv cond a b => exact RoundTrip.brv cond a b
  | join => exact RoundTrip.join
  | regang a => exact RoundTrip.regang a
  | meld a b => exact RoundTrip.meld a b
  | melde => exact RoundTrip.melde
  | call d a => exact RoundTrip.call d a
  | calli d a => exact RoundTrip.calli d a
  | ret a => exact RoundTrip.ret a
  | exit a => exact RoundTrip.exit a
  | yield => exact RoundTrip.yield
  | waitf flags => exact RoundTrip.waitf flags
  | mon a => exact RoundTrip.mon a
  | mwait a => exact RoundTrip.mwait a
  | trap a => exact RoundTrip.trap a
  | tret => exact RoundTrip.tret
  | phint k => exact RoundTrip.phint k
  | idemb => exact RoundTrip.idemb
  | ideme => exact RoundTrip.ideme
  | ipf level a count => exact RoundTrip.ipf level a count
  | spawn a b => exact RoundTrip.spawn a b
  | launch d a => exact RoundTrip.launch d a
  | gfire a b => exact RoundTrip.gfire a b
  | barb id => exact RoundTrip.barb id
  | barc id => exact RoundTrip.barc id
  | quant => exact RoundTrip.quant
  | digest a count => exact RoundTrip.digest a count
  | reservedOpcode word => exact RoundTrip.reservedOpcode word
  | add d a b => exact RoundTrip.add d a b
  | sub d a b => exact RoundTrip.sub d a b
  | mul d a b => exact RoundTrip.mul d a b
  | fma d a b => exact RoundTrip.fma d a b
  | fms d a b => exact RoundTrip.fms d a b
  | fnma d a b => exact RoundTrip.fnma d a b
  | min d a b => exact RoundTrip.min d a b
  | max d a b => exact RoundTrip.max d a b
  | abs d a => exact RoundTrip.abs d a
  | neg d a => exact RoundTrip.neg d a
  | rcp d a => exact RoundTrip.rcp d a
  | rsq d a => exact RoundTrip.rsq d a
  | sqrt d a => exact RoundTrip.sqrt d a
  | exp2 d a => exact RoundTrip.exp2 d a
  | log2 d a => exact RoundTrip.log2 d a
  | tanh d a => exact RoundTrip.tanh d a
  | cmpeq d a b => exact RoundTrip.cmpeq d a b
  | cmpne d a b => exact RoundTrip.cmpne d a b
  | cmplt d a b => exact RoundTrip.cmplt d a b
  | cmple d a b => exact RoundTrip.cmple d a b
  | cmpun d a b => exact RoundTrip.cmpun d a b
  | classify d a b => exact RoundTrip.classify d a b
  | sel d a b => exact RoundTrip.sel d a b
  | cvt d a part => exact RoundTrip.cvt d a part
  | scale d a b => exact RoundTrip.scale d a b
  | rint d a => exact RoundTrip.rint d a
  | frxp d a part => exact RoundTrip.frxp d a part
  | div d a b => exact RoundTrip.div d a b
  | enct d a b => exact RoundTrip.enct d a b
  | dect d a byte => exact RoundTrip.dect d a byte
  | mov d a => exact RoundTrip.mov d a
  | fxr d a => exact RoundTrip.fxr d a
  | addc d a b => exact RoundTrip.addc d a b
  | subb d a b => exact RoundTrip.subb d a b
  | mulhi d a b => exact RoundTrip.mulhi d a b
  | mulw d a b => exact RoundTrip.mulw d a b
  | and d a b => exact RoundTrip.and d a b
  | or d a b => exact RoundTrip.or d a b
  | xor d a b => exact RoundTrip.xor d a b
  | not d a => exact RoundTrip.not d a
  | shl d a b => exact RoundTrip.shl d a b
  | shr d a b => exact RoundTrip.shr d a b
  | sha d a b => exact RoundTrip.sha d a b
  | rot d a b => exact RoundTrip.rot d a b
  | clz d a => exact RoundTrip.clz d a
  | popc d a => exact RoundTrip.popc d a
  | brev d a => exact RoundTrip.brev d a
  | bfe d a b => exact RoundTrip.bfe d a b
  | bfi d a b => exact RoundTrip.bfi d a b
  | clmul d a b => exact RoundTrip.clmul d a b
  | clmulh d a b => exact RoundTrip.clmulh d a b
  | dot4 d a b => exact RoundTrip.dot4 d a b
  | dot2 d a b => exact RoundTrip.dot2 d a b
  | shfl d a b => exact RoundTrip.shfl d a b
  | shflx d a b => exact RoundTrip.shflx d a b
  | bcast d a b => exact RoundTrip.bcast d a b
  | wred d a op => exact RoundTrip.wred d a op
  | wscan d a op => exact RoundTrip.wscan d a op
  | ballot d a => exact RoundTrip.ballot d a
  | pand d a b => exact RoundTrip.pand d a b
  | por d a b => exact RoundTrip.por d a b
  | pxor d a b => exact RoundTrip.pxor d a b
  | spsel d a part => exact RoundTrip.spsel d a part
  | spcmp d a b => exact RoundTrip.spcmp d a b
  | sadd d a b => exact RoundTrip.sadd d a b
  | ssub d a b => exact RoundTrip.ssub d a b
  | smul d a b => exact RoundTrip.smul d a b
  | smulh d a b => exact RoundTrip.smulh d a b
  | sand d a b => exact RoundTrip.sand d a b
  | sor d a b => exact RoundTrip.sor d a b
  | sxor d a b => exact RoundTrip.sxor d a b
  | sshl d a b => exact RoundTrip.sshl d a b
  | sshr d a b => exact RoundTrip.sshr d a b
  | ssha d a b => exact RoundTrip.ssha d a b
  | smin d a b => exact RoundTrip.smin d a b
  | smax d a b => exact RoundTrip.smax d a b
  | scmplt d a b => exact RoundTrip.scmplt d a b
  | scmpeq d a b => exact RoundTrip.scmpeq d a b
  | ssel d a b => exact RoundTrip.ssel d a b
  | smov d a => exact RoundTrip.smov d a
  | sadd64 d a b => exact RoundTrip.sadd64 d a b
  | ssub64 d a b => exact RoundTrip.ssub64 d a b
  | smul64 d a b => exact RoundTrip.smul64 d a b
  | sshl64 d a b => exact RoundTrip.sshl64 d a b
  | sshr64 d a b => exact RoundTrip.sshr64 d a b
  | sclz d a => exact RoundTrip.sclz d a
  | spopc d a => exact RoundTrip.spopc d a
  | v2s d a b => exact RoundTrip.v2s d a b
  | sysrd d index => exact RoundTrip.sysrd d index
  | syswr index b => exact RoundTrip.syswr index b
  | scmpltn d a b => exact RoundTrip.scmpltn d a b
  | pack d a b => exact RoundTrip.pack d a b
  | unpack d a mode => exact RoundTrip.unpack d a mode
  | pset d a => exact RoundTrip.pset d a
  | sbfe d a b => exact RoundTrip.sbfe d a b
  | ld d a sx w => exact RoundTrip.ld d a sx w
  | lda d a sx w => exact RoundTrip.lda d a sx w
  | ldx d a sx w => exact RoundTrip.ldx d a sx w
  | st d a w => exact RoundTrip.st d a w
  | stl d a w => exact RoundTrip.stl d a w
  | stx d a w => exact RoundTrip.stx d a w
  | sti d a w => exact RoundTrip.sti d a w
  | ldsp d a sx w => exact RoundTrip.ldsp d a sx w
  | stsp d a w => exact RoundTrip.stsp d a w
  | ldcl d a sx strong w => exact RoundTrip.ldcl d a sx strong w
  | stcl d a strong w => exact RoundTrip.stcl d a strong w
  | ldds d a sx w => exact RoundTrip.ldds d a sx w
  | stds d a w => exact RoundTrip.stds d a w
  | gath d a b => exact RoundTrip.gath d a b
  | scat d a b => exact RoundTrip.scat d a b
  | pfd level a => exact RoundTrip.pfd level a
  | aadd d a b => exact RoundTrip.aadd d a b
  | amin d a b => exact RoundTrip.amin d a b
  | amax d a b => exact RoundTrip.amax d a b
  | aand d a b => exact RoundTrip.aand d a b
  | aor d a b => exact RoundTrip.aor d a b
  | axor d a b => exact RoundTrip.axor d a b
  | axchg d a b => exact RoundTrip.axchg d a b
  | acas d a b => exact RoundTrip.acas d a b
  | ainc d a b => exact RoundTrip.ainc d a b
  | adec d a b => exact RoundTrip.adec d a b
  | afadd d a b => exact RoundTrip.afadd d a b
  | aaddn d a b => exact RoundTrip.aaddn d a b
  | spaadd d a b => exact RoundTrip.spaadd d a b
  | spacas d a b => exact RoundTrip.spacas d a b
  | fence => exact RoundTrip.fence
  | fencel scope => exact RoundTrip.fencel scope
  | invl1 => exact RoundTrip.invl1
  | lease a => exact RoundTrip.lease a
  | barinit a b => exact RoundTrip.barinit a b
  | barexp a b => exact RoundTrip.barexp a b
  | bararr a b => exact RoundTrip.bararr a b
  | bartry d a b => exact RoundTrip.bartry d a b
  | barwt phase a b => exact RoundTrip.barwt phase a b
  | feempty a => exact RoundTrip.feempty a
  | fefull a => exact RoundTrip.fefull a
  | fetest d a => exact RoundTrip.fetest d a
  | xcpy a => exact RoundTrip.xcpy a
  | xtile a => exact RoundTrip.xtile a
  | xgath a => exact RoundTrip.xgath a
  | xscat a => exact RoundTrip.xscat a
  | xred a => exact RoundTrip.xred a
  | xchain ch a => exact RoundTrip.xchain ch a
  | xcancel ch => exact RoundTrip.xcancel ch
  | xstat d ch => exact RoundTrip.xstat d ch
  | esnd a => exact RoundTrip.esnd a
  | ercv a => exact RoundTrip.ercv a
  | estamp d => exact RoundTrip.estamp d
  | ewmark d sel => exact RoundTrip.ewmark d sel
  | mma d a b => exact RoundTrip.mma d a b
  | mmar d a b => exact RoundTrip.mmar d a b
  | mmak d a b => exact RoundTrip.mmak d a b
  | mmas d a b => exact RoundTrip.mmas d a b
  | acq d => exact RoundTrip.acq d
  | rel d => exact RoundTrip.rel d
  | acld d a => exact RoundTrip.acld d a
  | acst d a => exact RoundTrip.acst d a
  | acz d => exact RoundTrip.acz d
  | acsp d a => exact RoundTrip.acsp d a
  | acwin d a b => exact RoundTrip.acwin d a b
  | bmark d a => exact RoundTrip.bmark d a
  | acadd d a => exact RoundTrip.acadd d a
  | acscl d a => exact RoundTrip.acscl d a
  | ctxsv d a => exact RoundTrip.ctxsv d a
  | ctxrs d a => exact RoundTrip.ctxrs d a
  | tlbinv a size => exact RoundTrip.tlbinv a size
  | wfreeze d a => exact RoundTrip.wfreeze d a
  | wkill fatal => exact RoundTrip.wkill fatal
  | easeq d a => exact RoundTrip.easeq d a
  | cntrd d ctr => exact RoundTrip.cntrd d ctr
  | cntsel ctr a => exact RoundTrip.cntsel ctr a
  | _ => exact nofun

/-- Settles O1: the round trip of each instruction, and the bits that each row of the decoder reads. -/
theorem decodeAndEncodeAgree : Obligations.DecodeAndEncodeAgree :=
  ⟨decode_encode, fun _ _ => encode_of_decode⟩

/-- Settles O2: each word is evaluated. -/
theorem exampleWordsDecode : Obligations.ExampleWordsDecode := by
  unfold Obligations.ExampleWordsDecode
  refine ⟨?_, ?_, ?_, ?_, ?_, ?_, ?_, ?_, ?_, ?_, ?_, ?_, ?_, ?_, ?_, ?_, ?_, ?_⟩ <;> decide +kernel

end Sys2Proof
end

