-- ==== Sys2Proof/Proofs/Steps.lean ====
section
/-! Steps (R24, R90): what a step runs, that every step goes on, and the state after reset. -/

namespace Sys2Proof.Machine

/-! ## A step at a picked gang -/

/-- A gang that issues has been picked, so a step runs its word. -/
theorem step_of_ctx? {s : State} {c : Ctx} (h : s.ctx? = some c) : step s = execWord c.src.word s := by
  unfold step
  cases hcur : s.cur with
  | none => simp [State.ctx?, hcur] at h
  | some i => simp [h]

/-- Settles O4. -/
theorem stepRunsDecoded : Obligations.StepRunsDecoded := by
  intro s c hc
  refine ⟨fun i hi => ?_, fun e he => ?_⟩
  · rw [step_of_ctx? hc, execWord, hi]
  · rw [step_of_ctx? hc, execWord, he]
    exact issue_some hc _

/-! ## A quiet step -/

/-- A move that is an event runs the event's instruction. -/
theorem Move.run_of_isEvent {m : Move} {i : Instr} (h : m.isEvent i) :
    i.encoded = false ∧ ∀ s, m.run s = exec i s := by
  cases m with
  | startWalk | readWalk _ | wake _ | takeInput | pass | dropL1 _ _ | dropL2 _ _ | dropReads _ | dropTlb _ _ | dropL2Tlb _ _ =>
    exact h.elim
  | _ =>
    cases h
    exact ⟨rfl, fun _ => rfl⟩

/-- A move that is no event has no client, and is the oldest input, one tick that passes, news that reaches a wave, a
walk's progress, or a drop of copies. -/
theorem Move.isEvent_or (m : Move) (s : State) : (∃ i : Instr, m.isEvent i) ∨ s.clientOf m = none ∧
    (m.run s = s.takeInput ∨ m.run s = .next s.tick.tryGangs ∨ (∃ k, m.run s = .next (s.wakeWave k)) ∨
    ∃ (cores : Table CoreState) (dies : List Die) (walks : List PageWalk) (n : Nat),
      m.run s = .next { s with cores := cores, dies := dies, walks := walks, nextId := n }) := by
  cases m with
  | takeInput => exact .inr ⟨rfl, .inl rfl⟩
  | pass => exact .inr ⟨rfl, .inr (.inl rfl)⟩
  | wake wave => exact .inr ⟨rfl, .inr (.inr (.inl ⟨wave, rfl⟩))⟩
  | startWalk =>
    obtain ⟨walks, n, h⟩ := s.startWalk_eq
    exact .inr ⟨rfl, .inr (.inr (.inr ⟨s.cores, s.dies, walks, n, congrArg Host.Outcome.next h⟩))⟩
  | readWalk _ | dropL1 _ _ | dropL2 _ _ | dropReads _ | dropTlb _ _ | dropL2Tlb _ _ =>
    exact .inr ⟨rfl, .inr (.inr (.inr ⟨_, _, _, _, rfl⟩))⟩
  | _ => exact .inl ⟨_, rfl⟩

theorem step_quiet {s : State} (h : s.cur = none) : step s = s.drawn.make s.nextMove := by
  unfold step
  simp only [h]

theorem State.make_without_client {s : State} {m : Move} (h : s.clientOf m = none) : s.make m = m.run s := by
  unfold State.make
  rw [h]

theorem State.make_of_client {s : State} {m : Move} {c : Client} (h : s.clientOf m = some c) :
    s.make m = .next (s.asking c (fun t => goesTo (m.run t) t)) := by
  unfold State.make
  rw [h]

/-- Settles O5: what `make` does with and without a client, and which moves are events. -/
theorem quietStepIsOneEvent : Obligations.QuietStepIsOneEvent := by
  intro s hcur
  have hstep := step_quiet hcur
  refine ⟨hstep, fun i hi => ?_, ?_⟩
  · obtain ⟨henc, hrun⟩ := Move.run_of_isEvent hi
    refine ⟨henc, fun hc => ?_, fun c hc hasks => ?_, fun c t hc hasks ht => ?_⟩
    · rw [hstep, State.make_without_client hc, hrun]
    · rw [hstep, State.make_of_client hc, State.asking, if_pos hasks]
    · have hgo : goesTo (s.nextMove.run { s.drawn with asker := some c }) { s.drawn with asker := some c } = t := by
        rw [hrun, ht]; rfl
      rw [hstep, State.make_of_client hc, State.asking, if_neg (by simp [hasks]), hgo]
      exact ⟨fun hlen => congrArg _ (if_pos hlen), fun hlen => congrArg _ (if_neg (not_not_intro hlen))⟩
  · obtain h | ⟨hc, h⟩ := Move.isEvent_or s.nextMove s.drawn
    · exact .inl h
    · rw [hstep, State.make_without_client hc]
      exact .inr h

/-! ## Every step goes on -/

/-- Every step goes on: a picked gang's word issues, waits or traps, and otherwise a move is made. -/
theorem step_goes_on (s : State) : ∃ t, step s = .next t := by
  unfold step
  split
  · split
    · next c hc =>
      unfold execWord
      split
      · exact exec_goes_on _ hc
      · exact ⟨_, issue_some hc _⟩
    · exact ⟨_, rfl⟩
  · exact State.make_goes_on _ _

theorem run_succ {M : Host.Core} {k : Nat} {s t : M.State} (h : M.step s = .next t) : M.run (k + 1) s = M.run k t := by
  rw [Host.Core.run, h]

theorem safeRun (s : State) : SafeRun s := by
  intro k
  induction k generalizing s with
  | zero => exact ⟨s, rfl⟩
  | succ k ih =>
    obtain ⟨t, ht⟩ := step_goes_on s
    obtain ⟨u, hu⟩ := ih t
    exact ⟨u, (run_succ (M := Sys2Proof.core) ht).trans hu⟩

/-- An encoded word of a picked gang ends in one of the outcomes of an issue, after which no gang is picked (R90). -/
theorem exec_encoded_cur {i : Instr} {s : State} {c : Ctx} (hi : i.encoded = true) (hc : s.ctx? = some c) :
    ∃ t, exec i s = .next t ∧ t.cur = none := by
  by_cases hr : ∃ w, i = .reservedOpcode w
  · obtain ⟨w, rfl⟩ := hr
    exact ⟨_, issue_some hc _, c.finish_cur s _⟩
  · obtain ⟨f, hf⟩ := exec_encoded i hi (fun w hw => hr ⟨w, hw⟩)
    exact ⟨_, (hf s).trans (issue_some hc _), c.finish_cur s _⟩

/-- Settles O6. -/
theorem stepNeverStops : Obligations.StepNeverStops :=
  ⟨step_goes_on, safeRun, fun _ _ _ => exec_encoded_cur⟩

/-! ## Reset -/

theorem State.reset_memoryCanonical : State.reset.memoryCanonical :=
  ⟨rfl, rfl, rfl, rfl, nofun, nofun, nofun, nofun⟩

/-- Settles O7: each field as `State.reset` gives it. -/
theorem resetState : Obligations.ResetState :=
  ⟨⟨rfl, rfl, fun _ => rfl, fun _ => rfl, rfl, rfl, rfl, rfl, by decide, by decide, rfl, rfl⟩, State.reset_memoryCanonical⟩

end Sys2Proof.Machine
end

