-- ==== Sys2Proof/Proofs/Places.lean ====
section
/-! Registers, memories and places (R2, R40, R163, R164, R218): what a write reaches, what it reads back, and what stays. -/

namespace Sys2Proof.Machine

/-! ## Words joined, the first lowest (R2) -/

theorem mod_split (x m n : Nat) : x % 2 ^ m + 2 ^ m * (x / 2 ^ m % 2 ^ n) = x % 2 ^ (m + n) := by
  rw [Nat.pow_add, Nat.mod_mul]

/-- The 32-bit parts of a number, joined again. -/
theorem foldr_parts (k x : Nat) :
    (List.range k).foldr (fun i acc => x / 2 ^ (32 * i) % 2 ^ 32 + 2 ^ 32 * acc) 0 = x % 2 ^ (32 * k) := by
  induction k generalizing x with
  | zero => simp [Nat.mod_one]
  | succ k ih =>
    rw [List.range_succ_eq_map, List.foldr_cons, List.foldr_map]
    have hstep : ∀ i, x / 2 ^ (32 * i.succ) = x / 2 ^ 32 / 2 ^ (32 * i) := fun i => by
      rw [Nat.div_div_eq_div_mul, ← Nat.pow_add, Nat.mul_succ, Nat.add_comm]
    simp only [hstep, ih]
    rw [Nat.mul_zero, Nat.pow_zero, Nat.div_one, mod_split, Nat.mul_succ, Nat.add_comm]

/-! ## Registers -/

theorem Wave.sread_swrite (w : Wave) (n k x : Nat) : (w.swrite n k x).sread n k = x % 2 ^ (32 * k) := by
  rw [Wave.sread, ← foldr_parts]
  refine List.foldr_ext _ _ _ ?_
  intro i hi acc
  have hk := List.mem_range.1 hi
  rw [Wave.swrite_get, if_pos ⟨by omega, by omega⟩, Nat.add_sub_cancel_left, BitVec.toNat_ofNat]

/-- The lane-registers that a vector write names. -/
theorem Ctx.vKey_mem_vcells {c : Ctx} {n k : Nat} {m : LaneMask} {f : Nat → Nat} {r l : Nat} (hl : l < 64) :
    vKey r l ∈ (c.vcells n k m f).map (·.1) ↔ m.getLsbD l = true ∧ ∃ i < k, r = c.phys (n + i) l := by
  simp only [Ctx.vcells, List.mem_map, List.mem_flatMap, List.mem_range]
  constructor
  · rintro ⟨_, ⟨l', hl', i, hi, rfl⟩, hkey⟩
    obtain ⟨hr, rfl⟩ := vKey_lane (mem_bitsOf.1 hl').1 hl hkey
    exact ⟨(mem_bitsOf.1 hl').2, i, hi, hr.symm⟩
  · rintro ⟨hm, i, hi, rfl⟩
    exact ⟨_, ⟨l, mem_bitsOf.2 ⟨hl, hm⟩, i, hi, rfl⟩, rfl⟩

theorem not_written_iff {c : Ctx} {n k : Nat} {m : LaneMask} {r l : Nat} :
    ¬ (m.getLsbD l = true ∧ ∃ i < k, r = c.phys (n + i) l) ↔ (m.getLsbD l = false ∨ ∀ i < k, r ≠ c.phys (n + i) l) := by
  rw [not_and_or, Bool.not_eq_true]
  simp only [not_exists, not_and, ne_eq]

/-- Settles O12: each kind of write by what its register reads afterwards. -/
theorem registerWrites : Obligations.RegisterWrites := by
  refine ⟨fun c w n k m f hk => ⟨fun l i hl hm hi => ?_, fun r l hl h => ?_, fun r l hl => ?_⟩,
    fun w n k x => ⟨fun i hi => ?_, fun r hr => ?_, w.sread_swrite n k x, fun r => ?_⟩, fun w n m b => ⟨fun l hl => ?_, fun q hq => ?_⟩⟩
  · exact c.vwrite_get w n k m f (by omega) (mem_bitsOf.2 ⟨hl, hm⟩) hi
  · refine c.vwrite_get_other w n k m f fun l' hl' i hi heq => ?_
    obtain ⟨hr, rfl⟩ := vKey_lane hl (mem_bitsOf.1 hl').1 heq
    exact not_written_iff.2 h ⟨(mem_bitsOf.1 hl').2, i, hi, hr⟩
  · rw [← not_written_iff, ← Ctx.vKey_mem_vcells (f := f) hl]
    simp [Ctx.vwrite, Wave.vput]
  · rw [w.swrite_get, if_pos ⟨by omega, by omega⟩, Nat.add_sub_cancel_left]
  · exact (w.swrite_get n k x r).trans (if_neg (by omega))
  · rw [w.swrite_spoison_mem]
    exact and_congr_right fun _ => by omega
  · have hw : w.widthMask.getLsbD l = decide (l < w.width) := by simp [Wave.widthMask, maskWhere, hl]
    rw [w.pwrite_get, if_pos rfl]
    simp only [BitVec.getLsbD_or, BitVec.getLsbD_and, BitVec.getLsbD_not, hw, hl, decide_true, Bool.true_and]
    cases m.getLsbD l <;> cases decide (l < w.width) <;> simp
  · rw [w.pwrite_get, if_neg hq]

/-! ## Byte memory -/

theorem leBytes_getElem (n x i : Nat) (h : i < (leBytes n x).length) : (leBytes n x)[i] = BitVec.ofNat 8 (x / 2 ^ (8 * i)) := by
  induction n generalizing x i with
  | zero => simp at h
  | succ n ih =>
    cases i with
    | zero => simp [leBytes]
    | succ j =>
      have hj : j < (leBytes n (x / 256)).length := by simpa using h
      have hdiv : x / 256 / 2 ^ (8 * j) = x / 2 ^ (8 * (j + 1)) := by
        rw [Nat.div_div_eq_div_mul, Nat.mul_succ, Nat.add_comm (8 * j), Nat.pow_add]
      simpa [leBytes, hdiv] using ih (x / 256) j hj

theorem Memory.byte_store_at (m : Memory) (a n x : Nat) {i : Nat} (h : i < n) :
    (m.store a n x).byte (a + i) = BitVec.ofNat 8 (x / 2 ^ (8 * i)) := by
  rw [Memory.store, Memory.byte_setBytes_at _ m a i (by simpa using h), leBytes_getElem]

theorem pow_256 (n : Nat) : 256 ^ n = 2 ^ (8 * n) := by rw [Nat.pow_mul]

/-- Settles O13. -/
theorem memoryIsLittleEndian : Obligations.MemoryIsLittleEndian :=
  ⟨fun m a n x => ⟨fun _ hi => m.byte_store_at a n x hi, by rw [m.load_store, pow_256], fun b hb => m.byte_store_other a n x b hb⟩,
    fun m a n x h => m.wf_store a n x h, fun m a n h => m.wf_clear a n h, fun m k hm hk h => ZMap.ext_wf m k hm hk h⟩

/-! ## Places -/

theorem getD_listUpdate {α : Type} (l : List α) (i j : Nat) (f : α → α) (d : α) :
    (listUpdate l i f).getD j d = if j = i ∧ i < l.length then f (l.getD i d) else l.getD j d := by
  rw [List.getD_eq_getElem?_getD, listUpdate, List.getElem?_mapIdx]
  by_cases hj : j < l.length
  · by_cases hij : j = i
    · subst hij; simp [hj]
    · simp [hj, hij]
  · have hnone : l[j]? = none := by simpa using hj
    have hneg : ¬ (j = i ∧ i < l.length) := fun h => hj (h.1 ▸ h.2)
    simp [hnone, hneg]

/-- A block's half after one of its block's halves has changed. -/
theorem State.half_modHalf {s : State} {b h : Nat} {y : Block} (hb : s.blocks.get? b = some y) (f : Half → Half) (b' h' : Nat) :
    (s.modBlock b (fun x => x.modHalf h f)).half b' h' =
      if b' = b ∧ h' = h ∧ h < y.halves.length then f (s.half b h) else s.half b' h' := by
  unfold State.half
  rw [State.modBlock_blocks, Table.get?_update]
  by_cases hbb : b' = b
  · subst hbb
    simp only [hb, Option.map_some, if_true, Block.modHalf, getD_listUpdate, true_and]
  · rw [if_neg hbb, if_neg (fun h => hbb h.1)]

/-- A block that is not there does not change. -/
theorem State.half_modBlock_none {s : State} {b : Nat} (hb : s.blocks.get? b = none) (f : Block → Block) (b' h' : Nat) :
    (s.modBlock b f).half b' h' = s.half b' h' := by
  have hkept : (s.modBlock b f).blocks.get? b' = s.blocks.get? b' := by
    rw [State.modBlock_blocks, Table.get?_update]
    split
    · next e => rw [e, hb]; rfl
    · rfl
  rw [State.half, State.half, hkept]

/-- A place of the machine that is there to be stored at. -/
def State.hasPlace (s : State) (l : Loc) : Prop :=
  match l with
  | .untranslated => False
  | .scratch b h _ => ∃ y, s.blocks.get? b = some y ∧ h < y.halves.length
  | .region id _ => ∃ y, s.regions.get? id = some y
  | .dieStore id _ => ∃ y, s.dregions.get? id = some y
  | .global _ _ | .priv _ => True

theorem State.readLoc_writeLoc_same (s : State) (l : Loc) (n x : Nat) (h : s.hasPlace l) :
    (s.writeLoc l n x).readLoc l n = x % 2 ^ (8 * n) := by
  rw [← pow_256]
  cases l with
  | untranslated => exact h.elim
  | global pa u => exact Memory.load_store _ _ _ _
  | priv a => exact Memory.load_store _ _ _ _
  | scratch b i off =>
    obtain ⟨y, hy, hi⟩ := h
    simp only [State.writeLoc, State.readLoc, State.half_modHalf hy, hi, and_self, if_true]
    exact Memory.load_store _ _ _ _
  | region id off =>
    obtain ⟨y, hy⟩ := h
    simp only [State.writeLoc, State.readLoc, Table.get?_update, hy, if_true, Option.map_some]
    exact Memory.load_store _ _ _ _
  | dieStore id off =>
    obtain ⟨y, hy⟩ := h
    simp only [State.writeLoc, State.readLoc, Table.get?_update, hy, if_true, Option.map_some]
    exact Memory.load_store _ _ _ _

/-- A load that no byte of a store reaches reads what it read before. -/
theorem Memory.load_store_apart (m : Memory) (a n x b k : Nat) (h : (decide (a < b + k) && decide (b < a + n)) = false) :
    (m.store a n x).load b k = m.load b k := by
  refine Memory.load_store_other m a n x b k ?_
  simp only [Bool.and_eq_false_iff, decide_eq_false_iff_not] at h
  omega

theorem State.readLoc_writeLoc_apart (s : State) (l : Loc) (n x : Nat) (k : Loc) (m : Nat) (h : l.overlaps n k m = false) :
    (s.writeLoc l n x).readLoc k m = s.readLoc k m := by
  cases l with
  | untranslated => rfl
  | global pa u =>
    cases k with
    | global pb v => exact Memory.load_store_apart _ _ _ _ _ _ h
    | _ => rfl
  | priv a =>
    cases k with
    | priv b => exact Memory.load_store_apart _ _ _ _ _ _ h
    | _ => rfl
  | scratch b i off =>
    cases k with
    | scratch b' i' off' =>
      simp only [State.writeLoc, State.readLoc]
      cases hb : s.blocks.get? b with
      | none =>
        rw [State.half_modBlock_none hb]
      | some y =>
        rw [State.half_modHalf hb]
        split
        · next e =>
          obtain ⟨rfl, rfl, -⟩ := e
          exact Memory.load_store_apart _ _ _ _ _ _ (by simpa [Loc.overlaps] using h)
        · rfl
    | _ => rfl
  | region id off =>
    cases k with
    | region id' off' =>
      simp only [State.writeLoc, State.readLoc, Table.get?_update]
      by_cases e : id' = id
      · subst e
        have hap : (decide (off < off' + m) && decide (off' < off + n)) = false := by simpa [Loc.overlaps] using h
        cases s.regions.get? id' with
        | none => simp
        | some r => simpa using Memory.load_store_apart r.bytes off n x off' m hap
      · simp [e]
    | _ => rfl
  | dieStore id off =>
    cases k with
    | dieStore id' off' =>
      simp only [State.writeLoc, State.readLoc, Table.get?_update]
      by_cases e : id' = id
      · subst e
        have hap : (decide (off < off' + m) && decide (off' < off + n)) = false := by simpa [Loc.overlaps] using h
        cases s.dregions.get? id' with
        | none => simp
        | some r => simpa using Memory.load_store_apart r.bytes off n x off' m hap
      · simp [e]
    | _ => rfl

/-- Settles O14: read after write at each kind of place, and no effect on places apart. -/
theorem placesReadBackTheirStores : Obligations.PlacesReadBackTheirStores := by
  intro s l n x h
  refine ⟨s.readLoc_writeLoc_same l n x ?_, fun k m hap => s.readLoc_writeLoc_apart l n x k m hap⟩
  cases l <;> exact h

end Sys2Proof.Machine
end

