-- ==== Sys2Proof/Proofs/IssueFrames.lean ====
section
/-! Issues and traps (R24, R43, R139, R347, R348, R361): what a word that traps or issues leaves of the state, and in which
order the decode causes are found. -/

namespace Sys2Proof.Machine

/-! ## Bytes that two states share -/

/-- Two states with the same stores read the same bytes at every place. -/
theorem State.readLoc_congr {s t : State} (hbm : t.hbm = s.hbm) (priv : t.privMem = s.privMem)
    (regions : t.regions = s.regions) (dregions : t.dregions = s.dregions)
    (halves : ∀ b h, (t.half b h).scratch = (s.half b h).scratch) (l : Loc) (n : Nat) : t.readLoc l n = s.readLoc l n := by
  cases l <;> simp only [State.readLoc, hbm, priv, regions, dregions, halves]

/-- The halves of the blocks, when a change of a block leaves them. -/
theorem State.half_of_blocks_update {s t : State} {k : Nat} {f : Block → Block} (hf : ∀ x, (f x).halves = x.halves)
    (ht : t.blocks = s.blocks.update k f) (b h : Nat) : t.half b h = s.half b h := by
  unfold State.half
  rw [ht, Table.get?_update]
  by_cases hb : b = k
  · subst hb
    rw [if_pos rfl]
    cases s.blocks.get? b with
    | none => rfl
    | some x => simp only [Option.map_some, hf]
  · rw [if_neg hb]

/-! ## The issuing wave -/

/-- A flag that falls changes the flags and the ticks from which their waits may end. -/
theorem Wave.flagDown_eq (w : Wave) (now : Nat) (o : Option Nat) :
    ∃ fl be, w.flagDown now o = { w with flags := fl, begins := be } := by
  cases o with
  | none => exact ⟨w.flags, w.begins, rfl⟩
  | some n => exact ⟨_, _, rfl⟩

/-- The replay that leaves a wave takes its flag with it, and nothing else. -/
theorem Wave.dropReplay_eq (w : Wave) (now : Nat) :
    ∃ fl be re, w.dropReplay now = { w with flags := fl, begins := be, replay := re } := by
  unfold Wave.dropReplay
  split
  · next r _ _ =>
    obtain ⟨fl, be, h⟩ := w.flagDown_eq now r.flag
    exact ⟨fl, be, w.replay.erase r, by rw [h]⟩
  · exact ⟨w.flags, w.begins, w.replay, rfl⟩

/-- The wave whose trap becomes due, but for what a replay that leaves takes with it. -/
theorem Ctx.owesTrap_eq (c : Ctx) (causes : List LaneCause) (norply : Bool) (w : Wave) :
    ∃ fl be re, c.owesTrap causes norply w = { w with
      flags := fl, begins := be, replay := re
      due := w.due ++ [⟨c.gang, !c.replay, c.src, w.joinCauses c.gang causes, norply, false⟩]
      causes := w.causes.filter (fun y => !c.gang.getLsbD (y.lane / 4)) } := by
  unfold Ctx.owesTrap
  split
  · obtain ⟨fl, be, re, h⟩ := w.dropReplay_eq c.now
    exact ⟨fl, be, re, by rw [h]; rfl⟩
  · exact ⟨w.flags, w.begins, w.replay, rfl⟩

theorem Ctx.trapped_wave (c : Ctx) (s : State) (l : List LaneCause) {w : Wave} (h : s.waves.get? c.key = some w) :
    (c.trapped s l false).waves.get? c.key = some (c.owesTrap l false w) := by
  simp [Ctx.trapped, Table.get?_update, h]

theorem Ctx.trapped_other (c : Ctx) (s : State) (l : List LaneCause) {k : Nat} (h : k ≠ c.key) :
    (c.trapped s l false).waves.get? k = s.waves.get? k := by
  simp [Ctx.trapped, Table.get?_update, h]

theorem Ctx.trapped_readLoc (c : Ctx) (s : State) (l : List LaneCause) (a : Loc) (n : Nat) :
    (c.trapped s l false).readLoc a n = s.readLoc a n :=
  State.readLoc_congr (s := s) (t := c.trapped s l false) rfl rfl rfl rfl (fun b h => congrArg Half.scratch (State.half_of_blocks_update
    (s := s) (t := c.trapped s l false) (f := fun b => { b with charge := b.charge + 384 * issueCycles c.gang }) (fun _ => rfl) rfl b h)) a n

/-! ## The order of the decode causes (R43, R347) -/

theorem maskWhere_getLsbD {n l : Nat} {f : Nat → Bool} (h : l < n) : (maskWhere n f).getLsbD l = f l := by
  simp [maskWhere, h]

/-- The lanes in which some register of a list satisfies a test, one by one. -/
theorem Ctx.lanesWith_getLsbD (c : Ctx) (m : LaneMask) (regs : List (Nat × Nat)) (f : Nat → Nat → Bool) {l : Nat} (hl : l < 64) :
    (c.lanesWith m regs f).getLsbD l = true ↔
      m.getLsbD l = true ∧ ∃ e ∈ regs, ∃ j < e.2, f (c.phys (e.1 + j) l) l = true := by
  unfold Ctx.lanesWith
  split
  · next h => simp [List.isEmpty_iff.1 h]
  · simp [maskWhere_getLsbD hl]

theorem mask_ne_zero_iff {m : LaneMask} : m ≠ 0 ↔ ∃ l < 64, m.getLsbD l = true := by
  constructor
  · intro h
    by_contra hn
    refine h (BitVec.eq_of_getLsbD_eq fun i hi => ?_)
    simpa using fun ht => hn ⟨i, hi, ht⟩
  · rintro ⟨l, -, hl⟩ rfl
    simp at hl

/-- The executing lanes in which a word names a register beyond the wave's allocation. -/
def Ctx.beyond (c : Ctx) (k : Checks) : LaneMask := c.lanesWith c.exec k.regs (fun r _ => decide (8 * c.w.vgran ≤ r))

theorem Ctx.decodeFault_operand {c : Ctx} {k : Checks} (h : k.ok = false) :
    c.decodeFault k = some (causesIn c.src .illegalOperand c.exec) := by
  simp [Ctx.decodeFault, h]

theorem Ctx.decodeFault_range {c : Ctx} {k : Checks} (hok : k.ok = true) (hp : k.priv = true → c.w.priv = true) :
    c.decodeFault k = if c.beyond k ≠ 0 then some (causesIn c.src .regRange (c.beyond k))
      else if c.melded && !k.meld then some (causesIn c.src .illegalMeld c.exec)
      else k.value.map (fun y => causesIn c.src y c.exec) := by
  have hpriv : (k.priv && !c.w.priv) = false := by
    cases h : k.priv
    · rfl
    · simp [hp h]
  simp [Ctx.decodeFault, hok, hpriv, Ctx.beyond]

/-- Settles O9: the trap that falls due, and the causes in the order of `decodeFault`. -/
theorem decodeFaults : Obligations.DecodeFaults := by
  constructor
  · intro i s c x l hi hr hc hf
    have hw := ctx?_wave hc
    obtain ⟨fl, be, re, howes⟩ := c.owesTrap_eq (x :: l) false c.w
    refine ⟨c.trapped s (x :: l) false, _, exec_of_decodeFault hi hr hc hf, c.trapped_wave s (x :: l) hw, rfl, ?_⟩
    rw [howes]
    exact ⟨rfl, rfl, rfl, rfl, rfl, rfl, rfl, rfl, rfl, rfl, fun k hk => c.trapped_other s _ hk, c.trapped_readLoc s _⟩
  · intro c k beyond
    have hbeyond : ∀ l < 64, (c.beyond k).getLsbD l = true ↔ beyond l := fun l hl => by
      simp only [Ctx.beyond, c.lanesWith_getLsbD _ _ _ hl, decide_eq_true_eq, beyond]
    have hany : c.beyond k ≠ 0 ↔ ∃ l < 64, beyond l := mask_ne_zero_iff.trans
      (exists_congr fun l => and_congr_right (hbeyond l))
    refine ⟨Ctx.decodeFault_operand, fun hok hp hw => ?_, fun hok hp h => ?_, fun hok hp h => ?_⟩
    · simp [Ctx.decodeFault, hok, hp, hw]
    · exact ⟨c.beyond k, by rw [Ctx.decodeFault_range hok hp, if_pos (hany.2 h)], hbeyond⟩
    · rw [Ctx.decodeFault_range hok hp, if_neg (fun hb => ?_)]
      obtain ⟨l, hl, hbl⟩ := hany.1 hb
      exact h l hl hbl

/-- Settles O10: all executing lanes drop out, so that nothing is left to do but to record their cause. -/
theorem poisonedReadsRecordHwErr : Obligations.PoisonedReadsRecordHwErr := by
  intro i s c hi hr hc hf hw hp he
  obtain ⟨f, hexec⟩ := exec_encoded i hi hr
  rw [hexec, issueChecked, issue_some hc]
  simp only [hf, hw, hp, if_neg he, if_true, Ctx.leaves, Ctx.finish_next]

/-! ## Where a gang stands after its word (R24) -/

theorem mapGang_slice (w : Wave) (g : SliceMask) (f : Nat → Slice → Slice) {i : Nat} {x : Slice} (h : w.slices[i]? = some x) :
    (w.mapGang g f).slices[i]? = some (if g.getLsbD i then f i x else x) := by
  simp [Wave.mapGang, List.getElem?_mapIdx, h]

/-- The body and the next clause of a picked gang are those of its clause's header. -/
theorem ctx?_clause {s : State} {c : Ctx} (h : s.ctx? = some c) :
    c.body = hdrBody c.src.hdr ∧ c.next = c.src.claddr + 4#64 * BitVec.ofNat 64 (hdrLen c.src.hdr) := by
  unfold State.ctx? at h
  split at h
  · cases h
  · split at h
    · cases h
    · split at h
      · cases h
      · cases h; exact ⟨rfl, rfl⟩

theorem Ctx.retire_block (c : Ctx) (s : State) (f : Wave → Wave) {b : Block} (h : s.blocks.get? c.w.block = some b) :
    (c.retire s f).blocks.get? c.w.block = some { b with reti := b.reti + 1, charge := b.charge + 384 * issueCycles c.gang } := by
  rw [c.retire_blocks, if_pos rfl, h]
  rfl

/-- Settles O11: what `retire` counts and where `advance` puts the gang. -/
theorem issueAdvances : Obligations.IssueAdvances := by
  constructor
  · intro s t c w b hc hw hb
    exact ⟨c.retire_wave t _ hw, rfl, c.retire_block t _ hb, fun k hk => c.retire_other t _ hk,
      fun k hk => (c.retire_blocks t _ k).trans (if_neg hk), c.retire_readLoc t _, rfl, rfl⟩
  · intro s c w i x hc hr hx hi
    obtain ⟨hbody, hnext⟩ := ctx?_clause hc
    unfold Ctx.advance
    simp only [hr, Bool.false_eq_true, if_false, hbody]
    refine ⟨fun hg => ?_, fun hg hlt => ?_, fun hg hle => ?_⟩
    · split <;> simp [mapGang_slice _ _ _ hx, hg]
    · rw [if_pos (show c.src.widx + 1 ≤ hdrBody c.src.hdr by omega), mapGang_slice _ _ _ hx, if_pos hg]
    · rw [if_neg (by omega), mapGang_slice _ _ _ hx, if_pos hg, hnext]
      rfl

end Sys2Proof.Machine
end

