-- ==== Sys2Proof/Proofs/VectorWords.lean ====
section
/-! The vector words and the values of the bit operations (O15, O17 to O24). -/

namespace Sys2Proof.Machine

/-! # Vector words

The vector words 0x20 to 0x4F (R141 to R176): each completes with the results of its rule in the lanes in `act`. What an
issue does is `issueChecked_issues`; the meanings are those of the shared operations `vecArith`, `vecSpecial`,
`vecCompare`, `vecLogic`, `vecBit`, `vecCarry`, `vecRaw2` and `vecDot`. -/

/-- A word that issues has its effect on the issuing wave alone. -/
theorem issueChecked_onWave {s : State} {c : Ctx} {k : Ctx → Checks} {f : Ctx → Res} {w : Wave} (h : Issues s c (k c))
    (hf : f c = c.onWave s w) : issueChecked s k f = c.leavesWave s w := by
  rw [issueChecked_issues h, hf]
  rfl

/-- Settles O15. -/
theorem arithmeticResults : Obligations.ArithmeticResults := by
  intro s c d a b i op y hi hk
  simp only [List.mem_cons, Prod.mk.injEq, List.not_mem_nil, or_false] at hi
  rcases hi with ⟨rfl, rfl, rfl⟩ | ⟨rfl, rfl, rfl⟩ | ⟨rfl, rfl, rfl⟩ | ⟨rfl, rfl, rfl⟩ | ⟨rfl, rfl, rfl⟩ |
    ⟨rfl, rfl, rfl⟩ | ⟨rfl, rfl, rfl⟩ | ⟨rfl, rfl, rfl⟩ | ⟨rfl, rfl, rfl⟩ | ⟨rfl, rfl, rfl⟩
  iterate 10 exact issueChecked_onWave hk rfl

theorem Wave.flagUp_specials (w : Wave) (o : Option Nat) : (w.flagUp o).specials = w.specials := by
  cases o <;> rfl

/-- A counted special function waits with its results and flags (R31, R148). -/
theorem vecSpecial_waits {s : State} {c : Ctx} {fn : SpecialFn} {d a b : VCode} (h : Issues s c (vecSpecialChecks fn d a b c)) :
    vecSpecial fn d a b s = c.leavesWave s { c.w.flagUp (hdrSetA c.src.hdr) with
      specials := c.w.specials ++ [⟨c.src.ord, c.now, hdrSetA c.src.hdr,
        c.vcells d.vNum c.ty.words c.act (unitFrom c.ty (c.specialElem fn a b)),
        flagsFrom c.ty.count c.act (c.specialElem fn a b), c.gang⟩] } := by
  refine issueChecked_onWave h ?_
  simp only [Wave.flagUp_specials]

/-- Settles O17. -/
theorem specialFunctionResults : Obligations.SpecialFunctionResults := by
  intro s c d a b i fn y hi hk
  simp only [List.mem_cons, Prod.mk.injEq, List.not_mem_nil, or_false] at hi
  rcases hi with ⟨rfl, rfl, rfl⟩ | ⟨rfl, rfl, rfl⟩ | ⟨rfl, rfl, rfl⟩ | ⟨rfl, rfl, rfl⟩ | ⟨rfl, rfl, rfl⟩ |
    ⟨rfl, rfl, rfl⟩ | ⟨rfl, rfl, rfl⟩
  iterate 7 exact vecSpecial_waits hk

/-- What a compare or CLASS writes, by the kind of its destination (R150). -/
theorem Ctx.writeBools_p (c : Ctx) (s : State) (t : Ty) (n : Fin 8) (f : Nat → Nat → Bool × BitVec 7) :
    c.writeBools s t (.p n) f = c.onWave s ((c.w.pwrite n c.act (maskWhere 64 (fun l =>
      (List.range t.count).all (fun j => (f l j).1)))).raise (flagsFrom t.count c.act (fun l j => (0, (f l j).2)))) := rfl

theorem Ctx.writeBools_v (c : Ctx) (s : State) (t : Ty) (n : Fin 192) (f : Nat → Nat → Bool × BitVec 7) :
    c.writeBools s t (.v n) f = c.onWave s ((c.vwrite c.w n t.words c.act (unitFrom t (fun l j =>
      (if (f l j).1 then 2 ^ t.bits - 1 else 0, 0)))).raise (flagsFrom t.count c.act (fun l j => (0, (f l j).2)))) := rfl

/-- Settles O18. -/
theorem compareResults : Obligations.CompareResults := by
  intro s c d a b i h t rel hi hk fx
  constructor
  · rintro n rfl
    rcases hi with ⟨rfl, rfl⟩ | ⟨rfl, rfl⟩ | ⟨rfl, rfl⟩ | ⟨rfl, rfl⟩ | ⟨rfl, rfl⟩ | ⟨rfl, rfl⟩
    iterate 6 exact issueChecked_onWave hk (c.writeBools_p s _ n _)
  · rintro n rfl
    rcases hi with ⟨rfl, rfl⟩ | ⟨rfl, rfl⟩ | ⟨rfl, rfl⟩ | ⟨rfl, rfl⟩ | ⟨rfl, rfl⟩ | ⟨rfl, rfl⟩
    iterate 6 exact issueChecked_onWave hk (c.writeBools_v s _ n _)

/-! ## Elements of a unit (R140) -/

theorem Ty.bits_le_slot (t : Ty) : t.bits ≤ t.slot := by cases t <;> decide

/-- An element read from a unit is the low bits of the element put there. -/
theorem elemAt_unitOf (t : Ty) (l : List Nat) (j : Nat) (h : j < l.length) : elemAt t (unitOf t l) j = l[j] % 2 ^ t.bits := by
  have hdvd : 2 ^ t.bits ∣ 2 ^ t.slot := Nat.pow_dvd_pow 2 t.bits_le_slot
  have hlt : ∀ x, x % 2 ^ t.bits < 2 ^ t.slot := fun x =>
    (Nat.mod_lt x (Nat.two_pow_pos _)).trans_le (Nat.pow_le_pow_right two_pos t.bits_le_slot)
  induction l generalizing j with
  | nil => simp at h
  | cons x l ih =>
    cases j with
    | zero =>
      obtain ⟨k, hk⟩ := hdvd
      simp [elemAt, natBits, unitOf, hk, Nat.mul_assoc, Nat.add_mul_mod_self_left]
    | succ j =>
      have hstep : unitOf t (x :: l) / 2 ^ (t.slot * (j + 1)) = unitOf t l / 2 ^ (t.slot * j) := by
        rw [Nat.mul_succ, Nat.add_comm, Nat.pow_add, ← Nat.div_div_eq_div_mul, unitOf,
          Nat.add_mul_div_left _ _ (Nat.two_pow_pos _), Nat.div_eq_of_lt (hlt x), Nat.zero_add]
      rw [elemAt, natBits, hstep]
      exact ih j (by simpa using h)

theorem elemAt_lt (t : Ty) (u j : Nat) : elemAt t u j < 2 ^ t.bits := Nat.mod_lt _ (Nat.two_pow_pos _)

/-- Settles O19: the elements of a converted unit one by one, the examples by evaluation, and the words. -/
theorem convertResults : Obligations.ConvertResults := by
  refine ⟨fun t u r src dst part j hj hp => ?_, ?_, fun s c d a b => ?_⟩
  · have hlen : ∀ f : Nat → Nat × BitVec 7, j < (((List.range u.count).map f).map (·.1)).length := fun f => by simpa using hj
    rw [cvtUnit, elemAt_unitOf _ _ _ (hlen _)]
    simp only [List.getElem_map, List.getElem_range]
    split
    · rfl
    · split
      · rw [Nat.succ_mul]
        split
        · rfl
        · exact Nat.mod_eq_of_lt (elemAt_lt u dst j)
      · rfl
  · refine ⟨?_, ?_, ?_, ?_, ?_, ?_, ?_, ?_, ?_, ?_, ?_⟩ <;> decide +kernel
  · refine ⟨fun part hk => ?_, fun hk => ?_, fun hk => ?_, fun hk => ?_, fun hk => ?_, fun hk => ?_, fun byte hk => ?_⟩
    iterate 7 exact issueChecked_onWave hk rfl

/-! ## MOV, SEL and FXR (R152, R153, R161) -/

theorem Ctx.fxQuiet_eq_false_iff (c : Ctx) : c.fxQuiet = false ↔ c.w.specials ≠ [] ∨
    ∃ o ∈ c.half.tops, o.wave = c.key ∧ ((∃ n, o.kind = .acld n) ∨ ∃ f, o.kind = .acsp f) := by
  have hsets : ∀ k : TileKind, k.setsFx = true ↔ (∃ n, k = .acld n) ∨ ∃ f, k = .acsp f := fun k => by
    cases k <;> simp [TileKind.setsFx]
  unfold Ctx.fxQuiet
  rw [Bool.and_eq_false_iff, List.isEmpty_eq_false_iff, Bool.not_eq_false', List.any_eq_true]
  simp only [Bool.and_eq_true, beq_iff_eq, hsets]

/-- Settles O20. -/
theorem moveResults : Obligations.MoveResults := by
  intro s c d a b t
  refine ⟨fun hk => issueChecked_onWave hk rfl, fun hk => issueChecked_onWave hk rfl, fun hk hq => ⟨?_, ?_⟩, fun hk hq => ?_,
    c.fxQuiet_eq_false_iff⟩
  · rintro n rfl
    refine issueChecked_onWave hk ?_
    rw [hq]
    rfl
  · rintro n rfl
    refine issueChecked_onWave hk ?_
    rw [hq]
    rfl
  · refine (issueChecked_issues hk _).trans ?_
    rw [hq]
    rfl

/-! ## Integer words (R171 to R176) -/

/-- Results without flags raise none. -/
theorem flagsFrom_zero (n : Nat) (m : LaneMask) (g : Nat → Nat → Nat) : flagsFrom n m (fun l j => (g l j, 0)) = 0 := by
  simp [flagsFrom, List.foldl_fixed]

/-- Element results without flags. -/
theorem Ctx.writeElems_zero (c : Ctx) (s : State) (t : Ty) (d : VCode) (g : Nat → Nat → Nat) :
    c.writeElems s t d (fun l j => (g l j, 0)) =
      c.onWave s ((c.vwrite c.w d.vNum t.words c.act (unitFrom t (fun l j => (g l j, 0)))).raise 0) := by
  rw [Ctx.writeElems, flagsFrom_zero]

/-- Settles O21. -/
theorem bitwiseResults : Obligations.BitwiseResults := by
  intro s c d a b i op y t
  refine ⟨fun hi hk => ?_, fun hi hk => ?_⟩
  · simp only [List.mem_cons, Prod.mk.injEq, List.not_mem_nil, or_false] at hi
    rcases hi with ⟨rfl, rfl, rfl⟩ | ⟨rfl, rfl, rfl⟩ | ⟨rfl, rfl, rfl⟩ | ⟨rfl, rfl, rfl⟩
    iterate 4 exact issueChecked_onWave hk rfl
  · simp only [List.mem_cons, Prod.mk.injEq, List.not_mem_nil, or_false] at hi
    rcases hi with ⟨rfl, rfl, rfl⟩ | ⟨rfl, rfl, rfl⟩ | ⟨rfl, rfl, rfl⟩ | ⟨rfl, rfl, rfl⟩ | ⟨rfl, rfl, rfl⟩ |
      ⟨rfl, rfl, rfl⟩ | ⟨rfl, rfl, rfl⟩
    iterate 7 exact issueChecked_onWave hk (c.writeElems_zero s _ _ _)

/-- A wave whose predicate is written after its vector registers has the lanes of `act` that it has, and no other, changed. -/
theorem carry_reads (c : Ctx) (n : Nat) (f : Nat → Nat) (q : Nat → Bool) {l : Nat} (hl : l < 64) :
    let w' := (c.vwrite c.w n 1 c.act f).pwrite 7 c.act (maskWhere 64 q)
    (c.act.getLsbD l = true → l < c.w.width →
      w'.v.get (vKey (c.phys n l) l) = BitVec.ofNat 32 (f l) ∧ (w'.p.get 7).getLsbD l = q l) ∧
    (c.act.getLsbD l = false → (∀ r, w'.v.get (vKey r l) = c.w.v.get (vKey r l)) ∧
      (w'.p.get 7).getLsbD l = (c.w.p.get 7).getLsbD l) := by
  intro w'
  have hp : (w'.p.get 7).getLsbD l =
      if c.act.getLsbD l && decide (l < c.w.width) then (maskWhere 64 q).getLsbD l else (c.w.p.get 7).getLsbD l :=
    (registerWrites.2.2 (c.vwrite c.w n 1 c.act f) 7 c.act (maskWhere 64 q)).1 l hl
  obtain ⟨hat, hother, -⟩ := registerWrites.1 c c.w n 1 c.act f (by decide)
  constructor
  · intro ha hw
    rw [hp, ha, decide_eq_true hw, maskWhere_getLsbD hl]
    refine ⟨?_, rfl⟩
    have hv := hat l 0 hl ha Nat.one_pos
    rwa [Nat.mul_zero, Nat.pow_zero, Nat.div_one] at hv
  · intro ha
    rw [hp, ha]
    exact ⟨fun r => hother r l hl (.inl ha), rfl⟩

theorem toNat_ofNat_intBits (x : Int) : ((BitVec.ofNat 32 (intBits 32 x)).toNat : Int) = x % 2 ^ 32 := by
  have h0 : 0 ≤ x % 2 ^ 32 := Int.emod_nonneg _ (by norm_num)
  have hlt : x % 2 ^ 32 < 2 ^ 32 := Int.emod_lt_of_pos _ (by norm_num)
  rw [BitVec.toNat_ofNat, intBits]
  push_cast
  omega

/-- The sum or difference of the operands and p7 in a lane, as an exact integer (R172). -/
def Ctx.carryTotal (c : Ctx) (subtract : Bool) (a b : VCode) (l : Nat) : Int :=
  let x : Int := c.operand .raw a l
  let y : Int := c.operand .raw b l
  let k : Int := if (c.w.p.get 7).getLsbD l then 1 else 0
  if subtract then x - y - k else x + y + k

theorem vecCarry_writes {s : State} {c : Ctx} {subtract : Bool} {d a b : VCode} (h : Issues s c (vecCarryChecks d a b c)) :
    vecCarry subtract d a b s = c.leavesWave s
      ((c.vwrite c.w d.vNum 1 c.act (fun l => intBits 32 (c.carryTotal subtract a b l))).pwrite 7 c.act (maskWhere 64 (fun l =>
        if subtract then decide (c.carryTotal subtract a b l < 0) else decide (2 ^ 32 ≤ c.carryTotal subtract a b l)))) :=
  issueChecked_onWave h rfl

/-- Settles O23. -/
theorem carryChain : Obligations.CarryChain := by
  intro s c d a b i sub hi hk x y p
  have hexec : exec i s = vecCarry sub d a b s := by rcases hi with ⟨rfl, rfl⟩ | ⟨rfl, rfl⟩ <;> rfl
  have hchecks : checksOf i c = vecCarryChecks d a b c := by rcases hi with ⟨rfl, -⟩ | ⟨rfl, -⟩ <;> rfl
  rw [hexec]
  refine ⟨_, vecCarry_writes (hchecks ▸ hk), fun l hl ha hw => ?_, fun l hl ha => ?_, fun q hq => ?_, rfl, rfl, rfl⟩
  · obtain ⟨hv, hp⟩ := (carry_reads c d.vNum _ _ hl).1 ha hw
    rw [hv, hp, toNat_ofNat_intBits]
    cases sub <;> exact ⟨rfl, rfl⟩
  · exact (carry_reads c d.vNum _ _ hl).2 ha
  · exact (registerWrites.2.2 _ 7 c.act _).2 q hq

/-! ## Wide integer words (R173 to R176) -/

/-- A dot product is the sum of its products. -/
theorem foldl_add_eq_sum (l : List Nat) (f : Nat → Int) (x : Int) : l.foldl (fun acc j => acc + f j) x = x + (l.map f).sum := by
  induction l generalizing x with
  | nil => simp
  | cons j l ih => simp [ih, Int.add_assoc]

/-- Settles O24. -/
theorem wideIntegerResults : Obligations.WideIntegerResults := by
  refine ⟨fun w a b sa sb => ?_, fun s c d a b => ?_⟩
  · exact (foldl_add_eq_sum _ _ 0).trans (Int.zero_add _)
  · refine ⟨fun hk => issueChecked_onWave hk (c.writeElems_zero s _ d _), fun hk => ?_, fun hk => ?_, fun hk => ?_, fun hk => ?_,
      fun hk => ?_, fun i hi hk => ?_⟩
    iterate 5 exact issueChecked_onWave hk rfl
    simp only [List.mem_cons, List.not_mem_nil, or_false] at hi
    rcases hi with rfl | rfl
    iterate 2 exact issueChecked_onWave hk rfl

/-! # Bit operations

The bit operations (R171, R174, R175), bit by bit. The arithmetic shift and the sign fill are those of bit vectors:
`signedOf` is `BitVec.toInt`, and `intBits` is `BitVec.ofInt`. -/

/-! ## Bits of a natural number -/

theorem natBits_one_eq (x i : Nat) : natBits x i 1 = (x.testBit i).toNat := by
  rw [natBits, Nat.testBit_eq_decide_div_mod_eq, pow_one]
  rcases Nat.mod_two_eq_zero_or_one (x / 2 ^ i) with h | h <;> simp [h]

theorem natBits_one_iff {x i : Nat} : natBits x i 1 = 1 ↔ x.testBit i = true := by
  rw [natBits_one_eq]
  cases x.testBit i <;> decide

theorem testBit_of_ge {a w i : Nat} (ha : a < 2 ^ w) (h : w ≤ i) : a.testBit i = false :=
  Nat.testBit_lt_two_pow (ha.trans_le (Nat.pow_le_pow_right two_pos h))

theorem lt_of_testBit {a w i : Nat} (ha : a < 2 ^ w) (h : a.testBit i = true) : i < w := by
  by_contra hn
  rw [testBit_of_ge ha (Nat.le_of_not_lt hn)] at h
  exact Bool.false_ne_true h

/-! ## Signed numbers as bit vectors -/

theorem signedOf_eq_toInt (w x : Nat) : signedOf w x = (BitVec.ofNat w x).toInt := by
  rw [BitVec.toInt_eq_toNat_cond, BitVec.toNat_ofNat, signedOf]
  cases w with
  | zero => simp [Nat.mod_one]
  | succ w =>
    have hpow : 2 ^ (w + 1) = 2 * 2 ^ w := Nat.pow_succ'
    simp only [ne_eq, Nat.add_one_ne_zero, not_false_eq_true, true_and, Nat.add_sub_cancel]
    split <;> split <;> first | rfl | omega

theorem intBits_eq_toNat (w : Nat) (x : Int) : intBits w x = (BitVec.ofInt w x).toNat := by
  rw [BitVec.toNat_ofInt, intBits]

/-- A signed number carried to a wider word repeats its top bit. -/
theorem testBit_intBits_signedOf (w x : Nat) {v i : Nat} (hi : i < v) :
    (intBits v (signedOf w x)).testBit i = if i < w then x.testBit i else decide (0 < w) && x.testBit (w - 1) := by
  have hext : BitVec.ofInt v (BitVec.ofNat w x).toInt = (BitVec.ofNat w x).signExtend v := rfl
  rw [intBits_eq_toNat, signedOf_eq_toInt, hext, BitVec.testBit_toNat, BitVec.getLsbD_signExtend, decide_eq_true hi,
    Bool.true_and, BitVec.msb_eq_getLsbD_last]
  simp only [BitVec.getLsbD_ofNat]
  split
  · next h => simp [h]
  · by_cases hw : 0 < w
    · simp [hw]
    · simp [show w = 0 by omega]

/-- The arithmetic shift by less than the width moves bits down and repeats the top one. -/
theorem testBit_sha {w i : Nat} (hw : 0 < w) (hi : i < w) (a n : Nat) :
    (elemBit .sha w a n).testBit i = a.testBit (min (i + min n (w - 1)) (w - 1)) := by
  have hn : (if w ≤ n then w - 1 else n) = min n (w - 1) := by split <;> omega
  have hshift : elemBit .sha w a n = ((BitVec.ofNat w a).sshiftRight (min n (w - 1))).toNat := by
    rw [BitVec.sshiftRight_eq, elemBit, hn, intBits_eq_toNat, signedOf_eq_toInt, Int.shiftRight_eq_div_pow]
  rw [hshift, BitVec.testBit_toNat, BitVec.getLsbD_sshiftRight, decide_eq_false (show ¬ w ≤ i by omega),
    BitVec.msb_eq_getLsbD_last]
  simp only [BitVec.getLsbD_ofNat, Bool.not_false, Bool.true_and]
  split
  · next h => rw [min_eq_left (show i + min n (w - 1) ≤ w - 1 by omega), Nat.add_comm i]; simp [h]
  · next h => rw [min_eq_right (show w - 1 ≤ i + min n (w - 1) by omega)]; simp [hw]

/-! ## R171's table -/

theorem elemBit_not_eq {w a : Nat} (ha : a < 2 ^ w) (n : Nat) : elemBit .not w a n = 2 ^ w - (a + 1) := by
  rw [elemBit, Nat.mod_eq_of_lt ha]
  omega

theorem elemBit_shr_eq {w a : Nat} (ha : a < 2 ^ w) (n : Nat) :
    elemBit .shr w a n = if w ≤ n then 0 else a / 2 ^ n := by
  rw [elemBit, Nat.mod_eq_of_lt ha]

/-- A rotation joins the low bits, moved up, and the high bits. -/
theorem elemBit_rot_eq {w a : Nat} (hw : 0 < w) (ha : a < 2 ^ w) (n : Nat) :
    elemBit .rot w a n = 2 ^ (n % w) * (a % 2 ^ (w - n % w)) + a / 2 ^ (w - n % w) ∧ a / 2 ^ (w - n % w) < 2 ^ (n % w) := by
  have hk : n % w < w := Nat.mod_lt n hw
  have hsplit : 2 ^ (n % w) * 2 ^ (w - n % w) = 2 ^ w := by
    rw [← Nat.pow_add]
    congr 1
    omega
  constructor
  · rw [elemBit, Nat.mod_eq_of_lt ha, Nat.mul_comm a, ← hsplit, Nat.mul_mod_mul_left]
  · rw [Nat.div_lt_iff_lt_mul (Nat.two_pow_pos _), hsplit]
    exact ha

theorem testBit_rot {w a n i : Nat} (hw : 0 < w) (ha : a < 2 ^ w) (hi : i < w) :
    (elemBit .rot w a n).testBit ((i + n) % w) = a.testBit i := by
  obtain ⟨heq, hlt⟩ := elemBit_rot_eq hw ha n
  have hk : n % w < w := Nat.mod_lt n hw
  rw [heq, Nat.testBit_two_pow_mul_add _ hlt, Nat.add_mod, Nat.mod_eq_of_lt hi]
  by_cases h : i + n % w < w
  · rw [Nat.mod_eq_of_lt h, if_neg (by omega), Nat.testBit_mod_two_pow, Nat.add_sub_cancel, decide_eq_true (by omega),
      Bool.true_and]
  · rw [Nat.mod_eq_sub_mod (by omega), Nat.mod_eq_of_lt (by omega), if_pos (by omega), Nat.testBit_div_two_pow]
    congr 1
    omega

theorem elemBit_rot_lt {w a : Nat} (hw : 0 < w) (ha : a < 2 ^ w) (n : Nat) : elemBit .rot w a n < 2 ^ w := by
  obtain ⟨heq, hlt⟩ := elemBit_rot_eq hw ha n
  rw [heq]
  have hk : n % w < w := Nat.mod_lt n hw
  refine Nat.lt_pow_two_of_testBit _ fun j hj => ?_
  rw [Nat.testBit_two_pow_mul_add _ hlt, if_neg (by omega), Nat.testBit_mod_two_pow, decide_eq_false (by omega), Bool.false_and]

theorem bitReverse_lt (x w : Nat) : bitReverse x w < 2 ^ w := by
  induction w with
  | zero => exact Nat.one_pos
  | succ w ih =>
    have hb : natBits x w 1 < 2 := Nat.mod_lt _ two_pos
    rw [bitReverse, Nat.pow_succ']
    omega

theorem testBit_bitReverse (x w i : Nat) (hi : i < w) : (bitReverse x w).testBit i = x.testBit (w - 1 - i) := by
  induction w generalizing i with
  | zero => omega
  | succ w ih =>
    have hb : natBits x w 1 < 2 ^ 1 := Nat.mod_lt _ two_pos
    rw [bitReverse, ← pow_one 2, Nat.testBit_two_pow_mul_add _ hb]
    cases i with
    | zero => rw [if_pos Nat.one_pos, natBits_one_eq]; cases h : x.testBit w <;> simp [h]
    | succ i =>
      rw [if_neg (by omega), Nat.add_sub_cancel, ih i (by omega)]
      congr 1
      omega

/-- The count of leading zeros names the place of the top set bit. -/
theorem leadingZeros_spec {w a : Nat} (ha : a < 2 ^ w) : leadingZeros w a ≤ w ∧ a < 2 ^ (w - leadingZeros w a) ∧
    (a ≠ 0 → a.testBit (w - 1 - leadingZeros w a) = true) := by
  rw [leadingZeros, Nat.mod_eq_of_lt ha]
  by_cases h0 : a = 0
  · simp [h0]
  · have hlog : a.log2 < w := (Nat.log2_lt h0).2 ha
    rw [if_neg h0, show w - (w - 1 - a.log2) = a.log2 + 1 by omega, show w - 1 - (w - 1 - a.log2) = a.log2 by omega]
    exact ⟨by omega, Nat.lt_log2_self, fun _ => Nat.testBit_log2 h0⟩

/-! ## Fields (R174) -/

theorem natBits_width_le (x lo : Nat) : min (natBits x lo 6) 32 ≤ 32 := min_le_right _ _

/-- The field from bit `o` upward, before its fill. -/
theorem testBit_field {a o w i : Nat} (ha : a < 2 ^ 32) :
    (a % 2 ^ 32 / 2 ^ o % 2 ^ w).testBit i = (decide (i < w) && (decide (i + o < 32) && a.testBit (i + o))) := by
  rw [Nat.mod_eq_of_lt ha, Nat.testBit_mod_two_pow, Nat.testBit_div_two_pow]
  by_cases h : i + o < 32
  · simp [h]
  · simp [h, testBit_of_ge ha (show 32 ≤ i + o by omega)]

theorem testBit_bitFieldExtract {a ctl i : Nat} (ha : a < 2 ^ 32) (hi : i < 32) :
    let o := natBits ctl 0 5
    let w := min (natBits ctl 8 6) 32
    (bitFieldExtract a ctl).testBit i = if i < w then decide (i + o < 32) && a.testBit (i + o)
      else decide (natBits ctl 16 1 = 1 ∧ 0 < w ∧ w - 1 + o < 32) && a.testBit (w - 1 + o) := by
  intro o w
  change (if natBits ctl 16 1 = 1 then intBits 32 (signedOf w (a % 2 ^ 32 / 2 ^ o % 2 ^ w))
    else a % 2 ^ 32 / 2 ^ o % 2 ^ w).testBit i = _
  clear_value o w
  by_cases hsx : natBits ctl 16 1 = 1
  · rw [if_pos hsx, testBit_intBits_signedOf w _ hi]
    simp only [testBit_field ha, hsx, true_and]
    by_cases hiw : i < w
    · simp [hiw]
    · by_cases hw : 0 < w
      · simp [hiw, hw]
      · simp [hiw, hw]
  · rw [if_neg hsx, testBit_field ha]
    by_cases hiw : i < w
    · simp [hiw]
    · simp [hiw, hsx]

theorem bitFieldExtract_lt (a ctl : Nat) : bitFieldExtract a ctl < 2 ^ 32 := by
  rw [bitFieldExtract]
  split
  · exact intBits_lt 32 _
  · exact (Nat.mod_lt _ (Nat.two_pow_pos _)).trans_le (Nat.pow_le_pow_right two_pos (natBits_width_le ctl 8))

theorem testBit_bitFieldInsert (d a ctl : Nat) {i : Nat} (hi : i < 32) :
    let o := natBits ctl 0 5
    let w := min (natBits ctl 8 6) 32
    (bitFieldInsert d a ctl).testBit i = if o ≤ i ∧ i < o + w then a.testBit (i - o) else d.testBit i := by
  intro o w
  have hmask : (2 ^ w - 1) * 2 ^ o % 2 ^ 32 < 2 ^ 32 := Nat.mod_lt _ (Nat.two_pow_pos _)
  change ((d % 2 ^ 32 &&& (2 ^ 32 - 1 - (2 ^ w - 1) * 2 ^ o % 2 ^ 32)) ||| (a % 2 ^ w * 2 ^ o % 2 ^ 32)).testBit i = _
  clear_value o w
  rw [show 2 ^ 32 - 1 - (2 ^ w - 1) * 2 ^ o % 2 ^ 32 = 2 ^ 32 - ((2 ^ w - 1) * 2 ^ o % 2 ^ 32 + 1) by omega]
  simp only [Nat.testBit_or, Nat.testBit_and, Nat.testBit_two_pow_sub_succ hmask, Nat.testBit_mod_two_pow,
    Nat.testBit_mul_two_pow, Nat.testBit_two_pow_sub_one, hi, decide_true, Bool.true_and]
  by_cases ho : o ≤ i
  · by_cases hw : i - o < w
    · simp [ho, hw, show i < o + w by omega]
    · simp [ho, hw, show ¬ i < o + w by omega]
  · simp [ho]

theorem bitFieldInsert_lt (d a ctl : Nat) : bitFieldInsert d a ctl < 2 ^ 32 := by
  rw [bitFieldInsert]
  refine Nat.or_lt_two_pow ?_ (Nat.mod_lt _ (Nat.two_pow_pos _))
  exact Nat.and_le_left.trans_lt (Nat.mod_lt _ (Nat.two_pow_pos _))

/-! ## Carry-less products (R175) -/

theorem testBit_clmul_fold (l : List Nat) (a b x k : Nat) :
    (l.foldl (fun acc i => if natBits b i 1 = 1 then acc ^^^ (a * 2 ^ i) else acc) x).testBit k =
      l.foldl (fun acc i => acc ^^ (b.testBit i && decide (i ≤ k) && a.testBit (k - i))) (x.testBit k) := by
  induction l generalizing x with
  | nil => rfl
  | cons i l ih =>
    rw [List.foldl_cons, List.foldl_cons, ih]
    congr 1
    by_cases hb : b.testBit i = true
    · rw [if_pos (natBits_one_iff.2 hb), Nat.testBit_xor, Nat.testBit_mul_two_pow, hb, Bool.true_and]
    · rw [if_neg (mt natBits_one_iff.1 hb), Bool.eq_false_iff.2 hb]
      simp

theorem clmul_fold_lt {a n : Nat} (l : List Nat) (hl : ∀ i ∈ l, a * 2 ^ i < 2 ^ n) (b x : Nat) (hx : x < 2 ^ n) :
    l.foldl (fun acc i => if natBits b i 1 = 1 then acc ^^^ (a * 2 ^ i) else acc) x < 2 ^ n := by
  induction l generalizing x with
  | nil => exact hx
  | cons i l ih =>
    refine ih (fun j hj => hl j (List.mem_cons_of_mem i hj)) _ ?_
    dsimp only
    split
    · exact Nat.xor_lt_two_pow hx (hl i List.mem_cons_self)
    · exact hx

theorem clmulNat_lt {a : Nat} (ha : a < 2 ^ 32) (b : Nat) : clmulNat a b < 2 ^ 63 := by
  refine clmul_fold_lt _ (fun i hi => ?_) b 0 (by norm_num)
  have hi31 : 2 ^ i ≤ 2 ^ 31 := Nat.pow_le_pow_right two_pos (by have := List.mem_range.1 hi; omega)
  calc a * 2 ^ i < 2 ^ 32 * 2 ^ i := Nat.mul_lt_mul_of_pos_right ha (Nat.two_pow_pos i)
    _ ≤ 2 ^ 32 * 2 ^ 31 := Nat.mul_le_mul_left _ hi31
    _ = 2 ^ 63 := by norm_num

/-- Settles O22: each operation's lemma. -/
theorem bitTables : Obligations.BitTables := by
  refine ⟨fun w a n hw _ ha => ⟨fun i hi => ?_, rfl, elemBit_shr_eq ha n, fun i hi => testBit_sha hw hi a n,
    fun i hi => testBit_rot hw ha hi, fun i hi => testBit_bitReverse a w i hi, popCount_eq_length_filter a w,
    leadingZeros_spec ha, intBits_lt w _, elemBit_rot_lt hw ha n, bitReverse_lt a w, ?_⟩,
    fun d a ctl _ ha => ⟨fun i hi => testBit_bitFieldExtract ha hi, bitFieldExtract_lt a ctl,
      fun i hi => testBit_bitFieldInsert d a ctl hi, bitFieldInsert_lt d a ctl⟩,
    fun a b ha _ => ⟨clmulNat_lt ha b, fun k => ?_⟩⟩
  · rw [elemBit_not_eq ha, Nat.testBit_two_pow_sub_succ ha, decide_eq_true hi, Bool.true_and]
  · rw [elemBit_not_eq ha]
    omega
  · rw [clmulNat, testBit_clmul_fold, Nat.zero_testBit]

end Sys2Proof.Machine

end

