-- ==== Sys2Proof/Proofs/LaneWords.lean ====
section
/-! The lane and predicate words (R85, R177 to R182): the tree of R85, the pair that SPSEL keeps of a group of four, and the
completion of the words. -/

namespace Sys2Proof.Machine

/-! ## The pair that is kept of four (R181)

Only which of two elements ranks before the other matters: six comparisons, which are transitive. -/

/-- The pair of `keptPair`, from a relation that tells which of two elements ranks first. -/
def keptBy (beats : Nat → Nat → Bool) : Nat × Nat :=
  match (List.range 4).filter (fun i => decide (countIf (fun j => beats j i) (List.range 4) < 2)) with
  | i :: j :: _ => (i, j)
  | _ => (0, 1)

/-- One key ranks before another: it is larger, or it is equal and stands first. -/
def ranksFirst (keys : List Nat) (i j : Nat) : Bool :=
  decide (keys.getD j 0 < keys.getD i 0) || (keys.getD j 0 == keys.getD i 0 && decide (i < j))

theorem keptPair_eq_keptBy (t : Ty) (g : List Nat) : keptPair t g = keptBy (ranksFirst (g.map (magnitudeKey t))) := rfl

/-- The relation on four elements whose comparisons are given: `bij` tells that `i` ranks before `j`. -/
def orderOf (b01 b02 b03 b12 b13 b23 : Bool) : Nat → Nat → Bool
  | 0, 1 => b01 | 1, 0 => !b01 | 0, 2 => b02 | 2, 0 => !b02 | 0, 3 => b03 | 3, 0 => !b03
  | 1, 2 => b12 | 2, 1 => !b12 | 1, 3 => b13 | 3, 1 => !b13 | 2, 3 => b23 | 3, 2 => !b23
  | _, _ => false

/-- Three elements are ranked without a cycle. -/
def acyclic (bij bjk bik : Bool) : Bool := (!(bij && bjk) || bik) && (bij || bjk || !bik)

/-- Of four ranked elements the pair holds, in rising order, the two that rank before both others. -/
theorem keptBy_orderOf : ∀ b01 b02 b03 b12 b13 b23 : Bool, acyclic b01 b12 b02 = true → acyclic b01 b13 b03 = true →
    acyclic b02 b23 b03 = true → acyclic b12 b23 b13 = true →
    let r := orderOf b01 b02 b03 b12 b13 b23
    (keptBy r).1 < (keptBy r).2 ∧ (keptBy r).2 < 4 ∧
      ∀ k < 4, k ≠ (keptBy r).1 → k ≠ (keptBy r).2 → r (keptBy r).1 k = true ∧ r (keptBy r).2 k = true := by
  decide +kernel

theorem keptBy_congr {f g : Nat → Nat → Bool} (h : ∀ i < 4, ∀ j < 4, f i j = g i j) : keptBy f = keptBy g := by
  have hcount : ∀ i < 4, countIf (fun j => f j i) (List.range 4) = countIf (fun j => g j i) (List.range 4) := fun i hi =>
    congrArg List.length (List.filter_congr fun j hj => h j (List.mem_range.1 hj) i hi)
  have hfilter : (List.range 4).filter (fun i => decide (countIf (fun j => f j i) (List.range 4) < 2)) =
      (List.range 4).filter (fun i => decide (countIf (fun j => g j i) (List.range 4) < 2)) :=
    List.filter_congr fun i hi => by rw [hcount i (List.mem_range.1 hi)]
  rw [keptBy, keptBy, hfilter]

theorem ranksFirst_iff (keys : List Nat) (i j : Nat) : ranksFirst keys i j = true ↔
    keys.getD j 0 < keys.getD i 0 ∨ (keys.getD j 0 = keys.getD i 0 ∧ i < j) := by
  simp [ranksFirst]

theorem ranksFirst_eq_orderOf (k0 k1 k2 k3 : Nat) : ∀ i < 4, ∀ j < 4, ranksFirst [k0, k1, k2, k3] i j =
    orderOf (decide (k1 ≤ k0)) (decide (k2 ≤ k0)) (decide (k3 ≤ k0)) (decide (k2 ≤ k1)) (decide (k3 ≤ k1)) (decide (k3 ≤ k2)) i j := by
  intro i hi j hj
  rw [Bool.eq_iff_iff, ranksFirst_iff]
  interval_cases i <;> interval_cases j <;> simp [orderOf] <;> omega

theorem acyclic_le (a b c : Nat) : acyclic (decide (b ≤ a)) (decide (c ≤ b)) (decide (c ≤ a)) = true := by
  simp [acyclic]
  omega

/-- The pair kept of four keys, in rising order, ranks before both others. -/
theorem keptBy_ranksFirst (k0 k1 k2 k3 : Nat) :
    let r := ranksFirst [k0, k1, k2, k3]
    (keptBy r).1 < (keptBy r).2 ∧ (keptBy r).2 < 4 ∧
      ∀ k < 4, k ≠ (keptBy r).1 → k ≠ (keptBy r).2 → r (keptBy r).1 k = true ∧ r (keptBy r).2 k = true := by
  intro r
  have hr := ranksFirst_eq_orderOf k0 k1 k2 k3
  rw [keptBy_congr hr]
  obtain ⟨h12, h4, hall⟩ := keptBy_orderOf _ _ _ _ _ _ (acyclic_le k0 k1 k2) (acyclic_le k0 k1 k3) (acyclic_le k0 k2 k3)
    (acyclic_le k1 k2 k3)
  refine ⟨h12, h4, fun k hk h1 h2 => ?_⟩
  rw [show r = ranksFirst [k0, k1, k2, k3] from rfl, hr _ (h12.trans h4) k hk, hr _ h4 k hk]
  exact hall k hk h1 h2

/-! ## Magnitudes of binary formats (R64) -/

/-- The significand of a code without its sign, in units of the last place of the smallest exponent. -/
def ulpsOf (frac x : Nat) : Nat := if x / 2 ^ frac = 0 then x % 2 ^ frac else (2 ^ frac + x % 2 ^ frac) * 2 ^ (x / 2 ^ frac - 1)

theorem ulpsOf_strictMono (frac : Nat) : StrictMono (ulpsOf frac) := by
  refine strictMono_nat_of_lt_succ fun x => ?_
  have hpos : 0 < 2 ^ frac := Nat.two_pow_pos frac
  have hmod := Nat.mod_lt x hpos
  have hx := Nat.div_add_mod x (2 ^ frac)
  generalize hp : 2 ^ frac = p at *
  generalize he : x / p = e at *
  generalize hf : x % p = f at *
  unfold ulpsOf
  rw [hp, he, hf]
  by_cases hlast : f + 1 = p
  · have hdiv : (x + 1) / p = e + 1 := by rw [← hx, Nat.add_assoc, hlast, Nat.mul_add_div hpos, Nat.div_self hpos]
    have hzero : (x + 1) % p = 0 := by rw [← hx, Nat.add_assoc, hlast, Nat.mul_add_mod, Nat.mod_self]
    rw [hdiv, hzero, if_neg (Nat.succ_ne_zero e), Nat.add_sub_cancel]
    cases e with
    | zero => simp; omega
    | succ e =>
      rw [if_neg (Nat.succ_ne_zero e), Nat.add_sub_cancel, Nat.pow_succ', Nat.add_zero, ← Nat.mul_assoc]
      exact Nat.mul_lt_mul_of_pos_right (by omega) (Nat.two_pow_pos e)
  · have hlt : f + 1 < p := by omega
    have hdiv : (x + 1) / p = e := by rw [← hx, Nat.add_assoc, Nat.mul_add_div hpos, Nat.div_eq_of_lt hlt, Nat.add_zero]
    have hsucc : (x + 1) % p = f + 1 := by rw [← hx, Nat.add_assoc, Nat.mul_add_mod, Nat.mod_eq_of_lt hlt]
    rw [hdiv, hsucc]
    split
    · omega
    · exact Nat.mul_lt_mul_of_pos_right (by omega) (Nat.two_pow_pos _)

theorem Ty.slot_of_isFloat {t : Ty} (h : t.isFloat = true) : t.slot - 1 = t.fracBits + t.expBits := by
  cases t <;> first | rfl | cases h

/-- The exponent and the fraction of a code are those of the code without its sign. -/
theorem expBits_eq {t : Ty} (h : t.isFloat = true) (c : Nat) :
    natBits c t.fracBits t.expBits = c % 2 ^ (t.slot - 1) / 2 ^ t.fracBits := by
  rw [natBits, Ty.slot_of_isFloat h, Nat.pow_add, Nat.mod_mul_right_div_self]

theorem fraction_eq {t : Ty} (h : t.isFloat = true) (c : Nat) : c % 2 ^ t.fracBits = c % 2 ^ (t.slot - 1) % 2 ^ t.fracBits := by
  rw [Ty.slot_of_isFloat h, Nat.pow_add, Nat.mod_mul_right_mod]

/-- The magnitude of a code is its units, scaled by the place of the smallest one. -/
theorem abs_floatValue {t : Ty} (h : t.isFloat = true) (c : Nat) :
    |floatValue t c| = (ulpsOf t.fracBits (c % 2 ^ (t.slot - 1)) : ℚ) * 2 ^ (1 - t.bias - t.fracBits : Int) := by
  rw [floatValue, ulpsOf, ← expBits_eq h, ← fraction_eq h]
  generalize natBits c t.fracBits t.expBits = ex
  generalize c % 2 ^ t.fracBits = f
  generalize t.fracBits = F
  generalize t.bias = B
  have htwo : (2 : ℚ) ≠ 0 := two_ne_zero
  have hsign : |if c.testBit (t.slot - 1) = true then (-1 : ℚ) else 1| = 1 := by split <;> simp
  rw [abs_mul, abs_mul, hsign, one_mul, abs_of_pos (by positivity : (0 : ℚ) < 2 ^ ((max ex 1 : Nat) - B : Int))]
  by_cases hex : ex = 0
  · rw [if_pos hex, if_pos hex, abs_of_nonneg (by positivity), hex, Nat.zero_max, Nat.cast_one, zpow_sub₀ htwo _ (F : Int),
      zpow_natCast]
    field_simp
  · have hmax : max ex 1 = ex := max_eq_left (Nat.one_le_iff_ne_zero.2 hex)
    rw [if_neg hex, if_neg hex, abs_of_nonneg (by positivity), hmax]
    obtain ⟨e, rfl⟩ := Nat.exists_eq_succ_of_ne_zero hex
    push_cast
    rw [show ((e : Int) + 1 - B) = (e : Int) + (1 - B) by ring, zpow_add₀ htwo, zpow_natCast,
      zpow_sub₀ htwo _ (F : Int), zpow_natCast]
    field_simp

theorem magnitudeKey_float {t : Ty} (h : t.isFloat = true) {c : Nat} (hc : floatFinite t c) :
    magnitudeKey t c = c % 2 ^ (t.slot - 1) := by
  have hint : t.isInt = false := by simp [Ty.isInt, h]
  have htap : t.isTapered = false := by cases t <;> first | rfl | cases h
  simp only [magnitudeKey, hint, htap, Bool.false_eq_true, if_false, decodeFloat, if_neg hc.2]
  split_ifs <;> rfl

theorem magnitudeKey_nan {t : Ty} (h : t.isFloat = true) {c : Nat} (hc : natBits c t.fracBits t.expBits = 2 ^ t.expBits - 1)
    (hf : c % 2 ^ t.fracBits ≠ 0) : magnitudeKey t c = t.infCode + 1 := by
  have hint : t.isInt = false := by simp [Ty.isInt, h]
  have htap : t.isTapered = false := by cases t <;> first | rfl | cases h
  simp only [magnitudeKey, hint, htap, Bool.false_eq_true, if_false, decodeFloat, if_pos hc, if_neg hf]

/-- A finite code without its sign lies below infinity's. -/
theorem finite_lt_infCode {t : Ty} (h : t.isFloat = true) {c : Nat} (hc : floatFinite t c) : c % 2 ^ (t.slot - 1) < t.infCode := by
  obtain ⟨-, hex⟩ := hc
  have hlt : natBits c t.fracBits t.expBits < 2 ^ t.expBits := Nat.mod_lt _ (Nat.two_pow_pos _)
  rw [Ty.infCode, ← Nat.div_lt_iff_lt_mul (Nat.two_pow_pos _), ← expBits_eq h]
  omega

theorem magnitudeKey_le_iff {t : Ty} (h : t.isFloat = true) {a b : Nat} (ha : floatFinite t a) (hb : floatFinite t b) :
    magnitudeKey t a ≤ magnitudeKey t b ↔ |floatValue t a| ≤ |floatValue t b| := by
  have hpos : (0 : ℚ) < 2 ^ (1 - t.bias - t.fracBits : Int) := by positivity
  rw [magnitudeKey_float h ha, magnitudeKey_float h hb, abs_floatValue h, abs_floatValue h, mul_le_mul_iff_of_pos_right hpos,
    Nat.cast_le, (ulpsOf_strictMono t.fracBits).le_iff_le]

/-! ## The obligation -/

/-- Settles O25: the tree by its equations, the kept pair, the magnitudes, and the words. -/
theorem laneAndPredicateResults : Obligations.LaneAndPredicateResults := by
  refine ⟨fun op t r n x y v l => ⟨rfl, rfl, rfl, rfl, rfl, rfl, rfl⟩, ⟨by decide +kernel, by decide +kernel⟩,
    fun t a b c d => ?_, fun t a b => ⟨fun h => ?_, fun h ha hb => magnitudeKey_le_iff h ha hb, fun h ha hf hb hs => ?_⟩,
    ⟨by decide +kernel, by decide +kernel, by decide +kernel, by decide +kernel⟩, fun s c d a b => ?_, fun s c d a b => ?_⟩
  · obtain ⟨h12, h4, hall⟩ := keptBy_ranksFirst (magnitudeKey t a) (magnitudeKey t b) (magnitudeKey t c) (magnitudeKey t d)
    refine ⟨h12, h4, fun k hk h1 h2 m hm => ?_⟩
    obtain ⟨hfst, hsnd⟩ := hall k hk h1 h2
    have hkey : ∀ i < 4, magnitudeKey t ([a, b, c, d].getD i 0) = ([a, b, c, d].map (magnitudeKey t)).getD i 0 := by
      intro i hi
      interval_cases i <;> rfl
    have hm4 : m < 4 := by
      rcases hm with rfl | rfl
      · exact h12.trans h4
      · exact h4
    rw [hkey k hk, hkey m hm4]
    rcases hm with rfl | rfl
    · exact (ranksFirst_iff _ _ _).1 hfst
    · exact (ranksFirst_iff _ _ _).1 hsnd
  · simp [magnitudeKey, h]
  · have hex : natBits a t.fracBits t.expBits = 2 ^ t.expBits - 1 := by
      by_contra hne
      exact ha ⟨hs, hne⟩
    rw [magnitudeKey_nan h hex hf, magnitudeKey_float h hb]
    exact (finite_lt_infCode h hb).trans (Nat.lt_succ_self _)
  · refine ⟨fun hk => issueChecked_onWave hk rfl, fun hk => issueChecked_onWave hk rfl, fun hk => issueChecked_onWave hk rfl,
      fun op hk => ⟨?_, ?_⟩, fun op hk => issueChecked_onWave hk rfl, fun hk => issueChecked_onWave hk rfl⟩
    · rintro n rfl
      exact issueChecked_onWave hk rfl
    · rintro n rfl
      exact issueChecked_onWave hk rfl
  · refine ⟨fun i f hi hk => ?_, fun part hk => issueChecked_onWave hk rfl, fun hk => issueChecked_onWave hk rfl⟩
    rcases hi with ⟨rfl, rfl⟩ | ⟨rfl, rfl⟩ | ⟨rfl, rfl⟩
    iterate 3 exact issueChecked_onWave hk rfl

end Sys2Proof.Machine
end

