-- ==== Sys2Proof/Proofs/ScalarWords.lean ====
section
/-! The scalar moves (R164, R185 to R189) and the system registers (R166 to R169). -/

namespace Sys2Proof.Machine

section
variable {s : State} {c : Ctx} {d a b : SCode}

/-- A 32-bit result of two operands that needs no reduction is written as it is. -/
theorem scalarOp_writes_of_lt {f : Nat → Nat → Nat} (h : Issues s c (scalarOpChecks d a b c))
    (hf : f (c.scalar false a) (c.scalar false b) < 2 ^ 32) :
    scalarOp f d a b s = c.leavesWave s (c.w.swrite d.sNum 1 (f (c.scalar false a) (c.scalar false b))) :=
  issueChecked_onWave h (by rw [Nat.mod_eq_of_lt hf])

theorem scalarUnary_writes_of_lt {f : Nat → Nat} (h : Issues s c (scalarUnaryChecks d a c))
    (hf : f (c.scalar false a) < 2 ^ 32) :
    scalarUnary f d a s = c.leavesWave s (c.w.swrite d.sNum 1 (f (c.scalar false a))) :=
  issueChecked_onWave h (by rw [Nat.mod_eq_of_lt hf])

end

/-! ## SSEL to V2S -/

/-- The operands of a word that issues are legal. -/
theorem Issues.ok {s : State} {c : Ctx} {k : Checks} (h : Issues s c k) : k.ok = true := by
  by_contra hk
  have hlegal := h.legal
  rw [Ctx.decodeFault_operand (by simpa using hk)] at hlegal
  exact Option.some_ne_none _ hlegal

/-- SSEL's field d names the scalar register that it reads and writes (R185). -/
theorem ssel_writes {s : State} {c : Ctx} {d a b : SCode} (h : Issues s c (sselChecks d a b c)) :
    execSsel d a b s = c.leavesWave s (c.w.swrite d.sNum 1
      (if c.w.sread d.sNum 1 ≠ 0 then c.scalar false a else c.scalar false b)) := by
  have hd : d.isS = true := by
    have hok := h.ok
    simp only [sselChecks, Checks.all_cons_ok, Bool.and_eq_true, scalarDst_ok] at hok
    exact hok.2.1.1
  cases d with
  | s n => exact issueChecked_onWave h rfl
  | _ => simp [SCode.isS] at hd

/-- UNPACK's half of its operand: bits 15:0, or 31:16 where bit 0 of the mode is 1, extended by sign where bit 1 is (R187). -/
theorem unpack_value {x v : Nat} {mode : BitVec 2} (hx : x < 2 ^ 32)
    (h : (mode, v) ∈ ([(0, x % 2 ^ 16), (1, x / 2 ^ 16), (2, (signedOf 16 x % 2 ^ 32).toNat),
      (3, (signedOf 16 (x / 2 ^ 16) % 2 ^ 32).toNat)] : List (BitVec 2 × Nat))) :
    (let h := natBits x (if mode.getLsbD 0 then 16 else 0) 16
     if mode.getLsbD 1 then intBits 32 (signedOf 16 h) else h) = v := by
  have hlow : natBits x 0 16 = x % 2 ^ 16 := by simp [natBits]
  have hhigh : natBits x 16 16 = x / 2 ^ 16 := by simp only [natBits]; omega
  have hsigned : signedOf 16 (x % 2 ^ 16) = signedOf 16 x := by simp [signedOf]
  simp only [List.mem_cons, Prod.mk.injEq, List.not_mem_nil, or_false] at h
  rcases h with ⟨rfl, rfl⟩ | ⟨rfl, rfl⟩ | ⟨rfl, rfl⟩ | ⟨rfl, rfl⟩
  · exact hlow
  · exact hhigh
  · exact (congrArg (fun n => intBits 32 (signedOf 16 n)) hlow).trans (by rw [hsigned, intBits_eq])
  · exact (congrArg (fun n => intBits 32 (signedOf 16 n)) hhigh).trans (by rw [intBits_eq])

theorem unpack_value_lt {x v : Nat} {mode : BitVec 2} (hx : x < 2 ^ 32)
    (h : (mode, v) ∈ ([(0, x % 2 ^ 16), (1, x / 2 ^ 16), (2, (signedOf 16 x % 2 ^ 32).toNat),
      (3, (signedOf 16 (x / 2 ^ 16) % 2 ^ 32).toNat)] : List (BitVec 2 × Nat))) : v < 2 ^ 32 := by
  simp only [List.mem_cons, Prod.mk.injEq, List.not_mem_nil, or_false] at h
  rcases h with ⟨rfl, rfl⟩ | ⟨rfl, rfl⟩ | ⟨rfl, rfl⟩ | ⟨rfl, rfl⟩ <;> omega

/-- A wait for a lane-register, by what its operation waits for (R34, R388). -/
theorem Ctx.waitOn_key (c : Ctx) (s : State) (k : Nat) : c.waitOn s (fun keys => keys.contains k) =
    if c.w.isDet = false then none else if k ∈ c.w.commitKeys then some (c.awaitCommit s)
    else if k ∈ c.emptyKeys then some (c.awaitLine s) else if k ∈ c.w.laterKeys then some .stall else none := by
  simp [Ctx.waitOn]

section
variable {s : State} {c : Ctx} {d b : SCode} {a : VCode}

/-- V2S of a lane that is absent or has exited gives 0 (R188). -/
theorem v2s_gone (h : Issues s c (v2sChecks d a b c))
    (hl : (c.w.lanes (BitVec.allOnes 16) (fun x => x.ex)).getLsbD (c.scalar false b % c.w.width) = true) :
    execV2s d a b s = c.leavesWave s (c.w.swrite d.sNum 1 0) :=
  issueChecked_onWave h (by simp only [hl]; rfl)

/-- V2S of a live lane whose register is waited for waits (R34). -/
theorem v2s_waits {r : Res} (h : Issues s c (v2sChecks d a b c))
    (hl : (c.w.lanes (BitVec.allOnes 16) (fun x => x.ex)).getLsbD (c.scalar false b % c.w.width) = false)
    (hr : c.waitOn s (fun keys => keys.contains (vKey a.vNum (c.scalar false b % c.w.width))) = some r) :
    execV2s d a b s = .next (c.finish s r) := by
  refine (issueChecked_issues h _).trans ?_
  simp only [hl, Bool.not_false, if_true, hr]

/-- V2S of a live lane copies the lane's register, or records HW_ERR where it is poisoned (R139, R188). -/
theorem v2s_copies (h : Issues s c (v2sChecks d a b c))
    (hl : (c.w.lanes (BitVec.allOnes 16) (fun x => x.ex)).getLsbD (c.scalar false b % c.w.width) = false)
    (hr : c.waitOn s (fun keys => keys.contains (vKey a.vNum (c.scalar false b % c.w.width))) = none) :
    execV2s d a b s = if vKey a.vNum (c.scalar false b % c.w.width) ∈ c.w.vpoison then
        c.leavesWave s (c.w.record [laneCause c.src .hwErr (c.scalar false b % c.w.width)])
      else c.leavesWave s (c.w.swrite d.sNum 1 (c.vread a.vNum 1 (c.scalar false b % c.w.width))) := by
  refine (issueChecked_issues h _).trans ?_
  by_cases hp : vKey a.vNum (c.scalar false b % c.w.width) ∈ c.w.vpoison
  · simp only [hl, hr, hp, Bool.not_false, Bool.true_and, List.contains_iff_mem, if_true]
    rfl
  · simp only [hl, hr, hp, Bool.not_false, Bool.true_and, List.contains_iff_mem, if_true, if_false]
    rfl

end

/-- Settles O28. -/
theorem scalarMoves : Obligations.ScalarMoves := by
  refine ⟨⟨fun d a b => ?_, fun s c d a b => ?_⟩, fun s c d a p b => ?_⟩
  · have hsmov := decode_zeroFieldB (op := 0x6F) (d := d) (a := a) (b := b) (m := "SMOV") rfl
    have hmode : decode (wordOf 0x7C d a b) = checkFields "UNPACK" true true (fits 2 b)
        (.unpack (SCode.ofByte d) (SCode.ofByte a) (b.setWidth 2)) := by
      rw [decode_wordOf]
      rfl
    have hfits : fits 2 b = true ↔ b.toNat < 4 := by
      have hzero : (0 : BitVec 8).toNat = 0 := rfl
      simp only [fits, beq_iff_eq, ← BitVec.toNat_inj, BitVec.toNat_ushiftRight, Nat.shiftRight_eq_div_pow, hzero]
      omega
    refine ⟨by rw [decode_wordOf]; rfl, by rw [decode_wordOf]; rfl, by rw [decode_wordOf]; rfl,
      (decode_zeroFieldB (op := 0x6F) (m := "SMOV") rfl).1 rfl, hsmov.2, fun h => ?_, fun h => ⟨.fieldB "UNPACK", ?_⟩⟩
    · rw [hmode, hfits.2 h]
      rfl
    · have hno : fits 2 b = false := Bool.eq_false_iff.2 (fun hf => by have := hfits.1 hf; omega)
      rw [hmode, hno]
      rfl
  · have hx : c.scalar false a < 2 ^ 32 := c.scalar_lt false a
    have hpack : c.scalar false b % 2 ^ 16 * 2 ^ 16 + c.scalar false a % 2 ^ 16 < 2 ^ 32 := by omega
    refine ⟨ssel_writes, fun h => ?_, fun h => ?_, fun h => ?_, fun mode v hv h => ?_⟩
    · exact show execSmov d a s = _ from scalarUnary_writes_of_lt h hx
    · exact show execSbfe d a b s = _ from scalarOp_writes_of_lt h (bitFieldExtract_lt _ _)
    · exact show execPack d a b s = _ from scalarOp_writes_of_lt h hpack
    have hval := unpack_value hx hv
    have hlt := unpack_value_lt hx hv
    exact show execUnpack d a mode s = _ from issueChecked_onWave h
      (congrArg (fun v => c.onWave s (c.w.swrite d.sNum 1 v)) ((congrArg (· % 2 ^ 32) hval).trans (Nat.mod_eq_of_lt hlt)))
  · refine ⟨v2s_gone, c.waitOn_key s _, fun h hl hr => ⟨fun hp => ?_, fun hp => ?_⟩, fun r h => v2s_waits h,
      fun h => issueChecked_onWave h rfl⟩
    · exact (v2s_copies h hl hr).trans (if_neg hp)
    · exact (v2s_copies h hl hr).trans (if_pos hp)

/-! ## System registers -/

theorem State.writeTvec_parts (s : State) (part k : Nat) (x : DWord) : (s.writeTvec part x).parts.get? k =
    if k = part then (s.parts.get? k).map (fun p => { p with tvec := x }) else s.parts.get? k := by
  by_cases hk : k = part
  · subst hk
    simp [State.writeTvec, State.modPart, Table.get?_update]
  · simp [State.writeTvec, State.modPart, Table.get?_update, hk]

/-- A wave's causes after a write of TVEC: those of the partition keep the handler that stood (R169). -/
theorem Wave.raisedUnder_of_part {part : Nat} {old : DWord} {w : Wave} (h : w.part = part) :
    w.raisedUnder part old = { w with
      causes := w.causes.map (fun y => { y with tvec := some (y.tvec.getD old) })
      due := w.due.map (fun t => { t with causes := t.causes.map (fun y => { y with tvec := some (y.tvec.getD old) }) }) } := by
  simp [Wave.raisedUnder, h, LaneCause.raisedUnder]

theorem Wave.raisedUnder_of_other {part : Nat} {old : DWord} {w : Wave} (h : w.part ≠ part) : w.raisedUnder part old = w := by
  simp [Wave.raisedUnder, h]

/-- The resident waves after a write of TVEC. -/
theorem State.writeTvec_wave {s : State} {part k : Nat} {w : Wave} {p : Partition} (hp : s.parts.get? part = some p)
    (hw : s.waves.get? k = some w) (x : DWord) :
    (s.writeTvec part x).waves.get? k = some (w.raisedUnder part p.tvec) := by
  simp [State.writeTvec, Table.get?_mapVals, hw, hp]

section
variable {s : State} {c : Ctx} {d b : SCode} {n : BitVec 16} {r : SysReg}

/-- SYSRD writes the register's value, once what may set FX is over (R161, R168). -/
theorem sysrd_writes (hr : SysReg.ofIndex n.toNat = some r) (h : Issues s c (sysrdChecks d n c))
    (hq : ¬(r = .fx ∧ c.fxQuiet = false)) :
    execSysrd d n s = c.leavesWave s (c.w.swrite d.sNum (if r.wide then 2 else 1) (c.sysValue s r)) :=
  issueChecked_onWave h (by simp only [hr, if_neg hq])

theorem sysrd_waits (hr : SysReg.ofIndex n.toNat = some .fx) (h : Issues s c (sysrdChecks d n c))
    (hq : c.fxQuiet = false) : execSysrd d n s = .next (c.wait s) := by
  refine (issueChecked_issues h _).trans ?_
  simp only [hr, hq, true_and, if_true]
  rfl

/-- SYSWR of a register that ignores writes changes nothing (R169). -/
theorem syswr_ignored (hr : SysReg.ofIndex n.toNat = some r) (hfx : r ≠ .fx) (htv : r ≠ .tvec)
    (h : Issues s c (syswrChecks n b c)) : execSyswr n b s = c.leaves s := by
  refine (issueChecked_issues h _).trans ?_
  rw [hr]
  cases r with
  | fx => exact absurd rfl hfx
  | tvec => exact absurd rfl htv
  | _ => rfl

end

/-- An index that names no register leaves the operands illegal (R166). -/
theorem sysrdChecks_not_ok {n : BitVec 16} (h : SysReg.ofIndex n.toNat = none) (d : SCode) (c : Ctx) :
    (sysrdChecks d n c).ok = false := by
  simp [sysrdChecks, Ctx.sysChecks, h]

theorem syswrChecks_not_ok {n : BitVec 16} (h : SysReg.ofIndex n.toNat = none) (b : SCode) (c : Ctx) :
    (syswrChecks n b c).ok = false := by
  simp [syswrChecks, Ctx.sysChecks, h]

/-- A privileged register without privilege is PRIVILEGE, after ILLEGAL_OPERAND and ILLEGAL_MELD (R166, R347). -/
theorem sysrd_decodeFault {c : Ctx} {d : SCode} {n : BitVec 16} {r : SysReg} (hr : SysReg.ofIndex n.toNat = some r)
    (hp : r.isPrivileged = true) (hw : c.w.priv = false) (hm : c.melded = false) (hd : (scalarDst r.wide d).ok = true) :
    c.decodeFault (sysrdChecks d n c) = some (causesIn c.src .privilege c.exec) := by
  have hwide : sysWide (some r) = r.wide := rfl
  have hok : (sysrdChecks d n c).ok = true := by
    simp [sysrdChecks, Ctx.sysChecks, hr, hwide, hd, -scalarDst_ok]
  have hpriv : (sysrdChecks d n c).priv = false := by
    simp [sysrdChecks, Checks.all, Checks.and, Ctx.sysChecks, scalarDst, Checks.when, Checks.none]
  have hbeyond : c.beyond (sysrdChecks d n c) = 0 := by
    simp [Ctx.beyond, Ctx.lanesWith, sysrdChecks, Checks.all, Checks.and, Ctx.sysChecks, scalarDst, Checks.when, Checks.none]
  have hvalue : (sysrdChecks d n c).value = some .privilege := by
    simp [sysrdChecks, Checks.all, Checks.and, Ctx.sysChecks, hr, hp, hw]
  rw [Ctx.decodeFault_range hok (by simp [hpriv]), hbeyond, hm, hvalue]
  simp

/-- Settles O29. -/
theorem systemRegisters : Obligations.SystemRegisters := by
  intro s c d b n r
  refine ⟨fun hr hc => ⟨?_, ?_⟩, fun hr h hq => ?_, fun hr h hq => sysrd_waits hr h hq, fun hr h hq => ?_, fun hr h hq => ?_,
    fun hr h => ⟨?_, fun k => s.writeTvec_parts _ k _⟩, fun p k w x hp hw => ?_, fun p u k w x hp hu hw hpart => ?_,
    fun hr hfx htv h => syswr_ignored hr hfx htv h, fun hr hp hw hc hm hd => ?_⟩
  · exact exec_illegalOperand rfl nofun hc (sysrdChecks_not_ok hr d c)
  · exact exec_illegalOperand rfl nofun hc (syswrChecks_not_ok hr b c)
  · exact sysrd_writes hr h (fun hfx => by simp [hq hfx.1] at hfx)
  · exact issueChecked_onWave h (by simp [hr, hq])
  · refine (issueChecked_issues h _).trans ?_
    simp only [hr, hq, if_true]
    rfl
  · refine (issueChecked_issues h _).trans ?_
    simp only [hr]
    rfl
  · rw [s.writeTvec_wave hp hw]
    split
    next h => rw [Wave.raisedUnder_of_other h]
    next h => rw [Wave.raisedUnder_of_part (not_not.1 h)]
  · refine ⟨_, List.mem_map_of_mem hu, w.raisedUnder c.w.part p.tvec, rfl, ?_, ?_⟩
    · simp [Table.get?_mapVals, hw, hp]
    · rw [Wave.raisedUnder_of_part hpart]
  · exact exec_of_decodeFault rfl nofun hc (sysrd_decodeFault hr hp hw hm hd)

end Sys2Proof.Machine
end

