-- ==== Sys2Proof/Proofs/ControlWords.lean ====
section
/-! The control words 0x00 to 0x1E (R44 to R49, R111 to R134, R286, R287, R353 to R368, R393, R394). -/

namespace Sys2Proof.Machine

/-! ## How a word that issues ends -/

section
variable {s t : State} {c : Ctx} {k : Ctx → Checks} {f : Ctx → Res}

/-- A word that issues ends as its effect says. -/
theorem issueChecked_finishes {r : Res} (h : Issues s c (k c)) (hf : f c = r) :
    issueChecked s k f = .next (c.finish s r) := by
  rw [issueChecked_issues h, hf]

theorem issueChecked_next (h : Issues s c (k c)) (hf : f c = .next t) : issueChecked s k f = c.leaves t :=
  issueChecked_finishes h hf

theorem issueChecked_jumps (h : Issues s c (k c)) (hf : f c = .jump t) : issueChecked s k f = c.places t :=
  issueChecked_finishes h hf

theorem issueChecked_stalls (h : Issues s c (k c)) (hf : f c = .stall) : issueChecked s k f = .next (c.wait s) :=
  issueChecked_finishes h hf

theorem issueChecked_holds (h : Issues s c (k c)) (hf : f c = .hold t) : issueChecked s k f = .next (c.wait t) :=
  issueChecked_finishes h hf

theorem issueChecked_traps {l : List LaneCause} (h : Issues s c (k c)) (hf : f c = .trap l false) :
    issueChecked s k f = c.traps s l :=
  issueChecked_finishes h hf

end

/-! ## MODE, MELD and the words beside them (O30) -/

/-- Bits of a mask above position `i` are zero exactly when its value is below 2^i. -/
theorem extractLsb'_ne_zero_iff {w i n : Nat} (x : BitVec w) (h : w = i + n) :
    (x.extractLsb' i n != 0) = true ↔ 2 ^ i ≤ x.toNat := by
  have hx := x.isLt
  have hzero : (0 : BitVec n).toNat = 0 := by simp
  rw [bne_iff_ne, ne_eq, ← BitVec.toNat_inj, BitVec.extractLsb'_toNat, hzero, Nat.shiftRight_eq_div_pow]
  have hlt : x.toNat / 2 ^ i < 2 ^ n := by
    rw [Nat.div_lt_iff_lt_mul (by positivity), mul_comm, ← pow_add, ← h]
    exact hx
  rw [Nat.mod_eq_of_lt hlt, Nat.div_eq_zero_iff]
  have := Nat.two_pow_pos i
  omega

/-- A value of MD is illegal when it has a bit above 21, a scope above 4 or a rounding mode above 5 (R46). -/
theorem mdIllegal_iff (md : Word) : mdIllegal md = true ↔ 2 ^ 22 ≤ md.toNat ∨ 4 < mdScope md ∨ 5 < mdRnd md := by
  simp only [mdIllegal, Bool.or_eq_true, decide_eq_true_eq, extractLsb'_ne_zero_iff (i := 22) (n := 10) md rfl, or_assoc, mdRnd]

/-- A table of 18 bits is illegal when an entry of it is above 5 (R127). -/
theorem otIllegal_iff {x : Nat} (h : x < 2 ^ 18) :
    otIllegal (BitVec.ofNat 18 x) = true ↔ ∃ i < 6, 5 < natBits x (3 * i) 3 := by
  have hx : (BitVec.ofNat 18 x).toNat = x := by simpa using Nat.mod_eq_of_lt h
  simp [otIllegal, hx, List.any_eq_true, List.mem_range]

/-- The operand pair of MELD is illegal when a table has a bit above 17 or an entry above 5 (R128). -/
theorem meld_tables_illegal_iff (x y : Nat) :
    (2 ^ 18 ≤ x ∨ 2 ^ 18 ≤ y ∨ otIllegal (BitVec.ofNat 18 x) = true ∨ otIllegal (BitVec.ofNat 18 y) = true) ↔
    ((2 ^ 18 ≤ x ∨ ∃ i < 6, 5 < natBits x (3 * i) 3) ∨ 2 ^ 18 ≤ y ∨ ∃ i < 6, 5 < natBits y (3 * i) 3) := by
  by_cases hx : 2 ^ 18 ≤ x
  · simp only [hx, true_or]
  · by_cases hy : 2 ^ 18 ≤ y
    · simp only [hy, true_or, or_true]
    · simp only [hx, hy, false_or, otIllegal_iff (not_le.1 hx), otIllegal_iff (not_le.1 hy)]

/-- Settles O30. -/
theorem waveModes : Obligations.WaveModes := by
  refine ⟨fun s c a b => ?_, fun s c a b => ?_⟩
  · intro new illegal
    have hiff : mdIllegal new = true ↔ illegal := mdIllegal_iff new
    refine ⟨fun h => issueChecked_next h rfl, fun h hl => issueChecked_onWave h ?_, fun h hl => issueChecked_traps h ?_,
      fun h hm => issueChecked_onWave h (if_pos hm), fun h hm => issueChecked_traps h (by simp [hm]),
      fun h => issueChecked_onWave h rfl, fun h => issueChecked_onWave h rfl, fun k h => issueChecked_onWave h rfl,
      fun h => issueChecked_onWave h rfl, fun n h => issueChecked_onWave h rfl⟩
    · exact if_neg (mt hiff.1 hl)
    · exact if_pos (hiff.2 hl)
  · intro x y bad h
    have hiff := meld_tables_illegal_iff x y
    refine ⟨fun hm => issueChecked_traps h (if_pos hm), fun hm hb => issueChecked_traps h ?_,
      fun hm hx hy => issueChecked_onWave h ?_⟩
    · exact (if_neg (by simp [hm])).trans (if_pos (hiff.2 hb))
    · exact (if_neg (by simp [hm])).trans (if_neg (fun hb => (hiff.1 hb).elim hx hy))

/-! ## Transfers (O31) -/

/-- An address is no multiple of 4 exactly when one of its low two bits is set. -/
theorem misaligned_iff (t : DWord) : (t.extractLsb' 0 2 != 0) = true ↔ t.toNat % 4 ≠ 0 := by
  rw [bne_iff_ne, ne_eq, ← BitVec.toNat_inj, BitVec.extractLsb'_toNat]
  rfl

/-- A word that sends its gang to a target: MISALIGNED first, then WINDOW, then the transfer (R114). -/
theorem issueChecked_transfer {s : State} {c : Ctx} {k : Ctx → Checks} {f : Ctx → Res} {t : DWord} {w : Wave}
    (h : Issues s c (k c)) (hf : f c = c.transfer t (.jump (s.setWave c.key w))) :
    (t.toNat % 4 = 0 → t.toNat < 2 ^ 56 → issueChecked s k f = c.places (s.setWave c.key w)) ∧
    (t.toNat % 4 ≠ 0 → issueChecked s k f = c.traps s (c.causeAt .misaligned t)) ∧
    (t.toNat % 4 = 0 → 2 ^ 56 ≤ t.toNat → issueChecked s k f = c.traps s (c.causeAt .window t)) := by
  have hmis := misaligned_iff t
  have hwin := extractLsb'_ne_zero_iff (i := 56) (n := 8) t rfl
  refine ⟨fun ha hw => issueChecked_jumps h ?_, fun ha => issueChecked_traps h ?_, fun ha hw => issueChecked_traps h ?_⟩
  · rw [hf, Ctx.transfer, if_neg (mt hmis.1 (not_not.2 ha)), if_neg (by rw [hwin]; omega)]
  · rw [hf, Ctx.transfer, if_pos (hmis.2 ha)]
  · rw [hf, Ctx.transfer, if_neg (mt hmis.1 (not_not.2 ha)), if_pos (hwin.2 hw)]

/-- BRS's conditions on a 32-bit register (R114). -/
theorem scalarCond_iff (cond : BitVec 2) {v : Nat} (h : v < 2 ^ 32) : scalarCond cond v = true ↔
    (cond = 0 ∧ v ≠ 0) ∨ (cond = 1 ∧ v = 0) ∨ (cond = 2 ∧ 2 ^ 31 ≤ v) ∨ (cond = 3 ∧ v < 2 ^ 31) := by
  have hneg : signedOf 32 v < 0 ↔ 2 ^ 31 ≤ v := by
    simp only [signedOf, Nat.mod_eq_of_lt h]
    split <;> omega
  have hge : 0 ≤ signedOf 32 v ↔ v < 2 ^ 31 := by rw [← not_lt, hneg, not_le]
  obtain rfl | rfl | rfl | rfl : cond = 0 ∨ cond = 1 ∨ cond = 2 ∨ cond = 3 := by revert cond; decide
  · simp [scalarCond]
  · simp [scalarCond]
  · simp [scalarCond, hneg]
  · simp [scalarCond, hge]

/-- Splitting a gang changes no slice but the rejoin tags of the gang's live slices. -/
theorem Wave.split_slice (w : Wave) (g : SliceMask) {i : Nat} {x : Slice} (h : w.slices[i]? = some x) :
    ∃ m, (w.split g).slices[i]? = some { x with rjt := m } ∧ (g.getLsbD i = false → m = x.rjt) := by
  simp only [Wave.split]
  split
  · exact ⟨x.rjt, h, fun _ => rfl⟩
  · split
    · exact ⟨x.rjt, h, fun _ => rfl⟩
    · rw [mapGang_slice _ _ _ h]
      split
      next hl => exact ⟨_, rfl, fun hg => by simp [hg] at hl⟩
      next => exact ⟨x.rjt, rfl, fun _ => rfl⟩

/-- A slice of a gang that moves, up to its rejoin tag; the other slices stay. -/
theorem Ctx.moved_slice (c : Ctx) (f : Nat → Slice → Slice) {i : Nat} {x : Slice} (h : c.w.slices[i]? = some x) :
    ∃ m, (c.moved f).slices[i]? = some (if c.gang.getLsbD i then
        { f i x with age := 0, stalled := none, redirect := (f i x).pc != c.next, rjt := m } else x) := by
  obtain ⟨m, hm, hout⟩ := Wave.split_slice _ c.gang (mapGang_slice c.w c.gang (fun i x =>
    { f i x with age := 0, stalled := none, redirect := (f i x).pc != c.next }) h)
  refine ⟨m, hm.trans ?_⟩
  by_cases hg : c.gang.getLsbD i = true
  · simp [hg]
  · have hrjt := hout (by simpa using hg)
    simp only [hg, Bool.false_eq_true, if_false] at hrjt ⊢
    rw [hrjt]

/-- Settles O31. -/
theorem uniformTransfers : Obligations.UniformTransfers := by
  refine ⟨fun s c d a b cond i t link => ?_, fun c t i x hx hi => ?_⟩
  · intro rel pair v holds hi h
    have hcond : scalarCond cond v = true ↔ holds := scalarCond_iff cond (c.w.sread_lt a.sNum 1)
    rcases hi with ⟨rfl, rfl, rfl⟩ | ⟨rfl, rfl, rfl⟩ | ⟨rfl, hyes, hno, rfl⟩ | ⟨rfl, rfl, rfl⟩ | ⟨rfl, rfl, rfl⟩ | ⟨rfl, rfl, rfl⟩
    · exact issueChecked_transfer h rfl
    · exact issueChecked_transfer h rfl
    · have ht : (if scalarCond cond (c.w.sread a.sNum 1) then c.wordTarget b else c.next) = t := by
        by_cases hh : holds
        · exact (if_pos (hcond.2 hh)).trans (hyes hh).symm
        · exact (if_neg (mt hcond.1 hh)).trans (hno hh).symm
      refine issueChecked_transfer h ?_
      rw [ht]
    · exact issueChecked_transfer h rfl
    · exact issueChecked_transfer h rfl
    · exact issueChecked_transfer h rfl
  · obtain ⟨m, hm⟩ := c.moved_slice (fun _ x => x.goto t) hx
    refine ⟨rfl, fun hg => hm.trans (by simp [hg]), fun hg => ⟨_, hm.trans (by rw [if_pos hg]), ?_⟩⟩
    exact ⟨rfl, rfl, rfl, rfl, rfl, rfl, rfl, rfl, rfl, rfl, rfl⟩

/-! ## BRV and JOIN (O32) -/

/-- A slice at BRV: the entry that it pushes, and where it goes (R116). -/
theorem Slice.branch_eq (x : Slice) (taken : BitVec 4) (tt ft mg : DWord) : x.branch taken tt ft mg =
    (let e := x.executing
     let t := e &&& taken
     let entry : StackEntry := ⟨ft, mg, if t = 0 then 0 else e &&& ~~~t, x.lm⟩
     { x with
       rs := listUpdate x.rs x.rsd (fun _ => entry), rsd := x.rsd + 1, word := 0, cl := [], stood := 0, redirect := false
       pc := if t = 0 then ft else tt, lm := if t = 0 then x.lm else t }) := by
  simp only [Slice.branch, Slice.goto]
  split <;> rfl

/-- Settles O32. -/
theorem divergeAndJoin : Obligations.DivergeAndJoin := by
  intro s c a b cond tt mg p taken full
  have htt := extractLsb'_ne_zero_iff (i := 56) (n := 8) tt rfl
  have hmg := extractLsb'_ne_zero_iff (i := 56) (n := 8) mg rfl
  refine ⟨fun h ht hm hf => issueChecked_jumps h ?_, fun h ht hm hf => issueChecked_traps h ?_,
    fun h => issueChecked_jumps h ?_⟩
  · refine (if_neg (by rw [htt]; omega)).trans ((if_neg (by rw [hmg]; omega)).trans ((if_neg (by simpa using hf)).trans ?_))
    simp only [Slice.branch_eq]
    rfl
  · exact (if_neg (by rw [htt]; omega)).trans ((if_neg (by rw [hmg]; omega)).trans (if_pos (by simpa using hf)))
  · simp only [bne_iff_ne]
    rfl

/-! ## Waits and parks (O33) -/

/-- A bit of a mask, as its list of bits. -/
theorem all_bitsOf_iff {n : Nat} (m : BitVec n) (P : Nat → Bool) :
    (bitsOf m).all P = true ↔ ∀ i < n, m.getLsbD i = true → P i = true := by
  simp only [List.all_eq_true, mem_bitsOf]
  exact ⟨fun h i hi hm => h i ⟨hi, hm⟩, fun h i hi => h i hi.1 hi.2⟩

section
variable {s : State} {c : Ctx} {flags : BitVec 12}

/-- WAITF of flags that all read zero goes on (R122). -/
theorem waitf_goes_on (h : Issues s c Checks.control) (hz : ∀ n < 12, flags.getLsbD n = true → c.w.flag n = 0) :
    execWaitf flags s = c.leaves s := by
  refine issueChecked_next h (if_pos ?_)
  exact (all_bitsOf_iff flags _).2 (fun n hn hm => by simp [hz n hn hm])

/-- WAITF of a flag that is up waits, by what brings it to zero (R122, R386, R388). -/
theorem waitf_waits (h : Issues s c Checks.control) (hz : ∃ n < 12, flags.getLsbD n = true ∧ c.w.flag n ≠ 0) :
    execWaitf flags s = .next (c.finish s (
        if (bitsOf flags).any (fun n => s.commitPending c.key c.w n) then c.stallForCommit s
        else if c.w.isDet && s.waitsAtLine c.key c.w 0 (bitsOf flags) then c.awaitLine s else .stall)) := by
  obtain ⟨n, hn, hm, hne⟩ := hz
  refine issueChecked_finishes h (if_neg (fun hall => hne ?_))
  simpa using (all_bitsOf_iff flags _).1 hall n hn hm

end

theorem Ctx.stallForCommit_of_not_det {c : Ctx} (h : c.w.isDet = false) (s : State) : c.stallForCommit s = .stall := by
  simp [Ctx.stallForCommit, h]

/-- REGANG's two passes over its gang are one. -/
theorem Ctx.parked_mapGang (c : Ctx) (p : Park) (m : SliceMask) :
    { c with w := c.w.mapGang c.gang (fun _ x => { x with rgm := m }) }.parked p =
      c.w.mapGang c.gang (fun _ x => { x with
        park := p, rgm := m, age := 0, word := if c.replay then x.word else c.src.widx + 1, stalled := none }) := by
  simp only [Ctx.parked, Wave.mapGang, List.mapIdx_mapIdx]
  congr 1
  congr 1
  funext i x
  by_cases hg : c.gang.getLsbD i = true <;> simp [hg]

/-- The barriers of a kind after a change of them. -/
theorem Block.barriers_mapBarriers (b : Block) (cluster : Bool) (f : List Barrier → List Barrier) :
    (b.mapBarriers cluster f).barriers cluster = f (b.barriers cluster) := by
  cases cluster <;> rfl

/-- An arrival that counts: the wave's quantum ends, and its block's barrier holds the wave and the tick (R123, R126). -/
theorem State.noteArrival_notes {t : State} {k id : Nat} {cluster : Bool} {w : Wave} {b : Block} {bar : Barrier}
    (hw : t.waves.get? k = some w) (hb : t.blocks.get? w.block = some b)
    (ha : w.arrivedAt (barrierPark cluster id) = true) (hbar : (b.barriers cluster)[id]? = some bar) :
    (t.noteArrival k cluster id).waves.get? k = some w.endQuantum ∧
    ∃ b', (t.noteArrival k cluster id).blocks.get? w.block = some b' ∧ (b'.barriers cluster)[id]? =
      some { bar with arrived := bar.arrived ||| bitMask 64 w.index, last := t.time } := by
  simp only [State.noteArrival, hw, ha, if_true]
  refine ⟨by simp [State.endQuantum, State.modBlock, State.modWave, Table.get?_update, hw],
    _, by simp [State.modBlock, State.endQuantum, State.modWave, Table.get?_update, hb]; rfl, ?_⟩
  rw [Block.barriers_mapBarriers]
  simp [listUpdate, List.getElem?_mapIdx, hbar]

section
variable {s t : State} {c : Ctx} {a : VCode}

/-- MON with its line's translation there sends its registration (R286). -/
theorem mon_registers {g h : Granted} (hk : Issues s c (monChecks a c)) (hheld : c.accessHeld = false)
    (hg : s.check c.w c.blk c.src
      ⟨(bitsOf c.exec).headD 0, c.addressOf a 0, 1, 1, [0x00, 0xF0, 0xF1, 0xF2], false, .unchecked⟩ = .ok g)
    (hwalk : s.awaitWalks c.w [g] = none) (hr : s.resolve c.key c.w c.src g = (t, .ok h)) :
    execMon a s = c.leaves ((t.useAnswers c.w.asker.who).modWave c.key
      (fun w => { w with monitor := .sent h.loc.line c.now })) :=
  issueChecked_next hk (by simp only [hheld, Bool.false_eq_true, if_false, hg, hwalk, hr])

/-- MON whose line has no translation yet waits for the walk (R233). -/
theorem mon_waits {g : Granted} (hk : Issues s c (monChecks a c)) (hheld : c.accessHeld = false)
    (hg : s.check c.w c.blk c.src
      ⟨(bitsOf c.exec).headD 0, c.addressOf a 0, 1, 1, [0x00, 0xF0, 0xF1, 0xF2], false, .unchecked⟩ = .ok g)
    (hwalk : s.awaitWalks c.w [g] = some t) : execMon a s = .next (c.finish s (.hold t)) :=
  issueChecked_finishes hk (by simp only [hheld, Bool.false_eq_true, if_false, hg, hwalk])

/-- MWAIT with a limit, past the end of its quantum: by its wave's monitor (R287). -/
theorem mwait_acts (hk : Issues s c (mwaitChecks a c)) (hdet : ∀ e, c.w.det = some e → e.past = some c.gang)
    (hl : c.operand (.data 1) a 0 ≠ 0) : execMwait a s = .next (c.finish s (
      match c.w.monitor with
      | .off | .fired => c.onWave s { c.w with monitor := .off }
      | _ => .jump (s.setWave c.key (c.parked (.mwait c.src (c.operand (.data 1) a 0)
          (c.now + c.operand (.data 1) a 0)))))) :=
  issueChecked_finishes hk ((if_neg hl).trans (c.afterQuantum_past hdet s _))

end

/-- Settles O33. -/
theorem waitsAndParks : Obligations.WaitsAndParks := by
  intro s c a
  refine ⟨fun h => issueChecked_jumps h ?_, fun h => issueChecked_jumps h rfl, fun flags => waitf_goes_on,
    fun flags h hz hdet => ?_, fun flags => waitf_waits,
    fun cluster id t w b hw hb ha bar hbar => State.noteArrival_notes hw hb ha hbar,
    fun id h => issueChecked_jumps h rfl, fun id h => issueChecked_jumps h rfl,
    fun hk hheld g t h hg => ⟨mon_registers hk hheld hg, mon_waits hk hheld hg⟩,
    fun h hdet hl => ⟨fun hm => ?_, fun hm => ?_⟩, fun h hl => issueChecked_traps h (if_pos hl)⟩
  · exact congrArg (fun w : Wave => Res.jump (s.setWave c.key { w with hintValid := false })) (c.parked_mapGang .regang _)
  · refine (waitf_waits h hz).trans ?_
    rw [Ctx.stallForCommit_of_not_det hdet]
    simp only [hdet, Bool.false_and, Bool.false_eq_true, if_false, ite_self]
    rfl
  · refine (mwait_acts h hdet hl).trans ?_
    obtain hm | hm := hm
    · simp only [hm]
      rfl
    · simp only [hm]
      rfl
  · refine (mwait_acts h hdet hl).trans ?_
    obtain ⟨l, t, hm | hm | hm⟩ := hm
    · simp only [hm]
      rfl
    · simp only [hm]
      rfl
    · simp only [hm]
      rfl

/-! ## Ends and traps (O34) -/

/-- What EXIT does with a slice does not depend on the steps allowed, once there are more than its stack has entries. -/
theorem Slice.afterExit_succ {n : Nat} {x : Slice} (h : x.rsd < n) : Slice.afterExit (n + 1) x = Slice.afterExit n x := by
  induction n generalizing x with
  | zero => omega
  | succ n ih =>
    rw [Slice.afterExit.eq_2 x n, Slice.afterExit]
    by_cases h0 : x.rsd = 0
    · simp only [h0, if_true]
    · have hrec := ih (x := { x with rsd := x.rsd - 1 }) (show x.rsd - 1 < n by omega)
      rw [hrec]

/-- The first cause is the deferred trap's presence (R347). -/
theorem Wave.deferredOf_of_causes {w : Wave} {g : SliceMask} (h : w.causesOf g = []) : w.deferredOf g = none := by
  simp [Wave.deferredOf, h, deferredTrap]

/-- Settles O34. -/
theorem endsAndTraps : Obligations.EndsAndTraps := by
  refine ⟨fun x => ?_, fun x m => rfl, fun s c a x l => ?_⟩
  · intro y at_
    refine ⟨fun h => if_pos h, fun h hp => ?_, fun h hp ho => ?_, fun h h16 hp ho => ?_⟩
    · exact (if_neg (by omega)).trans (if_pos (by simpa using hp))
    · exact (if_neg (by omega)).trans ((if_neg (by simpa using hp)).trans (if_pos (by simpa using ho)))
    · rw [Slice.afterExit_succ (n := 16) (show x.rsd - 1 < 16 by omega)]
      exact (if_neg (by omega)).trans ((if_neg (by simpa using hp)).trans (if_neg (by simpa using ho)))
  · refine ⟨fun h hs hc hdet => issueChecked_jumps h ?_, fun h hs hc hdet hp => issueChecked_stalls h ?_,
      fun t h hs ht => issueChecked_next h ?_, fun h hs => issueChecked_traps h (if_pos hs), fun h hl => ?_,
      fun h hin => issueChecked_traps h (by simp [hin]), fun h hin hc => issueChecked_jumps h ?_,
      fun t h hin ht => issueChecked_jumps h ?_⟩
    · have hgo : (!c.w.isDet && !c.performedAt c.exec (c.operand (.data 1) a 0)) = false := by
        obtain hdet | hdet := hdet <;> simp [hdet]
      simp only [if_neg (not_lt.2 hs), Wave.deferredOf_of_causes hc, hgo, Bool.false_eq_true, if_false]
    · simp only [if_neg (not_lt.2 hs), Wave.deferredOf_of_causes hc, hdet, hp, Bool.not_false, Bool.and_true, if_true]
    · simp only [if_neg (not_lt.2 hs), ht, Wave.owe]
    · refine (issueChecked_finishes h (congrArg (fun l => Res.trap l true) hl)).trans ?_
      rfl
    · simp only [hin, Wave.deferredOf_of_causes hc, Bool.not_true, Bool.false_eq_true, if_false]
    · simp only [hin, ht, Bool.not_true, Bool.false_eq_true, if_false]

end Sys2Proof.Machine
end

