-- ==== Sys2Proof/Proofs/MemoryWords.lean ====
section
/-! The memory words (R259 to R282): what an access does when it issues (`Ctx.access`), and the words that issue one. -/

namespace Sys2Proof.Machine

/-! ## The mark of a store -/

/-- IDEM and SIDE after a word that marks its wave, or not (R265, R365). -/
theorem Ctx.marked_eq (c : Ctx) (marks : Bool) (asks : List Ask) (w : Wave) :
    (if marks then c.sideEffect asks w else w) =
      { w with
        idem := w.idem && !(marks && asks.any (fun x => x.addr / 2 ^ 56 == 0 && c.act != 0))
        side := w.side || (marks && asks.any (fun x => x.addr / 2 ^ 56 == 0 && c.act != 0)) } := by
  cases marks
  · simp
  · simp only [Bool.true_and, if_true]
    exact c.sideEffect_eq asks w

/-- A flag that rises changes no other part of its wave (R31). -/
theorem Wave.flagUp_eq (w : Wave) (f : Option Nat) : ∃ flags, w.flagUp f = { w with flags := flags } := by
  cases f with
  | none => exact ⟨w.flags, rfl⟩
  | some n => exact ⟨_, rfl⟩

@[simp] theorem Wave.flagUp_memOps (w : Wave) (f : Option Nat) : (w.flagUp f).memOps = w.memOps := by
  obtain ⟨flags, h⟩ := w.flagUp_eq f
  rw [h]

@[simp] theorem Wave.flagUp_det (w : Wave) (f : Option Nat) : (w.flagUp f).det = w.det := by
  obtain ⟨flags, h⟩ := w.flagUp_eq f
  rw [h]

/-! ## One access -/

section
variable {s : State} {c : Ctx}

/-- A commit buffer that takes an access: it is empty, or the lines fit (R386). -/
theorem DetWave.overflows_eq_false {e : DetWave} {units : List MemUnit}
    (h : e.buffer = [] ∨ (e.lines ++ units.map (fun u => u.loc.line)).eraseDups.length ≤ 256) :
    e.overflows units = false := by
  obtain h | h := h
  · simp [DetWave.overflows, h]
  · simp [DetWave.overflows, not_lt.2 h]

theorem DetWave.overflows_eq_true {e : DetWave} {units : List MemUnit} (hb : e.buffer ≠ [])
    (h : 256 < (e.lines ++ units.map (fun u => u.loc.line)).eraseDups.length) : e.overflows units = true := by
  simp [DetWave.overflows, hb, h]

/-- A deterministic wave's store to lane memory alone performs at once (R387). -/
theorem Ctx.access_det_lane_memory {kind : MemKind} {asks : List Ask} {mk : Granted → List MemUnit} (hd : c.w.isDet = true)
    (hh : c.accessHeld = false) (hk : ∀ x y, kind ≠ .load x y) (ha : c.awaitWalks s asks = none) (size : Nat)
    (sx counted marks : Bool)
    (hp : ∀ u ∈ (c.prepare s kind.reads asks).2.1.flatMap mk, ∃ x, u.loc = .priv x) :
    let q := c.prepare s kind.reads asks
    let o := c.newOp kind size sx false counted (q.2.1.flatMap mk)
    c.access s kind size sx false counted marks asks mk =
      .next ((o.units.foldl (fun s u => (s.performUnit c.w.core o u).1) q.1).modWave c.key
        (fun w => (if marks then c.sideEffect asks w else w).record q.2.2)) := by
  intro q o
  obtain ⟨e, he⟩ : ∃ e, c.w.det = some e := Option.isSome_iff_exists.1 hd
  have hpriv : (o.units.all (fun u => match u.loc with
      | .priv _ => true
      | _ => false) && !false) = true := by
    simp only [Bool.not_false, Bool.and_true, List.all_eq_true]
    intro u hu
    obtain ⟨x, hx⟩ := hp u hu
    rw [hx]
  unfold Ctx.access
  simp only [hh, Bool.false_eq_true, if_false, he, ha]
  cases kind with
  | load x y => exact absurd rfl (hk x y)
  | _ => exact if_pos hpriv

end

/-! ## Loads (R262, R266, R267) -/

/-- The operation of a load word for the accesses granted. -/
def Ctx.loadOp (c : Ctx) (strong acquire sx : Bool) (d n : Nat) (l : List Granted) : MemOp :=
  c.newOp (.load strong acquire) n sx true true (l.flatMap (fun g => unitsOf g strong n 0 0 (c.phys d g.ask.lane)))

section
variable {s : State} {c : Ctx} {o : Host.Outcome State Fault Refusal} {strong acquire sx : Bool} {d n : Nat}
  {windows : List Nat} {addr : Nat → Nat}
  (ho : o = .next (c.finish s (c.load s strong acquire d n sx windows addr)))
include ho

theorem load_issues (hd : c.w.isDet = false) (hh : c.accessHeld = false) :
    let r := s.checkAll c.w c.blk c.src (c.asksAt n n windows false .load addr)
    s.slotsFree c.w (c.loadOp strong acquire sx d n r.1) = true →
    o = c.leaves ((s.modWave c.key (fun w =>
      { (w.record r.2).flagUp (hdrSetA c.src.hdr) with
        memOps := w.memOps ++ [c.loadOp strong acquire sx d n r.1] })).depart c.key) := by
  intro r hs
  rw [ho, Ctx.load, Ctx.access_issues hd hh _ _ _ _ _ _ _ _ hs]
  simp only [Bool.false_eq_true, Bool.true_eq_false, and_false, if_false, if_true]
  rfl

theorem load_waits (hd : c.w.isDet = false)
    (h : c.accessHeld = true ∨ s.slotsFree c.w (c.loadOp strong acquire sx d n
      (s.checkAll c.w c.blk c.src (c.asksAt n n windows false .load addr)).1) = false) : o = .next (c.wait s) := by
  rw [ho, Ctx.load]
  cases hh : c.accessHeld with
  | true => rw [Ctx.access_held hh]; rfl
  | false =>
    rw [hh] at h
    rw [Ctx.access_full hd hh _ _ _ _ _ _ _ _ (h.resolve_left (by simp))]
    rfl

theorem load_walks {t : State} (hh : c.accessHeld = false)
    (ha : c.awaitWalks s (c.asksAt n n windows false .load addr) = some t) : o = .next (c.wait t) := by
  rw [ho, Ctx.load, Ctx.access_det_walks hh ha]
  rfl

theorem load_views {e : DetWave} (hd : c.w.det = some e) (hh : c.accessHeld = false)
    (ha : c.awaitWalks s (c.asksAt n n windows false .load addr) = none) :
    let q := c.prepare s true (c.asksAt n n windows false .load addr)
    let op := c.loadOp strong acquire sx d n q.2.1
    let view := q.1.detView c.w.core e
    (∀ u ∈ op.units, view.lineEmpty u.loc = true ∨ view.poisoned u.loc = false) →
    o = c.leaves (q.1.modWave c.key (fun w => { (w.record q.2.2).flagUp (hdrSetA c.src.hdr) with
      memOps := w.memOps ++ [{ op with units := op.units.map (MemUnit.viewed view s.time) }] })) := by
  intro q op view hv
  rw [ho, Ctx.load, Ctx.access_det_load hd hh _ _ _ _ _ _ _ _ _ ha hv]
  simp only [Bool.not_true, Bool.and_false, Bool.false_eq_true, if_false, Wave.flagUp_memOps, Wave.record_memOps]
  rfl

end

/-- GATH and SCAT issue only with an element type whose elements are bytes (R267). -/
theorem gathSize_of_ok {t : Ty} (h : (gathSize t).isSome = true) : (gathSize t).getD 1 = t.bits / 8 := by
  cases t <;> first
    | rfl
    | simp [gathSize] at h

/-! ## Stores, atomics and full/empty updates (R262, R265 to R271, R282) -/

/-- The wave after the checks of a word that marks it or not: its mark and the causes of the lanes that fail. -/
def Ctx.marked (c : Ctx) (marks : Bool) (asks : List Ask) (w : Wave) (l : List LaneCause) : Wave :=
  Wave.record { w with
    idem := w.idem && !(marks && asks.any (fun x => x.addr / 2 ^ 56 == 0 && c.act != 0))
    side := w.side || (marks && asks.any (fun x => x.addr / 2 ^ 56 == 0 && c.act != 0)) } l

section
variable {s : State} {c : Ctx} {o : Host.Outcome State Fault Refusal} {kind : MemKind} {ret marks : Bool} {n : Nat}
  {asks : List Ask} {mk : Granted → List MemUnit}
  (ho : o = .next (c.finish s (c.access s kind n false ret ret marks asks mk)))
include ho

/-- Outside a deterministic launch the operation joins the wave's outstanding accesses. -/
theorem access_issues (hd : c.w.isDet = false) (hh : c.accessHeld = false) :
    let r := s.checkAll c.w c.blk c.src asks
    let op := c.newOp kind n false ret ret (r.1.flatMap mk)
    s.slotsFree c.w op = true →
    o = c.leaves ((s.modWave c.key (fun w =>
      { (c.marked marks asks w r.2).flagUp (if ret then hdrSetA c.src.hdr else none) with
        memOps := w.memOps ++ if op.units = [] ∧ ret = false then [] else [op] })).depart c.key) := by
  intro r op hs
  rw [ho, Ctx.access_issues hd hh _ _ _ _ _ _ _ _ hs]
  simp only [c.marked_eq]
  rfl

theorem access_waits (hd : c.w.isDet = false)
    (h : c.accessHeld = true ∨ s.slotsFree c.w (c.newOp kind n false ret ret
      ((s.checkAll c.w c.blk c.src asks).1.flatMap mk)) = false) : o = .next (c.wait s) := by
  rw [ho]
  cases hh : c.accessHeld with
  | true => rw [Ctx.access_held hh]; rfl
  | false =>
    rw [hh] at h
    rw [Ctx.access_full hd hh _ _ _ _ _ _ _ _ (h.resolve_left (by simp))]
    rfl

theorem access_walks {t : State} (hh : c.accessHeld = false) (ha : c.awaitWalks s asks = some t) : o = .next (c.wait t) := by
  rw [ho, Ctx.access_det_walks hh ha]
  rfl

/-- In a deterministic launch it joins the commit buffer, or ends the quantum when its lines do not fit (R386). -/
theorem access_buffers {e : DetWave} (hk : ∀ x y, kind ≠ .load x y) (hd : c.w.det = some e) (hh : c.accessHeld = false)
    (ha : c.awaitWalks s asks = none) :
    let q := c.prepare s kind.reads asks
    let op := c.newOp kind n false ret ret (q.2.1.flatMap mk)
    (ret = true ∨ ∃ u ∈ op.units, ∀ x, u.loc ≠ .priv x) →
    let lines := (e.lines ++ op.units.map (fun u => u.loc.line)).eraseDups
    ((e.buffer = [] ∨ lines.length ≤ 256) → o = c.leaves (q.1.modWave c.key (fun w =>
      { (c.marked marks asks w q.2.2).flagUp (if ret then hdrSetA c.src.hdr else none) with
        det := w.det.map (fun d => { d with buffer := d.buffer ++ [.mem op] }) }))) ∧
    (e.buffer ≠ [] → 256 < lines.length → o =
      .next (c.wait (s.modWave c.key (fun w => { w with det := w.det.map (fun d => { d with ended := true }) })))) := by
  intro q op hp lines
  rw [ho, Ctx.access_det_buffers hd hh kind hk _ _ _ _ _ _ mk ha hp]
  refine ⟨fun hb => ?_, fun hb hl => ?_⟩
  · have hno : e.overflows op.units = false := DetWave.overflows_eq_false hb
    have hflag : (if ret then op.flag else none) = if ret then hdrSetA c.src.hdr else none := by cases ret <;> rfl
    refine (congrArg (fun r => Host.Outcome.next (c.finish s r)) (if_neg (ne_true_of_eq_false hno))).trans ?_
    simp only [c.marked_eq, Wave.flagUp_det, Wave.record_det]
    rw [show (c.newOp kind n false ret ret ((c.prepare s kind.reads asks).2.1.flatMap mk)).flag = op.flag from rfl, hflag]
    rfl
  · have hyes : e.overflows op.units = true := DetWave.overflows_eq_true hb hl
    exact congrArg (fun r => Host.Outcome.next (c.finish s r)) (if_pos hyes)

end

section
variable {s : State} {c : Ctx} {o : Host.Outcome State Fault Refusal} {kind : MemKind} {marks : Bool} {n : Nat}
  {asks : List Ask} {mk : Granted → List MemUnit}
  (ho : o = .next (c.finish s (c.access s kind n false false false marks asks mk)))
include ho

/-- A posted operation with no unit is none. -/
theorem posted_issues (hd : c.w.isDet = false) (hh : c.accessHeld = false) :
    let r := s.checkAll c.w c.blk c.src asks
    let op := c.newOp kind n false false false (r.1.flatMap mk)
    s.slotsFree c.w op = true →
    o = c.leaves ((s.modWave c.key (fun w =>
      { c.marked marks asks w r.2 with memOps := w.memOps ++ if op.units = [] then [] else [op] })).depart c.key) := by
  intro r op hs
  refine (access_issues ho hd hh hs).trans ?_
  simp only [and_true, Bool.false_eq_true, if_false, Wave.flagUp_none]
  rfl

/-- A deterministic wave's operation on lane memory alone performs at once (R387). -/
theorem posted_lane_memory (hk : ∀ x y, kind ≠ .load x y) (hd : c.w.isDet = true) (hh : c.accessHeld = false)
    (ha : c.awaitWalks s asks = none) :
    let q := c.prepare s kind.reads asks
    let op := c.newOp kind n false false false (q.2.1.flatMap mk)
    (∀ u ∈ op.units, ∃ x, u.loc = .priv x) →
    o = c.leaves ((op.units.foldl (fun s u => (s.performUnit c.w.core op u).1) q.1).modWave c.key
      (fun w => c.marked marks asks w q.2.2)) := by
  intro q op hp
  rw [ho, Ctx.access_det_lane_memory hd hh hk ha _ _ _ _ hp]
  simp only [c.marked_eq]
  rfl

end

/-- Settles O35. -/
theorem loadsAndStoresIssue : Obligations.LoadsAndStoresIssue := by
  constructor
  · intro s c d a b x y w i strong acquire sx n windows addr any k el hi h
    have ho : exec i s = .next (c.finish s (c.load s strong acquire d.vNum n sx windows addr)) := by
      rcases hi with ⟨hm, rfl⟩ | ⟨rfl, ht, rfl⟩ | ⟨rfl, ht, rfl⟩ | ⟨rfl, ht, rfl⟩ | ⟨rfl, ht, rfl⟩
      · simp only [List.mem_cons, Prod.mk.injEq, List.not_mem_nil, or_false] at hm
        rcases hm with ⟨rfl, rfl, rfl, rfl, rfl, rfl⟩ | ⟨rfl, rfl, rfl, rfl, rfl, rfl⟩ | ⟨rfl, rfl, rfl, rfl, rfl, rfl⟩
        iterate 3 exact issueChecked_finishes h rfl
      · simp only [Prod.mk.injEq] at ht
        obtain ⟨rfl, rfl, rfl, rfl, rfl⟩ := ht
        exact issueChecked_finishes h rfl
      · simp only [Prod.mk.injEq] at ht
        obtain ⟨rfl, rfl, rfl, rfl, rfl⟩ := ht
        exact issueChecked_finishes h rfl
      · simp only [Prod.mk.injEq] at ht
        obtain ⟨rfl, rfl, rfl, rfl, rfl⟩ := ht
        exact issueChecked_finishes h rfl
      · simp only [Prod.mk.injEq] at ht
        obtain ⟨rfl, rfl, rfl, rfl, rfl⟩ := ht
        have hok : (gathChecks d a b c).ok = true := h.ok
        simp only [gathChecks, Checks.all_cons_ok, Checks.when_ok, Bool.and_eq_true] at hok
        refine issueChecked_finishes h ?_
        simp only [gathSize_of_ok hok.2.1]
        rfl
    exact ⟨load_issues ho, load_waits ho, fun t => load_walks ho, fun e => load_views ho⟩
  · intro s c d a b y w i strong release marks n windows addr data any k el hi h
    have ho : exec i s = .next (c.finish s (c.store s strong release marks n windows addr (c.operand data d))) := by
      rcases hi with ⟨hm, rfl, rfl⟩ | ⟨rfl, ht, rfl, rfl⟩ | ⟨rfl, ht, rfl, rfl⟩ | ⟨rfl, ht, rfl, rfl⟩ | ⟨rfl, ht, rfl, rfl⟩
      · simp only [List.mem_cons, Prod.mk.injEq, List.not_mem_nil, or_false] at hm
        rcases hm with ⟨rfl, rfl, rfl, rfl, rfl, rfl⟩ | ⟨rfl, rfl, rfl, rfl, rfl, rfl⟩ | ⟨rfl, rfl, rfl, rfl, rfl, rfl⟩ |
          ⟨rfl, rfl, rfl, rfl, rfl, rfl⟩
        iterate 4 exact issueChecked_finishes h rfl
      · simp only [Prod.mk.injEq] at ht
        obtain ⟨rfl, rfl, rfl, rfl, rfl⟩ := ht
        exact issueChecked_finishes h rfl
      · simp only [Prod.mk.injEq] at ht
        obtain ⟨rfl, rfl, rfl, rfl, rfl⟩ := ht
        exact issueChecked_finishes h rfl
      · simp only [Prod.mk.injEq] at ht
        obtain ⟨rfl, rfl, rfl, rfl, rfl⟩ := ht
        exact issueChecked_finishes h rfl
      · simp only [Prod.mk.injEq] at ht
        obtain ⟨rfl, rfl, rfl, rfl, rfl⟩ := ht
        have hok : (scatChecks d a b c).ok = true := h.ok
        simp only [scatChecks, Checks.all_cons_ok, Checks.when_ok, Bool.and_eq_true] at hok
        refine issueChecked_finishes h ?_
        simp only [gathSize_of_ok hok.2.1]
        rfl
    exact ⟨posted_issues ho, access_waits ho, fun t => access_walks ho, posted_lane_memory ho nofun,
      fun e hd hh ha hp => access_buffers ho nofun hd hh ha (.inr hp)⟩

/-- Settles O36. -/
theorem atomicsIssue : Obligations.AtomicsIssue := by
  intro s c d a b i op t
  refine ⟨fun hi h hh => ?_, fun full hi h hh => ?_⟩
  · intro chip n asks x made r q side marked
    -- the on-chip atomics mark no side effect
    have ho : exec i s = .next (c.finish s (c.access s (.atomic op) n false d.isV d.isV (decide (¬ chip)) asks
        (fun g => unitsOf g true n (if op = .cas then x g.ask.lane / 2 ^ t.bits else x g.ask.lane) (x g.ask.lane % 2 ^ t.bits)
          (c.phys d.vNum g.ask.lane)))) := by
      simp only [List.mem_cons, Prod.mk.injEq, List.not_mem_nil, or_false] at hi
      rcases hi with ⟨rfl, rfl⟩ | ⟨rfl, rfl⟩ | ⟨rfl, rfl⟩ | ⟨rfl, rfl⟩ | ⟨rfl, rfl⟩ | ⟨rfl, rfl⟩ | ⟨rfl, rfl⟩ | ⟨rfl, rfl⟩ |
        ⟨rfl, rfl⟩ | ⟨rfl, rfl⟩ | ⟨rfl, rfl⟩ | ⟨rfl, rfl⟩ | ⟨rfl, rfl⟩ | ⟨rfl, rfl⟩
      all_goals
        refine issueChecked_finishes h ?_
        simp only [asks, chip, reduceCtorEq, or_self, or_true, true_or, not_true, not_false_iff, decide_true, decide_false, if_true, if_false]
        rfl
    refine ⟨fun hd hs => ?_, fun e hd ha hp hb => ?_⟩
    · exact access_issues ho hd hh hs
    · exact (access_buffers ho nofun hd hh ha hp).1 hb
  · have ho : exec i s = .next (c.finish s (c.access s (.fe full) 1 false false false false
        (c.asksAt 1 1 [0xF0, 0xF1] true .unchecked (c.addressOf a)) (fun g => unitsOf g false 1 0 0 0))) := by
      cases full with
      | true => subst hi; exact issueChecked_finishes h rfl
      | false => subst hi; exact issueChecked_finishes h rfl
    have hmark (asks : List Ask) (w : Wave) (l : List LaneCause) : c.marked false asks w l = w.record l := by
      simp [Ctx.marked]
    refine ⟨fun hd hs => ?_, fun e hd ha hp hb => ?_⟩
    · have hout := posted_issues ho hd hh hs
      simp only [hmark] at hout
      exact hout
    · have hout := (access_buffers ho nofun hd hh ha (.inr hp)).1 hb
      simp only [hmark, Bool.false_eq_true, if_false, Wave.flagUp_none] at hout
      exact hout

/-! ## Fences, INVL1 and LEASE (R251, R273 to R276) -/

section
variable {s : State} {k : Nat} {w : Wave} {g : SliceMask} {m : LaneMask}

/-- What some lanes of some slices have issued is done when nothing of it is out (R251, R256, R280). -/
theorem State.accessesDone_iff : s.accessesDone k w g m = true ↔
    (∀ o ∈ w.memOps, o.kind.isAccess = true → o.kind.isProbe = false → ∀ u ∈ o.units,
      (m.getLsbD u.lane = true ∨ (o.kind.isBarrier = true ∧ meets o.gang g = true)) → u.out = false) ∧
    ∀ t ∈ s.tileAccesses k w, meets t.gang g = false := by
  simp only [State.accessesDone, Bool.and_eq_true, List.all_eq_true, Bool.or_eq_true, Bool.not_eq_true',
    Bool.and_eq_false_iff, Bool.or_eq_false_iff]
  refine and_congr (forall₂_congr fun o _ => ?_) Iff.rfl
  constructor
  · rintro ((hacc | hprobe) | hall) ha hp u hu hlane
    · simp [ha] at hacc
    · simp [hp] at hprobe
    · rcases hall u hu with hno | hout
      · exfalso
        rcases hlane with hl | ⟨hb, hm⟩
        · simp [hl] at hno
        · simp [hb, hm] at hno
      · exact hout
  · intro h
    cases ha : o.kind.isAccess with
    | false => exact .inl (.inl rfl)
    | true =>
      cases hp : o.kind.isProbe with
      | true => exact .inl (.inr rfl)
      | false =>
        refine .inr fun u hu => ?_
        have hout := h ha hp u hu
        cases hl : m.getLsbD u.lane with
        | true => exact .inr (hout (.inl hl))
        | false =>
          cases hb : o.kind.isBarrier with
          | false => exact .inl ⟨rfl, .inl rfl⟩
          | true =>
            cases hm : meets o.gang g with
            | false => exact .inl ⟨rfl, .inr rfl⟩
            | true => exact .inr (hout (.inr ⟨hb, hm⟩))

end

section
variable {s : State} {c : Ctx}

/-- FENCE past the end of its quantum: it completes, or holds back the accesses of the wave's other gangs (R273). -/
theorem fence_acts (h : Issues s c Checks.control) (hdet : ∀ e, c.w.det = some e → e.past = some c.gang)
    (hf : c.w.fencing = none ∨ c.w.fencing = some c.gang) : execFence s = .next (c.finish s (
      if s.accessesDone c.key c.w (BitVec.allOnes 16) (BitVec.allOnes 64) && decide (c.w.times.at_ (mdScope c.w.md) ≤ c.now) &&
          (decide (mdScope c.w.md < 4) || s.injected c.key c.w (BitVec.allOnes 16)) then
        c.onWave (s.dropReads c.w.core) { c.w with fencing := none }
      else .hold (s.modWave c.key (fun w =>
        { (if c.w.loadsReturning then w else w.endQuantum) with fencing := some c.gang })))) := by
  have hmine : ¬ c.w.fencing.any (fun g => g != c.gang) = true := by
    obtain hf | hf := hf <;> simp [hf]
  exact issueChecked_finishes h ((c.afterQuantum_past hdet s _).trans (if_neg hmine))

theorem fence_completes (h : Issues s c Checks.control) (hdet : ∀ e, c.w.det = some e → e.past = some c.gang)
    (hf : c.w.fencing = none ∨ c.w.fencing = some c.gang)
    (hops : ∀ o ∈ c.w.memOps, o.kind.isAccess = true → o.kind.isProbe = false → ∀ u ∈ o.units, u.out = false)
    (htiles : s.tileAccesses c.key c.w = []) (htime : c.w.times.at_ (mdScope c.w.md) ≤ c.now)
    (hsent : mdScope c.w.md < 4 ∨ s.injected c.key c.w (BitVec.allOnes 16) = true) :
    execFence s = .next (c.retire ((s.dropReads c.w.core).setWave c.key { c.w with fencing := none }) c.advance) := by
  have hdone : s.accessesDone c.key c.w (BitVec.allOnes 16) (BitVec.allOnes 64) = true :=
    State.accessesDone_iff.2 ⟨fun o ho ha hp u hu _ => hops o ho ha hp u hu, by simp [htiles]⟩
  rw [fence_acts h hdet hf, if_pos]
  · rfl
  · simp only [hdone, Bool.true_and, Bool.and_eq_true, Bool.or_eq_true, decide_eq_true_eq]
    exact ⟨htime, hsent⟩

theorem fence_waits (h : Issues s c Checks.control) (hdet : ∀ e, c.w.det = some e → e.past = some c.gang)
    (hf : c.w.fencing = none ∨ c.w.fencing = some c.gang)
    (hwait : c.now < c.w.times.at_ (mdScope c.w.md) ∨ ∃ o ∈ c.w.memOps, o.kind.isAccess = true ∧ o.kind.isProbe = false ∧
      ∃ u ∈ o.units, u.lane < 64 ∧ u.out = true) :
    execFence s = .next (c.wait (s.modWave c.key (fun w =>
      { (if c.w.loadsReturning then w else w.endQuantum) with fencing := some c.gang }))) := by
  rw [fence_acts h hdet hf, if_neg]
  · rfl
  · intro hgo
    simp only [Bool.and_eq_true, decide_eq_true_eq] at hgo
    obtain ⟨⟨hdone, htime⟩, -⟩ := hgo
    obtain hlt | ⟨o, ho, ha, hp, u, hu, hlane, hout⟩ := hwait
    · omega
    · have hno := (State.accessesDone_iff.1 hdone).1 o ho ha hp u hu (.inl (by rw [BitVec.getLsbD_allOnes, decide_eq_true hlane]))
      simp [hout] at hno

theorem fencel_completes {scope : BitVec 3} (h : Issues s c (fencelChecks scope))
    (hdet : ∀ e, c.w.det = some e → e.past = some c.gang) (hdone : s.accessesDone c.key c.w c.gang c.exec = true)
    (htime : ∀ (i : Nat) (x : Slice), c.gang.getLsbD i = true → c.w.slices[i]? = some x → x.times.at_ scope.toNat ≤ c.now)
    (hsent : scope.toNat < 4 ∨ s.injected c.key c.w c.gang = true) :
    execFencel scope s = .next (c.retire (s.dropReads c.w.core) c.advance) := by
  refine issueChecked_next h ((c.afterQuantum_past hdet s _).trans (if_pos ?_))
  simp only [Bool.and_eq_true, Bool.or_eq_true, decide_eq_true_eq]
  refine ⟨⟨hdone, (all_bitsOf_iff _ _).2 fun i _ hg => ?_⟩, hsent⟩
  cases hx : c.w.slices[i]? with
  | none => rfl
  | some x => simpa using htime i x hg hx

/-- The words before which a quantum ends end it once (R386). -/
theorem issueChecked_endsQuantum {k : Ctx → Checks} {f : Ctx → Res} {r : Res} {e : DetWave} (h : Issues s c (k c))
    (hf : f c = c.afterQuantum s r) (he : c.w.det = some e) (hp : e.past ≠ some c.gang) :
    issueChecked s k f = .next (c.wait (s.modWave c.key (fun w =>
      { w with det := w.det.map (fun d => { d with ended := true, past := some c.gang }) }))) :=
  issueChecked_finishes h (hf.trans (c.afterQuantum_ends he hp s r))

end

/-- The waves after INVL1: those of the core have overtaken requests (R245, R275). -/
theorem State.dropL1_wave {s : State} {core k : Nat} {w : Wave} (hw : s.waves.get? k = some w) :
    (s.dropL1 core).waves.get? k = some (if w.core = core then { w with
      memOps := w.memOps.map (fun o => { o with units := o.units.map (fun u => { u with noL1 := true }) }) } else w) := by
  simp [State.dropL1, State.mapWaves, State.modCore, Table.get?_mapVals, hw]

/-- Settles O38. -/
theorem fencesComplete : Obligations.FencesComplete := by
  intro s c d a b scope phase i sent n
  refine ⟨fence_completes, fence_waits, fun h hdet hops htiles => fencel_completes h hdet (State.accessesDone_iff.2 ⟨hops, htiles⟩),
    fun hi h e he hp => ?_, fun h => ⟨s.dropL1 c.w.core, issueChecked_next h rfl, rfl, rfl, rfl, fun k hk => ?_, fun f hf hcore => ?_,
      fun k w hw => State.dropL1_wave hw⟩, fun h hn => issueChecked_onWave h (if_neg (not_lt.2 hn)),
    fun h hn => issueChecked_traps h (if_pos hn)⟩
  · simp only [List.mem_cons, List.not_mem_nil, or_false] at hi
    rcases hi with (rfl | rfl | rfl | rfl) | ⟨rfl, hn⟩
    iterate 4 exact issueChecked_endsQuantum h rfl he hp
    exact issueChecked_endsQuantum h (if_neg hn) he hp
  · simp only [State.dropL1, State.mapWaves, State.modCore, Table.get?_set_same, Option.some.injEq] at hk
    rw [← hk]
  · simp only [State.dropL1, State.mapWaves, State.modCore, List.mem_map] at hf
    obtain ⟨f', -, rfl⟩ := hf
    split at hcore
    · simp [*]
    · simp_all

end Sys2Proof.Machine
end

