-- ==== Sys2Proof/Proofs/AccessEffects.lean ====
section
/-! What a unit of an access does at its place (R243, R249, R252, R269 to R271, R278, R280, R282), and what follows a store:
monitors and waiters. -/

namespace Sys2Proof.Machine

/-! ## What follows a store -/

/-- Releasing BARWT's waiters changes waves and read buffers alone. -/
theorem State.releaseWaiters_eq (s : State) (ws : List (Nat × Wave)) :
    ∃ waves cores, s.releaseWaiters ws = { s with waves := waves, cores := cores } := by
  induction ws generalizing s with
  | nil => exact ⟨s.waves, s.cores, rfl⟩
  | cons e ws ih =>
    rw [State.releaseWaiters, List.foldl_cons]
    split
    · obtain ⟨waves, cores, h⟩ := ih ((s.modWave e.1 _).dropReads e.2.core)
      exact ⟨waves, cores, h⟩
    · exact ih s

theorem State.releaseBarwt_eq (s : State) : ∃ waves cores, s.releaseBarwt = { s with waves := waves, cores := cores } :=
  s.releaseWaiters_eq _

theorem State.fireMonitors_eq (s : State) (l : Loc) (n : Nat) : ∃ waves, s.fireMonitors l n = { s with waves := waves } :=
  ⟨_, rfl⟩

theorem State.wakeGlobal_eq (s : State) (l : Loc) (n : Nat) :
    ∃ waves funcs, s.wakeGlobal l n = { s with waves := waves, funcs := funcs } :=
  ⟨_, _, rfl⟩

/-- What follows a store changes waves, read buffers and the records of queues alone. -/
theorem State.wake_eq (s : State) (l : Loc) (n : Nat) :
    ∃ waves cores funcs, s.wake l n = { s with waves := waves, cores := cores, funcs := funcs } := by
  have hon : ∃ waves cores funcs, (s.fireMonitors l n).releaseBarwt = { s with waves := waves, cores := cores, funcs := funcs } := by
    obtain ⟨waves, cores, h⟩ := (s.fireMonitors l n).releaseBarwt_eq
    exact ⟨waves, cores, s.funcs, h⟩
  cases l with
  | global a u =>
    obtain ⟨waves, funcs, h⟩ := s.wakeGlobal_eq (.global a u) n
    exact ⟨waves, s.cores, funcs, h⟩
  | _ => exact hon

theorem State.wake_readLoc (s : State) (l : Loc) (n : Nat) (k : Loc) (m : Nat) : (s.wake l n).readLoc k m = s.readLoc k m := by
  obtain ⟨waves, cores, funcs, h⟩ := s.wake_eq l n
  rw [h]
  rfl

@[simp] theorem State.storeAt_readLoc (s : State) (l : Loc) (n x : Nat) (k : Loc) (m : Nat) :
    (s.storeAt l n x).readLoc k m = (s.writeLoc l n x).readLoc k m :=
  State.wake_readLoc _ l n k m

@[simp] theorem State.dropRead_readLoc (s : State) (core : Nat) (l k : Loc) (m : Nat) :
    (s.dropRead core l).readLoc k m = s.readLoc k m := by
  unfold State.dropRead
  split <;> rfl

@[simp] theorem State.releaseBarwt_readLoc (s : State) (k : Loc) (m : Nat) : s.releaseBarwt.readLoc k m = s.readLoc k m := by
  obtain ⟨waves, cores, h⟩ := s.releaseBarwt_eq
  rw [h]
  rfl

@[simp] theorem State.startFill_readLoc (s : State) (core line len : Nat) (l1 noL2 noL1 : Bool) (k : Loc) (m : Nat) :
    (s.startFill core line len l1 noL2 noL1).readLoc k m = s.readLoc k m := by
  simp only [State.startFill, State.grantLease]
  split <;> rfl

@[simp] theorem State.bufferRead_readLoc (s : State) (core : Nat) (l k : Loc) (m : Nat) :
    (s.bufferRead core l).readLoc k m = s.readLoc k m := by
  unfold State.bufferRead
  split <;> rfl

/-- Setting a full/empty bit changes no byte (R282). -/
@[simp] theorem State.setLine_readLoc (s : State) (l : Loc) (full : Bool) (k : Loc) (m : Nat) :
    (s.setLine l full).readLoc k m = s.readLoc k m := by
  cases l with
  | scratch b h off =>
    refine State.readLoc_congr (s := s) (t := s.setLine (.scratch b h off) full) rfl rfl rfl rfl (fun b' h' => ?_) k m
    simp only [State.setLine]
    cases hb : s.blocks.get? b with
    | none => rw [State.half_modBlock_none hb]
    | some y =>
      rw [State.half_modHalf hb]
      split
      next e => rw [e.1, e.2.1]
      next => rfl
  | region id off =>
    cases k with
    | region id' off' =>
      simp only [State.setLine, State.readLoc, Table.get?_update]
      by_cases e : id' = id
      · subst e
        cases s.regions.get? id' <;> simp
      · simp [e]
    | _ => rfl
  | _ => rfl

theorem mem_insertNat (x : Nat) (l : List Nat) : x ∈ insertNat x l := by
  induction l with
  | nil => simp [insertNat]
  | cons y rest ih =>
    simp only [insertNat]
    split
    next h => simp [h]
    next =>
      split
      · simp
      · simp [ih]

/-- A full/empty bit that is set reads back (R282). -/
theorem State.lineEmpty_setLine {s : State} {l : Loc} (h : s.hasPlace l) (hc : l.inCluster = true) (full : Bool) :
    (s.setLine l full).lineEmpty l = !full := by
  have hbit (e : List Nat) (k : Nat) : (if full then e.filter (· != k) else insertNat k e).contains k = !full := by
    cases full
    · simp [mem_insertNat]
    · simp
  cases l with
  | scratch b i off =>
    obtain ⟨y, hy, hi⟩ := h
    simp only [State.setLine, State.lineEmpty, State.half_modHalf hy, hi, and_self, if_true, hbit]
  | region id off =>
    obtain ⟨y, hy⟩ := h
    simp only [State.setLine, State.lineEmpty, Table.get?_update, hy, if_true, Option.map_some, hbit]
  | _ => simp [Loc.inCluster] at hc

/-! ## The units of accesses -/

section
variable (s : State) (core : Nat) {o : MemOp} (u : MemUnit)

/-- A load's unit takes the bytes at its place and changes none (R243, R252). -/
theorem State.performUnit_load {strong acquire : Bool} (h : o.kind = .load strong acquire) :
    (s.performUnit core o u).2.data = BitVec.ofNat 64 (s.readLoc u.loc u.len) ∧ (s.performUnit core o u).2.phase = .arrived ∧
    ∀ (l : Loc) (n : Nat), (s.performUnit core o u).1.readLoc l n = s.readLoc l n := by
  simp only [State.performUnit, h]
  cases strong with
  | true => exact ⟨rfl, rfl, fun _ _ => rfl⟩
  | false =>
    cases u.loc.cacheLine with
    | none => exact ⟨rfl, rfl, s.bufferRead_readLoc core u.loc⟩
    | some line => exact ⟨rfl, rfl, s.startFill_readLoc core line o.lease true u.noL2 u.noL1⟩

/-- A store's or an atomic's unit leaves its new value at its place, and every other byte (R243, R249, R252). -/
theorem State.stored_readLoc (n x i : Nat) (l k : Loc) (m : Nat) :
    State.readLoc { (s.storeAt l n x).dropRead core l with nextId := i } k m = (s.writeLoc l n x).readLoc k m := by
  have h : State.readLoc { (s.storeAt l n x).dropRead core l with nextId := i } k m =
    ((s.storeAt l n x).dropRead core l).readLoc k m := rfl
  rw [h, State.dropRead_readLoc, State.storeAt_readLoc]

theorem State.performUnit_store {strong release : Bool} (h : o.kind = .store strong release) (k : Loc) (m : Nat) :
    (s.performUnit core o u).1.readLoc k m = (s.writeLoc u.loc u.len u.data.toNat).readLoc k m := by
  simp only [State.performUnit, h]
  exact s.stored_readLoc core u.len u.data.toNat s.nextId.succ u.loc k m

/-- The value that an atomic's unit leaves at its place. -/
def State.atomicLeft (s : State) (op : AtomicOp) (o : MemOp) (u : MemUnit) : Nat :=
  atomicNew op (mdType o.md) (mdRound o.md) (s.readLoc u.loc u.len) (if op = .cas then u.cmp.toNat else u.data.toNat)
    u.data.toNat

theorem State.performUnit_atomic {op : AtomicOp} (h : o.kind = .atomic op) (k : Loc) (m : Nat) :
    (s.performUnit core o u).2.data = BitVec.ofNat 64 (s.readLoc u.loc u.len) ∧
    (s.performUnit core o u).1.readLoc k m = (s.writeLoc u.loc u.len (s.atomicLeft op o u)).readLoc k m := by
  refine ⟨by simp only [State.performUnit, h], ?_⟩
  simp only [State.performUnit, h]
  exact s.stored_readLoc core u.len (s.atomicLeft op o u) s.nextId.succ u.loc k m

theorem State.performUnit_fe {full : Bool} (h : o.kind = .fe full) : (s.performUnit core o u).1 = s.setLine u.loc full := by
  simp only [State.performUnit, h]

end

/-! ## The atomics' values (R269) -/

/-- The integer types that the arithmetic atomics accept (R269). -/
def Ty.isAtomicInt (t : Ty) : Prop := t = .s32 ∨ t = .n32 ∨ t = .s64 ∨ t = .n64

theorem atomicInt_eq_intOf {t : Ty} {x : Nat} (h : x < 2 ^ t.bits) : atomicInt t x = intOf t x := by
  simp only [atomicInt, intOf]
  split
  · rfl
  · rw [Nat.mod_eq_of_lt h]
    norm_cast
    exact (Nat.mod_eq_of_lt h).symm

/-- An integer within its type's range stands for itself (R76). -/
theorem intOf_intBits {t : Ty} (ht : t.isAtomicInt) {v : Int} (hlo : t.intMin ≤ v) (hhi : v ≤ t.intMax) :
    intOf t (intBits t.bits v) = v := by
  rcases ht with rfl | rfl | rfl | rfl <;>
    simp only [intOf, Ty.isSigned, Ty.bits, Ty.slot, Ty.intMin, Ty.intMax, signedOf, intBits, reduceCtorEq, if_true,
      if_false, Bool.false_eq_true] at hlo hhi ⊢ <;>
    · norm_num at hlo hhi ⊢
      omega

theorem intMin_le_intMax {t : Ty} (ht : t.isAtomicInt) : t.intMin ≤ t.intMax := by
  rcases ht with rfl | rfl | rfl | rfl <;> decide

section
variable {t : Ty} {m x : Nat} (r : Round) (v : Nat)

theorem atomicNew_min (hm : m < 2 ^ t.bits) (hx : x < 2 ^ t.bits) :
    intOf t (atomicNew .min t r m x v) = min (intOf t m) (intOf t x) := by
  simp only [atomicNew, atomicInt_eq_intOf hm, atomicInt_eq_intOf hx]
  split <;> omega

theorem atomicNew_max (hm : m < 2 ^ t.bits) (hx : x < 2 ^ t.bits) :
    intOf t (atomicNew .max t r m x v) = max (intOf t m) (intOf t x) := by
  simp only [atomicNew, atomicInt_eq_intOf hm, atomicInt_eq_intOf hx]
  split <;> omega

/-- AADDN's sum is clamped to its type (R269). -/
theorem atomicNew_addn (ht : t.isAtomicInt) (hm : m < 2 ^ t.bits) (hx : x < 2 ^ t.bits) :
    intOf t (atomicNew .addn t r m x v) = max t.intMin (min t.intMax (intOf t m + intOf t x)) := by
  have hbounds : atomicNew .addn t r m x v =
      intBits t.bits (max t.intMin (min t.intMax (intOf t m + intOf t x))) := by
    simp only [atomicNew, atomicInt_eq_intOf hm, atomicInt_eq_intOf hx, Ty.intMin, Ty.intMax]
    push_cast
    rfl
  have hle := intMin_le_intMax ht
  rw [hbounds, intOf_intBits ht (by omega) (by omega)]

end

/-- Settles O37: the unit's effect by its operation's kind, and the atomics' values. -/
theorem accessesPerform : Obligations.AccessesPerform := by
  refine ⟨fun s core o u hplace => ?_, fun t r m x v ht hm hx => ?_⟩
  · have hplace' : s.hasPlace u.loc := by
      revert hplace
      cases u.loc <;> exact id
    intro t v m elsewhere
    have hsame (x : Nat) : (s.writeLoc u.loc u.len x).readLoc u.loc u.len = x % 2 ^ (8 * u.len) :=
      s.readLoc_writeLoc_same u.loc u.len x hplace'
    refine ⟨fun strong acquire h => s.performUnit_load core u h, fun strong release h => ⟨?_, fun l n hl => ?_⟩,
      fun op h => ⟨(s.performUnit_atomic core u h u.loc u.len).1, fun l n hl => ?_, ?_⟩, fun full h => ?_⟩
    · exact (s.performUnit_store core u h u.loc u.len).trans (hsame _)
    · exact (s.performUnit_store core u h l n).trans (s.readLoc_writeLoc_apart _ _ _ _ _ hl)
    · exact (s.performUnit_atomic core u h l n).2.trans (s.readLoc_writeLoc_apart _ _ _ _ _ hl)
    · exact (s.performUnit_atomic core u h u.loc u.len).2.trans (hsame _)
    · have ht : t = s.setLine u.loc full := s.performUnit_fe core u h
      rw [ht]
      exact ⟨fun l n => s.setLine_readLoc u.loc full l n, fun hc => State.lineEmpty_setLine hplace' hc full⟩
  · intro f
    refine ⟨rfl, rfl, rfl, atomicNew_min r v hm hx, atomicNew_max r v hm hx, atomicNew_addn r v ht hm hx,
      fun i => ⟨Nat.testBit_and m x i, Nat.testBit_or m x i, Nat.testBit_xor m x i⟩, rfl, rfl⟩

end Sys2Proof.Machine
end

