-- ==== Sys2Proof/Proofs/BarrierWords.lean ====
section
/-! The byte-counting barriers (R277 to R280) and FETEST (R282): the updates that their words post, the reads that a word
makes before it issues (`Ctx.readAt`), and the object's own values. -/

namespace Sys2Proof.Machine

/-! ## Posted updates -/

section
variable {s : State} {c : Ctx} {k : Ctx → Checks} {f : Ctx → Res} {kind : MemKind} {a : VCode} {n : Nat} {loc : Loc}
  (h : Issues s c (k c)) (hf : f c = c.barrierPost s kind a n) (hloc : c.barrierAt s a = .ok loc) (hh : c.accessHeld = false)
include h hf hloc hh

/-- An update of a barrier object joins the wave's outstanding accesses (R280). -/
theorem barrierPost_issues (hd : c.w.isDet = false)
    (hs : s.slotsFree c.w (c.newOp kind 16 false false false [c.objectUnit a loc n]) = true) :
    issueChecked s k f = c.leaves ((s.setWave c.key
      { c.w with memOps := c.w.memOps ++ [c.newOp kind 16 false false false [c.objectUnit a loc n]] }).depart c.key) := by
  have hd' : c.w.det = none := by simpa [Wave.isDet] using hd
  exact issueChecked_next h (by simp only [hf, Ctx.barrierPost, hh, hloc, hd', hs, Bool.false_eq_true, if_false, if_true])

/-- In a deterministic launch it joins the commit buffer, or ends the quantum when its line does not fit (R386). -/
theorem barrierPost_buffers {e : DetWave} (hd : c.w.det = some e) :
    let o := c.newOp kind 16 false false false [c.objectUnit a loc n]
    let lines := (e.lines ++ [loc.line]).eraseDups
    ((e.buffer = [] ∨ lines.length ≤ 256) → issueChecked s k f =
      c.leavesWave s { c.w with det := some { e with buffer := e.buffer ++ [.mem o] } }) ∧
    (e.buffer ≠ [] → 256 < lines.length → issueChecked s k f =
      .next (c.wait (s.modWave c.key (fun w => { w with det := w.det.map (fun d => { d with ended := true }) })))) := by
  intro o lines
  refine ⟨fun hb => issueChecked_onWave h ?_, fun hb hl => issueChecked_holds h ?_⟩
  · have hno : e.overflows o.units = false := DetWave.overflows_eq_false hb
    simp only [hf, Ctx.barrierPost, hh, hloc, hd, Bool.false_eq_true, if_false]
    exact if_neg (ne_true_of_eq_false hno)
  · have hyes : e.overflows o.units = true := DetWave.overflows_eq_true hb hl
    simp only [hf, Ctx.barrierPost, hh, hloc, hd, Bool.false_eq_true, if_false]
    exact if_pos hyes

end

/-! ## Reads before an issue -/

section
variable {s : State} {c c' : Ctx} {fe : Bool} {units : List MemUnit} {hit : Nat → Bool}

/-- A read that is over leaves the context as it was, but for the reads that its word had sent (R237). -/
theorem Ctx.readAt_ok (h : c.readAt s fe units = .ok (c', hit)) : ∃ ops, c' = { c with w := { c.w with memOps := ops } } := by
  simp only [Ctx.readAt] at h
  split at h
  · cases h
    exact ⟨c.w.memOps, rfl⟩
  · split at h
    · cases h
      exact ⟨c.w.memOps, rfl⟩
    · split at h
      · split at h
        · cases h
          exact ⟨_, rfl⟩
        · cases h
      · split at h <;> cases h

theorem Ctx.phaseAt_ok {a : VCode} {loc : Loc} {ph : Bool} (h : c.phaseAt s a loc = .ok (c', ph)) :
    ∃ ops, c' = { c with w := { c.w with memOps := ops } } := by
  unfold Ctx.phaseAt at h
  split at h
  · cases h
  · split at h
    · cases h
    next hr =>
      cases h
      exact Ctx.readAt_ok hr

/-- What a read finds at some units in a state: lane by lane, whether a line is full or an object's phase is 1. -/
def readsIn (t : State) (fe : Bool) (units : List MemUnit) (lane : Nat) : Bool :=
  units.any (fun u => u.lane == lane && if fe then !t.lineEmpty u.loc else (t.barObj u.loc).ph)

theorem probe_reads (t : State) (core : Nat) {o : MemOp} (ho : o.kind = .probe fe) (units : List MemUnit) (lane : Nat) :
    (units.map (fun u => (t.performUnit core o u).2)).any (fun u => u.lane == lane && u.data == 1) =
      readsIn t fe units lane := by
  rw [readsIn, List.any_map]
  congr 1
  funext u
  simp only [Function.comp, State.performUnit, ho]
  cases (if fe then !t.lineEmpty u.loc else (t.barObj u.loc).ph) <;> simp

/-- A deterministic wave reads what it may see (R387). -/
theorem Ctx.readAt_det {e : DetWave} (hd : c.w.det = some e) :
    c.readAt s fe units = .ok (c, readsIn (s.detView c.w.core e) fe units) := by
  simp only [Ctx.readAt, hd]
  congr 2
  funext lane
  exact probe_reads _ _ rfl units lane

/-- A read in the core's own slot answers at once. -/
theorem Ctx.readAt_near (hd : c.w.det = none) (hr : ∀ u ∈ units, s.remote c.w.core u.loc = false) :
    c.readAt s fe units = .ok (c, readsIn s fe units) := by
  have hnear : (!units.any (fun u => s.remote c.w.core u.loc)) = true := by simpa using hr
  simp only [Ctx.readAt, hd, hnear, if_true]
  congr 2
  funext lane
  exact probe_reads _ _ rfl units lane

section
variable (hd : c.w.det = none) (hr : ∃ u ∈ units, s.remote c.w.core u.loc = true)
include hd hr

/-- A read of another core's slot is sent there, once it has a slot (R237, R289). -/
theorem Ctx.readAt_sends
    (hm : c.w.memOps.find? (fun p => p.kind == .probe fe && p.gang == c.gang && p.src.claddr == c.src.claddr) = none) :
    let others := c.w.memOps.filter (fun p => !(p.kind.isProbe && meets p.gang c.gang))
    let o := c.newOp (.probe fe) 1 false false false units
    c.readAt s fe units = if s.slotsFree { c.w with memOps := others } o then
      .error (.hold ((s.setWave c.key { c.w with memOps := others ++ [o], seq := c.w.seq + 1 }).depart c.key))
    else .error .stall := by
  have hfar : (!units.any (fun u => s.remote c.w.core u.loc)) = false := by simpa using hr
  simp only [Ctx.readAt, hd, hfar, hm, Bool.false_eq_true, if_false]
  rfl

/-- One that is back gives its answer (R237). -/
theorem Ctx.readAt_back {p : MemOp}
    (hm : c.w.memOps.find? (fun p => p.kind == .probe fe && p.gang == c.gang && p.src.claddr == c.src.claddr) = some p) :
    let others := c.w.memOps.filter (fun p => !(p.kind.isProbe && meets p.gang c.gang))
    c.readAt s fe units = if p.units.all (s.back c.w p) then
      .ok ({ c with w := { c.w with memOps := others } }, fun lane => p.units.any (fun u => u.lane == lane && u.data == 1))
    else .error .stall := by
  have hfar : (!units.any (fun u => s.remote c.w.core u.loc)) = false := by simpa using hr
  simp only [Ctx.readAt, hd, hfar, hm, Bool.false_eq_true, if_false]
  rfl

end

end

/-! ## The phase that BARTRY and BARWT read -/

section
variable {s : State} {c : Ctx} {a : VCode} {loc : Loc}

theorem Ctx.phaseAt_held (h : (c.accessHeld || c.pendingAt loc 16) = true) :
    c.phaseAt s a loc = .error (c.stallForCommit s) := if_pos h

theorem Ctx.phaseAt_of_readAt_ok {c' : Ctx} {hit : Nat → Bool} (h : (c.accessHeld || c.pendingAt loc 16) = false)
    (hr : c.readAt s false [c.objectUnit a loc 0] = .ok (c', hit)) :
    c.phaseAt s a loc = .ok (c', hit ((bitsOf c'.exec).headD 0)) := by
  rw [Ctx.phaseAt, h, hr]
  rfl

theorem Ctx.phaseAt_of_readAt_error {r : Res} (h : (c.accessHeld || c.pendingAt loc 16) = false)
    (hr : c.readAt s false [c.objectUnit a loc 0] = .error r) : c.phaseAt s a loc = .error r := by
  rw [Ctx.phaseAt, h, hr]
  rfl

/-- The one unit of a barrier word reads its object's phase. -/
theorem readsIn_object (t : State) (c : Ctx) (a : VCode) (loc : Loc) :
    readsIn t false [c.objectUnit a loc 0] ((bitsOf c.exec).headD 0) = (BarObj.ofNat (t.readLoc loc 16)).ph := by
  simp [readsIn, Ctx.objectUnit, State.barObj]

theorem natBits_low (n : Nat) : (natBits n 0 1 == 1) = decide (n % 2 = 1) := by
  simp [natBits, beq_eq_decide]

end

section
variable {s : State} {c c' : Ctx} {d a b : VCode} {loc : Loc} {ph : Bool} (hloc : c.barrierAt s a = .ok loc)
  (hpast : ∀ e, c.w.det = some e → e.past = some c.gang)
include hloc hpast

/-- BARTRY gives its lanes whether the phase differs from the one named (R280). -/
theorem bartry_answers (hph : c.phaseAt s a loc = .ok (c', ph)) (h : Issues s c (bartryChecks d a b c)) :
    let hit := ph ≠ decide (c.operand (.data 1) b 0 % 2 = 1)
    execBartry d a b s = c.leaves ((if hit then s.dropReads c.w.core else s).setWave c.key
      (c'.w.pwrite d.pNum c.exec (if hit then BitVec.allOnes 64 else 0))) := by
  intro hit
  obtain ⟨ops, hc'⟩ := Ctx.phaseAt_ok hph
  have hop : c'.operand (.data 1) b 0 = c.operand (.data 1) b 0 := by rw [hc']; rfl
  have hkey : c'.key = c.key := by rw [hc']
  have hcore : c'.w.core = c.w.core := by rw [hc']
  have hexec : c'.exec = c.exec := by rw [hc']
  have hif {α : Type} (x y : α) :
      (if (ph != decide (c.operand (.data 1) b 0 % 2 = 1)) = true then x else y) = if hit then x else y :=
    if_congr bne_iff_ne rfl rfl
  refine issueChecked_next h ((c.afterQuantum_past hpast s _).trans ?_)
  simp only [hloc, hph, hop, natBits_low, hif, hkey, hcore, hexec, Ctx.onWave]

/-- BARWT goes on when the phase differs from the one named, and else parks its gang with its limit (R280). -/
theorem barwt_acts {phase : BitVec 1} (hph : c.phaseAt s a loc = .ok (c', ph)) (h : Issues s c (barwtChecks a b c)) :
    (ph ≠ decide (phase = 1) → execBarwt phase a b s = c.leavesWave (s.dropReads c.w.core) c'.w) ∧
    (ph = decide (phase = 1) → execBarwt phase a b s = c.places (((s.dropReads c.w.core).setWave c.key
      (c'.parked (.barwt c.src (BitVec.ofNat 64 (c.addressOf a 0)) (phase == 1) (c.operand (.data 1) b 0)
        (if c.operand (.data 1) b 0 = 0 then none else some (c.now + c.operand (.data 1) b 0))))).releaseBarwt)) := by
  obtain ⟨ops, hc'⟩ := Ctx.phaseAt_ok hph
  have haddr : c'.addressOf a 0 = c.addressOf a 0 := by rw [hc']; rfl
  have hkey : c'.key = c.key := by rw [hc']
  have hcore : c'.w.core = c.w.core := by rw [hc']
  have hsrc : c'.src = c.src := by rw [hc']
  have hnow : c'.now = c.now := by rw [hc']
  have hiff : (ph != (phase == 1)) = true ↔ ph ≠ decide (phase = 1) := by rw [beq_eq_decide, bne_iff_ne]
  refine ⟨fun hne => issueChecked_next h ((c.afterQuantum_past hpast s _).trans ?_),
    fun he => issueChecked_jumps h ((c.afterQuantum_past hpast s _).trans ?_)⟩
  · simp only [hloc, hph, if_pos (hiff.2 hne), hkey, hcore, Ctx.onWave]
  · simp only [hloc, hph, if_neg (fun hn => hiff.1 hn he), haddr, hkey, hcore, hsrc, hnow]

/-- A phase that cannot be read yet makes its word wait. -/
theorem barrier_waits {r : Res} {i : Instr} {phase : BitVec 1} (hi : i = .bartry d a b ∨ i = .barwt phase a b)
    (h : Issues s c (checksOf i c)) (hph : c.phaseAt s a loc = .error r) : exec i s = .next (c.finish s r) := by
  rcases hi with rfl | rfl
  · refine issueChecked_finishes h ((c.afterQuantum_past hpast s _).trans ?_)
    simp only [hloc, hph]
  · refine issueChecked_finishes h ((c.afterQuantum_past hpast s _).trans ?_)
    simp only [hloc, hph]

end

/-! ## FETEST (R282) -/

section
variable {s : State} {c c' : Ctx} {d a : VCode}

/-- The accesses that FETEST's lanes ask for. -/
def Ctx.fetestAsks (c : Ctx) (a : VCode) : List Ask := c.asksAt 1 1 [0xF0, 0xF1] false .unchecked (c.addressOf a)

/-- What FETEST does with what it has read: `r` holds the lanes that passed their checks and the causes of the others. -/
def Ctx.fetestRes (s : State) (d : VCode) (r : List Granted × List LaneCause) : Except Res (Ctx × (Nat → Bool)) → Res
  | .error x => x
  | .ok (c, hit) =>
    let lanes := r.1.map (fun g => g.ask.lane)
    let full := maskOf 64 (lanes.filter hit)
    c.onWave (if full = 0 then s else s.dropReads c.w.core) ((c.w.pwrite d.pNum (maskOf 64 lanes) full).record r.2)

/-- FETEST reads its lanes' lines when nothing of the gang is on its way to them. -/
theorem fetest_reads (h : Issues s c (fetestChecks d a c)) (hh : c.accessHeld = false)
    (hp : ∀ g ∈ (s.checkAll c.w c.blk c.src (c.fetestAsks a)).1, c.pendingAt g.loc.line 128 = false)
    {x : Except Res (Ctx × (Nat → Bool))} :
    let r := s.checkAll c.w c.blk c.src (c.fetestAsks a)
    c.readAt s true (r.1.flatMap (fun g => unitsOf g false 1 0 0 0)) = x →
    execFetest d a s = .next (c.finish s (Ctx.fetestRes s d r x)) := by
  intro r hr
  have hnone : ¬ r.1.any (fun g => c.pendingAt g.loc.line 128) = true := by simpa using hp
  refine issueChecked_finishes h ((if_neg (ne_true_of_eq_false hh)).trans ((if_neg hnone).trans ?_))
  rw [← hr]
  rfl

/-- FETEST gives each lane that passes its check whether its line is full. -/
theorem fetest_answers {hit : Nat → Bool} (h : Issues s c (fetestChecks d a c)) (hh : c.accessHeld = false)
    (hp : ∀ g ∈ (s.checkAll c.w c.blk c.src (c.fetestAsks a)).1, c.pendingAt g.loc.line 128 = false) :
    let r := s.checkAll c.w c.blk c.src (c.fetestAsks a)
    c.readAt s true (r.1.flatMap (fun g => unitsOf g false 1 0 0 0)) = .ok (c', hit) →
    let full := maskOf 64 ((r.1.map (fun g => g.ask.lane)).filter hit)
    execFetest d a s = c.leaves ((if full = 0 then s else s.dropReads c.w.core).setWave c.key
      ((c'.w.pwrite d.pNum (maskOf 64 (r.1.map (fun g => g.ask.lane))) full).record r.2)) := by
  intro r hr full
  obtain ⟨ops, hc'⟩ := Ctx.readAt_ok hr
  refine (fetest_reads h hh hp hr).trans ?_
  rw [hc']
  rfl

end

/-! ## The object (R277, R278) -/

/-- An object's 16 bytes read back. -/
theorem BarObj.ofNat_toNat {b : BarObj} (hacnt : b.acnt < 2 ^ 16) (hecnt : b.ecnt < 2 ^ 16) (harrb : b.arrb < 2 ^ 32)
    (hexpb : b.expb < 2 ^ 32) : BarObj.ofNat b.toNat = b := by
  obtain ⟨ph, acnt, ecnt, arrb, expb⟩ := b
  simp only at hacnt hecnt harrb hexpb
  simp only [BarObj.ofNat, BarObj.toNat, natBits, BarObj.mk.injEq]
  cases ph
  · refine ⟨beq_eq_false_iff_ne.2 ?_, ?_, ?_, ?_, ?_⟩ <;> simp only [Bool.false_eq_true, if_false] <;> omega
  · refine ⟨beq_iff_eq.2 ?_, ?_, ?_, ?_, ?_⟩ <;> simp only [if_true] <;> omega

/-- An update of an object leaves the object's new value in its 16 bytes (R278). -/
theorem State.updateBarrier_readLoc {s : State} {l : Loc} (h : s.hasPlace l) (f : BarObj → BarObj) :
    (s.updateBarrier l f).readLoc l 16 = (f (BarObj.ofNat (s.readLoc l 16))).toNat % 2 ^ 128 := by
  rw [State.updateBarrier, State.releaseBarwt_readLoc, s.readLoc_writeLoc_same l 16 _ h]
  rfl

/-- Settles O39. -/
theorem barrierObjects : Obligations.BarrierObjects := by
  refine ⟨fun s c d a b loc => ?_, fun b n => ⟨rfl, rfl⟩, fun b => BarObj.ofNat_toNat, fun s core o u hplace => ?_⟩
  · intro passed n unit obj
    refine ⟨fun i kind hi h hloc hn hh => ?_, fun h hn => issueChecked_traps h (if_pos hn),
      fun c' ph hph hloc hp => ⟨fun h => bartry_answers hloc hp hph h, fun phase h => barwt_acts hloc hp hph h⟩,
      fun phase i r hi h hp hloc hph => barrier_waits hloc hp hi h hph, ?_, fun h hh => ?_⟩
    · simp only [List.mem_cons, Prod.mk.injEq, List.not_mem_nil, or_false] at hi
      rcases hi with ⟨rfl, rfl⟩ | ⟨rfl, rfl⟩ | ⟨rfl, rfl⟩
      · have hlegal : ¬ (n = 0 ∨ 65535 < n) := by have := hn rfl; omega
        exact ⟨barrierPost_issues h (if_neg hlegal) hloc hh, fun e => barrierPost_buffers h (if_neg hlegal) hloc hh⟩
      · exact ⟨barrierPost_issues h rfl hloc hh, fun e => barrierPost_buffers h rfl hloc hh⟩
      · exact ⟨barrierPost_issues h rfl hloc hh, fun e => barrierPost_buffers h rfl hloc hh⟩
    · intro held read probe rest mine
      refine ⟨Ctx.phaseAt_held, fun e hh hd => ?_, fun hh hd hr => ?_, fun hh hd hr => ⟨fun hm hs => ?_, fun hm hs => ?_,
        fun o hm => ⟨fun hb => ?_, fun hb => ?_⟩⟩⟩
      · rw [Ctx.phaseAt_of_readAt_ok hh (Ctx.readAt_det hd), readsIn_object]
      · rw [Ctx.phaseAt_of_readAt_ok hh (Ctx.readAt_near hd (by simpa [Ctx.objectUnit] using hr)), readsIn_object]
      · exact Ctx.phaseAt_of_readAt_error hh ((Ctx.readAt_sends hd ⟨_, List.mem_singleton_self _, hr⟩ hm).trans (if_pos hs))
      · exact Ctx.phaseAt_of_readAt_error hh
          ((Ctx.readAt_sends hd ⟨_, List.mem_singleton_self _, hr⟩ hm).trans (if_neg (ne_true_of_eq_false hs)))
      · exact Ctx.phaseAt_of_readAt_error hh
          ((Ctx.readAt_back hd ⟨_, List.mem_singleton_self _, hr⟩ hm).trans (if_neg (ne_true_of_eq_false hb)))
      · exact Ctx.phaseAt_of_readAt_ok hh
          ((Ctx.readAt_back hd ⟨_, List.mem_singleton_self _, hr⟩ hm).trans (if_pos hb))
    · intro r units hp
      exact ⟨fun c' hit => fetest_answers h hh hp, fun x => fetest_reads h hh hp, fun e hd => Ctx.readAt_det hd,
        fun hd hr => Ctx.readAt_near hd hr⟩
  · have hplace' : s.hasPlace u.loc := by
      revert hplace
      cases u.loc <;> first | exact id | exact False.elim
    intro old after
    refine ⟨fun h => ?_, fun h => ?_, fun h => ?_⟩
    · simp only [after, State.performUnit, h]
      exact State.updateBarrier_readLoc hplace' _
    · simp only [after, State.performUnit, h]
      exact State.updateBarrier_readLoc hplace' _
    · simp only [after, State.performUnit, h]
      exact State.updateBarrier_readLoc hplace' _

end Sys2Proof.Machine
end

