-- ==== Sys2Proof/Proofs/WordFrames.lean ====
section
/-! What a word leaves unchanged in every next state, whatever it met (R43, R139, R163, R347): a word that traps, waits,
reads a poisoned register or issues changes its own wave alone, and of it no register beyond what its effect changes. -/

namespace Sys2Proof.Machine

/-! ## Steps that change one wave alone -/

/-- Nothing changes between two states but one wave, of which something stays true, and what no place, partition or clock
shows. -/
structure State.Framed (s t : State) (k : Nat) (R : Wave → Prop) : Prop where
  wave : ∀ w, t.waves.get? k = some w → R w
  others : ∀ j, j ≠ k → t.waves.get? j = s.waves.get? j
  bytes : ∀ (x : Loc) (n : Nat), t.readLoc x n = s.readLoc x n
  parts : t.parts = s.parts
  time : t.time = s.time

/-- A result that changes nothing but the issuing wave. -/
def Res.Framed (s : State) (k : Nat) (R : Wave → Prop) : Res → Prop
  | .trap _ _ | .stall => True
  | .hold t | .next t | .jump t => s.Framed t k R

/-- Two waves hold the same registers, predicates, modes, outstanding accesses, times and privilege. -/
structure Wave.SameRegs (w w' : Wave) : Prop where
  v : w'.v = w.v
  s : w'.s = w.s
  p : w'.p = w.p
  md : w'.md = w.md
  fx : w'.fx = w.fx
  memOps : w'.memOps = w.memOps
  times : w'.times = w.times
  priv : w'.priv = w.priv

theorem Wave.SameRegs.refl (w : Wave) : w.SameRegs w := ⟨rfl, rfl, rfl, rfl, rfl, rfl, rfl, rfl⟩

theorem Wave.SameRegs.trans {w x y : Wave} (h : w.SameRegs x) (h' : x.SameRegs y) : w.SameRegs y :=
  ⟨h'.v.trans h.v, h'.s.trans h.s, h'.p.trans h.p, h'.md.trans h.md, h'.fx.trans h.fx, h'.memOps.trans h.memOps,
    h'.times.trans h.times, h'.priv.trans h.priv⟩

theorem Wave.sameRegs_dropReplay (w : Wave) (now : Nat) : w.SameRegs (w.dropReplay now) := by
  obtain ⟨fl, be, re, h⟩ := w.dropReplay_eq now
  rw [h]
  exact ⟨rfl, rfl, rfl, rfl, rfl, rfl, rfl, rfl⟩

theorem Ctx.sameRegs_advance (c : Ctx) (w : Wave) : w.SameRegs (c.advance w) := by
  unfold Ctx.advance
  split
  · exact w.sameRegs_dropReplay c.now
  · split <;> exact ⟨rfl, rfl, rfl, rfl, rfl, rfl, rfl, rfl⟩

theorem Ctx.sameRegs_owesTrap (c : Ctx) (l : List LaneCause) (n : Bool) (w : Wave) : w.SameRegs (c.owesTrap l n w) := by
  obtain ⟨fl, be, re, h⟩ := c.owesTrap_eq l n w
  rw [h]
  exact ⟨rfl, rfl, rfl, rfl, rfl, rfl, rfl, rfl⟩

/-! ## How a word ends, as a frame -/

/-- A change of the wave that keeps what is true of it. -/
theorem State.Framed.modWave_of {s t : State} {R : Wave → Prop} {k : Nat} (h : s.Framed t k R) {g : Wave → Wave}
    (hg : ∀ w, R w → R (g w)) : s.Framed (t.modWave k g) k R where
  wave w hw := by
    simp only [State.modWave, Table.get?_update, if_true, Option.map_eq_some_iff] at hw
    obtain ⟨w', hw', rfl⟩ := hw
    exact hg w' (h.wave w' hw')
  others j hj := by simpa [State.modWave, Table.get?_update, hj] using h.others j hj
  bytes x n := (t.modWave_readLoc k g x n).trans (h.bytes x n)
  parts := h.parts
  time := h.time

section
variable {s t : State} {c : Ctx} {R : Wave → Prop} (hR : ∀ w w' : Wave, w.SameRegs w' → R w → R w')
include hR

theorem State.Framed.modWave {k : Nat} (h : s.Framed t k R) {g : Wave → Wave} (hg : ∀ w : Wave, w.SameRegs (g w)) :
    s.Framed (t.modWave k g) k R :=
  State.Framed.modWave_of h fun w hw => hR w (g w) (hg w) hw

theorem State.Framed.retire (h : s.Framed t c.key R) {g : Wave → Wave} (hg : ∀ w : Wave, w.SameRegs (g w)) :
    s.Framed (c.retire t g) c.key R where
  wave w hw := by
    simp only [Ctx.retire, Table.get?_update, if_true, Option.map_eq_some_iff] at hw
    obtain ⟨w', hw', rfl⟩ := hw
    have hcounted : w'.SameRegs (w'.counted (t.quantum c.blk)) := ⟨rfl, rfl, rfl, rfl, rfl, rfl, rfl, rfl⟩
    exact hR _ _ (hcounted.trans (hg _)) (h.wave w' hw')
  others j hj := (c.retire_other t g hj).trans (h.others j hj)
  bytes x n := (c.retire_readLoc t g x n).trans (h.bytes x n)
  parts := h.parts
  time := h.time

theorem State.Framed.wait (h : s.Framed t c.key R) : s.Framed (c.wait t) c.key R :=
  have h' := State.Framed.modWave hR h
    (g := fun w => w.mapGang c.gang (fun _ x => { x with stalled := some (x.stalled.getD c.now) }))
    (fun _ => ⟨rfl, rfl, rfl, rfl, rfl, rfl, rfl, rfl⟩)
  ⟨h'.wave, h'.others, h'.bytes, h'.parts, h'.time⟩

theorem State.Framed.trapped (h : s.Framed t c.key R) (l : List LaneCause) (n : Bool) :
    s.Framed (c.trapped t l n) c.key R := by
  cases n with
  | true => exact State.Framed.retire hR h (c.sameRegs_owesTrap l true)
  | false =>
    have h' := State.Framed.modWave hR h (c.sameRegs_owesTrap l false)
    exact ⟨h'.wave, h'.others, fun x n => (c.trapped_readLoc t l x n).trans (h.bytes x n), h.parts, h.time⟩

/-- A result that changes the issuing wave alone leaves a state that differs in it alone. -/
theorem Res.Framed.finish {r : Res} (h : r.Framed s c.key R) (hs : s.Framed s c.key R) :
    s.Framed (c.finish s r) c.key R := by
  cases r with
  | trap l n =>
    cases l with
    | nil => exact State.Framed.retire hR hs c.sameRegs_advance
    | cons x l => exact State.Framed.trapped hR hs (x :: l) n
  | stall => exact State.Framed.wait hR hs
  | hold t => exact State.Framed.wait hR h
  | next t => exact State.Framed.retire hR h c.sameRegs_advance
  | jump t =>
    have hdrop (w : Wave) : w.SameRegs (if c.replay then w.dropReplay c.now else w) := by
      split
      · exact w.sameRegs_dropReplay c.now
      · exact Wave.SameRegs.refl w
    exact State.Framed.retire hR h hdrop

theorem Res.Framed.withCauses {r : Res} (h : r.Framed s c.key R) (l : List LaneCause) :
    (c.withCauses l r).Framed s c.key R := by
  have hrec (w : Wave) : w.SameRegs (w.record l) := ⟨rfl, rfl, rfl, rfl, rfl, rfl, rfl, rfl⟩
  cases r with
  | next t => exact State.Framed.modWave hR h hrec
  | jump t => exact State.Framed.modWave hR h hrec
  | _ => exact h

theorem Ctx.waitOn_framed (hs : s.Framed s c.key R) {touches : List Nat → Bool} {r : Res} (h : c.waitOn s touches = some r) :
    r.Framed s c.key R := by
  have hskip (w : Wave) : w.SameRegs (w.skip c.gang) := ⟨rfl, rfl, rfl, rfl, rfl, rfl, rfl, rfl⟩
  have hend (w : Wave) : w.SameRegs { w with det := w.det.map (fun d => { d with ended := true }) } :=
    ⟨rfl, rfl, rfl, rfl, rfl, rfl, rfl, rfl⟩
  unfold Ctx.waitOn at h
  split at h
  · cases h
  · split at h
    · cases h
      exact State.Framed.modWave hR hs hend
    · split at h
      · cases h
        exact State.Framed.modWave hR hs hskip
      · split at h <;> cases h
        trivial

end

theorem Ctx.without_zero (c : Ctx) : c.without 0 = c := by
  have hall (m : LaneMask) : m &&& ~~~0#64 = m := by rw [BitVec.not_zero, BitVec.and_allOnes]
  show { c with exec := c.exec &&& ~~~0#64, act := c.act &&& ~~~0#64 } = c
  rw [hall, hall]

/-- The issuing gang's state, when something is true of its wave. -/
theorem State.Framed.of_ctx? {s : State} {c : Ctx} {R : Wave → Prop} (hc : s.ctx? = some c) (h : R c.w) :
    s.Framed s c.key R where
  wave w hw := by
    rw [ctx?_wave hc, Option.some.injEq] at hw
    exact hw ▸ h
  others _ _ := rfl
  bytes _ _ := rfl
  parts := rfl
  time := rfl

/-- A checked word whose effect, in any of its lanes, changes the issuing wave alone. -/
theorem issueChecked_framed {s t : State} {c : Ctx} {R : Wave → Prop} {k : Ctx → Checks} {f : Ctx → Res}
    (hR : ∀ w w' : Wave, w.SameRegs w' → R w → R w') (hc : s.ctx? = some c) (h0 : R c.w)
    (hf : ∀ m, (f (c.without m)).Framed s c.key R) (ht : issueChecked s k f = .next t) : s.Framed t c.key R := by
  have hs := State.Framed.of_ctx? hc h0
  rw [issueChecked, issue_some hc, Host.Outcome.next.injEq] at ht
  rw [← ht]
  refine Res.Framed.finish hR ?_ hs
  dsimp only
  split
  · trivial
  next hi => exact Ctx.waitOn_framed hR hs hi
  · split
    next =>
      have h := hf 0
      rwa [c.without_zero] at h
    next =>
      split
      · exact State.Framed.modWave hR hs (fun _ => ⟨rfl, rfl, rfl, rfl, rfl, rfl, rfl, rfl⟩)
      · exact Res.Framed.withCauses hR (hf _) _

/-- An effect on the issuing wave alone. -/
theorem onWave_framed {s : State} {c : Ctx} {R : Wave → Prop} {w : Wave} (h : R w) (c' : Ctx) (hk : c'.key = c.key) :
    (c'.onWave s w).Framed s c.key R where
  wave x hx := by
    simp only [State.setWave, hk, Table.get?_set_same, Option.some.injEq] at hx
    exact hx ▸ h
  others j hj := by simp [State.setWave, hk, Table.get?_set_other, hj]
  bytes x n := s.setWave_readLoc c'.key w x n
  parts := rfl
  time := rfl

/-! ## Vector words (R141 to R182) -/

/-- What a vector word with destination vn leaves of its wave: the lane-registers outside d and the executing lanes, and
every other register but FX and, where `carries`, p7. -/
structure VecFrame (c : Ctx) (n : Nat) (carries : Prop) (w : Wave) : Prop where
  v : ∀ r l, l < 64 → (c.exec.getLsbD l = false ∨ ∀ k < 2, r ≠ c.phys (n + k) l) → w.v.get (vKey r l) = c.w.v.get (vKey r l)
  s : w.s = c.w.s
  md : w.md = c.w.md
  memOps : w.memOps = c.w.memOps
  times : w.times = c.w.times
  priv : w.priv = c.w.priv
  p : ∀ q, (q ≠ 7 ∨ ¬ carries) → w.p.get q = c.w.p.get q

section
variable {s t : State} {c : Ctx} {n : Nat} {carries : Prop} {w : Wave}

theorem VecFrame.refl : VecFrame c n carries c.w := ⟨fun _ _ _ _ => rfl, rfl, rfl, rfl, rfl, rfl, fun _ _ => rfl⟩

theorem VecFrame.of_sameRegs (w w' : Wave) (h : w.SameRegs w') (hw : VecFrame c n carries w) : VecFrame c n carries w' where
  v r l hl hr := by rw [h.v, hw.v r l hl hr]
  s := h.s.trans hw.s
  md := h.md.trans hw.md
  memOps := h.memOps.trans hw.memOps
  times := h.times.trans hw.times
  priv := h.priv.trans hw.priv
  p q hq := by rw [h.p, hw.p q hq]

/-- A write of at most two registers from vn in lanes that execute. -/
theorem VecFrame.vwrite (h : VecFrame c n carries w) (m : LaneMask) {k : Nat} (hk : k ≤ 2) {lanes : LaneMask}
    (hlanes : ∀ l, lanes.getLsbD l = true → c.exec.getLsbD l = true) (f : Nat → Nat) :
    VecFrame c n carries ((c.without m).vwrite w n k lanes f) where
  v r l hl hr := by
    refine ((c.without m).vwrite_get_other w n k lanes f fun l' hl' i hi hkey => ?_).trans (h.v r l hl hr)
    rw [mem_bitsOf] at hl'
    obtain ⟨hr', rfl⟩ := vKey_lane hl hl'.1 hkey
    obtain hexec | hother := hr
    · simp [hlanes l hl'.2] at hexec
    · exact hother i (by omega) hr'
  s := h.s
  md := h.md
  memOps := h.memOps
  times := h.times
  priv := h.priv
  p := h.p

theorem VecFrame.raise (h : VecFrame c n carries w) (fx : BitVec 7) : VecFrame c n carries (w.raise fx) :=
  ⟨h.v, h.s, h.md, h.memOps, h.times, h.priv, h.p⟩

/-- The carry goes to p7 (R172). -/
theorem VecFrame.pwrite (h : VecFrame c n carries w) (hc : carries) (m b : LaneMask) :
    VecFrame c n carries (w.pwrite 7 m b) where
  v := h.v
  s := h.s
  md := h.md
  memOps := h.memOps
  times := h.times
  priv := h.priv
  p q hq := by
    rw [Wave.pwrite_get, if_neg (hq.resolve_right (not_not.2 hc))]
    exact h.p q hq

theorem VecFrame.record (h : VecFrame c n carries w) (l : List LaneCause) : VecFrame c n carries (w.record l) :=
  VecFrame.of_sameRegs w _ ⟨rfl, rfl, rfl, rfl, rfl, rfl, rfl, rfl⟩ h

theorem VecFrame.flagUp (h : VecFrame c n carries w) (f : Option Nat) : VecFrame c n carries (w.flagUp f) := by
  obtain ⟨fl, hw⟩ := w.flagUp_eq f
  rw [hw]
  exact ⟨h.v, h.s, h.md, h.memOps, h.times, h.priv, h.p⟩

/-- A special function adds its result to those to be written later (R148). -/
theorem VecFrame.special (h : VecFrame c n carries w) (f : Option Nat) (l : List SpecialOp) :
    VecFrame c n carries { w.flagUp f with specials := l } :=
  ⟨(h.flagUp f).v, (h.flagUp f).s, (h.flagUp f).md, (h.flagUp f).memOps, (h.flagUp f).times, (h.flagUp f).priv, (h.flagUp f).p⟩

theorem Ty.words_le_two (t : Ty) : t.words ≤ 2 := by
  unfold Ty.words
  split <;> omega

/-- Lanes in `act` execute (R44). -/
theorem ctx?_act (hc : s.ctx? = some c) {l : Nat} (h : c.act.getLsbD l = true) : c.exec.getLsbD l = true := by
  unfold State.ctx? at hc
  split at hc
  · cases hc
  · split at hc
    · cases hc
    · split at hc
      · cases hc
      · cases hc
        simp only [mkCtx] at h ⊢
        split at h
        · exact h
        · rw [BitVec.getLsbD_and, Bool.and_eq_true] at h
          exact h.1

theorem without_act (hc : s.ctx? = some c) (m : LaneMask) (l : Nat) (h : (c.without m).act.getLsbD l = true) :
    c.exec.getLsbD l = true := by
  rw [Ctx.without, BitVec.getLsbD_and, Bool.and_eq_true] at h
  exact ctx?_act hc h.1

theorem sparseWords_le_two (t : Ty) : sparseWords t ≤ 2 := by
  unfold sparseWords
  split <;> omega

end

section
variable {s t : State} {c : Ctx} {n : Nat} {carries : Prop} (hc : s.ctx? = some c)
include hc

/-- A word that writes d in the lanes in `act`. -/
theorem writesAct_framed (m : LaneMask) {k : Nat} (hk : k ≤ 2) (f : Nat → Nat) :
    ((c.without m).onWave s ((c.without m).vwrite c.w n k (c.without m).act f)).Framed s c.key (VecFrame c n carries) :=
  onWave_framed (VecFrame.refl.vwrite m hk (without_act hc m) f) _ rfl

theorem writesFlags_framed (m : LaneMask) {k : Nat} (hk : k ≤ 2) (f : Nat → Nat) (fx : BitVec 7) :
    ((c.without m).onWave s (((c.without m).vwrite c.w n k (c.without m).act f).raise fx)).Framed s c.key (VecFrame c n carries) :=
  onWave_framed ((VecFrame.refl.vwrite m hk (without_act hc m) f).raise fx) _ rfl

theorem writeElems_framed (m : LaneMask) (ty : Ty) {d : VCode} (hd : d.vNum = n) (f : Nat → Nat → Nat × BitVec 7) :
    ((c.without m).writeElems s ty d f).Framed s c.key (VecFrame c n carries) :=
  hd ▸ writesFlags_framed hc m ty.words_le_two _ _

end

/-- Settles O45. -/
theorem vectorWordFrame : Obligations.VectorWordFrame := by
  intro s t c w' d a b n i m2 m4 m3 m5 m1 hi hd hc ht hw
  subst hd
  have hframe : s.Framed t c.key (VecFrame c n.val (i = .addc (.v n) a b ∨ i = .subb (.v n) a b)) := by
    have hok {k : Ctx → Checks} {f : Ctx → Res}
        (h : issueChecked s k f = .next t)
        (hf : ∀ m, (f (c.without m)).Framed s c.key (VecFrame c n.val (i = .addc (.v n) a b ∨ i = .subb (.v n) a b))) :=
      issueChecked_framed VecFrame.of_sameRegs hc VecFrame.refl hf h
    simp only [List.mem_cons, List.not_mem_nil, or_false] at hi
    rcases hi with rfl | rfl | rfl | rfl | rfl | rfl | rfl | rfl | rfl | rfl | rfl | rfl | rfl | rfl | rfl | rfl | rfl | rfl |
      rfl | rfl | rfl | rfl | rfl | rfl | rfl | rfl | rfl | rfl | rfl | rfl | rfl | rfl | rfl | rfl | rfl | rfl | rfl | rfl |
      rfl | rfl | rfl | rfl | rfl | rfl | rfl | rfl | rfl | rfl | rfl | rfl | rfl | rfl
    -- ADD to NEG, SCALE and RINT
    iterate 12 exact hok ht (fun m => writeElems_framed hc m _ rfl _)
    -- FRXP
    · refine hok ht (fun m => ?_)
      by_cases h1 : m1 = 0
      · simp only [h1, if_true]
        exact writeElems_framed hc m _ rfl _
      · simp only [h1, if_false]
        exact writeElems_framed hc m _ rfl _
    -- CVT, ENCT, DECT, MOV
    · exact hok ht (fun m => writesFlags_framed hc m (Ty.words_le_two _) _ _)
    · exact hok ht (fun m => writesFlags_framed hc m (by omega) _ _)
    · exact hok ht (fun m => writesAct_framed hc m (by omega) _)
    · exact hok ht (fun m => writesAct_framed hc m (Ty.words_le_two _) _)
    -- SEL
    · refine hok ht (fun m => onWave_framed ((VecFrame.refl.vwrite m (Ty.words_le_two _) (fun l hl => ?_) _).record _) _ rfl)
      rw [Ctx.without, BitVec.getLsbD_and, BitVec.getLsbD_and, Bool.and_eq_true, Bool.and_eq_true] at hl
      exact hl.1.1
    -- ADDC, SUBB
    · exact hok ht (fun m => onWave_framed
        ((VecFrame.refl.vwrite m (k := 1) (by omega) (without_act hc m) _).pwrite (.inl rfl) _ _) _ rfl)
    · exact hok ht (fun m => onWave_framed
        ((VecFrame.refl.vwrite m (k := 1) (by omega) (without_act hc m) _).pwrite (.inr rfl) _ _) _ rfl)
    -- MULHI, MULW
    · exact hok ht (fun m => writeElems_framed hc m _ rfl _)
    · exact hok ht (fun m => writesAct_framed hc m (by omega) _)
    -- AND, OR, XOR, NOT
    iterate 4 exact hok ht (fun m => writesAct_framed hc m (Ty.words_le_two _) _)
    -- SHL to BREV
    iterate 7 exact hok ht (fun m => writeElems_framed hc m _ rfl _)
    -- BFE, BFI, CLMUL, CLMULH
    iterate 4 exact hok ht (fun m => writesAct_framed hc m (by omega) _)
    -- DOT4, DOT2
    iterate 2 exact hok ht (fun m => writesFlags_framed hc m (by omega) _ _)
    -- SHFL, SHFLX, BCAST
    iterate 3 exact hok ht (fun m => writesAct_framed hc m (Ty.words_le_two _) _)
    -- WRED, WSCAN, SPSEL
    · exact hok ht (fun m => writesFlags_framed hc m (Ty.words_le_two _) _ _)
    · exact hok ht (fun m => writesFlags_framed hc m (Ty.words_le_two _) _ _)
    · refine hok ht (fun m => writesAct_framed hc m ?_ _)
      split
      · exact sparseWords_le_two _
      · omega
    -- RCP to DIV
    iterate 7 exact hok ht (fun m => onWave_framed (VecFrame.refl.special _ _) _ rfl)
  have hvec := hframe.wave w' hw
  exact ⟨hvec.v, hvec.s, hvec.md, hvec.memOps, hvec.times, hvec.priv, hvec.p, hframe.others, hframe.bytes, hframe.parts,
    hframe.time⟩

/-! ## Scalar words (R164 to R189) -/

/-- What a scalar word that writes k registers from sn leaves of its wave. -/
structure ScalarFrame (c : Ctx) (n k : Nat) (w : Wave) : Prop where
  s : ∀ r, (r < n ∨ n + k ≤ r) → w.s.get r = c.w.s.get r
  v : w.v = c.w.v
  p : w.p = c.w.p
  fx : w.fx = c.w.fx
  md : w.md = c.w.md
  memOps : w.memOps = c.w.memOps

section
variable {s t : State} {c : Ctx} {n k : Nat} {w : Wave}

theorem ScalarFrame.refl : ScalarFrame c n k c.w := ⟨fun _ _ => rfl, rfl, rfl, rfl, rfl, rfl⟩

theorem ScalarFrame.of_sameRegs (w w' : Wave) (h : w.SameRegs w') (hw : ScalarFrame c n k w) : ScalarFrame c n k w' where
  s r hr := by rw [h.s, hw.s r hr]
  v := h.v.trans hw.v
  p := h.p.trans hw.p
  fx := h.fx.trans hw.fx
  md := h.md.trans hw.md
  memOps := h.memOps.trans hw.memOps

/-- A write of j of the k registers. -/
theorem ScalarFrame.swrite (h : ScalarFrame c n k w) {j : Nat} (hj : j ≤ k) (x : Nat) : ScalarFrame c n k (w.swrite n j x) where
  s r hr := by
    rw [Wave.swrite_get, if_neg (by omega)]
    exact h.s r hr
  v := h.v
  p := h.p
  fx := h.fx
  md := h.md
  memOps := h.memOps

/-- V2S writes one register, records HW_ERR or waits (R188). -/
theorem v2s_framed (hc : s.ctx? = some c) {d : SCode} {a : VCode} {b : SCode} (ht : execV2s d a b s = .next t) :
    s.Framed t c.key (ScalarFrame c d.sNum 1) := by
  refine issueChecked_framed ScalarFrame.of_sameRegs hc ScalarFrame.refl (fun m => ?_) ht
  have hs : s.Framed s c.key (ScalarFrame c d.sNum 1) := State.Framed.of_ctx? hc ScalarFrame.refl
  dsimp only
  split
  next r hr =>
    split at hr
    · exact Ctx.waitOn_framed (c := c.without m) ScalarFrame.of_sameRegs hs hr
    · cases hr
  next =>
    split
    · exact onWave_framed (ScalarFrame.of_sameRegs c.w (c.w.record _) ⟨rfl, rfl, rfl, rfl, rfl, rfl, rfl, rfl⟩ ScalarFrame.refl) _ rfl
    · exact onWave_framed (ScalarFrame.refl.swrite (by omega) _) _ rfl

/-- SYSRD writes one register or a pair, or waits for FX (R168). -/
theorem sysrd_framed (hc : s.ctx? = some c) {d : SCode} {index : BitVec 16} (ht : execSysrd d index s = .next t) :
    s.Framed t c.key (ScalarFrame c d.sNum 2) := by
  refine issueChecked_framed ScalarFrame.of_sameRegs hc ScalarFrame.refl (fun m => ?_) ht
  split
  · trivial
  next r _ =>
    split
    · trivial
    · refine onWave_framed (ScalarFrame.refl.swrite ?_ _) _ rfl
      split <;> omega

end

/-- Settles O46. -/
theorem scalarWordFrame : Obligations.ScalarWordFrame := by
  intro s t c w' d a b v n m i k hi hc ht hw
  have hframe : s.Framed t c.key (ScalarFrame c d.sNum k) := by
    have hok {k : Nat} {f : Ctx → Res} {g : Ctx → Checks} (h : issueChecked s g f = .next t)
        (hf : ∀ m, (f (c.without m)).Framed s c.key (ScalarFrame c d.sNum k)) :=
      issueChecked_framed ScalarFrame.of_sameRegs hc ScalarFrame.refl hf h
    obtain ⟨hi, rfl⟩ | ⟨hi, rfl⟩ := hi
    · simp only [List.mem_cons, List.not_mem_nil, or_false] at hi
      rcases hi with rfl | rfl | rfl | rfl | rfl | rfl | rfl | rfl | rfl | rfl | rfl | rfl | rfl | rfl | rfl | rfl | rfl |
        rfl | rfl | rfl | rfl | rfl | rfl
      iterate 22 exact hok ht (fun m => onWave_framed (ScalarFrame.refl.swrite (by omega) _) _ rfl)
      exact v2s_framed hc ht
    · simp only [List.mem_cons, List.not_mem_nil, or_false] at hi
      rcases hi with rfl | rfl | rfl | rfl | rfl | rfl
      iterate 5 exact hok ht (fun m => onWave_framed (ScalarFrame.refl.swrite (by omega) _) _ rfl)
      exact sysrd_framed hc ht
  have hsc := hframe.wave w' hw
  exact ⟨hsc.s, hsc.v, hsc.p, hsc.fx, hsc.md, hsc.memOps, hframe.others, hframe.bytes, hframe.parts, hframe.time⟩

/-! ## Memory words (R258 to R292) -/

/-- What a load, store or atomic leaves of its wave when it issues. -/
structure MemFrame (c : Ctx) (w : Wave) : Prop where
  v : w.v = c.w.v
  s : w.s = c.w.s
  p : w.p = c.w.p
  md : w.md = c.w.md
  fx : w.fx = c.w.fx

section
variable {s t : State} {c : Ctx}

theorem MemFrame.refl : MemFrame c c.w := ⟨rfl, rfl, rfl, rfl, rfl⟩

theorem MemFrame.of_sameRegs (w w' : Wave) (h : w.SameRegs w') (hw : MemFrame c w) : MemFrame c w' :=
  ⟨h.v.trans hw.v, h.s.trans hw.s, h.p.trans hw.p, h.md.trans hw.md, h.fx.trans hw.fx⟩

theorem MemFrame.sends {w : Wave} (h : MemFrame c w) (l : List MemOp) : MemFrame c { w with memOps := l } :=
  ⟨h.v, h.s, h.p, h.md, h.fx⟩

/-- What leaves the core changes its wave's operations alone (R237). -/
theorem State.Framed.depart {k : Nat} (h : s.Framed t k (MemFrame c)) : s.Framed (t.depart k) k (MemFrame c) := by
  unfold State.depart
  split
  · exact h
  next w hw =>
    dsimp only
    split
    · exact h
    · exact {
        wave := fun x hx => by
          simp only [State.setWave, Table.get?_set_same, Option.some.injEq] at hx
          exact hx ▸ (h.wave w hw).sends _
        others := fun j hj => by simpa [State.setWave, Table.get?_set_other, hj] using h.others j hj
        bytes := fun x n => (t.setWave_readLoc k _ x n).trans (h.bytes x n)
        parts := h.parts
        time := h.time }

/-- Outside a deterministic launch an access waits, or joins its wave's outstanding ones (R260). -/
theorem access_framed (hc : s.ctx? = some c) (hd : c.w.isDet = false) (m : LaneMask) {kind : MemKind} {size : Nat}
    {sx returns counted marks : Bool} {asks : List Ask} {mk : Granted → List MemUnit} :
    ((c.without m).access s kind size sx returns counted marks asks mk).Framed s c.key (MemFrame c) := by
  have hd' : (c.without m).w.isDet = false := hd
  cases hh : (c.without m).accessHeld with
  | true =>
    rw [Ctx.access_held hh]
    trivial
  | false =>
    cases hs : s.slotsFree (c.without m).w ((c.without m).newOp kind size sx returns counted
      ((s.checkAll (c.without m).w (c.without m).blk (c.without m).src asks).1.flatMap mk)) with
    | false =>
      rw [Ctx.access_full hd' hh kind size sx returns counted marks asks mk hs]
      trivial
    | true =>
      rw [Ctx.access_issues hd' hh kind size sx returns counted marks asks mk hs]
      refine State.Framed.depart (State.Framed.modWave_of (State.Framed.of_ctx? hc MemFrame.refl) fun w hw => ?_)
      rw [Ctx.marked_eq]
      obtain ⟨fl, hfl⟩ := Wave.flagUp_eq _ _
      rw [hfl]
      exact ⟨hw.v, hw.s, hw.p, hw.md, hw.fx⟩

end

/-- Settles O47. -/
theorem memoryWordFrame : Obligations.MemoryWordFrame := by
  intro s t c w' d a b x y w i hi hc hd ht hw
  have hframe : s.Framed t c.key (MemFrame c) := by
    have hok {f : Ctx → Res} {g : Ctx → Checks} (h : issueChecked s g f = .next t)
        (hf : ∀ m, (f (c.without m)).Framed s c.key (MemFrame c)) :=
      issueChecked_framed MemFrame.of_sameRegs hc MemFrame.refl hf h
    simp only [List.mem_cons, List.not_mem_nil, or_false] at hi
    rcases hi with rfl | rfl | rfl | rfl | rfl | rfl | rfl | rfl | rfl | rfl | rfl | rfl | rfl | rfl | rfl | rfl | rfl |
      rfl | rfl | rfl | rfl | rfl | rfl | rfl | rfl | rfl | rfl | rfl | rfl | rfl | rfl
    iterate 31 exact hok ht (fun m => access_framed hc hd m)
  have hmem := hframe.wave w' hw
  exact ⟨hmem.v, hmem.s, hmem.p, hmem.md, hmem.fx, hframe.others, hframe.bytes, hframe.time⟩

end Sys2Proof.Machine
end

