-- ==== Sys2Proof/Proofs/EngineWords.lean ====
section
/-! The words that prefetch, post tokens and tasks, launch, and start the copy engines and the fabric (O40, O41). -/

namespace Sys2Proof.Machine

/-! # Tasks and prefetches

Prefetches, tokens, tasks and launches (R62, R268, R343 to R345). -/

/-- The branch that a false test leaves. -/
theorem ite_else {α : Type} {p : Prop} [Decidable p] {x y z : α} (hp : ¬ p) (h : y = z) : (if p then x else y) = z :=
  (if_neg hp).trans h

/-! ## PFD (R268) -/

theorem ok_of_ite {ε α : Type} {p q : Prop} [Decidable p] [Decidable q] {x y l : α} {e : ε}
    (h : (if p then (if q then Except.ok x else .error e) else .ok y) = .ok l) : x = l ∨ y = l := by
  split at h
  · split at h <;> cases h
    exact .inl rfl
  · cases h
    exact .inr rfl

/-- An access in window 0x00 that passes its checks lies off chip. -/
theorem State.check_offChip {s : State} {w : Wave} {b : Block} {src : WordRef} {a : Ask} {g : Granted}
    (hw : a.windows = [0x00]) (h : s.check w b src a = .ok g) : g.loc.offChip = true ∧ g.ask = a := by
  have hplace (l : Loc) (hl : s.place w b a = .ok l) : l.offChip = true := by
    simp only [State.place, hw] at hl
    split at hl
    · cases hl
    next h0 =>
      have h0 : a.addr / 2 ^ 56 = 0 := by simpa using h0
      simp only [State.window, h0] at hl
      rcases ok_of_ite hl with rfl | rfl <;> rfl
  unfold State.check at h
  split at h
  · cases h
  · split at h
    · cases h
    · dsimp only at h
      split at h
      · cases h
        exact ⟨rfl, rfl⟩
      · split at h
        · cases h
        · split at h <;> cases h
          exact ⟨rfl, rfl⟩
    next l _ hl =>
      split at h
      · cases h
      · split at h <;> cases h
        exact ⟨hplace _ hl, rfl⟩

/-- What passed the checks is one of the accesses that were checked. -/
theorem State.checkAll_ok {s : State} {w : Wave} {b : Block} {src : WordRef} {l : List Ask} {g : Granted}
    (h : g ∈ (s.checkAll w b src l).1) : ∃ a ∈ l, s.check w b src a = .ok g := by
  induction l with
  | nil => exact absurd h (List.not_mem_nil)
  | cons a l ih =>
    simp only [State.checkAll, List.foldr_cons] at h ih
    split at h
    next g' hg =>
      rcases List.mem_cons.1 h with rfl | h
      · exact ⟨a, List.mem_cons_self, hg⟩
      · obtain ⟨a', ha', h'⟩ := ih h
        exact ⟨a', List.mem_cons_of_mem _ ha', h'⟩
    next =>
      obtain ⟨a', ha', h'⟩ := ih h
      exact ⟨a', List.mem_cons_of_mem _ ha', h'⟩

/-- Off chip a strong access is one unit, in its own lane. -/
theorem mem_unitsOf_offChip {g : Granted} {n data cmp reg : Nat} {u : MemUnit} (hg : g.loc.offChip = true) (hn : 0 < n)
    (h : u ∈ unitsOf g true n data cmp reg) : u.len = n ∧ u.lane = g.ask.lane := by
  obtain ⟨i, _, rfl⟩ := List.mem_map.1 h
  simp only [unitLen, hg, if_true]
  exact ⟨by omega, trivial⟩

/-- The lines that some lanes name, each with the first lane that names it. -/
theorem mem_distinct_lines (l : List (Nat × Nat)) (acc : List (Nat × Nat)) {e : Nat × Nat}
    (h : e ∈ l.foldl (fun (acc : List (Nat × Nat)) e => if acc.any (fun x => x.2 == e.2) then acc else acc ++ [e]) acc) :
    e ∈ acc ∨ e ∈ l := by
  induction l generalizing acc with
  | nil => exact .inl h
  | cons x l ih =>
    rw [List.foldl_cons] at h
    rcases ih _ h with h | h
    · split at h
      · exact .inl h
      · rcases List.mem_append.1 h with h | h
        · exact .inl h
        · exact .inr (List.mem_singleton.1 h ▸ List.mem_cons_self)
    · exact .inr (List.mem_cons_of_mem _ h)

theorem prefetch_issues {s : State} {c : Ctx} {level : BitVec 1} {a : VCode} (h : Issues s c (pfdChecks a c)) :
    ∃ units : List MemUnit, (∀ u ∈ units, u.len = 128 ∧ c.act.getLsbD u.lane = true) ∧
      execPfd level a s = c.leaves (if c.w.isDet = true ∨ units = [] then s else
        (s.setWave c.key { c.w with memOps := c.w.memOps ++
          [c.newOp (.prefetch (level == 0)) 128 false false false units] }).depart c.key) := by
  let lines := ((bitsOf c.act).map (fun l => (l, c.addressOf a l / 128 * 128))).foldl
    (fun (acc : List (Nat × Nat)) e => if acc.any (fun x => x.2 == e.2) then acc else acc ++ [e]) []
  let ok := (s.checkAll c.w c.blk c.src (lines.map (fun e => (⟨e.1, e.2, 128, 1, [0x00], false, .unchecked⟩ : Ask)))).1
  let room := min (2048 - s.coreSlots c.w.core) (512 - s.waveSlots c.w)
  let units := (ok.take room).flatMap (fun g => unitsOf { g with ease := none } true 128 0 0 0)
  refine ⟨units, fun u hu => ?_, issueChecked_next h ?_⟩
  · obtain ⟨g, hg, hu⟩ := List.mem_flatMap.1 hu
    obtain ⟨x, hx, hcheck⟩ := State.checkAll_ok (List.mem_of_mem_take hg)
    obtain ⟨e, he, rfl⟩ := List.mem_map.1 hx
    obtain ⟨hloc, hask⟩ := State.check_offChip rfl hcheck
    obtain ⟨hlen, hlane⟩ := mem_unitsOf_offChip (g := { g with ease := none }) hloc (by omega) hu
    refine ⟨hlen, ?_⟩
    obtain hnil | hmem := mem_distinct_lines _ _ he
    · exact absurd hnil List.not_mem_nil
    · obtain ⟨l, hl, rfl⟩ := List.mem_map.1 hmem
      rw [hlane, hask]
      exact (mem_bitsOf.1 hl).2
  · by_cases hd : c.w.isDet = true ∨ units = []
    · rw [if_pos hd]
      exact if_pos (by rwa [Bool.or_eq_true, List.isEmpty_iff])
    · rw [if_neg hd]
      exact if_neg (by rwa [Bool.or_eq_true, List.isEmpty_iff])

/-! ## IPF (R62) -/

/-- A step that keeps the registers of every wave and its accesses, the blocks, grids and memory of lanes. -/
structure State.KeepsWork (s t : State) : Prop where
  blocks : t.blocks = s.blocks
  grids : t.grids = s.grids
  privMem : t.privMem = s.privMem
  waves : ∀ k w, s.waves.get? k = some w → ∃ w', t.waves.get? k = some w' ∧ w.SameRegs w'

theorem State.KeepsWork.refl (s : State) : s.KeepsWork s := ⟨rfl, rfl, rfl, fun _ w h => ⟨w, h, .refl w⟩⟩

theorem State.KeepsWork.trans {s t u : State} (h : s.KeepsWork t) (h' : t.KeepsWork u) : s.KeepsWork u where
  blocks := h'.blocks.trans h.blocks
  grids := h'.grids.trans h.grids
  privMem := h'.privMem.trans h.privMem
  waves k w hw := by
    obtain ⟨x, hx, hwx⟩ := h.waves k w hw
    obtain ⟨y, hy, hxy⟩ := h'.waves k x hx
    exact ⟨y, hy, hwx.trans hxy⟩

/-- A change of waves that keeps the registers of each. -/
theorem State.KeepsWork.mapWaves (s : State) {f : Nat → Wave → Bool} {g : Wave → Wave} (hg : ∀ w : Wave, w.SameRegs (g w)) :
    s.KeepsWork (s.mapWaves f g) where
  blocks := rfl
  grids := rfl
  privMem := rfl
  waves k w hw := by
    refine ⟨if f k w then g w else w, by simp [State.mapWaves, Table.get?_mapVals, hw], ?_⟩
    split
    · exact hg w
    · exact .refl w

theorem Wave.sameRegs_fireMonitor (w : Wave) (now : Nat) : w.SameRegs (w.fireMonitor now) := by
  unfold Wave.fireMonitor
  split <;> exact ⟨rfl, rfl, rfl, rfl, rfl, rfl, rfl, rfl⟩

theorem Wave.sameRegs_fireHeld (w : Wave) (now : Nat) : w.SameRegs (w.fireHeld now) := by
  unfold Wave.fireHeld
  split <;> exact ⟨rfl, rfl, rfl, rfl, rfl, rfl, rfl, rfl⟩

theorem State.KeepsWork.fireMonitors (s : State) (l : Loc) (n : Nat) : s.KeepsWork (s.fireMonitors l n) := by
  refine (State.KeepsWork.mapWaves s fun w => ?_).trans (State.KeepsWork.mapWaves _ fun w => ?_)
  · split
    · exact w.sameRegs_fireMonitor s.time
    · exact ⟨rfl, rfl, rfl, rfl, rfl, rfl, rfl, rfl⟩
  · split
    · exact w.sameRegs_fireHeld _
    · exact ⟨rfl, rfl, rfl, rfl, rfl, rfl, rfl, rfl⟩

theorem State.KeepsWork.wakeGlobal (s : State) (l : Loc) (n : Nat) : s.KeepsWork (s.wakeGlobal l n) :=
  have h := State.KeepsWork.fireMonitors s l n
  ⟨h.blocks, h.grids, h.privMem, h.waves⟩

theorem State.KeepsWork.markPage (s : State) (place : Nat) (write : Bool) : s.KeepsWork (s.markPage place write) := by
  have hstore (m : Memory) : s.KeepsWork ({ s with hbm := m }.wakeGlobal (.global place false) 8) :=
    have h := State.KeepsWork.wakeGlobal { s with hbm := m } (.global place false) 8
    ⟨h.blocks, h.grids, h.privMem, h.waves⟩
  dsimp only [State.markPage]
  generalize s.hbmLoad place 8 ||| 0x40 ||| (if write then 0x80 else 0) = pte
  split
  · exact .refl s
  · exact hstore _

/-- A code line's translation changes a page's A bit, TLBs and monitors alone (R232, R233). -/
theorem State.KeepsWork.codeLine {s t : State} {w : Wave} {va line : Nat} (h : s.codeLine w va = some (t, line)) :
    s.KeepsWork t := by
  unfold State.codeLine at h
  split at h
  · cases h
    exact .refl s
  · cases h
  · dsimp only at h
    split at h
    next place _ _ _ _ _ _ =>
      cases h
      have hmark := State.KeepsWork.markPage s place false
      exact ⟨hmark.blocks, hmark.grids, hmark.privMem, hmark.waves⟩
    · cases h

/-- What IPF does with one line (R62). -/
def State.ipfLine (s : State) (level : Nat) (w : Wave) (va : Nat) : State :=
  match s.codeLine w va with
  | some (t, line) => if t.hpoison.contains (line / 2) then t else t.ipfFill level w.core w.quad w.part line
  | none => s

theorem State.KeepsWork.ipfLine (s : State) (level : Nat) (w : Wave) (va : Nat) : s.KeepsWork (s.ipfLine level w va) := by
  unfold State.ipfLine
  split
  next t line h =>
    have hcode := State.KeepsWork.codeLine h
    split
    · exact hcode
    · exact ⟨hcode.blocks, hcode.grids, hcode.privMem, hcode.waves⟩
  · exact .refl s

theorem State.KeepsWork.foldl {α : Type} (f : State → α → State) (hf : ∀ (s : State) x, s.KeepsWork (f s x)) (l : List α) (s : State) :
    s.KeepsWork (l.foldl f s) := by
  induction l generalizing s with
  | nil => exact .refl s
  | cons x l ih => exact (hf s x).trans (ih (f s x))

section
variable {s : State} {c : Ctx} {level : BitVec 2} {a : VCode} {count : BitVec 5}

theorem ipf_issues (h : Issues s c (ipfChecks level a count c)) : execIpf level a count s =
    c.leaves ((List.range count.toNat).foldl
      (fun s i => s.ipfLine level.toNat c.w (64 * ((c.wordTarget a).toNat / 64 + i))) s) :=
  issueChecked_next h rfl

/-- IPF of one line. -/
theorem ipf_one_issues (h : Issues s c (ipfChecks level a count c)) (h1 : count = 1) :
    execIpf level a count s = c.leaves (s.ipfLine level.toNat c.w ((c.wordTarget a).toNat / 64 * 64)) := by
  rw [ipf_issues h, h1]
  show c.leaves (s.ipfLine level.toNat c.w (64 * ((c.wordTarget a).toNat / 64 + 0))) = _
  rw [Nat.add_zero, Nat.mul_comm]

end

/-! ## GFIRE, SPAWN and LAUNCH (R343 to R345) -/

section
variable {s : State} {c : Ctx} {d a b : VCode}

/-- A change that changes nothing. -/
theorem State.modWave_of_id (k : Nat) {g : Wave → Wave} (hg : ∀ w, g w = w) : s.modWave k g = s := by
  have h : s.waves.update k g = s.waves :=
    (List.map_congr_left fun e _ => by rw [hg]; exact ite_self e).trans (List.map_id _)
  rw [State.modWave, h]

/-- SPAWN with no lane at fault posts a task for each lane in `act`. -/
theorem spawn_issues (h : Issues s c (spawnChecks a b c)) (hh : c.accessHeld = false)
    (hturn : c.behind s (fun w y => dieOf w.core == dieOf c.w.core && opcodeOf y == opcodeOf c.src.word) = false)
    (hroom : s.taskLoad (dieOf c.w.core) + (bitsOf c.act).length ≤ 16384) (hact : c.act ≠ 0)
    (hok : ∀ l, c.act.getLsbD l = true → l < 64 → s.spawnFault c.w.part (c.operand .raw a l) (c.addressOf b l) = none) :
    execSpawn a b s = .next (c.finish s (c.postOp s (c.newOp (.task 0) 0 false false false
      ((bitsOf c.act).map (fun l => placeless l (c.addressOf b l) (c.operand .raw a l)))))) := by
  have hfault (l : Nat) (hl : l ∈ bitsOf c.act) : s.spawnFault c.w.part (c.operand .raw a l) (c.addressOf b l) = none :=
    hok l (mem_bitsOf.1 hl).2 (mem_bitsOf.1 hl).1
  have hbad : (bitsOf c.act).filterMap (fun l => (s.spawnFault c.w.part (c.operand .raw a l) (c.addressOf b l)).map (fun x =>
      { laneCause c.src x l with faddr := if x = Cause.illegalOperand then 0 else BitVec.ofNat 64 (c.addressOf b l) })) = [] :=
    List.filterMap_eq_nil_iff.2 fun l hl => by rw [hfault l hl]; rfl
  have hgood : (bitsOf c.act).filter (fun l => (s.spawnFault c.w.part (c.operand .raw a l) (c.addressOf b l)).isNone) =
      bitsOf c.act := List.filter_eq_self.2 fun l hl => by rw [hfault l hl]; rfl
  have hne : bitsOf c.act ≠ [] := by
    obtain ⟨l, hl, hb⟩ := mask_ne_zero_iff.1 hact
    exact List.ne_nil_of_mem (mem_bitsOf.2 ⟨hl, hb⟩)
  refine issueChecked_finishes h ?_
  simp only [hgood]
  rw [if_neg, if_neg (by simpa using hne), hbad, State.modWave_of_id _ Wave.record_nil]
  · simp only [hh, hturn, Bool.false_or, Bool.or_false, decide_eq_true_eq]
    omega

/-- LAUNCH whose turn has come reads its descriptor and starts a grid (R344). -/
theorem launch_issues (h : Issues s c (launchChecks d a c)) (hact : c.act ≠ 0) (halign : c.addressOf a 0 % 64 = 0)
    (hwin : c.addressOf a 0 < 2 ^ 56) (hh : c.accessHeld = false) (hdone : s.accessesDone c.key c.w c.gang c.act = true)
    (hperf : c.performedAt c.act (max 3 (mdScope c.w.md)) = true) (hpast : ∀ e, c.w.det = some e → e.past = some c.gang)
    (hwait : s.launchesWaiting c.w.part < 4096) (hswitch : (s.func c.w.func).switching = none)
    (hactive : (s.func c.w.func).active = true)
    (hturn : c.behind s (fun w y => w.part == c.w.part && opcodeOf y == opcodeOf c.src.word) = false) {t : State} {l : Loc}
    (hplace : (s.modWave c.key (fun w => { w with idem := false, side := true })).enginePlace globalDecoder c.w.func c.w.priv
      false (c.addressOf a 0) 64 = (t, .ok l)) (hclean : t.poisoned l = false) :
    let words := (List.range 16).map (fun i => BitVec.ofNat 32 (t.readLoc l 64 / 2 ^ (32 * i)))
    let own := (t.grids.get? c.blk.grid).map (fun g => (g.wgt, min g.launch.prio (t.func c.w.func).prioceil))
    let r := t.startGrid c.w.func true words (own.getD (1, 0)).1 (own.getD (1, 0)).2 .device false
    execLaunch d a s = c.leaves (r.1.modWave c.key (fun w => w.swrite d.sNum 1 (match r.2 with
        | .ok _ => 0
        | .error n => n))) := by
  refine issueChecked_next h ?_
  simp only [Ctx.afterQuantum_past hpast, hact, if_false, halign, Nat.div_eq_of_lt hwin, ne_eq, not_true_eq_false, hdone, hperf,
    hh, hswitch, hactive, hturn, Bool.and_self, Bool.not_true, Bool.or_false, Option.isSome_none,
    Nat.not_le.2 hwait, decide_false, Bool.false_eq_true, hplace, hclean]
  cases t.grids.get? c.blk.grid with
  | none =>
    dsimp only [Option.map_none, Option.getD_none]
    rcases t.startGrid c.w.func true _ 1 0 .device false with ⟨u, _ | _⟩ <;> rfl
  | some g =>
    dsimp only [Option.map_some, Option.getD_some]
    rcases t.startGrid c.w.func true _ g.wgt _ .device false with ⟨u, _ | _⟩ <;> rfl

end

/-- Settles O40. -/
theorem tasksAndPrefetches : Obligations.TasksAndPrefetches := by
  intro s c d a b plat x post turn
  refine ⟨fun level h => prefetch_issues h, fun level count h => ⟨?_, fun h1 t line hline => ?_, fun h1 hline => ?_⟩,
    fun h hact hh halign hwin => ?_, fun cause h hact hh hcause => ?_, fun h hact => ?_,
    fun h hh hturn hroom hact hok => spawn_issues h hh hturn hroom hact hok, fun h hact => ?_,
    fun h hact halign hwin hh hdone hperf hpast hwait hswitch hactive hturn t l => ?_, fun h hact halign => ?_⟩
  -- IPF
  · have hkeep := State.KeepsWork.foldl (fun s i => s.ipfLine level.toNat c.w (64 * ((c.wordTarget a).toNat / 64 + i)))
      (fun s i => .ipfLine s _ _ _) (List.range count.toNat) s
    refine ⟨_, ipf_issues h, hkeep.blocks, hkeep.grids, hkeep.privMem, fun k w hw => ?_⟩
    obtain ⟨w', hw', hregs⟩ := hkeep.waves k w hw
    exact ⟨w', hw', hregs.v, hregs.s, hregs.p, hregs.md, hregs.fx, hregs.memOps⟩
  · refine (ipf_one_issues h h1).trans ?_
    rw [State.ipfLine, hline]
  · refine (ipf_one_issues h h1).trans ?_
    rw [State.ipfLine, hline]
  -- GFIRE
  · have hwin' : ¬ plat / 2 ^ 56 ≠ 0 := not_not.2 (Nat.div_eq_of_lt hwin)
    exact issueChecked_next h (ite_else hact (ite_else (ne_true_of_eq_false hh) (ite_else (not_not.2 halign) (if_neg hwin'))))
  · obtain ⟨halign, rfl⟩ | ⟨halign, hwin, rfl⟩ := hcause
    · exact issueChecked_next h (ite_else hact (ite_else (ne_true_of_eq_false hh) (if_pos halign)))
    · have hwin' : plat / 2 ^ 56 ≠ 0 := (Nat.div_pos hwin (by decide)).ne'
      exact issueChecked_next h (ite_else hact (ite_else (ne_true_of_eq_false hh) (ite_else (not_not.2 halign) (if_pos hwin'))))
  · exact issueChecked_next h (if_pos hact)
  -- LAUNCH
  · exact issueChecked_next h (if_pos hact)
  · exact fun hplace hclean => launch_issues h hact halign hwin hh hdone hperf hpast hwait hswitch hactive hturn hplace hclean
  · exact issueChecked_next h ((if_neg hact).trans (if_pos halign))

/-! # Copy engines and fabric

The words that start the copy engines and the fabric (R296, R308 to R310, R411 to R415). -/

section
variable {s : State} {c : Ctx} {a : VCode}

/-! ## Direct transfers (R296) -/

/-- A transfer of a deterministic wave is left to its commit (R314). -/
theorem State.startXfer_buffered {dec : Decoder} {x : Transfer} (h : x.buffered = true) :
    s.startXfer dec x = { s with xfers := s.xfers ++ [x] } := if_pos h

/-- Any other direct transfer registers its easements (R303). -/
theorem State.startXfer_direct {dec : Decoder} {x : Transfer} (h : x.buffered = false) (hc : x.chain = false) :
    s.startXfer dec x = { s.addEases x.core (opEases dec x.id x.func x.op x.desc) with
      xfers := (s.addEases x.core (opEases dec x.id x.func x.op x.desc)).xfers ++ [{ x with eased := true }] } := by
  simp [State.startXfer, h, hc]

/-- A chain's easements are those of its records (R303). -/
theorem State.startXfer_chain {dec : Decoder} {x : Transfer} (h : x.buffered = false) (hc : x.chain = true) :
    s.startXfer dec x = { s with xfers := s.xfers ++ [{ x with eased := false }] } := by
  simp [State.startXfer, h, hc]

section
variable {op : XOp} (h : Issues s c (directTransferChecks a)) (hact : c.act ≠ 0)
include h hact

theorem directTransfer_starts (hd : c.w.isDet = true ∨ c.easeTurn s 2 = true)
    (hf : s.descFault (s.waveDecoder c.w c.blk) op ((List.range 12).map (fun i => c.w.s.get (a.sNum + i))) = none) :
    let desc := (List.range 12).map (fun i => c.w.s.get (a.sNum + i))
    directTransfer op a s = c.leaves { (s.startXfer (s.waveDecoder c.w c.blk) (c.newXfer s op desc)).modWave c.key
      (fun w => w.engineIssued (hdrSetB c.src.hdr) s.nextId (descDst desc / 2 ^ 56 == 0)) with
        nextId := ((s.startXfer (s.waveDecoder c.w c.blk) (c.newXfer s op desc)).modWave c.key
      (fun w => w.engineIssued (hdrSetB c.src.hdr) s.nextId (descDst desc / 2 ^ 56 == 0))).nextId + 1 } := by
  refine issueChecked_next h (ite_else hact ?_)
  simp only [hf]
  exact if_neg (by rcases hd with hd | hd <;> simp [hd])

theorem directTransfer_waits (hd : c.w.isDet = false) (ht : c.easeTurn s 2 = false)
    (hf : s.descFault (s.waveDecoder c.w c.blk) op ((List.range 12).map (fun i => c.w.s.get (a.sNum + i))) = none) :
    directTransfer op a s = .next (c.wait s) := by
  refine issueChecked_stalls h (ite_else hact ?_)
  simp only [hf]
  exact if_pos (by simp [hd, ht])

theorem directTransfer_faults {cause : Cause} {addr xinfo : Nat}
    (hf : s.descFault (s.waveDecoder c.w c.blk) op ((List.range 12).map (fun i => c.w.s.get (a.sNum + i))) =
      some (cause, addr, xinfo)) :
    directTransfer op a s = c.leavesWave s ((c.idleSetB c.w).record
      [⟨(bitsOf c.act).headD 0, cause, false, xinfo, BitVec.ofNat 64 addr, c.src, false, none⟩]) := by
  refine issueChecked_next h (ite_else hact ?_)
  simp only [hf]
  rfl

end

/-! ## Chains (R308) -/

theorem chain_issues {ch : BitVec 4} (h : Issues s c (xchainChecks a c)) (hact : c.act ≠ 0) (halign : c.addressOf a 0 % 64 = 0)
    (hwin : c.addressOf a 0 / 2 ^ 56 = 0 ∨ c.addressOf a 0 / 2 ^ 56 = 0xF0 ∨ c.addressOf a 0 / 2 ^ 56 = 0xF2) :
    let head := c.addressOf a 0
    let started := fun (t : State) (x : Transfer) => { ({ t with xfers := t.xfers ++ [x] }.modWave c.key
      (fun w => w.engineIssued (hdrSetB c.src.hdr) s.nextId false)) with nextId := s.nextId + 1 }
    let x := { c.newXfer s .cpy [] with chain := true, ch := ch.toNat, cur := BitVec.ofNat 64 head, loaded := false }
    let turn := c.behind s (fun w y => w.core == c.w.core && s.wantsChannel w y) = false ∧
      s.chainWaits c.w.core ((c.w.stalledSince c.gang).getD c.now) = false
    (c.w.isDet = false → s.chanFree c.w.block ch.toNat c.w.core = true → turn → execXchain ch a s =
      c.leaves (started (s.openChan c.w.block ch.toNat (BitVec.ofNat 64 head)) x)) ∧
    (c.w.isDet = true → execXchain ch a s = c.leaves (started s x)) ∧
    (c.w.isDet = false → (s.chanFree c.w.block ch.toNat c.w.core = false ∨ ¬ turn) → execXchain ch a s = .next (c.wait s)) := by
  intro head started x turn
  have hwin' : (!(List.contains [0x00, 0xF0, 0xF2] (head / 2 ^ 56))) = false := by
    rw [Bool.not_eq_false', List.contains_iff_mem]
    simpa [head, -Nat.div_eq_zero_iff] using hwin
  refine ⟨fun hd hfree hturn => ?_, fun hd => ?_, fun hd hbusy => ?_⟩
  · refine issueChecked_next h (ite_else hact (ite_else (not_not.2 halign) (ite_else (ne_true_of_eq_false hwin') ?_)))
    obtain ⟨hbehind, hwaits⟩ := hturn
    refine ite_else (by simp [hfree, hbehind, hwaits]) ?_
    simp only [hd, Bool.false_eq_true, if_false]
    rw [State.startXfer_chain hd rfl]
    rfl
  · refine issueChecked_next h (ite_else hact (ite_else (not_not.2 halign) (ite_else (ne_true_of_eq_false hwin') ?_)))
    refine ite_else (by simp [hd]) ?_
    simp only [hd, if_true]
    rw [State.startXfer_buffered hd]
    rfl
  · refine issueChecked_stalls h (ite_else hact (ite_else (not_not.2 halign) (ite_else (ne_true_of_eq_false hwin') ?_)))
    refine if_pos ?_
    simp only [hd, Bool.not_false, Bool.true_and, Bool.or_eq_true, Bool.not_eq_true']
    rcases hbusy with hbusy | hturn
    · exact .inl (.inl hbusy)
    · rcases not_and_or.1 hturn with hb | hw
      · exact .inl (.inr (by simpa using hb))
      · exact .inr (by simpa using hw)

/-! ## ESND and ERCV (R412, R413) -/

/-- The operation that an ESND or ERCV queues. -/
def Ctx.newFabOp (c : Ctx) (s : State) (send : Bool) (desc : List Word) : FabricOp :=
  let flag := hdrSetB c.src.hdr
  { id := s.nextId, at_ := c.now, send, wave := c.key, lane := (bitsOf c.act).headD 0, desc, scope := mdScope c.w.md
    after := c.src.ord, flag, atEnd := flag.isNone, gang := c.gang, taken := none, took := false, drops := 0, dwv := 0
    since := none, buffered := c.w.isDet, injected := false, src := c.src }

section
variable {send : Bool} (h : Issues s c (fabricOpChecks a)) (hact : c.act ≠ 0)
include h hact

theorem fabricOp_faults {cause : Cause}
    (hf : (if send then s.esndFault c.w c.blk (c.quad a) else s.ercvFault c.w c.blk (c.quad a)) = some cause) :
    fabricOp send a s = c.leavesWave s ((c.idleSetB c.w).record [laneCause c.src cause ((bitsOf c.act).headD 0)]) := by
  refine issueChecked_next h (ite_else hact ?_)
  simp only [hf]
  rfl

variable (hf : (if send then s.esndFault c.w c.blk (c.quad a) else s.ercvFault c.w c.blk (c.quad a)) = none)
include hf

theorem fabricOp_waits (hd : c.w.isDet = false) (ht : c.easeTurn s 1 = false) : fabricOp send a s = .next (c.wait s) := by
  refine issueChecked_stalls h (ite_else hact ?_)
  simp only [hf]
  exact if_pos (by simp [hd, ht])

theorem fabricOp_starts (hd : c.w.isDet = true ∨ c.easeTurn s 1 = true) :
    let off := natBits ((c.quad a).getD 0 0).toNat 0 20
    let n := if send then natBits ((c.quad a).getD 1 0).toNat 0 9 else 320
    let ease : Ease := ⟨s.nextId, !send, c.w.func, BitVec.ofNat 64 (0xF0 * 2 ^ 56 + off / 128 * 128),
      [(.scratch c.w.block c.w.half 0, off / 128, (off + n - 1) / 128)]⟩
    ∃ x : FabricOp, x.id = s.nextId ∧ x.at_ = c.now ∧ x.send = send ∧ x.wave = c.key ∧ x.desc = c.quad a ∧
      x.flag = hdrSetB c.src.hdr ∧ x.injected = false ∧ x.took = false ∧ x.buffered = c.w.isDet ∧
      x.lane = (bitsOf c.act).headD 0 ∧
      fabricOp send a s = c.leaves { ((if c.w.isDet then s else s.addEases c.w.core [ease]).modWave c.key
        (fun w => w.engineIssued (hdrSetB c.src.hdr) s.nextId true)) with fabops := s.fabops ++ [x], nextId := s.nextId + 1 } := by
  refine ⟨c.newFabOp s send (c.quad a), rfl, rfl, rfl, rfl, rfl, rfl, rfl, rfl, rfl, rfl, issueChecked_next h (ite_else hact ?_)⟩
  simp only [hf]
  refine ite_else (by rcases hd with hd | hd <;> simp [hd]) ?_
  simp only [Ctx.newFabOp]
  cases c.w.isDet <;> cases send <;> rfl

end

end

/-- Settles O41. -/
theorem enginesStart : Obligations.EnginesStart := by
  refine ⟨fun s c d a ch => ?_, fun s c d a => ?_⟩
  · intro desc dec head flag idle started
    refine ⟨fun i op hi h => ?_, fun h hact => issueChecked_next h (if_pos hact), fun cause h hact hcause => ?_,
      fun h hact halign hwin => ?_, fun h e he => ?_, fun h hd => ?_, fun h hd => ?_, fun h e he => ?_⟩
    -- XCPY to XRED
    · have hop : exec i s = directTransfer op a s ∧ checksOf i c = directTransferChecks a := by
        simp only [List.mem_cons, Prod.mk.injEq, List.not_mem_nil, or_false] at hi
        rcases hi with ⟨rfl, rfl⟩ | ⟨rfl, rfl⟩ | ⟨rfl, rfl⟩ | ⟨rfl, rfl⟩ | ⟨rfl, rfl⟩ <;> exact ⟨rfl, rfl⟩
      rw [hop.1]
      rw [hop.2] at h
      refine ⟨fun hact => issueChecked_next h (if_pos hact), fun hact hf hd ht => ?_, fun hact hf hd => ?_,
        fun hact hf hd ht => directTransfer_waits h hact hd ht hf, fun cause addr xinfo hact hf => directTransfer_faults h hact hf⟩
      · rw [directTransfer_starts h hact (.inr ht) hf, State.startXfer_direct hd rfl]
        rfl
      · rw [directTransfer_starts h hact (.inl hd) hf, State.startXfer_buffered hd]
        rfl
    -- XCHAIN
    · have hin := not_congr (List.contains_iff_mem (as := [0x00, 0xF0, 0xF2]) (a := head / 2 ^ 56))
      obtain ⟨halign, rfl⟩ | ⟨halign, hwin, rfl⟩ := hcause
      · exact issueChecked_next h (ite_else hact (if_pos halign))
      · exact issueChecked_next h (ite_else hact (ite_else (not_not.2 halign)
          (if_pos (by rw [Bool.not_eq_true', ← Bool.not_eq_true]; exact hin.2 hwin))))
    · exact chain_issues h hact halign hwin
    -- XCANCEL, XSTAT
    · exact issueChecked_next h (by simp only [he]; rfl)
    · have hnone : c.w.det = none := by simpa [Wave.isDet] using hd
      exact issueChecked_next h (by simp only [hnone]; rfl)
    · have hnone : c.w.det = none := by simpa [Wave.isDet] using hd
      exact issueChecked_next h (by simp only [hnone]; rfl)
    · exact issueChecked_next h (by simp only [he]; rfl)
  · intro desc flag idle off
    refine ⟨fun i send n hi h => ?_, fun h => issueChecked_next h rfl, fun sel h => issueChecked_next h rfl⟩
    have hop : exec i s = fabricOp send a s ∧ checksOf i c = fabricOpChecks a := by
      rcases hi with ⟨rfl, rfl, _⟩ | ⟨rfl, rfl, _⟩ <;> exact ⟨rfl, rfl⟩
    have hn : n = if send then natBits (desc.getD 1 0).toNat 0 9 else 320 := by
      rcases hi with ⟨_, rfl, rfl⟩ | ⟨_, rfl, rfl⟩ <;> rfl
    rw [hop.1]
    rw [hop.2] at h
    exact ⟨fun hact => issueChecked_next h (if_pos hact), fun hact => ⟨fun cause hf => fabricOp_faults h hact hf,
      fun hf hd ht => fabricOp_waits h hact hf hd ht, fun hf hd => hn ▸ fabricOp_starts h hact hf hd⟩⟩

end Sys2Proof.Machine

end

