-- ==== Sys2Proof/Proofs/TileWords.lean ====
section
/-! The tile instructions: acceptance, ownership and the engine's order (R190 to R217). -/

namespace Sys2Proof.Machine

/-! ## Halves -/

/-- What a change of a block's half keeps stands as it stood in every half. -/
theorem State.half_modHalf_kept {α : Type} (s : State) (b h : Nat) {f : Half → Half} (p : Half → α) (hf : ∀ x, p (f x) = p x)
    (b' h' : Nat) : p ((s.modHalf b h f).half b' h') = p (s.half b' h') := by
  cases hb : s.blocks.get? b with
  | none => rw [State.modHalf, State.half_modBlock_none hb]
  | some y =>
    rw [State.modHalf, State.half_modHalf hb]
    split
    next e =>
      obtain ⟨rfl, rfl, _⟩ := e
      exact hf _
    next => rfl

/-! ## The checks of R199 and the engine's order (R192 to R194) -/

/-- Where an operation stands among those of its half: last, or, issued again after a cut, before its wave's later ones
(R208). -/
def Ctx.placed (c : Ctx) (o : TileOp) (l : List TileOp) : List TileOp :=
  let before := fun (r : Replay) (x : TileOp) => !(x.wave == c.key && decide (r.src.ord < x.src.ord))
  match c.w.replays.head?.filter (fun r => r.flag.isSome) with
  | some r => l.takeWhile (before r) ++ o :: l.dropWhile (before r)
  | none => l ++ [o]

theorem Ctx.enqueue_eq (c : Ctx) (o : TileOp) : c.enqueue o = fun h => { h with tops := c.placed o h.tops } := by
  funext h
  unfold Ctx.enqueue Ctx.placed
  cases c.w.replays.head?.filter (fun r => r.flag.isSome) <;> rfl

/-- The machine with an operation in its half's order and its flag raised. -/
def Ctx.joined (c : Ctx) (s : State) (o : TileOp) (f : Wave → Wave) : State :=
  ({ s.modHalf c.w.block c.w.half (fun h => { h with tops := c.placed o h.tops }) with
    nextId := s.nextId + 1 }).modWave c.key (fun w => (f w).flagUp o.flag)

section
variable {s : State} {c : Ctx}

theorem Ctx.tileChecked_clear (ht : c.tileTurn s = true) (r : Res) : c.tileChecked s none none r = r := by
  rw [Ctx.tileChecked, if_neg (by simp [ht])]

theorem Ctx.tileChecked_scratch (ht : c.tileTurn s = true) (hfree : s.engineFree c.w.core = true) (cause : Cause) (addr x : Nat)
    (own : Option Cause) (r : Res) :
    c.tileChecked s (some (cause, addr, x)) own r = .trap (c.tileCauses cause addr x) false := by
  rw [Ctx.tileChecked, if_neg (by simp [ht])]
  exact if_pos hfree

theorem Ctx.tileChecked_own (ht : c.tileTurn s = true) (hfree : s.engineFree c.w.core = true) (cause : Cause) (r : Res) :
    c.tileChecked s none (some cause) r = .trap (c.tileCauses cause 0 0) false := by
  rw [Ctx.tileChecked, if_neg (by simp [ht])]
  exact if_pos hfree

/-- An instruction that is to trap waits while the engine could not accept it (R192). -/
theorem Ctx.tileChecked_busy (ht : c.tileTurn s = true) (hbusy : ¬ s.engineFree c.w.core = true)
    {fault : Option (Cause × Nat × Nat)} {own : Option Cause} (hf : fault ≠ none ∨ own ≠ none) (r : Res) :
    c.tileChecked s fault own r = .stall := by
  unfold Ctx.tileChecked
  rw [if_neg (by simp [ht])]
  rcases fault with _ | ⟨cause, addr, x⟩
  · rcases own with _ | cause
    · simp at hf
    · exact if_neg hbusy
  · exact if_neg hbusy

theorem Ctx.tileAccess_free (h : c.accessHeld = false) (r : Res) : c.tileAccess r = r := by
  rw [Ctx.tileAccess, h]
  rfl

theorem Ctx.acceptNow_free (h : s.engineFree c.w.core = true) (f : State → Res) : c.acceptNow s f = f (s.noteAccepted c.w.core) :=
  if_pos h

theorem Ctx.acceptNow_busy (h : ¬ s.engineFree c.w.core = true) (f : State → Res) : c.acceptNow s f = .stall := if_neg h

/-- Outside a deterministic launch an operation reads its half's scratchpad as it stands. -/
theorem Ctx.tileView_joined (hc : s.ctx? = some c) (hd : c.w.isDet = false) {o : TileOp} (ho : o.wave = c.key) {t : State}
    (ht : t.waves = s.waves) {f : Wave → Wave} (hf : ∀ w, (f w).det = w.det) (b h : Nat) :
    (c.joined t o f).tileView b h o = (c.joined t o f).half b h := by
  have hdet : c.w.det = none := by simpa [Wave.isDet] using hd
  have hw : (c.joined t o f).waves.get? o.wave = some ((f c.w).flagUp o.flag) := by
    simp only [Ctx.joined, State.modWave_waves, Table.get?_update, ho, if_true, State.modHalf, State.modBlock_waves, ht,
      ctx?_wave hc, Option.map_some]
  rw [State.tileView, hw]
  simp only [Wave.flagUp_det, hf, hdet]

theorem Ctx.joined_empty (c : Ctx) (t : State) (o : TileOp) (f : Wave → Wave) :
    ((c.joined t o f).half c.w.block c.w.half).empty = (t.half c.w.block c.w.half).empty :=
  t.half_modHalf_kept c.w.block c.w.half (f := fun h => { h with tops := c.placed o h.tops }) (fun h => h.empty)
    (fun _ => rfl) _ _

/-- How a gang goes on whose operation has joined the others: it parks where the operation's first read finds an empty
line (R197, R351). -/
def Ctx.joins (c : Ctx) (u : State) (o : TileOp) (view : Half) : Res :=
  if o.steps && o.rows != 0 && ((u.half c.w.block c.w.half).top? o.id).isSome && !(u.half c.w.block c.w.half).blocked o &&
      (rangeLines (o.stepRanges c.w.rowCount)).any (fun k => view.empty.contains k) then
    .jump ((u.modHalf c.w.block c.w.half (fun h => h.modTop o.id (fun x => { x with since := some u.time }))).modWave c.key
      (fun w => Ctx.parked { c with w := w } (.tile c.src c.w.half o.id)))
  else .next u

theorem Ctx.joinTop_eq (c : Ctx) (t : State) (o : TileOp) (f : Wave → Wave) :
    c.joinTop t o f =
      let u := if c.w.isDet then c.runDet (c.joined t o f) o else c.joined t o f
      c.joins u o (u.tileView c.w.block c.w.half o) := by
  unfold Ctx.joinTop
  rw [c.enqueue_eq]
  rfl

section
variable (hc : s.ctx? = some c) (hd : c.w.isDet = false) {o : TileOp} (ho : o.wave = c.key) {t : State} {f : Wave → Wave}
  (ht : t.waves = s.waves) (hf : ∀ w, (f w).det = w.det)
include hc hd ho ht hf

/-- Outside a deterministic launch an operation joins the others, and parks its gang where its first read finds an empty
line (R194, R197, R351). -/
theorem Ctx.acceptTop_eq :
    c.acceptTop t o f = c.joins (c.joined t o f) o ((c.joined t o f).half c.w.block c.w.half) := by
  rw [Ctx.acceptTop, if_neg (ne_true_of_eq_false hd), Ctx.joinTop_eq, if_neg (ne_true_of_eq_false hd)]
  dsimp only
  rw [Ctx.tileView_joined hc hd ho ht hf]

theorem Ctx.acceptTop_joins
    (hfull : o.steps = false ∨ o.rows = 0 ∨ ∀ k ∈ rangeLines (o.stepRanges c.w.rowCount), k ∉ (t.half c.w.block c.w.half).empty) :
    c.acceptTop t o f = .next (c.joined t o f) := by
  rw [Ctx.acceptTop_eq hc hd ho ht hf, Ctx.joins, if_neg]
  simp only [Bool.and_eq_true, List.any_eq_true, List.contains_iff_mem, bne_iff_ne, Bool.not_eq_true', and_assoc]
  rintro ⟨hsteps, hrows, _, _, k, hk, hempty⟩
  rw [c.joined_empty] at hempty
  rcases hfull with h | h | h
  · simp [h] at hsteps
  · exact hrows h
  · exact h k hk hempty

end

end

/-! ## The tile operations (R202 to R215) -/

section
variable {s : State} {c : Ctx}

/-- A matrix instruction with A in registers: its checks, then its place in the engine's order (R202 to R204). -/
theorem Ctx.matrixRegs_eq (c : Ctx) (s : State) (d a b : VCode) (sparse reuse : Bool) :
    let ta := Ty.ofCode (fmtType (c.fb0 b))
    let n := if sparse then 2 * stepLength ta else stepLength ta
    let rows := (bitsOf (c.w.sliceMask (fun _ => true))).filter (fun i => sliceBits c.act i != 0)
    let vals := rows.map (fun i => (i, if sparse then c.sparseRow ta a.vNum i else c.denseRow ta a.vNum i))
    c.matrixRegs s d a b sparse reuse = c.tileAccess (c.tileChecked s
      (c.scratchFault s false [((c.bAddr b).toNat, 2 * n * (Ty.ofCode (fmtType (c.fb1 b))).bits)]
        (scaleRanges (c.fb0 b) (c.fb1 b) c.w.rowCount 0 1 n))
      (c.ownFault .engine false [c.tileOf d])
      (c.acceptTop s (c.newTop s (if sparse then .mmas vals else .mma vals) (c.tileOf d) true (c.bAddr b) 0 (c.fb0 b) (c.fb1 b) 1)
        (fun w => { w with latch := if reuse then some ⟨a.vNum, c.fb0 b⟩ else none }))) := by
  intro ta n rows vals
  have hn : stepLength ta * (if sparse then 2 else 1) = n := by
    cases sparse
    · exact Nat.mul_one _
    · exact Nat.mul_comm _ _
  rw [← hn]
  rfl

/-- An instruction that names no scratchpad meets no fault there (R197). -/
theorem Ctx.scratchFault_nil (c : Ctx) (s : State) (write : Bool) : c.scratchFault s write [] [] = none := rfl

end

/-- Settles O42. -/
theorem tileOperationsAccepted : Obligations.TileOperationsAccepted := by
  intro s c d a b i kind guarded baddr aaddr fb0 fb1 nk own tiles ranges scales f t u pair f0 f1 ta tb m rows dense sparse n keep
    plain hi h hheld hturn o before placed fault free joined
  have hdet (w : Wave) : (f w).det = w.det := by
    rcases hi with ⟨⟨_, _, hf⟩ | ⟨_, _, hf⟩, _⟩ | ⟨_, _, hf, _⟩ | ⟨_, _, _, _, _, _, _, _, hf⟩ | ⟨_, _, ⟨_, _, _, _, hf⟩, _⟩ |
      ⟨_, _, _, _, _, _, _, _, hf⟩ | ⟨_, _, _, _, _, _, _, _, hf⟩ | ⟨_, _, ⟨_, _, _, _, hf⟩, _⟩ <;> rw [hf] <;> rfl
  have hword : exec i s = .next (c.finish s (c.tileChecked s fault (c.ownFault own false tiles) (c.acceptTop s o f))) := by
    have hfree (hr : ranges ≠ []) : c.accessHeld = false := hheld.resolve_right hr
    simp only [plain, Prod.mk.injEq] at hi
    rcases hi with ⟨⟨rfl, rfl, rfl⟩ | ⟨rfl, rfl, rfl⟩, rfl, rfl, rfl, ⟨rfl, rfl, rfl, rfl, rfl⟩, rfl, rfl⟩ |
      ⟨rfl, rfl, rfl, rfl, rfl, rfl, ⟨rfl, rfl, rfl, rfl, rfl⟩, rfl, rfl⟩ |
      ⟨rfl, rfl, rfl, rfl, rfl, rfl, rfl, ⟨rfl, rfl, rfl, rfl, rfl⟩, rfl⟩ |
      ⟨rfl, rfl, ⟨rfl, rfl, rfl, ⟨rfl, rfl, rfl, rfl, rfl⟩, rfl⟩, rfl, rfl⟩ |
      ⟨rfl, rfl, rfl, rfl, rfl, rfl, rfl, ⟨rfl, rfl, rfl, rfl, rfl⟩, rfl⟩ |
      ⟨rfl, rfl, rfl, rfl, rfl, rfl, rfl, ⟨rfl, rfl, rfl, rfl, rfl⟩, rfl⟩ |
      ⟨rfl, rfl, ⟨rfl, rfl, rfl, ⟨rfl, rfl, rfl, rfl, rfl⟩, rfl⟩, rfl, rfl⟩
    · exact issueChecked_finishes h ((c.matrixRegs_eq s d a b false false).trans (Ctx.tileAccess_free (hfree (by simp)) _))
    · exact issueChecked_finishes h ((c.matrixRegs_eq s d a b false true).trans (Ctx.tileAccess_free (hfree (by simp)) _))
    · exact issueChecked_finishes h ((c.matrixRegs_eq s d a b true false).trans (Ctx.tileAccess_free (hfree (by simp)) _))
    · exact issueChecked_finishes h rfl
    · exact issueChecked_finishes h rfl
    · refine issueChecked_finishes h ((Ctx.tileAccess_free (hfree (by simp)) _).trans ?_)
      rw [show fault = c.scratchFault s true _ _ from congrArg (fun w => c.scratchFault s w _ _) (beq_self_eq_true _)]
      rfl
    · exact issueChecked_finishes h rfl
    · exact issueChecked_finishes h rfl
  obtain ⟨hc, _⟩ := id h
  have hjoined : joined = c.joined s o f := rfl
  refine ⟨fun cause addr x hf hfree => ?_, fun cause hf hown hfree => ?_, fun hf hbusy => ?_, fun hf hown hd hfull => ?_,
    fun hf hown hd hsteps hrows hfirst hempty hthere => ?_, fun hf hown hd hfree => ?_⟩
  · rw [hword, hf, Ctx.tileChecked_scratch hturn hfree]
    rfl
  · rw [hword, hf, hown, Ctx.tileChecked_own hturn hfree]
    rfl
  · rw [hword, Ctx.tileChecked_busy hturn hbusy hf]
    rfl
  · rw [hword, hf, hown, Ctx.tileChecked_clear hturn, Ctx.acceptTop_joins hc hd rfl rfl hdet hfull]
    rfl
  · rw [hjoined] at hfirst hempty hthere ⊢
    rw [hword, hf, hown, Ctx.tileChecked_clear hturn, Ctx.acceptTop_eq hc hd rfl rfl hdet, Ctx.joins, if_pos]
    · rfl
    · simpa only [Bool.and_eq_true, List.any_eq_true, List.contains_iff_mem, bne_iff_ne, Bool.not_eq_true', and_assoc] using
        ⟨hsteps, hrows, hthere, hfirst, hempty⟩
  · rw [hword, hf, hown, Ctx.tileChecked_clear hturn, Ctx.acceptTop, if_pos hd, Ctx.acceptNow_free hfree]

/-! ## Tile control (R205 to R213) -/

section
variable {s : State} {c : Ctx}

theorem mmak_issues {d a b : VCode} (h : Issues s c (mmakChecks d a b c)) (hturn : c.tileTurn s = true)
    (hheld : c.accessHeld = false) (hd : c.w.isDet = false) :
    let t := c.tileOf d
    let nk := natBits (c.w.sread d.sNum 1) 16 6 + 1
    let o := c.newTop s .mmak t true (c.bAddr b) (BitVec.ofNat 64 (c.w.sread a.sNum 2)) (c.fb0 b) (c.fb1 b) nk
    c.scratchFault s false [(o.aaddr.toNat, nk * o.stepA c.w.rowCount), (o.baddr.toNat, nk * o.stepB)]
      (scaleRanges o.fb0 o.fb1 c.w.rowCount 0 nk o.width) = none → c.ownFault .engine false [t] = none →
    ((∃ x, c.half.bench.get? t = some x ∧ x.run = true) → execMmak d a b s = .next (c.wait s)) ∧
    ((∀ x, c.half.bench.get? t = some x → x.run = false) →
      (o.rows = 0 ∨ ∀ k ∈ rangeLines (o.stepRanges c.w.rowCount), k ∉ (s.half c.w.block c.w.half).empty) →
      execMmak d a b s = c.leaves (c.joined
        (s.modHalf c.w.block c.w.half (fun h => { h with bench := h.bench.set t (newBench o c.w.index) })) o
        (fun w => { w with latch := none }))) := by
  intro t nk o hfault hown
  have hgo (r : Res) : c.tileAccess (c.tileChecked s (c.scratchFault s false [(o.aaddr.toNat, nk * o.stepA c.w.rowCount),
      (o.baddr.toNat, nk * o.stepB)] (scaleRanges o.fb0 o.fb1 c.w.rowCount 0 nk o.width)) (c.ownFault .engine false [t]) r) = r := by
    rw [hfault, hown, Ctx.tileAccess_free hheld, Ctx.tileChecked_clear hturn]
  obtain ⟨hc, _⟩ := id h
  refine ⟨fun ⟨x, hx, hrun⟩ => issueChecked_stalls h ((hgo _).trans ?_), fun hidle hfull => issueChecked_next h ((hgo _).trans ?_)⟩
  · show (if (match c.half.bench.get? t with | some x => x.run | none => false) then _ else _) = _
    rw [hx]
    exact (if_pos hrun).trans (if_neg (ne_true_of_eq_false hd))
  · show (if (match c.half.bench.get? t with | some x => x.run | none => false) then _ else _) = _
    rw [if_neg]
    · have hempty := s.half_modHalf_kept c.w.block c.w.half
        (f := fun h => { h with bench := h.bench.set t (newBench o c.w.index) }) (fun h => h.empty) (fun _ => rfl)
        c.w.block c.w.half
      exact Ctx.acceptTop_joins hc hd rfl rfl (fun _ => rfl) (.inr (hfull.imp_right fun hk k hmem => hempty ▸ hk k hmem))
    · cases hb : c.half.bench.get? t with
      | none => simp
      | some x => simp [hidle x hb]

/-- A window is set for the waves named (R210). -/
theorem acwin_targets (c : Ctx) (s : State) (w : Nat) :
    let live := s.waves.filter (fun e => e.2.block == c.w.block && e.2.live != 0)
    (if w = 0xFFFFFFFF then live else live.filter (fun e => e.2.index == w)) =
      s.waves.filter (fun e => e.2.block == c.w.block && e.2.live != 0 && (w == 0xFFFFFFFF || e.2.index == w)) := by
  intro live
  split
  next hw => simp [live, hw]
  next hw => simp [live, beq_eq_false_iff_ne.2 hw, List.filter_filter, Bool.and_comm]

/-- ACWIN (R210). -/
theorem acwin_issues {d a b : VCode} (h : Issues s c (acwinChecks d a b c)) (hturn : c.tileTurn s = true) :
    let base := c.operand .raw a 0
    let limit := c.operand .raw b 0
    let named := s.waves.filter (fun e => e.2.block == c.w.block && e.2.live != 0 &&
      (c.w.sread d.sNum 1 == 0xFFFFFFFF || e.2.index == c.w.sread d.sNum 1))
    let legal := c.w.index = 0 ∧ base ≤ limit ∧ limit ≤ c.half.acct ∧ (limit = 0 → base = 0) ∧ named ≠ []
    let owns := ∃ e ∈ named, ∃ t ∈ (c.blk.halves.getD e.2.half Half.none).tokens, t.2 = e.2.index
    (legal → ¬ owns → s.engineFree c.w.core = true → execAcwin d a b s = c.leaves (named.foldl (fun s e => s.modWave e.1 (fun x =>
      { x with ab := BitVec.ofNat 32 base, al := BitVec.ofNat 32 limit })) (s.noteAccepted c.w.core))) ∧
    (legal → ¬ owns → ¬ s.engineFree c.w.core = true → execAcwin d a b s = .next (c.wait s)) ∧
    (legal → owns → execAcwin d a b s = c.traps s (c.tileCauses .accToken 0 0)) ∧
    (¬ legal → execAcwin d a b s = c.traps s (c.tileCauses .accWindow 0 0)) := by
  intro base limit named legal owns
  have htargets := acwin_targets c s (c.w.sread d.sNum 1)
  have hshape : (!(decide (base ≤ limit) && decide (limit ≤ c.half.acct)) || (limit == 0 && base != 0)) = true ↔
      ¬ (base ≤ limit ∧ limit ≤ c.half.acct ∧ (limit = 0 → base = 0)) := by
    simp only [Bool.or_eq_true, Bool.not_eq_true', Bool.and_eq_false_iff, decide_eq_false_iff_not, Bool.and_eq_true, beq_iff_eq,
      bne_iff_ne]
    tauto
  have howns : (named.any (fun e => (c.blk.halves.getD e.2.half Half.none).tokens.any (fun t => t.2 == e.2.index))) = true ↔
      owns := by simp [owns, List.any_eq_true]
  have hword (r : Res) (hr : (if c.w.index ≠ 0 then Res.trap (c.tileCauses .accWindow 0 0) false
      else if !(decide (base ≤ limit) && decide (limit ≤ c.half.acct)) || (limit == 0 && base != 0) then
        .trap (c.tileCauses .accWindow 0 0) false
      else if named.isEmpty then .trap (c.tileCauses .accWindow 0 0) false
      else if named.any (fun e => (c.blk.halves.getD e.2.half Half.none).tokens.any (fun t => t.2 == e.2.index)) then
        .trap (c.tileCauses .accToken 0 0) false
      else c.acceptNow s (fun s => .next (named.foldl (fun s e => s.modWave e.1 (fun x =>
        { x with ab := BitVec.ofNat 32 base, al := BitVec.ofNat 32 limit })) s))) = r) :
      execAcwin d a b s = .next (c.finish s r) := by
    refine issueChecked_finishes h (.trans ?_ hr)
    simp only [named, ← htargets]
    exact if_neg (by simp [hturn])
  have hlegal (hl : legal) {x y : Res} : (if c.w.index ≠ 0 then x
      else if !(decide (base ≤ limit) && decide (limit ≤ c.half.acct)) || (limit == 0 && base != 0) then x
      else if named.isEmpty then x else y) = y := by
    obtain ⟨hindex, hbase, hlimit, hzero, hnamed⟩ := hl
    rw [if_neg (not_not.2 hindex), if_neg (fun hs => hshape.1 hs ⟨hbase, hlimit, hzero⟩),
      if_neg (by simpa using hnamed)]
  refine ⟨fun hl ho hfree => ?_, fun hl ho hbusy => ?_, fun hl ho => ?_, fun hl => ?_⟩
  · exact hword _ ((hlegal hl).trans ((if_neg (mt howns.1 ho)).trans (Ctx.acceptNow_free hfree _)))
  · exact hword _ ((hlegal hl).trans ((if_neg (mt howns.1 ho)).trans (Ctx.acceptNow_busy hbusy _)))
  · exact hword _ ((hlegal hl).trans (if_pos (howns.2 ho)))
  · refine hword _ ?_
    by_cases hindex : c.w.index = 0
    · rw [if_neg (not_not.2 hindex)]
      by_cases hs : base ≤ limit ∧ limit ≤ c.half.acct ∧ (limit = 0 → base = 0)
      · have hnamed : named = [] := by
          by_contra hne
          exact hl ⟨hindex, hs.1, hs.2.1, hs.2.2, hne⟩
        rw [if_neg (fun h => hshape.1 h hs), if_pos (by simp [hnamed])]
      · rw [if_pos (hshape.2 hs)]
    · rw [if_pos hindex]

end

/-- Settles O43. -/
theorem tileControl : Obligations.TileControl := by
  intro s c d a b hturn t u free took onHalf before placed joined
  have hclear {own : Option Cause} (hown : own = none) (r : Res) : c.tileChecked s none own r = r := by
    rw [hown, Ctx.tileChecked_clear hturn]
  have hwaits (hbusy : ¬ free) (own : Option Cause) (f : State → Res) :
      c.tileChecked s none own (c.acceptNow s f) = .stall := by
    cases own with
    | none => rw [Ctx.tileChecked_clear hturn, Ctx.acceptNow_busy hbusy]
    | some cause => exact Ctx.tileChecked_busy hturn hbusy (.inr (by simp)) _
  refine ⟨fun h hheld hd => mmak_issues h hturn hheld hd, fun h hown => ⟨fun hd hbusy => ?_, fun hfirst hfree => ?_⟩,
    fun h hown hfree => ?_, fun h hown hfree => ?_, fun i o hi h => ⟨fun hbusy => ?_, fun cause hfree hown => ?_⟩, fun h => ?_,
    fun h hu hfree => ?_⟩
  -- ACZ
  · obtain ⟨hc, _⟩ := id h
    have hlate : (c.half.blocked { c.newTop s .acz t false 0 0 0 0 0 with flag := none, atEnd := false } ||
        !s.engineFree c.w.core) = true := by
      rw [Bool.or_eq_true, Bool.not_eq_true']
      exact hbusy.imp id Bool.eq_false_iff.2
    exact issueChecked_next h ((hclear hown _).trans ((if_pos hlate).trans
      (Ctx.acceptTop_joins hc hd rfl rfl (fun _ => rfl) (.inl rfl))))
  · have hnow : ¬ (c.half.blocked { c.newTop s .acz t false 0 0 0 0 0 with flag := none, atEnd := false } ||
        !s.engineFree c.w.core) = true := by
      rw [Bool.or_eq_true, Bool.not_eq_true', not_or]
      exact ⟨ne_true_of_eq_false hfirst, fun hbusy => Bool.false_ne_true (hbusy.symm.trans hfree)⟩
    exact issueChecked_next h ((hclear hown _).trans ((if_neg hnow).trans (Ctx.acceptNow_free hfree _)))
  -- ACQ and REL
  · exact issueChecked_next h ((hclear hown _).trans (Ctx.acceptNow_free hfree _))
  · exact issueChecked_next h ((hclear hown _).trans (Ctx.acceptNow_free hfree _))
  · simp only [List.mem_cons, Prod.mk.injEq, List.not_mem_nil, or_false] at hi
    rcases hi with ⟨rfl, rfl⟩ | ⟨rfl, rfl⟩ <;> exact issueChecked_stalls h (hwaits hbusy _ _)
  · simp only [List.mem_cons, Prod.mk.injEq, List.not_mem_nil, or_false] at hi
    rcases hi with ⟨rfl, rfl⟩ | ⟨rfl, rfl⟩ <;>
      exact issueChecked_traps h ((congrArg (fun x => c.tileChecked s none x _) hown).trans
        (Ctx.tileChecked_own hturn hfree cause _))
  -- ACWIN
  · exact acwin_issues h hturn
  -- BMARK
  · have hown : (if c.half.acct ≤ u then some Cause.accWindow else none) = none := if_neg (Nat.not_le.2 hu)
    exact issueChecked_next h ((hclear hown _).trans (Ctx.acceptNow_free hfree _))

end Sys2Proof.Machine
end

