-- ==== Sys2Proof/Proofs/PrivilegedWords.lean ====
section
/-! The instructions 0xD0 to 0xD7 with privilege (R235, R355, R376 to R381). -/

namespace Sys2Proof.Machine

section
variable {s : State} {c : Ctx}

/-! ## TLBINV (R235, R379) -/

/-- The entries that TLBINV removes. -/
theorem TlbEntry.meets_iff (e : TlbEntry) (f lo hi : Nat) :
    e.meets f lo hi = true ↔ e.func = f ∧ e.base < hi ∧ lo < e.base + 2 ^ e.bits := by
  simp [TlbEntry.meets, and_assoc]

theorem mem_filter_not_meets {e : TlbEntry} {l : List TlbEntry} {f lo hi : Nat} :
    e ∈ l.filter (fun e => !e.meets f lo hi) ↔ e ∈ l ∧ ¬ (e.func = f ∧ e.base < hi ∧ lo < e.base + 2 ^ e.bits) := by
  rw [List.mem_filter, ← e.meets_iff, Bool.not_eq_true', Bool.not_eq_true]

/-- No entry of the range is left in a core's TLB. -/
theorem State.invalidate_cores (f lo hi : Nat) {k : Nat} {x : CoreState} (hx : s.cores.get? k = some x) :
    ∃ y, (s.invalidate f lo hi).cores.get? k = some y ∧
      ∀ e, e ∈ y.tlb ↔ e ∈ x.tlb ∧ ¬ (e.func = f ∧ e.base < hi ∧ lo < e.base + 2 ^ e.bits) :=
  ⟨_, by rw [State.invalidate, Table.get?_mapVals, hx]; rfl, fun _ => mem_filter_not_meets⟩

/-- Nor in a die's. -/
theorem State.invalidate_dies (f lo hi : Nat) {k : Nat} {x : Die} (hx : s.dies[k]? = some x) :
    ∃ y, (s.invalidate f lo hi).dies[k]? = some y ∧
      ∀ e, e ∈ y.l2tlb ↔ e ∈ x.l2tlb ∧ ¬ (e.func = f ∧ e.base < hi ∧ lo < e.base + 2 ^ e.bits) :=
  ⟨_, by rw [State.invalidate, List.getElem?_map, hx]; rfl, fun _ => mem_filter_not_meets⟩

theorem State.walksBefore_iff (s : State) {f n : Nat} : s.walksBefore f n = true ↔ ∃ p ∈ s.walks, p.func = f ∧ p.id < n := by
  simp [State.walksBefore]

theorem State.voidWalks_void {f : Nat} {p : PageWalk} (hp : p ∈ (s.voidWalks f).walks) (hf : p.func = f) : p.void = true := by
  obtain ⟨q, _, rfl⟩ := List.mem_map.1 hp
  split
  · rfl
  next h =>
    rw [if_neg h] at hf
    exact absurd hf (by simpa using h)

/-- What TLBINV removes, and when its gang waits. -/
def tlbinvRange (addr : Nat) (size : BitVec 8) : Nat × Nat :=
  let lo := if size = 0xFF then 0 else addr / 2 ^ size.toNat * 2 ^ size.toNat
  (lo, if size = 0xFF then 2 ^ 56 else lo + 2 ^ size.toNat)

section
variable {a : VCode} {size : BitVec 8} (h : Issues s c (tlbinvChecks a size c)) (haddr : c.addressOf a 0 < 2 ^ 56)
include h haddr

theorem tlbinv_begins (hnew : c.w.invals.get? (firstSlice c.gang) = none) :
    let r := tlbinvRange (c.addressOf a 0) size
    let t := s.invalidate c.w.func r.1 r.2
    execTlbinv a size s = .next (c.finish s (if t.walksBefore c.w.func t.nextId then
      .hold ((t.voidWalks c.w.func).modWave c.key
        (fun w => { w with invals := w.invals.set (firstSlice c.gang) t.nextId }))
      else .next t)) := by
  refine issueChecked_finishes h (ite_else (not_not.2 (Nat.div_eq_of_lt haddr)) ?_)
  simp only [hnew]
  rfl

theorem tlbinv_goes_on {n : Nat} (hold : c.w.invals.get? (firstSlice c.gang) = some n) :
    execTlbinv a size s = .next (c.finish s (if s.walksBefore c.w.func n then .stall
      else .next (s.modWave c.key (fun w => { w with invals := w.invals.erase (firstSlice c.gang) })))) := by
  refine issueChecked_finishes h (ite_else (not_not.2 (Nat.div_eq_of_lt haddr)) ?_)
  simp only [hold]

end

/-! ## WFREEZE (R378) -/

/-- What WFREEZE does with the wave that it finds; `saved` tells whether a saved unit holds the wave. -/
def Ctx.wfreezeAt (c : Ctx) (s : State) (d : VCode) (target : Option (Nat × Wave)) (saved : Bool) : Res :=
  let put := fun (s : State) (x : Nat) => Res.next (s.modWave c.key (fun w => w.swrite d.sNum 1 x))
  match target with
  | some (k, w) => if w.frozen then put s 2 else put (s.freezeWave k) 0
  | none => put s (if saved then 3 else 1)

/-! ## EASEQ (R380) -/

/-- What EASEQ writes of the easements that an address meets: the first one's word and base, and their count. -/
def Ctx.easeqWave (c : Ctx) (d : VCode) (met : List (Nat × Ease)) : Wave :=
  match (match met.head? with
    | some e => (2 ^ 31 + bitAt e.2.dst 30 + e.1, e.2.base.toNat)
    | none => (0, 0)) with
  | (x, base) => ((c.w.swrite d.sNum 1 x).swrite (d.sNum + 1) 1 met.length).swrite (d.sNum + 2) 2 base

theorem easeq_word (c : Ctx) (d : VCode) (met : List (Nat × Ease)) :
    let first := met.head?.map (fun e => (2 ^ 31 + (if e.2.dst then 2 ^ 30 else 0) + e.1, e.2.base.toNat))
    c.easeqWave d met = ((c.w.swrite d.sNum 1 (first.getD (0, 0)).1).swrite (d.sNum + 1) 1 met.length).swrite (d.sNum + 2) 2
      (first.getD (0, 0)).2 := by
  cases met <;> rfl

end

/-- Settles O44. -/
theorem privilegedEffects : Obligations.PrivilegedEffects := by
  intro s c d a ctr addr put
  refine ⟨fun h => ?_,
    fun h => ⟨fun hdesc => ?_, fun u hdesc hu hstate hloose => ?_, fun hdesc hu => ?_⟩,
    fun size h => ?_, fun h => ?_, fun h => issueChecked_jumps h (if_pos rfl), fun h => issueChecked_jumps h (if_neg (by decide)),
    fun h => ?_, fun h => issueChecked_next h rfl, fun h => issueChecked_next h rfl⟩
  -- CTXSV
  · refine ⟨fun u hu => issueChecked_next h ?_, fun hcut t u hsave => issueChecked_next h ?_,
      fun hcut hsave => issueChecked_stalls h ?_⟩
    · simp only [hu]
    · simp only [hcut, hsave]
    · simp only [hcut, hsave]
  -- CTXRS
  · exact issueChecked_next h (if_pos (by rw [hdesc]; rfl))
  · refine issueChecked_next h (ite_else (by rw [hdesc]; decide) ?_)
    simp only [show s.unitAt c.w.part (c.addressOf a 0) = some u from hu]
    exact if_pos ⟨hstate, hloose⟩
  · refine issueChecked_next h (ite_else (by rw [hdesc]; decide) ?_)
    cases hunit : s.unitAt c.w.part (c.addressOf a 0) with
    | none => rfl
    | some u => exact if_neg (hu u hunit)
  -- TLBINV
  · intro lo hi gone clean i
    have hclean : clean (s.invalidate c.w.func lo hi) :=
      ⟨rfl, rfl, fun _ _ hx => State.invalidate_cores _ _ _ hx, fun _ _ hx => State.invalidate_dies _ _ _ hx⟩
    refine ⟨fun haddr hnew hwalks => ?_, fun haddr hnew hwalks => ?_, fun n haddr hold => ⟨fun hwalks => ?_, fun hwalks => ?_⟩,
      fun haddr => ?_⟩
    · refine ⟨s.invalidate c.w.func lo hi, (tlbinv_begins h haddr hnew).trans ?_, hclean, rfl⟩
      rw [if_neg (fun hb => ?_)]
      · rfl
      · obtain ⟨p, hp, hf, _⟩ := s.walksBefore_iff.1 hb
        exact hwalks p hp hf
    · refine ⟨((s.invalidate c.w.func lo hi).voidWalks c.w.func).modWave c.key
        (fun w => { w with invals := w.invals.set i s.nextId }), (tlbinv_begins h haddr hnew).trans ?_, hclean, ?_, ?_⟩
      · exact congrArg (fun r => Host.Outcome.next (c.finish s r))
          (if_pos ((s.invalidate c.w.func lo hi).walksBefore_iff.2 hwalks))
      · exact fun p hp hf => State.voidWalks_void hp hf
      · refine ⟨{ c.w with invals := c.w.invals.set i s.nextId }, ?_, Table.get?_set_same ..⟩
        simp only [State.modWave_waves, Table.get?_update, if_true]
        rw [show ((s.invalidate c.w.func lo hi).voidWalks c.w.func).waves = s.waves from rfl, ctx?_wave h.1]
        rfl
    · exact (tlbinv_goes_on h haddr hold).trans (by rw [if_pos (s.walksBefore_iff.2 hwalks)]; rfl)
    · refine (tlbinv_goes_on h haddr hold).trans ?_
      rw [if_neg (fun hb => ?_)]
      · rfl
      · obtain ⟨p, hp, hf, hid⟩ := s.walksBefore_iff.1 hb
        exact absurd (hwalks p hp hf) (Nat.not_le.2 hid)
    · refine issueChecked_traps h ((if_pos (Nat.div_pos haddr (by decide)).ne').trans ?_)
      rw [causesIn, List.map_map]
      rfl
  -- WFREEZE
  · intro ident named target
    refine ⟨fun k w ht hfrozen => issueChecked_next h ?_, fun k w ht hfrozen => issueChecked_next h ?_,
      fun ht => issueChecked_next h ?_⟩
    · exact (congrArg (c.wfreezeAt s d · _) ht).trans (if_pos hfrozen)
    · exact (congrArg (c.wfreezeAt s d · _) ht).trans (if_neg (ne_true_of_eq_false hfrozen))
    · refine (congrArg (c.wfreezeAt s d · _) ht).trans ?_
      simp only [Ctx.wfreezeAt, List.any_eq_true]
      rfl
  -- EASEQ
  · intro met first
    refine issueChecked_next h (.trans ?_ (congrArg (c.onWave s) (easeq_word c d met)))
    rfl

end Sys2Proof.Machine
end

