-- ==== Sys2Proof/Proofs/WaveEvents.lean ====
section
/-! The events that pick gangs, begin clauses, fill lines and end special functions (R31, R61, R89 to R91, R286). -/

namespace Sys2Proof.Machine

/-! ## The scheduler's choice (R90) -/

theorem oldest_max {l : List (Nat × SliceMask × Nat)} {p : Nat × SliceMask × Nat} (h : oldest l = some p) :
    p ∈ l ∧ ∀ e ∈ l, e.2.2 ≤ p.2.2 := by
  induction l generalizing p with
  | nil => cases h
  | cons x l ih =>
    simp only [oldest] at h
    cases hl : oldest l with
    | none =>
      have hnil : l = [] := by
        cases l with
        | nil => rfl
        | cons y l =>
          simp only [oldest] at hl
          split at hl
          · cases hl
          · split at hl <;> cases hl
      simp only [hl, Option.some.injEq] at h
      subst h hnil
      simp
    | some y =>
      obtain ⟨hy, hmax⟩ := ih hl
      simp only [hl] at h
      split at h
      next hlt =>
        cases h
        exact ⟨List.mem_cons_of_mem _ hy, List.forall_mem_cons.2 ⟨hlt.le, hmax⟩⟩
      next hge =>
        cases h
        exact ⟨List.mem_cons_self, List.forall_mem_cons.2 ⟨le_rfl, fun e he => (hmax e he).trans (Nat.not_lt.1 hge)⟩⟩

theorem oldest_of_ne_nil {l : List (Nat × SliceMask × Nat)} (h : l ≠ []) : ∃ p, oldest l = some p := by
  cases l with
  | nil => exact absurd rfl h
  | cons x l =>
    simp only [oldest]
    split
    · exact ⟨_, rfl⟩
    · split <;> exact ⟨_, rfl⟩

section
variable {s : State} {core quad : Nat}

/-- The scheduler chooses the oldest gang, or that of the last pick inside its clause when the oldest is younger than 64. -/
theorem State.chooseFrom_cases {l : List (Nat × SliceMask × Nat)} {p : Nat × SliceMask × Nat}
    (h : s.chooseFrom core quad l = some p) :
    oldest l = some p ∨ (∃ best, oldest l = some best ∧ best.2.2 ≠ 64) ∧ p ∈ l ∧
      (s.core core).last.getD quad none = some (p.1, p.2.1) ∧ s.insideSame p.1 p.2.1 = true := by
  unfold State.chooseFrom at h
  cases ho : oldest l with
  | none => simp [ho] at h
  | some best =>
    simp only [ho] at h
    split at h
    · exact .inl h
    next hage =>
      split at h
      · exact .inl h
      next k g hlast =>
        split at h
        next e he =>
          cases h
          have htest := List.find?_some he
          simp only [Bool.and_eq_true, beq_iff_eq] at htest
          obtain ⟨⟨hk, hg⟩, hin⟩ := htest
          subst hk hg
          exact .inr ⟨⟨best, rfl, hage⟩, List.mem_of_find?_eq_some he, hlast, hin⟩
        · exact .inl h

theorem State.chooseFrom_mem {l : List (Nat × SliceMask × Nat)} {p : Nat × SliceMask × Nat}
    (h : s.chooseFrom core quad l = some p) : p ∈ l := by
  rcases State.chooseFrom_cases h with h | ⟨_, hp, _⟩
  · exact (oldest_max h).1
  · exact hp

theorem State.chooseFrom_of_ne_nil {l : List (Nat × SliceMask × Nat)} (h : l ≠ []) : ∃ p, s.chooseFrom core quad l = some p := by
  obtain ⟨best, hbest⟩ := oldest_of_ne_nil h
  simp only [State.chooseFrom, hbest]
  split
  · exact ⟨_, rfl⟩
  · split
    · exact ⟨_, rfl⟩
    · split <;> exact ⟨_, rfl⟩

/-- What a slot's gang is (R89, R91). -/
theorem State.choiceNow_spec {p : Nat × SliceMask × Nat} (h : s.choiceNow core quad = some p) :
    p ∈ s.readyGangs core quad ∧
      ¬ ((s.core core).lastTick.getD quad 0 = s.time ∧ (s.core core).last.getD quad none ≠ none) ∧
      ((s.core core).secondCycle quad s.time = true → s.scalarNext p.1 p.2.1 = true) ∧
      ((s.core core).secondCycle quad s.time = false → s.withheld = false) := by
  simp only [State.choiceNow] at h
  split at h
  · cases h
  next hfree =>
    have hissued : ¬ ((s.core core).lastTick.getD quad 0 = s.time ∧ (s.core core).last.getD quad none ≠ none) := by
      rintro ⟨htick, hlast⟩
      refine hfree ?_
      rw [CoreState.issued, htick, Option.isSome_iff_ne_none.2 hlast, beq_self_eq_true, Bool.and_self, Bool.true_or]
    split at h
    next hsecond =>
      split at h
      · cases h
      · obtain ⟨hmem, hscalar⟩ := List.mem_filter.1 (State.chooseFrom_mem h)
        exact ⟨hmem, hissued, fun _ => hscalar, fun hfirst => absurd (hsecond.symm.trans hfirst) (by decide)⟩
    next hfirst =>
      split at h
      · cases h
      next hopen =>
        exact ⟨State.chooseFrom_mem h, hissued, fun hsecond => absurd hsecond hfirst, fun _ => by simpa using hopen⟩

/-- A pick sets the picked gang and notes the others that were ready. -/
theorem State.picked_eq (p : Nat × SliceMask × Nat) :
    ∃ cores, s.picked core quad p = { s with cores := cores, cur := some ⟨p.1, p.2.1⟩ } := by
  simp only [State.picked]
  split <;> exact ⟨_, rfl⟩

end

/-! ## Beginning a clause (R31) -/

section
variable {s : State} {k slice : Nat} {w : Wave} {x : Slice} {cl : List Word}

/-- A gang that may begin its next clause, whose words are there, stands before the clause's own tests. -/
theorem State.beginClause_fetched (hw : s.waves.get? k = some w) (hx : w.slices[slice]? = some x) (hrun : w.stopped = false)
    (hturn : s.passesTurn k w (w.gangOf slice) x = false) (hmay : s.mayBegin k w (w.gangOf slice) x = true)
    (hcl : s.clauseAt w x.pc.toNat = .ok cl) (hword : x.word = 0) :
    s.beginClause k slice =
      if clauseIllegal cl then
        s.modWave k (fun w' => w'.fallDue (clauseTrap w' (w.gangOf slice) x.pc cl .illegalClause false false 0))
      else if s.cutHere w (hdrPP (cl.headD 0)) then s
      else if w.flagsReady cl s.time then
        (s.countClause w x.pc.toNat cl.length (s.time - w.stoodOf (w.gangOf slice))).modWave k (fun w' =>
          { w'.mapGang (w.gangOf slice) (fun _ x => { x with cl, word := 1 }) with
            det := w'.det.map (fun d => { d with turn := firstSlice (w.gangOf slice) }) })
      else if w.isDet && s.commitHolds k w cl then s.modWave k Wave.endQuantum
      else s := by
  simp [State.beginClause, hw, hx, hrun, hturn, hmay, hcl, hword]

/-- The flag conditions of R31. -/
theorem Wave.flagsReady_wait {now n : Nat} (hn : n ∈ hdrWait (cl.headD 0)) (h : w.flagsReady cl now = true) :
    w.flag n = 0 ∧ w.begins.getD n 0 ≤ now := by
  simp only [Wave.flagsReady, Bool.and_eq_true, List.all_eq_true] at h
  obtain ⟨⟨hwait, _⟩, _⟩ := h
  simpa using hwait n hn

end

/-! ## Filling lines (R27, R61, R233) -/

section
variable {s : State} {k slice : Nat} {w : Wave} {g : SliceMask} {x : Slice} {va : Nat}

/-- A fault of a fetch that the order and the causes of earlier words leave to be raised. -/
def State.fetchTrap (s t : State) (k : Nat) (w : Wave) (g : SliceMask) (x : Slice) (va : Nat) (cause : Cause) (malf : Bool) :
    State :=
  if (x.word = 0 ∧ !(w.causesOf g).isEmpty) || !w.orderAllows g then s
  else t.modWave k (fun y => y.fallDue (clauseTrap y g x.pc ((s.fetchWord w x.pc.toNat).toList) cause malf true va))

theorem State.fetchTrap_raised {t : State} {cause : Cause} {malf : Bool}
    (h : w.orderAllows g = true ∧ (x.word ≠ 0 ∨ w.causesOf g = [])) :
    s.fetchTrap t k w g x va cause malf =
      t.modWave k (fun y => y.fallDue (clauseTrap y g x.pc ((s.fetchWord w x.pc.toNat).toList) cause malf true va)) := by
  obtain ⟨horder, hclear⟩ := h
  refine if_neg ?_
  rcases hclear with hword | hcauses
  · simp [horder, hword]
  · simp [horder, hcauses]

theorem State.fetchTrap_held {t : State} {cause : Cause} {malf : Bool}
    (h : ¬ (w.orderAllows g = true ∧ (x.word ≠ 0 ∨ w.causesOf g = []))) : s.fetchTrap t k w g x va cause malf = s := by
  refine if_pos ?_
  simp only [Bool.or_eq_true, decide_eq_true_eq, Bool.not_eq_true', List.isEmpty_eq_false_iff]
  by_contra hn
  rw [not_or, not_and_or, Bool.not_eq_false, not_not] at hn
  exact h ⟨hn.2, hn.1⟩

section
variable (h : s.missing k slice = some (w, g, x, va))
include h

theorem fetchFill_ok {line : Nat} (hline : s.fetchPlace w va = .ok line) :
    execFetchFill k slice s = .next (
      if w.stoodOf g < fetchTicks (s.ilevel w.core w.quad w.part line) then s
      else if s.ipoisoned (s.ilevel w.core w.quad w.part line) w.core w.quad w.part line then
        s.fetchTrap (s.useAnswers w.fetcher.who) k w g x va .hwErr false
      else ((s.useAnswers w.fetcher.who).countAhead w.core w.quad w.part line (s.time - w.stoodOf g)).ifill w.core w.quad
        w.part line) := by
  simp only [execFetchFill, State.fetchTrap, h, hline]
  cases s.fetchWord w x.pc.toNat <;> rfl

theorem fetchFill_fault {cause : Cause} {malf : Bool} (hfault : s.fetchPlace w va = .error (some (cause, malf, false))) :
    execFetchFill k slice s = .next (s.fetchTrap (s.useAnswers w.fetcher.who) k w g x va cause malf) := by
  simp only [execFetchFill, State.fetchTrap, h, hfault]
  cases s.fetchWord w x.pc.toNat <;> rfl

theorem fetchFill_misses (hwait : s.fetchPlace w va = .error none) :
    execFetchFill k slice s = .next (s.sendMiss w.fetcher w.func va w.fetchNeed) := by
  simp only [execFetchFill, h, hwait]

end

end

/-- Settles O48. -/
theorem waveEvents_hold : Obligations.WaveEvents := by
  intro s core quad k slice
  refine ⟨⟨fun p hp => ?_, fun hnone => ?_⟩, fun p hp => State.choiceNow_spec hp,
    fun l => ⟨State.chooseFrom_of_ne_nil, fun p hp => ⟨State.chooseFrom_mem hp, fun hle h64 => ?_, ?_⟩⟩,
    fun w x cl hw hx => ?_,
    fun w cl n hn h => Wave.flagsReady_wait hn h, fun w g x va hmiss => ?_, fun w o hw ho hfind => ⟨fun hle => ?_, fun hlt => ?_⟩,
    fun w l t hw hmon hreached hland => ?_⟩
  -- ISSUE_PICK
  · obtain ⟨cores, hpick⟩ := (s.beginQuadrant core quad).picked_eq (core := core) (quad := quad) p
    refine ⟨(s.beginQuadrant core quad).picked core quad p, ?_, ?_⟩
    · show execIssuePick core quad s = _
      simp only [execIssuePick, hp]
    · rw [hpick]
      exact ⟨rfl, rfl, rfl, fun l n => rfl⟩
  · show execIssuePick core quad s = _
    simp only [execIssuePick, hnone]
  -- the choice
  · obtain ⟨e, he, hage⟩ := h64
    rcases State.chooseFrom_cases hp with ho | ⟨⟨best, ho, hne⟩, _⟩
    · obtain ⟨hmem, hmax⟩ := oldest_max ho
      exact le_antisymm (hle p hmem) (hage ▸ hmax e he)
    · obtain ⟨hmem, hmax⟩ := oldest_max ho
      exact absurd (le_antisymm (hle best hmem) (hage ▸ hmax e he)) hne
  · rcases State.chooseFrom_cases hp with ho | ⟨_, _, hlast⟩
    · exact .inl (oldest_max ho).2
    · exact .inr hlast
  -- CLAUSE_BEGIN
  · intro g hrun hturn hmay hcl hword
    have hbegin := State.beginClause_fetched hw hx hrun hturn hmay hcl hword
    exact ⟨fun hill => congrArg _ (hbegin.trans (if_pos hill)), fun hleg hcut hready => congrArg _ (hbegin.trans
      (ite_else (ne_true_of_eq_false hleg) (ite_else (ne_true_of_eq_false hcut) (if_pos hready))))⟩
  -- FETCH_FILL
  · intro came traps mayTrap
    refine ⟨fun line hline => ?_, fun cause malf hfault => ?_, fetchFill_misses hmiss⟩
    · have hfill := fetchFill_ok hmiss hline
      refine ⟨fun hshort => hfill.trans ?_, fun hlong hclean => hfill.trans ?_, fun hlong hbad hmay => hfill.trans ?_⟩
      · exact congrArg _ (if_pos hshort)
      · exact congrArg _ (ite_else (Nat.not_lt.2 hlong) (if_neg hclean))
      · exact congrArg _ (ite_else (Nat.not_lt.2 hlong) ((if_pos hbad).trans (State.fetchTrap_raised hmay)))
    · have hfill := fetchFill_fault hmiss hfault
      exact ⟨fun hmay => hfill.trans (congrArg _ (State.fetchTrap_raised hmay)),
        fun hmay => hfill.trans (congrArg _ (State.fetchTrap_held hmay))⟩
  -- SPECIAL_COMPLETE
  · refine congrArg Host.Outcome.next ?_
    simp only [hw, Option.bind_some, hfind]
    exact if_pos hle
  · refine congrArg Host.Outcome.next ?_
    simp only [hw, Option.bind_some, hfind]
    exact if_neg (Nat.not_le.2 hlt)
  -- MON_REGISTRATION
  · refine congrArg Host.Outcome.next ?_
    simp only [hw, hmon, State.arrives, hreached, hland, Bool.and_self, if_true, Bool.and_eq_true,
      decide_eq_true_eq]

end Sys2Proof.Machine
end

