-- ==== Sys2Proof/Proofs/Placement.lean ====
section
/-! Traps delivered, new waves, and the events that place, cut and end work (O50, O54, O55). -/

namespace Sys2Proof.Machine

/-! # Delivering a trap

Delivering a trap (O50). The frame's address is translated with a write, and a leaf whose A and D bits are clear is
marked first (R232). That mark is an atomic at the entry's own place, so that it fires a monitor armed on the entry's line
(R286): the monitor that the handler keeps has then fired at a place that is no part of the frame. -/

/-- A trap of a new wave: its clause at 0x5000 is none that R25 admits. -/
def markTrap : TrapDue :=
  clauseTrap (newWave wordKernel 0 2 0 0 1 0 0 0 0 0 [] 16 [] 0 none) 0xF 0x5000 [] .illegalClause false false 0

/-- A new wave with that trap due and a monitor armed on the line of the leaf that maps its save slot. -/
def markWave : Wave :=
  { newWave wordKernel 0 2 0 0 1 0 0 0 0 0 [] 16 [] 0 none with due := [markTrap], monitor := .armed (.global 0x3000 false) }

/-- A partition with a handler, whose save slots are at 0x8000. -/
def markPart : Partition := { Partition.empty with grants := [(0, 2 ^ 39)], tvec := 0x6000, slotBase := 0x8000 }

/-- A machine whose one leaf, at 0x3000, maps the first 16 GiB to themselves and has its A and D bits clear. -/
def markState : State :=
  { State.reset with
    hbm := (((State.reset.hbm.store 0x1000 8 0x2001).store 0x2000 8 0x3001).store 0x3000 8 0x1F)
    parts := State.reset.parts.set 0 markPart
    funcs := State.reset.funcs.set 1 { Func.reset with part := some 0, active := true, root := 0x1000 }
    waves := State.reset.waves.set 1 markWave }

theorem markState_nextTrap : markState.nextTrap 1 = some (markWave, markTrap) := by decide +kernel

/-- The trap is not retried and has a handler, outside of which the wave is. -/
theorem markState_enters : markState.heldInPlace markWave = false ∧ markState.waves.get? 1 = some markWave ∧
    markState.parts.get? 0 = some markPart ∧ (markState.modWave 1 (fun w => w.undue markTrap)).retries markWave markTrap = false ∧
    (markTrap.causes.findSome? (·.tvec)).getD markPart.tvec ≠ 0 := by decide +kernel

theorem markState_translate :
    ((markState.modWave 1 (fun w => w.undue markTrap)).translate 1 0x8000 ⟨true, false, true⟩).2 = .ok 0x8000 false := by
  decide +kernel

/-- What the handler keeps of the monitor has fired at the leaf's place, which no byte of the frame at 0x8000 meets. -/
theorem markState_delivered :
    (match exec (.trapDelivery 1) markState with
      | .next u => (u.waves.get? 1).any (fun w => w.heldMonitor == some (.firing (.global 0x3000 false) 0))
      | _ => false) = true := by
  decide +kernel

/-- Refutes O50: the mark of the page that the frame lies in is a store too, and fires a monitor armed on the line of its
entry; `markState` runs into it. -/
theorem not_trapEntry : ¬ Obligations.TrapEntry := by
  unfold Obligations.TrapEntry
  intro h
  obtain ⟨hplace, hwave, hpart, hretry, htvec⟩ := markState_enters
  obtain ⟨-, -, hok⟩ := h.1 markState 1 markWave _ markTrap markPart markState_nextTrap hplace hwave hpart rfl hretry
  obtain ⟨u, w', hrun, hget, -, -, -, -, -, -, -, -, -, -, -, -, -, -, -, -, -, -, -, -, hmon, -⟩ :=
    hok _ 0x8000 false htvec rfl (Prod.ext rfl markState_translate)
  have hfired := markState_delivered
  rw [hrun] at hfired
  simp only [hget, Option.any_some, beq_iff_eq] at hfired
  rw [hfired] at hmon
  rcases hmon with hkept | ⟨l, -, -, hframe⟩
  · exact absurd hkept (by decide)
  · exact absurd hframe (by decide)

/-! # New waves

The state of a new wave (O54): its slices, its lanes and the registers that its launch gives it (R87, R92). -/

/-- Cells written to an empty store, all those of one key alike: the key reads their value, or 0 where there is none. -/
theorem ZMap.get_setAll_nil {n : Nat} (l : List (Nat × BitVec n)) (a : Nat) (x : BitVec n) (hl : ∀ e ∈ l, e.1 = a → e.2 = x)
    (hx : (a, x) ∈ l ∨ x = 0) : (ZMap.setAll [] l).get a = x := by
  by_cases hm : (a, x) ∈ l
  · exact get_setAll_mem l [] a x hm hl
  · rw [get_setAll_other l [] a (fun e he ha => hm (by rw [← ha, ← hl e he ha]; exact he)), get_nil]
    exact (hx.resolve_left hm).symm

/-- The wave of a kernel has its kernel's lanes, four of them in each slice. -/
theorem Kernel.lanes_of_width {k : Kernel} (h : k.width ≤ 2) : 4 * (k.lanes / 4) = k.lanes ∧ k.lanes / 4 ≤ 16 := by
  have hw : k.width = 0 ∨ k.width = 1 ∨ k.width = 2 := by omega
  rcases hw with hw | hw | hw <;> simp [Kernel.lanes, hw]

section
variable (k : Kernel) (entry : DWord) (block index half func part core quad slot lanes saveSlot : Nat) (waveid : DWord)
  (sregs : List Nat) (args : List DWord) (det : Option DetWave)

theorem newWave_slice {i : Nat} {x : Slice} (hx : (newWave k entry block index half func part core quad slot waveid sregs
      lanes args saveSlot det).slices[i]? = some x) :
    x = newSlice entry (maskWhere 16 (fun j => decide (j < k.lanes / 4))) (maskWhere 4 (fun j => decide (lanes ≤ 4 * i + j))) := by
  simp only [newWave, List.getElem?_map, Option.map_eq_some_iff, List.getElem?_eq_some_iff] at hx
  obtain ⟨j, ⟨hj, rfl⟩, rfl⟩ := hx
  rw [List.getElem_range]

/-- v0 and v1 of a lane hold the low and the high half of its argument. -/
theorem newWave_vget (r l : Nat) (hl : l < 64) (hn : args.length ≤ 64) :
    (newWave k entry block index half func part core quad slot waveid sregs lanes args saveSlot det).v.get (vKey r l) =
      if r < 2 then (match args[l]? with
        | some a => BitVec.ofNat 32 (a.toNat / 2 ^ (32 * r))
        | none => 0) else 0 := by
  refine ZMap.get_setAll_nil _ _ _ ?_ ?_
  · intro e he hk
    simp only [List.mem_flatten, List.mem_mapIdx] at he
    obtain ⟨cells, ⟨m, hm, rfl⟩, he⟩ := he
    have hm' : m < 64 := by omega
    simp only [List.mem_cons, List.not_mem_nil, or_false] at he
    rcases he with rfl | rfl <;> obtain ⟨rfl, rfl⟩ := vKey_lane hm' hl hk <;> simp [List.getElem?_eq_getElem hm]
  · by_cases hr : r < 2 ∧ l < args.length
    · left
      simp only [List.mem_flatten, List.mem_mapIdx]
      refine ⟨_, ⟨l, hr.2, rfl⟩, ?_⟩
      have hr' : r = 0 ∨ r = 1 := by omega
      rcases hr' with rfl | rfl <;> simp [List.getElem?_eq_getElem hr.2]
    · right
      by_cases h : r < 2
      · simp [h, List.getElem?_eq_none (show args.length ≤ l by omega)]
      · simp [h]

theorem newWave_sget (r : Nat) :
    (newWave k entry block index half func part core quad slot waveid sregs lanes args saveSlot det).s.get r =
      BitVec.ofNat 32 (sregs.getD r 0) := by
  refine ZMap.get_setAll_nil _ _ _ ?_ ?_
  · intro e he hk
    obtain ⟨i, hi, rfl⟩ := List.mem_mapIdx.1 he
    obtain rfl : i = r := hk
    simp [List.getD_eq_getElem?_getD, hi]
  · by_cases h : r < sregs.length
    · exact Or.inl (List.mem_mapIdx.2 ⟨r, h, by simp [List.getD_eq_getElem?_getD, h]⟩)
    · right
      simp [List.getD_eq_getElem?_getD, List.getElem?_eq_none (Nat.le_of_not_lt h)]

end

/-- Settles O54. -/
theorem newWaveState : Obligations.NewWaveState := by
  unfold Obligations.NewWaveState
  intro k entry block index half func part core quad slot lanes saveSlot waveid sregs args det hk hn w
  obtain ⟨hwidth, hcount⟩ := Kernel.lanes_of_width hk
  have hslices : w.slices.length = k.lanes / 4 := by simp [w, newWave]
  refine ⟨hslices, by rw [Wave.width, hslices, hwidth], ?_, ?_, ?_, ?_, ?_, ?_⟩
  · intro i x hx
    obtain rfl := newWave_slice _ _ _ _ _ _ _ _ _ _ _ _ _ _ _ _ hx
    refine ⟨rfl, rfl, rfl, rfl, rfl, rfl, rfl, fun j hj => ⟨?_, ?_⟩, fun j hj => ?_⟩ <;> simp only [newSlice]
    rotate_left
    · rw [maskWhere_getLsbD hj]
    · rw [maskWhere_getLsbD hj]
    rw [BitVec.getLsbD_not, maskWhere_getLsbD hj, decide_eq_true hj, Bool.true_and, ← decide_not]
    exact decide_eq_decide.2 Nat.not_le
  · intro r l hl
    exact newWave_vget k entry block index half func part core quad slot lanes saveSlot waveid sregs args det r l hl hn
  · exact newWave_sget k entry block index half func part core quad slot lanes saveSlot waveid sregs args det
  · intro q
    show (ZMap.set [] 0 w.present).get q = _
    rw [ZMap.get_set, ZMap.get_nil]
  · intro l hl
    exact maskWhere_getLsbD (f := fun l => decide (l < lanes)) hl
  · refine ⟨rfl, rfl, ?_, rfl, rfl, rfl, rfl, rfl, rfl, rfl, rfl, rfl, rfl, rfl, rfl, rfl, rfl, rfl, rfl, rfl, rfl⟩
    intro n
    exact (List.getD_eq_getElem?_getD).trans (List.getElem?_getD_replicate_default_eq 0 12 n)

/-! # Placement

The events that place, cut, resume and end work (O55): each event's conditions, one after another, decide which of the
model's effects it has. -/

/-! ## The end of a grid (R323) -/

/-- A grid that is done and took no fault tells its origin OK or CANCELLED, with the count that `t` has made. -/
theorem exec_gridComplete {s : State} {gid : Nat} {g : Grid} (hg : s.grids.get? gid = some g) (hd : s.gridDone gid g = true)
    (hf : g.fault = none) (hdet : g.det = none) :
    exec (.gridComplete gid) s = .next
      ((if (!(!g.cutting) || decide (g.launch.ctok = 0)) = true then
          ({ s with grids := s.grids.erase gid, dregions := s.dregions.filter (fun e => e.2.grid != gid) } : State)
        else match ({ s with grids := s.grids.erase gid, dregions := s.dregions.filter (fun e => e.2.grid != gid) } : State).readFor
            g.func g.launch.ctok.toNat 8 with
          | (s, .ok x) => (s.writeFor g.func g.launch.ctok.toNat 8 (x + 1)).1
          | (s, .error _) => s).originEnded g.origin (if !g.cutting then stOK else stCancelled) 0 0) := by
  refine congrArg Host.Outcome.next ?_
  simp only [hg, hd, hf, hdet, Bool.not_true, Bool.false_eq_true, if_false]
  cases g.origin <;> rfl

/-! ## The units of a cut (R364, R374) -/

theorem exec_cairnPublish {s : State} {u : CutUnit} (hl : u.listOf = none)
    (hu : s.cuts.find? (fun x => x.id == u.id && x.method == .save && x.state == .writing) = some u) :
    exec (.cairnPublish u.id) s = .next (if s.unitCut u = true then s.publish u else s) := by
  refine congrArg Host.Outcome.next ?_
  simp only [hu, hl]

/-! ## The end of a round (R384 to R386) -/

theorem exec_roundEnd {s : State} {gid : Nat} {g : Grid} {d : DetGrid} (hg : s.grids.get? gid = some g) (hd : g.det = some d) :
    exec (.roundEnd gid) s = .next
      (if (!d.started) = true then (if s.roundReady gid g d = true then s.openRound gid else s)
      else if (!(s.members gid).all (fun e => s.quantumOver e.1 e.2)) = true then s
      else
        let t := s.commitSome gid (((s.members gid).map (fun e => e.2.buffer.length)).foldl (· + ·) 0)
        match (t.grids.get? gid).bind (·.det) with
        | some y => if t.committed gid y = true then t.closeRound gid else if t.onlyWaits gid = true then t.timeoutCommits gid else t
        | none => t) := by
  refine congrArg Host.Outcome.next ?_
  simp only [hg, hd] <;> rfl

/-- Settles O55. -/
theorem placementEvents : Obligations.PlacementEvents := by
  unfold Obligations.PlacementEvents
  intro s part gid g p
  refine ⟨?place, ?idle, ?tasks, ?done, ?preempt, ?publish, ?resume, ?round⟩
  case place =>
    intro first places harb hsaved hnext hplaces s0
    refine congrArg Host.Outcome.next ?_
    simp only [harb, hsaved, hnext, hplaces, Bool.false_eq_true, if_false, s0]
  case idle =>
    rintro (harb | ⟨harb, hsaved⟩) <;> refine congrArg Host.Outcome.next ?_
    · simp only [harb]
    · simp only [harb, hsaved, if_true]
  case tasks =>
    intro die entry k mine hbatch hg hdet
    refine congrArg Host.Outcome.next ?_
    simp only [hbatch, hg, hdet, Bool.false_eq_true, if_false]
  case done =>
    intro hg hd s1
    refine ⟨fun c hf => ?_, fun hf hcut hdet => ?_, fun hf hcut hdet htok => ?_, fun hf hcut hdet htok t x hread => ?_⟩
    · refine congrArg Host.Outcome.next ?_
      simp only [hg, hd, hf, Bool.not_true, Bool.false_eq_true, if_false, s1]
    · rw [exec_gridComplete hg hd hf hdet]
      simp [hcut, s1]
    · rw [exec_gridComplete hg hd hf hdet]
      simp [hcut, htok, s1]
    · rw [exec_gridComplete hg hd hf hdet, hread]
      have htok' : ¬ (!(!g.cutting) || decide (g.launch.ctok = 0)) = true := by simp [hcut]; exact htok
      rw [if_neg htok', hcut]
      rfl
  case preempt =>
    intro hg hp hbound hwork hplaces victims hvictims
    refine congrArg Host.Outcome.next ?_
    simp only [hg, hp, hbound, hwork, hplaces, Bool.not_true, Bool.false_eq_true, or_self, if_false, hvictims]
  case publish =>
    intro u hu hl
    rw [exec_cairnPublish hl hu]
    exact ⟨fun hc => congrArg Host.Outcome.next (if_pos hc), fun hc => congrArg Host.Outcome.next (if_neg (by simp [hc]))⟩
  case resume =>
    rintro u places hu harb ⟨v, hv, hid⟩ hplaces
    refine ⟨(match ((places.getLast?).map (fun e => e.2.1)).bind (fun c => p.cores.idxOf? c) with
      | some i => { p with pointer := (i + 1) % p.cores.length }
      | none => p), ?_, congrArg Host.Outcome.next ?_⟩
    · split <;> rfl
    · simp only [hu, harb, hv, Option.map_some, hid, ne_eq, not_true_eq_false, if_false, hplaces] <;> rfl
  case round =>
    intro d hg hd
    refine ⟨fun hs hr => ?_, fun hs hm => ?_, fun hs hm => ?_⟩ <;> rw [exec_roundEnd hg hd]
    · simp [hs, hr]
    · obtain ⟨e, he, hq⟩ := hm
      have hall : (s.members gid).all (fun e => s.quantumOver e.1 e.2) = false := List.all_eq_false.2 ⟨e, he, by simp [hq]⟩
      simp [hs, hall]
    · intro t y hy
      have hall : (s.members gid).all (fun e => s.quantumOver e.1 e.2) = true := List.all_eq_true.2 hm
      simp only [hs, hall, Bool.not_true, Bool.false_eq_true, if_false]
      refine ⟨fun hc => ?_, fun hc hw => ?_, fun hc hw => ?_⟩ <;> refine congrArg Host.Outcome.next ?_ <;>
        simp only [t] at hy hc ⊢ <;> simp only [hy, hc, if_true, Bool.false_eq_true, if_false]
      · simp only [t] at hw
        simp only [hw, if_true]
      · simp only [t] at hw
        simp only [hw, Bool.false_eq_true, if_false]

end Sys2Proof.Machine

end

