-- ==== Sys2Proof/Proofs/QueueEvents.lean ====
section
/-! The events of command queues and of plats (O56, O57). -/

namespace Sys2Proof.Machine

/-! # Command queues

The events of a command queue (O56). Each event's equation peels the model's conditions in their order; the clauses of the
obligation are its cases. -/

section
variable {s : State} {f q n : Nat} {r : Rec}

/-! ## Notification and start (R316, R319) -/

theorem exec_qnotifyWrite {v : DWord} (hu : s.usable = true) (hq : s.hasQueue f q = true) :
    exec (.qnotifyWrite f q v) s = .next
      (if ((s.func f).queue q).notify < v.toNat ∧ v.toNat ≤ ((s.func f).queue q).done + 2 ^ ((s.func f).queue q).size then
        s.modQueue f q (fun x => { x with notify := v.toNat })
      else s.modQueue f q (fun x => { x with nerr := true })) := by
  refine congrArg Host.Outcome.next (ite_else ?_ rfl)
  simp [hu, hq]

/-- A record whose words are read enters its queue, or waits behind its queue's records or for its plat. -/
theorem exec_recordStart {t : State} {w : List Word} (hm : s.mayStart f q = true)
    (hw : s.recordWords f ((s.func f).queue q) ((s.func f).queue q).start = (t, .ok w)) :
    let y := Rec.ofWords ((s.func f).queue q).start s.time w
    exec (.recordStart f q) s = .next
      (if ((natBits y.hdr.toNat 9 1 == 1 || implicitPrev y.opc) && ((s.func f).queue q).recs.any (fun z => z.stage != .retired)) = true
      then s
      else if s.wantsPlat f y = true then
        (if s.platRuns f y = true then s
        else if s.platFree (.record f q) = true then (t.foundPlat (.record f q)).enterRecord f q y .none
        else s.seekPlat (.record f q))
      else t.enterRecord f q y .none) := by
  refine congrArg Host.Outcome.next (ite_else (by simp [hm]) ?_)
  simp only [hw]

theorem exec_recordStart_error {t : State} {c : Cause} (hm : s.mayStart f q = true)
    (hw : s.recordWords f ((s.func f).queue q) ((s.func f).queue q).start = (t, .error c)) :
    exec (.recordStart f q) s = .next (if ((s.func f).queue q).loc = true then
      t.enterRecord f q (Rec.ofWords ((s.func f).queue q).start s.time []) (some c) else t) := by
  refine congrArg Host.Outcome.next (ite_else (by simp [hm]) ?_)
  simp only [hw]

/-! ## Plats and bundles (R324, R340) -/

/-- A RUN_PLAT whose header is legal and whose generation is a new one starts to run, where it may run. -/
theorem exec_runPlat {t : State} {h : List Nat} (hr : s.begun? f q n 2 = some r)
    (hh : s.platHeader f (r.dword 0x10) 16 = (t, .ok h)) :
    exec (.runPlat f q n) s = .next
      (if (!platLegal h) = true then t.retire f q n stBadRecord 0 0
      else if r.word 0x18 ≤ nodeField h 8 0 32 then t.retire f q n 10 0 0
      else if ((s.platOn f (r.dword 0x10)).isSome || decide (maxPlats ≤ s.plats.length)) = true then s
      else (t.running f q n).startPlat f (r.dword 0x10) (r.word 0x18) (nodeField h 4 0 13) (t.queueWgt f q) (.record f q n) 0) := by
  refine congrArg Host.Outcome.next ?_
  simp only [hr, hh]

/-! ## SIGNAL (R327) -/

theorem exec_signal (hr : s.rec? f q n = some r) (ho : r.opc = 7) :
    exec (.signal f q n) s = .next (match r.stage with
      | .started =>
        (match s.writeRing f ((s.func f).queue q).loc (r.dword 0x10) 8 (r.dword 0x18) with
          | (t, .error c) => t.retire f q n stFaulted c.code 0
          | (t, .ok ()) =>
            if s.ringPerforms f ((s.func f).queue q).loc (r.dword 0x10) ≤ t.time then t.signalDone f q n r
            else t.modRec f q n (fun x => { x with stage := .waiting (some (s.ringPerforms f ((s.func f).queue q).loc (r.dword 0x10))) }))
      | .waiting (some d) => if d ≤ s.time then s.signalDone f q n r else s
      | _ => s) := by
  refine congrArg Host.Outcome.next ?_
  simp only [hr, Option.bind_some, ho, if_true] <;> rfl

/-! ## CTX_SAVE, CTX_RESTORE and CTX_ABORT (R423 to R425) -/

theorem Func.ctxLate_iff {x : Func} {now : Nat} : x.ctxLate now = true ↔ ∃ t, x.switching = some t ∧ t + 200000 < now := by
  simp [Func.ctxLate, Option.any_eq_true]

theorem State.listUnits_isEmpty {k : Nat × Nat × Nat} : (s.listUnits k).isEmpty = true ↔ ∀ y ∈ s.cuts, y.listOf ≠ some k := by
  simp [State.listUnits, List.filter_eq_nil_iff]

theorem exec_ctxSave_none (hr : s.begun? f q n 9 = some r) (hl : (s.func f).ctxLate s.time = false) {t : State}
    (ht : t = s.modFunc f (fun x => { x with saving := true })) (hn : t.saveUnits 3 (f, q, n) (t.unitsOfFunc f) = none) :
    exec (.ctxSave f q n) s = .next t := by
  subst ht
  refine congrArg Host.Outcome.next ?_
  simp only [hr, hl, Bool.false_eq_true, if_false, hn]

/-- Every save has begun, and those under way have joined: the list is published at once when it is empty. -/
theorem exec_ctxSave_some (hr : s.begun? f q n 9 = some r) (hl : (s.func f).ctxLate s.time = false) {t u v : State}
    (ht : t = s.modFunc f (fun x => { x with saving := true })) (hu : t.saveUnits 3 (f, q, n) (t.unitsOfFunc f) = some u)
    (hv : v = (u.joinSaves f (CutUnit.onList (f, q, n))).running f q n) :
    exec (.ctxSave f q n) s = .next (if (v.listUnits (f, q, n)).isEmpty = true then v.publishList (f, q, n) else v) := by
  subst ht hv
  refine congrArg Host.Outcome.next ?_
  simp only [hr, hl, Bool.false_eq_true, if_false, hu]

theorem exec_ctxRestore {t u : State} {count : Nat} {l : List Nat} (hr : s.begun? f q n 10 = some r)
    (hl : (s.func f).ctxLate s.time = false) (hc : s.readFor f (r.dword 0x10) 8 = (t, .ok count))
    (hd : t.dwordsFor f (r.dword 0x10 + 8) count = (u, .ok l)) :
    exec (.ctxRestore f q n) s = .next (if (l.map (u.heldCairn f)).all Option.isSome = true then
      ((u.publishCairns ((l.map (u.heldCairn f)).filterMap id)).modFunc f (fun x => { x with saving := false })).retire f q n stOK 0 0
      else u.retire f q n stBadRecord 0 0) := by
  refine congrArg Host.Outcome.next ?_
  simp only [hr, hl, Option.filter_some, Bool.not_false, if_true, hc, hd]

end

/-- Settles O56. -/
theorem commandEvents : Obligations.CommandEvents := by
  unfold Obligations.CommandEvents
  intro s f q n r x
  refine ⟨?notify, ?start, ?unread, ?launch, ?plat, ?bundle, ?chain, ?load, ?unload, ?release, ?signal, ?wait, ?poll, ?save, ?late,
    ?restore, ?abort⟩
  case notify =>
    intro v hu hq
    rw [exec_qnotifyWrite hu hq]
    exact ⟨fun hlo hhi => congrArg Host.Outcome.next (if_pos ⟨hlo, hhi⟩), fun h => congrArg Host.Outcome.next (if_neg fun ⟨hlo, hhi⟩ =>
      h.elim (Nat.not_le.2 hlo) (Nat.not_lt.2 hhi))⟩
  case start =>
    intro t w hm hw y behind run
    have hrun : run = _ := exec_recordStart hm hw
    refine ⟨fun hb => ?_, fun hb hp => ?_, fun hb hp hr => ?_, fun hb hp hr => ⟨fun hf => ?_, fun hf => ?_⟩⟩ <;>
      refine hrun.trans (congrArg Host.Outcome.next ?_)
    · exact if_pos hb
    · exact ite_else (Bool.eq_false_iff.1 hb) (if_neg (Bool.eq_false_iff.1 hp))
    · exact ite_else (Bool.eq_false_iff.1 hb) ((if_pos hp).trans (if_pos hr))
    · exact ite_else (Bool.eq_false_iff.1 hb) ((if_pos hp).trans (ite_else (Bool.eq_false_iff.1 hr) (if_pos hf)))
    · exact ite_else (Bool.eq_false_iff.1 hb)
        ((if_pos hp).trans (ite_else (Bool.eq_false_iff.1 hr) (if_neg (Bool.eq_false_iff.1 hf))))
  case unread =>
    intro t c hm hw
    exact exec_recordStart_error hm hw
  case launch =>
    intro hr t g
    refine ⟨fun sub hg => congrArg Host.Outcome.next ?_, fun id hg => congrArg Host.Outcome.next ?_⟩ <;>
      · simp only [g] at hg
        simp only [hr, hg]
  case plat =>
    intro hr t h hh
    rw [exec_runPlat hr hh]
    refine ⟨fun hl => ?_, fun hl hgen => ?_, fun hl hgen hon hmax => ?_⟩ <;> refine congrArg Host.Outcome.next ?_
    · exact if_pos (by simp [hl])
    · exact ite_else (by simp [hl]) (if_pos hgen)
    · exact ite_else (by simp [hl]) (ite_else (Nat.not_le.2 hgen) (if_neg (by simp [hon, hmax])))
  case bundle =>
    intro hr t y
    refine ⟨fun c hy => congrArg Host.Outcome.next ?_, fun st sub hy => congrArg Host.Outcome.next ?_,
      fun l u hy hb hu => congrArg Host.Outcome.next ?_⟩ <;> simp only [y] at hy <;> simp only [hr, hy]
    have hb' : ¬ (l.any SubLaunch.isChain && s.chainBehind f q r) = true := by
      rw [Bool.and_eq_true]
      exact fun h => by simp [hb h.1] at h
    exact ite_else hb' (by rw [hu])
  case chain =>
    intro hr
    refine ⟨fun t hb ht => congrArg Host.Outcome.next ?_, ?_⟩
    · simp only [hr, hb, Bool.false_eq_true, if_false, ht]
    · rintro (hb | hn) <;> refine congrArg Host.Outcome.next ?_
      · simp only [hr, hb, if_true]
      · simp only [hr, hn]
        split <;> rfl
  case load =>
    intro k hr hk
    refine ⟨fun ha => ?_, fun t st sub ha hi => ?_, fun t h l p ha hi hp hlen => ?_⟩ <;> refine congrArg Host.Outcome.next ?_
    · simp only [hr, hk, ne_eq, ha, not_false_eq_true, if_true]
    · simp only [hr, hk, ne_eq, ha, not_true_eq_false, if_false, hi]
    · simp only [hr, hk, ne_eq, ha, not_true_eq_false, if_false, hi, hp, List.length_map, Nat.not_le.2 hlen]
  case unload =>
    intro k hr hk handle found
    refine ⟨fun hf => ?_, fun m hf => ?_⟩ <;> refine congrArg Host.Outcome.next ?_ <;> simp only [found, handle] at hf <;>
      simp only [hr, hk, hf, handle]
  case release =>
    intro part handle m l hm hl hh
    refine congrArg Host.Outcome.next ?_
    simp only [hm, hl, hh, Bool.false_eq_true, if_false]
  case signal =>
    intro hr ho t y at_ done
    rw [exec_signal hr ho]
    refine ⟨fun c hs hy => ?_, fun hs hy => ?_, fun d hs => ?_⟩ <;> rw [hs]
    · simp only [y, x] at hy
      simp only [hy]
    · simp only [y, x] at hy
      simp only [hy]
      rfl
    · rfl
  case wait =>
    intro hr
    refine congrArg Host.Outcome.next ?_
    simp only [hr]
  case poll =>
    intro d hr hw
    refine ⟨fun hp => ?_, fun t ht hle => ?_, fun t ht hlt => ?_⟩ <;> refine congrArg Host.Outcome.next ?_ <;> simp only [hr, hw]
    · exact if_pos (by simpa [x] using hp)
    · subst ht
      exact if_pos hle
    · subst ht
      exact if_neg (Nat.not_le.2 hlt)
  case save =>
    intro hr hlate t
    have hl : (s.func f).ctxLate s.time = false := Bool.eq_false_iff.2 (fun h => hlate (Func.ctxLate_iff.1 h))
    refine ⟨fun hn => exec_ctxSave_none hr hl rfl hn, fun u hu => ⟨fun hv => ?_, fun ⟨y, hy, hk⟩ => ?_⟩⟩ <;>
      refine (exec_ctxSave_some hr hl rfl hu rfl).trans (congrArg Host.Outcome.next ?_)
    · exact if_pos (State.listUnits_isEmpty.2 hv)
    · exact if_neg (fun h => State.listUnits_isEmpty.1 h y hy hk)
  case late =>
    rintro i hi hlate
    have hl := Func.ctxLate_iff.2 hlate
    rcases hi with rfl | rfl <;> refine congrArg Host.Outcome.next ?_
    · cases s.begun? f q n 9 with
      | none => rfl
      | some r => exact if_pos hl
    · cases s.begun? f q n 10 <;> simp [hl]
  case restore =>
    intro hr hlate t u count l hc hd
    have hl : (s.func f).ctxLate s.time = false := Bool.eq_false_iff.2 (fun h => hlate (Func.ctxLate_iff.1 h))
    rw [exec_ctxRestore hr hl hc hd]
    refine ⟨fun h => congrArg Host.Outcome.next (if_pos ?_), fun h => congrArg Host.Outcome.next (if_neg ?_)⟩
    · simpa using h
    · obtain ⟨a, ha, hn⟩ := h
      simp only [List.all_map, List.all_eq_true, not_forall]
      exact ⟨a, ha, by simp [hn]⟩
  case abort =>
    intro t hr hs ho hstage ht
    refine congrArg Host.Outcome.next ?_
    simp only [hr, hs]
    exact if_pos ⟨ho, hstage, ht⟩

/-! # Plats

The events of a plat and of replica groups (O57): the end of a payload that a running plat applies next is the first in the
order of ticks and nodes, and each event's conditions, one after another, decide which of the model's effects it has. -/

/-! ## The first of a sorted list -/

theorem mem_insertOn {α : Type} {f : α → Nat} {x y : α} {l : List α} : y ∈ insertOn f x l ↔ y = x ∨ y ∈ l := by
  induction l with
  | nil => simp [insertOn]
  | cons z l ih =>
    unfold insertOn
    split
    · simp
    · simp only [List.mem_cons, ih]
      exact or_left_comm

/-- The head of a list has its least value. -/
def HeadLeast {α : Type} (f : α → Nat) (l : List α) : Prop := ∀ p, l.head? = some p → ∀ y ∈ l, f p ≤ f y

theorem HeadLeast.insertOn {α : Type} {f : α → Nat} {x : α} {l : List α} (h : HeadLeast f l) : HeadLeast f (insertOn f x l) := by
  cases l with
  | nil => simp [HeadLeast, Machine.insertOn]
  | cons z l =>
    have hz := h z rfl
    intro p hp y hy
    rw [mem_insertOn] at hy
    unfold Machine.insertOn at hp
    split at hp
    next hlt =>
      cases hp
      rcases hy with rfl | hy
      · exact le_rfl
      · exact hlt.le.trans (hz y hy)
    next hge =>
      cases hp
      rcases hy with rfl | hy
      · exact Nat.not_lt.1 hge
      · exact hz y hy

theorem sortOn_head_least {α : Type} {f : α → Nat} {l : List α} {p : α} (h : (sortOn f l).head? = some p) :
    p ∈ l ∧ ∀ y ∈ l, f p ≤ f y := by
  have key : ∀ (l acc : List α), HeadLeast f acc →
      HeadLeast f (l.foldl (fun acc x => insertOn f x acc) acc) ∧
      ∀ y, y ∈ l.foldl (fun acc x => insertOn f x acc) acc ↔ y ∈ l ∨ y ∈ acc := by
    intro l
    induction l with
    | nil => exact fun acc hacc => ⟨hacc, fun y => by simp⟩
    | cons x l ih =>
      intro acc hacc
      obtain ⟨hleast, hmem⟩ := ih (insertOn f x acc) hacc.insertOn
      refine ⟨hleast, fun y => (hmem y).trans ?_⟩
      rw [mem_insertOn, List.mem_cons]
      tauto
  obtain ⟨hleast, hmem⟩ := key l [] (fun p hp => by cases hp)
  have hmem' : ∀ y, y ∈ sortOn f l ↔ y ∈ l := fun y => (hmem y).trans (by simp)
  exact ⟨(hmem' p).1 (List.mem_of_mem_head? h), fun y hy => hleast p h y ((hmem' y).2 hy)⟩

/-! ## The end that a running plat applies next (R335) -/

section
variable {s : State} {inst node : Nat} {p : PlatInst}

theorem PlatInst.nextEnded_least {now : Nat} {x : Payload} (h : p.nextEnded now = some x) :
    x ∈ p.payloads ∧ x.ended.isSome = true ∧ x.endedAt ≤ now ∧ ∀ y ∈ p.payloads, y.ended.isSome = true →
      (∀ z ∈ p.waits, z.node ≠ y.node) → y.endedAt ≤ now → x.endedAt * tokenPlace + x.node ≤ y.endedAt * tokenPlace + y.node := by
  obtain ⟨hx, hleast⟩ := sortOn_head_least h
  simp only [List.mem_filter, Bool.and_eq_true, decide_eq_true_eq] at hx hleast
  refine ⟨hx.1, hx.2.1.1, hx.2.1.2, fun y hy hend hwait hat => hleast y ⟨hy, ⟨hend, hat⟩, ?_⟩⟩
  simpa using hwait

theorem State.endDue_some {x : Payload} (h : s.endDue inst node = some (p, x)) :
    s.plats.get? inst = some p ∧ p.nextEnded s.time = some x ∧ x.node = node ∧ s.tokenBefore inst x.endedAt = false := by
  simp only [State.endDue, Option.filter_eq_some_iff, Option.bind_eq_some_iff, Option.map_eq_some_iff, Prod.mk.injEq,
    Bool.and_eq_true, beq_iff_eq, Bool.not_eq_true'] at h
  obtain ⟨⟨q, hq, y, hy, rfl, rfl⟩, hnode, htok⟩ := h
  exact ⟨hq, hy, hnode, htok⟩

/-! ## The events of a running plat (R333 to R338) -/

theorem exec_nodeIssue {t : State} {w rest : List Nat} (hp : s.plats.get? inst = some p) (hh : p.halted = none)
    (hf : (s.func p.func).places = true) (hn : s.nodeRec inst node = (t, w)) (hr : p.ready = node :: rest) :
    exec (.nodeIssue inst) s = .next (if (t.plat inst).dead.isSome = true then t.settled inst
      else match t.startNode inst node w with
        | (_, .wait) =>
          if nodeField w 0 24 4 = 4 then
            (s.modPlat inst (fun p => { p with waitFrom := some (p.waitFrom.getD s.time) })).seekPlat (.node inst)
          else s.modPlat inst (fun p => { p with waitFrom := some (p.waitFrom.getD s.time) })
        | (u, .refused st sub) =>
          ((u.modPlat inst (fun p => { p with waitFrom := .none, ready := p.ready.filter (· != node) })).faultNode inst node st
            sub).settled inst
        | (u, .run outcome ended parts) => (u.enterNode inst node w outcome ended parts).settled inst) := by
  refine congrArg Host.Outcome.next ?_
  simp only [hp, hr, hf, hh, hn, Bool.not_true, Option.isSome_none, Bool.or_self, Bool.false_eq_true, if_false] <;> rfl

/-- The end of a running node's payload is applied. -/
theorem exec_nodeComplete {x : Payload} {t : State} {w : List Nat} (hx : s.endDue inst node = some (p, x)) (hh : p.halted = none)
    (hn : (s.applied inst node).nodeRec inst node = (t, w)) :
    exec (.nodeComplete inst node) s = .next
      (if nodeState p.gen w ≠ 3 then (t.dropPayload inst node).settled inst
      else if x.ended ≠ some (stOK, 0) then s
      else match x.digest with
        | some d => if (t.func p.func).replica.isEmpty = true then (t.nodeDone inst node).settled inst
          else t.beginReplicas inst node d
        | .none => (t.nodeDone inst node).settled inst) := by
  refine congrArg Host.Outcome.next ?_
  simp only [hx, hh, hn, Option.isSome_none, Bool.false_eq_true, if_false] <;> rfl

/-- A fault of a running node's payload: one retry more with the cone that it cancels, or the node's own fault. -/
theorem exec_nodeFault {x : Payload} {t u : State} {w c : List Nat} {st sub : Nat} (hx : s.endDue inst node = some (p, x))
    (hh : p.halted = none) (hn : (s.applied inst node).nodeRec inst node = (t, w)) (he : x.ended = some (st, sub))
    (hst : (st, sub) ≠ (stOK, 0)) (hd : (t.plat inst).dead = none) (hrun : nodeState p.gen w = 3)
    (hc : (((t.dropPayload inst node).setFault inst node st sub).setNode inst node 7 (nodeUsed p.gen w + 1)).cancelCone inst node =
      (u, c)) :
    exec (.nodeFault inst node) s = .next (if nodeUsed p.gen w < nodeField w 0 16 8 then
      (u.modPlat inst (fun p => { p with cones := p.cones.set node c })).settled inst
      else ((t.dropPayload inst node).faultNode inst node st sub).settled inst) := by
  refine congrArg Host.Outcome.next ?_
  simp only [hx, he, hh, hst, hn, hd, hrun, hc, Option.isSome_none, Bool.false_eq_true, or_self, ne_eq, not_true_eq_false, if_false]

/-! ## Tokens (R335, R341) -/

theorem PlatInst.endsBefore_iff {k : Token} {now : Nat} :
    p.endsBefore k now = true ↔ ∃ x, p.nextEnded now = some x ∧ x.endedAt ≤ k.at_ := by
  simp [PlatInst.endsBefore, Option.any_eq_true]

/-- A token waits for its tick, for the tokens before it, and for the ends of payloads that its plat applies first. -/
theorem exec_platToken {id : Nat} {k : Token} (hk : s.tokens[id]? = some k) :
    exec (.platToken id) s = .next
      (if (decide (s.time < k.at_) || !s.nextToken id k || (s.platOn k.func k.plat.toNat).any (fun e => e.2.endsBefore k s.time)) = true
      then s
      else match (s.takeToken id k).platOn k.func k.plat.toNat with
        | .none => (s.takeToken id k).strayToken k.func k.plat.toNat
        | some (j, q) =>
          if k.gen ≠ q.gen.toNat ∨ q.nnode ≤ k.node ∨ k.func ≠ q.func then (s.takeToken id k).strayToken k.func k.plat.toNat
          else (((s.takeToken id k).applied j tokenPlace).token j k.node).settled j) := by
  refine congrArg Host.Outcome.next ?_
  simp only [hk] <;> rfl

/-! ## Replicas (R395, R396) -/

theorem exec_replicaMessage {m : ReplicaMsg} {n : Nat} {y : Packet}
    (hm : s.replicaHeads.find? (fun e => ReplicaMsg.ofPacket e.2 == m) = some (n, y)) :
    exec (.replicaMessage m) s = .next ((s.modEndpoint n (fun e => { e with oq := e.oq.erase y })).takeReplica m) := by
  refine congrArg Host.Outcome.next ?_
  simp only [hm]

theorem State.plat_of_get? (hp : s.plats.get? inst = some p) : s.plat inst = p := by
  simp [State.plat, Table.getD, hp]

end

/-- Settles O57. -/
theorem platEvents_hold : Obligations.PlatEvents := by
  unfold Obligations.PlatEvents
  intro s inst node p t w
  refine ⟨?issue, ?due, ?halted, ?ended, ?rearm, ?token, ?message, ?compare, ?timeout⟩
  case issue =>
    intro hp hh hf hn rest hr
    rw [exec_nodeIssue hp hh hf hn hr]
    refine ⟨fun hd => congrArg Host.Outcome.next (if_pos hd), fun hd => ?_⟩
    rw [if_neg (by simp [hd])]
    refine ⟨fun u hu => ?_, fun u st sub hu => ?_, fun u outcome ended parts hu => ?_⟩ <;> simp only [hu]
    by_cases h4 : nodeField w 0 24 4 = 4
    · simp only [h4, if_true, true_and, State.seekPlat]
      rw [← ite_not]
      simp
    · simp only [h4, if_false, false_and]
  case due =>
    intro x hx
    obtain ⟨hp, hnext, hnode, htok⟩ := State.endDue_some hx
    obtain ⟨hmem, hend, hat, hleast⟩ := PlatInst.nextEnded_least hnext
    refine ⟨hp, hmem, hnode, hend, hat, fun y hy hyend hwait hyat hy16 hx16 => ?_, fun k hk q hq => ?_⟩
    · have h := hleast y hy hyend hwait hyat
      unfold tokenPlace at h
      omega
    · simp only [State.tokenBefore, List.any_eq_false, Bool.and_eq_true, decide_eq_true_eq, not_and] at htok
      exact Nat.not_lt.1 fun hlt => htok k hk hlt (by simp [hq])
  case halted =>
    intro x hx hh
    refine congrArg Host.Outcome.next ?_
    simp only [hx, hh, if_true]
  case ended =>
    intro x hx hh hn
    refine ⟨fun hs => ?_, fun hs => ⟨fun he hd => ?_, fun d he hd hr => ?_, fun d he hd hr => ?_, fun st sub he hst hdead =>
      ⟨fun hu => ?_, fun u c hu hc => ?_⟩⟩⟩
    · rw [exec_nodeComplete hx hh hn, if_pos hs]
    · rw [exec_nodeComplete hx hh hn]
      simp only [hs, he, hd, ne_eq, not_true_eq_false, if_false]
    · rw [exec_nodeComplete hx hh hn]
      simp only [hs, he, hd, hr, ne_eq, not_true_eq_false, if_false, List.isEmpty_nil, if_true]
    · rw [exec_nodeComplete hx hh hn]
      have hr' : (t.func p.func).replica.isEmpty = false := by simpa using hr
      simp only [hs, he, hd, hr', ne_eq, not_true_eq_false, if_false, Bool.false_eq_true]
    · exact (exec_nodeFault hx hh hn he hst hdead hs rfl).trans (congrArg Host.Outcome.next (if_neg (Nat.not_lt.2 hu)))
    · exact (exec_nodeFault hx hh hn he hst hdead hs hc).trans (congrArg Host.Outcome.next (if_pos hu))
  case rearm =>
    intro c hp hc hm
    refine congrArg Host.Outcome.next ?_
    simp only [hp, hc, hm, Bool.not_true, Bool.false_eq_true, if_false]
  case token =>
    intro id k hk u before
    have hbefore : (s.platOn k.func k.plat.toNat).any (fun e => e.2.endsBefore k s.time) = true ↔ before := by
      simp only [before, Option.any_eq_true, PlatInst.endsBefore_iff, Prod.exists, exists_and_left]
    rw [exec_platToken hk]
    refine ⟨fun hat hnext hb => ?_, fun h => congrArg Host.Outcome.next (if_pos ?_)⟩
    · rw [if_neg (by simp [hnext, hat, mt hbefore.1 hb])]
      refine ⟨fun j q hq => ?_, fun hq => ?_⟩ <;> simp only [u] at hq <;> simp only [hq, u]
      exact ⟨fun hg hn hf => congrArg Host.Outcome.next (if_neg (by omega)), fun h => congrArg Host.Outcome.next (if_pos h)⟩
    · rcases h with h | h | h
      · simp [h]
      · simp [h]
      · simp [hbefore.2 h]
  case message =>
    intro m n y hm u
    rw [exec_replicaMessage hm]
    refine ⟨fun hu => congrArg Host.Outcome.next ?_, fun k q x hu hx => ⟨fun hpeer => congrArg Host.Outcome.next ?_,
      fun hpeer => congrArg Host.Outcome.next ?_⟩⟩ <;> unfold State.takeReplica <;> simp only [u] at hu
    · simp only [hu, u]
    · simp only [u] at hx hpeer
      simp only [hu, hx, List.contains_iff_mem, hpeer, if_true, u]
    · simp only [u] at hx hpeer
      simp only [hu, hx, List.contains_iff_mem, hpeer, if_false, u]
  case compare =>
    intro x hp peers
    have hfunc := State.plat_of_get? hp
    unfold State.compareReplicas
    rw [hfunc]
    refine ⟨fun ⟨d, hd, hno⟩ => if_pos ?_, fun hall => ?_⟩
    · rw [Bool.not_eq_true', List.all_eq_false]
      exact ⟨d, hd, by simpa using fun (b : List Byte) he => hno (d, b) he rfl⟩
    · rw [if_neg (by simpa [peers] using hall)]
      refine ⟨fun ⟨e, he, hne⟩ => if_pos (List.any_eq_true.2 ⟨e, he, by simpa using hne⟩), fun heq => if_neg ?_⟩
      simpa using heq
  case timeout =>
    intro x hp hx
    refine ⟨fun h => ?_, fun h => ?_⟩ <;> refine congrArg Host.Outcome.next ?_ <;>
      simp only [hp, Option.bind_some, hx, Option.map_some]
    · exact if_pos h
    · exact if_neg (Nat.not_le.2 h)

end Sys2Proof.Machine

end

