-- ==== Sys2Proof/Proofs/SteadyState.lean ====
section
/-! The canonical form of the machine's memories (R2), and what a state function must keep of it. Nearly every function of
the model leaves Datum time and the log of thermal trips alone and keeps every memory canonical: such a result is
`Steady`. The files that follow state it of each function that a step uses, in the model's own order, and cite the lemmas
of the functions that it calls. -/

namespace Sys2Proof.Machine

/-! ## Tables whose entries all have a property -/

/-- Every entry of a table has a property. -/
def Table.All {α : Type} (P : α → Prop) (t : Table α) : Prop := ∀ e ∈ t, P e.2

theorem mem_tableUpdate {α : Type} {t : Table α} {k : Nat} {f : α → α} {e : Nat × α} (h : e ∈ t.update k f) :
    e ∈ t ∨ ∃ x ∈ t, e = (x.1, f x.2) := by
  obtain ⟨x, hx, rfl⟩ := List.mem_map.1 h
  split
  · exact .inr ⟨x, hx, rfl⟩
  · exact .inl hx

theorem mem_tableSet {α : Type} {t : Table α} {k : Nat} {y : α} {e : Nat × α} (h : e ∈ t.set k y) :
    e ∈ t ∨ e = (k, y) := by
  induction t with
  | nil => exact .inr (List.mem_singleton.1 h)
  | cons x rest ih =>
    obtain ⟨a, v⟩ := x
    unfold Table.set at h
    simp only [List.mem_cons]
    split at h
    · next hk =>
      rcases List.mem_cons.1 h with rfl | h
      · exact .inr (by rw [hk])
      · exact .inl (.inr h)
    · split at h
      · exact (List.mem_cons.1 h).symm.imp (List.mem_cons.1 ·) id
      · rcases List.mem_cons.1 h with rfl | h
        · exact .inl (.inl rfl)
        · exact (ih h).imp_left .inr

theorem mem_of_tableGet {α : Type} {t : Table α} {k : Nat} {y : α} (h : t.get? k = some y) : (k, y) ∈ t := by
  induction t with
  | nil => simp [Table.get?] at h
  | cons x rest ih =>
    obtain ⟨a, v⟩ := x
    unfold Table.get? at h
    split at h <;> simp_all

section
variable {α : Type} {P : α → Prop} {t : Table α}

theorem Table.All.nil : Table.All P ([] : Table α) := fun _ h => (List.not_mem_nil h).elim

theorem Table.All.get? (h : t.All P) {k : Nat} {x : α} (e : t.get? k = some x) : P x := h _ (mem_of_tableGet e)

theorem Table.All.update (h : t.All P) (k : Nat) {f : α → α} (hf : ∀ x, P x → P (f x) := by exact fun _ hx => hx) :
    (t.update k f).All P := by
  intro e he
  obtain he | ⟨x, hx, rfl⟩ := mem_tableUpdate he
  · exact h e he
  · exact hf _ (h x hx)

theorem Table.All.set (h : t.All P) (k : Nat) {x : α} (hx : P x) : (t.set k x).All P := by
  intro e he
  obtain he | rfl := mem_tableSet he
  · exact h e he
  · exact hx

theorem Table.All.mapVals (h : t.All P) {f : Nat → α → α} (hf : ∀ k x, P x → P (f k x)) : (t.mapVals f).All P := by
  intro e he
  obtain ⟨x, hx, rfl⟩ := List.mem_map.1 he
  exact hf _ _ (h x hx)

theorem Table.All.filter (h : t.All P) (p : Nat × α → Bool) : Table.All P (List.filter p t) :=
  fun e he => h e (List.mem_of_mem_filter he)

theorem Table.All.erase (h : t.All P) (k : Nat) : (t.erase k).All P := h.filter _

end

/-! ## Blocks, regions and units under a cut -/

/-- Every scratchpad of a block is in canonical form. -/
def Block.Canonical (b : Block) : Prop := ∀ h ∈ b.halves, Memory.wf h.scratch = true

/-- The bytes of a cluster region are in canonical form. -/
def Region.Canonical (r : Region) : Prop := Memory.wf r.bytes = true

/-- The bytes of a die scratchpad's region are in canonical form. -/
def DieRegion.Canonical (r : DieRegion) : Prop := Memory.wf r.bytes = true

/-- The blocks and regions that a unit keeps are in canonical form. -/
def CutUnit.Canonical (u : CutUnit) : Prop := u.saved.All Block.Canonical ∧ u.regions.All Region.Canonical

/-- Every unit of a list is. -/
def CutsCanonical (l : List CutUnit) : Prop := ∀ u ∈ l, u.Canonical

theorem State.memoryCanonical_iff (s : State) : s.memoryCanonical ↔
    Memory.wf s.hbm = true ∧ Memory.wf s.host = true ∧ Memory.wf s.privMem = true ∧ Memory.wf s.control.upbuf = true ∧
    s.blocks.All Block.Canonical ∧ s.regions.All Region.Canonical ∧ s.dregions.All DieRegion.Canonical ∧ CutsCanonical s.cuts :=
  Iff.rfl

theorem State.memoryCanonical.block {s : State} (h : s.memoryCanonical) {k : Nat} {b : Block} (e : s.blocks.get? k = some b) :
    b.Canonical := by
  obtain ⟨-, -, -, -, hblocks, -⟩ := s.memoryCanonical_iff.1 h
  exact hblocks.get? e

theorem State.memoryCanonical.regions {s : State} (h : s.memoryCanonical) : s.regions.All Region.Canonical := by
  obtain ⟨-, -, -, -, -, hregions, -⟩ := s.memoryCanonical_iff.1 h
  exact hregions

theorem State.memoryCanonical.cuts {s : State} (h : s.memoryCanonical) : CutsCanonical s.cuts := by
  obtain ⟨-, -, -, -, -, -, -, hcuts⟩ := s.memoryCanonical_iff.1 h
  exact hcuts

theorem mem_listUpdate {α : Type} {l : List α} {i : Nat} {f : α → α} {y : α} (h : y ∈ listUpdate l i f) :
    y ∈ l ∨ ∃ x ∈ l, y = f x := by
  obtain ⟨j, hj, rfl⟩ := List.mem_mapIdx.1 h
  split
  · exact .inr ⟨_, List.getElem_mem hj, rfl⟩
  · exact .inl (List.getElem_mem hj)

theorem Block.Canonical.of_halves {b b' : Block} (h : b.Canonical) (e : b'.halves = b.halves) : b'.Canonical := by
  unfold Block.Canonical
  rw [e]
  exact h

theorem Block.Canonical.modHalf {b : Block} (h : b.Canonical) (i : Nat) {f : Half → Half}
    (hf : ∀ y : Half, Memory.wf y.scratch = true → Memory.wf (f y).scratch = true := by exact fun _ hy => hy) :
    (b.modHalf i f).Canonical := by
  intro y hy
  obtain hy | ⟨x, hx, rfl⟩ := mem_listUpdate hy
  · exact h y hy
  · exact hf _ (h x hx)

theorem Block.Canonical.mapHalves {b : Block} (h : b.Canonical) {f : Half → Half}
    (hf : ∀ y : Half, Memory.wf y.scratch = true → Memory.wf (f y).scratch = true := by exact fun _ hy => hy) :
    ∀ y ∈ b.halves.map f, Memory.wf y.scratch = true := by
  intro y hy
  obtain ⟨x, hx, rfl⟩ := List.mem_map.1 hy
  exact hf x (h x hx)

theorem Block.Canonical.loseHalf {b : Block} (h : b.Canonical) (half : Nat) : (b.loseHalf half).Canonical := by
  unfold Block.loseHalf
  split
  · exact h
  · exact h.modHalf _

theorem Block.Canonical.mapBarriers {b : Block} (h : b.Canonical) (cluster : Bool) (f : List Barrier → List Barrier) :
    (b.mapBarriers cluster f).Canonical := by
  unfold Block.mapBarriers
  split <;> exact h

theorem State.canonical_savedBlock (s : State) {b : Block} (h : b.Canonical) : (s.savedBlock b).Canonical := h.mapHalves

theorem newHalves_canonical (k : Kernel) (place : BlockPlace) :
    ∀ y ∈ place.map (fun h => newHalf k h.1), Memory.wf y.scratch = true := by
  intro y hy
  obtain ⟨x, -, rfl⟩ := List.mem_map.1 hy
  rfl

section
variable {l : List CutUnit}

theorem CutsCanonical.filter (h : CutsCanonical l) (p : CutUnit → Bool) : CutsCanonical (l.filter p) :=
  fun u hu => h u (List.mem_of_mem_filter hu)

theorem CutsCanonical.map (h : CutsCanonical l) {f : CutUnit → CutUnit}
    (hf : ∀ u, u.Canonical → (f u).Canonical := by exact fun _ hu => hu) : CutsCanonical (l.map f) := by
  intro u hu
  obtain ⟨x, hx, rfl⟩ := List.mem_map.1 hu
  exact hf _ (h x hx)

/-- The units of a list change where a condition holds. -/
theorem CutsCanonical.mapIf (h : CutsCanonical l) {p : CutUnit → Prop} {_ : DecidablePred p} {f : CutUnit → CutUnit}
    (hf : ∀ u, u.Canonical → (f u).Canonical := by exact fun _ hu => hu) : CutsCanonical (l.map (fun u => if p u then f u else u)) :=
  h.map fun u hu => by
    split
    · exact hf u hu
    · exact hu

theorem CutsCanonical.find? (h : CutsCanonical l) {p : CutUnit → Bool} {u : CutUnit} (e : l.find? p = some u) : u.Canonical :=
  h u (List.mem_of_find?_eq_some e)

/-- A unit with nothing saved joins a list. -/
theorem CutsCanonical.snoc (h : CutsCanonical l) {u : CutUnit} (hs : u.saved = []) (hr : u.regions = []) :
    CutsCanonical (l ++ [u]) := by
  intro x hx
  rcases List.mem_append.1 hx with hx | hx
  · exact h x hx
  · rw [List.mem_singleton.1 hx]
    exact ⟨hs ▸ Table.All.nil, hr ▸ Table.All.nil⟩

end

/-! ## The scratchpad of a half as its tile operations change -/

theorem Half.scratch_benchStop (h : Half) (o : TileOp) : (h.benchStop o).scratch = h.scratch := by
  unfold Half.benchStop
  split <;> rfl

theorem Half.scratch_foldl_benchStop (l : List TileOp) (h : Half) : (l.foldl Half.benchStop h).scratch = h.scratch := by
  induction l generalizing h with
  | nil => rfl
  | cons o rest ih => exact (ih _).trans (h.scratch_benchStop o)

theorem Half.scratch_putTile (h : Half) (cells : List (Nat × Word)) : (h.putTile cells).scratch = h.scratch := rfl

theorem Half.scratch_modTop (h : Half) (op : Nat) (f : TileOp → TileOp) : (h.modTop op f).scratch = h.scratch := rfl

theorem Half.scratch_accept (h : Half) (op : Nat) : (h.accept op).scratch = h.scratch := by
  unfold Half.accept
  split
  · split <;> rfl
  · rfl

theorem Ctx.scratch_enqueue (c : Ctx) (o : TileOp) (h : Half) : (c.enqueue o h).scratch = h.scratch := by
  unfold Ctx.enqueue
  split <;> rfl

/-! ## A unit read back from its cairns (R371, R375): the cells of an image have rising keys -/

theorem keysRise_of_pairwise {α : Type} {l : List (Nat × α)} (h : (l.map (·.1)).Pairwise (· < ·)) : keysRise l = true := by
  induction l with
  | nil => rfl
  | cons e rest ih =>
    obtain ⟨hlt, hrest⟩ := List.pairwise_cons.1 (List.map_cons ▸ h)
    exact (keysRise_cons e.1 e.2 rest).2 ⟨fun x hx => hlt _ (List.mem_map_of_mem hx), ih hrest⟩

theorem wf_cellsOf {l : List (Nat × Nat)} (h : (l.map (·.1)).Pairwise (· < ·)) : Memory.wf (cellsOf (n := 8) l) = true := by
  refine Bool.and_eq_true_iff.2 ⟨keysRise_filter _ _ (keysRise_of_pairwise ?_), List.all_eq_true.2 fun e he => ?_⟩
  · simpa [Function.comp_def] using h
  · exact (List.mem_filter.1 he).2

theorem wf_cellsOf_range (n : Nat) (f : Nat → Nat) : Memory.wf (cellsOf (n := 8) ((List.range n).map (fun a => (a, f a)))) = true :=
  wf_cellsOf (by simpa [Function.comp_def] using List.pairwise_lt_range)

theorem wf_cellsOf_lines {ts : List Nat} (h : ts.Pairwise (· < ·)) (f : Nat → Nat → Nat) :
    Memory.wf (cellsOf (n := 8) ((ts.mapIdx (fun i k => (List.range 128).map (fun b => (128 * k + b, f i b)))).flatten)) = true := by
  refine wf_cellsOf ?_
  rw [List.map_flatten, List.pairwise_flatten]
  simp only [List.mem_map, List.mem_mapIdx]
  constructor
  · rintro _ ⟨_, ⟨i, hi, rfl⟩, rfl⟩
    simp only [List.map_map, List.pairwise_map]
    refine List.pairwise_lt_range.imp ?_
    intro a b hab
    simp only [Function.comp_apply]
    omega
  · rw [List.pairwise_map, List.pairwise_iff_getElem]
    intro i j hi hj hij
    simp only [List.getElem_mapIdx, List.map_map, List.mem_map, Function.comp_apply, List.mem_range]
    rintro _ ⟨a, ha, rfl⟩ _ ⟨b, hb, rfl⟩
    have hk := List.pairwise_iff_getElem.1 h i j (by simpa using hi) (by simpa using hj) hij
    omega

theorem touchedAt_rises (l : List Byte) : (touchedAt l).Pairwise (· < ·) := by
  unfold touchedAt
  generalize 8192 = n
  exact List.pairwise_lt_range.filter _

theorem Half.wf_ofImage (h : Half) (l : List Byte) : Memory.wf (h.ofImage l).scratch = true := by
  have ht := touchedAt_rises l
  unfold Half.ofImage
  generalize touchedAt l = ts at ht
  exact wf_cellsOf_lines ht fun i b => fieldAt (l.drop 2048) (128 * i + b) 1

theorem CutUnit.Canonical.takeWaves {u : CutUnit} (h : u.Canonical) (l : List Byte) (ws : List (Nat × Wave)) :
    (u.takeWaves l ws).1.Canonical := by
  induction ws generalizing u l with
  | nil => exact h
  | cons e rest ih => exact ih (u := u.takeWave e.1 e.2 l) h _

theorem CutUnit.Canonical.takeXfers {u : CutUnit} (h : u.Canonical) (l : List Byte) (xs : List Transfer) :
    (u.takeXfers l xs).1.Canonical := by
  induction xs generalizing u l with
  | nil => exact h
  | cons x rest ih =>
    unfold CutUnit.takeXfers
    refine ih ?_ _
    exact h

theorem CutUnit.Canonical.takeHalf {u : CutUnit} (h : u.Canonical) (setsz b i : Nat) (x : Block) (y : Half) (l : List Byte) :
    (u.takeHalf setsz b i x y l).Canonical := by
  unfold CutUnit.takeHalf
  extract_lets ws
  have hv := h.takeWaves (l.drop 256) ws
  split
  next v l' e1 =>
  rw [e1] at hv
  have hx := hv.takeXfers (l'.drop (128 * y.savedUnits l')) (v.xfers.filter (fun y => y.block == some b && y.half == i))
  split
  next v2 rest e2 =>
  rw [e2] at hx
  have hs : (v2.saved.update b (fun y => (y.ofImage l).modHalf i (fun h => h.ofImage l'))).All Block.Canonical :=
    hx.1.update _ fun z hz => Block.Canonical.modHalf (b := z.ofImage l) hz _ fun _ _ => Half.wf_ofImage _ _
  split
  · exact ⟨hs, hx.2.set _ (wf_cellsOf_range _ _)⟩
  · exact ⟨hs, hx.2⟩

theorem State.canonical_readBack (s : State) {u : CutUnit} (h : u.Canonical) (setsz : Nat) : (s.readBack u setsz).Canonical := by
  unfold State.readBack
  split
  · exact h
  · next p _ =>
    dsimp only
    generalize List.zip _ u.descs = l
    clear * - h
    induction l generalizing u with
    | nil => exact h
    | cons e rest ih => exact ih (h.takeHalf _ _ _ _ _ _)

/-! ## The control die's firmware slots -/

theorem Control.writeSlot_upbuf (c : Control) (b : Bool) (image : List Byte) :
    (c.writeSlot b image).upbuf = c.upbuf ∧ (c.writeSlot b image).trips = c.trips := by
  cases b <;> exact ⟨rfl, rfl⟩

theorem Control.note_upbuf (c : Control) (b : Bool) (x : SlotState) : (c.note b x).upbuf = c.upbuf ∧ (c.note b x).trips = c.trips := by
  cases b <;> exact ⟨rfl, rfl⟩

theorem Control.failed_upbuf (c : Control) (ran : Option Bool) (minimal : Option Nat) :
    (c.failed ran minimal).upbuf = c.upbuf ∧ (c.failed ran minimal).trips = c.trips := by
  cases minimal with
  | some r => exact ⟨rfl, rfl⟩
  | none =>
    simp only [Control.failed]
    split <;> exact ⟨rfl, rfl⟩

/-! ## Steady states -/

/-- A state at Datum time `N` with the trips `L`, whose memories are in canonical form where `C` holds. With `C` false it
speaks of time and trips alone. -/
def State.Steady (C : Prop) (N : Nat) (L : List (Nat × DieKind)) (s : State) : Prop :=
  s.time = N ∧ s.control.trips = L ∧ (C → s.memoryCanonical)

/-- The state that a word's result carries is steady. -/
def Res.Steady (C : Prop) (N : Nat) (L : List (Nat × DieKind)) : Res → Prop
  | .hold s => s.Steady C N L
  | .next s => s.Steady C N L
  | .jump s => s.Steady C N L
  | _ => True

/-- The next state of an outcome is steady. -/
def OutSteady (C : Prop) (N : Nat) (L : List (Nat × DieKind)) (o : Host.Outcome State Fault Refusal) : Prop :=
  ∀ t, o = .next t → t.Steady C N L

/-- The next state of an outcome has its memories in canonical form. -/
def OutCanonical (o : Host.Outcome State Fault Refusal) : Prop := ∀ t, o = .next t → t.memoryCanonical

section
variable {C : Prop} {N : Nat} {L : List (Nat × DieKind)}

theorem OutSteady.next {s : State} (h : s.Steady C N L) : OutSteady C N L (.next s) := by
  rintro t ht
  exact Host.Outcome.next.inj ht ▸ h

theorem OutCanonical.next {s : State} (h : s.memoryCanonical) : OutCanonical (.next s) := by
  rintro t ht
  exact Host.Outcome.next.inj ht ▸ h

theorem OutSteady.canonical {o : Host.Outcome State Fault Refusal} (h : OutSteady True N L o) : OutCanonical o :=
  fun t e => (h t e).2.2 trivial

theorem State.steady_self {s : State} (h : s.memoryCanonical) : s.Steady True s.time s.control.trips := ⟨rfl, rfl, fun _ => h⟩

theorem State.steady_of_canonical {s t : State} (h : s.Steady C N L) (time : t.time = s.time)
    (trips : t.control.trips = s.control.trips) (hm : C → t.memoryCanonical) : t.Steady C N L :=
  ⟨time.trans h.1, trips.trans h.2.1, hm⟩

/-- A state whose memories are canonical where those of a steady one are; what an update does not touch stays by default. -/
theorem State.steady_mem {s t : State} (h : s.Steady C N L)
    (blocks : s.blocks.All Block.Canonical → t.blocks.All Block.Canonical := by exact id)
    (hbm : Memory.wf s.hbm = true → Memory.wf t.hbm = true := by exact id)
    (host : Memory.wf s.host = true → Memory.wf t.host = true := by exact id)
    (privMem : Memory.wf s.privMem = true → Memory.wf t.privMem = true := by exact id)
    (regions : s.regions.All Region.Canonical → t.regions.All Region.Canonical := by exact id)
    (dregions : s.dregions.All DieRegion.Canonical → t.dregions.All DieRegion.Canonical := by exact id)
    (cuts : CutsCanonical s.cuts → CutsCanonical t.cuts := by exact id)
    (upbuf : Memory.wf s.control.upbuf = true → Memory.wf t.control.upbuf = true := by exact id)
    (time : t.time = s.time := by rfl) (trips : t.control.trips = s.control.trips := by rfl) : t.Steady C N L :=
  State.steady_of_canonical h time trips fun hc =>
    have ⟨a1, a2, a3, a4, a5, a6, a7, a8⟩ := s.memoryCanonical_iff.1 (h.2.2 hc)
    ⟨hbm a1, host a2, privMem a3, upbuf a4, blocks a5, regions a6, dregions a7, cuts a8⟩

/-! The same for one table alone, in the form that unifies with an update written out. -/

theorem State.steady_with {s : State} (h : s.Steady C N L) {control : Control}
    (upbuf : control.upbuf = s.control.upbuf) (trips : control.trips = s.control.trips)
    {free cur inputs outbox hpoison leases landed walks misses answers asker fills icache waves grids cores dies xfers
      fabops buckets parts funcs plats tokens mail platWait rooms fabric nextId} :
    State.Steady C N L {
      time := s.time, free, cur, inputs, outbox, hbm := s.hbm, hpoison, host := s.host, privMem := s.privMem, leases,
      landed, walks, misses, answers, asker, fills, icache, waves, blocks := s.blocks, grids,
      regions := s.regions, dregions := s.dregions, cores, dies, xfers, fabops, buckets, cuts := s.cuts, parts,
      funcs, plats, tokens, mail, platWait, rooms, fabric, control, nextId } :=
  State.steady_mem h (upbuf := fun hu => (congrArg Memory.wf upbuf).trans hu) (trips := trips)

theorem State.steady_blocks {s : State} (h : s.Steady C N L) {blocks : Table Block}
    (hx : s.blocks.All Block.Canonical → blocks.All Block.Canonical)
    {free cur inputs outbox hpoison leases landed walks misses answers asker fills icache waves grids cores dies xfers
      fabops buckets parts funcs plats tokens mail platWait rooms fabric nextId} :
    State.Steady C N L {
      time := s.time, free, cur, inputs, outbox, hbm := s.hbm, hpoison, host := s.host, privMem := s.privMem, leases,
      landed, walks, misses, answers, asker, fills, icache, waves, blocks, grids,
      regions := s.regions, dregions := s.dregions, cores, dies, xfers, fabops, buckets, cuts := s.cuts, parts,
      funcs, plats, tokens, mail, platWait, rooms, fabric, control := s.control, nextId } :=
  State.steady_mem h (blocks := hx)

theorem State.steady_cuts {s : State} (h : s.Steady C N L) {cuts}
    (hx : CutsCanonical s.cuts → CutsCanonical cuts)
    {free cur inputs outbox hpoison leases landed walks misses answers asker fills icache waves grids cores dies xfers
      fabops buckets parts funcs plats tokens mail platWait rooms fabric nextId} :
    State.Steady C N L {
      time := s.time, free, cur, inputs, outbox, hbm := s.hbm, hpoison, host := s.host, privMem := s.privMem, leases,
      landed, walks, misses, answers, asker, fills, icache, waves, blocks := s.blocks, grids,
      regions := s.regions, dregions := s.dregions, cores, dies, xfers, fabops, buckets, cuts, parts,
      funcs, plats, tokens, mail, platWait, rooms, fabric, control := s.control, nextId } :=
  State.steady_mem h (cuts := hx)

theorem State.steady_regions {s : State} (h : s.Steady C N L) {regions : Table Region}
    (hx : s.regions.All Region.Canonical → regions.All Region.Canonical)
    {free cur inputs outbox hpoison leases landed walks misses answers asker fills icache waves grids cores dies xfers
      fabops buckets parts funcs plats tokens mail platWait rooms fabric nextId} :
    State.Steady C N L {
      time := s.time, free, cur, inputs, outbox, hbm := s.hbm, hpoison, host := s.host, privMem := s.privMem, leases,
      landed, walks, misses, answers, asker, fills, icache, waves, blocks := s.blocks, grids,
      regions, dregions := s.dregions, cores, dies, xfers, fabops, buckets, cuts := s.cuts, parts,
      funcs, plats, tokens, mail, platWait, rooms, fabric, control := s.control, nextId } :=
  State.steady_mem h (regions := hx)

theorem State.steady_dregions {s : State} (h : s.Steady C N L) {dregions : Table DieRegion}
    (hx : s.dregions.All DieRegion.Canonical → dregions.All DieRegion.Canonical)
    {free cur inputs outbox hpoison leases landed walks misses answers asker fills icache waves grids cores dies xfers
      fabops buckets parts funcs plats tokens mail platWait rooms fabric nextId} :
    State.Steady C N L {
      time := s.time, free, cur, inputs, outbox, hbm := s.hbm, hpoison, host := s.host, privMem := s.privMem, leases,
      landed, walks, misses, answers, asker, fills, icache, waves, blocks := s.blocks, grids,
      regions := s.regions, dregions, cores, dies, xfers, fabops, buckets, cuts := s.cuts, parts,
      funcs, plats, tokens, mail, platWait, rooms, fabric, control := s.control, nextId } :=
  State.steady_mem h (dregions := hx)

theorem State.steady_fst {α : Type} {p : State × α} {t : State} {y : α} (e : p = (t, y)) (h : p.1.Steady C N L) :
    t.Steady C N L := by
  subst e
  exact h

/-! Loops. -/

theorem State.steady_foldl_mem {α : Type} {l : List α} {f : State → α → State}
    (hf : ∀ s, ∀ x ∈ l, s.Steady C N L → (f s x).Steady C N L) {s : State} (h : s.Steady C N L) : (l.foldl f s).Steady C N L := by
  induction l generalizing s with
  | nil => exact h
  | cons x rest ih => exact ih (fun s y hy => hf s y (List.mem_cons_of_mem _ hy)) (hf s x List.mem_cons_self h)

theorem State.steady_foldl {α : Type} {f : State → α → State} (hf : ∀ s x, s.Steady C N L → (f s x).Steady C N L)
    {s : State} (h : s.Steady C N L) (l : List α) : (l.foldl f s).Steady C N L :=
  State.steady_foldl_mem (fun s x _ => hf s x) h

theorem State.fst_steady_foldl {α β : Type} {f : State × β → α → State × β}
    (hf : ∀ r x, r.1.Steady C N L → (f r x).1.Steady C N L) {r : State × β} (h : r.1.Steady C N L) (l : List α) :
    (l.foldl f r).1.Steady C N L := by
  induction l generalizing r with
  | nil => exact h
  | cons x rest ih => exact ih (hf r x h)

end

end Sys2Proof.Machine

end

