-- ==== Sys2Proof/Proofs/SteadyWaves.lean ====
section
/-! What the functions of waves, accesses and words keep (`State.Steady`): time, trips, and the canonical form of every memory. -/

namespace Sys2Proof.Machine

-- The theorems are many and short: one after another they need the stack of one thread, side by side those of dozens.
set_option Elab.async false

variable {C : Prop} {N : Nat} {L : List (Nat × DieKind)}

/-! ## Waves, blocks and issue -/

theorem State.setWave_steady {s : State} (h : s.Steady C N L) (k : Nat) (w : Wave) :
    (s.setWave k w).Steady C N L := State.steady_mem h

theorem State.modWave_steady {s : State} (h : s.Steady C N L) (k : Nat) (f : Wave → Wave) :
    (s.modWave k f).Steady C N L := State.steady_mem h

theorem State.setBlock_steady {s : State} (h : s.Steady C N L) (k : Nat) {b : Block} (hb : C → b.Canonical) :
    (s.setBlock k b).Steady C N L := by
  refine State.steady_of_canonical h rfl rfl fun hc => ?_
  obtain ⟨a1, a2, a3, a4, a5, a6⟩ := (State.memoryCanonical_iff _).1 (h.2.2 hc)
  exact ⟨a1, a2, a3, a4, a5.set _ (hb hc), a6⟩

theorem State.modBlock_steady {s : State} (h : s.Steady C N L) (k : Nat) {f : Block → Block}
    (hf : ∀ b, b.Canonical → (f b).Canonical := by exact fun _ hb => hb) : (s.modBlock k f).Steady C N L :=
  State.steady_mem h (blocks := fun hb => hb.update k hf)

theorem State.modGrid_steady {s : State} (h : s.Steady C N L) (k : Nat) (f : Grid → Grid) :
    (s.modGrid k f).Steady C N L := State.steady_mem h

theorem State.modPart_steady {s : State} (h : s.Steady C N L) (k : Nat) (f : Partition → Partition) :
    (s.modPart k f).Steady C N L := State.steady_mem h

theorem State.count_steady {s : State} (h : s.Steady C N L) (core : Nat) (quad : Option Nat) (ev n : Nat) :
    (s.count core quad ev n).Steady C N L := State.steady_mem h

theorem State.countUnit_steady {s : State} (h : s.Steady C N L) (l : List Block) (ev : Nat) : (s.countUnit l ev).Steady C N L :=
  State.steady_foldl (fun _ _ hs => State.count_steady hs _ _ _ _) h _

theorem Ctx.retire_steady {s : State} (h : s.Steady C N L) (c : Ctx) (f : Wave → Wave) : (c.retire s f).Steady C N L := by
  unfold Ctx.retire
  exact State.steady_blocks h fun hb => hb.update _

theorem Ctx.wait_steady {s : State} (h : s.Steady C N L) (c : Ctx) : (c.wait s).Steady C N L :=
  State.steady_mem h

theorem Ctx.trapped_steady {s : State} (h : s.Steady C N L) (c : Ctx) (causes : List LaneCause) (norply : Bool) :
    (c.trapped s causes norply).Steady C N L := by
  unfold Ctx.trapped
  split
  · exact Ctx.retire_steady h c _
  · exact State.steady_blocks h fun hb => hb.update _

theorem Ctx.finish_steady {s : State} (h : s.Steady C N L) (c : Ctx) {a : Res} (ha : a.Steady C N L) :
    (c.finish s a).Steady C N L := by
  unfold Ctx.finish
  split
  · exact Ctx.retire_steady h c _
  · exact Ctx.trapped_steady h c _ _
  · exact Ctx.wait_steady h c
  · exact Ctx.wait_steady ha c
  · exact Ctx.retire_steady ha c _
  · exact Ctx.retire_steady ha c _

theorem issue_steady {s : State} (h : s.Steady C N L) {f : Ctx → Res} (hf : ∀ c, (f c).Steady C N L) :
    OutSteady C N L (issue s f) := by
  unfold issue
  split
  · intro t ht
    cases ht
  · exact OutSteady.next (Ctx.finish_steady h _ (hf _))

theorem Ctx.withCauses_steady (c : Ctx) (l : List LaneCause) {a : Res} (h : a.Steady C N L) : (c.withCauses l a).Steady C N L := by
  unfold Ctx.withCauses
  split
  · exact State.modWave_steady h _ _
  · exact State.modWave_steady h _ _
  · exact h

theorem Ctx.awaitCommit_steady {s : State} (h : s.Steady C N L) (c : Ctx) : (c.awaitCommit s).Steady C N L :=
  State.modWave_steady h _ _

theorem Ctx.awaitLine_steady {s : State} (h : s.Steady C N L) (c : Ctx) : (c.awaitLine s).Steady C N L :=
  State.modWave_steady h _ _

theorem Ctx.waitOn_steady {s : State} (h : s.Steady C N L) (c : Ctx) (touches : List Nat → Bool) {t : Res}
    (e : c.waitOn s touches = some t) : t.Steady C N L := by
  unfold Ctx.waitOn at e
  split at e
  · cases e
  · split at e
    · cases e
      exact Ctx.awaitCommit_steady h c
    · split at e
      · cases e
        exact Ctx.awaitLine_steady h c
      · split at e <;> cases e
        trivial

theorem Ctx.interlock_steady {s : State} (h : s.Steady C N L) (c : Ctx) (k : Checks) {t : Res} (e : c.interlock s k = some t) :
    t.Steady C N L := Ctx.waitOn_steady h c _ e

theorem issueChecked_steady {s : State} (h : s.Steady C N L) (k : Ctx → Checks) {f : Ctx → Res} (hf : ∀ c, (f c).Steady C N L) :
    OutSteady C N L (issueChecked s k f) := by
  refine issue_steady h fun c => ?_
  split
  · trivial
  · next e => exact Ctx.interlock_steady h c _ e
  · dsimp only
    split
    · exact hf c
    · split
      · exact State.modWave_steady h _ _
      · exact Ctx.withCauses_steady c _ (hf _)

theorem Ctx.onWave_steady {s : State} (h : s.Steady C N L) (c : Ctx) (w : Wave) : (c.onWave s w).Steady C N L :=
  State.setWave_steady h _ _

theorem illegalWord_steady {s : State} (h : s.Steady C N L) (cause : Cause) :
    OutSteady C N L (illegalWord s cause) := by
  unfold illegalWord
  grind [issue_steady, Res.Steady]

/-! ## Translation and places -/

theorem State.modCore_steady {s : State} (h : s.Steady C N L) (k : Nat) (f : CoreState → CoreState) :
    (s.modCore k f).Steady C N L := State.steady_mem h

theorem State.modDie_steady {s : State} (h : s.Steady C N L) (d : Nat) (f : Die → Die) :
    (s.modDie d f).Steady C N L := State.steady_mem h

theorem State.modFunc_steady {s : State} (h : s.Steady C N L) (f : Nat) (g : Func → Func) :
    (s.modFunc f g).Steady C N L := State.steady_mem h

theorem State.mapWaves_steady {s : State} (h : s.Steady C N L) (sel : Nat → Wave → Bool) (f : Wave → Wave) :
    (s.mapWaves sel f).Steady C N L := State.steady_mem h

theorem State.fireMonitors_steady {s : State} (h : s.Steady C N L) (l : Loc) (n : Nat) :
    (s.fireMonitors l n).Steady C N L := State.steady_mem h

theorem State.wakeGlobal_steady {s : State} (h : s.Steady C N L) (l : Loc) (n : Nat) :
    (s.wakeGlobal l n).Steady C N L := State.steady_mem h

theorem State.markPage_steady {s : State} (h : s.Steady C N L) (place : Nat) (write : Bool) :
    (s.markPage place write).Steady C N L := by
  unfold State.markPage
  extract_lets pte new
  split
  · exact h
  · exact State.wakeGlobal_steady (State.steady_mem h (hbm := Memory.wf_store _ _ _ _)) _ _

theorem State.tlbEnter_steady {s : State} (h : s.Steady C N L) (core : Nat) (u : TlbEntry) :
    (s.tlbEnter core u).Steady C N L := State.steady_mem h

theorem State.useAnswers_steady {s : State} (h : s.Steady C N L) (who : Asker) : (s.useAnswers who).Steady C N L :=
  State.steady_mem h

theorem State.sendMiss_steady {s : State} (h : s.Steady C N L) (c : Client) (f va : Nat) (n : Need) :
    (s.sendMiss c f va n).Steady C N L := by
  unfold State.sendMiss
  grind [State.steady_with]

theorem State.translate_steady {s : State} (h : s.Steady C N L) (f va : Nat) (n : Need) :
    (s.translate f va n).1.Steady C N L := by
  unfold State.translate
  grind [State.sendMiss_steady, State.markPage_steady]

theorem State.asking_canonical {s : State} (h : s.memoryCanonical) (c : Client) {f : State → State}
    (hf : ∀ s : State, s.memoryCanonical → (f s).memoryCanonical) : (s.asking c f).memoryCanonical := by
  unfold State.asking
  split
  · exact h
  · extract_lets t
    have ht : t.Steady True t.time t.control.trips := ⟨rfl, rfl, fun _ => hf _ h⟩
    have hu : (t.useAnswers c.who).Steady True t.time t.control.trips := State.useAnswers_steady ht _
    split
    · exact h
    · exact hu.2.2 trivial

theorem State.writeLoc_steady {s : State} (h : s.Steady C N L) (l : Loc) (n : Nat) (x : Nat) : (s.writeLoc l n x).Steady C N L := by
  unfold State.writeLoc
  split
  · exact h
  · exact State.steady_mem h (hbm := Memory.wf_store _ _ _ _)
  · exact State.modBlock_steady h _ fun b hb => hb.modHalf _ fun y hy => Memory.wf_store _ _ _ _ hy
  · refine State.steady_regions h fun hr => hr.update _ fun r hr => ?_
    exact Memory.wf_store _ _ _ _ hr
  · refine State.steady_dregions h fun hr => hr.update _ fun r hr => ?_
    exact Memory.wf_store _ _ _ _ hr
  · exact State.steady_mem h (privMem := Memory.wf_store _ _ _ _)

theorem State.hbmPut_steady {s : State} (h : s.Steady C N L) (a : Nat) (l : List Byte) : (s.hbmPut a l).Steady C N L :=
  State.steady_mem h (hbm := Memory.wf_setBytes _ _ _)

theorem State.setLine_steady {s : State} (h : s.Steady C N L) (l : Loc) (full : Bool) : (s.setLine l full).Steady C N L := by
  unfold State.setLine
  extract_lets upd
  split
  · exact State.modBlock_steady h _ fun b hb => hb.modHalf _
  · exact State.steady_regions h fun hr => hr.update _
  · exact h

theorem State.funcLoad_steady {s : State} (h : s.Steady C N L) (f va n : Nat) :
    (s.funcLoad f va n).1.Steady C N L := by
  unfold State.funcLoad
  grind [State.translate_steady]

/-! ## Effects that words and events share -/

theorem State.emit_steady {s : State} (h : s.Steady C N L) (x : Signal) : (s.emit x).Steady C N L :=
  State.steady_mem h

theorem State.log_steady {s : State} (h : s.Steady C N L) (u : LogKind) : (s.log u).Steady C N L := by
  unfold State.log
  grind [State.steady_with]

theorem State.postViolation_steady {s : State} (h : s.Steady C N L) (f code kind ident addr : Nat) :
    (s.postViolation f code kind ident addr).Steady C N L := State.steady_mem h

theorem State.freezeWave_steady {s : State} (h : s.Steady C N L) (k : Nat) : (s.freezeWave k).Steady C N L :=
  State.steady_mem h

theorem State.freezeCore_steady {s : State} (h : s.Steady C N L) (k : Nat) : (s.freezeCore k).Steady C N L :=
  State.steady_mem h

theorem State.freezeFunc_steady {s : State} (h : s.Steady C N L) (f : Nat) : (s.freezeFunc f).Steady C N L :=
  State.steady_mem h

theorem State.waveViolation_steady {s : State} (h : s.Steady C N L) (k addr : Nat) :
    (s.waveViolation k addr).Steady C N L := by
  unfold State.waveViolation
  grind [State.postViolation_steady, State.freezeWave_steady]

theorem State.funcViolation_steady {s : State} (h : s.Steady C N L) (f addr : Nat) :
    (s.funcViolation f addr).Steady C N L := State.steady_mem h

theorem State.dropReads_steady {s : State} (h : s.Steady C N L) (core : Nat) : (s.dropReads core).Steady C N L :=
  State.steady_mem h

theorem State.releaseWaiters_steady {s : State} (h : s.Steady C N L) (ws : List (Nat × Wave)) :
    (s.releaseWaiters ws).Steady C N L := by
  refine State.steady_foldl (fun s e hs => ?_) h _
  split
  · exact State.dropReads_steady (State.modWave_steady hs _ _) _
  · exact hs

theorem State.wakeWave_steady {s : State} (h : s.Steady C N L) (k : Nat) : (s.wakeWave k).Steady C N L := by
  unfold State.wakeWave
  grind [State.modWave_steady, State.dropReads_steady]

theorem State.releaseBarwt_steady {s : State} (h : s.Steady C N L) : s.releaseBarwt.Steady C N L :=
  State.releaseWaiters_steady h ..

theorem State.wake_steady {s : State} (h : s.Steady C N L) (l : Loc) (n : Nat) : (s.wake l n).Steady C N L := by
  unfold State.wake
  grind [State.wakeGlobal_steady, State.releaseBarwt_steady, State.fireMonitors_steady]

theorem State.storeAt_steady {s : State} (h : s.Steady C N L) (l : Loc) (n x : Nat) :
    (s.storeAt l n x).Steady C N L := State.wake_steady (State.writeLoc_steady h ..) ..

theorem State.updateBarrier_steady {s : State} (h : s.Steady C N L) (l : Loc) (f : BarObj → BarObj) :
    (s.updateBarrier l f).Steady C N L := State.releaseBarwt_steady (State.writeLoc_steady h ..) ..

theorem State.funcBytes_steady {s : State} (h : s.Steady C N L) (f va : Nat) (l : List Byte) :
    (s.funcBytes f va l).1.Steady C N L := by
  unfold State.funcBytes
  grind [State.translate_steady, State.wake_steady, State.hbmPut_steady]

theorem State.funcRead_steady {s : State} (h : s.Steady C N L) (f va n : Nat) :
    (s.funcRead f va n).1.Steady C N L := by
  unfold State.funcRead
  grind [State.translate_steady]

theorem State.writeFrame_steady {s : State} (h : s.Steady C N L) (k : Nat) (t : TrapDue) :
    (s.writeFrame k t).1.Steady C N L := by
  unfold State.writeFrame
  grind [State.funcBytes_steady, State.modWave_steady, State.waveViolation_steady]

theorem State.lostFrame_steady {s : State} (h : s.Steady C N L) (k : Nat) : (s.lostFrame k).Steady C N L := by
  unfold State.lostFrame
  grind [State.modWave_steady, State.writeFrame_steady]

theorem State.clearPrivate_steady {s : State} (h : s.Steady C N L) (w : Wave) : (s.clearPrivate w).Steady C N L :=
  State.steady_mem h (privMem := Memory.wf_clear _ _ _)

theorem State.freeRegions_steady {s : State} (h : s.Steady C N L) (x : Block) : (s.freeRegions x).Steady C N L :=
  State.steady_regions h fun hr => hr.filter _

theorem State.freeUnit_steady {s : State} (h : s.Steady C N L) (id : Nat) : (s.freeUnit id).Steady C N L := by
  unfold State.freeUnit
  split
  · exact h
  · extract_lets s1 base s2
    have h1 : s1.Steady C N L := State.modPart_steady h _ _
    have h2 : s2.Steady C N L := by
      refine State.steady_foldl (fun s d hs => ?_) h1 _
      split
      · exact State.writeLoc_steady hs _ _ _
      · exact hs
    exact State.steady_cuts h2 fun hc => hc.filter _

theorem State.checkBound_steady {s : State} (h : s.Steady C N L) (u : CutUnit) (l : List Block) :
    (s.checkBound u l).Steady C N L := by
  unfold State.checkBound
  grind [State.countUnit_steady, State.log_steady]

theorem State.leaveCut_steady {s : State} (h : s.Steady C N L) (b : Nat) : (s.leaveCut b).Steady C N L := by
  unfold State.leaveCut
  split
  · exact h
  · next u hu =>
    extract_lets v
    split
    · exact State.steady_cuts h fun hc => hc.mapIf (f := fun _ => v) fun _ _ => (hc.find? hu : u.Canonical)
    · split
      · exact State.freeUnit_steady h _
      · exact State.checkBound_steady (State.steady_cuts h fun hc => hc.filter _) _ _

theorem State.reap_steady {s : State} (h : s.Steady C N L) (b : Nat) : (s.reap b).Steady C N L := by
  unfold State.reap
  split
  · exact h
  · next x _ =>
    extract_lets done s1 s2 s3
    have h1 : s1.Steady C N L := by
      refine State.steady_foldl (fun s k hs => ?_) h _
      split
      · exact State.steady_mem (State.clearPrivate_steady hs _)
      · exact hs
    have h3 : s3.Steady C N L :=
      State.freeRegions_steady (State.steady_blocks (State.leaveCut_steady h1 b) fun hb => hb.erase _) _
    split
    · exact State.steady_mem h3
    · exact h

theorem State.endBlock_steady {s : State} (h : s.Steady C N L) (b : Nat) (how : BlockStatus) : (s.endBlock b how).Steady C N L := by
  unfold State.endBlock
  split
  · exact h
  · next x _ =>
    extract_lets s1 core
    have h1 : s1.Steady C N L := State.freeRegions_steady (State.modBlock_steady h _) _
    split
    · exact State.reap_steady h1 _
    · extract_lets s2 s3 s4
      have h2 : s2.Steady C N L := State.modPart_steady h1 _ _
      have h3 : s3.Steady C N L := by
        unfold s3
        split
        · exact State.modDie_steady h2 _ _
        · exact h2
      exact State.reap_steady (State.modGrid_steady h3 _ _) _

theorem State.settle_steady {s : State} (h : s.Steady C N L) (k : Nat) : (s.settle k).Steady C N L := by
  unfold State.settle
  split
  · exact h
  · next w _ =>
    split
    · exact State.reap_steady h _
    · split
      · extract_lets s1 s2 s3 s4 s5
        have h3 : s3.Steady C N L := State.modPart_steady (State.modWave_steady (State.lostFrame_steady h _) _ _) _ _
        have h4 : s4.Steady C N L := by
          unfold s4
          split
          · exact State.modGrid_steady h3 _ _
          · exact h3
        have h5 : s5.Steady C N L := State.modBlock_steady h4 _
        grind -lia -linarith -ring [State.endBlock_steady]
      · exact h

theorem State.endEasements_steady {s : State} (h : s.Steady C N L) (core owner : Nat) :
    (s.endEasements core owner).Steady C N L := State.steady_mem h

theorem State.stopEngines_steady {s : State} (h : s.Steady C N L) (b : Nat) : (s.stopEngines b).Steady C N L := by
  unfold State.stopEngines
  split
  · exact h
  · next x _ =>
    extract_lets mine s1 fabs s2 s3
    have h1 : s1.Steady C N L := State.steady_foldl (fun _ _ hs => State.endEasements_steady hs _ _) h _
    have h2 : s2.Steady C N L := by
      refine State.steady_foldl (fun _ _ hs => ?_) h1 _
      split
      · exact State.endEasements_steady hs _ _
      · exact hs
    exact State.modBlock_steady (State.steady_mem h2) _ fun b hb => hb.mapHalves

theorem State.stopBlock_steady {s : State} (h : s.Steady C N L) (b : Nat) (at_ : Option Nat) :
    (s.stopBlock b at_).Steady C N L := by
  unfold State.stopBlock
  grind [State.modWave_steady, State.stopEngines_steady, State.settle_steady, State.steady_foldl]

theorem State.dropUnit_steady {s : State} (h : s.Steady C N L) (u : CutUnit) : (s.dropUnit u).Steady C N L := by
  unfold State.dropUnit
  grind [State.steady_with, State.freeUnit_steady, State.modPart_steady, State.clearPrivate_steady,
    State.modGrid_steady, State.steady_foldl]

theorem State.dropSaved_steady {s : State} (h : s.Steady C N L) (g : Nat) : (s.dropSaved g).Steady C N L :=
  State.steady_foldl (fun _ _ hs => State.dropUnit_steady hs ..) h _

theorem State.cutGrid_steady {s : State} (h : s.Steady C N L) (g : Nat) : (s.cutGrid g).Steady C N L := by
  unfold State.cutGrid
  grind [State.steady_with, State.modGrid_steady, State.dropSaved_steady, State.modBlock_steady,
    State.stopBlock_steady, Block.Canonical.of_halves, State.steady_foldl]

theorem State.cutOrigins_steady {s : State} (h : s.Steady C N L) (f : Origin → Bool) :
    (s.cutOrigins f).Steady C N L := State.steady_foldl (fun _ _ hs => State.cutGrid_steady hs ..) h _

theorem State.faultGrid_steady {s : State} (h : s.Steady C N L) (g : Nat) (c : Cause) :
    (s.faultGrid g c).Steady C N L := by
  unfold State.faultGrid
  grind [State.modGrid_steady, State.cutGrid_steady, State.cutOrigins_steady]

theorem State.peerFrame_steady {s : State} (h : s.Steady C N L) (slot k : Nat) (w : Wave) :
    (s.peerFrame slot k w).Steady C N L := by
  unfold State.peerFrame
  grind [State.writeFrame_steady]

theorem State.peerFrames_steady {s : State} (h : s.Steady C N L) (b half : Nat) (x : Block) (peers : List Nat) :
    (s.peerFrames b half x peers).Steady C N L :=
  State.steady_foldl (fun _ _ hs => State.peerFrame_steady hs ..) h _

theorem State.loseRegion_steady {s : State} (h : s.Steady C N L) (x : Block) : (s.loseRegion x).Steady C N L :=
  State.steady_regions h fun hr => hr.mapVals fun _ r hr => by split <;> exact hr

theorem State.fatalBlock_steady {s : State} (h : s.Steady C N L) (b : Nat) (at_ : Option Nat) (c : Cause) :
    (s.fatalBlock b at_ c).Steady C N L := by
  unfold State.fatalBlock
  split
  · exact h
  · next x _ =>
    extract_lets root half peers s1 s2 s3
    have h1 : s1.Steady C N L := by
      refine State.loseRegion_steady (State.modBlock_steady h _ fun b hb => ?_) _
      exact Block.Canonical.of_halves (hb.loseHalf half) rfl
    have h3 : s3.Steady C N L :=
      State.steady_foldl (fun _ _ hs => State.stopBlock_steady (State.modBlock_steady hs _) _ _)
        (State.peerFrames_steady h1 _ _ _ _) _
    grind -lia -linarith -ring [State.stopBlock_steady, State.faultGrid_steady, State.stopEngines_steady, State.reap_steady]

theorem State.fatal_steady {s : State} (h : s.Steady C N L) (k : Nat) (c : Cause) : (s.fatal k c).Steady C N L := by
  unfold State.fatal
  grind [State.fatalBlock_steady]

theorem State.takeTrap_steady {s : State} (h : s.Steady C N L) (k : Nat) (t : TrapDue) :
    (s.takeTrap k t).Steady C N L := by
  unfold State.takeTrap
  grind [State.fatal_steady, State.writeFrame_steady, State.modWave_steady, State.count_steady,
    State.useAnswers_steady]

theorem State.resumeTiles_steady {s : State} (h : s.Steady C N L) (k : Nat) (before : Wave) :
    (s.resumeTiles k before).Steady C N L := by
  unfold State.resumeTiles
  split
  · exact h
  · extract_lets tops lost s1
    have h1 : s1.Steady C N L := State.modBlock_steady h _ fun b hb => hb.modHalf _ fun y hy => by
      rw [Half.scratch_foldl_benchStop]
      exact hy
    exact State.steady_foldl (fun _ _ hs => State.modWave_steady hs _ _) h1 _

theorem State.takeFrame_steady {s : State} (h : s.Steady C N L) (k : Nat) (w : Wave) (t : TrapDue)
    (m : List Byte) (again : Bool) : (s.takeFrame k w t m again).Steady C N L := by
  unfold State.takeFrame
  grind [State.fatal_steady, State.settle_steady, State.resumeTiles_steady, State.modWave_steady]

theorem State.applyTret_steady {s : State} (h : s.Steady C N L) (k : Nat) (again : Bool) : (s.applyTret k again).Steady C N L := by
  unfold State.applyTret
  split
  · exact h
  · next w _ =>
    split
    · exact h
    · have hr := State.funcRead_steady h w.func (s.slotAddress w) 1024
      grind -lia -linarith -ring [State.takeFrame_steady, State.waveViolation_steady, State.fatal_steady]

theorem State.checkTret_steady {s : State} (h : s.Steady C N L) (k : Nat) : (s.checkTret k).Steady C N L := by
  unfold State.checkTret
  grind [State.applyTret_steady]

/-! ## Clauses and code lines -/

theorem State.ifill_steady {s : State} (h : s.Steady C N L) (core quad part line : Nat) :
    (s.ifill core quad part line).Steady C N L := State.steady_mem h

theorem State.ipfFill_steady {s : State} (h : s.Steady C N L) (level core quad part line : Nat) :
    (s.ipfFill level core quad part line).Steady C N L := State.steady_mem h

theorem State.countAhead_steady {s : State} (h : s.Steady C N L) (core quad part line start : Nat) :
    (s.countAhead core quad part line start).Steady C N L := by
  unfold State.countAhead
  grind [State.steady_with, State.count_steady]

theorem State.codeLine_steady {s : State} (h : s.Steady C N L) (w : Wave) (va : Nat) {t : State × Nat}
    (e : s.codeLine w va = some t) : t.1.Steady C N L := by
  unfold State.codeLine at e
  grind [State.markPage_steady, State.tlbEnter_steady]

theorem State.countClause_steady {s : State} (h : s.Steady C N L) (w : Wave) (pc n start : Nat) :
    (s.countClause w pc n start).Steady C N L :=
  State.steady_foldl (fun _ _ hs => State.countAhead_steady hs ..) h _

theorem State.beginClause_steady {s : State} (h : s.Steady C N L) (k slice : Nat) : (s.beginClause k slice).Steady C N L := by
  unfold State.beginClause
  have hw : ∀ f, (s.modWave k f).Steady C N L := State.modWave_steady h k
  have hc : ∀ w a n d f, ((s.countClause w a n d).modWave k f).Steady C N L := fun w a n d f =>
    State.modWave_steady (State.countClause_steady h w a n d) k f
  have hx : ∀ f, ((s.modWave k f).settle k).Steady C N L := fun f => State.settle_steady (hw f) k
  split
  · exact h
  · next w _ =>
    extract_lets g
    split
    · exact h
    · split
      · exact hx _
      · split
        · exact hw _
        · split
          · exact h
          · split
            · exact h
            · grind -lia -linarith -ring

theorem execClauseBegin_steady {s : State} (h : s.Steady C N L) (k slice : Nat) :
    OutSteady C N L (execClauseBegin k slice s) := OutSteady.next (State.beginClause_steady h ..)

theorem execFetchFill_steady {s : State} (h : s.Steady C N L) (k slice : Nat) :
    OutSteady C N L (execFetchFill k slice s) := by
  unfold execFetchFill
  grind [State.modWave_steady, State.useAnswers_steady, State.ifill_steady, State.countAhead_steady,
    State.waveViolation_steady, State.sendMiss_steady, OutSteady.next]

/-! ## Control words -/

theorem Ctx.transfer_steady (c : Ctx) (t : DWord) {r : Res} (h : r.Steady C N L) : (c.transfer t r).Steady C N L := by
  unfold Ctx.transfer
  grind -lia -linarith -ring [Res.Steady]

theorem execNop_steady {s : State} (h : s.Steady C N L) : OutSteady C N L (execNop s) :=
  issueChecked_steady h _ fun _ => h

theorem execMode_steady {s : State} (h : s.Steady C N L) (a b : VCode) : OutSteady C N L (execMode a b s) := by
  unfold execMode
  grind [issueChecked_steady, Ctx.onWave_steady, Res.Steady]

theorem execReservedOpcode_steady {s : State} (h : s.Steady C N L) (_word : Word) :
    OutSteady C N L (execReservedOpcode _word s) := by
  unfold execReservedOpcode
  grind [illegalWord_steady]

theorem execBr_steady {s : State} (h : s.Steady C N L) (a : VCode) : OutSteady C N L (execBr a s) := by
  unfold execBr
  grind [issueChecked_steady, Ctx.transfer_steady, State.setWave_steady, Res.Steady]

theorem execBrx_steady {s : State} (h : s.Steady C N L) (a : VCode) : OutSteady C N L (execBrx a s) := by
  unfold execBrx
  grind [issueChecked_steady, Ctx.transfer_steady, State.setWave_steady, Res.Steady]

theorem execBrs_steady {s : State} (h : s.Steady C N L) (cond : BitVec 2) (a b : VCode) :
    OutSteady C N L (execBrs cond a b s) := by
  unfold execBrs
  grind [issueChecked_steady, Ctx.transfer_steady, State.setWave_steady, Res.Steady]

theorem execCall_steady {s : State} (h : s.Steady C N L) (d a : VCode) : OutSteady C N L (execCall d a s) := by
  unfold execCall
  grind [issueChecked_steady, Ctx.transfer_steady, State.setWave_steady, Res.Steady]

theorem execCalli_steady {s : State} (h : s.Steady C N L) (d a : VCode) : OutSteady C N L (execCalli d a s) := by
  unfold execCalli
  grind [issueChecked_steady, Ctx.transfer_steady, State.setWave_steady, Res.Steady]

theorem execRet_steady {s : State} (h : s.Steady C N L) (a : VCode) : OutSteady C N L (execRet a s) := by
  unfold execRet
  grind [issueChecked_steady, Ctx.transfer_steady, State.setWave_steady, Res.Steady]

theorem execBrv_steady {s : State} (h : s.Steady C N L) (cond : BitVec 4) (a b : VCode) :
    OutSteady C N L (execBrv cond a b s) := by
  unfold execBrv
  grind [issueChecked_steady, State.setWave_steady, Res.Steady]

theorem execJoin_steady {s : State} (h : s.Steady C N L) : OutSteady C N L (execJoin s) :=
  issueChecked_steady h _ fun _ => h

theorem execRegang_steady {s : State} (h : s.Steady C N L) (a : VCode) : OutSteady C N L (execRegang a s) :=
  issueChecked_steady h _ fun _ => h

theorem execRegangRelease_steady {s : State} (h : s.Steady C N L) (k : Nat) :
    OutSteady C N L (execRegangRelease k s) := OutSteady.next (h)

theorem execRejoinDeadlock_steady {s : State} (h : s.Steady C N L) (k : Nat) :
    OutSteady C N L (execRejoinDeadlock k s) := by
  unfold execRejoinDeadlock
  grind [State.fatal_steady, State.modWave_steady, OutSteady.next]

theorem execMeld_steady {s : State} (h : s.Steady C N L) (a b : VCode) : OutSteady C N L (execMeld a b s) := by
  unfold execMeld
  grind [issueChecked_steady, Ctx.onWave_steady, Res.Steady]

theorem execMelde_steady {s : State} (h : s.Steady C N L) : OutSteady C N L (execMelde s) := by
  unfold execMelde
  grind [issueChecked_steady, Ctx.onWave_steady, Res.Steady]

theorem State.endQuantum_steady {s : State} (h : s.Steady C N L) (k : Nat) : (s.endQuantum k).Steady C N L :=
  State.steady_mem h

theorem State.noteArrival_steady {s : State} (h : s.Steady C N L) (k : Nat) (cluster : Bool) (id : Nat) :
    (s.noteArrival k cluster id).Steady C N L := by
  unfold State.noteArrival
  split
  · exact h
  · split
    · exact State.modBlock_steady (State.endQuantum_steady h _) _ fun b hb => hb.mapBarriers _ _
    · exact h

theorem State.noteEnd_steady {s : State} (h : s.Steady C N L) (k : Nat) : (s.noteEnd k).Steady C N L := by
  unfold State.noteEnd
  split
  · exact h
  · next w _ =>
    split
    · extract_lets note
      exact State.steady_foldl (fun _ _ hs => State.modBlock_steady hs _ fun b hb => hb.mapBarriers _ _)
        (State.modBlock_steady h _ fun b hb => hb.mapBarriers _ _) _
    · exact State.steady_foldl (fun _ _ hs => State.noteArrival_steady hs _ _ _)
        (State.steady_foldl (fun _ _ hs => State.noteArrival_steady hs _ _ _) h _) _

theorem execExit_steady {s : State} (h : s.Steady C N L) (a : VCode) : OutSteady C N L (execExit a s) := by
  unfold execExit
  grind [issueChecked_steady, State.modWave_steady, State.settle_steady, State.checkTret_steady, State.noteEnd_steady,
    State.setWave_steady, Res.Steady]

theorem execYield_steady {s : State} (h : s.Steady C N L) : OutSteady C N L (execYield s) :=
  issueChecked_steady h _ fun _ => h

theorem Ctx.stallForCommit_steady {s : State} (h : s.Steady C N L) (c : Ctx) : (c.stallForCommit s).Steady C N L := by
  unfold Ctx.stallForCommit
  grind [State.modWave_steady, Res.Steady]

theorem execWaitf_steady {s : State} (h : s.Steady C N L) (flags : BitVec 12) :
    OutSteady C N L (execWaitf flags s) := by
  unfold execWaitf
  grind [issueChecked_steady, Ctx.stallForCommit_steady, Ctx.awaitLine_steady, Res.Steady]

theorem Ctx.afterQuantum_steady {s : State} (h : s.Steady C N L) (c : Ctx) {r : Res} (hr : r.Steady C N L) :
    (c.afterQuantum s r).Steady C N L := by
  unfold Ctx.afterQuantum
  split
  · exact hr
  · split
    · exact hr
    · exact State.modWave_steady h _ _

theorem execQuant_steady {s : State} (h : s.Steady C N L) : OutSteady C N L (execQuant s) :=
  issueChecked_steady h _ fun _ => h

theorem execDigest_steady {s : State} (h : s.Steady C N L) (a : VCode) (count : BitVec 3) :
    OutSteady C N L (execDigest a count s) := issueChecked_steady h _ fun _ => h

theorem execBarb_steady {s : State} (h : s.Steady C N L) (id : BitVec 4) : OutSteady C N L (execBarb id s) :=
  issueChecked_steady h _ fun _ => State.noteArrival_steady (State.setWave_steady h ..) ..

theorem execBarc_steady {s : State} (h : s.Steady C N L) (id : BitVec 2) : OutSteady C N L (execBarc id s) :=
  issueChecked_steady h _ fun _ => State.noteArrival_steady (State.setWave_steady h ..) ..

theorem State.completeBarrier_steady {s : State} (h : s.Steady C N L) (b : Nat) (cluster : Bool) (id : Nat) :
    (s.completeBarrier b cluster id).Steady C N L := by
  unfold State.completeBarrier
  extract_lets bs s1 s2
  have h2 : s2.Steady C N L := State.steady_foldl
    (fun _ _ hs => State.steady_foldl (fun _ _ hs => State.dropReads_steady hs _) hs _) (State.mapWaves_steady h _ _) _
  exact State.steady_foldl (fun _ _ hs => State.modBlock_steady hs _ fun b hb => hb.mapBarriers _ _) h2 _

theorem execBarrierComplete_steady {s : State} (h : s.Steady C N L) (b : Nat) (cluster : Bool) (id : Nat) :
    OutSteady C N L (execBarrierComplete b cluster id s) := by
  unfold execBarrierComplete
  grind [State.completeBarrier_steady, OutSteady.next]

theorem execMwaitLimitExpiry_steady {s : State} (h : s.Steady C N L) (k slice : Nat) :
    OutSteady C N L (execMwaitLimitExpiry k slice s) := OutSteady.next (h)

theorem execBarwtLimitExpiry_steady {s : State} (h : s.Steady C N L) (k slice : Nat) :
    OutSteady C N L (execBarwtLimitExpiry k slice s) := OutSteady.next (h)

theorem execTrap_steady {s : State} (h : s.Steady C N L) (a : VCode) : OutSteady C N L (execTrap a s) :=
  issueChecked_steady h _ fun _ => trivial

theorem execTret_steady {s : State} (h : s.Steady C N L) : OutSteady C N L (execTret s) := by
  unfold execTret
  grind [issueChecked_steady, State.fatal_steady, State.checkTret_steady, State.setWave_steady, Res.Steady]

theorem execPhint_steady {s : State} (h : s.Steady C N L) (k : BitVec 2) : OutSteady C N L (execPhint k s) :=
  issueChecked_steady h _ fun _ => h

theorem execIdemb_steady {s : State} (h : s.Steady C N L) : OutSteady C N L (execIdemb s) :=
  issueChecked_steady h _ fun _ => h

theorem execIdeme_steady {s : State} (h : s.Steady C N L) : OutSteady C N L (execIdeme s) :=
  issueChecked_steady h _ fun _ => h

theorem execIpf_steady {s : State} (h : s.Steady C N L) (level : BitVec 2) (a : VCode) (count : BitVec 5) :
    OutSteady C N L (execIpf level a count s) := by
  refine issueChecked_steady h _ fun c => State.steady_foldl (fun s i hs => ?_) h _
  split
  · next e =>
    have ht := State.codeLine_steady hs _ _ e
    dsimp only at ht ⊢
    split
    · exact ht
    · exact State.ipfFill_steady ht _ _ _ _ _
  · exact hs

/-! ## Accesses -/

theorem State.awaitWalks_steady {s : State} (h : s.Steady C N L) (w : Wave) (l : List Granted) {t : State}
    (e : s.awaitWalks w l = some t) : t.Steady C N L := by
  unfold State.awaitWalks at e
  grind [State.sendMiss_steady, State.steady_foldl]

theorem State.resolve_steady {s : State} (h : s.Steady C N L) (k : Nat) (w : Wave) (src : WordRef) (g : Granted) :
    (s.resolve k w src g).1.Steady C N L := by
  unfold State.resolve
  grind [State.waveViolation_steady]

theorem State.resolveAll_steady {s : State} (h : s.Steady C N L) (k : Nat) (w : Wave) (src : WordRef) (a : List Granted) :
    (s.resolveAll k w src a).1.Steady C N L := by
  induction a generalizing s with
  | nil => exact h
  | cons g rest ih =>
    unfold State.resolveAll
    have hr := ih (State.resolve_steady h k w src g)
    dsimp only
    split <;> exact hr

theorem State.grantLease_steady {s : State} (h : s.Steady C N L) (line len : Nat) :
    (s.grantLease line len).1.Steady C N L := by
  unfold State.grantLease
  grind [State.steady_with]

theorem State.startFill_steady {s : State} (h : s.Steady C N L) (core line len : Nat) (l1 noL2 noL1 : Bool) :
    (s.startFill core line len l1 noL2 noL1).Steady C N L := by
  unfold State.startFill
  grind [State.steady_with, State.grantLease_steady]

theorem State.patchCopies_steady {s : State} (h : s.Steady C N L) (core : Nat) (l : Loc) (n x : Nat) :
    (s.patchCopies core l n x).Steady C N L := by
  unfold State.patchCopies
  grind [State.steady_with, State.modCore_steady, State.modDie_steady, State.mapWaves_steady]

theorem State.depart_steady {s : State} (h : s.Steady C N L) (k : Nat) : (s.depart k).Steady C N L := by
  unfold State.depart
  grind [State.setWave_steady]

theorem State.land_steady {s : State} (h : s.Steady C N L) (l : Loc) (key : Nat) : (s.land l key).Steady C N L := by
  unfold State.land
  grind [State.steady_with]

theorem State.bufferRead_steady {s : State} (h : s.Steady C N L) (core : Nat) (l : Loc) :
    (s.bufferRead core l).Steady C N L := by
  unfold State.bufferRead
  grind [State.modCore_steady]

theorem State.dropRead_steady {s : State} (h : s.Steady C N L) (core : Nat) (l : Loc) :
    (s.dropRead core l).Steady C N L := by
  unfold State.dropRead
  grind [State.modCore_steady]

theorem State.performUnit_steady {s : State} (h : s.Steady C N L) (core : Nat) (o : MemOp) (u : MemUnit) :
    (s.performUnit core o u).1.Steady C N L := by
  unfold State.performUnit
  grind [State.steady_with, State.startFill_steady, State.bufferRead_steady, State.dropRead_steady,
    State.storeAt_steady, State.updateBarrier_steady, State.setLine_steady]

theorem State.tagWrite_steady {s : State} (h : s.Steady C N L) (w : Wave) (l : Loc) :
    (s.tagWrite w l).Steady C N L := by
  unfold State.tagWrite
  grind [State.modGrid_steady]

/-! ## Tile operations -/

theorem State.modHalf_steady {s : State} (h : s.Steady C N L) (b i : Nat) {f : Half → Half}
    (hf : ∀ y : Half, Memory.wf y.scratch = true → Memory.wf (f y).scratch = true := by exact fun _ hy => hy) :
    (s.modHalf b i f).Steady C N L :=
  State.modBlock_steady h _ fun _ hb => hb.modHalf _ hf

theorem State.dropTop_steady {s : State} (h : s.Steady C N L) (b half : Nat) (o : TileOp) :
    (s.dropTop b half o).Steady C N L := by
  unfold State.dropTop
  grind [State.modHalf_steady, State.settle_steady, State.modWave_steady]

theorem State.stopTop_steady {s : State} (h : s.Steady C N L) (b half : Nat) (o : TileOp) (cause : Cause)
    (addr : Nat) : (s.stopTop b half o cause addr).Steady C N L := by
  unfold State.stopTop
  grind [State.modHalf_steady, State.modWave_steady, State.dropTop_steady]

theorem State.stepTop_steady {s : State} (h : s.Steady C N L) (b i : Nat) (o : TileOp) : (s.stepTop b i o).Steady C N L := by
  unfold State.stepTop
  extract_lets m view lines cells y s1 s2 s3
  have h1 : s1.Steady C N L := State.modHalf_steady h _ _
  have h2 : s2.Steady C N L := by
    unfold s2
    split
    · exact State.modHalf_steady h1 _ _
    · exact h1
  split
  · exact State.modHalf_steady h _ _
  · exact State.stopTop_steady h _ _ _ _ _
  · split
    · exact State.stopTop_steady h _ _ _ _ _
    · exact State.modWave_steady (State.count_steady (State.modBlock_steady h2 _) _ _ _ _) _ _

theorem State.tileStore_steady {s : State} (h : s.Steady C N L) (b half : Nat) (o : TileOp) (addr n x : Nat)
    (fx : BitVec 7) : (s.tileStore b half o addr n x fx).Steady C N L := by
  unfold State.tileStore
  grind [State.modWave_steady, State.dropTop_steady, State.storeAt_steady]

theorem State.applyTop_steady {s : State} (h : s.Steady C N L) (b half : Nat) (o : TileOp) :
    (s.applyTop b half o).Steady C N L := by
  unfold State.applyTop
  grind [State.stopTop_steady, State.dropTop_steady, State.modWave_steady, State.modHalf_steady,
    State.tileStore_steady, Half.scratch_putTile]

theorem State.runTop_steady {s : State} (h : s.Steady C N L) (b i op n : Nat) : (s.runTop b i op n).Steady C N L := by
  induction n generalizing s with
  | zero => exact h
  | succ n ih =>
    unfold State.runTop
    grind -lia -linarith -ring [State.applyTop_steady, State.dropTop_steady, State.stepTop_steady]

/-! ## Accesses that arrive -/

theorem State.retireMem_steady {s : State} (h : s.Steady C N L) (k : Nat) : (s.retireMem k).Steady C N L :=
  State.steady_mem h

theorem State.performUnits_steady {s : State} (h : s.Steady C N L) (k ident : Nat) (l : List Nat) :
    (s.performUnits k ident l).Steady C N L := by
  induction l generalizing s with
  | nil => exact h
  | cons j rest ih =>
    unfold State.performUnits
    grind -lia -linarith -ring [State.modWave_steady, State.performUnit_steady, State.tagWrite_steady]

theorem State.serveTiles_steady {s : State} (h : s.Steady C N L) (l : Loc) : (s.serveTiles l).Steady C N L := by
  unfold State.serveTiles
  grind [State.stepTop_steady, State.steady_foldl]

theorem State.serveWaiters_steady {s : State} (h : s.Steady C N L) (l : Loc) : (s.serveWaiters l).Steady C N L := by
  unfold State.serveWaiters
  grind [State.serveTiles_steady, State.dropRead_steady, State.retireMem_steady, State.performUnits_steady,
    State.steady_foldl]

theorem State.fillLine_steady {s : State} (h : s.Steady C N L) (l : Loc) : (s.fillLine l).Steady C N L :=
  State.serveWaiters_steady (State.setLine_steady h ..) ..

theorem State.sendTokens_steady {s : State} (h : s.Steady C N L) (w : Wave) (o : MemOp) :
    (s.sendTokens w o).Steady C N L := by
  unfold State.sendTokens
  grind [State.steady_with]

theorem State.sendTasks_steady {s : State} (h : s.Steady C N L) (w : Wave) (o : MemOp) :
    (s.sendTasks w o).Steady C N L := by
  unfold State.sendTasks
  grind [State.steady_with, State.modDie_steady]

theorem execHomeArrival_steady {s : State} (h : s.Steady C N L) (k op unit : Nat) :
    OutSteady C N L (execHomeArrival k op unit s) := by
  refine OutSteady.next ?_
  split
  · exact h
  · next w o u _ =>
    split
    · exact h
    · split
      · split
        · exact State.steady_foldl (fun _ _ hs => State.modWave_steady hs _ _) h _
        · exact h
      · extract_lets js s1 s2 s3 s4
        have h1 : s1.Steady C N L := by
          unfold s1
          split
          · exact State.land_steady h _ _
          · exact h
        have h2 : s2.Steady C N L := State.performUnits_steady h1 _ _ _
        have h3 : s3.Steady C N L := by
          unfold s3
          split
          · exact State.serveWaiters_steady h2 _
          · exact h2
        exact State.settle_steady (State.retireMem_steady (State.sendTasks_steady (State.sendTokens_steady h3 _ _) _ _) _) _

theorem State.answered_steady {s : State} (h : s.Steady C N L) (k : Nat) (w : Wave) (o : MemOp) (u : MemUnit) :
    (s.answered k w o u).Steady C N L := by
  unfold State.answered
  grind [State.modWave_steady, State.patchCopies_steady, State.dropReads_steady]

theorem State.deliverLane_steady {s : State} (h : s.Steady C N L) (k op l : Nat) :
    (s.deliverLane k op l).Steady C N L := by
  unfold State.deliverLane
  grind [State.settle_steady, State.modWave_steady, State.answered_steady, State.steady_foldl]

theorem execLoadComplete_steady {s : State} (h : s.Steady C N L) (k op unit : Nat) :
    OutSteady C N L (execLoadComplete k op unit s) := by
  unfold execLoadComplete
  grind [State.settle_steady, State.retireMem_steady, State.modWave_steady, State.modCore_steady,
    State.deliverLane_steady, OutSteady.next]

theorem State.acknowledged_steady {s : State} (h : s.Steady C N L) (k : Nat) (w : Wave) (o : MemOp) (u : MemUnit) :
    (s.acknowledged k w o u).Steady C N L := by
  unfold State.acknowledged
  grind [State.modWave_steady, State.patchCopies_steady]

theorem execStoreAck_steady {s : State} (h : s.Steady C N L) (k op unit : Nat) :
    OutSteady C N L (execStoreAck k op unit s) := by
  unfold execStoreAck
  grind [State.settle_steady, State.modWave_steady, State.acknowledged_steady, OutSteady.next]

theorem execFillArrival_steady {s : State} (h : s.Steady C N L) (fill : Nat) :
    OutSteady C N L (execFillArrival fill s) := by
  unfold execFillArrival
  grind [State.steady_with, State.modDie_steady, State.modCore_steady, OutSteady.next]

theorem execLeaseExpiry_steady {s : State} (h : s.Steady C N L) (l2 : Bool) (owner line : Nat) :
    OutSteady C N L (execLeaseExpiry l2 owner line s) := by
  unfold execLeaseExpiry
  grind [State.modDie_steady, State.modCore_steady, OutSteady.next]

theorem State.walkedWave_steady {s : State} (h : s.Steady C N L) (k : Nat) (p : PageWalk) (walk : Walk) :
    (s.walkedWave k p walk).Steady C N L := by
  unfold State.walkedWave
  grind [State.retireMem_steady, State.setWave_steady, State.waveViolation_steady, State.settle_steady,
    State.depart_steady]

theorem execPageWalkComplete_steady {s : State} (h : s.Steady C N L) (func page : Nat) :
    OutSteady C N L (execPageWalkComplete func page s) := by
  unfold execPageWalkComplete
  grind [State.steady_with, State.markPage_steady, State.tlbEnter_steady, State.walkedWave_steady, State.steady_foldl,
    OutSteady.next]

theorem State.unitTimeout_steady {s : State} (h : s.Steady C N L) (k op i : Nat) :
    (s.unitTimeout k op i).Steady C N L := by
  unfold State.unitTimeout
  grind [State.settle_steady, State.modWave_steady]

theorem Ctx.prepare_steady {s : State} (h : s.Steady C N L) (c : Ctx) (reads : Bool) (asks : List Ask) :
    (c.prepare s reads asks).1.Steady C N L := by
  unfold Ctx.prepare
  grind [State.resolveAll_steady, State.useAnswers_steady]

theorem Ctx.awaitWalks_steady {s : State} (h : s.Steady C N L) (c : Ctx) (asks : List Ask) {t : State}
    (e : c.awaitWalks s asks = some t) : t.Steady C N L := by
  unfold Ctx.awaitWalks at e
  grind [State.awaitWalks_steady]

theorem Ctx.access_steady {s : State} (h : s.Steady C N L) (c : Ctx) (kind : MemKind) (size : Nat)
    (sx returns counted marks : Bool) (asks : List Ask) (mk : Granted → List MemUnit) :
    (c.access s kind size sx returns counted marks asks mk).Steady C N L := by
  unfold Ctx.access
  grind [Ctx.awaitWalks_steady, Ctx.prepare_steady, State.depart_steady, State.modWave_steady,
    State.performUnit_steady, State.steady_foldl, Res.Steady]

/-! ## Vector words -/

theorem Ctx.writeElems_steady {s : State} (h : s.Steady C N L) (c : Ctx) (t : Ty) (d : VCode)
    (f : Nat → Nat → Nat × BitVec 7) : (c.writeElems s t d f).Steady C N L := Ctx.onWave_steady h ..

theorem vecArith_steady {s : State} (h : s.Steady C N L) (op : ArithOp) (d a : VCode) (b : Option VCode) :
    OutSteady C N L (vecArith op d a b s) := issueChecked_steady h _ fun _ => h

theorem vecSpecial_steady {s : State} (h : s.Steady C N L) (fn : SpecialFn) (d a b : VCode) :
    OutSteady C N L (vecSpecial fn d a b s) := issueChecked_steady h _ fun _ => h

theorem Ctx.writeBools_steady {s : State} (h : s.Steady C N L) (c : Ctx) (t : Ty) (d : VCode)
    (f : Nat → Nat → Bool × BitVec 7) : (c.writeBools s t d f).Steady C N L := by
  unfold Ctx.writeBools
  grind [Ctx.onWave_steady]

theorem vecCompare_steady {s : State} (h : s.Steady C N L) (op : CmpOp) (d a b : VCode) :
    OutSteady C N L (vecCompare op d a b s) := issueChecked_steady h _ fun _ => Ctx.writeBools_steady h ..

theorem vecUnary_steady {s : State} (h : s.Steady C N L) (f : Ty → Round → Nat → Nat × BitVec 7) (d a : VCode) :
    OutSteady C N L (vecUnary f d a s) := issueChecked_steady h _ fun _ => h

theorem execAdd_steady {s : State} (h : s.Steady C N L) (d a b : VCode) : OutSteady C N L (execAdd d a b s) := by
  unfold execAdd
  grind [vecArith_steady]

theorem execSub_steady {s : State} (h : s.Steady C N L) (d a b : VCode) : OutSteady C N L (execSub d a b s) := by
  unfold execSub
  grind [vecArith_steady]

theorem execMul_steady {s : State} (h : s.Steady C N L) (d a b : VCode) : OutSteady C N L (execMul d a b s) := by
  unfold execMul
  grind [vecArith_steady]

theorem execFma_steady {s : State} (h : s.Steady C N L) (d a b : VCode) : OutSteady C N L (execFma d a b s) := by
  unfold execFma
  grind [vecArith_steady]

theorem execFms_steady {s : State} (h : s.Steady C N L) (d a b : VCode) : OutSteady C N L (execFms d a b s) := by
  unfold execFms
  grind [vecArith_steady]

theorem execFnma_steady {s : State} (h : s.Steady C N L) (d a b : VCode) : OutSteady C N L (execFnma d a b s) := by
  unfold execFnma
  grind [vecArith_steady]

theorem execMin_steady {s : State} (h : s.Steady C N L) (d a b : VCode) : OutSteady C N L (execMin d a b s) := by
  unfold execMin
  grind [vecArith_steady]

theorem execMax_steady {s : State} (h : s.Steady C N L) (d a b : VCode) : OutSteady C N L (execMax d a b s) := by
  unfold execMax
  grind [vecArith_steady]

theorem execAbs_steady {s : State} (h : s.Steady C N L) (d a : VCode) : OutSteady C N L (execAbs d a s) := by
  unfold execAbs
  grind [vecArith_steady]

theorem execNeg_steady {s : State} (h : s.Steady C N L) (d a : VCode) : OutSteady C N L (execNeg d a s) := by
  unfold execNeg
  grind [vecArith_steady]

theorem execRcp_steady {s : State} (h : s.Steady C N L) (d a : VCode) : OutSteady C N L (execRcp d a s) := by
  unfold execRcp
  grind [vecSpecial_steady]

theorem execRsq_steady {s : State} (h : s.Steady C N L) (d a : VCode) : OutSteady C N L (execRsq d a s) := by
  unfold execRsq
  grind [vecSpecial_steady]

theorem execSqrt_steady {s : State} (h : s.Steady C N L) (d a : VCode) : OutSteady C N L (execSqrt d a s) := by
  unfold execSqrt
  grind [vecSpecial_steady]

theorem execExp2_steady {s : State} (h : s.Steady C N L) (d a : VCode) : OutSteady C N L (execExp2 d a s) := by
  unfold execExp2
  grind [vecSpecial_steady]

theorem execLog2_steady {s : State} (h : s.Steady C N L) (d a : VCode) : OutSteady C N L (execLog2 d a s) := by
  unfold execLog2
  grind [vecSpecial_steady]

theorem execTanh_steady {s : State} (h : s.Steady C N L) (d a : VCode) : OutSteady C N L (execTanh d a s) := by
  unfold execTanh
  grind [vecSpecial_steady]

theorem execCmpeq_steady {s : State} (h : s.Steady C N L) (d a b : VCode) : OutSteady C N L (execCmpeq d a b s) := by
  unfold execCmpeq
  grind [vecCompare_steady]

theorem execCmpne_steady {s : State} (h : s.Steady C N L) (d a b : VCode) : OutSteady C N L (execCmpne d a b s) := by
  unfold execCmpne
  grind [vecCompare_steady]

theorem execCmplt_steady {s : State} (h : s.Steady C N L) (d a b : VCode) : OutSteady C N L (execCmplt d a b s) := by
  unfold execCmplt
  grind [vecCompare_steady]

theorem execCmple_steady {s : State} (h : s.Steady C N L) (d a b : VCode) : OutSteady C N L (execCmple d a b s) := by
  unfold execCmple
  grind [vecCompare_steady]

theorem execCmpun_steady {s : State} (h : s.Steady C N L) (d a b : VCode) : OutSteady C N L (execCmpun d a b s) := by
  unfold execCmpun
  grind [vecCompare_steady]

theorem execClassify_steady {s : State} (h : s.Steady C N L) (d a b : VCode) :
    OutSteady C N L (execClassify d a b s) := issueChecked_steady h _ fun _ => Ctx.writeBools_steady h ..

theorem execSel_steady {s : State} (h : s.Steady C N L) (d a b : VCode) : OutSteady C N L (execSel d a b s) :=
  issueChecked_steady h _ fun _ => h

theorem execMov_steady {s : State} (h : s.Steady C N L) (d a : VCode) : OutSteady C N L (execMov d a s) :=
  issueChecked_steady h _ fun _ => h

theorem execCvt_steady {s : State} (h : s.Steady C N L) (d a : VCode) (part : BitVec 3) :
    OutSteady C N L (execCvt d a part s) := issueChecked_steady h _ fun _ => h

theorem execScale_steady {s : State} (h : s.Steady C N L) (d a b : VCode) : OutSteady C N L (execScale d a b s) :=
  issueChecked_steady h _ fun _ => h

theorem execRint_steady {s : State} (h : s.Steady C N L) (d a : VCode) : OutSteady C N L (execRint d a s) := by
  unfold execRint
  grind [vecUnary_steady]

theorem execFrxp_steady {s : State} (h : s.Steady C N L) (d a : VCode) (part : BitVec 1) :
    OutSteady C N L (execFrxp d a part s) := by
  unfold execFrxp
  grind [issueChecked_steady, Ctx.writeElems_steady]

theorem execDiv_steady {s : State} (h : s.Steady C N L) (d a b : VCode) : OutSteady C N L (execDiv d a b s) := by
  unfold execDiv
  grind [vecSpecial_steady]

theorem execEnct_steady {s : State} (h : s.Steady C N L) (d a b : VCode) : OutSteady C N L (execEnct d a b s) :=
  issueChecked_steady h _ fun _ => h

theorem execDect_steady {s : State} (h : s.Steady C N L) (d a : VCode) (byte : BitVec 2) :
    OutSteady C N L (execDect d a byte s) := issueChecked_steady h _ fun _ => h

theorem execFxr_steady {s : State} (h : s.Steady C N L) (d a : VCode) : OutSteady C N L (execFxr d a s) := by
  unfold execFxr
  grind [issueChecked_steady, Ctx.onWave_steady, Res.Steady]

/-! ## Memory words -/

theorem Ctx.load_steady {s : State} (h : s.Steady C N L) (c : Ctx) (strong acquire : Bool) (d n : Nat)
    (sx : Bool) (windows : List Nat) (addr : Nat → Nat) :
    (c.load s strong acquire d n sx windows addr).Steady C N L := Ctx.access_steady h ..

theorem Ctx.store_steady {s : State} (h : s.Steady C N L) (c : Ctx) (strong release marks : Bool) (n : Nat)
    (windows : List Nat) (addr data : Nat → Nat) :
    (c.store s strong release marks n windows addr data).Steady C N L := Ctx.access_steady h ..

theorem memLoad_steady {s : State} (h : s.Steady C N L) (strong acquire : Bool) (top : Nat) (meld : Checks)
    (d a : VCode) (sx : Bool) (w : BitVec 3) : OutSteady C N L (memLoad strong acquire top meld d a sx w s) :=
  issueChecked_steady h _ fun _ => Ctx.load_steady h ..

theorem memStore_steady {s : State} (h : s.Steady C N L) (strong release marks : Bool) (top : Nat)
    (meld : Checks) (d a : VCode) (w : BitVec 3) :
    OutSteady C N L (memStore strong release marks top meld d a w s) :=
  issueChecked_steady h _ fun _ => Ctx.store_steady h ..

theorem offLoad_steady {s : State} (h : s.Steady C N L) (window : Nat) (strong : Bool) (meld : Checks)
    (d a : VCode) (sx : Bool) (w : BitVec 3) : OutSteady C N L (offLoad window strong meld d a sx w s) :=
  issueChecked_steady h _ fun _ => Ctx.load_steady h ..

theorem offStore_steady {s : State} (h : s.Steady C N L) (window : Nat) (strong : Bool) (meld : Checks)
    (d a : VCode) (w : BitVec 3) : OutSteady C N L (offStore window strong meld d a w s) :=
  issueChecked_steady h _ fun _ => Ctx.store_steady h ..

theorem execLd_steady {s : State} (h : s.Steady C N L) (d a : VCode) (sx : Bool) (w : BitVec 3) :
    OutSteady C N L (execLd d a sx w s) := by
  unfold execLd
  grind [memLoad_steady]

theorem execLda_steady {s : State} (h : s.Steady C N L) (d a : VCode) (sx : Bool) (w : BitVec 3) :
    OutSteady C N L (execLda d a sx w s) := by
  unfold execLda
  grind [memLoad_steady]

theorem execLdx_steady {s : State} (h : s.Steady C N L) (d a : VCode) (sx : Bool) (w : BitVec 3) :
    OutSteady C N L (execLdx d a sx w s) := by
  unfold execLdx
  grind [memLoad_steady]

theorem execSt_steady {s : State} (h : s.Steady C N L) (d a : VCode) (w : BitVec 3) :
    OutSteady C N L (execSt d a w s) := by
  unfold execSt
  grind [memStore_steady]

theorem execStl_steady {s : State} (h : s.Steady C N L) (d a : VCode) (w : BitVec 3) :
    OutSteady C N L (execStl d a w s) := by
  unfold execStl
  grind [memStore_steady]

theorem execStx_steady {s : State} (h : s.Steady C N L) (d a : VCode) (w : BitVec 3) :
    OutSteady C N L (execStx d a w s) := by
  unfold execStx
  grind [memStore_steady]

theorem execSti_steady {s : State} (h : s.Steady C N L) (d a : VCode) (w : BitVec 3) :
    OutSteady C N L (execSti d a w s) := by
  unfold execSti
  grind [memStore_steady]

theorem execLdsp_steady {s : State} (h : s.Steady C N L) (d a : VCode) (sx : Bool) (w : BitVec 3) :
    OutSteady C N L (execLdsp d a sx w s) := by
  unfold execLdsp
  grind [offLoad_steady]

theorem execStsp_steady {s : State} (h : s.Steady C N L) (d a : VCode) (w : BitVec 3) :
    OutSteady C N L (execStsp d a w s) := by
  unfold execStsp
  grind [offStore_steady]

theorem execLdcl_steady {s : State} (h : s.Steady C N L) (d a : VCode) (sx strong : Bool) (w : BitVec 3) :
    OutSteady C N L (execLdcl d a sx strong w s) := by
  unfold execLdcl
  grind [offLoad_steady]

theorem execStcl_steady {s : State} (h : s.Steady C N L) (d a : VCode) (strong : Bool) (w : BitVec 3) :
    OutSteady C N L (execStcl d a strong w s) := by
  unfold execStcl
  grind [offStore_steady]

theorem execLdds_steady {s : State} (h : s.Steady C N L) (d a : VCode) (sx : Bool) (w : BitVec 3) :
    OutSteady C N L (execLdds d a sx w s) := by
  unfold execLdds
  grind [offLoad_steady]

theorem execStds_steady {s : State} (h : s.Steady C N L) (d a : VCode) (w : BitVec 3) :
    OutSteady C N L (execStds d a w s) := by
  unfold execStds
  grind [offStore_steady]

theorem execGath_steady {s : State} (h : s.Steady C N L) (d a b : VCode) : OutSteady C N L (execGath d a b s) :=
  issueChecked_steady h _ fun _ => Ctx.load_steady h ..

theorem execScat_steady {s : State} (h : s.Steady C N L) (d a b : VCode) : OutSteady C N L (execScat d a b s) :=
  issueChecked_steady h _ fun _ => Ctx.store_steady h ..

theorem execPfd_steady {s : State} (h : s.Steady C N L) (level : BitVec 1) (a : VCode) :
    OutSteady C N L (execPfd level a s) := by
  unfold execPfd
  grind [issueChecked_steady, State.depart_steady, State.setWave_steady, Res.Steady]

theorem atomic_steady {s : State} (h : s.Steady C N L) (op : AtomicOp) (windows : List Nat) (d a b : VCode) :
    OutSteady C N L (atomic op windows d a b s) := issueChecked_steady h _ fun _ => Ctx.access_steady h ..

theorem execAadd_steady {s : State} (h : s.Steady C N L) (d a b : VCode) : OutSteady C N L (execAadd d a b s) := by
  unfold execAadd
  grind [atomic_steady]

theorem execAmin_steady {s : State} (h : s.Steady C N L) (d a b : VCode) : OutSteady C N L (execAmin d a b s) := by
  unfold execAmin
  grind [atomic_steady]

theorem execAmax_steady {s : State} (h : s.Steady C N L) (d a b : VCode) : OutSteady C N L (execAmax d a b s) := by
  unfold execAmax
  grind [atomic_steady]

theorem execAand_steady {s : State} (h : s.Steady C N L) (d a b : VCode) : OutSteady C N L (execAand d a b s) := by
  unfold execAand
  grind [atomic_steady]

theorem execAor_steady {s : State} (h : s.Steady C N L) (d a b : VCode) : OutSteady C N L (execAor d a b s) := by
  unfold execAor
  grind [atomic_steady]

theorem execAxor_steady {s : State} (h : s.Steady C N L) (d a b : VCode) : OutSteady C N L (execAxor d a b s) := by
  unfold execAxor
  grind [atomic_steady]

theorem execAxchg_steady {s : State} (h : s.Steady C N L) (d a b : VCode) : OutSteady C N L (execAxchg d a b s) := by
  unfold execAxchg
  grind [atomic_steady]

theorem execAcas_steady {s : State} (h : s.Steady C N L) (d a b : VCode) : OutSteady C N L (execAcas d a b s) := by
  unfold execAcas
  grind [atomic_steady]

theorem execAinc_steady {s : State} (h : s.Steady C N L) (d a b : VCode) : OutSteady C N L (execAinc d a b s) := by
  unfold execAinc
  grind [atomic_steady]

theorem execAdec_steady {s : State} (h : s.Steady C N L) (d a b : VCode) : OutSteady C N L (execAdec d a b s) := by
  unfold execAdec
  grind [atomic_steady]

theorem execAfadd_steady {s : State} (h : s.Steady C N L) (d a b : VCode) : OutSteady C N L (execAfadd d a b s) := by
  unfold execAfadd
  grind [atomic_steady]

theorem execAaddn_steady {s : State} (h : s.Steady C N L) (d a b : VCode) : OutSteady C N L (execAaddn d a b s) := by
  unfold execAaddn
  grind [atomic_steady]

theorem execSpaadd_steady {s : State} (h : s.Steady C N L) (d a b : VCode) :
    OutSteady C N L (execSpaadd d a b s) := by
  unfold execSpaadd
  grind [atomic_steady]

theorem execSpacas_steady {s : State} (h : s.Steady C N L) (d a b : VCode) :
    OutSteady C N L (execSpacas d a b s) := by
  unfold execSpacas
  grind [atomic_steady]

theorem execFence_steady {s : State} (h : s.Steady C N L) : OutSteady C N L (execFence s) := by
  unfold execFence
  grind [issueChecked_steady, Ctx.afterQuantum_steady, Ctx.onWave_steady, State.dropReads_steady,
    State.modWave_steady, Res.Steady]

theorem execFencel_steady {s : State} (h : s.Steady C N L) (scope : BitVec 3) :
    OutSteady C N L (execFencel scope s) := by
  unfold execFencel
  grind [issueChecked_steady, Ctx.afterQuantum_steady, State.dropReads_steady, Ctx.stallForCommit_steady, Res.Steady]

theorem execInvl1_steady {s : State} (h : s.Steady C N L) : OutSteady C N L (execInvl1 s) :=
  issueChecked_steady h _ fun _ => h

theorem execLease_steady {s : State} (h : s.Steady C N L) (a : VCode) : OutSteady C N L (execLease a s) := by
  unfold execLease
  grind [issueChecked_steady, Ctx.onWave_steady, Res.Steady]

theorem Ctx.barrierPost_steady {s : State} (h : s.Steady C N L) (c : Ctx) (kind : MemKind) (a : VCode) (x : Nat) :
    (c.barrierPost s kind a x).Steady C N L := by
  unfold Ctx.barrierPost
  grind [Ctx.onWave_steady, State.depart_steady, State.setWave_steady, State.modWave_steady, Res.Steady]

theorem execBarinit_steady {s : State} (h : s.Steady C N L) (a b : VCode) : OutSteady C N L (execBarinit a b s) := by
  unfold execBarinit
  grind [issueChecked_steady, Ctx.barrierPost_steady, Res.Steady]

theorem execBarexp_steady {s : State} (h : s.Steady C N L) (a b : VCode) : OutSteady C N L (execBarexp a b s) :=
  issueChecked_steady h _ fun _ => Ctx.barrierPost_steady h ..

theorem execBararr_steady {s : State} (h : s.Steady C N L) (a b : VCode) : OutSteady C N L (execBararr a b s) :=
  issueChecked_steady h _ fun _ => Ctx.barrierPost_steady h ..

theorem Ctx.readAt_steady {s : State} (h : s.Steady C N L) (c : Ctx) (fe : Bool) (units : List MemUnit) {r : Res}
    (e : c.readAt s fe units = .error r) : r.Steady C N L := by
  unfold Ctx.readAt at e
  extract_lets o hit read others w at e
  split at e
  · cases e
  · split at e
    · cases e
    · split at e
      · split at e
        · cases e
        · cases e
          trivial
      · split at e
        · cases e
          exact State.depart_steady (State.setWave_steady h _ _) _
        · cases e
          trivial

theorem Ctx.phaseAt_steady {s : State} (h : s.Steady C N L) (c : Ctx) (a : VCode) (loc : Loc) {r : Res}
    (e : c.phaseAt s a loc = .error r) : r.Steady C N L := by
  unfold Ctx.phaseAt at e
  split at e
  · cases e
    exact Ctx.stallForCommit_steady h c
  · split at e
    · next e1 =>
      cases e
      exact Ctx.readAt_steady h c _ _ e1
    · cases e

theorem execBartry_steady {s : State} (h : s.Steady C N L) (d a b : VCode) : OutSteady C N L (execBartry d a b s) := by
  refine issueChecked_steady h _ fun c => Ctx.afterQuantum_steady h c ?_
  split
  · exact Ctx.onWave_steady h c _
  · split
    · next e => exact Ctx.phaseAt_steady h c _ _ e
    · next c' ph e =>
      refine Ctx.onWave_steady ?_ c' _
      split
      · exact State.dropReads_steady h _
      · exact h

theorem execBarwt_steady {s : State} (h : s.Steady C N L) (phase : BitVec 1) (a b : VCode) :
    OutSteady C N L (execBarwt phase a b s) := by
  refine issueChecked_steady h _ fun c => Ctx.afterQuantum_steady h c ?_
  split
  · exact Ctx.onWave_steady h c _
  · extract_lets limit
    split
    · next e => exact Ctx.phaseAt_steady h c _ _ e
    · next c' ph e =>
      split
      · exact Ctx.onWave_steady (State.dropReads_steady h _) c' _
      · exact State.releaseBarwt_steady (State.setWave_steady (State.dropReads_steady h _) _ _)

theorem fullEmpty_steady {s : State} (h : s.Steady C N L) (full : Bool) (a : VCode) :
    OutSteady C N L (fullEmpty full a s) := issueChecked_steady h _ fun _ => Ctx.access_steady h ..

theorem execFeempty_steady {s : State} (h : s.Steady C N L) (a : VCode) : OutSteady C N L (execFeempty a s) := by
  unfold execFeempty
  grind [fullEmpty_steady]

theorem execFefull_steady {s : State} (h : s.Steady C N L) (a : VCode) : OutSteady C N L (execFefull a s) := by
  unfold execFefull
  grind [fullEmpty_steady]

theorem execFetest_steady {s : State} (h : s.Steady C N L) (d a : VCode) : OutSteady C N L (execFetest d a s) := by
  refine issueChecked_steady h _ fun c => ?_
  split
  next ok bad _ =>
  split
  · trivial
  · split
    · split
      · exact Ctx.awaitLine_steady h c
      · trivial
    · split
      · next e => exact Ctx.readAt_steady h c _ _ e
      · next c' hit e =>
        refine Ctx.onWave_steady ?_ c' _
        split
        · exact h
        · exact State.dropReads_steady h _

theorem execMon_steady {s : State} (h : s.Steady C N L) (a : VCode) : OutSteady C N L (execMon a s) := by
  refine issueChecked_steady h _ fun c => ?_
  extract_lets ask fail
  have hf : ∀ (s : State) (x : LaneCause), s.Steady C N L → (fail s x).Steady C N L := fun _ _ hs => State.modWave_steady hs _ _
  split
  · trivial
  · split
    · exact hf _ _ h
    · next g _ =>
      split
      · next e => exact State.awaitWalks_steady h _ _ e
      · have hu := State.useAnswers_steady (State.resolve_steady h c.key c.w c.src g) c.w.asker.who
        split
        · exact hf _ _ hu
        · exact State.modWave_steady hu _ _

theorem execMonRegistration_steady {s : State} (h : s.Steady C N L) (k : Nat) :
    OutSteady C N L (execMonRegistration k s) := by
  unfold execMonRegistration
  grind [State.modWave_steady, State.land_steady, OutSteady.next]

theorem execMwait_steady {s : State} (h : s.Steady C N L) (a : VCode) : OutSteady C N L (execMwait a s) := by
  unfold execMwait
  grind [issueChecked_steady, Ctx.afterQuantum_steady, Ctx.onWave_steady, State.setWave_steady, Res.Steady]

theorem Ctx.postOp_steady {s : State} (h : s.Steady C N L) (c : Ctx) (o : MemOp) : (c.postOp s o).Steady C N L :=
  State.depart_steady (State.steady_mem h) ..

theorem execGfire_steady {s : State} (h : s.Steady C N L) (a b : VCode) : OutSteady C N L (execGfire a b s) := by
  unfold execGfire
  grind [issueChecked_steady, Ctx.onWave_steady, Ctx.postOp_steady, Res.Steady]

theorem execSpawn_steady {s : State} (h : s.Steady C N L) (a b : VCode) : OutSteady C N L (execSpawn a b s) := by
  unfold execSpawn
  grind [issueChecked_steady, Ctx.onWave_steady, State.modWave_steady, Ctx.postOp_steady, Res.Steady]

/-! ## Integer, lane and predicate words -/

theorem vecLogic_steady {s : State} (h : s.Steady C N L) (op : BitOp) (d a : VCode) (b : Option VCode) :
    OutSteady C N L (vecLogic op d a b s) := issueChecked_steady h _ fun _ => h

theorem vecBit_steady {s : State} (h : s.Steady C N L) (op : BitOp) (d a : VCode) (b : Option VCode) :
    OutSteady C N L (vecBit op d a b s) := issueChecked_steady h _ fun _ => h

theorem vecCarry_steady {s : State} (h : s.Steady C N L) (subtract : Bool) (d a b : VCode) :
    OutSteady C N L (vecCarry subtract d a b s) := issueChecked_steady h _ fun _ => h

theorem vecRaw2_steady {s : State} (h : s.Steady C N L) (readsD : Bool) (f : Nat → Nat → Nat → Nat) (d a b : VCode) :
    OutSteady C N L (vecRaw2 readsD f d a b s) := issueChecked_steady h _ fun _ => h

theorem vecDot_steady {s : State} (h : s.Steady C N L) (types : List Ty) (d a b : VCode) :
    OutSteady C N L (vecDot types d a b s) := issueChecked_steady h _ fun _ => h

theorem vecShuffle_steady {s : State} (h : s.Steady C N L) (b : VCode) (bOk : VCode → Bool)
    (lane : Ctx → Nat → Nat) (d a : VCode) : OutSteady C N L (vecShuffle b bOk lane d a s) :=
  issueChecked_steady h _ fun _ => h

theorem execAddc_steady {s : State} (h : s.Steady C N L) (d a b : VCode) : OutSteady C N L (execAddc d a b s) := by
  unfold execAddc
  grind [vecCarry_steady]

theorem execSubb_steady {s : State} (h : s.Steady C N L) (d a b : VCode) : OutSteady C N L (execSubb d a b s) := by
  unfold execSubb
  grind [vecCarry_steady]

theorem execMulhi_steady {s : State} (h : s.Steady C N L) (d a b : VCode) : OutSteady C N L (execMulhi d a b s) :=
  issueChecked_steady h _ fun _ => h

theorem execMulw_steady {s : State} (h : s.Steady C N L) (d a b : VCode) : OutSteady C N L (execMulw d a b s) :=
  issueChecked_steady h _ fun _ => h

theorem execAnd_steady {s : State} (h : s.Steady C N L) (d a b : VCode) : OutSteady C N L (execAnd d a b s) := by
  unfold execAnd
  grind [vecLogic_steady]

theorem execOr_steady {s : State} (h : s.Steady C N L) (d a b : VCode) : OutSteady C N L (execOr d a b s) := by
  unfold execOr
  grind [vecLogic_steady]

theorem execXor_steady {s : State} (h : s.Steady C N L) (d a b : VCode) : OutSteady C N L (execXor d a b s) := by
  unfold execXor
  grind [vecLogic_steady]

theorem execNot_steady {s : State} (h : s.Steady C N L) (d a : VCode) : OutSteady C N L (execNot d a s) := by
  unfold execNot
  grind [vecLogic_steady]

theorem execShl_steady {s : State} (h : s.Steady C N L) (d a b : VCode) : OutSteady C N L (execShl d a b s) := by
  unfold execShl
  grind [vecBit_steady]

theorem execShr_steady {s : State} (h : s.Steady C N L) (d a b : VCode) : OutSteady C N L (execShr d a b s) := by
  unfold execShr
  grind [vecBit_steady]

theorem execSha_steady {s : State} (h : s.Steady C N L) (d a b : VCode) : OutSteady C N L (execSha d a b s) := by
  unfold execSha
  grind [vecBit_steady]

theorem execRot_steady {s : State} (h : s.Steady C N L) (d a b : VCode) : OutSteady C N L (execRot d a b s) := by
  unfold execRot
  grind [vecBit_steady]

theorem execClz_steady {s : State} (h : s.Steady C N L) (d a : VCode) : OutSteady C N L (execClz d a s) := by
  unfold execClz
  grind [vecBit_steady]

theorem execPopc_steady {s : State} (h : s.Steady C N L) (d a : VCode) : OutSteady C N L (execPopc d a s) := by
  unfold execPopc
  grind [vecBit_steady]

theorem execBrev_steady {s : State} (h : s.Steady C N L) (d a : VCode) : OutSteady C N L (execBrev d a s) := by
  unfold execBrev
  grind [vecBit_steady]

theorem execBfe_steady {s : State} (h : s.Steady C N L) (d a b : VCode) : OutSteady C N L (execBfe d a b s) := by
  unfold execBfe
  grind [vecRaw2_steady]

theorem execBfi_steady {s : State} (h : s.Steady C N L) (d a b : VCode) : OutSteady C N L (execBfi d a b s) := by
  unfold execBfi
  grind [vecRaw2_steady]

theorem execClmul_steady {s : State} (h : s.Steady C N L) (d a b : VCode) : OutSteady C N L (execClmul d a b s) := by
  unfold execClmul
  grind [vecRaw2_steady]

theorem execClmulh_steady {s : State} (h : s.Steady C N L) (d a b : VCode) :
    OutSteady C N L (execClmulh d a b s) := by
  unfold execClmulh
  grind [vecRaw2_steady]

theorem execDot4_steady {s : State} (h : s.Steady C N L) (d a b : VCode) : OutSteady C N L (execDot4 d a b s) := by
  unfold execDot4
  grind [vecDot_steady]

theorem execDot2_steady {s : State} (h : s.Steady C N L) (d a b : VCode) : OutSteady C N L (execDot2 d a b s) := by
  unfold execDot2
  grind [vecDot_steady]

theorem execShfl_steady {s : State} (h : s.Steady C N L) (d a b : VCode) : OutSteady C N L (execShfl d a b s) := by
  unfold execShfl
  grind [vecShuffle_steady]

theorem execShflx_steady {s : State} (h : s.Steady C N L) (d a b : VCode) : OutSteady C N L (execShflx d a b s) := by
  unfold execShflx
  grind [vecShuffle_steady]

theorem execBcast_steady {s : State} (h : s.Steady C N L) (d a b : VCode) : OutSteady C N L (execBcast d a b s) := by
  unfold execBcast
  grind [vecShuffle_steady]

theorem execWred_steady {s : State} (h : s.Steady C N L) (d a : VCode) (op : BitVec 3) :
    OutSteady C N L (execWred d a op s) := issueChecked_steady h _ fun _ => h

theorem execWscan_steady {s : State} (h : s.Steady C N L) (d a : VCode) (op : BitVec 3) :
    OutSteady C N L (execWscan d a op s) := issueChecked_steady h _ fun _ => h

theorem execBallot_steady {s : State} (h : s.Steady C N L) (d a : VCode) : OutSteady C N L (execBallot d a s) :=
  issueChecked_steady h _ fun _ => h

theorem vecPred_steady {s : State} (h : s.Steady C N L) (f : LaneMask → LaneMask → LaneMask) (d a b : VCode) :
    OutSteady C N L (vecPred f d a b s) := issueChecked_steady h _ fun _ => h

theorem execPand_steady {s : State} (h : s.Steady C N L) (d a b : VCode) : OutSteady C N L (execPand d a b s) := by
  unfold execPand
  grind [vecPred_steady]

theorem execPor_steady {s : State} (h : s.Steady C N L) (d a b : VCode) : OutSteady C N L (execPor d a b s) := by
  unfold execPor
  grind [vecPred_steady]

theorem execPxor_steady {s : State} (h : s.Steady C N L) (d a b : VCode) : OutSteady C N L (execPxor d a b s) := by
  unfold execPxor
  grind [vecPred_steady]

theorem execSpsel_steady {s : State} (h : s.Steady C N L) (d a : VCode) (part : BitVec 2) :
    OutSteady C N L (execSpsel d a part s) := issueChecked_steady h _ fun _ => h

theorem execSpcmp_steady {s : State} (h : s.Steady C N L) (d a b : VCode) : OutSteady C N L (execSpcmp d a b s) :=
  issueChecked_steady h _ fun _ => h

/-! ## Scalar words -/

theorem scalarOp_steady {s : State} (h : s.Steady C N L) (f : Nat → Nat → Nat) (d a b : SCode) :
    OutSteady C N L (scalarOp f d a b s) := issueChecked_steady h _ fun _ => h

theorem scalarUnary_steady {s : State} (h : s.Steady C N L) (f : Nat → Nat) (d a : SCode) :
    OutSteady C N L (scalarUnary f d a s) := issueChecked_steady h _ fun _ => h

theorem scalarOp64_steady {s : State} (h : s.Steady C N L) (wideB : Bool) (f : Nat → Nat → Nat) (d a b : SCode) :
    OutSteady C N L (scalarOp64 wideB f d a b s) := issueChecked_steady h _ fun _ => h

theorem execSadd_steady {s : State} (h : s.Steady C N L) (d a b : SCode) : OutSteady C N L (execSadd d a b s) := by
  unfold execSadd
  grind [scalarOp_steady]

theorem execSsub_steady {s : State} (h : s.Steady C N L) (d a b : SCode) : OutSteady C N L (execSsub d a b s) := by
  unfold execSsub
  grind [scalarOp_steady]

theorem execSmul_steady {s : State} (h : s.Steady C N L) (d a b : SCode) : OutSteady C N L (execSmul d a b s) := by
  unfold execSmul
  grind [scalarOp_steady]

theorem execSmulh_steady {s : State} (h : s.Steady C N L) (d a b : SCode) : OutSteady C N L (execSmulh d a b s) := by
  unfold execSmulh
  grind [scalarOp_steady]

theorem execSand_steady {s : State} (h : s.Steady C N L) (d a b : SCode) : OutSteady C N L (execSand d a b s) := by
  unfold execSand
  grind [scalarOp_steady]

theorem execSor_steady {s : State} (h : s.Steady C N L) (d a b : SCode) : OutSteady C N L (execSor d a b s) := by
  unfold execSor
  grind [scalarOp_steady]

theorem execSxor_steady {s : State} (h : s.Steady C N L) (d a b : SCode) : OutSteady C N L (execSxor d a b s) := by
  unfold execSxor
  grind [scalarOp_steady]

theorem execSshl_steady {s : State} (h : s.Steady C N L) (d a b : SCode) : OutSteady C N L (execSshl d a b s) := by
  unfold execSshl
  grind [scalarOp_steady]

theorem execSshr_steady {s : State} (h : s.Steady C N L) (d a b : SCode) : OutSteady C N L (execSshr d a b s) := by
  unfold execSshr
  grind [scalarOp_steady]

theorem execSsha_steady {s : State} (h : s.Steady C N L) (d a b : SCode) : OutSteady C N L (execSsha d a b s) := by
  unfold execSsha
  grind [scalarOp_steady]

theorem execSmin_steady {s : State} (h : s.Steady C N L) (d a b : SCode) : OutSteady C N L (execSmin d a b s) := by
  unfold execSmin
  grind [scalarOp_steady]

theorem execSmax_steady {s : State} (h : s.Steady C N L) (d a b : SCode) : OutSteady C N L (execSmax d a b s) := by
  unfold execSmax
  grind [scalarOp_steady]

theorem execScmplt_steady {s : State} (h : s.Steady C N L) (d a b : SCode) :
    OutSteady C N L (execScmplt d a b s) := by
  unfold execScmplt
  grind [scalarOp_steady]

theorem execScmpeq_steady {s : State} (h : s.Steady C N L) (d a b : SCode) :
    OutSteady C N L (execScmpeq d a b s) := by
  unfold execScmpeq
  grind [scalarOp_steady]

theorem execSsel_steady {s : State} (h : s.Steady C N L) (d a b : SCode) : OutSteady C N L (execSsel d a b s) :=
  issueChecked_steady h _ fun _ => h

theorem execSmov_steady {s : State} (h : s.Steady C N L) (d a : SCode) : OutSteady C N L (execSmov d a s) := by
  unfold execSmov
  grind [scalarUnary_steady]

theorem execSadd64_steady {s : State} (h : s.Steady C N L) (d a b : SCode) :
    OutSteady C N L (execSadd64 d a b s) := by
  unfold execSadd64
  grind [scalarOp64_steady]

theorem execSsub64_steady {s : State} (h : s.Steady C N L) (d a b : SCode) :
    OutSteady C N L (execSsub64 d a b s) := by
  unfold execSsub64
  grind [scalarOp64_steady]

theorem execSmul64_steady {s : State} (h : s.Steady C N L) (d a b : SCode) :
    OutSteady C N L (execSmul64 d a b s) := by
  unfold execSmul64
  grind [scalarOp64_steady]

theorem execSshl64_steady {s : State} (h : s.Steady C N L) (d a b : SCode) :
    OutSteady C N L (execSshl64 d a b s) := by
  unfold execSshl64
  grind [scalarOp64_steady]

theorem execSshr64_steady {s : State} (h : s.Steady C N L) (d a b : SCode) :
    OutSteady C N L (execSshr64 d a b s) := by
  unfold execSshr64
  grind [scalarOp64_steady]

theorem execSclz_steady {s : State} (h : s.Steady C N L) (d a : SCode) : OutSteady C N L (execSclz d a s) := by
  unfold execSclz
  grind [scalarUnary_steady]

theorem execSpopc_steady {s : State} (h : s.Steady C N L) (d a : SCode) : OutSteady C N L (execSpopc d a s) := by
  unfold execSpopc
  grind [scalarUnary_steady]

theorem execScmpltn_steady {s : State} (h : s.Steady C N L) (d a b : SCode) :
    OutSteady C N L (execScmpltn d a b s) := by
  unfold execScmpltn
  grind [scalarOp_steady]

theorem execPack_steady {s : State} (h : s.Steady C N L) (d a b : SCode) : OutSteady C N L (execPack d a b s) := by
  unfold execPack
  grind [scalarOp_steady]

theorem execUnpack_steady {s : State} (h : s.Steady C N L) (d a : SCode) (mode : BitVec 2) :
    OutSteady C N L (execUnpack d a mode s) := by
  unfold execUnpack
  grind [scalarUnary_steady]

theorem execSbfe_steady {s : State} (h : s.Steady C N L) (d a b : SCode) : OutSteady C N L (execSbfe d a b s) := by
  unfold execSbfe
  grind [scalarOp_steady]

theorem execV2s_steady {s : State} (h : s.Steady C N L) (d : SCode) (a : VCode) (b : SCode) :
    OutSteady C N L (execV2s d a b s) := by
  unfold execV2s
  grind [issueChecked_steady, Ctx.waitOn_steady, Ctx.onWave_steady]

theorem execPset_steady {s : State} (h : s.Steady C N L) (d : VCode) (a : SCode) :
    OutSteady C N L (execPset d a s) := issueChecked_steady h _ fun _ => h

theorem execSysrd_steady {s : State} (h : s.Steady C N L) (d : SCode) (index : BitVec 16) :
    OutSteady C N L (execSysrd d index s) := by
  unfold execSysrd
  grind [issueChecked_steady, Ctx.onWave_steady, Res.Steady]

theorem State.writeTvec_steady {s : State} (h : s.Steady C N L) (part : Nat) (x : DWord) : (s.writeTvec part x).Steady C N L :=
  State.steady_cuts (State.modPart_steady h _ _) fun hc => hc.map

theorem execSyswr_steady {s : State} (h : s.Steady C N L) (index : BitVec 16) (b : SCode) :
    OutSteady C N L (execSyswr index b s) := by
  unfold execSyswr
  grind [issueChecked_steady, Ctx.onWave_steady, State.writeTvec_steady, Res.Steady]

end Sys2Proof.Machine

end

