-- ==== Sys2Proof/Proofs/SteadyEngines.lean ====
section
/-! What the functions of the engines, of placement, of queues and plats and of the control die keep (`State.Steady`). -/

namespace Sys2Proof.Machine

-- The theorems are many and short: one after another they need the stack of one thread, side by side those of dozens.
set_option Elab.async false

variable {C : Prop} {N : Nat} {L : List (Nat × DieKind)}

/-! ## Host records -/

theorem State.modQueue_steady {s : State} (h : s.Steady C N L) (f q : Nat) (g : Queue → Queue) :
    (s.modQueue f q g).Steady C N L := State.steady_mem h

theorem State.modRec_steady {s : State} (h : s.Steady C N L) (f q n : Nat) (g : Rec → Rec) :
    (s.modRec f q n g).Steady C N L := State.steady_mem h

theorem State.hostStore_steady {s : State} (h : s.Steady C N L) (a : Nat) (l : List Byte) : (s.hostStore a l).Steady C N L :=
  State.steady_mem h (host := Memory.wf_setBytes _ _ _)

theorem State.raiseMsi_steady {s : State} (h : s.Steady C N L) (f vec : Nat) : (s.raiseMsi f vec).Steady C N L := by
  unfold State.raiseMsi
  grind [State.modFunc_steady, State.emit_steady]

theorem State.landFor_steady {s : State} (h : s.Steady C N L) (f va : Nat) : (s.landFor f va).Steady C N L := by
  unfold State.landFor
  grind [State.land_steady]

theorem State.readFor_steady {s : State} (h : s.Steady C N L) (f va n : Nat) : (s.readFor f va n).1.Steady C N L := by
  unfold State.readFor
  grind [State.funcViolation_steady, State.funcLoad_steady, State.landFor_steady]

theorem State.writeFor_steady {s : State} (h : s.Steady C N L) (f va n x : Nat) :
    (s.writeFor f va n x).1.Steady C N L := by
  unfold State.writeFor
  grind [State.funcViolation_steady, State.translate_steady, State.storeAt_steady, State.land_steady]

theorem State.wordsFor_steady {s : State} (h : s.Steady C N L) (f va n : Nat) : (s.wordsFor f va n).1.Steady C N L := by
  induction n generalizing s va with
  | zero => exact h
  | succ n ih =>
    have hr := State.readFor_steady h f va 4
    have hw := ih hr (va + 4)
    unfold State.wordsFor
    grind -lia -linarith -ring

theorem State.hostFault_steady {s : State} (h : s.Steady C N L) (f a : Nat) : (s.hostFault f a).Steady C N L :=
  State.steady_mem h

theorem State.readRing_steady {s : State} (h : s.Steady C N L) (f : Nat) (loc : Bool) (a n : Nat) :
    (s.readRing f loc a n).1.Steady C N L := by
  unfold State.readRing
  grind [State.readFor_steady, State.hostFault_steady]

theorem State.writeRing_steady {s : State} (h : s.Steady C N L) (f : Nat) (loc : Bool) (a n x : Nat) :
    (s.writeRing f loc a n x).1.Steady C N L := by
  unfold State.writeRing
  grind [State.writeFor_steady, State.hostStore_steady, State.hostFault_steady]

theorem State.completionWord_steady {s : State} (h : s.Steady C N L) (f : Nat) (loc : Bool) (r : Rec)
    (status sub data : Nat) : (s.completionWord f loc r status sub data).Steady C N L := by
  unfold State.completionWord
  grind [State.writeRing_steady]

theorem State.retire_steady {s : State} (h : s.Steady C N L) (f q n status sub data : Nat) :
    (s.retire f q n status sub data).Steady C N L := by
  unfold State.retire
  grind [State.completionWord_steady, State.modRec_steady, State.modQueue_steady]

theorem State.modPlat_steady {s : State} (h : s.Steady C N L) (k : Nat) (f : PlatInst → PlatInst) :
    (s.modPlat k f).Steady C N L := State.steady_mem h

theorem State.applied_steady {s : State} (h : s.Steady C N L) (k place : Nat) : (s.applied k place).Steady C N L :=
  State.steady_mem h

theorem State.originEnded_steady {s : State} (h : s.Steady C N L) (o : Origin) (status sub data : Nat) :
    (s.originEnded o status sub data).Steady C N L := by
  unfold State.originEnded
  grind [State.retire_steady, State.modRec_steady, State.cutOrigins_steady, State.modPlat_steady]

/-! ## Copy engines -/

theorem State.enginePlace_steady {s : State} (h : s.Steady C N L) (dec : Decoder) (func : Nat)
    (priv write : Bool) (a n : Nat) : (s.enginePlace dec func priv write a n).1.Steady C N L := by
  unfold State.enginePlace
  grind [State.translate_steady]

theorem State.readPiece_steady {s : State} (h : s.Steady C N L) (dec : Decoder) (order : Loc → Bool)
    (func key : Nat) (priv : Bool) (a n : Nat) : (s.readPiece dec order func key priv a n).1.Steady C N L := by
  unfold State.readPiece
  grind [State.enginePlace_steady, State.land_steady]

theorem State.readPieces_steady {s : State} (h : s.Steady C N L) (dec : Decoder) (order : Loc → Bool) (func key : Nat) (priv : Bool)
    (l : List (Nat × Nat)) : (s.readPieces dec order func key priv l).1.Steady C N L := by
  induction l generalizing s with
  | nil => exact h
  | cons p rest ih =>
    obtain ⟨a, n⟩ := p
    have hp := State.readPiece_steady h dec order func key priv a n
    have hr := ih hp
    unfold State.readPieces
    grind -lia -linarith -ring

theorem State.addEases_steady {s : State} (h : s.Steady C N L) (core : Nat) (l : List Ease) :
    (s.addEases core l).Steady C N L := State.steady_foldl (fun _ _ hs => State.modCore_steady hs ..) h _

theorem State.modXfer_steady {s : State} (h : s.Steady C N L) (id : Nat) (f : Transfer → Transfer) :
    (s.modXfer id f).Steady C N L := by
  unfold State.modXfer
  grind [State.steady_with]

theorem State.modChan_steady {s : State} (h : s.Steady C N L) (b ch : Nat) (f : Channel → Channel) :
    (s.modChan b ch f).Steady C N L := State.modBlock_steady h ..

theorem State.noteChan_steady {s : State} (h : s.Steady C N L) (x : Transfer) : (s.noteChan x).Steady C N L := by
  unfold State.noteChan
  grind [State.modChan_steady]

theorem State.dropXfer_steady {s : State} (h : s.Steady C N L) (x : Transfer) : (s.dropXfer x).Steady C N L := by
  unfold State.dropXfer
  grind [State.steady_with, State.endEasements_steady, State.settle_steady, State.modWave_steady]

theorem State.putStat_steady {s : State} (h : s.Steady C N L) (x : Transfer) (v : Nat) :
    (s.putStat x v).1.Steady C N L := by
  unfold State.putStat
  grind [State.enginePlace_steady, State.storeAt_steady]

theorem State.writeStat_steady {s : State} (h : s.Steady C N L) (x : Transfer) (v : Nat) :
    (s.writeStat x v).Steady C N L := by
  unfold State.writeStat
  grind [State.putStat_steady]

theorem State.chainEnded_steady {s : State} (h : s.Steady C N L) (x : Transfer) (sub : Nat) :
    (s.chainEnded x sub).Steady C N L := by
  unfold State.chainEnded
  grind [State.originEnded_steady]

theorem State.stopChain_steady {s : State} (h : s.Steady C N L) (x : Transfer) (can : Bool)
    (cause : Option Cause) (sub : Nat) : (s.stopChain x can cause sub).Steady C N L := by
  unfold State.stopChain
  grind [State.modChan_steady, State.chainEnded_steady, State.dropXfer_steady]

theorem State.xferViolation_steady {s : State} (h : s.Steady C N L) (x : Transfer) (addr : Nat) :
    (s.xferViolation x addr).Steady C N L := by
  unfold State.xferViolation
  grind [State.modChan_steady, State.modCore_steady, State.postViolation_steady, State.waveViolation_steady]

theorem State.stopXfer_steady {s : State} (h : s.Steady C N L) (x : Transfer) (u : EngineStop) :
    (s.stopXfer x u).Steady C N L := by
  unfold State.stopXfer
  grind [State.xferViolation_steady, State.writeStat_steady, State.stopChain_steady, State.dropXfer_steady,
    State.modWave_steady, State.fatalBlock_steady]

theorem State.lostRecord_steady {s : State} (h : s.Steady C N L) (x : Transfer) (u : EngineStop) :
    (s.lostRecord x u).Steady C N L := by
  unfold State.lostRecord
  grind [State.funcViolation_steady, State.xferViolation_steady, State.stopChain_steady]

theorem State.readRecord_steady {s : State} (h : s.Steady C N L) (x : Transfer) :
    (s.readRecord x).1.Steady C N L := by
  unfold State.readRecord
  grind [State.readPieces_steady]

theorem State.cancelChain_steady {s : State} (h : s.Steady C N L) (x : Transfer) :
    (s.cancelChain x).Steady C N L := by
  unfold State.cancelChain
  grind [State.writeStat_steady, State.stopChain_steady]

theorem State.endRecord_steady {s : State} (h : s.Steady C N L) (y : Transfer) : (s.endRecord y).Steady C N L := by
  unfold State.endRecord
  grind [State.enginePlace_steady, State.lostRecord_steady, State.putStat_steady, State.stopChain_steady,
    State.noteChan_steady, State.modXfer_steady]

theorem State.tagXfer_steady {s : State} (h : s.Steady C N L) (x : Transfer) (l : Loc) :
    (s.tagXfer x l).Steady C N L := by
  unfold State.tagXfer
  grind [State.tagWrite_steady]

theorem State.countSegment_steady {s : State} (h : s.Steady C N L) (x : Transfer) : (s.countSegment x).Steady C N L := by
  unfold State.countSegment
  split
  next n e =>
  extract_lets rowEnd last y s1 s2 s3 s4 s5
  have h2 : s2.Steady C N L := by
    have h1 := State.modXfer_steady h x.id (fun _ => y)
    unfold s2
    split
    · exact State.modBlock_steady (State.count_steady h1 _ _ _ _) _
    · exact State.modPart_steady h1 _ _
  have h3 : s3.Steady C N L := by
    unfold s3
    split
    · exact State.endEasements_steady h2 _ _
    · exact h2
  have h4 : s4.Steady C N L := by
    unfold s4
    split
    · exact h3
    · split
      · exact State.tagXfer_steady (State.updateBarrier_steady (State.land_steady h3 _ _) _ _) _ _
      · exact h3
  grind -lia -linarith -ring [State.dropXfer_steady, State.noteChan_steady, State.endRecord_steady, State.putStat_steady,
    State.lostRecord_steady, State.steady_fst]

theorem State.writeSegment_steady {s : State} (h : s.Steady C N L) (x : Transfer) (src : List Byte) :
    (s.writeSegment x src).Steady C N L := by
  unfold State.writeSegment
  split
  next a d n e0 =>
  extract_lets links
  split
  · exact h
  · have hp := State.enginePlace_steady h (s.xferDecoder x) x.func x.priv true d.toNat n
    split
    · next e => exact State.stopXfer_steady (State.steady_fst e hp) _ _
    · next s1 l e =>
      have h1 : s1.Steady C N L := State.steady_fst e hp
      split
      · exact State.stopXfer_steady h1 _ _
      · split
        · exact h1
        · extract_lets s2 bytes g s3 s4 y s5
          have h3 : s3.Steady C N L := State.tagXfer_steady (State.storeAt_steady (State.land_steady h1 _ _) _ _ _) _ _
          have h4 : s4.Steady C N L := by
            unfold s4
            split
            · exact State.fillLine_steady h3 _
            · exact State.fillLine_steady h3 _
            · exact h3
          have h5 : s5.Steady C N L := State.modXfer_steady h4 _ _
          split
          · exact State.countSegment_steady h5 _
          · exact h5

theorem State.readSegment_steady {s : State} (h : s.Steady C N L) (x : Transfer) :
    (s.readSegment x).Steady C N L := by
  unfold State.readSegment
  grind [State.stopXfer_steady, State.readPieces_steady, State.modXfer_steady, State.writeSegment_steady]

theorem State.performSegment_steady {s : State} (h : s.Steady C N L) (x : Transfer) :
    (s.performSegment x).Steady C N L := by
  unfold State.performSegment
  grind [State.readSegment_steady, State.writeSegment_steady]

theorem execSegmentPerform_steady {s : State} (h : s.Steady C N L) (id : Nat) :
    OutSteady C N L (execSegmentPerform id s) := by
  unfold execSegmentPerform
  grind [State.countSegment_steady, State.cancelChain_steady, State.readPieces_steady, State.stopXfer_steady,
    State.modXfer_steady, State.performSegment_steady, OutSteady.next]

theorem State.startRecord_steady {s : State} (h : s.Steady C N L) (x : Transfer) :
    (s.startRecord x).Steady C N L := by
  unfold State.startRecord
  grind [State.modXfer_steady, State.addEases_steady, State.noteChan_steady, State.modWave_steady]

theorem execChainRecordFetch_steady {s : State} (h : s.Steady C N L) (id : Nat) :
    OutSteady C N L (execChainRecordFetch id s) := by
  refine OutSteady.next ?_
  split
  · exact h
  · next x _ =>
    have hr := State.readRecord_steady h x
    grind -lia -linarith -ring [State.cancelChain_steady, State.startRecord_steady, State.lostRecord_steady,
      State.modXfer_steady, State.stopChain_steady, State.writeStat_steady, State.steady_fst]

theorem State.startXfer_steady {s : State} (h : s.Steady C N L) (dec : Decoder) (x : Transfer) :
    (s.startXfer dec x).Steady C N L := by
  unfold State.startXfer
  grind [State.steady_with, State.addEases_steady]

theorem directTransfer_steady {s : State} (h : s.Steady C N L) (op : XOp) (a : VCode) :
    OutSteady C N L (directTransfer op a s) := by
  unfold directTransfer
  grind [State.steady_with, issueChecked_steady, Ctx.onWave_steady, State.modWave_steady, State.startXfer_steady,
    Res.Steady]

theorem execXcpy_steady {s : State} (h : s.Steady C N L) (a : VCode) : OutSteady C N L (execXcpy a s) := by
  unfold execXcpy
  grind [directTransfer_steady]

theorem execXtile_steady {s : State} (h : s.Steady C N L) (a : VCode) : OutSteady C N L (execXtile a s) := by
  unfold execXtile
  grind [directTransfer_steady]

theorem execXgath_steady {s : State} (h : s.Steady C N L) (a : VCode) : OutSteady C N L (execXgath a s) := by
  unfold execXgath
  grind [directTransfer_steady]

theorem execXscat_steady {s : State} (h : s.Steady C N L) (a : VCode) : OutSteady C N L (execXscat a s) := by
  unfold execXscat
  grind [directTransfer_steady]

theorem execXred_steady {s : State} (h : s.Steady C N L) (a : VCode) : OutSteady C N L (execXred a s) := by
  unfold execXred
  grind [directTransfer_steady]

theorem State.openChan_steady {s : State} (h : s.Steady C N L) (b ch : Nat) (head : DWord) :
    (s.openChan b ch head).Steady C N L := State.modChan_steady h ..

theorem execXchain_steady {s : State} (h : s.Steady C N L) (ch : BitVec 4) (a : VCode) :
    OutSteady C N L (execXchain ch a s) := by
  unfold execXchain
  grind [State.steady_with, issueChecked_steady, Ctx.onWave_steady, State.openChan_steady, State.modWave_steady,
    State.startXfer_steady, Res.Steady]

theorem State.cancelChannel_steady {s : State} (h : s.Steady C N L) (b ch : Nat) :
    (s.cancelChannel b ch).Steady C N L := State.steady_mem h

theorem execXcancel_steady {s : State} (h : s.Steady C N L) (ch : BitVec 4) : OutSteady C N L (execXcancel ch s) := by
  unfold execXcancel
  grind [issueChecked_steady, Ctx.onWave_steady, State.cancelChannel_steady, Res.Steady]

theorem execXstat_steady {s : State} (h : s.Steady C N L) (d : VCode) (ch : BitVec 4) :
    OutSteady C N L (execXstat d ch s) := by
  unfold execXstat
  grind [issueChecked_steady, Ctx.onWave_steady]

theorem State.setBucket_steady {s : State} (h : s.Steady C N L) (part engine func : Nat) (x : Bucket × Nat) :
    (s.setBucket part engine func x).Steady C N L := State.steady_mem h

theorem State.refill_steady {s : State} (h : s.Steady C N L) (part engine func : Nat) :
    (s.refill part engine func).Steady C N L := State.steady_mem h

theorem State.refillAll_steady {s : State} (h : s.Steady C N L) (part : Nat) : (s.refillAll part).Steady C N L := by
  unfold State.refillAll
  grind [State.refill_steady, State.steady_foldl]

theorem State.payNext_steady {s : State} (h : s.Steady C N L) (part engine func : Nat) (b : Bucket) :
    (s.payNext part engine func b).Steady C N L := by
  unfold State.payNext
  grind [State.modXfer_steady, State.setBucket_steady]

theorem execBucketRefill_steady {s : State} (h : s.Steady C N L) (engine func : Nat) :
    OutSteady C N L (execBucketRefill engine func s) := by
  unfold execBucketRefill
  grind [State.steady_with, State.refill_steady, State.payNext_steady, OutSteady.next]

/-! ## The fabric -/

theorem State.modFabric_steady {s : State} (h : s.Steady C N L) (f : Fabric → Fabric) :
    (s.modFabric f).Steady C N L := State.steady_mem h

theorem State.modEndpoint_steady {s : State} (h : s.Steady C N L) (n : Nat) (f : Endpoint → Endpoint) :
    (s.modEndpoint n f).Steady C N L := State.steady_mem h

theorem State.modInput_steady {s : State} (h : s.Steady C N L) (i : Nat) (f : SwitchInput → SwitchInput) :
    (s.modInput i f).Steady C N L := State.steady_mem h

theorem State.sentOn_steady {s : State} (h : s.Steady C N L) (p : Nat) : (s.sentOn p).Steady C N L :=
  State.steady_mem h

theorem State.mark_steady {s : State} (h : s.Steady C N L) (i w : Nat) : (s.mark i w).Steady C N L :=
  State.steady_mem h

theorem State.purge_steady {s : State} (h : s.Steady C N L) (r : Retire) : (s.purge r).Steady C N L :=
  State.steady_mem h

theorem State.takeSeq_steady {s : State} (h : s.Steady C N L) (p : Packet) : (s.takeSeq p).1.Steady C N L := h

theorem State.forward_steady {s : State} (h : s.Steady C N L) (i : Nat) (p : Packet) :
    (s.forward i p).Steady C N L := by
  unfold State.forward
  grind [State.modEndpoint_steady, State.sentOn_steady, State.emit_steady]

theorem State.leftSwitch_steady {s : State} (h : s.Steady C N L) (p : Packet) : (s.leftSwitch p).Steady C N L :=
  State.steady_mem h

theorem State.takeItem_steady {s : State} (h : s.Steady C N L) (i : Nat) (p : Option Packet) (r : Option Retire)
    {t : State} (e : s.takeItem i p r = some t) : t.Steady C N L := by
  unfold State.takeItem at e
  grind [State.modFabric_steady]

theorem execPacketArrival_steady {s : State} (h : s.Steady C N L) (input : Nat) (pkt : Packet) :
    OutSteady C N L (execPacketArrival input pkt s) := by
  unfold execPacketArrival
  grind [State.takeItem_steady, State.leftSwitch_steady, State.modInput_steady, State.modEndpoint_steady,
    State.forward_steady, State.takeSeq_steady, State.mark_steady, OutSteady.next]

theorem State.takeRetire_steady {s : State} (h : s.Steady C N L) (i : Nat) (r : Retire) :
    (s.takeRetire i r).Steady C N L := by
  unfold State.takeRetire
  grind [State.purge_steady, State.modFabric_steady, State.sentOn_steady, State.emit_steady, State.steady_foldl]

theorem execBeaconArrival_steady {s : State} (h : s.Steady C N L) (input : Nat) (w : Beacon) :
    OutSteady C N L (execBeaconArrival input w s) := by
  unfold execBeaconArrival
  grind [State.takeItem_steady, State.mark_steady, State.takeRetire_steady, OutSteady.next]

theorem execBeaconSend_steady {s : State} (h : s.Steady C N L) (link : Nat) :
    OutSteady C N L (execBeaconSend link s) := by
  unfold execBeaconSend
  grind [State.modFabric_steady, State.sentOn_steady, State.emit_steady, State.modInput_steady, OutSteady.next]

theorem execWatermarkStall_steady {s : State} (h : s.Steady C N L) (input : Nat) :
    OutSteady C N L (execWatermarkStall input s) := by
  unfold execWatermarkStall
  grind [State.log_steady, State.modInput_steady, OutSteady.next]

theorem State.fenceInput_steady {s : State} (h : s.Steady C N L) (i : Nat) : (s.fenceInput i).Steady C N L := by
  unfold State.fenceInput
  grind [State.log_steady, State.modInput_steady]

theorem State.unfenceInput_steady {s : State} (h : s.Steady C N L) (i : Nat) : (s.unfenceInput i).Steady C N L := by
  unfold State.unfenceInput
  grind [State.log_steady, State.modInput_steady]

theorem execPortFence_steady {s : State} (h : s.Steady C N L) (input : Nat) :
    OutSteady C N L (execPortFence input s) := by
  unfold execPortFence
  grind [State.fenceInput_steady, OutSteady.next]

theorem execPortUnfence_steady {s : State} (h : s.Steady C N L) (input : Nat) :
    OutSteady C N L (execPortUnfence input s) := by
  unfold execPortUnfence
  grind [State.unfenceInput_steady, OutSteady.next]

theorem execLinkTrained_steady {s : State} (h : s.Steady C N L) (port : Nat) :
    OutSteady C N L (execLinkTrained port s) := by
  unfold execLinkTrained
  grind [State.modInput_steady, OutSteady.next]

theorem execTimeBeacon_steady {s : State} (h : s.Steady C N L) (port : Nat) :
    OutSteady C N L (execTimeBeacon port s) := by
  unfold execTimeBeacon
  grind [State.emit_steady, State.modInput_steady, OutSteady.next]

theorem execTimeBeaconArrival_canonical {s : State} (h : s.memoryCanonical) (port t1 t2 t3 t4 : Nat) :
    OutCanonical (execTimeBeaconArrival port t1 t2 t3 t4 s) := by
  refine OutCanonical.next ?_
  extract_lets x noted o near s1
  split
  · split
    · exact h
    · exact h
  · exact h

theorem execPpsPulse_canonical {s : State} (h : s.memoryCanonical) : OutCanonical (execPpsPulse s) := by
  refine OutCanonical.next ?_
  split
  · exact h
  · exact h

theorem State.modFab_steady {s : State} (h : s.Steady C N L) (id : Nat) (f : FabricOp → FabricOp) :
    (s.modFab id f).Steady C N L := by
  unfold State.modFab
  grind [State.steady_with]

theorem fabricOp_steady {s : State} (h : s.Steady C N L) (send : Bool) (a : VCode) :
    OutSteady C N L (fabricOp send a s) := by
  unfold fabricOp
  grind [State.steady_with, issueChecked_steady, Ctx.onWave_steady, State.addEases_steady, State.modWave_steady,
    Res.Steady]

theorem execEsnd_steady {s : State} (h : s.Steady C N L) (a : VCode) : OutSteady C N L (execEsnd a s) := by
  unfold execEsnd
  grind [fabricOp_steady]

theorem execErcv_steady {s : State} (h : s.Steady C N L) (a : VCode) : OutSteady C N L (execErcv a s) := by
  unfold execErcv
  grind [fabricOp_steady]

theorem State.fabricDone_steady {s : State} (h : s.Steady C N L) (x : FabricOp) (stay : Bool) :
    (s.fabricDone x stay).Steady C N L := by
  unfold State.fabricDone
  grind [State.steady_with, State.endEasements_steady, State.settle_steady, State.modWave_steady]

theorem State.stopFabric_steady {s : State} (h : s.Steady C N L) (x : FabricOp) (c : Cause) (addr : Nat) :
    (s.stopFabric x c addr).Steady C N L := by
  unfold State.stopFabric
  grind [State.fatalBlock_steady, State.fabricDone_steady, State.modWave_steady]

theorem State.readPayload_steady {s : State} (h : s.Steady C N L) (w : Wave) (b : Block) (x : FabricOp) :
    (s.readPayload w b x).1.Steady C N L := State.readPieces_steady h ..

theorem execEsndInject_steady {s : State} (h : s.Steady C N L) (id : Nat) : OutSteady C N L (execEsndInject id s) := by
  refine OutSteady.next ?_
  split
  · exact h
  · next x _ =>
    split
    · exact h
    · next w b _ =>
      extract_lets die
      split
      · exact h
      · have hr := State.readPayload_steady h w b x
        split
        · next e => exact State.stopFabric_steady (State.steady_fst e hr) _ _ _
        · next e => exact State.modFab_steady (State.steady_fst e hr) _ _
        · next e => exact State.steady_fst e hr
        · next e => exact State.fabricDone_steady (State.modFab_steady (State.modInput_steady
            (State.modFabric_steady (State.steady_fst e hr) _) _ _) _ _) _ _

theorem State.takePacket_steady {s : State} (h : s.Steady C N L) (x : FabricOp) : (s.takePacket x).Steady C N L :=
  State.steady_mem h

theorem execErcvAccept_steady {s : State} (h : s.Steady C N L) (id : Nat) :
    OutSteady C N L (execErcvAccept id s) := by
  unfold execErcvAccept
  grind [State.steady_with, State.takePacket_steady, OutSteady.next]

theorem execErcvComplete_steady {s : State} (h : s.Steady C N L) (id : Nat) :
    OutSteady C N L (execErcvComplete id s) := by
  unfold execErcvComplete
  grind [State.land_steady, State.fillLine_steady, State.storeAt_steady, State.fabricDone_steady, State.steady_foldl,
    OutSteady.next]

theorem execEstamp_steady {s : State} (h : s.Steady C N L) (d : VCode) : OutSteady C N L (execEstamp d s) :=
  issueChecked_steady h _ fun _ => h

theorem execEwmark_steady {s : State} (h : s.Steady C N L) (d : VCode) (sel : BitVec 5) :
    OutSteady C N L (execEwmark d sel s) := issueChecked_steady h _ fun _ => h

/-! ## Tile words -/

theorem State.noteAccepted_steady {s : State} (h : s.Steady C N L) (core : Nat) :
    (s.noteAccepted core).Steady C N L := State.steady_mem h

theorem execTileAccept_steady {s : State} (h : s.Steady C N L) (core : Nat) : OutSteady C N L (execTileAccept core s) := by
  refine OutSteady.next ?_
  split
  · exact h
  · next o _ =>
    split
    · exact h
    · refine State.steady_blocks (State.noteAccepted_steady h core) fun hb => Table.All.mapVals hb fun _ b hb => ?_
      refine Block.Canonical.mapHalves hb fun y hy => ?_
      split
      · rwa [Half.scratch_accept]
      · exact hy

theorem Ctx.acceptNow_steady {s : State} (h : s.Steady C N L) (c : Ctx) {f : State → Res}
    (hf : ∀ s : State, s.Steady C N L → (f s).Steady C N L) : (c.acceptNow s f).Steady C N L := by
  unfold Ctx.acceptNow
  split
  · exact hf _ (State.noteAccepted_steady h _)
  · trivial

theorem Ctx.tileAccess_steady (c : Ctx) {r : Res} (hr : r.Steady C N L) : (c.tileAccess r).Steady C N L := by
  unfold Ctx.tileAccess
  split
  · trivial
  · exact hr

theorem execKstepComplete_steady {s : State} (h : s.Steady C N L) (b half op : Nat) :
    OutSteady C N L (execKstepComplete b half op s) := by
  unfold execKstepComplete
  grind [State.stepTop_steady, OutSteady.next]

theorem execTileOpComplete_steady {s : State} (h : s.Steady C N L) (b half op : Nat) :
    OutSteady C N L (execTileOpComplete b half op s) := by
  unfold execTileOpComplete
  grind [State.dropTop_steady, State.applyTop_steady, OutSteady.next]

theorem State.tileTimeout_steady {s : State} (h : s.Steady C N L) (b half op : Nat) :
    (s.tileTimeout b half op).Steady C N L := by
  unfold State.tileTimeout
  grind [State.modWave_steady, State.dropTop_steady, State.modHalf_steady, State.stopTop_steady,
    Half.scratch_benchStop]

theorem Ctx.runDet_steady {s : State} (h : s.Steady C N L) (c : Ctx) (o : TileOp) : (c.runDet s o).Steady C N L := by
  unfold Ctx.runDet
  grind [State.runTop_steady, State.modHalf_steady, State.modWave_steady, Half.scratch_accept]

theorem Ctx.joinTop_steady {s : State} (h : s.Steady C N L) (c : Ctx) (o : TileOp) (f : Wave → Wave) :
    (c.joinTop s o f).Steady C N L := by
  unfold Ctx.joinTop
  extract_lets s1 s2 s3 view waits s4
  have h1 : s1.Steady C N L := State.modHalf_steady h _ _ fun y hy => by rwa [Ctx.scratch_enqueue]
  have h2 : s2.Steady C N L := State.modWave_steady (State.steady_mem h1) _ _
  have h3 : s3.Steady C N L := by
    unfold s3
    split
    · exact Ctx.runDet_steady h2 c o
    · exact h2
  split
  · exact State.modWave_steady (State.modHalf_steady h3 _ _) _ _
  · exact h3

theorem Ctx.acceptTop_steady {s : State} (h : s.Steady C N L) (c : Ctx) (o : TileOp) (f : Wave → Wave) :
    (c.acceptTop s o f).Steady C N L := by
  unfold Ctx.acceptTop
  grind [Ctx.acceptNow_steady, Ctx.joinTop_steady]

theorem Ctx.tileTrap_steady {s : State} (h : s.Steady C N L) (c : Ctx) (cause : Cause) (addr x : Nat) :
    (c.tileTrap s cause addr x).Steady C N L := by
  unfold Ctx.tileTrap
  grind [Res.Steady]

theorem Ctx.tileChecked_steady {s : State} (h : s.Steady C N L) (c : Ctx) (scratch : Option (Cause × Nat × Nat))
    (owner : Option Cause) {r : Res} (hr : r.Steady C N L) : (c.tileChecked s scratch owner r).Steady C N L := by
  unfold Ctx.tileChecked
  split
  · trivial
  · split
    · exact Ctx.tileTrap_steady h c _ _ _
    · exact Ctx.tileTrap_steady h c _ _ _
    · exact hr

theorem Ctx.matrixRegs_steady {s : State} (h : s.Steady C N L) (c : Ctx) (d a b : VCode) (sparse reuse : Bool) :
    (c.matrixRegs s d a b sparse reuse).Steady C N L := by
  unfold Ctx.matrixRegs
  grind [Ctx.tileAccess_steady, Ctx.tileChecked_steady, Ctx.acceptTop_steady]

theorem execMma_steady {s : State} (h : s.Steady C N L) (d a b : VCode) : OutSteady C N L (execMma d a b s) :=
  issueChecked_steady h _ fun _ => Ctx.matrixRegs_steady h ..

theorem execMmar_steady {s : State} (h : s.Steady C N L) (d a b : VCode) : OutSteady C N L (execMmar d a b s) :=
  issueChecked_steady h _ fun _ => Ctx.matrixRegs_steady h ..

theorem execMmas_steady {s : State} (h : s.Steady C N L) (d a b : VCode) : OutSteady C N L (execMmas d a b s) :=
  issueChecked_steady h _ fun _ => Ctx.matrixRegs_steady h ..

theorem execMmak_steady {s : State} (h : s.Steady C N L) (d a b : VCode) : OutSteady C N L (execMmak d a b s) := by
  unfold execMmak
  grind [issueChecked_steady, Ctx.tileAccess_steady, Ctx.tileChecked_steady, Ctx.awaitLine_steady,
    State.modHalf_steady, Ctx.acceptTop_steady, Res.Steady]

theorem execAcq_steady {s : State} (h : s.Steady C N L) (d : VCode) : OutSteady C N L (execAcq d s) := by
  unfold execAcq
  grind [issueChecked_steady, Ctx.tileChecked_steady, Ctx.acceptNow_steady, State.modHalf_steady, Res.Steady]

theorem execRel_steady {s : State} (h : s.Steady C N L) (d : VCode) : OutSteady C N L (execRel d s) := by
  unfold execRel
  grind [issueChecked_steady, Ctx.tileChecked_steady, Ctx.acceptNow_steady, State.modHalf_steady, Res.Steady]

theorem execAcld_steady {s : State} (h : s.Steady C N L) (d a : VCode) : OutSteady C N L (execAcld d a s) := by
  unfold execAcld
  grind [issueChecked_steady, Ctx.tileChecked_steady, Ctx.acceptTop_steady]

theorem execAcst_steady {s : State} (h : s.Steady C N L) (d a : VCode) : OutSteady C N L (execAcst d a s) := by
  unfold execAcst
  grind [issueChecked_steady, Ctx.tileChecked_steady, Ctx.acceptTop_steady]

theorem execAcz_steady {s : State} (h : s.Steady C N L) (d : VCode) : OutSteady C N L (execAcz d s) := by
  unfold execAcz
  grind [issueChecked_steady, Ctx.tileChecked_steady, Ctx.acceptTop_steady, Ctx.acceptNow_steady,
    State.modHalf_steady, Half.scratch_putTile, Res.Steady]

theorem execAcsp_steady {s : State} (h : s.Steady C N L) (d a : VCode) : OutSteady C N L (execAcsp d a s) := by
  unfold execAcsp
  grind [issueChecked_steady, Ctx.tileAccess_steady, Ctx.tileChecked_steady, Ctx.acceptTop_steady]

theorem execAcwin_steady {s : State} (h : s.Steady C N L) (d a b : VCode) : OutSteady C N L (execAcwin d a b s) := by
  unfold execAcwin
  grind [issueChecked_steady, Ctx.acceptNow_steady, State.modWave_steady, State.steady_foldl, Res.Steady]

theorem execBmark_steady {s : State} (h : s.Steady C N L) (d a : VCode) : OutSteady C N L (execBmark d a s) := by
  unfold execBmark
  grind [issueChecked_steady, Ctx.tileChecked_steady, Ctx.acceptNow_steady, State.modWave_steady, Res.Steady]

theorem execAcadd_steady {s : State} (h : s.Steady C N L) (d a : VCode) : OutSteady C N L (execAcadd d a s) := by
  unfold execAcadd
  grind [issueChecked_steady, Ctx.tileChecked_steady, Ctx.acceptTop_steady]

theorem execAcscl_steady {s : State} (h : s.Steady C N L) (d a : VCode) : OutSteady C N L (execAcscl d a s) := by
  unfold execAcscl
  grind [issueChecked_steady, Ctx.tileChecked_steady, Ctx.acceptTop_steady]

/-! ## Placement -/

theorem State.noteRooms_steady {s : State} (h : s.Steady C N L) : s.noteRooms.Steady C N L :=
  State.steady_mem h

theorem State.tookRooms_steady {before after : State} (h : after.Steady C N L) : (before.tookRooms after).Steady C N L :=
  State.steady_mem h

theorem State.startGrid_steady {s : State} (h : s.Steady C N L) (f : Nat) (checkZero : Bool) (d : List Word)
    (wgt ceil : Nat) (o : Origin) (noCtok : Bool) :
    (s.startGrid f checkZero d wgt ceil o noCtok).1.Steady C N L := by
  unfold State.startGrid
  grind [State.steady_with]

theorem State.addWave_steady {s : State} (h : s.Steady C N L) (b part : Nat) (mk : DWord → Nat → Wave) :
    (s.addWave b part mk).Steady C N L := by
  unfold State.addWave
  grind [State.steady_with, State.modPart_steady, State.modBlock_steady, Block.Canonical.of_halves]

theorem State.putBlock_steady {s : State} (h : s.Steady C N L) (gid index : Nat) (far : Bool) (place : BlockPlace) :
    (s.putBlock gid index far place).Steady C N L := by
  unfold State.putBlock
  split
  · exact h
  · extract_lets l entry b blk s1 waves
    have hb : blk.Canonical := newHalves_canonical _ place
    have h1 : s1.Steady C N L := State.steady_blocks h fun hs => hs.set _ hb
    exact State.steady_foldl (fun _ _ hs => State.addWave_steady hs _ _ _) h1 _

theorem State.addRegions_steady {s : State} (h : s.Steady C N L) (gid setId size : Nat) (cores : List Nat) :
    (s.addRegions gid setId size cores).Steady C N L :=
  State.steady_foldl (fun _ _ hs => State.steady_regions hs fun hr => hr.set _ (by exact rfl)) h _

theorem State.addDieRegions_steady {s : State} (h : s.Steady C N L) (p : Partition) (gid : Nat) (g : Grid) :
    (s.addDieRegions p gid g).Steady C N L := by
  unfold State.addDieRegions
  split
  · exact h
  · exact State.steady_foldl (fun _ _ hs => State.steady_dregions hs fun hd => hd.set _ (by exact rfl)) h _

theorem State.putUnit_steady {s : State} (h : s.Steady C N L) (gid first : Nat) (l : Launch) (u : UnitPlace) :
    (s.putUnit gid first l u).Steady C N L := by
  unfold State.putUnit
  grind [State.putBlock_steady, State.addRegions_steady, State.steady_foldl]

theorem execBlockPlace_steady {s : State} (h : s.Steady C N L) (part : Nat) : OutSteady C N L (execBlockPlace part s) := by
  refine OutSteady.next ?_
  split
  · exact h
  · next gid g p _ =>
    split
    · exact h
    · split
      · next first places _ _ =>
        extract_lets s1 s2 s3
        have h1 : s1.Steady C N L := State.steady_mem h
        have h3 : s3.Steady C N L := State.steady_foldl (fun _ _ hs => State.putUnit_steady hs _ _ _ _)
          (State.addDieRegions_steady h1 _ _ _) _
        exact State.tookRooms_steady (State.modGrid_steady h3 _ _)
      · exact h

theorem State.emitTasks_steady {s : State} (h : s.Steady C N L) (die grid entry : Nat) :
    (s.emitTasks die grid entry).Steady C N L := by
  unfold State.emitTasks
  grind [State.steady_with, State.modGrid_steady, State.modDie_steady]

theorem execTaskWaveEmit_steady {s : State} (h : s.Steady C N L) (die grid entry : Nat) :
    OutSteady C N L (execTaskWaveEmit die grid entry s) := by
  unfold execTaskWaveEmit
  grind [State.emitTasks_steady, OutSteady.next]

theorem execGridComplete_steady {s : State} (h : s.Steady C N L) (gid : Nat) : OutSteady C N L (execGridComplete gid s) := by
  refine OutSteady.next ?_
  split
  · exact h
  · next g _ =>
    split
    · exact h
    · extract_lets s1 ok s2 s3
      have h1 : s1.Steady C N L := State.steady_mem h (dregions := fun hd => hd.filter _)
      have h2 : s2.Steady C N L := by
        unfold s2
        split
        · exact State.modPlat_steady h1 _ _
        · exact h1
      have h3 : s3.Steady C N L := by
        have hr := State.readFor_steady h2 g.func g.launch.ctok.toNat 8
        unfold s3
        split
        · exact h2
        · split
          · next e => exact State.writeFor_steady (State.steady_fst e hr) _ _ _ _
          · next e => exact State.steady_fst e hr
      split
      · exact State.originEnded_steady h1 _ _ _ _
      · exact State.originEnded_steady h3 _ _ _ _

/-! ## Units under a cut -/

theorem State.physStore_steady {s : State} (h : s.Steady C N L) (pa : Nat) (l : List Byte) :
    (s.physStore pa l).Steady C N L := by
  unfold State.physStore
  grind [State.wake_steady, State.hbmPut_steady, State.steady_foldl]

theorem State.physWord_steady {s : State} (h : s.Steady C N L) (pa n x : Nat) : (s.physWord pa n x).Steady C N L :=
  State.physStore_steady h ..

theorem State.setCairns_steady {s : State} (h : s.Steady C N L) (u : CutUnit) (st : CairnState) :
    (s.setCairns u st).Steady C N L := by
  unfold State.setCairns
  split
  · exact h
  · exact State.steady_cuts (State.steady_foldl (fun _ _ hs => State.physWord_steady hs _ _ _) h _) fun hc => hc.mapIf

theorem State.openCairns_steady {s : State} (h : s.Steady C N L) (u : CutUnit) : (s.openCairns u).Steady C N L := by
  unfold State.openCairns
  grind [State.physStore_steady, State.steady_foldl]

theorem State.beginSave_steady {s : State} (h : s.Steady C N L) (bs : List Nat) (reason : Nat) (hold : Bool) (bound prio : Nat)
    (listOf : Option (Nat × Nat × Nat)) {t : State × CutUnit} (e : s.beginSave bs reason hold bound prio listOf = some t) :
    t.1.Steady C N L := by
  unfold State.beginSave at e
  split at e
  · cases e
  · split at e
    · cases e
    · split at e
      · cases e
      · extract_lets sizes at e
        split at e
        · extract_lets u s1 s2 at e
          cases e
          have h1 : s1.Steady C N L :=
            State.steady_cuts h fun hc => hc.snoc rfl rfl
          exact State.countUnit_steady (State.openCairns_steady (State.modFunc_steady (State.modPart_steady h1 _ _) _ _) _) _ _
        · cases e

theorem State.joinSaves_steady {s : State} (h : s.Steady C N L) (f : Nat) {g : CutUnit → CutUnit}
    (hg : ∀ u, u.Canonical → (g u).Canonical := by exact fun _ hu => hu) : (s.joinSaves f g).Steady C N L :=
  State.steady_cuts h fun hc => hc.mapIf hg

theorem State.noteCut_steady {s : State} (h : s.Steady C N L) (bs : List Nat) (m : Method) (bound prio : Nat) :
    (s.noteCut bs m bound prio).Steady C N L := by
  unfold State.noteCut
  split
  · exact h
  · split
    · exact h
    · exact State.countUnit_steady (State.steady_cuts h fun hc =>
        hc.snoc rfl rfl) _ _

theorem State.flushUnit_steady {s : State} (h : s.Steady C N L) (bs : List Nat) (bound prio : Nat) :
    (s.flushUnit bs bound prio).Steady C N L := by
  unfold State.flushUnit
  grind [State.noteCut_steady, State.stopBlock_steady, State.modBlock_steady, Block.Canonical.of_halves,
    State.steady_foldl]

theorem State.cutUnit_steady {s : State} (h : s.Steady C N L) (g : Grid) (gid : Nat) (bs : List Nat) (n : Nat) :
    (s.cutUnit g gid bs n).Steady C N L := by
  unfold State.cutUnit
  extract_lets bound
  split
  · exact h
  · next meets _ =>
    extract_lets s1
    have h1 : s1.Steady C N L := by
      unfold s1
      split
      · exact h
      · exact State.countUnit_steady (State.log_steady h _) _ _
    split
    · exact State.noteCut_steady h1 _ _ _ _
    · exact State.flushUnit_steady h1 _ _ _
    · split
      · next e => exact State.beginSave_steady h1 _ _ _ _ _ _ e
      · exact h1

theorem execPreempt_steady {s : State} (h : s.Steady C N L) (grid : Nat) : OutSteady C N L (execPreempt grid s) := by
  unfold execPreempt
  grind [State.cutUnit_steady, State.steady_foldl, OutSteady.next]

theorem State.dropPrivateCopies_steady {s : State} (h : s.Steady C N L) (ws : List (Nat × Wave)) :
    (s.dropPrivateCopies ws).Steady C N L := State.steady_mem h

theorem State.writeBodies_steady {s : State} (h : s.Steady C N L) (maps : Table (BitVec 192)) (u : CutUnit) (p : Partition) :
    (s.writeBodies maps u p).1.Steady C N L := by
  unfold State.writeBodies
  refine State.fst_steady_foldl (fun r c hr => ?_) h _
  exact State.physWord_steady (State.physWord_steady (State.physWord_steady (State.physStore_steady hr _ _) _ _ _) _ _ _) _ _ _

theorem State.asSaved_steady {s : State} (h : s.Steady C N L) (waves : Table Wave) {blocks : Table Block}
    (hb : C → blocks.All Block.Canonical) : (s.asSaved waves blocks).Steady C N L := by
  unfold State.asSaved
  refine State.steady_of_canonical h rfl rfl fun hc => ?_
  obtain ⟨a1, a2, a3, a4, a5, a6⟩ := s.memoryCanonical_iff.1 (h.2.2 hc)
  refine (State.memoryCanonical_iff _).2 ⟨a1, a2, a3, a4, ?_, a6⟩
  dsimp only
  refine Table.All.mapVals a5 fun k b hb' => ?_
  cases e : blocks.get? k with
  | none => exact hb'
  | some y => exact (hb hc).get? e

theorem State.publish_steady {s : State} (h : s.Steady C N L) (u : CutUnit) : (s.publish u).Steady C N L := by
  unfold State.publish
  split
  · exact h
  · next p _ =>
    extract_lets ws bs maps waves saved mine xs st
    have hsaved : C → Table.All Block.Canonical saved := by
      intro hc e he
      obtain ⟨x, hx, rfl⟩ := List.mem_map.1 he
      obtain ⟨b, -, hb⟩ := List.mem_filterMap.1 hx
      obtain ⟨y, hy, rfl⟩ := Option.map_eq_some_iff.1 hb
      exact s.canonical_savedBlock ((h.2.2 hc).block hy)
    have hw := State.writeBodies_steady (State.asSaved_steady (State.openCairns_steady h u) waves hsaved) maps u p
    split
    next s' bodies e =>
    extract_lets n v s0 s1 level s2 s3 s4 s5 cut
    have h2 : s2.Steady C N L := State.modPart_steady
      (State.steady_foldl (fun _ _ hs => State.endEasements_steady hs _ _) (State.steady_fst e hw) _) _ _
    have h3 : s3.Steady C N L := by
      refine State.steady_of_canonical h2 rfl rfl fun hc => ?_
      obtain ⟨a1, a2, a3, a4, a5, a6, a7, a8⟩ := (State.memoryCanonical_iff _).1 (h2.2.2 hc)
      have hr := (h.2.2 hc).regions
      exact ⟨a1, a2, a3, a4, a5.filter _, a6.filter _, a7,
        a8.mapIf fun _ _ => ⟨hsaved hc, hr.filter _⟩⟩
    have h4 : s4.Steady C N L := State.steady_foldl (fun _ _ hs => State.physWord_steady hs _ _ _) h3 _
    have h5 : s5.Steady C N L :=
      State.checkBound_steady (State.setCairns_steady (State.dropPrivateCopies_steady h4 _) _ _) _ _
    split
    · exact State.dropUnit_steady h5 _
    · exact h5

theorem State.dropSave_steady {s : State} (h : s.Steady C N L) (u : CutUnit) : (s.dropSave u).Steady C N L := by
  unfold State.dropSave
  grind [State.modBlock_steady, State.mapWaves_steady, State.freeUnit_steady, State.modFunc_steady,
    Block.Canonical.of_halves, State.steady_foldl]

theorem State.writeList_steady {s : State} (h : s.Steady C N L) (f a : Nat) (l : List Nat) :
    (s.writeList f a l).1.Steady C N L := by
  induction l generalizing s a with
  | nil => exact h
  | cons x rest ih =>
    have hw := State.writeFor_steady h f a 8 x
    unfold State.writeList
    split
    · next e => exact ih (State.steady_fst e hw) _
    · next e => exact State.steady_fst e hw

theorem State.publishList_steady {s : State} (h : s.Steady C N L) (k : Nat × Nat × Nat) : (s.publishList k).Steady C N L := by
  obtain ⟨f, q, n⟩ := k
  unfold State.publishList
  extract_lets units total s0 s1 left addrs s2
  have h0 : s0.Steady C N L := State.steady_foldl (fun _ _ hs => State.dropSave_steady hs _) h _
  have h1 : s1.Steady C N L := by
    refine State.steady_foldl (fun _ _ hs => ?_) h _
    split
    · exact State.freeUnit_steady hs _
    · exact State.publish_steady hs _
  have h2 : s2.Steady C N L := State.steady_cuts h1 fun hc => hc.mapIf
  dsimp only
  split
  · exact h
  · next r _ =>
    split
    · exact State.retire_steady (State.modFunc_steady h0 _ _) _ _ _ _ _ _
    · have hw := State.writeList_steady h2 f (r.dword 0x10) (addrs.length :: addrs)
      split
      · next e => exact State.retire_steady (State.steady_fst e hw) _ _ _ _ _ _
      · next e => exact State.retire_steady (State.steady_fst e hw) _ _ _ _ _ _

theorem execCairnPublish_steady {s : State} (h : s.Steady C N L) (unit : Nat) :
    OutSteady C N L (execCairnPublish unit s) := by
  unfold execCairnPublish
  grind [State.publishList_steady, State.publish_steady, OutSteady.next]

/-! ## Resumption and traps -/

theorem State.putWave_steady {s : State} (h : s.Steady C N L) (u : CutUnit) (places : List LoadPlace)
    (set k : Nat) (w : Wave) : (s.putWave u places set k w).Steady C N L := by
  unfold State.putWave
  grind [State.steady_with, State.funcBytes_steady]

theorem State.restore_steady {s : State} (h : s.Steady C N L) {u : CutUnit} (hu : C → u.Canonical) (g : Grid)
    (places : List LoadPlace) : (s.restore u g places).Steady C N L := by
  unfold State.restore
  extract_lets setsz bad v setOf s1 s2 s3 s4 s5 s6
  have hv : C → v.Canonical := fun hc => s.canonical_readBack (hu hc) setsz
  have h1 : s1.Steady C N L := State.setCairns_steady h _ _
  have h2 : s2.Steady C N L := by
    refine State.steady_foldl_mem (fun s e he hs => ?_) h1
    refine State.setBlock_steady hs _ fun hc y hy => ?_
    obtain ⟨x, hx, rfl⟩ := List.mem_map.1 hy
    exact (hv hc).1 e he x hx
  have h3 : s3.Steady C N L := State.steady_foldl (fun _ _ hs => State.putWave_steady hs _ _ _ _ _) h2 _
  have h4 : s4.Steady C N L := by
    refine State.steady_foldl_mem (fun s e he hs => ?_) h3
    refine State.steady_of_canonical hs rfl rfl fun hc => ?_
    obtain ⟨a1, a2, a3, a4, a5, a6, a7⟩ := (State.memoryCanonical_iff _).1 (hs.2.2 hc)
    exact ⟨a1, a2, a3, a4, a5, a6.set _ ((hv hc).2 e he), a7⟩
  have h5 : s5.Steady C N L := by
    refine State.steady_foldl (fun s x hs => ?_) h4 _
    extract_lets i y t
    have ht : t.Steady C N L := State.steady_mem hs
    split
    · exact ht
    · exact State.addEases_steady ht _ _
  have h6 : s6.Steady C N L := State.releaseBarwt_steady (State.freeUnit_steady h5 _)
  split
  · exact State.steady_foldl (fun _ _ hs => State.fatalBlock_steady hs _ _ _) h6 _
  · exact h6

theorem execCairnResume_steady {s : State} (h : s.Steady C N L) (unit : Nat) : OutSteady C N L (execCairnResume unit s) := by
  refine OutSteady.next ?_
  split
  · exact h
  · next u hu =>
    split
    · exact h
    · split
      · exact h
      · split
        · exact h
        · exact State.tookRooms_steady
            (State.restore_steady (State.steady_mem h) (fun hc => (h.2.2 hc).cuts.find? hu) _ _)

theorem execCtxsv_steady {s : State} (h : s.Steady C N L) (d a : VCode) : OutSteady C N L (execCtxsv d a s) := by
  refine issueChecked_steady h _ fun c => ?_
  extract_lets hold put
  split
  · exact State.modWave_steady h _ _
  · split
    · trivial
    · next e => exact State.modWave_steady (State.beginSave_steady h _ _ _ _ _ _ e) _ _

theorem State.releaseUnit_steady {s : State} (h : s.Steady C N L) (u : CutUnit) : (s.releaseUnit u).Steady C N L :=
  State.setCairns_steady (State.steady_cuts h fun hc => hc.mapIf) u _

theorem execCtxrs_steady {s : State} (h : s.Steady C N L) (d a : VCode) : OutSteady C N L (execCtxrs d a s) := by
  unfold execCtxrs
  grind [issueChecked_steady, State.modWave_steady, State.releaseUnit_steady, Res.Steady]

theorem State.releaseBlock_steady {s : State} (h : s.Steady C N L) (b : Nat) : (s.releaseBlock b).Steady C N L :=
  State.mapWaves_steady (State.modBlock_steady h ..) ..

theorem State.ackFault_steady {s : State} (h : s.Steady C N L) (f seq : Nat) : (s.ackFault f seq).Steady C N L := by
  unfold State.ackFault
  split
  · exact h
  · extract_lets s1
    have h1 : s1.Steady C N L := State.modFunc_steady h _ _
    split
    · split
      · split
        · exact State.releaseUnit_steady h1 _
        · exact State.steady_cuts h1 fun hc => hc.mapIf
      · exact h1
    · exact State.releaseBlock_steady h1 _
    · exact h1

theorem State.postFault_steady {s : State} (h : s.Steady C N L) (f desc : Nat) (t : TrapDue)
    (unit block : Option Nat) : (s.postFault f desc t unit block).Steady C N L := State.steady_mem h

theorem State.retryTrap_steady {s : State} (h : s.Steady C N L) (k : Nat) (w : Wave) (t : TrapDue) :
    (s.retryTrap k w t).Steady C N L := by
  have hw := State.writeFrame_steady h k t
  unfold State.retryTrap
  split
  · next e => exact State.fatal_steady (State.steady_fst e hw) _ _
  · next s1 e =>
    extract_lets s2 park seq
    have h2 : s2.Steady C N L := State.modWave_steady (State.steady_fst e hw) _ _
    have hp : (park s2).Steady C N L := State.postFault_steady (State.modBlock_steady h2 _) _ _ _ _ _
    split
    · split
      · exact State.postFault_steady (State.steady_cuts h2 fun hc => hc.mapIf) _ _ _ _ _
      · exact hp
    · split
      · next e => exact State.postFault_steady (State.beginSave_steady h2 _ _ _ _ _ _ e) _ _ _ _ _
      · exact hp

theorem execTrapDelivery_steady {s : State} (h : s.Steady C N L) (k : Nat) :
    OutSteady C N L (execTrapDelivery k s) := by
  unfold execTrapDelivery
  grind [State.modWave_steady, State.retryTrap_steady, State.takeTrap_steady, OutSteady.next]

theorem execFeWaitTimeout_steady {s : State} (h : s.Steady C N L) (who : FeWaiter) :
    OutSteady C N L (execFeWaitTimeout who s) := by
  unfold execFeWaitTimeout
  grind [State.unitTimeout_steady, State.tileTimeout_steady, State.lostRecord_steady, State.stopXfer_steady,
    State.stopFabric_steady, OutSteady.next]

theorem execSpecialComplete_steady {s : State} (h : s.Steady C N L) (k op : Nat) :
    OutSteady C N L (execSpecialComplete k op s) := by
  unfold execSpecialComplete
  grind [State.settle_steady, State.modWave_steady, OutSteady.next]

/-! ## Privileged words -/

theorem execWkill_steady {s : State} (h : s.Steady C N L) (mode : BitVec 1) : OutSteady C N L (execWkill mode s) := by
  unfold execWkill
  grind [issueChecked_steady, State.fatal_steady, State.settle_steady, State.noteEnd_steady, State.modWave_steady,
    Res.Steady]

theorem execWfreeze_steady {s : State} (h : s.Steady C N L) (d a : VCode) : OutSteady C N L (execWfreeze d a s) := by
  unfold execWfreeze
  grind [issueChecked_steady, State.modWave_steady, State.freezeWave_steady, Res.Steady]

theorem State.invalidate_steady {s : State} (h : s.Steady C N L) (f lo hi : Nat) :
    (s.invalidate f lo hi).Steady C N L := State.steady_mem h

theorem State.voidWalks_steady {s : State} (h : s.Steady C N L) (f : Nat) : (s.voidWalks f).Steady C N L :=
  State.steady_mem h

theorem execTlbinv_steady {s : State} (h : s.Steady C N L) (a : VCode) (size : BitVec 8) :
    OutSteady C N L (execTlbinv a size s) := by
  unfold execTlbinv
  grind [issueChecked_steady, State.invalidate_steady, State.modWave_steady, State.voidWalks_steady, Res.Steady]

theorem execEaseq_steady {s : State} (h : s.Steady C N L) (d a : VCode) : OutSteady C N L (execEaseq d a s) :=
  issueChecked_steady h _ fun _ => h

theorem execCntsel_steady {s : State} (h : s.Steady C N L) (ctr : BitVec 3) (a : VCode) :
    OutSteady C N L (execCntsel ctr a s) := issueChecked_steady h _ fun _ => h

theorem execCntrd_steady {s : State} (h : s.Steady C N L) (d : VCode) (ctr : BitVec 3) :
    OutSteady C N L (execCntrd d ctr s) := issueChecked_steady h _ fun _ => h

theorem execLaunch_steady {s : State} (h : s.Steady C N L) (d a : VCode) : OutSteady C N L (execLaunch d a s) := by
  refine issueChecked_steady h _ fun c => ?_
  extract_lets addr fail s1
  have hf : ∀ (s : State) (cause : Cause) (m : Bool), s.Steady C N L → (fail s cause m).Steady C N L :=
    fun _ _ _ hs => State.modWave_steady hs _ _
  split
  · exact h
  · split
    · exact hf _ _ _ h
    · split
      · exact hf _ _ _ h
      · refine Ctx.afterQuantum_steady h c ?_
        split
        · exact Ctx.stallForCommit_steady h c
        · split
          · trivial
          · have h1 : s1.Steady C N L := State.modWave_steady h _ _
            have hp := State.enginePlace_steady h1 globalDecoder c.w.func c.w.priv false addr 64
            split
            · next e =>
              refine hf _ _ _ ?_
              split
              · exact State.waveViolation_steady (State.steady_fst e hp) _ _
              · exact State.steady_fst e hp
            · next s2 l e =>
              have h2 : s2.Steady C N L := State.steady_fst e hp
              split
              · exact hf _ _ _ h2
              · extract_lets words
                split
                next wgt ceil _ =>
                have hg := State.startGrid_steady h2 c.w.func true words wgt ceil .device false
                split
                · next e => exact State.modWave_steady (State.steady_fst e hg) _ _
                · next e => exact State.modWave_steady (State.steady_fst e hg) _ _

/-! ## Rounds -/

theorem State.modDet_steady {s : State} (h : s.Steady C N L) (gid : Nat) (f : DetGrid → DetGrid) :
    (s.modDet gid f).Steady C N L := State.steady_mem h

theorem State.popBuffer_steady {s : State} (h : s.Steady C N L) (k : Nat) : (s.popBuffer k).Steady C N L :=
  State.steady_mem h

theorem State.commitUnit_steady {s : State} (h : s.Steady C N L) (gid k : Nat) (o : MemOp) (u : MemUnit) :
    (s.commitUnit gid k o u).1.Steady C N L := by
  unfold State.commitUnit
  grind [State.modWave_steady, State.performUnit_steady, State.tagWrite_steady, State.serveWaiters_steady,
    State.modDet_steady]

theorem State.commitUnits_steady {s : State} (h : s.Steady C N L) (gid k : Nat) (o : MemOp) (l : List MemUnit) :
    (s.commitUnits gid k o l).1.Steady C N L := by
  induction l generalizing s with
  | nil => exact h
  | cons u rest ih => exact ih (State.commitUnit_steady h gid k o u)

theorem State.commitMem_steady {s : State} (h : s.Steady C N L) (gid k : Nat) (o : MemOp) :
    (s.commitMem gid k o).Steady C N L := by
  unfold State.commitMem
  grind [State.commitUnits_steady, State.modWave_steady, State.sendTasks_steady, State.sendTokens_steady]

theorem State.commitEngine_steady {s : State} (h : s.Steady C N L) (id : Nat) {t : State}
    (e : s.commitEngine id = some t) : t.Steady C N L := by
  unfold State.commitEngine at e
  grind [State.modXfer_steady, State.openChan_steady, State.addEases_steady, State.modFab_steady]

theorem State.commitNext_steady {s : State} (h : s.Steady C N L) (gid : Nat) {t : State} (e : s.commitNext gid = some t) :
    t.Steady C N L := by
  have hp := fun k => State.popBuffer_steady h k
  unfold State.commitNext at e
  split at e
  · cases e
  · split at e
    · cases e
    · next k w _ =>
      split at e
      · cases e
      · grind -lia -linarith -ring [State.commitMem_steady]
      · obtain ⟨u, hu, rfl⟩ := Option.map_eq_some_iff.1 e
        exact State.popBuffer_steady (State.commitEngine_steady h _ hu) k
      · cases e
        exact State.cancelChannel_steady (hp k) _ _
      · cases e
        exact State.modWave_steady (hp k) _ _
      · cases e
        exact State.modDet_steady (hp k) _ _

theorem State.commitSome_steady {s : State} (h : s.Steady C N L) (gid n : Nat) : (s.commitSome gid n).Steady C N L := by
  induction n generalizing s with
  | zero => exact h
  | succ n ih =>
    unfold State.commitSome
    split
    · next e => exact ih (State.commitNext_steady h _ e)
    · exact h

theorem State.runTops_steady {s : State} (h : s.Steady C N L) (gid : Nat) : (s.runTops gid).Steady C N L :=
  State.steady_foldl (fun _ _ hs => State.runTop_steady hs ..) h _

theorem State.retest_steady {s : State} (h : s.Steady C N L) (k : Nat) : (s.retest k).Steady C N L :=
  State.steady_mem h

theorem State.emitAll_steady {s : State} (h : s.Steady C N L) (gid n : Nat) : (s.emitAll gid n).Steady C N L := by
  induction n generalizing s with
  | zero => exact h
  | succ n ih =>
    unfold State.emitAll
    split
    · exact h
    · exact ih (State.emitTasks_steady h _ _ _)

theorem State.serveLoads_steady {s : State} (h : s.Steady C N L) (gid : Nat) : (s.serveLoads gid).Steady C N L := by
  unfold State.serveLoads
  grind [State.retireMem_steady, State.performUnits_steady, State.steady_foldl]

theorem State.completeBarriers_steady {s : State} (h : s.Steady C N L) (gid : Nat) :
    (s.completeBarriers gid).Steady C N L := by
  unfold State.completeBarriers
  grind [State.completeBarrier_steady, State.steady_foldl]

theorem State.timeoutCommits_steady {s : State} (h : s.Steady C N L) (gid : Nat) :
    (s.timeoutCommits gid).Steady C N L := by
  unfold State.timeoutCommits
  grind [State.unitTimeout_steady, State.lostRecord_steady, State.stopXfer_steady, State.stopFabric_steady,
    State.steady_foldl]

theorem State.timeoutWave_steady {s : State} (h : s.Steady C N L) (k : Nat) (w : Wave) :
    (s.timeoutWave k w).Steady C N L := by
  unfold State.timeoutWave
  grind [State.unitTimeout_steady, State.tileTimeout_steady, State.modWave_steady, State.steady_foldl]

theorem State.closeRound_steady {s : State} (h : s.Steady C N L) (gid : Nat) : (s.closeRound gid).Steady C N L := by
  unfold State.closeRound
  grind [State.completeBarriers_steady, State.runTops_steady, State.serveLoads_steady, State.retest_steady,
    State.emitAll_steady, State.timeoutWave_steady, State.settle_steady, State.modDet_steady, State.steady_foldl]

theorem State.openRound_steady {s : State} (h : s.Steady C N L) (gid : Nat) : (s.openRound gid).Steady C N L :=
  State.steady_foldl (fun _ _ hs => State.modWave_steady hs ..) h _

theorem execRoundEnd_steady {s : State} (h : s.Steady C N L) (grid : Nat) :
    OutSteady C N L (execRoundEnd grid s) := by
  unfold execRoundEnd
  grind [State.openRound_steady, State.commitSome_steady, State.closeRound_steady, State.timeoutCommits_steady,
    OutSteady.next]

/-! ## Command records -/

theorem execQnotifyWrite_steady {s : State} (h : s.Steady C N L) (f q : Nat) (v : DWord) :
    OutSteady C N L (execQnotifyWrite f q v s) := by
  unfold execQnotifyWrite
  grind [State.modQueue_steady, OutSteady.next]

theorem State.recordWords_steady {s : State} (h : s.Steady C N L) (f : Nat) (x : Queue) (n : Nat) :
    (s.recordWords f x n).1.Steady C N L := by
  unfold State.recordWords
  grind [State.wordsFor_steady, State.hostFault_steady]

theorem State.enterRecord_steady {s : State} (h : s.Steady C N L) (f q : Nat) (r : Rec) (fault : Option Cause) :
    (s.enterRecord f q r fault).Steady C N L := by
  unfold State.enterRecord
  grind [State.modQueue_steady, State.retire_steady]

theorem State.running_steady {s : State} (h : s.Steady C N L) (f q n : Nat) : (s.running f q n).Steady C N L :=
  State.steady_mem h

theorem execLaunchGrid_steady {s : State} (h : s.Steady C N L) (f q n : Nat) :
    OutSteady C N L (execLaunchGrid f q n s) := by
  unfold execLaunchGrid
  grind [State.startGrid_steady, State.retire_steady, State.running_steady, OutSteady.next]

theorem State.startChain_steady {s : State} (h : s.Steady C N L) (f head since : Nat) (o : Origin) {t : State}
    (e : s.startChain f head since o = some t) : t.Steady C N L := by
  obtain ⟨c, -, e⟩ := List.exists_of_findSome?_eq_some e
  split at e
  · cases e
    exact State.steady_mem h
  · cases e

theorem execCopyChain_steady {s : State} (h : s.Steady C N L) (f q n : Nat) :
    OutSteady C N L (execCopyChain f q n s) := by
  unfold execCopyChain
  grind [State.startChain_steady, State.running_steady, OutSteady.next]

theorem State.readBundle_steady {s : State} (h : s.Steady C N L) (f list count : Nat) :
    (s.readBundle f list count).1.Steady C N L := by
  unfold State.readBundle
  grind [State.wordsFor_steady]

theorem State.startParts_steady {s : State} (h : s.Steady C N L) (f wgt ceil since : Nat) (o : Nat → Origin) (i : Nat)
    (l : List SubLaunch) {t : State} (e : s.startParts f wgt ceil since o i l = some t) : t.Steady C N L := by
  induction l generalizing s i with
  | nil =>
    cases e
    exact h
  | cons x rest ih =>
    cases x with
    | grid d => exact ih (State.startGrid_steady h f true d wgt ceil (o i) false) _ e
    | chain head =>
      unfold State.startParts at e
      split at e
      · cases e
      · next e1 => exact ih (State.startChain_steady h _ _ _ _ e1) _ e

theorem execBundle_steady {s : State} (h : s.Steady C N L) (f q n : Nat) : OutSteady C N L (execBundle f q n s) := by
  refine OutSteady.next ?_
  split
  · exact h
  · next r _ =>
    have hr := State.readBundle_steady h f (r.dword 0x10) (r.word 0x18)
    split
    · next e => exact State.retire_steady (State.steady_fst e hr) _ _ _ _ _ _
    · next e => exact State.retire_steady (State.steady_fst e hr) _ _ _ _ _ _
    · next t l e =>
      split
      · exact h
      · split
        · exact h
        · next e2 =>
          exact State.modRec_steady (State.running_steady (State.startParts_steady (State.steady_fst e hr) _ _ _ _ _ _ _ e2)
            _ _ _) _ _ _ _

theorem State.wordsAt_steady {s : State} (h : s.Steady C N L) (f : Nat) (l : List Nat) : (s.wordsAt f l).1.Steady C N L := by
  induction l generalizing s with
  | nil => exact h
  | cons a rest ih =>
    have hr := State.readFor_steady h f a 4
    have hw := ih hr
    unfold State.wordsAt
    grind -lia -linarith -ring

theorem State.readImage_steady {s : State} (h : s.Steady C N L) (f base : Nat) :
    (s.readImage f base).1.Steady C N L := by
  unfold State.readImage
  grind [State.wordsFor_steady, State.wordsAt_steady, State.steady_fst]

theorem State.dropImage_steady {s : State} (h : s.Steady C N L) (part f base size : Nat) :
    (s.dropImage part f base size).Steady C N L := State.steady_mem h

theorem execModload_steady {s : State} (h : s.Steady C N L) (f q n : Nat) : OutSteady C N L (execModload f q n s) := by
  refine OutSteady.next ?_
  split
  · next r pk _ _ =>
    extract_lets base
    split
    · exact State.retire_steady h _ _ _ _ _ _
    · have hr := State.readImage_steady h f base
      split
      · next e => exact State.retire_steady (State.steady_fst e hr) _ _ _ _ _ _
      · next s1 hd kernels e =>
        have h1 : s1.Steady C N L := State.steady_fst e hr
        split
        · exact State.retire_steady h1 _ _ _ _ _ _
        · extract_lets used handle x m s2
          split
          · exact State.retire_steady h1 _ _ _ _ _ _
          · exact State.retire_steady (State.dropImage_steady (State.modPart_steady h1 _ _) _ _ _ _) _ _ _ _ _ _
  · exact h

theorem execModunload_steady {s : State} (h : s.Steady C N L) (f q n : Nat) :
    OutSteady C N L (execModunload f q n s) := by
  unfold execModunload
  grind [State.retire_steady, State.modPart_steady, State.running_steady, OutSteady.next]

theorem State.eraseModule_steady {s : State} (h : s.Steady C N L) (part handle : Nat) :
    (s.eraseModule part handle).Steady C N L := by
  unfold State.eraseModule
  grind [State.modPart_steady, State.dropImage_steady]

theorem execModuleRelease_steady {s : State} (h : s.Steady C N L) (part handle : Nat) :
    OutSteady C N L (execModuleRelease part handle s) := by
  unfold execModuleRelease
  grind [State.retire_steady, State.eraseModule_steady, State.steady_foldl, OutSteady.next]

theorem State.signalDone_steady {s : State} (h : s.Steady C N L) (f q n : Nat) (r : Rec) :
    (s.signalDone f q n r).Steady C N L := by
  unfold State.signalDone
  grind [State.retire_steady, State.raiseMsi_steady]

theorem execSignal_steady {s : State} (h : s.Steady C N L) (f q n : Nat) : OutSteady C N L (execSignal f q n s) := by
  unfold execSignal
  grind [State.writeRing_steady, State.retire_steady, State.signalDone_steady, State.modRec_steady, OutSteady.next]

theorem State.waitRead_steady {s : State} (h : s.Steady C N L) (f q n : Nat) (r : Rec) (stage : RecStage) :
    (s.waitRead f q n r stage).Steady C N L := by
  unfold State.waitRead
  grind [State.readRing_steady, State.retire_steady, State.modRec_steady]

theorem execWaitValue_steady {s : State} (h : s.Steady C N L) (f q n : Nat) :
    OutSteady C N L (execWaitValue f q n s) := by
  unfold execWaitValue
  grind [State.waitRead_steady, OutSteady.next]

theorem execWaitValuePoll_steady {s : State} (h : s.Steady C N L) (f q n : Nat) :
    OutSteady C N L (execWaitValuePoll f q n s) := by
  unfold execWaitValuePoll
  grind [State.waitRead_steady, OutSteady.next]

theorem execWaitValueTimeout_steady {s : State} (h : s.Steady C N L) (f q n : Nat) :
    OutSteady C N L (execWaitValueTimeout f q n s) := by
  unfold execWaitValueTimeout
  grind [State.retire_steady, OutSteady.next]

theorem State.saveUnits_steady {s : State} (h : s.Steady C N L) (reason : Nat) (listOf : Nat × Nat × Nat) (l : List (List Nat))
    {t : State} (e : s.saveUnits reason listOf l = some t) : t.Steady C N L := by
  induction l generalizing s with
  | nil =>
    cases e
    exact h
  | cons u rest ih =>
    unfold State.saveUnits at e
    split at e
    · cases e
    · next e1 => exact ih (State.beginSave_steady h _ _ _ _ _ _ e1) e

theorem execCtxSave_steady {s : State} (h : s.Steady C N L) (f q n : Nat) : OutSteady C N L (execCtxSave f q n s) := by
  refine OutSteady.next ?_
  split
  · exact h
  · split
    · exact h
    · extract_lets s1
      have h1 : s1.Steady C N L := State.modFunc_steady h _ _
      split
      · exact h1
      · next t e =>
        have ht := State.running_steady (State.joinSaves_steady (State.saveUnits_steady h1 _ _ _ e) f
          (g := CutUnit.onList (f, q, n))) f q n
        dsimp only
        split
        · exact State.publishList_steady ht _
        · exact ht

theorem State.dwordsFor_steady {s : State} (h : s.Steady C N L) (f a n : Nat) : (s.dwordsFor f a n).1.Steady C N L := by
  induction n generalizing s a with
  | zero => exact h
  | succ n ih =>
    have hr := State.readFor_steady h f a 8
    have hw := ih hr (a + 8)
    unfold State.dwordsFor
    grind -lia -linarith -ring

theorem State.publishCairns_steady {s : State} (h : s.Steady C N L) (l : List (Nat × Nat)) : (s.publishCairns l).Steady C N L := by
  refine State.steady_foldl (fun s u hs => ?_) h _
  extract_lets mine loose
  split
  · exact hs
  · split
    · exact State.releaseUnit_steady hs _
    · split
      · exact hs
      · exact State.steady_cuts (State.steady_foldl (fun _ _ hs => State.physWord_steady hs _ _ _) hs _) fun hc => hc.mapIf

theorem execCtxRestore_steady {s : State} (h : s.Steady C N L) (f q n : Nat) : OutSteady C N L (execCtxRestore f q n s) := by
  refine OutSteady.next ?_
  split
  · exact h
  · next r _ =>
    have hr := State.readFor_steady h f (r.dword 0x10) 8
    split
    · next e => exact State.retire_steady (State.steady_fst e hr) _ _ _ _ _ _
    · next s1 count e =>
      have hd := State.dwordsFor_steady (State.steady_fst e hr) f (r.dword 0x10 + 8) count
      split
      · next e => exact State.retire_steady (State.steady_fst e hd) _ _ _ _ _ _
      · next s2 l e =>
        have h2 : s2.Steady C N L := State.steady_fst e hd
        dsimp only
        split
        · exact State.retire_steady (State.modFunc_steady (State.publishCairns_steady h2 _) _ _) _ _ _ _ _ _
        · exact State.retire_steady h2 _ _ _ _ _ _

theorem State.dropCtx_steady {s : State} (h : s.Steady C N L) (k : Nat × Nat × Nat) (opc : Nat) :
    (s.dropCtx k opc).Steady C N L := by
  unfold State.dropCtx
  grind [State.dropSave_steady, State.modFunc_steady, State.steady_foldl]

theorem execCtxAbort_steady {s : State} (h : s.Steady C N L) (f q n : Nat) :
    OutSteady C N L (execCtxAbort f q n s) := by
  unfold execCtxAbort
  grind [State.retire_steady, State.dropCtx_steady, OutSteady.next]

/-! ## Plats -/

theorem State.platPlace_steady {s : State} (h : s.Steady C N L) (f va : Nat) (write : Bool) :
    (s.platPlace f va write).1.Steady C N L := by
  unfold State.platPlace
  grind [State.sendMiss_steady, State.land_steady, State.markPage_steady]

theorem State.platTake_steady {s : State} (h : s.Steady C N L) (k who va : Nat) (write : Bool) :
    (s.platTake k who va write).1.Steady C N L := by
  unfold State.platTake
  grind [State.platPlace_steady, State.modPlat_steady, State.funcViolation_steady]

theorem State.platWord_steady {s : State} (h : s.Steady C N L) (k who va : Nat) :
    (s.platWord k who va).1.Steady C N L := by
  unfold State.platWord
  grind [State.platTake_steady]

theorem State.setPlatWord_steady {s : State} (h : s.Steady C N L) (k who va x : Nat) :
    (s.setPlatWord k who va x).Steady C N L := by
  unfold State.setPlatWord
  grind [State.platTake_steady, State.storeAt_steady]

theorem State.platWords_steady {s : State} (h : s.Steady C N L) (k who va n : Nat) : (s.platWords k who va n).1.Steady C N L := by
  induction n generalizing s va with
  | zero => exact h
  | succ n ih => exact ih (State.platWord_steady h k who va) (va + 4)

theorem State.nodeRec_steady {s : State} (h : s.Steady C N L) (k i : Nat) : (s.nodeRec k i).1.Steady C N L :=
  State.platWords_steady h ..

theorem State.setNode_steady {s : State} (h : s.Steady C N L) (k i st used : Nat) :
    (s.setNode k i st used).Steady C N L := by
  unfold State.setNode
  grind [State.nodeRec_steady, State.setPlatWord_steady]

theorem State.setState_steady {s : State} (h : s.Steady C N L) (k i st : Nat) : (s.setState k i st).Steady C N L := by
  unfold State.setState
  grind [State.nodeRec_steady, State.setNode_steady]

theorem State.setFault_steady {s : State} (h : s.Steady C N L) (k i st sub : Nat) :
    (s.setFault k i st sub).Steady C N L := by
  unfold State.setFault
  grind [State.platWord_steady, State.setPlatWord_steady]

theorem State.readyNode_steady {s : State} (h : s.Steady C N L) (k i : Nat) : (s.readyNode k i).Steady C N L :=
  State.modPlat_steady (State.setState_steady h ..) ..

theorem State.entriesOf_steady {s : State} (h : s.Steady C N L) (k i : Nat) : (s.entriesOf k i).1.Steady C N L := by
  unfold State.entriesOf
  grind [State.nodeRec_steady, State.platWords_steady]

theorem State.successors_steady {s : State} (h : s.Steady C N L) (k i : Nat) : (s.successors k i).1.Steady C N L := by
  unfold State.successors
  grind [State.nodeRec_steady, State.entriesOf_steady]

theorem State.countDrop_steady {s : State} (h : s.Steady C N L) (k : Nat) : (s.countDrop k).Steady C N L := by
  unfold State.countDrop
  grind [State.platWord_steady, State.setPlatWord_steady]

theorem State.countToken_steady {s : State} (h : s.Steady C N L) (k i : Nat) : (s.countToken k i).Steady C N L := by
  unfold State.countToken
  grind [State.nodeRec_steady, State.setPlatWord_steady]

theorem State.token_steady {s : State} (h : s.Steady C N L) (k i : Nat) : (s.token k i).Steady C N L := by
  unfold State.token
  grind [State.countToken_steady, State.nodeRec_steady, State.readyNode_steady]

theorem State.deliver_steady {s : State} (h : s.Steady C N L) (k i : Nat) : (s.deliver k i).Steady C N L := by
  unfold State.deliver
  grind [State.nodeRec_steady, State.entriesOf_steady, State.countDrop_steady, State.token_steady, State.steady_foldl]

theorem State.firstFaulted_steady {s : State} (h : s.Steady C N L) (k n i : Nat) : (s.firstFaulted k n i).1.Steady C N L := by
  induction n generalizing s i with
  | zero => exact h
  | succ n ih =>
    unfold State.firstFaulted
    split
    next s1 w e =>
    have h1 : s1.Steady C N L := State.steady_fst e (State.nodeRec_steady h k i)
    split
    · exact State.platWord_steady h1 _ _ _
    · exact ih h1 _

theorem State.setRun_steady {s : State} (h : s.Steady C N L) (k : Nat) (run halt : Bool) :
    (s.setRun k run halt).Steady C N L := by
  unfold State.setRun
  grind [State.platWord_steady, State.setPlatWord_steady]

theorem State.endPlat_steady {s : State} (h : s.Steady C N L) (k : Nat) : (s.endPlat k).Steady C N L := by
  unfold State.endPlat
  grind [State.steady_with, State.setRun_steady, State.firstFaulted_steady, State.originEnded_steady]

theorem State.settlePlat_steady {cut : State → Nat → State} (hcut : ∀ s i, s.Steady C N L → (cut s i).Steady C N L) {s : State}
    (h : s.Steady C N L) (k : Nat) : (s.settlePlat cut k).Steady C N L := by
  unfold State.settlePlat
  split
  · exact h
  · next p _ =>
    extract_lets s1 s2
    have h1 : s1.Steady C N L := by
      unfold s1
      split
      · exact State.endPlat_steady h _
      · exact h
    have h2 : s2.Steady C N L := State.steady_foldl hcut h1 _
    split
    · exact h1
    · exact State.originEnded_steady (State.steady_mem h2) _ _ _ _

theorem State.cutPayload_steady {s : State} (h : s.Steady C N L) (depth k node : Nat) :
    (State.cutPayload depth s k node).Steady C N L := by
  induction depth generalizing s k node with
  | zero => exact State.cutOrigins_steady h _
  | succ depth ih =>
    unfold State.cutPayload
    extract_lets s1
    have h1 : s1.Steady C N L := State.cutOrigins_steady (State.modPlat_steady h _ _) _
    split
    · exact h1
    · next j q _ =>
      extract_lets s2 s3
      have h2 : s2.Steady C N L := by
        refine State.steady_foldl (fun s i hs => ?_) h1 _
        have hn := State.nodeRec_steady hs j i
        grind -lia -linarith -ring [State.setState_steady]
      exact State.settlePlat_steady (fun _ _ hs => ih hs _ _) (State.modPlat_steady h2 _ _) _

theorem State.cancelNode_steady {s : State} (h : s.Steady C N L) (k i st : Nat) :
    (s.cancelNode k i st).Steady C N L := by
  unfold State.cancelNode
  grind [State.cutPayload_steady, State.modPlat_steady, State.setState_steady]

theorem State.coneWalk_steady {s : State} (h : s.Steady C N L) (k fuel : Nat) (l seen c : List Nat) :
    (s.coneWalk k fuel l seen c).1.Steady C N L := by
  induction fuel generalizing s l seen c with
  | zero =>
    unfold State.coneWalk
    exact h
  | succ fuel ih =>
    cases l with
    | nil =>
      unfold State.coneWalk
      exact h
    | cons i rest =>
      unfold State.coneWalk
      split
      · exact ih h _ _ _
      · split
        next s1 w e =>
        have h1 : s1.Steady C N L := State.steady_fst e (State.nodeRec_steady h k i)
        extract_lets st
        split
        · exact ih h1 _ _ _
        · split
          next s2 c2 e2 =>
          have h2 : s2.Steady C N L := by
            split at e2
            · exact (Prod.mk.inj e2).1 ▸ h1
            · exact (Prod.mk.inj e2).1 ▸ State.cancelNode_steady h1 _ _ _
          have h3 := State.successors_steady h2 k i
          split
          next s3 nxt e3 => exact ih (State.steady_fst e3 h3) _ _ _

theorem State.cancelCone_steady {s : State} (h : s.Steady C N L) (k i : Nat) : (s.cancelCone k i).1.Steady C N L := by
  unfold State.cancelCone
  grind [State.successors_steady, State.coneWalk_steady]

theorem State.faultNode_steady {s : State} (h : s.Steady C N L) (k i st sub : Nat) :
    (s.faultNode k i st sub).Steady C N L := by
  unfold State.faultNode
  grind [State.cancelCone_steady, State.setState_steady, State.setFault_steady]

theorem State.settled_steady {s : State} (h : s.Steady C N L) (k : Nat) : (s.settled k).Steady C N L := by
  unfold State.settled
  grind [State.settlePlat_steady, State.cutPayload_steady]

theorem State.platHeader_steady {s : State} (h : s.Steady C N L) (f va n : Nat) : (s.platHeader f va n).1.Steady C N L := by
  induction n generalizing s va with
  | zero => exact h
  | succ n ih =>
    have hr := State.platPlace_steady h f va false
    have hw := ih hr (va + 4)
    unfold State.platHeader
    grind -lia -linarith -ring [State.funcViolation_steady]

theorem State.startPlat_steady {s : State} (h : s.Steady C N L) (f va gen nnode wgt : Nat) (o : Origin)
    (depth : Nat) : (s.startPlat f va gen nnode wgt o depth).Steady C N L := by
  unfold State.startPlat
  grind [State.steady_with, State.setRun_steady, State.setPlatWord_steady, State.nodeRec_steady, State.modPlat_steady,
    State.setNode_steady, State.settled_steady, State.steady_foldl]

theorem State.seekPlat_steady {s : State} (h : s.Steady C N L) (a : PlatAsker) : (s.seekPlat a).Steady C N L := by
  unfold State.seekPlat
  grind [State.steady_with]

theorem State.foundPlat_steady {s : State} (h : s.Steady C N L) (a : PlatAsker) : (s.foundPlat a).Steady C N L :=
  State.steady_mem h

theorem execRecordStart_steady {s : State} (h : s.Steady C N L) (f q : Nat) :
    OutSteady C N L (execRecordStart f q s) := by
  unfold execRecordStart
  grind [State.recordWords_steady, State.enterRecord_steady, State.foundPlat_steady, State.seekPlat_steady,
    OutSteady.next]

theorem execRunPlat_steady {s : State} (h : s.Steady C N L) (f q n : Nat) :
    OutSteady C N L (execRunPlat f q n s) := by
  unfold execRunPlat
  grind [State.platHeader_steady, State.retire_steady, State.startPlat_steady, State.running_steady, OutSteady.next]

theorem State.startNode_steady {s : State} (h : s.Steady C N L) (k i : Nat) (w : List Nat) : (s.startNode k i w).1.Steady C N L := by
  have h1 := fun f va n => State.wordsFor_steady h f va n
  have h2 := fun f a b => State.readBundle_steady h f a b
  have h3 := fun f va n => State.platHeader_steady h f va n
  have h4 := fun f a n x => State.writeFor_steady h f a n x
  have h5 := fun f a n => State.readFor_steady h f a n
  unfold State.startNode
  grind -lia -linarith -ring [State.startGrid_steady, State.startParts_steady, State.startChain_steady, State.steady_fst]

theorem State.enterNode_steady {s : State} (h : s.Steady C N L) (k i : Nat) (w : List Nat) (outcome : Bool) (ended : Option (Nat × Nat))
    (parts : Nat) : (s.enterNode k i w outcome ended parts).Steady C N L := by
  unfold State.enterNode
  extract_lets kind x s1 p
  have h1 : s1.Steady C N L := State.modPlat_steady (State.setState_steady (State.foundPlat_steady h _) _ _ _) _ _
  have h2 := State.platHeader_steady h1 p.func (nodeLong w 0x20) 16
  split
  · split
    · next e => exact State.startPlat_steady (State.steady_fst e h2) _ _ _ _ _ _ _
    · next e => exact State.steady_fst e h2
  · exact h1

theorem execNodeIssue_steady {s : State} (h : s.Steady C N L) (inst : Nat) : OutSteady C N L (execNodeIssue inst s) := by
  refine OutSteady.next ?_
  split
  · exact h
  · next p _ =>
    split
    · exact h
    · next i _ _ =>
      split
      · exact h
      · split
        next t w e =>
        have ht : t.Steady C N L := State.steady_fst e (State.nodeRec_steady h inst i)
        split
        · exact State.settled_steady ht _
        · have hn := State.startNode_steady ht inst i w
          split
          · extract_lets s1
            have h1 : s1.Steady C N L := State.modPlat_steady h _ _
            split
            · exact State.seekPlat_steady h1 _
            · exact h1
          · next e2 =>
            exact State.settled_steady (State.faultNode_steady (State.modPlat_steady (State.steady_fst e2 hn) _ _) _ _ _ _) _
          · next e2 => exact State.settled_steady (State.enterNode_steady (State.steady_fst e2 hn) _ _ _ _ _ _) _

theorem State.dropPayload_steady {s : State} (h : s.Steady C N L) (k i : Nat) : (s.dropPayload k i).Steady C N L :=
  State.steady_mem h

theorem State.nodeDone_steady {s : State} (h : s.Steady C N L) (k i : Nat) : (s.nodeDone k i).Steady C N L := by
  unfold State.nodeDone
  grind [State.deliver_steady, State.setState_steady, State.dropPayload_steady]

theorem State.haltReport_steady {s : State} (h : s.Steady C N L) (p : PlatInst) (x : ReplicaWait) :
    (s.haltReport p x).Steady C N L := State.steady_mem h

theorem State.haltPlat_steady {s : State} (h : s.Steady C N L) (k : Nat) (x : ReplicaWait) :
    (s.haltPlat k x).Steady C N L := by
  unfold State.haltPlat
  grind [State.haltReport_steady, State.setRun_steady, State.settled_steady, State.modPlat_steady]

theorem State.compareReplicas_steady {s : State} (h : s.Steady C N L) (k : Nat) (x : ReplicaWait) :
    (s.compareReplicas k x).Steady C N L := by
  unfold State.compareReplicas
  grind [State.haltPlat_steady, State.settled_steady, State.nodeDone_steady, State.modPlat_steady]

theorem State.sendReplica_steady {s : State} (h : s.Steady C N L) (p : PlatInst) (node : Nat)
    (digest : List Byte) (d : BitVec 16) : (s.sendReplica p node digest d).Steady C N L := State.steady_mem h

theorem State.beginReplicas_steady {s : State} (h : s.Steady C N L) (k i : Nat) (digest : List Byte) :
    (s.beginReplicas k i digest).Steady C N L := by
  unfold State.beginReplicas
  grind [State.steady_with, State.sendReplica_steady, State.compareReplicas_steady, State.modPlat_steady,
    State.steady_foldl]

theorem execNodeComplete_steady {s : State} (h : s.Steady C N L) (inst node : Nat) :
    OutSteady C N L (execNodeComplete inst node s) := by
  unfold execNodeComplete
  grind [State.settled_steady, State.dropPayload_steady, State.applied_steady, State.nodeRec_steady,
    State.nodeDone_steady, State.beginReplicas_steady, OutSteady.next]

theorem execNodeFault_steady {s : State} (h : s.Steady C N L) (inst node : Nat) : OutSteady C N L (execNodeFault inst node s) := by
  refine OutSteady.next ?_
  split
  · exact h
  · next p x _ =>
    split
    · exact h
    · next st sub _ =>
      split
      · exact h
      · split
        next t w e =>
        have ht : t.Steady C N L := State.steady_fst e (State.nodeRec_steady (State.applied_steady h inst node) inst node)
        have hd : (t.dropPayload inst node).Steady C N L := State.dropPayload_steady ht _ _
        split
        · exact State.settled_steady ht _
        · split
          · exact h
          · extract_lets t1 used t2
            split
            · split
              next t3 c e3 =>
              have h2 : t2.Steady C N L := State.setNode_steady (State.setFault_steady hd _ _ _ _) _ _ _ _
              exact State.settled_steady (State.modPlat_steady (State.steady_fst e3 (State.cancelCone_steady h2 _ _)) _ _) _
            · exact State.settled_steady (State.faultNode_steady hd _ _ _ _) _

theorem State.resetCone_steady {s : State} (h : s.Steady C N L) (k : Nat) (c : List Nat) :
    (s.resetCone k c).Steady C N L := by
  unfold State.resetCone
  grind [State.setPlatWord_steady, State.setState_steady, State.modPlat_steady, State.steady_foldl]

theorem State.recount_steady {s : State} (h : s.Steady C N L) (k : Nat) (c : List Nat) :
    (s.recount k c).Steady C N L := by
  unfold State.recount
  grind [State.nodeRec_steady, State.entriesOf_steady, State.countToken_steady, State.steady_foldl]

theorem State.readyCone_steady {s : State} (h : s.Steady C N L) (k : Nat) (c : List Nat) :
    (s.readyCone k c).Steady C N L := by
  unfold State.readyCone
  grind [State.nodeRec_steady, State.readyNode_steady, State.steady_foldl]

theorem execNodeRearm_steady {s : State} (h : s.Steady C N L) (inst node : Nat) : OutSteady C N L (execNodeRearm inst node s) := by
  refine OutSteady.next ?_
  split
  · exact h
  · split
    · exact h
    · split
      · exact h
      · exact State.settled_steady (State.readyNode_steady (State.readyCone_steady (State.recount_steady (State.resetCone_steady
          (State.modPlat_steady h _ _) _ _) _ _) _ _) _ _) _

theorem State.strayToken_steady {s : State} (h : s.Steady C N L) (f va : Nat) : (s.strayToken f va).Steady C N L := by
  unfold State.strayToken
  grind [State.platPlace_steady, State.storeAt_steady]

theorem State.takeToken_steady {s : State} (h : s.Steady C N L) (id : Nat) (t : Token) :
    (s.takeToken id t).Steady C N L := by
  unfold State.takeToken
  grind [State.steady_with]

theorem execPlatToken_steady {s : State} (h : s.Steady C N L) (id : Nat) : OutSteady C N L (execPlatToken id s) := by
  unfold execPlatToken
  grind [State.takeToken_steady, State.strayToken_steady, State.settled_steady, State.token_steady,
    State.applied_steady, OutSteady.next]

theorem State.takeReplica_steady {s : State} (h : s.Steady C N L) (m : ReplicaMsg) :
    (s.takeReplica m).Steady C N L := by
  unfold State.takeReplica
  grind [State.steady_with, State.compareReplicas_steady, State.modPlat_steady]

theorem execReplicaMessage_steady {s : State} (h : s.Steady C N L) (m : ReplicaMsg) :
    OutSteady C N L (execReplicaMessage m s) := by
  unfold execReplicaMessage
  grind [State.takeReplica_steady, State.modEndpoint_steady, OutSteady.next]

theorem execReplicaTimeout_steady {s : State} (h : s.Steady C N L) (inst node : Nat) :
    OutSteady C N L (execReplicaTimeout inst node s) := by
  unfold execReplicaTimeout
  grind [State.haltPlat_steady, OutSteady.next]

/-! ## Host registers and functions -/

theorem State.tdispFail_steady {s : State} (h : s.Steady C N L) (f : Nat) : (s.tdispFail f).Steady C N L := by
  unfold State.tdispFail
  grind [State.postViolation_steady, State.modFunc_steady, State.freezeFunc_steady]

theorem execLockInterface_steady {s : State} (h : s.Steady C N L) (f stream : Nat) :
    OutSteady C N L (execLockInterface f stream s) := by
  unfold execLockInterface
  grind [State.modFunc_steady, OutSteady.next]

theorem execStartInterface_steady {s : State} (h : s.Steady C N L) (f : Nat) :
    OutSteady C N L (execStartInterface f s) := by
  unfold execStartInterface
  grind [State.modFunc_steady, OutSteady.next]

theorem execTdispError_steady {s : State} (h : s.Steady C N L) (f : Nat) : OutSteady C N L (execTdispError f s) :=
  OutSteady.next (State.tdispFail_steady h ..)

theorem State.writeQueue_steady {s : State} (h : s.Steady C N L) (f q : Nat) (frozen : Queue → Bool)
    (g : Queue → Queue) : (s.writeQueue f q frozen g).Steady C N L := by
  unfold State.writeQueue
  grind [State.tdispFail_steady, State.modQueue_steady]

theorem State.writeMsix_steady {s : State} (h : s.Steady C N L) (f n : Nat) (v : DWord) :
    (s.writeMsix f n v).Steady C N L := by
  unfold State.writeMsix
  grind [State.tdispFail_steady, State.modFunc_steady, State.emit_steady]

theorem State.writeTvstat_steady {s : State} (h : s.Steady C N L) (p v : Nat) : (s.writeTvstat p v).Steady C N L := by
  unfold State.writeTvstat
  grind [State.fenceInput_steady, State.unfenceInput_steady, State.modInput_steady]

theorem State.writeRecovery_steady {s : State} (h : s.Steady C N L) (r : HostReg) (v : DWord) :
    (s.writeRecovery r v).Steady C N L := by
  unfold State.writeRecovery
  split
  · split
    · exact State.steady_with h rfl rfl
    · exact h
  · split
    · exact State.steady_mem h (upbuf := Memory.wf_setByte _ _ _)
    · exact h
  · exact h

theorem execRegisterWrite_steady {s : State} (h : s.Steady C N L) (r : HostReg) (v : DWord) :
    OutSteady C N L (execRegisterWrite r v s) := by
  unfold execRegisterWrite
  grind [State.steady_with, State.writeRecovery_steady, State.writeQueue_steady, State.modFunc_steady,
    State.writeMsix_steady, State.writeTvstat_steady, OutSteady.next]

theorem execEventRecordWrite_steady {s : State} (h : s.Steady C N L) (f : Nat) :
    OutSteady C N L (execEventRecordWrite f s) := by
  unfold execEventRecordWrite
  grind [State.hostFault_steady, State.hostStore_steady, State.modFunc_steady, State.raiseMsi_steady, OutSteady.next]

theorem execEvackWrite_steady {s : State} (h : s.Steady C N L) (f : Nat) (seq : Word) :
    OutSteady C N L (execEvackWrite f seq s) := by
  unfold execEvackWrite
  grind [State.ackFault_steady, OutSteady.next]

theorem State.saveResident_steady {s : State} (h : s.Steady C N L) (f : Nat) : (s.saveResident f).Steady C N L := by
  refine State.steady_foldl (fun s u hs => ?_) h _
  split
  · next e => exact State.beginSave_steady hs _ _ _ _ _ _ e
  · exact hs

theorem execSwitchOut_steady {s : State} (h : s.Steady C N L) (f : Nat) : OutSteady C N L (execSwitchOut f s) := by
  refine OutSteady.next ?_
  extract_lets x s1
  have h1 : s1.Steady C N L := State.saveResident_steady (State.joinSaves_steady h f) f
  split
  · exact h
  · split
    · exact State.modFunc_steady h _ _
    · split
      · exact h
      · split
        · exact h1
        · exact State.modFunc_steady h1 _ _

theorem State.noteRun_steady {s : State} (h : s.Steady C N L) (f : Nat) : (s.noteRun f).Steady C N L := by
  unfold State.noteRun
  grind [State.modPart_steady]

theorem execSwitchIn_steady {s : State} (h : s.Steady C N L) (f : Nat) : OutSteady C N L (execSwitchIn f s) := by
  refine OutSteady.next ?_
  extract_lets x s1
  have h1 : s1.Steady C N L := by
    refine State.steady_foldl (fun s u hs => ?_) h _
    split
    · exact State.releaseUnit_steady hs _
    · exact State.steady_cuts hs fun hc => hc.mapIf
  split
  · exact h
  · exact State.noteRun_steady (State.modFunc_steady h1 _ _) _

theorem State.stopFunc_steady {s : State} (h : s.Steady C N L) (f : Nat) : (s.stopFunc f).Steady C N L := by
  unfold State.stopFunc
  grind [State.steady_with, State.endEasements_steady, State.stopBlock_steady, State.modBlock_steady,
    Block.Canonical.of_halves, State.steady_foldl]

theorem State.endPlats_steady {s : State} (h : s.Steady C N L) (f : Nat) : (s.endPlats f).Steady C N L := by
  unfold State.endPlats
  grind [State.steady_with, State.platWord_steady, State.setPlatWord_steady, State.steady_foldl]

theorem State.freeCuts_steady {s : State} (h : s.Steady C N L) (f : Nat) : (s.freeCuts f).Steady C N L := by
  unfold State.freeCuts
  grind [State.freeUnit_steady, State.dropUnit_steady, State.steady_foldl]

theorem State.freeChans_steady {s : State} (h : s.Steady C N L) (f : Nat) : (s.freeChans f).Steady C N L :=
  State.steady_mem h

theorem State.cancelRecords_steady {s : State} (h : s.Steady C N L) (f : Nat) : (s.cancelRecords f).Steady C N L := by
  unfold State.cancelRecords
  grind [State.completionWord_steady, State.steady_foldl]

theorem State.sendRetire_steady {s : State} (h : s.Steady C N L) (f : Nat) : (s.sendRetire f).Steady C N L := by
  unfold State.sendRetire
  grind [State.modInput_steady, State.modFabric_steady, State.purge_steady, State.steady_foldl]

theorem State.emptyEndpoints_steady {s : State} (h : s.Steady C N L) (f : Nat) :
    (s.emptyEndpoints f).Steady C N L := State.steady_mem h

theorem State.unloadModules_steady {s : State} (h : s.Steady C N L) (f : Nat) : (s.unloadModules f).Steady C N L :=
  State.steady_mem h

theorem State.resetFunc_steady {s : State} (h : s.Steady C N L) (f : Nat) : (s.resetFunc f).Steady C N L := by
  unfold State.resetFunc
  extract_lets s1 s2 s3
  have h1 : s1.Steady C N L := State.modFunc_steady h _ _
  have h2 : s2.Steady C N L := State.cancelRecords_steady (State.freeCuts_steady (State.endPlats_steady
    (State.freeChans_steady (State.stopFunc_steady h1 _) _) _) _) _
  have h3 : s3.Steady C N L := State.unloadModules_steady (State.emptyEndpoints_steady (State.sendRetire_steady h2 _) _) _
  exact State.modFunc_steady h3 _ _

theorem State.resetPhysical_steady {s : State} (h : s.Steady C N L) : s.resetPhysical.Steady C N L :=
  State.steady_mem h

theorem execFlr_steady {s : State} (h : s.Steady C N L) (f : Nat) : OutSteady C N L (execFlr f s) := by
  unfold execFlr
  grind [State.resetPhysical_steady, State.resetFunc_steady, OutSteady.next]

theorem execStopInterface_steady {s : State} (h : s.Steady C N L) (f : Nat) :
    OutSteady C N L (execStopInterface f s) := by
  unfold execStopInterface
  grind [State.resetFunc_steady, OutSteady.next]

/-! ## The control die -/

theorem State.modControl_steady {s : State} (h : s.Steady C N L) {f : Control → Control}
    (hu : (f s.control).upbuf = s.control.upbuf := by rfl) (ht : (f s.control).trips = s.control.trips := by rfl) :
    (s.modControl f).Steady C N L :=
  State.steady_with h hu ht

theorem State.mailbox_steady {s : State} (h : s.Steady C N L) {r : Except MailResult State}
    (hr : ∀ t, r = .ok t → t.Steady C N L) : (s.mailbox r).Steady C N L := by
  unfold State.mailbox
  split
  · exact h
  · split
    · exact State.modControl_steady (hr _ rfl)
    · exact State.modControl_steady h

theorem State.forget_steady {s : State} (h : s.Steady C N L) (f : Nat → Bool) : (s.forget f).Steady C N L :=
  State.steady_mem h

theorem State.setPart_steady {s : State} (h : s.Steady C N L) (a : PartArg) : (s.setPart a).Steady C N L :=
  State.steady_mem h

theorem execPartSet_steady {s : State} (h : s.Steady C N L) (arg : PartArg) :
    OutSteady C N L (execPartSet arg s) := by
  unfold execPartSet
  grind [State.mailbox_steady, State.refillAll_steady, State.setPart_steady, OutSteady.next]

theorem State.refillOf_steady {s : State} (h : s.Steady C N L) (f : Nat) : (s.refillOf f).Steady C N L := by
  unfold State.refillOf
  grind [State.refillAll_steady]

theorem execFuncSet_steady {s : State} (h : s.Steady C N L) (arg : FuncArg) :
    OutSteady C N L (execFuncSet arg s) := by
  unfold execFuncSet
  grind [State.mailbox_steady, State.refillOf_steady, State.forget_steady, State.modFunc_steady, OutSteady.next]

theorem execBktcfgSet_steady {s : State} (h : s.Steady C N L) (f : Nat) (v : DWord) :
    OutSteady C N L (execBktcfgSet f v s) := by
  unfold execBktcfgSet
  grind [State.mailbox_steady, State.modFunc_steady, State.refillOf_steady, OutSteady.next]

theorem execEpcfgSet_steady {s : State} (h : s.Steady C N L) (ep : Nat) (v : DWord) :
    OutSteady C N L (execEpcfgSet ep v s) := by
  unfold execEpcfgSet
  grind [State.mailbox_steady, State.modEndpoint_steady, OutSteady.next]

theorem execReplicaSet_steady {s : State} (h : s.Steady C N L) (f : Nat) (devids : List (BitVec 16)) (limit : Nat) :
    OutSteady C N L (execReplicaSet f devids limit s) := by
  unfold execReplicaSet
  grind [State.mailbox_steady, State.modFunc_steady, OutSteady.next]

theorem State.release_steady {s : State} (h : s.Steady C N L) (m : Master) : (s.release m).Steady C N L := by
  unfold State.release
  grind [State.modWave_steady, State.modCore_steady, State.mapWaves_steady, State.modChan_steady,
    State.modFunc_steady]

theorem execFreezeEnd_steady {s : State} (h : s.Steady C N L) (m : Master) (endBlock : Bool) :
    OutSteady C N L (execFreezeEnd m endBlock s) := by
  unfold execFreezeEnd
  grind [State.mailbox_steady, State.release_steady, State.fatalBlock_steady, State.steady_foldl, OutSteady.next]

theorem State.writeLogPage_steady {s : State} (h : s.Steady C N L) (n : Nat) : (s.writeLogPage n).Steady C N L := by
  unfold State.writeLogPage
  grind [State.steady_with, State.hostStore_steady]

theorem execLogRead_steady {s : State} (h : s.Steady C N L) (count : Nat) :
    OutSteady C N L (execLogRead count s) := by
  unfold execLogRead
  grind [State.mailbox_steady, State.emit_steady, State.writeLogPage_steady, OutSteady.next]

theorem execTimeSet_steady {s : State} (h : s.Steady C N L) (arg : TimeArg) :
    OutSteady C N L (execTimeSet arg s) := by
  unfold execTimeSet
  grind [State.mailbox_steady, State.modFabric_steady, OutSteady.next]

theorem execPwrSet_steady {s : State} (h : s.Steady C N L) (v : DWord) : OutSteady C N L (execPwrSet v s) := by
  unfold execPwrSet
  grind [State.mailbox_steady, State.modControl_steady, OutSteady.next]

theorem execMailboxUnknownCode_steady {s : State} (h : s.Steady C N L) (code : BitVec 16) :
    OutSteady C N L (execMailboxUnknownCode code s) := by
  unfold execMailboxUnknownCode
  grind [State.mailbox_steady, OutSteady.next]

theorem State.loseUnit_steady {s : State} (h : s.Steady C N L) (u : List Nat) : (s.loseUnit u).Steady C N L := by
  unfold State.loseUnit
  grind [State.freeUnit_steady, State.fatalBlock_steady, State.steady_foldl]

theorem State.loseWaves_steady {s : State} (h : s.Steady C N L) (d : Nat) : (s.loseWaves d).Steady C N L := by
  unfold State.loseWaves
  grind [State.modWave_steady, State.settle_steady, State.steady_foldl]

theorem State.loseChains_steady {s : State} (h : s.Steady C N L) (d : Nat) : (s.loseChains d).Steady C N L :=
  State.steady_foldl (fun _ _ hs => State.stopChain_steady hs ..) h _

theorem State.clearDie_steady {s : State} (h : s.Steady C N L) (d : Nat) : (s.clearDie d).Steady C N L := by
  unfold State.clearDie
  refine State.steady_mem h (regions := fun hr => hr.filter _) (dregions := fun hr => ?_)
  dsimp only
  refine Table.All.mapVals hr fun _ r hr => ?_
  split
  · rfl
  · exact hr

theorem State.resetDie_steady {s : State} (h : s.Steady C N L) (d : Nat) : (s.resetDie d).Steady C N L := by
  unfold State.resetDie
  grind [State.fenceInput_steady, State.loseUnit_steady, State.clearDie_steady, State.loseChains_steady,
    State.loseWaves_steady, State.faultGrid_steady, State.log_steady, State.steady_foldl]

theorem execDieReset_steady {s : State} (h : s.Steady C N L) (die : Nat) : OutSteady C N L (execDieReset die s) := by
  unfold execDieReset
  grind [State.mailbox_steady, State.resetDie_steady, OutSteady.next]

theorem State.dieError_steady {s : State} (h : s.Steady C N L) (die : Nat) : (s.dieError die).Steady C N L := by
  unfold State.dieError
  grind [State.modControl_steady, State.resetDie_steady]

theorem execDieErrorReset_steady {s : State} (h : s.Steady C N L) (die : Nat) :
    OutSteady C N L (execDieErrorReset die s) := OutSteady.next (State.dieError_steady h ..)

theorem execDieReadmit_steady {s : State} (h : s.Steady C N L) (die : Nat) :
    OutSteady C N L (execDieReadmit die s) := by
  unfold execDieReadmit
  grind [State.steady_with, State.log_steady, State.unfenceInput_steady, State.modDie_steady, State.refillAll_steady,
    State.steady_foldl, OutSteady.next]

theorem execFwStage_steady {s : State} (h : s.Steady C N L) (image : List Byte) : OutSteady C N L (execFwStage image s) := by
  refine OutSteady.next (State.mailbox_steady h fun t e => ?_)
  split at e
  · cases e
  · split at e
    · cases e
    · split at e
      · cases e
        exact State.modControl_steady h (Control.writeSlot_upbuf _ _ _).1 (Control.writeSlot_upbuf _ _ _).2
      · cases e

theorem execUploadGo_steady {s : State} (h : s.Steady C N L) (slot : Bool) :
    OutSteady C N L (execUploadGo slot s) := by
  unfold execUploadGo
  grind [State.modControl_steady, OutSteady.next]

theorem execUploadComplete_steady {s : State} (h : s.Steady C N L) : OutSteady C N L (execUploadComplete s) := by
  refine OutSteady.next ?_
  split
  · extract_lets image
    split
    · exact State.modControl_steady h (Control.writeSlot_upbuf _ _ _).1 (Control.writeSlot_upbuf _ _ _).2
    · exact State.modControl_steady h
  · exact h

theorem execRsnClear_steady {s : State} (h : s.Steady C N L) : OutSteady C N L (execRsnClear s) :=
  OutSteady.next (h)

theorem State.restart_canonical {s : State} (h : s.memoryCanonical) (powerOn : Bool) : (s.restart powerOn).memoryCanonical := by
  obtain ⟨a1, a2, -⟩ := h
  exact ⟨a1, a2, rfl, rfl, fun _ h => (List.not_mem_nil h).elim, fun _ h => (List.not_mem_nil h).elim,
    fun _ h => (List.not_mem_nil h).elim, fun _ h => (List.not_mem_nil h).elim⟩

theorem execStart_canonical {s : State} (h : s.memoryCanonical) (powerOn : Bool) : OutCanonical (execStart powerOn s) := by
  refine OutCanonical.next ?_
  extract_lets s1 b v v'
  have h1 := State.steady_self (State.restart_canonical h powerOn)
  split
  · exact (State.modControl_steady h1 (Control.note_upbuf _ _ _).1 (Control.note_upbuf _ _ _).2).2.2 trivial
  · refine (State.modControl_steady h1 ?_ ?_).2.2 trivial
    · split
      · exact (Control.note_upbuf _ _ _).1.trans (Control.note_upbuf _ _ _).1
      · exact (Control.failed_upbuf _ _ _).1.trans ((Control.note_upbuf _ _ _).1.trans (Control.note_upbuf _ _ _).1)
    · split
      · exact (Control.note_upbuf _ _ _).2.trans (Control.note_upbuf _ _ _).2
      · exact (Control.failed_upbuf _ _ _).2.trans ((Control.note_upbuf _ _ _).2.trans (Control.note_upbuf _ _ _).2)

theorem execReadyTimeout_steady {s : State} (h : s.Steady C N L) : OutSteady C N L (execReadyTimeout s) := by
  refine OutSteady.next ?_
  split
  · split
    · exact State.modControl_steady h (Control.failed_upbuf _ _ _).1 (Control.failed_upbuf _ _ _).2
    · exact h
  · exact h

theorem State.admitDies_steady {s : State} (h : s.Steady C N L) (dies : BitVec 4) :
    (s.admitDies dies).Steady C N L := by
  unfold State.admitDies
  grind [State.log_steady, State.modInput_steady, State.modDie_steady, State.steady_foldl]

theorem execFirmwareReady_steady {s : State} (h : s.Steady C N L) (memOk : Bool) (dies : BitVec 4) :
    OutSteady C N L (execFirmwareReady memOk dies s) := by
  refine OutSteady.next ?_
  split
  · split
    · exact State.modControl_steady h (Control.failed_upbuf _ _ _).1 (Control.failed_upbuf _ _ _).2
    · extract_lets s1
      have h1 : s1.Steady C N L := State.steady_mem h (hbm := fun _ => rfl)
      split
      · exact State.modControl_steady (State.admitDies_steady h1 _) (Control.failed_upbuf _ _ _).1 (Control.failed_upbuf _ _ _).2
      · exact State.modControl_steady (State.modFabric_steady (State.admitDies_steady h1 _) _)
  · exact h

theorem execConfigRequest_steady {s : State} (h : s.Steady C N L) (func : Nat) :
    OutSteady C N L (execConfigRequest func s) := OutSteady.next (h)

theorem State.poison_steady {s : State} (h : s.Steady C N L) (u : SoftUnit) : (s.poison u).Steady C N L := by
  cases u with
  | laneReg k r l => exact State.modWave_steady h _ _
  | scalarReg k r => exact State.modWave_steady h _ _
  | tile b i e => exact State.modBlock_steady h _ fun x hx => hx.modHalf _
  | scratchLine b i n => exact State.modBlock_steady h _ fun x hx => hx.modHalf _
  | regionLine r n => exact State.steady_regions h fun hr => hr.update _
  | dieStoreLine r n => exact State.steady_dregions h fun hr => hr.update _
  | hbmLine n => exact State.steady_mem h
  | cacheLine core n => exact State.modDie_steady (State.modCore_steady h _ _) _ _
  | codeLine level place line => exact State.steady_mem h
  | dieControl die => exact State.dieError_steady h _
  | controlDie => exact h
  | coreControl core => exact State.steady_foldl (fun _ _ hs => State.postViolation_steady hs _ _ _ _ _) (State.freezeCore_steady h _) _

theorem State.corrected_steady {s : State} (h : s.Steady C N L) (d : Nat) : (s.corrected d).Steady C N L :=
  State.steady_mem h

theorem execSoftError_steady {s : State} (h : s.Steady C N L) (unit : SoftUnit) (corrected : Bool) :
    OutSteady C N L (execSoftError unit corrected s) := by
  unfold execSoftError
  grind [State.corrected_steady, State.poison_steady, OutSteady.next]

theorem execHbmScrub_steady {s : State} (h : s.Steady C N L) (mem : Nat) : OutSteady C N L (execHbmScrub mem s) := by
  unfold execHbmScrub
  grind [State.modControl_steady, OutSteady.next]

theorem execPowerSample_steady {s : State} (h : s.Steady C N L) (p : PowerSample) :
    OutSteady C N L (execPowerSample p s) := by
  unfold execPowerSample
  grind [State.modControl_steady, State.log_steady, OutSteady.next]

theorem State.resetDies_steady {s : State} (h : s.Steady C N L) (l : List Nat) :
    (l.foldl (fun s d => s.resetDie d) s).Steady C N L :=
  State.steady_foldl (fun _ _ hs => State.resetDie_steady hs _) h l

theorem State.modControl_canonical {s : State} (h : s.memoryCanonical) {f : Control → Control}
    (hu : (f s.control).upbuf = s.control.upbuf) : (s.modControl f).memoryCanonical := by
  obtain ⟨a1, a2, a3, a4, a5⟩ := h
  exact ⟨a1, a2, a3, (congrArg Memory.wf hu).trans a4, a5⟩

theorem execThermalTrip_canonical {s : State} (h : s.memoryCanonical) (die : DieKind) : OutCanonical (execThermalTrip die s) := by
  refine OutCanonical.next ?_
  split
  · exact h
  · extract_lets s1 s2
    have h1 : s1.memoryCanonical := (State.resetDies_steady (State.steady_self h) _).2.2 trivial
    clear_value s1
    have h2 : s2.memoryCanonical := ⟨rfl, h1.2.1, rfl, h1.2.2.2⟩
    have h3 := State.modControl_canonical h2 (f := fun c =>
      { c with tripped := true, rsn := 5, dieErrors := [], trips := c.trips ++ [(s2.time, die)] }) rfl
    exact (State.emit_steady (State.log_steady (State.steady_self h3) _) _).2.2 trivial

theorem execPluginUnload_steady {s : State} (h : s.Steady C N L) (part : Nat) :
    OutSteady C N L (execPluginUnload part s) := by
  unfold execPluginUnload
  grind [State.log_steady, State.modPart_steady, OutSteady.next]

/-! ## Scheduling -/

theorem State.beginQuadrant_steady {s : State} (h : s.Steady C N L) (core quad : Nat) :
    (s.beginQuadrant core quad).Steady C N L := by
  unfold State.beginQuadrant
  grind [State.beginClause_steady, State.steady_foldl]

theorem State.picked_steady {s : State} (h : s.Steady C N L) (core quad : Nat) (p : Nat × SliceMask × Nat) :
    (s.picked core quad p).Steady C N L := by
  unfold State.picked
  grind [State.steady_with, State.modCore_steady]

theorem execIssuePick_steady {s : State} (h : s.Steady C N L) (core quad : Nat) :
    OutSteady C N L (execIssuePick core quad s) := by
  unfold execIssuePick
  grind [State.beginQuadrant_steady, State.picked_steady, OutSteady.next]

/-! ## Movers -/



end Sys2Proof.Machine

end

