-- ==== Sys2Proof/Proofs/MemoryForm.lean ====
section
/-! Every step keeps the canonical form of memory (O8): each word and event does (`exec_canonical`), so does the tick of
time, and a step is a word or a move. -/

namespace Sys2Proof.Machine

/-! ## Every word and event -/

theorem exec_canonical {s : State} (h : s.memoryCanonical) (i : Instr) : OutCanonical (exec i s) := by
  have hs := State.steady_self h
  cases i with
  | nop => exact (execNop_steady hs).canonical
  | mode a b => exact (execMode_steady hs a b).canonical
  | br a => exact (execBr_steady hs a).canonical
  | brx a => exact (execBrx_steady hs a).canonical
  | brs cond a b => exact (execBrs_steady hs cond a b).canonical
  | brv cond a b => exact (execBrv_steady hs cond a b).canonical
  | join => exact (execJoin_steady hs).canonical
  | regang a => exact (execRegang_steady hs a).canonical
  | meld a b => exact (execMeld_steady hs a b).canonical
  | melde => exact (execMelde_steady hs).canonical
  | call d a => exact (execCall_steady hs d a).canonical
  | calli d a => exact (execCalli_steady hs d a).canonical
  | ret a => exact (execRet_steady hs a).canonical
  | exit a => exact (execExit_steady hs a).canonical
  | yield => exact (execYield_steady hs).canonical
  | waitf flags => exact (execWaitf_steady hs flags).canonical
  | mon a => exact (execMon_steady hs a).canonical
  | mwait a => exact (execMwait_steady hs a).canonical
  | trap a => exact (execTrap_steady hs a).canonical
  | tret => exact (execTret_steady hs).canonical
  | phint k => exact (execPhint_steady hs k).canonical
  | idemb => exact (execIdemb_steady hs).canonical
  | ideme => exact (execIdeme_steady hs).canonical
  | ipf level a count => exact (execIpf_steady hs level a count).canonical
  | spawn a b => exact (execSpawn_steady hs a b).canonical
  | launch d a => exact (execLaunch_steady hs d a).canonical
  | gfire a b => exact (execGfire_steady hs a b).canonical
  | barb id => exact (execBarb_steady hs id).canonical
  | barc id => exact (execBarc_steady hs id).canonical
  | quant => exact (execQuant_steady hs).canonical
  | digest a count => exact (execDigest_steady hs a count).canonical
  | reservedOpcode word => exact (execReservedOpcode_steady hs word).canonical
  | add d a b => exact (execAdd_steady hs d a b).canonical
  | sub d a b => exact (execSub_steady hs d a b).canonical
  | mul d a b => exact (execMul_steady hs d a b).canonical
  | fma d a b => exact (execFma_steady hs d a b).canonical
  | fms d a b => exact (execFms_steady hs d a b).canonical
  | fnma d a b => exact (execFnma_steady hs d a b).canonical
  | min d a b => exact (execMin_steady hs d a b).canonical
  | max d a b => exact (execMax_steady hs d a b).canonical
  | abs d a => exact (execAbs_steady hs d a).canonical
  | neg d a => exact (execNeg_steady hs d a).canonical
  | rcp d a => exact (execRcp_steady hs d a).canonical
  | rsq d a => exact (execRsq_steady hs d a).canonical
  | sqrt d a => exact (execSqrt_steady hs d a).canonical
  | exp2 d a => exact (execExp2_steady hs d a).canonical
  | log2 d a => exact (execLog2_steady hs d a).canonical
  | tanh d a => exact (execTanh_steady hs d a).canonical
  | cmpeq d a b => exact (execCmpeq_steady hs d a b).canonical
  | cmpne d a b => exact (execCmpne_steady hs d a b).canonical
  | cmplt d a b => exact (execCmplt_steady hs d a b).canonical
  | cmple d a b => exact (execCmple_steady hs d a b).canonical
  | cmpun d a b => exact (execCmpun_steady hs d a b).canonical
  | classify d a b => exact (execClassify_steady hs d a b).canonical
  | sel d a b => exact (execSel_steady hs d a b).canonical
  | cvt d a part => exact (execCvt_steady hs d a part).canonical
  | scale d a b => exact (execScale_steady hs d a b).canonical
  | rint d a => exact (execRint_steady hs d a).canonical
  | frxp d a part => exact (execFrxp_steady hs d a part).canonical
  | div d a b => exact (execDiv_steady hs d a b).canonical
  | enct d a b => exact (execEnct_steady hs d a b).canonical
  | dect d a byte => exact (execDect_steady hs d a byte).canonical
  | mov d a => exact (execMov_steady hs d a).canonical
  | fxr d a => exact (execFxr_steady hs d a).canonical
  | addc d a b => exact (execAddc_steady hs d a b).canonical
  | subb d a b => exact (execSubb_steady hs d a b).canonical
  | mulhi d a b => exact (execMulhi_steady hs d a b).canonical
  | mulw d a b => exact (execMulw_steady hs d a b).canonical
  | and d a b => exact (execAnd_steady hs d a b).canonical
  | or d a b => exact (execOr_steady hs d a b).canonical
  | xor d a b => exact (execXor_steady hs d a b).canonical
  | not d a => exact (execNot_steady hs d a).canonical
  | shl d a b => exact (execShl_steady hs d a b).canonical
  | shr d a b => exact (execShr_steady hs d a b).canonical
  | sha d a b => exact (execSha_steady hs d a b).canonical
  | rot d a b => exact (execRot_steady hs d a b).canonical
  | clz d a => exact (execClz_steady hs d a).canonical
  | popc d a => exact (execPopc_steady hs d a).canonical
  | brev d a => exact (execBrev_steady hs d a).canonical
  | bfe d a b => exact (execBfe_steady hs d a b).canonical
  | bfi d a b => exact (execBfi_steady hs d a b).canonical
  | clmul d a b => exact (execClmul_steady hs d a b).canonical
  | clmulh d a b => exact (execClmulh_steady hs d a b).canonical
  | dot4 d a b => exact (execDot4_steady hs d a b).canonical
  | dot2 d a b => exact (execDot2_steady hs d a b).canonical
  | shfl d a b => exact (execShfl_steady hs d a b).canonical
  | shflx d a b => exact (execShflx_steady hs d a b).canonical
  | bcast d a b => exact (execBcast_steady hs d a b).canonical
  | wred d a op => exact (execWred_steady hs d a op).canonical
  | wscan d a op => exact (execWscan_steady hs d a op).canonical
  | ballot d a => exact (execBallot_steady hs d a).canonical
  | pand d a b => exact (execPand_steady hs d a b).canonical
  | por d a b => exact (execPor_steady hs d a b).canonical
  | pxor d a b => exact (execPxor_steady hs d a b).canonical
  | spsel d a part => exact (execSpsel_steady hs d a part).canonical
  | spcmp d a b => exact (execSpcmp_steady hs d a b).canonical
  | sadd d a b => exact (execSadd_steady hs d a b).canonical
  | ssub d a b => exact (execSsub_steady hs d a b).canonical
  | smul d a b => exact (execSmul_steady hs d a b).canonical
  | smulh d a b => exact (execSmulh_steady hs d a b).canonical
  | sand d a b => exact (execSand_steady hs d a b).canonical
  | sor d a b => exact (execSor_steady hs d a b).canonical
  | sxor d a b => exact (execSxor_steady hs d a b).canonical
  | sshl d a b => exact (execSshl_steady hs d a b).canonical
  | sshr d a b => exact (execSshr_steady hs d a b).canonical
  | ssha d a b => exact (execSsha_steady hs d a b).canonical
  | smin d a b => exact (execSmin_steady hs d a b).canonical
  | smax d a b => exact (execSmax_steady hs d a b).canonical
  | scmplt d a b => exact (execScmplt_steady hs d a b).canonical
  | scmpeq d a b => exact (execScmpeq_steady hs d a b).canonical
  | ssel d a b => exact (execSsel_steady hs d a b).canonical
  | smov d a => exact (execSmov_steady hs d a).canonical
  | sadd64 d a b => exact (execSadd64_steady hs d a b).canonical
  | ssub64 d a b => exact (execSsub64_steady hs d a b).canonical
  | smul64 d a b => exact (execSmul64_steady hs d a b).canonical
  | sshl64 d a b => exact (execSshl64_steady hs d a b).canonical
  | sshr64 d a b => exact (execSshr64_steady hs d a b).canonical
  | sclz d a => exact (execSclz_steady hs d a).canonical
  | spopc d a => exact (execSpopc_steady hs d a).canonical
  | v2s d a b => exact (execV2s_steady hs d a b).canonical
  | sysrd d index => exact (execSysrd_steady hs d index).canonical
  | syswr index b => exact (execSyswr_steady hs index b).canonical
  | scmpltn d a b => exact (execScmpltn_steady hs d a b).canonical
  | pack d a b => exact (execPack_steady hs d a b).canonical
  | unpack d a mode => exact (execUnpack_steady hs d a mode).canonical
  | pset d a => exact (execPset_steady hs d a).canonical
  | sbfe d a b => exact (execSbfe_steady hs d a b).canonical
  | ld d a sx w => exact (execLd_steady hs d a sx w).canonical
  | lda d a sx w => exact (execLda_steady hs d a sx w).canonical
  | ldx d a sx w => exact (execLdx_steady hs d a sx w).canonical
  | st d a w => exact (execSt_steady hs d a w).canonical
  | stl d a w => exact (execStl_steady hs d a w).canonical
  | stx d a w => exact (execStx_steady hs d a w).canonical
  | sti d a w => exact (execSti_steady hs d a w).canonical
  | ldsp d a sx w => exact (execLdsp_steady hs d a sx w).canonical
  | stsp d a w => exact (execStsp_steady hs d a w).canonical
  | ldcl d a sx strong w => exact (execLdcl_steady hs d a sx strong w).canonical
  | stcl d a strong w => exact (execStcl_steady hs d a strong w).canonical
  | ldds d a sx w => exact (execLdds_steady hs d a sx w).canonical
  | stds d a w => exact (execStds_steady hs d a w).canonical
  | gath d a b => exact (execGath_steady hs d a b).canonical
  | scat d a b => exact (execScat_steady hs d a b).canonical
  | pfd level a => exact (execPfd_steady hs level a).canonical
  | aadd d a b => exact (execAadd_steady hs d a b).canonical
  | amin d a b => exact (execAmin_steady hs d a b).canonical
  | amax d a b => exact (execAmax_steady hs d a b).canonical
  | aand d a b => exact (execAand_steady hs d a b).canonical
  | aor d a b => exact (execAor_steady hs d a b).canonical
  | axor d a b => exact (execAxor_steady hs d a b).canonical
  | axchg d a b => exact (execAxchg_steady hs d a b).canonical
  | acas d a b => exact (execAcas_steady hs d a b).canonical
  | ainc d a b => exact (execAinc_steady hs d a b).canonical
  | adec d a b => exact (execAdec_steady hs d a b).canonical
  | afadd d a b => exact (execAfadd_steady hs d a b).canonical
  | aaddn d a b => exact (execAaddn_steady hs d a b).canonical
  | spaadd d a b => exact (execSpaadd_steady hs d a b).canonical
  | spacas d a b => exact (execSpacas_steady hs d a b).canonical
  | fence => exact (execFence_steady hs).canonical
  | fencel scope => exact (execFencel_steady hs scope).canonical
  | invl1 => exact (execInvl1_steady hs).canonical
  | lease a => exact (execLease_steady hs a).canonical
  | barinit a b => exact (execBarinit_steady hs a b).canonical
  | barexp a b => exact (execBarexp_steady hs a b).canonical
  | bararr a b => exact (execBararr_steady hs a b).canonical
  | bartry d a b => exact (execBartry_steady hs d a b).canonical
  | barwt phase a b => exact (execBarwt_steady hs phase a b).canonical
  | feempty a => exact (execFeempty_steady hs a).canonical
  | fefull a => exact (execFefull_steady hs a).canonical
  | fetest d a => exact (execFetest_steady hs d a).canonical
  | xcpy a => exact (execXcpy_steady hs a).canonical
  | xtile a => exact (execXtile_steady hs a).canonical
  | xgath a => exact (execXgath_steady hs a).canonical
  | xscat a => exact (execXscat_steady hs a).canonical
  | xred a => exact (execXred_steady hs a).canonical
  | xchain ch a => exact (execXchain_steady hs ch a).canonical
  | xcancel ch => exact (execXcancel_steady hs ch).canonical
  | xstat d ch => exact (execXstat_steady hs d ch).canonical
  | esnd a => exact (execEsnd_steady hs a).canonical
  | ercv a => exact (execErcv_steady hs a).canonical
  | estamp d => exact (execEstamp_steady hs d).canonical
  | ewmark d sel => exact (execEwmark_steady hs d sel).canonical
  | mma d a b => exact (execMma_steady hs d a b).canonical
  | mmar d a b => exact (execMmar_steady hs d a b).canonical
  | mmak d a b => exact (execMmak_steady hs d a b).canonical
  | mmas d a b => exact (execMmas_steady hs d a b).canonical
  | acq d => exact (execAcq_steady hs d).canonical
  | rel d => exact (execRel_steady hs d).canonical
  | acld d a => exact (execAcld_steady hs d a).canonical
  | acst d a => exact (execAcst_steady hs d a).canonical
  | acz d => exact (execAcz_steady hs d).canonical
  | acsp d a => exact (execAcsp_steady hs d a).canonical
  | acwin d a b => exact (execAcwin_steady hs d a b).canonical
  | bmark d a => exact (execBmark_steady hs d a).canonical
  | acadd d a => exact (execAcadd_steady hs d a).canonical
  | acscl d a => exact (execAcscl_steady hs d a).canonical
  | ctxsv d a => exact (execCtxsv_steady hs d a).canonical
  | ctxrs d a => exact (execCtxrs_steady hs d a).canonical
  | tlbinv a size => exact (execTlbinv_steady hs a size).canonical
  | wfreeze d a => exact (execWfreeze_steady hs d a).canonical
  | wkill fatal => exact (execWkill_steady hs fatal).canonical
  | easeq d a => exact (execEaseq_steady hs d a).canonical
  | cntrd d ctr => exact (execCntrd_steady hs d ctr).canonical
  | cntsel ctr a => exact (execCntsel_steady hs ctr a).canonical
  | issuePick core quad => exact (execIssuePick_steady hs core quad).canonical
  | clauseBegin wave slice => exact (execClauseBegin_steady hs wave slice).canonical
  | fetchFill wave slice => exact (execFetchFill_steady hs wave slice).canonical
  | regangRelease wave => exact (execRegangRelease_steady hs wave).canonical
  | rejoinDeadlock wave => exact (execRejoinDeadlock_steady hs wave).canonical
  | barrierComplete block cluster id => exact (execBarrierComplete_steady hs block cluster id).canonical
  | specialComplete wave op => exact (execSpecialComplete_steady hs wave op).canonical
  | loadComplete wave op unit => exact (execLoadComplete_steady hs wave op unit).canonical
  | homeArrival wave op unit => exact (execHomeArrival_steady hs wave op unit).canonical
  | storeAck wave op unit => exact (execStoreAck_steady hs wave op unit).canonical
  | fillArrival fill => exact (execFillArrival_steady hs fill).canonical
  | leaseExpiry l2 owner line => exact (execLeaseExpiry_steady hs l2 owner line).canonical
  | monRegistration wave => exact (execMonRegistration_steady hs wave).canonical
  | feWaitTimeout who => exact (execFeWaitTimeout_steady hs who).canonical
  | mwaitLimitExpiry wave slice => exact (execMwaitLimitExpiry_steady hs wave slice).canonical
  | barwtLimitExpiry wave slice => exact (execBarwtLimitExpiry_steady hs wave slice).canonical
  | pageWalkComplete func page => exact (execPageWalkComplete_steady hs func page).canonical
  | tileAccept core => exact (execTileAccept_steady hs core).canonical
  | kstepComplete block half op => exact (execKstepComplete_steady hs block half op).canonical
  | tileOpComplete block half op => exact (execTileOpComplete_steady hs block half op).canonical
  | trapDelivery wave => exact (execTrapDelivery_steady hs wave).canonical
  | blockPlace part => exact (execBlockPlace_steady hs part).canonical
  | taskWaveEmit die grid entry => exact (execTaskWaveEmit_steady hs die grid entry).canonical
  | gridComplete grid => exact (execGridComplete_steady hs grid).canonical
  | preempt grid => exact (execPreempt_steady hs grid).canonical
  | cairnPublish unit => exact (execCairnPublish_steady hs unit).canonical
  | cairnResume unit => exact (execCairnResume_steady hs unit).canonical
  | roundEnd grid => exact (execRoundEnd_steady hs grid).canonical
  | bucketRefill engine func => exact (execBucketRefill_steady hs engine func).canonical
  | segmentPerform id => exact (execSegmentPerform_steady hs id).canonical
  | chainRecordFetch id => exact (execChainRecordFetch_steady hs id).canonical
  | esndInject id => exact (execEsndInject_steady hs id).canonical
  | ercvAccept id => exact (execErcvAccept_steady hs id).canonical
  | qnotifyWrite f q v => exact (execQnotifyWrite_steady hs f q v).canonical
  | recordStart f q => exact (execRecordStart_steady hs f q).canonical
  | launchGrid f q n => exact (execLaunchGrid_steady hs f q n).canonical
  | runPlat f q n => exact (execRunPlat_steady hs f q n).canonical
  | bundle f q n => exact (execBundle_steady hs f q n).canonical
  | copyChain f q n => exact (execCopyChain_steady hs f q n).canonical
  | modload f q n => exact (execModload_steady hs f q n).canonical
  | modunload f q n => exact (execModunload_steady hs f q n).canonical
  | moduleRelease part handle => exact (execModuleRelease_steady hs part handle).canonical
  | signal f q n => exact (execSignal_steady hs f q n).canonical
  | waitValue f q n => exact (execWaitValue_steady hs f q n).canonical
  | waitValuePoll f q n => exact (execWaitValuePoll_steady hs f q n).canonical
  | waitValueTimeout f q n => exact (execWaitValueTimeout_steady hs f q n).canonical
  | ctxSave f q n => exact (execCtxSave_steady hs f q n).canonical
  | ctxRestore f q n => exact (execCtxRestore_steady hs f q n).canonical
  | ctxAbort f q n => exact (execCtxAbort_steady hs f q n).canonical
  | nodeIssue inst => exact (execNodeIssue_steady hs inst).canonical
  | nodeComplete inst node => exact (execNodeComplete_steady hs inst node).canonical
  | nodeFault inst node => exact (execNodeFault_steady hs inst node).canonical
  | nodeRearm inst node => exact (execNodeRearm_steady hs inst node).canonical
  | platToken id => exact (execPlatToken_steady hs id).canonical
  | replicaMessage m => exact (execReplicaMessage_steady hs m).canonical
  | replicaTimeout inst node => exact (execReplicaTimeout_steady hs inst node).canonical
  | partSet arg => exact (execPartSet_steady hs arg).canonical
  | funcSet arg => exact (execFuncSet_steady hs arg).canonical
  | bktcfgSet f v => exact (execBktcfgSet_steady hs f v).canonical
  | epcfgSet ep v => exact (execEpcfgSet_steady hs ep v).canonical
  | replicaSet f devids limit => exact (execReplicaSet_steady hs f devids limit).canonical
  | freezeEnd m endBlock => exact (execFreezeEnd_steady hs m endBlock).canonical
  | dieReset die => exact (execDieReset_steady hs die).canonical
  | logRead count => exact (execLogRead_steady hs count).canonical
  | fwStage image => exact (execFwStage_steady hs image).canonical
  | timeSet arg => exact (execTimeSet_steady hs arg).canonical
  | pwrSet v => exact (execPwrSet_steady hs v).canonical
  | mailboxUnknownCode code => exact (execMailboxUnknownCode_steady hs code).canonical
  | uploadGo slot => exact (execUploadGo_steady hs slot).canonical
  | uploadComplete => exact (execUploadComplete_steady hs).canonical
  | rsnClear => exact (execRsnClear_steady hs).canonical
  | evackWrite f seq => exact (execEvackWrite_steady hs f seq).canonical
  | eventRecordWrite f => exact (execEventRecordWrite_steady hs f).canonical
  | registerWrite r v => exact (execRegisterWrite_steady hs r v).canonical
  | start powerOn => exact execStart_canonical h powerOn
  | readyTimeout => exact (execReadyTimeout_steady hs).canonical
  | firmwareReady memOk dies => exact (execFirmwareReady_steady hs memOk dies).canonical
  | configRequest func => exact (execConfigRequest_steady hs func).canonical
  | linkTrained port => exact (execLinkTrained_steady hs port).canonical
  | dieErrorReset die => exact (execDieErrorReset_steady hs die).canonical
  | dieReadmit die => exact (execDieReadmit_steady hs die).canonical
  | softError unit corrected => exact (execSoftError_steady hs unit corrected).canonical
  | hbmScrub mem => exact (execHbmScrub_steady hs mem).canonical
  | powerSample p => exact (execPowerSample_steady hs p).canonical
  | thermalTrip die => exact execThermalTrip_canonical h die
  | flr f => exact (execFlr_steady hs f).canonical
  | lockInterface f stream => exact (execLockInterface_steady hs f stream).canonical
  | startInterface f => exact (execStartInterface_steady hs f).canonical
  | stopInterface f => exact (execStopInterface_steady hs f).canonical
  | tdispError f => exact (execTdispError_steady hs f).canonical
  | switchOut f => exact (execSwitchOut_steady hs f).canonical
  | switchIn f => exact (execSwitchIn_steady hs f).canonical
  | pluginUnload part => exact (execPluginUnload_steady hs part).canonical
  | packetArrival input pkt => exact (execPacketArrival_steady hs input pkt).canonical
  | beaconSend link => exact (execBeaconSend_steady hs link).canonical
  | beaconArrival input w => exact (execBeaconArrival_steady hs input w).canonical
  | watermarkStall input => exact (execWatermarkStall_steady hs input).canonical
  | portFence input => exact (execPortFence_steady hs input).canonical
  | portUnfence input => exact (execPortUnfence_steady hs input).canonical
  | timeBeacon port => exact (execTimeBeacon_steady hs port).canonical
  | timeBeaconArrival port t1 t2 t3 t4 => exact execTimeBeaconArrival_canonical h port t1 t2 t3 t4
  | ppsPulse => exact execPpsPulse_canonical h
  | ercvComplete id => exact (execErcvComplete_steady hs id).canonical

/-! ## Every move and step -/

theorem execWord_canonical {s : State} (h : s.memoryCanonical) (w : Word) : OutCanonical (execWord w s) := by
  unfold execWord
  split
  · exact exec_canonical h _
  · exact (illegalWord_steady (State.steady_self h) _).canonical

theorem State.takeInput_canonical {s : State} (h : s.memoryCanonical) : OutCanonical s.takeInput := by
  unfold State.takeInput
  split
  · exact OutCanonical.next h
  · next i rest _ =>
    split
    · exact OutCanonical.next h
    · extract_lets t
      have ht : t.memoryCanonical := h
      split
      · exact exec_canonical ht _
      · exact OutCanonical.next ht

theorem State.tryGang_canonical {s : State} (h : s.memoryCanonical) (k : Nat) (g : SliceMask) : (s.tryGang k g).memoryCanonical := by
  unfold State.tryGang
  split
  · exact h
  · split
    · exact h
    · extract_lets t free
      have ht : t.memoryCanonical := h
      split
      · exact h
      · next c _ =>
        have hfree : free.memoryCanonical := h
        split
        · next e =>
          split
          · split
            · exact execWord_canonical ht _ _ e
            · exact hfree
          · exact hfree
        · exact hfree

theorem State.foldl_canonical {α : Type} {f : State → α → State} (hf : ∀ s x, s.memoryCanonical → (f s x).memoryCanonical)
    {s : State} (h : s.memoryCanonical) (l : List α) : (l.foldl f s).memoryCanonical := by
  induction l generalizing s with
  | nil => exact h
  | cons x rest ih => exact ih (hf s x h)

theorem State.tryGangs_canonical {s : State} (h : s.memoryCanonical) : s.tryGangs.memoryCanonical :=
  State.foldl_canonical (fun _ _ hs => State.foldl_canonical (fun _ _ hs => State.tryGang_canonical hs _ _) hs _) h _

theorem State.tick_canonical {s : State} (h : s.memoryCanonical) : s.tick.memoryCanonical := by
  unfold State.tick
  extract_lets t
  have ht : t.Steady True t.time t.control.trips := ⟨rfl, rfl, fun _ => h⟩
  exact (State.steady_foldl (fun _ _ hs => State.settle_steady (State.depart_steady hs _) _)
    (State.noteRooms_steady ht) _).2.2 trivial

theorem Move.run_canonical {s : State} (h : s.memoryCanonical) (m : Move) : OutCanonical (m.run s) := by
  obtain ⟨i, -, e⟩ | e | e | ⟨k, e⟩ | ⟨cores, dies, walks, n, e⟩ := Move.run_cases m s
  · exact e ▸ exec_canonical h i
  · exact e ▸ State.takeInput_canonical h
  · exact e ▸ OutCanonical.next (State.tryGangs_canonical (State.tick_canonical h))
  · exact e ▸ OutCanonical.next ((State.wakeWave_steady (State.steady_self h) k).2.2 trivial)
  · exact e ▸ OutCanonical.next h

theorem goesTo_canonical {s : State} (h : s.memoryCanonical) {o : Host.Outcome State Fault Refusal} (ho : OutCanonical o) :
    (goesTo o s).memoryCanonical := by
  unfold goesTo
  split
  · exact ho _ rfl
  · exact h

theorem State.make_canonical {s : State} (h : s.memoryCanonical) (m : Move) : OutCanonical (s.make m) := by
  unfold State.make
  split
  · exact Move.run_canonical h m
  · exact OutCanonical.next (State.asking_canonical h _ fun t ht => goesTo_canonical ht (Move.run_canonical ht m))

/-- Settles O8. -/
theorem memoryFormIsKeptByEveryStep : Obligations.MemoryFormIsKeptByEveryStep := by
  unfold Obligations.MemoryFormIsKeptByEveryStep
  intro s t h e
  unfold step at e
  split at e
  · split at e
    · exact execWord_canonical h _ _ e
    · exact OutCanonical.next (s := { s with cur := none }) h _ e
  · exact State.make_canonical (s := s.drawn) h _ _ e

end Sys2Proof.Machine

end

