-- ==== Sys2Proof/Proofs/FirmwareEvents.lean ====
section
/-! The events of the fabric, the commands of the mailbox, and the control die (O58 to O60). -/

namespace Sys2Proof.Machine

/-! # The fabric

The events of the fabric (O58). ESND_INJECT takes the first fabric operation of its id and does nothing when that is an
ERCV; the statement's hypothesis asks only that an ESND of the id stands somewhere in the list. With two operations of one
id, an ERCV before an ESND, the hypothesis holds and the event leaves the state as it is. -/

/-- An ESND, or an ERCV, of the placed wave under the id 0, with an empty descriptor. -/
def twinOp (send : Bool) : FabricOp :=
  { id := 0, at_ := 0, send, wave := State.reset.nextId, lane := 0, desc := [0, 0, 0, 0], scope := 0, after := 0, flag := none
    atEnd := true, gang := 0xF, taken := none, took := false, drops := 0, dwv := 0, since := none, buffered := false
    injected := false, src := ⟨0, 0, 0, 0, 0, []⟩ }

/-- A machine with one placed wave, and an ERCV and an ESND of it under one id. -/
def twinState : State := { State.reset.placeWord 0 with time := 1, fabops := [twinOp false, twinOp true] }

/-- The placed wave, and its block. -/
def twinWave : Wave := (twinState.waves.get? (twinOp true).wave).getD (newWave wordKernel 0 0 0 0 0 0 0 0 0 0 [] 0 [] 0 none)
def twinBlock : Block := ((twinState.blocks.map (·.2)).head?).getD
  ⟨0, 0, 0, 0, [], [], [], [], [], 0, 0, 0, 0, 0, 0, .resident, 0, false, false, none⟩

/-- The ESND may leave its die: its wave and block stand, its release has been made, and its turn has come. -/
theorem twinState_ready :
    twinState.fabops.find? (fun y => y.id == (twinOp true).id && y.send && !y.injected && !y.buffered) = some (twinOp true) ∧
    twinState.waves.get? (twinOp true).wave = some twinWave ∧ twinState.blocks.get? twinWave.block = some twinBlock ∧
    twinState.released_ (twinOp true).wave twinWave (twinOp true).lane (twinOp true).gang (twinOp true).after (twinOp true).scope = true ∧
    twinState.interfaceFree twinWave (twinOp true) = true ∧ twinState.esndTurn twinWave (twinOp true) = true := by decide +kernel

/-- The ERCV stands first, so that nothing is injected. -/
theorem twinState_stays : exec (.esndInject 0) twinState = .next twinState := rfl

/-- Refutes O58: `twinState` meets the premise of its first clause, and no packet stands on a link after the event. -/
theorem not_fabricEvents : ¬ Obligations.FabricEvents := by
  unfold Obligations.FabricEvents
  intro h
  obtain ⟨hfind, hwave, hblock, hreleased, hfree, hturn⟩ := twinState_ready
  obtain ⟨hinject, -⟩ := h twinState 0 (twinOp true) twinWave twinBlock
  have hsent := (twinState_stays.symm.trans (hinject hfind hwave hblock hreleased hfree hturn twinState [] rfl))
  have hlinks := congrArg (fun o => match o with
    | Host.Outcome.next u => u.fabric.links.length
    | _ => 0) hsent
  exact absurd hlinks (by decide +kernel)

/-! # The mailbox

The commands of the firmware mailbox (O59): a command of a usable machine answers the result of its checks, and only one
that passes them changes anything else. -/

theorem State.mailbox_ok {s t : State} (hu : s.usable = true) : s.mailbox (.ok t) = t.modControl (fun c => { c with result := 0 }) :=
  if_neg (by simp [hu])

theorem State.mailbox_error {s : State} {e : MailResult} (hu : s.usable = true) :
    s.mailbox (.error e) = s.modControl (fun c => { c with result := e.code }) := if_neg (by simp [hu])

theorem State.writeLogPage_zero {s : State} {n : Nat} (h : n = 0 ∨ s.hostMaps 0 s.control.mbarg.toNat = false) :
    s.writeLogPage n = s := if_pos (h.imp_right fun h => by simp [h])

theorem State.writeLogPage_maps {s : State} {n : Nat} (hn : n ≠ 0) (h : s.hostMaps 0 s.control.mbarg.toNat = true) :
    s.writeLogPage n = { s.hostStore s.control.mbarg.toNat ((List.range (256 * n)).map (Config.logByte s.free)) with
      free := s.free + 1 } := if_neg (by simp [hn, h])

/-- Settles O59. -/
theorem mailboxCommands : Obligations.MailboxCommands := by
  unfold Obligations.MailboxCommands
  intro s hu ok no
  -- A command is the mailbox of its checks: when those give `r`, it answers what the mailbox makes of `r`.
  have hok : ∀ {r : Except MailResult State} {t : State}, r = .ok t → Host.Outcome.next (s.mailbox r) = ok t := by
    rintro _ t rfl
    exact congrArg Host.Outcome.next (State.mailbox_ok hu)
  have hno : ∀ {r : Except MailResult State} {e : MailResult}, r = .error e → Host.Outcome.next (s.mailbox r) = no e := by
    rintro _ e rfl
    exact congrArg Host.Outcome.next (State.mailbox_error hu)
  refine ⟨fun a => ⟨fun hl => hno ?_, fun hl hb => hno ?_, fun hl hb => hok ?_⟩,
    fun a => ⟨fun hl => hno ?_, fun hl hb => hno ?_, fun hl hb => hok ?_⟩, fun f => rfl, fun f v => ?bktcfg, fun n v hn hv => ?epcfg,
    fun f l limit hlo hhi h2 h4 hlim hlim' hidle => hok ?_, fun m => ⟨fun hf b => hno ?_, fun hf => ⟨hok ?_, hok ?_⟩⟩,
    fun d => ⟨fun hd => hno ?_, fun hd hr => hno ?_, fun hd hr => hok ?_⟩, fun n => ⟨fun hn => hno ?_, fun hn => ?logRead⟩,
    fun l hl hup => ⟨fun hv => hok ?_, fun hv => hno ?_⟩, fun a hlo hhi => ⟨fun hne hset => hno ?_, fun h => hok ?_⟩,
    fun v h1 h2 h3 h4 h5 h6 => hok ?_, fun code => ⟨fun hc => ?_, fun hc => ?_⟩⟩
  -- PART_SET
  · exact if_pos (by simp [hl])
  · exact ite_else (by simp [hl]) (if_pos hb)
  · exact ite_else (by simp [hl]) (if_neg (by simp [hb]))
  -- FUNC_SET
  · exact if_pos (by simp [hl])
  · exact ite_else (by simp [hl]) (if_pos hb)
  · exact ite_else (by simp [hl]) (if_neg (by simp [hb]))
  case bktcfg =>
    intro d
    have hlegal : (!virtual f || d % 128 != 0 || decide (d < 128) || decide (8388608 < d)) = true ↔
        ¬ (1 ≤ f ∧ f ≤ 256 ∧ d % 128 = 0 ∧ 128 ≤ d ∧ d ≤ 8388608) := by
      simp only [virtual, Bool.or_eq_true, Bool.not_eq_true', Bool.and_eq_false_iff, bne_iff_ne, ne_eq, decide_eq_true_eq,
        decide_eq_false_iff_not]
      omega
    exact ⟨fun h => hno (if_pos (hlegal.2 h)), fun h1 h2 h3 h4 h5 => hok (if_neg (fun h => hlegal.1 h ⟨h1, h2, h3, h4, h5⟩))⟩
  case epcfg =>
    have hlegal : ¬ (!decide (n < 4064) || (v.getLsbD 31 && !(virtual (natBits v.toNat 0 9) &&
        (decide (4 ≤ natBits v.toNat 32 4) && decide (natBits v.toNat 32 4 ≤ 12)) &&
        (decide (4 ≤ natBits v.toNat 36 4) && decide (natBits v.toNat 36 4 ≤ 12))))) = true := by
      rcases hv with hv | ⟨h1, h2, h3, h4, h5, h6⟩
      · rw [hv]
        simp [hn]
      · simp [hn, virtual, h1, h2, h3, h4, h5, h6]
    refine ⟨fun hq => hno (ite_else hlegal (if_pos ?_)), fun ho hq => hok (ite_else hlegal (if_neg ?_))⟩
    · simpa using hq
    · simp [ho, hq]
  -- REPLICA_SET
  · have hlegal : ¬ (!virtual f || decide (l.length < 2) || decide (4 < l.length) || decide (limit < 1) || decide (65535 < limit)) =
        true := by
      simp only [virtual, Bool.or_eq_true, Bool.not_eq_true', Bool.and_eq_false_iff, decide_eq_true_eq, decide_eq_false_iff_not]
      omega
    exact ite_else hlegal (if_neg (by simpa using hidle))
  -- FREEZE_END
  · exact if_pos (by simp [hf])
  · exact ite_else (by simp [hf]) rfl
  · exact ite_else (by simp [hf]) rfl
  -- DIE_RESET
  · exact if_pos hd
  · exact ite_else (Nat.not_le.2 hd) (if_pos hr)
  · exact ite_else (Nat.not_le.2 hd) (if_neg (by simp [hr]))
  -- LOG_READ
  · exact if_pos hn
  case logRead =>
    intro l a
    refine ⟨fun hl hm => hok (ite_else (Nat.not_lt.2 hn) ?_), fun h => hok (ite_else (Nat.not_lt.2 hn) ?_)⟩
    · exact congrArg (fun t => Except.ok (State.emit t (.logPage l)))
        (State.writeLogPage_maps (fun h => hl (List.length_eq_zero_iff.1 h)) hm)
    · exact congrArg (fun t => Except.ok (State.emit t (.logPage l)))
        (State.writeLogPage_zero (h.imp_left List.length_eq_zero_iff.2))
  -- FW_STAGE
  · exact ite_else (Nat.not_lt.2 hl) (ite_else hup (if_pos hv))
  · exact ite_else (Nat.not_lt.2 hl) (ite_else hup (if_neg hv))
  -- TIME_SET
  · exact ite_else (by omega) (if_pos ⟨hne, hset⟩)
  · refine ite_else (by omega) (if_neg fun ⟨hne, hset⟩ => ?_)
    rcases h with h | h
    · exact hne h
    · simp [h] at hset
  -- PWR_SET
  · exact if_neg (by omega)
  -- A code that is not listed
  · exact congrArg Host.Outcome.next (if_pos hc)
  · exact (congrArg Host.Outcome.next (if_neg (by simp [hc]))).trans (hno rfl)

/-! # The control die

The events of the host's registers, of a function's life and of the control die (O60): each clause names the conditions
under which its event acts and the state that it leaves. -/

theorem virtual_of_range {f : Nat} (h1 : 1 ≤ f) (h2 : f ≤ 256) : virtual f = true := by simp [virtual, h1, h2]

/-! ## Event records and the registers of a function -/

theorem execEventRecordWrite_due {s : State} {f : Nat} {e : EventRec} {rest : List EventRec} (hw : (s.func f).evwait = e :: rest)
    (he : (s.func f).even = true) (hn : ((s.func f).evprod + 2 ^ 32 - (s.func f).evcons) % 2 ^ 32 ≠ 2 ^ (s.func f).evsz) :
    execEventRecordWrite f s = .next (
      let a := (s.func f).ringBase + 256 * ((s.func f).evprod % 2 ^ (s.func f).evsz)
      if !s.hostMaps f a then (if (s.func f).frozen then s else s.hostFault f a)
      else
        let t := (s.hostStore a (e.bytes (s.func f).evprod)).modFunc f (fun x =>
          { x with evwait := rest, evprod := (x.evprod + 1) % 2 ^ 32 })
        if (s.func f).evirq then t.raiseMsi f (s.func f).evvec else t) := by
  unfold execEventRecordWrite
  simp only [hw]
  exact congrArg Host.Outcome.next (if_neg (by simpa [he] using hn))

theorem State.hostRead_queue {s : State} {f q : Nat} (hu : s.usable = true) (hf : virtual f = true) (off : Nat) (ho : off < 64) :
    s.hostRead f 0 (64 * q + off) = some (if s.hasQueue f q then ((s.func f).queue q).readWord off else 0) := by
  have h0 : f ≠ 0 := fun h => by simp [h, virtual] at hf
  have hq : (64 * q + off) / 64 = q := by omega
  have hm : (64 * q + off) % 64 = off := by omega
  simp [State.hostRead, hu, hf, h0, hq, hm]

theorem State.hostRead_func {s : State} {f : Nat} (hu : s.usable = true) (hf : virtual f = true) (off : Nat) :
    s.hostRead f 2 off = some ((s.func f).readWord off) := by
  have h0 : f ≠ 0 := fun h => by simp [h, virtual] at hf
  simp [State.hostRead, hu, hf, h0]

theorem State.func_modFunc_same (s : State) (f : Nat) (g : Func → Func) : (s.modFunc f g).func f = g (s.func f) := by
  simp [State.func, State.modFunc, Table.getD]

theorem State.func_modFunc_other (s : State) {f k : Nat} (g : Func → Func) (h : k ≠ f) : (s.modFunc f g).func k = s.func k := by
  simp [State.func, State.modFunc, Table.getD, Table.get?_set_other _ _ h]

/-! ## The world switch -/

theorem execSwitchOut_boundary {s : State} {f t : Nat} (hp : (s.func f).part ≠ none) (ha : (s.func f).active = true)
    (ht : (s.func f).switching = some t) (hb : (s.func f).atBoundary = true) :
    execSwitchOut f s = .next (
      let u := (s.joinSaves f (fun y => { y with hold := true })).saveResident f
      if u.savesUnderWay f then u else u.modFunc f (fun x => { x with active := false, switching := none })) := by
  unfold execSwitchOut
  refine congrArg Host.Outcome.next ?_
  have h : ¬ ((s.func f).part.isNone || !(s.func f).active) = true := by simp [ha, hp]
  simp only [if_neg h, ht, hb, Bool.not_true, Bool.false_eq_true, if_false]

theorem State.savesUnderWay_iff (s : State) (f : Nat) :
    s.savesUnderWay f = true ↔ ∃ y ∈ s.cuts, y.func = f ∧ y.method = .save ∧ y.state = .writing := by
  simp [State.savesUnderWay, and_assoc]

/-! ## The control die -/

theorem mem_insertNat_of_mem {x k : Nat} {l : List Nat} (h : k ∈ l) : k ∈ insertNat x l := by
  induction l with
  | nil => cases h
  | cons y rest ih =>
    unfold insertNat
    split
    · exact h
    · split
      · exact List.mem_cons_of_mem _ h
      · rcases List.mem_cons.1 h with rfl | h
        · exact List.mem_cons_self
        · exact List.mem_cons_of_mem _ (ih h)

theorem State.unfenceInput_parts (s : State) (i : Nat) : (s.unfenceInput i).parts = s.parts := by
  unfold State.unfenceInput
  split <;> rfl

theorem thermalTrip_due {s : State} {d : DieKind} (h : s.tripDue d = true) : ∃ t, execThermalTrip d s = .next t ∧
    t.control.tripped = true ∧ t.control.rsn = 5 ∧ t.control.trips = s.control.trips ++ [(s.time, d)] ∧ t.hbm = [] ∧ t.privMem = [] := by
  have hs : s.Steady False s.time s.control.trips := ⟨rfl, rfl, False.elim⟩
  have hr := State.resetDies_steady hs (List.range 4)
  unfold execThermalTrip
  generalize List.foldl _ s (List.range 4) = u at hr ⊢
  obtain ⟨htime, htrips, -⟩ := hr
  refine ⟨_, congrArg Host.Outcome.next (if_neg (by simp [h])), rfl, rfl, ?_, rfl, rfl⟩
  exact congrArg₂ (fun l n => l ++ [(n, d)]) htrips htime

/-- The state after a sample is that of its control's new values, with the step logged or not. -/
theorem State.log_or_not (p : Prop) [Decidable p] (s : State) (e : LogKind) :
    (∃ l, (if p then s else s.log e).control = { s.control with log := l }) ∧
    (if p then s else s.log e).waves = s.waves ∧ (if p then s else s.log e).hbm = s.hbm := by
  split
  · exact ⟨⟨s.control.log, rfl⟩, rfl, rfl⟩
  · unfold State.log
    generalize List.drop _ _ = l
    exact ⟨⟨l, rfl⟩, rfl, rfl⟩

theorem powerSample_due {s : State} (p : PowerSample) (h : s.sampleDue = true) : ∃ t, execPowerSample p s = .next t ∧
    let c := s.control
    let since := if psust c.pwrcfg < p.watts then some (c.overSince.getD s.time) else none
    let recent := (p.watts :: c.recent).take 10000
    let maximum := 105 ≤ p.compTemp ∨ 95 ≤ p.memTemp ∨ 105 ≤ p.ctrlTemp
    let more := pexc c.pwrcfg < p.watts ∨ (∃ t, since = some t ∧ t + 4000000 * texc c.pwrcfg < s.time) ∨
      psust c.pwrcfg * recent.length < recent.foldl (· + ·) 0 ∨ 100 ≤ p.compTemp ∨ 90 ≤ p.memTemp ∨ 100 ≤ p.ctrlTemp
    (maximum → t.control.steps = 15) ∧ (¬ maximum → more → t.control.steps = min 15 (c.steps + 1)) ∧
    (¬ maximum → ¬ more → t.control.steps = c.steps - 1) ∧
    t.control.overSince = since ∧ t.control.recent = recent ∧ t.control.temps = [p.compTemp, p.memTemp, p.ctrlTemp] ∧
    t.control.sampledAt = some s.time ∧ t.waves = s.waves ∧ t.hbm = s.hbm := by
  unfold execPowerSample
  extract_lets c above since long recent more steps u since' recent' maximum' more'
  refine ⟨_, congrArg Host.Outcome.next (if_neg (by simp [h])), ?_⟩
  have hmax : maximumSample p = true ↔ maximum' := by simp [maximumSample, maximum', or_assoc]
  have hsince : since = since' := by simp [since, since', above]
  have hlong : long = true ↔ ∃ t, since' = some t ∧ t + 4000000 * texc c.pwrcfg < s.time := by
    rw [← hsince]
    unfold long
    cases since <;> simp
  have hmore : more = true ↔ more' := by
    simp only [more, more', Bool.or_eq_true, decide_eq_true_eq, meanAbove, hotSample, hlong, or_assoc]
    rfl
  obtain ⟨⟨l, hcontrol⟩, hwaves, hhbm⟩ := State.log_or_not (steps = c.steps) u (.power steps)
  rw [hcontrol]
  refine ⟨fun hm => if_pos (hmax.2 hm), fun hm hmo => ?_, fun hm hmo => ?_, hsince, rfl, rfl, rfl, hwaves, hhbm⟩
  · exact ite_else (mt hmax.1 hm) (if_pos (hmore.2 hmo))
  · exact ite_else (mt hmax.1 hm) (if_neg (mt hmore.1 hmo))

theorem State.modControl_congr (s : State) {f g : Control → Control} (h : f s.control = g s.control) : s.modControl f = s.modControl g :=
  congrArg (fun c => { s with control := c }) h

/-- Settles O60. -/
theorem controlEvents : Obligations.ControlEvents := by
  unfold Obligations.ControlEvents
  intro s f x
  have hval : 1 ≤ f → f ≤ 256 → virtual f = true := virtual_of_range
  refine ⟨fun seq hu h1 h2 => congrArg Host.Outcome.next (if_pos (by simp [hu, hval h1 h2])), fun e rest hw he hn => ?eventRecord,
    fun v hu => ⟨?mbarg, fun q => ⟨?qro, ?funcRO, ?unused⟩, fun h1 h2 => ⟨?evcons, ?evsz, fun he => ?evbase, ?read, fun q => ⟨?read18, fun hq => ⟨?read0, ?read20, ?read28⟩⟩⟩⟩,
    fun stream hu h1 h2 ht hs => ?lock, fun ht => ?startI, fun hu h1 h2 => ⟨?stop, ?flr⟩, fun hu => ?flr0, fun hl => ?tdisp,
    fun hp ha => ⟨fun hs => ?outFirst, fun t ht hb => ?outEarly, fun t ht hb => ?outNow⟩, fun k hk ha hcuts => ?switchIn,
    fun p hp hpl => ?plugin, fun d hd => ⟨fun hok hr => ?dieReset, fun hok hr => ?dieWaits, fun hr hu ht => ?readmit⟩,
    fun slot hp hs => congrArg Host.Outcome.next (if_pos ⟨hp, hs⟩), fun hs => ?upload, rfl, fun power => ?start, fun b hb => ?training,
    fun c ran r => ?failed, rfl, fun u => ⟨rfl, rfl⟩, fun h8 hs => ?scrub, fun p => ⟨fun h => ?early, fun h => powerSample_due p h⟩,
    fun d => ?trip⟩
  case eventRecord =>
    intro ring a t
    rw [show exec (.eventRecordWrite f) s = execEventRecordWrite f s from rfl, execEventRecordWrite_due hw he hn]
    have ha : x.ringBase + 256 * (x.evprod % 2 ^ x.evsz) = a := rfl
    simp only [show s.func f = x from rfl, ha]
    refine ⟨fun hm => ?_, fun hm hz => ?_, fun hm hz => ?_⟩
    · simp only [hm, Bool.not_true, Bool.false_eq_true, if_false]
      rfl
    · simp only [hm, hz, Bool.not_false, Bool.false_eq_true, if_true, if_false]
    · simp only [hm, hz, Bool.not_false, if_true]
  case mbarg => exact congrArg Host.Outcome.next (if_neg (by simp [hu]))
  case qro => exact congrArg Host.Outcome.next (if_neg (by simp [hu]))
  case funcRO => exact congrArg Host.Outcome.next (if_neg (by simp [hu]))
  case unused => exact congrArg Host.Outcome.next (if_neg (by simp [hu]))
  case evcons => exact congrArg Host.Outcome.next (ite_else (by simp [hu]) (if_pos (hval h1 h2)))
  case evsz => exact congrArg Host.Outcome.next (ite_else (by simp [hu]) (if_pos (hval h1 h2)))
  case evbase => exact congrArg Host.Outcome.next (ite_else (by simp [hu]) (if_pos (by simpa [hval h1 h2] using he)))
  case read => exact State.hostRead_func hu (hval h1 h2) 0x20
  case read18 =>
    rw [State.hostRead_queue hu (hval h1 h2) 0x18 (by decide)]
    split <;> rfl
  case read0 =>
    have h := State.hostRead_queue (q := q) hu (hval h1 h2) 0 (by decide)
    rwa [if_pos hq] at h
  case read20 =>
    rw [State.hostRead_queue hu (hval h1 h2) 0x20 (by decide), if_pos hq]
    rfl
  case read28 =>
    rw [State.hostRead_queue hu (hval h1 h2) 0x28 (by decide), if_pos hq]
    rfl
  case lock =>
    have h : (s.usable && virtual f && (s.func f).tdst == .configUnlocked && decide (stream < 8)) = true := by
      simp [hu, hval h1 h2, hs, show (s.func f).tdst = .configUnlocked from ht]
    exact congrArg Host.Outcome.next (if_pos h)
  case startI => exact congrArg Host.Outcome.next (if_pos ht)
  case stop => exact congrArg Host.Outcome.next (if_pos (by simp [hu, hval h1 h2]))
  case flr =>
    exact congrArg Host.Outcome.next (ite_else (by simp [hu]) (ite_else (by omega) (if_pos (hval h1 h2))))
  case flr0 =>
    refine ⟨_, congrArg Host.Outcome.next (ite_else (by simp [hu]) (if_pos rfl)), ?_, rfl, rfl, rfl, rfl, fun k hk => ?_⟩
    · exact congrArg Func.msix (s.func_modFunc_same 0 (fun x => { x with msix := [], msixPend := [] }))
    · exact s.func_modFunc_other (fun x => { x with msix := [], msixPend := [] }) hk
  case tdisp => exact congrArg Host.Outcome.next (if_pos hl)
  case outFirst =>
    have h : ¬ (x.part.isNone || !x.active) = true := by simp [ha, hp]
    refine congrArg Host.Outcome.next (ite_else h ?_)
    simp only [show (s.func f).switching = none from hs]
  case outEarly =>
    have h : ¬ (x.part.isNone || !x.active) = true := by simp [ha, hp]
    refine congrArg Host.Outcome.next (ite_else h ?_)
    simp only [show (s.func f).switching = some t from ht]
    exact if_pos (by simpa using hb)
  case outNow =>
    intro u saving
    rw [show exec (.switchOut f) s = execSwitchOut f s from rfl, execSwitchOut_boundary hp ha ht hb]
    exact ⟨fun h => congrArg Host.Outcome.next (if_pos ((u.savesUnderWay_iff f).2 h)),
      fun h => congrArg Host.Outcome.next (if_neg (mt (u.savesUnderWay_iff f).1 h))⟩
  case switchIn =>
    have h : ¬ (x.part.isNone || x.active) = true := by simp [ha, hk]
    have hnone : s.cuts.filter (fun u => u.func == f && u.reason == 0 && u.hold) = [] := by
      refine List.filter_eq_nil_iff.2 fun u hu => ?_
      have := hcuts u hu
      simp only [Bool.and_eq_true, beq_iff_eq]
      rintro ⟨⟨h1, h2⟩, h3⟩
      simpa [h2, h3] using this h1
    refine congrArg Host.Outcome.next (ite_else h ?_)
    simp only [hnone, List.foldl_nil]
    have hpart : ((s.modFunc f (fun x => { x with active := true, activeAt := s.time })).func f).part = some k :=
      (congrArg Func.part (s.func_modFunc_same f _)).trans hk
    unfold State.noteRun
    rw [hpart]
  case plugin =>
    refine congrArg Host.Outcome.next ?_
    simp only [hp, hpl, if_true]
  case dieReset =>
    refine congrArg Host.Outcome.next ?_
    unfold State.dieError
    simp only [hd, hok, hr, Bool.not_true, Bool.false_eq_true, if_false]
  case dieWaits =>
    refine ⟨_, congrArg Host.Outcome.next (?_ : s.dieError f = s.modControl (fun c => { c with dieErrors := insertNat f c.dieErrors })),
      mem_insertNat _ _, rfl, fun k hk => mem_insertNat_of_mem hk⟩
    unfold State.dieError
    simp only [hd, hok, hr, Bool.not_true, Bool.false_eq_true, if_false, if_true]
  case readmit =>
    intro t
    have h : ¬ (!(d.resetting && s.usable && !s.control.tripped)) = true := by simp [hr, hu, ht]
    refine ⟨fun hpass => congrArg Host.Outcome.next ?_, fun hpass => congrArg Host.Outcome.next ?_⟩
    · simp only [hd, if_neg h, hpass, if_true]
      rw [State.log_parts, State.unfenceInput_parts, State.modDie_parts]
    · simp only [hd, if_neg h, hpass, Bool.false_eq_true, if_false]
      rfl
  case upload =>
    intro l
    refine ⟨fun hv => congrArg Host.Outcome.next ?_, fun hv => congrArg Host.Outcome.next ?_⟩
    · rw [if_pos hs]
      exact if_pos hv
    · rw [if_pos hs]
      exact if_neg hv
  case start =>
    intro t b hv
    refine congrArg Host.Outcome.next ((if_pos hv).trans (State.modControl_congr _ ?_))
    exact congrArg (fun v => { t.control.note b v with phase := .training b }) hv
  case training =>
    refine ⟨fun ht => congrArg Host.Outcome.next ?_, fun dies htr hd => congrArg Host.Outcome.next ?_,
      fun dies htr => congrArg Host.Outcome.next ?_, fun ok dies htr => congrArg Host.Outcome.next ?_,
      fun htr => congrArg Host.Outcome.next ?_⟩
    · simp only [hb, if_pos ht]
    · simp only [hb, htr, Bool.not_true, Bool.or_self, Bool.false_eq_true, if_false, if_neg hd]
    · simp only [hb, htr, Bool.not_false, Bool.true_or, if_true]
      exact State.modControl_congr _ (by simp only [htr, Bool.false_eq_true, if_false])
    · simp only [hb, htr, Bool.or_true, if_true]
      exact State.modControl_congr _ (by simp only [htr, if_true])
    · simp only [hb, htr, Bool.not_true, Bool.or_self, Bool.false_eq_true, if_false, if_true]
  case failed =>
    intro n tried
    cases ran <;> exact ⟨rfl, rfl⟩
  case scrub =>
    refine ⟨_, congrArg Host.Outcome.next (if_pos ⟨h8, hs⟩), ?_, rfl⟩
    simp [State.modControl, List.getD, h8]
  case early => exact congrArg Host.Outcome.next (if_pos (by simp [h]))
  case trip =>
    intro limit seen
    have hdue : s.tripDue d = true ↔ s.control.tripped = false ∧ limit ≤ seen := by
      cases d <;> simp [State.tripDue, tripTemp, tempPlace, limit, seen]
    refine ⟨fun h => congrArg Host.Outcome.next (if_pos ?_), fun h1 h2 => thermalTrip_due (hdue.2 ⟨h1, h2⟩)⟩
    have hnot : ¬ s.tripDue d = true := by
      rw [hdue]
      rintro ⟨h1, h2⟩
      rcases h with h | h
      · simp [h1] at h
      · omega
    simp [hnot]

end Sys2Proof.Machine

end

