-- ==== Sys2Proof/Proofs/EngineEvents.lean ====
section
/-! The events of accesses and of the copy engines (O51, O52). -/

namespace Sys2Proof.Machine

/-! # Accesses

The events of accesses (O51). The statement lets LOAD_COMPLETE do nothing for an operation that is no `.load` while its
wave takes no answers; the model waits for `MemKind.isLoad` to fail, and a prefetch is a load in that sense. A prefetch whose
unit is back is thus answered inside a quantum. -/

/-- The one unit of an access, back at tick 0. -/
def backUnit : MemUnit :=
  { lane := 0, off := 0, len := 4, va := 0, loc := .priv 0, phase := .arrived, data := 0, cmp := 0, reg := 0, since := 0
    gwct := 0, ease := none, sent := none, rank := 0, noL2 := false, noL1 := false }

/-- A prefetch with that unit, which returns a value. -/
def backOp : MemOp :=
  { id := 0, at_ := 0, kind := .prefetch false, md := 0, size := 4, sx := false, returns := true, flag := none, atEnd := true
    counted := false, gang := 1, src := ⟨0, 0, 0, 0, 0, []⟩, lease := 1024, units := [backUnit] }

/-- A wave inside a quantum, none of whose gangs is passed over, with that operation outstanding. -/
def quantumWave : Wave :=
  { newWave wordKernel 0 1 0 0 1 0 0 0 0 0 [] 16 [] 0 (some { newDet 0 0 with ended := false }) with memOps := [backOp] }

/-- A machine with that wave, long after the unit has come back. -/
def quantumState : State := { State.reset with time := 100, waves := State.reset.waves.set 0 quantumWave }

/-- No copy serves the unit, it is out, its operation is no load, and the wave takes no answers. -/
theorem quantumState_waits : quantumState.findUnit 0 0 0 = some (quantumWave, backOp, backUnit) ∧
    quantumState.servedByCopy quantumWave backOp backUnit = none ∧ backUnit.out = true ∧ quantumWave.takesAnswers = false := by
  decide +kernel

/-- The operation is answered and over. -/
theorem quantumState_answered :
    (match exec (.loadComplete 0 0 0) quantumState with
      | .next t => (t.waves.get? 0).any (fun w => w.memOps.isEmpty)
      | _ => false) = true := by
  decide +kernel

/-- Refutes O51: in `quantumState` nothing should happen, and the prefetch completes. -/
theorem not_memoryEvents : ¬ Obligations.MemoryEvents := by
  unfold Obligations.MemoryEvents
  intro h
  obtain ⟨hfind, hserved, hout, hanswers⟩ := quantumState_waits
  obtain ⟨hunit, -⟩ := h quantumState 0 0 0
  obtain ⟨-, -, -, hwaits, -⟩ := hunit quantumWave backOp backUnit hfind
  have hstays := hwaits hserved hout (.inr (.inr ⟨fun _ _ h => MemKind.noConfusion h, hanswers⟩))
  have hover := quantumState_answered
  rw [hstays] at hover
  exact absurd hover (by decide +kernel)

/-! # Copy engines

The events of the copy engines (O52): segments, the records of chains, and the buckets of bandwidth shares. -/

/-! ## Segments (R300) -/

/-- The next step of an operation that is released and does not stand: the index of its row is read, or its paid segment
performs. -/
def State.goingStep (s : State) (x : Transfer) : State :=
  if x.op.indexed && x.ridx.isNone then
    if !s.ways x (if s.engineNear x (descIdx x.desc + 4 * x.row) then 0 else 2) then s
    else (match s.readPieces (s.xferDecoder x) (s.orderOf x.wave) x.func (engineKey x.core) x.priv
        [(descIdx x.desc + 4 * x.row, 4)] with
      | (s, .stop e) => s.stopXfer x e
      | (s, .wait) => s.modXfer x.id (fun y => { y with since := some (y.since.getD s.time) })
      | (s, .later) => s
      | (s, .data l) => s.modXfer x.id (fun y => { y with ridx := some (leNat l), since := none, turn := s.time }))
  else if x.paid then s.performSegment x
  else s

section
variable {s : State} {x : Transfer}

theorem exec_segmentPerform (hx : s.xfers.find? (fun y => y.id == x.id) = some x) (hb : x.buffered = false)
    (hl : x.chain = false ∨ x.loaded = true) :
    exec (.segmentPerform x.id) s = .next (match x.perf with
      | some g => if g ≤ s.time ∧ s.countTurn x = true then s.countSegment x else s
      | none =>
        if (x.chain && x.cancel) = true then s.cancelChain x
        else if (s.xferStands x || !s.xferReleased x) = true then s
        else s.goingStep x) := by
  refine congrArg Host.Outcome.next ?_
  have hloaded : (x.buffered || x.chain && !x.loaded) = false := by
    rcases hl with hl | hl <;> simp [hb, hl]
  simp only [hx, hloaded, Bool.false_eq_true, if_false] <;> rfl

theorem exec_segmentPerform_going (hx : s.xfers.find? (fun y => y.id == x.id) = some x) (hb : x.buffered = false)
    (hl : x.chain = false ∨ x.loaded = true) (hp : x.perf = none) (hc : ¬ (x.chain = true ∧ x.cancel = true))
    (hs : s.xferStands x = false) (hr : s.xferReleased x = true) :
    exec (.segmentPerform x.id) s = .next (s.goingStep x) := by
  rw [exec_segmentPerform hx hb hl, hp]
  exact congrArg Host.Outcome.next (ite_else (by simpa using hc) (if_neg (by simp [hs, hr])))

theorem State.goingStep_paid (h : x.op.indexed = false ∨ x.ridx.isSome = true) (hp : x.paid = true) :
    s.goingStep x = s.performSegment x := by
  refine ite_else ?_ (if_pos hp)
  rcases h with h | h
  · simp [h]
  · simp [Option.isNone_eq_false_iff.2 h]

theorem State.goingStep_far (hi : x.op.indexed = true) (hr : x.ridx = none)
    (hw : s.ways x (if s.engineNear x (descIdx x.desc + 4 * x.row) then 0 else 2) = false) : s.goingStep x = s :=
  (if_pos (by simp [hi, hr])).trans (if_pos (by rw [hw]; rfl))

theorem State.goingStep_index (hi : x.op.indexed = true) (hr : x.ridx = none)
    (hw : s.ways x (if s.engineNear x (descIdx x.desc + 4 * x.row) then 0 else 2) = true) {t : State} {bytes : List Byte}
    (hd : s.readPieces (s.xferDecoder x) (s.orderOf x.wave) x.func (engineKey x.core) x.priv [(descIdx x.desc + 4 * x.row, 4)] =
      (t, .data bytes)) :
    s.goingStep x = t.modXfer x.id (fun y => { y with ridx := some (leNat bytes), since := none, turn := t.time }) := by
  refine (if_pos (by simp [hi, hr])).trans (ite_else (by rw [hw]; decide) ?_)
  simp only [hd]

/-! ## Chains (R307) -/

theorem State.addEases_time (s : State) (core : Nat) (l : List Ease) : (s.addEases core l).time = s.time := by
  induction l generalizing s with
  | nil => rfl
  | cons e l ih => exact ih _

/-- A channel whose next record is fetched. -/
theorem exec_chainRecordFetch (hx : s.xfers.find? (fun y => y.id == x.id) = some x) (hb : x.buffered = false)
    (hc : x.chain = true) (hl : x.loaded = false) (hn : x.cancel = false) (hs : s.xferStands x = false)
    (hr : s.xferReleased x = true) (hw : x.want = none) (hways : s.ways x (if s.engineNear x x.cur.toNat then 0 else 2) = true) :
    exec (.chainRecordFetch x.id) s = .next (match s.readRecord x with
      | (s, .error e) => s.lostRecord x e
      | (s, .ok none) => if s.xferWaits { x with since := some 0 } then
          s.modXfer x.id (fun y => { y with since := some (y.since.getD s.time) }) else s
      | (s, .ok (some m)) =>
        if natBits (descWord m 14) 31 1 = 0 then s.stopChain x false none 0
        else match s.recordFault x m with
          | .error c => (s.writeStat x (statWord true false true c.code 0)).stopChain x false (some c) 0
          | .ok op => s.startRecord { x with op, desc := m.take 12 }) := by
  refine congrArg Host.Outcome.next ?_
  simp only [hx, hc, hl, hb, hn, hs, hr, hw, hways, Bool.not_true, Bool.or_self, Bool.false_eq_true, if_false, Option.isSome_none]
    <;> rfl

theorem State.startRecord_waits (hw : x.want = none) (ht : s.recordTurn x s.time = false) :
    s.startRecord x = s.modXfer x.id (fun _ => { x with want := some s.time }) := by
  unfold State.startRecord
  simp only [hw, Option.getD_none, ht, Bool.not_false, if_true]

/-- A record that starts: its easements stand, and it is its channel's. -/
def State.begunRecord (s : State) (x : Transfer) : State :=
  let y := { x with loaded := true, segs := 0, row := 0, off := 0, ridx := none, eased := true, paid := false, since := none
                    want := none, turn := s.time }
  ((s.addEases x.core (opEases (s.xferDecoder x) x.id x.func x.op x.desc)).modXfer x.id (fun _ => y)).noteChan y

theorem State.startRecord_starts (hw : x.want = none) (ht : s.recordTurn x s.time = true) :
    s.startRecord x = match x.wave with
      | some k => if descDst x.desc < 2 ^ 56 then
          (s.begunRecord x).modWave k (fun w => { w with idem := false, side := true }) else s.begunRecord x
      | none => s.begunRecord x := by
  have hdst : descDst x.desc / 2 ^ 56 = 0 ↔ descDst x.desc < 2 ^ 56 := by omega
  unfold State.startRecord
  simp only [hw, Option.getD_none, ht, Bool.not_true, Bool.false_eq_true, if_false, State.addEases_time, hdst]
  rfl

/-! ## Buckets (R311, R312) -/

variable {part engine func : Nat} {b : Bucket}

theorem State.refill_eq (hb : s.buckets.get? (engine * 512 + func) = some b) :
    s.refill part engine func = s.setBucket part engine func
      ({ (refillTicks (bktDepth (s.func func).bktcfg) (bktRate (s.func func).bktcfg) (s.poolCap part) (s.time - b.last)
          (b, s.pool part engine)).1 with last := s.time },
        (refillTicks (bktDepth (s.func func).bktcfg) (bktRate (s.func func).bktcfg) (s.poolCap part) (s.time - b.last)
          (b, s.pool part engine)).2) := by
  simp only [State.refill, State.bucket, Table.getD, hb, Option.getD_some]

theorem exec_bucketRefill_behind (hpart : (s.func func).part = some part) (hb : s.buckets.get? (engine * 512 + func) = some b)
    (hlast : b.last < s.time) : exec (.bucketRefill engine func) s = .next (s.refill part engine func) := by
  refine congrArg Host.Outcome.next ?_
  simp only [hpart, hb, hlast, if_true]

theorem exec_bucketRefill_pays {z : Transfer} (hpart : (s.func func).part = some part)
    (hb : s.buckets.get? (engine * 512 + func) = some b) (hlast : s.time ≤ b.last) (hmay : s.mayPay part engine = true)
    (hz : s.payable engine func = some z) :
    exec (.bucketRefill engine func) s = .next
      (match payBytes (bktDepth (s.func func).bktcfg) (256 * z.segment.2.2) (b, s.pool part engine) with
        | ((b, p), true) => (s.setBucket part engine func ({ b with paidAt := some s.time }, p)).modXfer z.id (fun t =>
            { t with paid := true, turn := s.time })
        | (x, false) => s.setBucket part engine func x) := by
  refine congrArg Host.Outcome.next ?_
  simp only [hpart, hb, Nat.not_lt.2 hlast, if_false, hmay, if_true, State.payNext, hz] <;> rfl

variable {depth c p : Nat}

theorem payBytes_tokens (ht : c ≤ b.tokens) : payBytes depth c (b, p) = (({ b with tokens := b.tokens - c }, p), true) := if_pos ht

theorem payBytes_loan (ht : b.tokens < c) (hl : b.loan ≠ .repay) (hd : b.debt + c ≤ depth) (hp : c ≤ p) :
    payBytes depth c (b, p) = (({ b with debt := b.debt + c, loan := .opened }, p - c), true) :=
  ite_else (Nat.not_le.2 ht) (if_pos ⟨hl, hd, hp⟩)

theorem payBytes_waits (ht : b.tokens < c) (h : b.loan = .repay ∨ p < c) (hd : b.debt + c ≤ depth) :
    payBytes depth c (b, p) = ((b, p), false) := by
  refine ite_else (Nat.not_le.2 ht) (ite_else (fun ⟨hl, _, hp⟩ => h.elim hl (Nat.not_lt.2 hp)) ?_)
  rw [if_neg (fun h => absurd h.2 (Nat.not_lt.2 hd))]

end

/-- Settles O52. -/
theorem engineEvents : Obligations.EngineEvents := by
  unfold Obligations.EngineEvents
  intro s x hx hb going
  refine ⟨fun hl => ⟨fun g hp hg ht => ?_, fun g hp h => ?_, fun hp hc hn => ?_, fun hp hc hgo hi hpaid => ?_,
    fun hp hc hgo hi hr hw t bytes hd => ?_, fun hp hc hgo hi hr hw => ?_⟩, fun links => ?_, fun hc hl hn => ?_,
    fun hc hl hn hgo hw hways => ⟨fun t e ht => ?_, fun t m ht => ?record⟩, fun engine func part hpart => ?bucket⟩
  · rw [exec_segmentPerform hx hb hl, hp]
    exact congrArg Host.Outcome.next (if_pos ⟨hg, ht⟩)
  · rw [exec_segmentPerform hx hb hl, hp]
    refine congrArg Host.Outcome.next (if_neg fun ⟨hg, ht⟩ => ?_)
    rcases h with h | h
    · omega
    · simp [h] at ht
  · rw [exec_segmentPerform hx hb hl, hp]
    exact congrArg Host.Outcome.next (if_pos (by simp [hc, hn]))
  · rw [exec_segmentPerform_going hx hb hl hp hc hgo.1 hgo.2, State.goingStep_paid hi hpaid]
  · rw [exec_segmentPerform_going hx hb hl hp hc hgo.1 hgo.2, State.goingStep_index hi hr hw hd]
  · rw [exec_segmentPerform_going hx hb hl hp (by simp [hc]) hgo.1 hgo.2, State.goingStep_far hi hr hw]
  · simp [State.ways]
  · refine congrArg Host.Outcome.next ?_
    simp only [hx, hc, hl, hb, hn, Bool.not_true, Bool.or_self, Bool.false_eq_true, if_false, if_true]
  · rw [exec_chainRecordFetch hx hb hc hl hn hgo.1 hgo.2 hw hways, ht]
  case record =>
    intro start
    rw [exec_chainRecordFetch hx hb hc hl hn hgo.1 hgo.2 hw hways, ht]
    refine ⟨fun h14 => congrArg Host.Outcome.next (if_pos h14), fun c h14 hf => ?_, fun op h14 hf => ?_⟩
    · refine congrArg Host.Outcome.next (ite_else (fun h => one_ne_zero (h14.symm.trans h)) ?_)
      rw [hf]
    · refine ⟨fun ht => ?_, fun ht => ?_⟩ <;>
        refine congrArg Host.Outcome.next (ite_else (fun h => one_ne_zero (h14.symm.trans h)) ?_) <;> rw [hf]
      · exact (State.startRecord_starts (x := { x with op, desc := m.take 12 }) hw ht)
      · exact State.startRecord_waits (x := { x with op, desc := m.take 12 }) hw ht
  case bucket =>
    intro key depth
    refine ⟨fun hnone => ?_, fun b hb hlast => ?_, fun b z hb hlast hmay hz => ?_⟩
    · refine congrArg Host.Outcome.next ?_
      simp only [key] at hnone
      simp only [hpart, hnone, key]
    · refine ⟨_, _, rfl, ?_⟩
      rw [exec_bucketRefill_behind hpart hb (by omega), State.refill_eq hb, show s.time - b.last = 1 by omega]
      rfl
    · intro bytes paid
      rw [exec_bucketRefill_pays hpart hb hlast hmay hz]
      refine ⟨fun ht => ?_, fun ht hloan hdebt hpool => ?_, fun ht hno hdebt => ?_⟩ <;> refine congrArg Host.Outcome.next ?_
      · rw [payBytes_tokens ht]
      · rw [payBytes_loan ht hloan hdebt hpool]
      · rw [payBytes_waits ht hno hdebt]

end Sys2Proof.Machine

end
